-- ==== Sys2Proof/Word.lean ====
section
/-! DEFINITION. The word types of the QZ8 and the sparse maps the state is made of. -/

namespace Sys2Proof

/-- A 32-bit register value (R16). -/
abbrev Word := BitVec 32
/-- A 64-bit value: an address, a time, a scalar pair (R16, R98). -/
abbrev DWord := BitVec 64
/-- One byte of memory. -/
abbrev Byte := BitVec 8
/-- One bit per thread of a wave: bit t is thread t (R12). -/
abbrev Mask := BitVec 32

/-- The mask of all 32 threads. -/
def fullMask : Mask := 0xFFFF_FFFF#32

/-- A sparse map: pairs in strictly rising key order. -/
abbrev AMap (α : Type) := List (Nat × α)

end Sys2Proof
end

