-- ==== Sys2Proof/Syntax.lean ====
section
/-! DEFINITION. The steps of the QZ8: one constructor of `Instr` for each row of the opcode table.
The rows with a source mnemonic are the instructions of the opcode map (R62) and of the half map (R52);
the other rows are the indivisible steps of the part's own agents, which carry what singles the step out. -/

namespace Sys2Proof

/-- An operand of the 8-bit index space (R48). -/
inductive Opnd where
  | v (n : Fin 128) | s (n : Fin 64) | wg (n : Fin 16) | p (n : Fin 8)
  | k (n : Fin 11) | null
  deriving DecidableEq, Repr

/-- The guard field G of the full form (R46). -/
structure Guard where
  neg : Bool
  p : Fin 8
  deriving DecidableEq, Repr

/-- The B operand of an opcode with an immediate form: B = 0xFF selects the 19-bit immediate (R44). -/
inductive SrcB where
  | reg (o : Opnd) | imm (v : BitVec 19)
  deriving DecidableEq, Repr

/-- D and A. -/
structure Op1 where
  g : Guard
  d : Opnd
  a : Opnd
  deriving DecidableEq, Repr

/-- D, A and a B that may be an immediate. -/
structure Op2 where
  g : Guard
  d : Opnd
  a : Opnd
  b : SrcB
  deriving DecidableEq, Repr

/-- D, A and B, with no immediate form. -/
structure OpAB where
  g : Guard
  d : Opnd
  a : Opnd
  b : Opnd
  deriving DecidableEq, Repr

/-- D, A, B and C[18:11]. -/
structure Op3 where
  g : Guard
  d : Opnd
  a : Opnd
  b : Opnd
  c : Opnd
  deriving DecidableEq, Repr

/-- M[0] type of the integer entries (R103). -/
inductive IntTy where
  | i32 | n32
  deriving DecidableEq, Repr

/-- cmp conditions (R110). -/
inductive Cond where
  | eq | ne | lt | le | gt | ge
  deriving DecidableEq, Repr

/-- fcmp conditions (R115). -/
inductive FCond where
  | eq | ne | lt | le | gt | ge | ord | uno
  deriving DecidableEq, Repr

/-- The combine of cmp and fcmp (R110). -/
inductive Comb where
  | set | and | or
  deriving DecidableEq, Repr

/-- cvt type codes 0 to 10 (R122). -/
inductive CvtTy where
  | i8 | i16 | i32 | n8 | n16 | n32 | f32 | f16 | bf16 | e4m3 | e5m2
  deriving DecidableEq, Repr

/-- pack2 element types (R123). -/
inductive Pack2Ty where
  | f16 | bf16 | i16 | n16
  deriving DecidableEq, Repr

/-- pack4 element types (R123). -/
inductive Pack4Ty where
  | e4m3 | e5m2 | i8 | n8
  deriving DecidableEq, Repr

/-- unpack source types (R124). -/
inductive UnpackTy where
  | f16 | bf16 | e4m3 | e5m2 | i8 | n8 | i16 | n16
  deriving DecidableEq, Repr

/-- vote operations (R129). -/
inductive VoteOp where
  | or | and | mask | agree
  deriving DecidableEq, Repr

/-- shfl modes (R130). -/
inductive ShflMode where
  | at | mir | back | fwd
  deriving DecidableEq, Repr

/-- redux and scan operations (R131). -/
inductive RedOp where
  | addI32 | minI32 | maxI32 | minN32 | maxN32 | and | or | xor | fadd | fmin | fmax
  deriving DecidableEq, Repr

/-- The special registers (R19). -/
inductive SReg where
  | tid | wave | wgidX | wgidY | wgidZ | stage | core | cluster | cyc | dtc | lwt | uconf
  | mflags | seed | split | class | piter | pfix | trap
  deriving DecidableEq, Repr

/-- Access sizes M[2:0] (R167). -/
inductive Size where
  | b8 | b16 | b32 | b64 | b128
  deriving DecidableEq, Repr

/-- The four sizes of a queue or 32/64-bit element choices use `Size` too. The in-flight paths (R177). -/
inductive Path where
  | g | s | m | c | q | x
  deriving DecidableEq, Repr

/-- Atomic operations 0x0 to 0x9 (R172). -/
inductive AtomOp where
  | add | minS | maxS | minU | maxU | and | or | xor | exch | addF
  deriving DecidableEq, Repr

/-- Scopes of fences and global atomics (R319, R330). -/
inductive Scope where
  | dv | cl | sy
  deriving DecidableEq, Repr

/-- Tile spaces of the tag instructions (R174). -/
inductive Space where
  | a | w | c
  deriving DecidableEq, Repr

/-- Epilogue activations (R230). -/
inductive Act where
  | none | relu | clamp6 | tanh
  deriving DecidableEq, Repr

/-- Epilogue formats (R230). -/
inductive EpiFmt where
  | f32 | f16 | bf16 | e4m3 | e5m2 | i8 | n8
  deriving DecidableEq, Repr

/-- Bridle combines (R352). -/
inductive Combine where
  | addF32 | addX | maxF32 | minF32 | addI32
  deriving DecidableEq, Repr

/-- A transfer target (R138): a displacement in bundles, or a scalar pair. -/
inductive Target where
  | disp (d : BitVec 19) | reg (n : Fin 64)
  deriving DecidableEq, Repr

/-- Rounding field of pfx.m (R56); `dflt` is the opcode's default. -/
inductive Rnd where
  | dflt | rne | rtz | rup | rdn | rna | rs
  deriving DecidableEq, Repr

/-- Saturation field of pfx.m (R56). -/
inductive Sat where
  | none | sat | sats | satf
  deriving DecidableEq, Repr

/-- The modifiers a pfx.m carries (R56). -/
structure PfxM where
  rnd : Rnd
  sat : Sat
  ftz : Bool
  deriving DecidableEq, Repr

/-- Half guards (R51). -/
inductive HGuard where
  | none | p0 | np0 | p1
  deriving DecidableEq, Repr

/-- The S field of a half (R51): an operand, or a signed 8-bit immediate. -/
inductive HSrc where
  | reg (o : Opnd) | imm (v : BitVec 8)
  deriving DecidableEq, Repr

/-- One half (R51). -/
structure Half where
  g : HGuard
  d : Fin 128
  s : HSrc
  deriving DecidableEq, Repr

/-- A local load or store (R167, R171): lookahead count, operands, offset in elements, size, sign extension. -/
structure LocalOp where
  g : Guard
  la : BitVec 4
  d : Opnd
  a : Opnd
  b : Opnd
  off : BitVec 8
  size : Size
  sx : Bool
  deriving DecidableEq, Repr

/-- ld.c and st.c (R171). -/
structure TileOp where
  g : Guard
  la : BitVec 4
  d : Opnd
  a : Opnd
  off : BitVec 8
  size : Size
  tile : BitVec 5
  deriving DecidableEq, Repr

/-- tagset, tagclr and tagwait (R174). -/
structure TagOp where
  a : Opnd
  off : BitVec 8
  space : Space
  v : Bool
  c : Bool
  cnt : BitVec 3
  deriving DecidableEq, Repr

/-- mma and mma.sp (R225): tile, format-block pair, addresses, offsets, K/16 - 1. -/
structure MmaOp where
  g : Guard
  fb : Fin 64
  a : Opnd
  b : Opnd
  c : Opnd
  tile : BitVec 5
  kk : BitVec 4
  deriving DecidableEq, Repr

/-- Where an event acts: core, context and split id. -/
structure Cursor where
  core : Nat
  ctx : Nat
  split : Nat
  deriving DecidableEq, Repr

/-- The three requesters of a core's current arbiter (R277). -/
inductive Requester where
  | matrix | vector | copy
  deriving DecidableEq, Repr

/-- Who asks for a pre-emption (R240), and what it names: a wave, a workgroup (evicted or only stopped), or a grid. -/
inductive PreTarget where
  | wave (core ctx : Nat) | workgroup (wg : Nat) (evict : Bool) | grid (id : Nat)
  deriving DecidableEq, Repr

/-- The faults the array can detect (R224). -/
inductive MFaultKind where
  | translation (kind : Nat) | protection | dataError
  deriving DecidableEq, Repr

/-- One firmware image as the boot ROM reads it (R413). -/
structure BootImage where
  pk : BitVec 512
  version : Nat
  sig : List Byte
  body : List Byte
  deriving DecidableEq, Repr

/-- Where an error is met: an uncorrectable one in the part's own memories and transfers (R410), or one that a channel
corrects (R401). -/
inductive ErrSite where
  | dram (pa : Nat) | slice (slice line : Nat) | rrot (cluster member : Nat) | xst (cluster idx : Nat)
  | copyPart (core req : Nat) | kbuf (cluster : Nat) | corrected (chan : Nat)
  deriving DecidableEq, Repr

/-- The host's atomic codes on Irsin (R416). -/
inductive HostAtomic where
  | op (o : AtomOp) | cas
  deriving DecidableEq, Repr

/-- An Irsin message as the device receives it in sequence order (R416 to R419). -/
structure IrsinHdr where
  conn : Nat
  seq : Nat
  ackReq : Bool
  ack : Nat
  sack : BitVec 32
  deriving DecidableEq, Repr

/-- Bodies of the management operations (R420). -/
inductive MgmtReq where
  | readStatus
  | placeAreas (logRing traceRing spill tagArea savePool : Option (Nat × Nat))
  | setClim (cluster value : Nat) | setRlim (rail value : Nat) | setRail (cluster rail : Nat)
  | setPartition (idx mask lo hi : Nat) | setBoost (cluster : Nat) (on : Bool)
  | writeRule (idx : Nat) (bytes : List Byte)
  | writePlacement (idx : Nat) (bytes : List Byte)
  | setPerf (core k event : Nat) (stage : Option Nat)
  | setOrphan (raw : Nat)
  | placeRbase (pa : Nat)
  | invalidate (asid lo hi : Nat)
  | cpConfig (cp base log2size asid root headWord : Nat) | cpStart (cp addr : Nat)
  | preempt (cp : Nat) (t : PreTarget)
  | wake (grid wg wave : Nat)
  | resumeBrk (grid wg wave : Nat) | endGrid (grid : Nat)
  | assignQueue (grid cluster : Nat)
  | setPtp (profile domain : Nat) | freeRun (start : BitVec 64) | leaveFreeRun
  | attestation (nonce : BitVec 256)
  | mapHostWindow (conn : Nat)
  | malformed (code : Nat)
  deriving DecidableEq, Repr

/-- Configuration registers without a row of their own (R279, R415, R420). -/
inductive CfgReg where
  | thot | ipv4 | ipv6 | extend (reg : Nat)
  deriving DecidableEq, Repr

/-- Requests the recovery channel takes (R413). -/
inductive RecoveryReq where
  | image (i : BootImage) | measurement
  deriving DecidableEq, Repr

/-- One constructor per row of the opcode table. -/
inductive Instr where
  -- group 0x0 (R103 to R111)
  | add (o : Op2) (ty : IntTy)
  | sub (o : Op2) (ty : IntTy)
  | mulLo (o : Op2) (ty : IntTy)
  | mulHi (o : Op2) (ty : IntTy)
  | mad (o : Op3) (ty : IntTy)
  | min (o : Op2) (ty : IntTy)
  | max (o : Op2) (ty : IntTy)
  | abs (o : Op1)
  | and (o : Op2)
  | or (o : Op2)
  | xor (o : Op2)
  | lop3 (o : Op3) (tbl : BitVec 8)
  | shl (o : Op2)
  | shr (o : Op2)
  | sar (o : Op2)
  | rot (o : Op2)
  | bfe (o : Op2) (sx : Bool)
  | bfi (o : Op2)
  | popc (o : Op1)
  | clz (o : Op1)
  | brev (o : Op1)
  | addW (o : Op2)
  | lea (o : Op2) (sh : Fin 5) (z : Bool)
  | cmp (o : OpAB) (c : Cond) (ty : IntTy) (comb : Comb)
  | sel (o : Op3)
  | mov (o : Op1)
  | movi (g : Guard) (d : Opnd) (imm : BitVec 19)
  | plop (o : Op3) (tbl : BitVec 8)
  | dp4 (o : Op3) (ua : Bool) (ub : Bool)
  -- group 0x1 (R113 to R121)
  | fadd (o : Op2)
  | fsub (o : Op2)
  | fmul (o : Op2)
  | ffma (o : Op3)
  | fmin (o : Op2) (nan : Bool)
  | fmax (o : Op2) (nan : Bool)
  | fcmp (o : OpAB) (c : FCond) (u : Bool) (comb : Comb)
  | fclass (o : Op1) (m : BitVec 9)
  | frnd (o : Op1)
  | ffrac (o : Op1)
  | frcp (o : Op1)
  | frsq (o : Op1)
  | fsqrt (o : Op1)
  | fexp2 (o : Op1)
  | flog2 (o : Op1)
  | fsin (o : Op1)
  | fcos (o : Op1)
  | ftanh (o : Op1)
  | fdiv (o : OpAB)
  | hadd2 (o : OpAB) (bf : Bool)
  | hmul2 (o : OpAB) (bf : Bool)
  | hfma2 (o : Op3) (bf : Bool)
  | fdot2 (o : Op3) (bf : Bool)
  -- group 0x2 (R122 to R127)
  | cvt (o : Op1) (dst src : CvtTy)
  | pack2 (o : OpAB) (ty : Pack2Ty)
  | pack4 (o : Op3) (ty : Pack4Ty)
  | unpack (o : Op1) (ty : UnpackTy) (e : Fin 4)
  | qblk (o : Op1) (b32 : Bool)
  | dqblk (o : Op1)
  | i4g (o : OpAB) (h : Fin 8)
  -- group 0x3 (R129 to R136)
  | vote (o : Op1) (op : VoteOp)
  | shfl (o : OpAB) (mode : ShflMode) (lg : Fin 6)
  | redux (o : Op1) (op : RedOp)
  | scan (o : Op1) (op : RedOp) (excl : Bool)
  | tagof (o : Op1)
  | mkaff (o : Op2)
  | movs (g : Guard) (d : Opnd) (r : SReg)
  | setsr (r : SReg) (a : Opnd)
  | rpf (vc vb : Option (Fin 128)) (mask : BitVec 16)
  | rdlane (o : Op2)
  -- group 0x4 (R139)
  | br (g : Guard) (a : Opnd) (disp : BitVec 19)
  | brD (g : Guard) (h : Bool) (disp : BitVec 19)
  | jmp (t : Target)
  | call (d : Fin 64) (t : Target)
  | callx (d : Fin 64) (a : Fin 128)
  | ret (a : Fin 64)
  | join
  | conv
  | exit (g : Guard)
  | trap (g : Guard) (code : BitVec 16)
  | nop
  | loop (d : Fin 64) (disp : BitVec 19)
  | fhdr (n g : BitVec 8)
  -- groups 0x5 and 0x6
  | ldA (o : LocalOp)
  | stA (o : LocalOp)
  | ldW (o : LocalOp)
  | ldC (o : TileOp)
  | stC (o : TileOp)
  | atomA (g : Guard) (la : BitVec 4) (d a b : Opnd) (off : BitVec 8) (op : AtomOp)
  | casA (g : Guard) (la : BitVec 4) (d a b c : Opnd)
  | tagset (o : TagOp)
  | tagclr (o : TagOp)
  | tagwait (o : TagOp) (clr : Bool)
  | ldG (o : LocalOp) (cg : Bool)
  | stG (o : LocalOp)
  | prefG (g : Guard) (a b : Opnd) (off : BitVec 8) (l2 : Bool)
  | fenceRel (sc : Scope)
  | fenceAcq (sc : Scope)
  | fenceFull (sc : Scope)
  | fenceLeaseTimeReached (at_ : Cursor)
  | waitc (a : Opnd) (path : Path)
  -- group 0x7
  | atomG (g : Guard) (la : BitVec 4) (d a b : Opnd) (off : BitVec 8) (op : AtomOp) (wide : Bool) (sc : Scope)
  | casG (g : Guard) (la : BitVec 4) (d a b c : Opnd) (wide : Bool) (sc : Scope)
  | qpush (g : Guard) (d a b : Opnd) (size : Size)
  | qpop (g : Guard) (la : BitVec 4) (d a c : Opnd) (size : Size)
  -- groups 0x8 and 0x9
  | binit (k : BitVec 6) (a : Opnd)
  | barr (k : BitVec 6)
  | bexp (k : BitVec 6) (a : Opnd) (nx : Bool)
  | bwait (k : BitVec 6) (p : Option Opnd)
  | barrw (k : BitVec 6)
  | btest (k : BitVec 6) (d : Opnd) (cnt nx : Bool)
  | bbind (k : BitVec 6) (a : Opnd)
  | kick (a b : Opnd) (off : BitVec 8)
  | kickQueueRefill (core : Nat)
  | copyRequestTake (core : Nat)
  | copyPartWrite (core req : Nat)
  | strdef (d : Opnd) (k : BitVec 5) (a : Opnd) (off : BitVec 8)
  | streamFill (core ctx k : Nat)
  | strq (g : Guard) (la : BitVec 4) (d c : Opnd) (k : BitVec 5) (size : Size) (sx : Bool)
  | strend (k : BitVec 5)
  | spawn (d : Opnd) (a : Fin 64) (b : Fin 128)
  | spawnedWaveReady (core ctx : Nat)
  | task (g : Guard) (d a b c : Opnd)
  -- group 0xA
  | mma (o : MmaOp)
  | mmaSp (o : MmaOp)
  | vmx (g : Guard) (la : BitVec 4) (d a b : Fin 128) (fb : Fin 64) (kk : BitVec 2)
  | mfence
  | mwait (a : Opnd)
  | azero (n c : BitVec 5)
  | aepi (g : Guard) (n : BitVec 5) (a b : Opnd) (act : Act) (zc : Bool) (fmt : EpiFmt)
  | amax (g : Guard) (la : BitVec 4) (d : Fin 128) (a : Opnd) (n : BitVec 5) (i32 : Bool)
  | scldef (id : BitVec 8) (a : Fin 64) (b : Opnd)
  | sclinv (id : Option (BitVec 8))
  | matrixStart (core qid : Nat)
  | scaleLineFill (core id line : Nat)
  | matrixComplete (core qid : Nat)
  | matrixFault (core qid : Nat) (k : MFaultKind)
  -- group 0xB and the cluster
  | rrot (a b : Opnd) (k : BitVec 6)
  | rrotGenerationStart (cluster : Nat)
  | rrotTransferDone (cluster member : Nat)
  | xst (g : Guard) (d a b : Opnd) (off : BitVec 8) (size : Size)
  | xstElementWrite (cluster idx : Nat)
  | xswap
  | xswapExchange (cluster : Nat)
  | cbar
  | cbarComplete (cluster : Nat)
  | clusterAtomic (cluster idx : Nat)
  | clusterLineRecall (cluster line : Nat)
  | clusterClaimTimeout (cluster line : Nat)
  | currentRequest (core : Nat) (r : Requester)
  | currentGrant (cluster : Nat)
  | currentGrantTimeout (cluster : Nat)
  | currentReservationLapse (core : Nat) (r : Requester)
  -- group 0xC
  | grid (la : BitVec 4) (d : Fin 128) (c : Opnd)
  | gridDelivery (core ctx : Nat)
  | gderiv (g : Guard) (d a : Fin 128) (b : Opnd) (v : Bool)
  | tex (g : Guard) (la : BitVec 4) (d a : Fin 128) (b : Fin 64) (c : Fin 128)
  | texLz (g : Guard) (la : BitVec 4) (d a : Fin 128) (b : Fin 64)
  | gemit (d : Opnd) (a b : Fin 128) (c : Opnd)
  | kbres (a : Opnd) (k : BitVec 6)
  | kbufBlockResolve (cluster : Nat)
  | srateGrid (d a : Opnd)
  | srateCell (d a b : Opnd)
  | rfbk (g : Guard) (a b : Opnd)
  | dicePatch (cluster : Nat)
  -- group 0xD and the bridles
  | btagAlloc (la : BitVec 4) (d : Opnd)
  | btagFree (la : BitVec 4) (a : Opnd)
  | bsend (d a : Opnd) (b : Fin 64) (c : Opnd) (comb : Combine) (fromC : Bool)
  | bsendTagCheckAnswer (at_ : Cursor)
  | bstatSnd (d : Opnd)
  | bstatRcv (d : Opnd)
  | bridleOperandArrival (idx : Nat)
  | bridleHeldDelivery (unit entry : Nat)
  | bridleOrphanTimeout (unit entry : Nat)
  -- group 0xE
  | icinv (sc : Fin 3)
  | trapret
  | trapretRetry
  | yield
  | yieldP
  | sleep (a : Opnd)
  | sleepExpiry (at_ : Cursor)
  | wake (grid wg wave : Nat)
  | brk (g : Guard) (code : BitVec 16)
  | perfRd (d : Fin 64) (k : Fin 8)
  | perfMark (a : Opnd)
  -- halves and prefixes (R52, R56, R57)
  | halfAdd (h : Half)
  | halfSub (h : Half)
  | halfAnd (h : Half)
  | halfOr (h : Half)
  | halfXor (h : Half)
  | halfShl (h : Half)
  | halfShr (h : Half)
  | halfSar (h : Half)
  | halfMin (h : Half)
  | halfMax (h : Half)
  | halfMov (h : Half)
  | hnop
  | halfFadd (h : Half)
  | halfFmul (h : Half)
  | halfFmin (h : Half)
  | halfFmax (h : Half)
  | halfFsub (h : Half)
  | pfxM (m : PfxM)
  | pfxI (hi : BitVec 13)
  -- core issue and pre-emption
  | coreCycleIssue (core : Nat)
  | classWaitExpiry (core : Nat)
  | preemptionRequest (t : PreTarget)
  | waveDrainComplete (core ctx : Nat)
  | contextSave (core ctx : Nat)
  | workgroupEvict (wg : Nat)
  | waveResume (saved : Nat) (core : Nat)
  -- global memory
  | globalAccessTranslated (at_ : Cursor)
  | pageTableWalk (walker : Nat)
  | sliceRequest (slice pos : Nat)
  | l2MissFill (slice line : Nat)
  | l1Fill (core idx : Nat)
  | loadResponse (core ctx acc : Nat)
  | storeCompletion (core ctx acc : Nat)
  | channelAccessTimeout (chan idx : Nat)
  | uncorrectableError (e : ErrSite)
  -- work distribution
  | workgroupDispatch
  | gangDispatch (grid : Nat)
  | gridEnd (grid : Nat)
  | thermalSample (temps : List Nat)
  | gathererPop (cluster grid : Nat)
  | gathererBinTimeout (cluster bin : Nat)
  | taskBinLaunch (cluster bin : Nat)
  -- strips
  | chainAdmission (stream : Nat)
  | densityCheckpoint (stream : Nat)
  | chainCommit (stream : Nat)
  | stripLate (stream : Nat)
  | chainEarlyStart (stream : Nat)
  | chainConfirmOrSquash (stream : Nat)
  | tetherCopy (stream strip : Nat) (lower : Bool)
  | haloSubstituted (stream : Nat) (lower : Bool)
  | stripConsume (stream : Nat)
  | displayportLine (stream : Nat)
  | av1FrameEncode (stream : Nat)
  | av1QovrRead (stream : Nat)
  | st2110LineSend (stream : Nat)
  -- command processors
  | cpNop (cp : Nat)
  | cpLaunch (cp : Nat)
  | cpIb (cp : Nat)
  | cpLoop (cp : Nat)
  | cpPred (cp : Nat)
  | cpWaitmem (cp : Nat)
  | cpWrite (cp : Nat)
  | cpFence (cp : Nat)
  | cpFetchfence (cp : Nat)
  | cpEvent (cp : Nat)
  | cpTimewait (cp : Nat)
  | cpStripcfg (cp : Nat)
  | cpStreamcfg (cp : Nat)
  | cpHalt (cp : Nat)
  -- Irsin
  | irsinWrite (h : IrsinHdr) (addr : Nat) (data : List Byte)
  | irsinReadRequest (h : IrsinHdr) (addr len : Nat)
  | irsinReadResponse (h : IrsinHdr) (tag : Nat) (data : List Byte)
  | irsinAtomicRequest (h : IrsinHdr) (addr : Nat) (op : HostAtomic) (data : List Byte)
  | irsinAtomicResponse (h : IrsinHdr) (tag : Nat) (old : List Byte)
  | irsinTailUpdate (h : IrsinHdr) (cp tail : Nat)
  | irsinEvent (conn : Nat)
  | irsinManagementRequest (h : IrsinHdr) (r : MgmtReq)
  | irsinAck (h : IrsinHdr)
  | irsinConnect (h : IrsinHdr)
  | irsinClose (h : IrsinHdr)
  | irsinRetransmitTimeout (conn seq : Nat)
  -- management
  | mgmtReadStatus
  | mgmtPlaceAreas
  | mgmtSetPower
  | mgmtWriteRule
  | mgmtWritePlacement
  | mgmtSetPerfCounter
  | mgmtSetOrphanTimeout
  | mgmtPlaceRbase
  | mgmtInvalidateTranslations
  | mgmtCommandProcessor
  | mgmtPreempt
  | mgmtWake
  | mgmtResumeBreakpoint
  | mgmtAssignTaskQueue
  | mgmtSetPtp
  | mgmtAttestation
  | mgmtMapHostWindow
  -- time and package
  | ptpMessage (offset : Int)
  | ptpLock (time : BitVec 64)
  | ptpLossOfLock
  | ethernetLinkChange (up : Bool)
  | intervalBoundary
  | sensorSample (packages regulators : List Nat)
  | reset (img : BootImage)
  | readyBitSet (bit : Nat)
  | registerWrite (r : CfgReg) (value : Nat)
  | matrixReadComplete (core qid : Nat)
  | timewaitTimeReached (cp : Nat)
  | waitmemReread (cp : Nat)
  | irsinWriteAckDue (idx : Nat)
  | recoveryChannelRequest (r : RecoveryReq)
  deriving DecidableEq, Repr

end Sys2Proof
end

