-- ==== Sys2Proof/WellFormed.lean ====
section
/-! DEFINITION. Which operands each instruction's slots accept: the checks of decode order 3 (R60) that are
about slots, register groups and guards. A term that fails is an ILLEGAL_ENCODING. -/

namespace Sys2Proof

/-- A destination of the entries of groups 0x0 to 0x3 (R96). -/
def Opnd.isDst : Opnd → Bool
  | .v _ | .s _ | .wg _ => true
  | _ => false

/-- A source of R96: a register, an inline constant or null. -/
def Opnd.isSrc : Opnd → Bool
  | .p _ => false
  | _ => true

def Opnd.isV : Opnd → Bool
  | .v _ => true
  | _ => false

def Opnd.isP : Opnd → Bool
  | .p _ => true
  | _ => false

def Opnd.isScalarReg : Opnd → Bool
  | .s _ | .wg _ => true
  | _ => false

/-- A V or S base register of a local access (R167). -/
def Opnd.isBase : Opnd → Bool
  | .v _ | .s _ => true
  | _ => false

/-- Store data: a V, S or WG register or an inline constant (R171). -/
def Opnd.isData : Opnd → Bool
  | .v _ | .s _ | .wg _ | .k _ => true
  | _ => false

/-- A group of w consecutive registers from this one stays inside its file (R98, R168). -/
def Opnd.fits (w : Nat) : Opnd → Bool
  | .v n => n.val + w ≤ 128
  | .s n => n.val + w ≤ 64
  | .wg n => n.val + w ≤ 16
  | .k n => w ≤ 1 || n.val < 5
  | .p _ => false
  | .null => true

/-- A V or S pair naming a 64-bit address (R167, R319). -/
def Opnd.isPair : Opnd → Bool
  | .v n => n.val < 127
  | .s n => n.val < 63
  | _ => false

def Opnd.isPOrNull : Opnd → Bool
  | .p _ | .null => true
  | _ => false

/-- The unguarded form (R46). -/
def Guard.always : Guard := ⟨false, 7⟩

/-- G = 0b1111 is no guard (R46). -/
def Guard.legal (g : Guard) : Bool := !(g.neg && g.p == 7)

/-- A scalar destination accepts no guard (R96). -/
def Guard.okFor (g : Guard) (d : Opnd) : Bool := g.legal && (!d.isScalarReg || g == Guard.always)

def SrcB.isSrc : SrcB → Bool
  | .reg o => o.isSrc && o != .null
  | .imm _ => true

def SrcB.isImm : SrcB → Bool
  | .reg _ => false
  | .imm _ => true

def Op1.wf (o : Op1) : Bool := o.g.okFor o.d && o.d.isDst && o.a.isSrc
def Op2.wf (o : Op2) : Bool := o.g.okFor o.d && o.d.isDst && o.a.isSrc && o.b.isSrc
def OpAB.wf (o : OpAB) : Bool := o.g.okFor o.d && o.d.isDst && o.a.isSrc && o.b.isSrc
def Op3.wf (o : Op3) : Bool := o.g.okFor o.d && o.d.isDst && o.a.isSrc && o.b.isSrc && o.c.isSrc

def Size.regs : Size → Nat
  | .b64 => 2
  | .b128 => 4
  | _ => 1

def Size.bytes : Size → Nat
  | .b8 => 1
  | .b16 => 2
  | .b32 => 4
  | .b64 => 8
  | .b128 => 16

/-- M[3] sign-extends b8 and b16 loads only (R167). -/
def Size.sxOk (z : Size) (sx : Bool) : Bool := !sx || z == .b8 || z == .b16

/-- Queue elements are 4, 8 or 16 bytes (R323). -/
def Size.isQueue : Size → Bool
  | .b32 | .b64 | .b128 => true
  | _ => false

def LocalOp.wf (o : LocalOp) (load : Bool) : Bool :=
  o.g.legal && (if load then o.d.isDst else o.d.isData) && o.d.fits o.size.regs
    && (load || (o.la == 0 && !o.sx)) && o.b.isSrc && o.size.sxOk o.sx

def TileOp.wf (o : TileOp) (load : Bool) : Bool :=
  o.g.legal && (if load then o.d.isDst else o.d.isData) && o.d.fits o.size.regs
    && (load || o.la == 0) && (o.a.isBase || o.a == .null) && o.size.isQueue

def TagOp.wf (o : TagOp) : Bool :=
  (o.v || o.c) && o.a.isSrc && (o.a != .null || o.space == .c)

def MmaOp.wf (o : MmaOp) : Bool :=
  o.g.legal && o.fb.val < 63 && o.a.isSrc && o.b.isSrc && o.c.isSrc

/-- The destination of an atomic: a register group or null, unguarded when scalar (R172, R319). -/
def atomDst (g : Guard) (d : Opnd) (w : Nat) : Bool :=
  g.okFor d && (d.isDst || d == .null) && d.fits w

def SReg.wide : SReg → Bool
  | .cyc | .dtc | .lwt | .uconf | .split | .piter | .pfix | .trap => true
  | _ => false

def HSrc.ok : HSrc → Bool
  | .reg o => o.isSrc
  | .imm _ => true

def Half.names (h : Half) : Bool := h.s == .reg (.v h.d)

def Target.ok : Target → Bool
  | .disp _ => true
  | .reg n => n.val < 63

/-- A named barrier index (R180). -/
def barOk (k : BitVec 6) : Bool := k.toNat < 48

/-- rpf's windows: every set bit has its window, and no selected register lies beyond V127 (R135). -/
def rpfOk (vc vb : Option (Fin 128)) (mask : BitVec 16) : Bool :=
  (List.range 8).all fun i =>
    (!mask.getLsbD i || (vb.any fun n => n.val + i < 128)) &&
    (!mask.getLsbD (8 + i) || (vc.any fun n => n.val + i < 128))

/-- The slot checks of decode order 3. The events of the part's agents have no encoding and no check. -/
def Instr.wf : Instr → Bool
  | .add o ty | .sub o ty | .mulLo o ty | .mulHi o ty | .min o ty | .max o ty =>
    o.wf && (!o.b.isImm || ty == .i32)
  | .mad o _ | .dp4 o _ _ | .lop3 o _ | .ffma o | .hfma2 o _ | .fdot2 o _ | .pack4 o _ => o.wf
  | .and o | .or o | .xor o | .shl o | .shr o | .sar o | .rot o | .fadd o | .fsub o | .fmul o => o.wf
  | .abs o | .popc o | .clz o | .brev o | .mov o | .frnd o | .ffrac o | .frcp o | .frsq o | .fsqrt o
  | .fexp2 o | .flog2 o | .fsin o | .fcos o | .ftanh o | .cvt o _ _ | .qblk o _ | .dqblk o => o.wf
  | .fdiv o | .hadd2 o _ | .hmul2 o _ | .pack2 o _ | .i4g o _ | .shfl o _ _ => o.wf
  | .bfe o sx => o.wf && (!o.b.isImm || !sx)
  | .bfi o => o.wf
  | .addW o => o.wf && o.d.fits 2 && o.a.fits 2 && (match o.b with | .reg b => b.fits 2 | .imm _ => true)
  | .lea o sh z => o.wf && o.d.fits 2 && o.a.fits 2 && (!o.b.isImm || (sh == 0 && !z))
  | .cmp o _ _ _ => o.g.legal && o.d.isP && o.a.isSrc && o.b.isSrc
  | .fcmp o c u _ => o.g.legal && o.d.isP && o.a.isSrc && o.b.isSrc && (!u || (c != .ord && c != .uno))
  | .fclass o _ => o.g.legal && o.d.isP && o.a.isSrc
  | .sel o => o.g.okFor o.d && o.d.isDst && o.a.isSrc && o.b.isSrc && o.c.isP
  | .movi g d _ => g.okFor d && d.isDst
  | .plop o _ => o.g.legal && o.d.isP && o.a.isP && o.b.isP && o.c.isP
  | .fmin o nan | .fmax o nan => o.wf && (!o.b.isImm || !nan)
  | .unpack o ty e =>
    o.wf && (e.val < 2 || !(ty == .f16 || ty == .bf16 || ty == .i16 || ty == .n16))
  | .vote o op =>
    o.g.legal && o.a.isP && (if op == .mask then (o.d.isV || (match o.d with | .s _ => true | _ => false)) else o.d.isP)
  | .redux o _ => o.g.legal && o.d.isDst && o.a.isSrc
  | .scan o _ _ => o.wf
  | .tagof o => o.wf && o.a.isV
  | .mkaff o => o.wf && o.d.isV
  | .movs g d r =>
    g.okFor d &&
    (match r, d with
     | .tid, .v _ => true
     | .tid, _ => false
     | r, .s n => !r.wide || n.val < 63
     | r, .v _ => !r.wide
     | _, _ => false)
  | .setsr r a =>
    (match r, a with
     | .uconf, .s n | .trap, .s n => n.val < 63
     | .uconf, _ | .trap, _ => false
     | _, a => a.isSrc)
  | .rpf vc vb mask => rpfOk vc vb mask
  | .rdlane o => o.wf
  | .br g a _ => g.legal && a.isSrc
  | .brD g _ _ => g.legal
  | .jmp t => t.ok
  | .call d t => d.val < 63 && t.ok
  | .callx d a => d.val < 63 && a.val < 127
  | .ret a => a.val < 63
  | .exit g | .trap g _ | .brk g _ => g.legal
  | .fhdr n g => 1 ≤ n.toNat && n.toNat ≤ 128 && g.toNat ≤ n.toNat
  | .ldA o | .ldW o => o.a.isBase && o.wf true
  | .stA o => o.a.isBase && o.wf false
  | .ldC o => o.wf true
  | .stC o => o.wf false
  | .atomA g _ d a b _ _ => atomDst g d 1 && a.isBase && b.isSrc
  | .casA g _ d a b c => atomDst g d 1 && a.isBase && b.isSrc && c.isSrc
  | .tagset o | .tagclr o | .tagwait o _ => o.wf
  | .ldG o _ => o.a.isPair && o.wf true
  | .stG o => o.a.isPair && o.wf false
  | .prefG g a b _ _ => g.legal && a.isPair && b.isSrc
  | .waitc a _ => a.isSrc && a != .null
  | .atomG g _ d a b _ op wide _ =>
    atomDst g d (if wide then 2 else 1) && a.isPair && b.isSrc && b.fits (if wide then 2 else 1) && !(wide && op == .addF)
  | .casG g _ d a b c wide _ =>
    atomDst g d (if wide then 2 else 1) && a.isPair && b.isSrc && c.isSrc
      && b.fits (if wide then 2 else 1) && c.fits (if wide then 2 else 1)
  | .qpush g d a b z => g.legal && d.isPOrNull && a.isPair && b.isSrc && b.fits z.regs && z.isQueue
  | .qpop g _ d a c z => g.legal && d.isV && d.fits z.regs && a.isPair && c.isPOrNull && z.isQueue
  | .binit k a | .bbind k a => barOk k && a.isSrc
  | .bexp k a _ => barOk k && a.isSrc
  | .barr k | .barrw k => barOk k
  | .bwait k p => barOk k && p.all Opnd.isSrc
  | .btest k d cnt nx => barOk k && d.isDst && (cnt || !nx)
  | .kick a b _ => a.isSrc && b.isSrc
  | .strdef d _ a _ => d.isP && a.isSrc
  | .strq g _ d c _ z sx => g.legal && d.isV && d.fits z.regs && c.isPOrNull && z.sxOk sx
  | .spawn d a b => d.isP && a.val < 63 && b.val ≤ 120
  | .task g d a b c =>
    g.legal && d.isPOrNull && a.isPair && b.isPair && (match c with | .v n => n.val ≤ 120 | _ => false)
  | .mma o | .mmaSp o => o.wf
  | .vmx g _ d a _ fb kk => g.legal && d.val ≤ 112 && a.val + 8 * (kk.toNat + 1) ≤ 128 && fb.val < 63
  | .mwait a | .sleep a | .perfMark a => a.isSrc
  | .aepi g _ a b _ _ _ => g.legal && a.isSrc && b.isSrc
  | .amax g _ d a _ _ => g.legal && d.val ≤ 126 && a.isSrc
  | .scldef id a b => id != 255 && a.val < 63 && b.isSrc
  | .sclinv _ => true
  | .rrot a b k => a.isSrc && b.isSrc && barOk k
  | .xst g d a b _ z => g.legal && d.isData && d.fits z.regs && a.isBase && b.isSrc
  | .grid _ d c => d.val ≤ 124 && c.isP
  | .gderiv g _ _ b _ => g.legal && b.isSrc
  | .tex g _ d a b c => g.legal && d.val ≤ 124 && a.val ≤ 126 && b.val < 63 && c.val ≤ 124
  | .texLz g _ d a b => g.legal && d.val ≤ 124 && a.val ≤ 126 && b.val < 63
  | .gemit d a b c => d.isP && a.val ≤ 120 && b.val ≤ 124 && c.isSrc
  | .kbres a k => a.isSrc && barOk k
  | .srateGrid d a => d.isDst && a.isSrc
  | .srateCell d a b => d.isDst && a.isSrc && b.isSrc
  | .rfbk g a b => g.legal && a.isSrc && b.isSrc
  | .btagAlloc _ d => d.isDst
  | .btagFree _ a => a.isSrc
  | .bsend d a b c _ _ => d.isSrc && a.isSrc && b.val < 63 && c.isSrc
  | .bstatSnd d | .bstatRcv d => d.isDst
  | .perfRd d _ => d.val < 63
  | .halfAdd h | .halfSub h | .halfAnd h | .halfOr h | .halfXor h | .halfShl h | .halfShr h | .halfSar h
  | .halfMin h | .halfMax h | .halfFadd h | .halfFmul h | .halfFmin h | .halfFmax h | .halfFsub h => h.s.ok
  | .halfMov h => h.s.ok && !h.names
  | _ => true

end Sys2Proof
end

