-- ==== Sys2Proof/Decode.lean ====
section
/-! DEFINITION. From bundles to instructions and back (R40 to R62): the fields of the full form and of a half,
the operand index space, the opcode map, and the encoder written from the same tables. -/

namespace Sys2Proof

/-- The fields of a bundle with K = 0b00 (R43). -/
structure Raw where
  e : Bool
  l : BitVec 4
  op : BitVec 10
  g : BitVec 4
  d : BitVec 8
  a : BitVec 8
  b : BitVec 8
  c : BitVec 19
  deriving DecidableEq, Repr

/-- Field [hi:lo] of a bundle as w = hi - lo + 1 bits (R4). -/
def field (x : BitVec 64) (lo w : Nat) : BitVec w := x.extractLsb' lo w

def Raw.ofWord (x : BitVec 64) : Raw where
  e := x.getLsbD 61
  l := field x 57 4
  op := field x 47 10
  g := field x 43 4
  d := field x 35 8
  a := field x 27 8
  b := field x 19 8
  c := field x 0 19

def Raw.toWord (r : Raw) : BitVec 64 :=
  0#2 ++ BitVec.ofBool r.e ++ r.l ++ r.op ++ r.g ++ r.d ++ r.a ++ r.b ++ r.c

/-- What a bundle that is no instruction traps with (R60): ILLEGAL_ENCODING at decode order 1 or 3, or
ILLEGAL_OPCODE with OP or OPH. -/
inductive DErr where
  | encoding (order : Nat) | opcode (op : Nat)
  deriving DecidableEq, Repr

/-- The operand index space (R48, R49). -/
def Opnd.ofByte (b : BitVec 8) : Option Opnd :=
  let n := b.toNat
  if h : n < 0x80 then some (.v ⟨n, h⟩)
  else if h : n < 0xC0 then some (.s ⟨n - 0x80, by omega⟩)
  else if h : n < 0xD0 then some (.wg ⟨n - 0xC0, by omega⟩)
  else if h : n < 0xD8 then some (.p ⟨n - 0xD0, by omega⟩)
  else if n < 0xF0 then none
  else if h : n < 0xFB then some (.k ⟨n - 0xF0, by omega⟩)
  else if n = 0xFF then some .null
  else none

def Opnd.toByte : Opnd → BitVec 8
  | .v n => BitVec.ofNat 8 n.val
  | .s n => BitVec.ofNat 8 (0x80 + n.val)
  | .wg n => BitVec.ofNat 8 (0xC0 + n.val)
  | .p n => BitVec.ofNat 8 (0xD0 + n.val)
  | .k n => BitVec.ofNat 8 (0xF0 + n.val)
  | .null => 0xFF#8

def Guard.ofBits (g : BitVec 4) : Guard := ⟨g.getLsbD 3, (g.extractLsb' 0 3).toFin⟩
def Guard.toBits (g : Guard) : BitVec 4 := BitVec.ofBool g.neg ++ BitVec.ofNat 3 g.p.val

/-- The modifier field M and the third operand index of C (R43). -/
def Raw.m (r : Raw) : BitVec 11 := r.c.extractLsb' 0 11
def Raw.c8 (r : Raw) : BitVec 8 := r.c.extractLsb' 11 8
def Raw.gd (r : Raw) : Guard := Guard.ofBits r.g

/-- C in register form (R43). -/
def cReg (c8 : BitVec 8) (m : BitVec 11) : BitVec 19 := c8 ++ m

def vOf (b : BitVec 8) : Option (Fin 128) :=
  if h : b.toNat < 128 then some ⟨b.toNat, h⟩ else none
def sOf (b : BitVec 8) : Option (Fin 64) :=
  if h : 0x80 ≤ b.toNat ∧ b.toNat < 0xC0 then some ⟨b.toNat - 0x80, by omega⟩ else none
def vByte (n : Fin 128) : BitVec 8 := BitVec.ofNat 8 n.val
def sByte (n : Fin 64) : BitVec 8 := BitVec.ofNat 8 (0x80 + n.val)

/-- A test a field must pass (R45). -/
def need (b : Bool) : Option Unit := if b then some () else none

/-- G must be 0b0111 and L zero, and the named fields hold 0xFF. -/
def Raw.plainG (r : Raw) : Option Unit := need (r.g == 7#4)
def ff (b : BitVec 8) : Option Unit := need (b == 0xFF#8)

def Raw.op1 (r : Raw) : Option Op1 := do
  ff r.b; ff r.c8
  some ⟨r.gd, ← Opnd.ofByte r.d, ← Opnd.ofByte r.a⟩

/-- B = 0xFF selects the immediate form, in which M reads as zero (R44). -/
def Raw.op2 (r : Raw) : Option (Op2 × BitVec 11) := do
  let d ← Opnd.ofByte r.d
  let a ← Opnd.ofByte r.a
  if r.b == 0xFF#8 then some (⟨r.gd, d, a, .imm r.c⟩, 0)
  else
    ff r.c8
    some (⟨r.gd, d, a, .reg (← Opnd.ofByte r.b)⟩, r.m)

def Raw.opAB (r : Raw) : Option OpAB := do
  ff r.c8
  some ⟨r.gd, ← Opnd.ofByte r.d, ← Opnd.ofByte r.a, ← Opnd.ofByte r.b⟩

def Raw.op3 (r : Raw) : Option Op3 := do
  some ⟨r.gd, ← Opnd.ofByte r.d, ← Opnd.ofByte r.a, ← Opnd.ofByte r.b, ← Opnd.ofByte r.c8⟩

/-! Codes of M fields. -/

def IntTy.ofM (m : BitVec 11) : Option IntTy :=
  if m == 0 then some .i32 else if m == 1 then some .n32 else none
def IntTy.code : IntTy → BitVec 11
  | .i32 => 0
  | .n32 => 1

def Cond.ofCode : Nat → Option Cond
  | 0 => some .eq | 1 => some .ne | 2 => some .lt | 3 => some .le | 4 => some .gt | 5 => some .ge | _ => none
def Cond.code : Cond → Nat
  | .eq => 0 | .ne => 1 | .lt => 2 | .le => 3 | .gt => 4 | .ge => 5
def FCond.ofCode : Nat → Option FCond
  | 0 => some .eq | 1 => some .ne | 2 => some .lt | 3 => some .le | 4 => some .gt | 5 => some .ge
  | 6 => some .ord | 7 => some .uno | _ => none
def FCond.code : FCond → Nat
  | .eq => 0 | .ne => 1 | .lt => 2 | .le => 3 | .gt => 4 | .ge => 5 | .ord => 6 | .uno => 7
def Comb.ofCode : Nat → Option Comb
  | 0 => some .set | 1 => some .and | 2 => some .or | _ => none
def Comb.code : Comb → Nat
  | .set => 0 | .and => 1 | .or => 2
def CvtTy.ofCode : Nat → Option CvtTy
  | 0 => some .i8 | 1 => some .i16 | 2 => some .i32 | 3 => some .n8 | 4 => some .n16 | 5 => some .n32
  | 6 => some .f32 | 7 => some .f16 | 8 => some .bf16 | 9 => some .e4m3 | 10 => some .e5m2 | _ => none
def CvtTy.code : CvtTy → Nat
  | .i8 => 0 | .i16 => 1 | .i32 => 2 | .n8 => 3 | .n16 => 4 | .n32 => 5
  | .f32 => 6 | .f16 => 7 | .bf16 => 8 | .e4m3 => 9 | .e5m2 => 10
def Pack2Ty.ofCode : Nat → Option Pack2Ty
  | 0 => some .f16 | 1 => some .bf16 | 2 => some .i16 | 3 => some .n16 | _ => none
def Pack2Ty.code : Pack2Ty → Nat
  | .f16 => 0 | .bf16 => 1 | .i16 => 2 | .n16 => 3
def Pack4Ty.ofCode : Nat → Option Pack4Ty
  | 0 => some .e4m3 | 1 => some .e5m2 | 2 => some .i8 | 3 => some .n8 | _ => none
def Pack4Ty.code : Pack4Ty → Nat
  | .e4m3 => 0 | .e5m2 => 1 | .i8 => 2 | .n8 => 3
def UnpackTy.ofCode : Nat → Option UnpackTy
  | 0 => some .f16 | 1 => some .bf16 | 2 => some .e4m3 | 3 => some .e5m2 | 4 => some .i8 | 5 => some .n8
  | 6 => some .i16 | 7 => some .n16 | _ => none
def UnpackTy.code : UnpackTy → Nat
  | .f16 => 0 | .bf16 => 1 | .e4m3 => 2 | .e5m2 => 3 | .i8 => 4 | .n8 => 5 | .i16 => 6 | .n16 => 7
def VoteOp.ofCode : Nat → Option VoteOp
  | 0 => some .or | 1 => some .and | 2 => some .mask | 3 => some .agree | _ => none
def VoteOp.code : VoteOp → Nat
  | .or => 0 | .and => 1 | .mask => 2 | .agree => 3
def ShflMode.ofCode : Nat → Option ShflMode
  | 0 => some .at | 1 => some .mir | 2 => some .back | 3 => some .fwd | _ => none
def ShflMode.code : ShflMode → Nat
  | .at => 0 | .mir => 1 | .back => 2 | .fwd => 3
def RedOp.ofCode : Nat → Option RedOp
  | 0 => some .addI32 | 1 => some .minI32 | 2 => some .maxI32 | 3 => some .minN32 | 4 => some .maxN32
  | 5 => some .and | 6 => some .or | 7 => some .xor | 8 => some .fadd | 9 => some .fmin | 10 => some .fmax | _ => none
def RedOp.code : RedOp → Nat
  | .addI32 => 0 | .minI32 => 1 | .maxI32 => 2 | .minN32 => 3 | .maxN32 => 4
  | .and => 5 | .or => 6 | .xor => 7 | .fadd => 8 | .fmin => 9 | .fmax => 10
def SReg.ofCode : Nat → Option SReg
  | 0x00 => some .tid | 0x01 => some .wave | 0x02 => some .wgidX | 0x03 => some .wgidY | 0x04 => some .wgidZ
  | 0x05 => some .stage | 0x06 => some .core | 0x07 => some .cluster | 0x08 => some .cyc | 0x09 => some .dtc
  | 0x0A => some .lwt | 0x0B => some .uconf | 0x0C => some .mflags | 0x0D => some .seed | 0x0E => some .split
  | 0x0F => some .class | 0x10 => some .piter | 0x11 => some .pfix | 0x12 => some .trap | _ => none
def SReg.code : SReg → Nat
  | .tid => 0x00 | .wave => 0x01 | .wgidX => 0x02 | .wgidY => 0x03 | .wgidZ => 0x04
  | .stage => 0x05 | .core => 0x06 | .cluster => 0x07 | .cyc => 0x08 | .dtc => 0x09
  | .lwt => 0x0A | .uconf => 0x0B | .mflags => 0x0C | .seed => 0x0D | .split => 0x0E
  | .class => 0x0F | .piter => 0x10 | .pfix => 0x11 | .trap => 0x12
def Size.ofCode : Nat → Option Size
  | 0 => some .b8 | 1 => some .b16 | 2 => some .b32 | 3 => some .b64 | 4 => some .b128 | _ => none
def Size.code : Size → Nat
  | .b8 => 0 | .b16 => 1 | .b32 => 2 | .b64 => 3 | .b128 => 4
/-- Queue sizes (R323). -/
def Size.ofQueue : Nat → Option Size
  | 0 => some .b32 | 1 => some .b64 | 2 => some .b128 | _ => none
def Size.qcode : Size → Nat
  | .b8 => 0 | .b16 => 0 | .b32 => 0 | .b64 => 1 | .b128 => 2
def Path.ofCode : Nat → Option Path
  | 0 => some .g | 1 => some .s | 2 => some .m | 3 => some .c | 4 => some .q | 5 => some .x | _ => none
def Path.code : Path → Nat
  | .g => 0 | .s => 1 | .m => 2 | .c => 3 | .q => 4 | .x => 5
def AtomOp.ofCode : Nat → Option AtomOp
  | 0 => some .add | 1 => some .minS | 2 => some .maxS | 3 => some .minU | 4 => some .maxU
  | 5 => some .and | 6 => some .or | 7 => some .xor | 8 => some .exch | 9 => some .addF | _ => none
def AtomOp.code : AtomOp → Nat
  | .add => 0 | .minS => 1 | .maxS => 2 | .minU => 3 | .maxU => 4
  | .and => 5 | .or => 6 | .xor => 7 | .exch => 8 | .addF => 9
def Scope.ofCode : Nat → Option Scope
  | 0 => some .dv | 1 => some .cl | 2 => some .sy | _ => none
def Scope.code : Scope → Nat
  | .dv => 0 | .cl => 1 | .sy => 2
def Space.ofCode : Nat → Option Space
  | 0 => some .a | 1 => some .w | 2 => some .c | _ => none
def Space.code : Space → Nat
  | .a => 0 | .w => 1 | .c => 2
def Act.ofCode : Nat → Option Act
  | 0 => some .none | 1 => some .relu | 2 => some .clamp6 | 3 => some .tanh | _ => none
def Act.code : Act → Nat
  | .none => 0 | .relu => 1 | .clamp6 => 2 | .tanh => 3
def EpiFmt.ofCode : Nat → Option EpiFmt
  | 0 => some .f32 | 1 => some .f16 | 2 => some .bf16 | 3 => some .e4m3 | 4 => some .e5m2 | 5 => some .i8
  | 6 => some .n8 | _ => none
def EpiFmt.code : EpiFmt → Nat
  | .f32 => 0 | .f16 => 1 | .bf16 => 2 | .e4m3 => 3 | .e5m2 => 4 | .i8 => 5 | .n8 => 6
def Combine.ofCode : Nat → Option Combine
  | 0 => some .addF32 | 1 => some .addX | 2 => some .maxF32 | 3 => some .minF32 | 4 => some .addI32 | _ => none
def Combine.code : Combine → Nat
  | .addF32 => 0 | .addX => 1 | .maxF32 => 2 | .minF32 => 3 | .addI32 => 4
def Rnd.ofCode : Nat → Option Rnd
  | 0 => some .dflt | 1 => some .rne | 2 => some .rtz | 3 => some .rup | 4 => some .rdn | 5 => some .rna
  | 6 => some .rs | _ => none
def Rnd.code : Rnd → Nat
  | .dflt => 0 | .rne => 1 | .rtz => 2 | .rup => 3 | .rdn => 4 | .rna => 5 | .rs => 6
def Sat.ofCode : Nat → Option Sat
  | 0 => some .none | 1 => some .sat | 2 => some .sats | 3 => some .satf | _ => none
def Sat.code : Sat → Nat
  | .none => 0 | .sat => 1 | .sats => 2 | .satf => 3
def HGuard.ofCode : Nat → Option HGuard
  | 0 => some .none | 1 => some .p0 | 2 => some .np0 | 3 => some .p1 | _ => none
def HGuard.code : HGuard → Nat
  | .none => 0 | .p0 => 1 | .np0 => 2 | .p1 => 3

/-- M[hi:lo] as a number. -/
def mf (m : BitVec 11) (lo w : Nat) : Nat := (m.extractLsb' lo w).toNat
/-- A value placed at M[lo]. -/
def mp (v lo : Nat) : BitVec 11 := BitVec.ofNat 11 (v * 2 ^ lo)
def mb (b : Bool) (lo : Nat) : BitVec 11 := if b then BitVec.ofNat 11 (2 ^ lo) else 0

/-- The memory-operand mould (R167); `cgOk` admits M[4]. -/
def Raw.mem (r : Raw) : Option LocalOp := do
  let z ← Size.ofCode (mf r.m 0 3)
  some ⟨r.gd, r.l, ← Opnd.ofByte r.d, ← Opnd.ofByte r.a, ← Opnd.ofByte r.b, r.c8, z, r.m.getLsbD 3⟩

def Raw.tile (r : Raw) : Option TileOp := do
  ff r.b
  need (mf r.m 3 3 == 0)
  let z ← Size.ofCode (mf r.m 0 3)
  some ⟨r.gd, r.l, ← Opnd.ofByte r.d, ← Opnd.ofByte r.a, r.c8, z, r.m.extractLsb' 6 5⟩

def Raw.tag (r : Raw) : Option (TagOp × Bool) := do
  r.plainG; ff r.d; ff r.b
  need (mf r.m 8 3 == 0)
  let sp ← Space.ofCode (mf r.m 0 2)
  some (⟨← Opnd.ofByte r.a, r.c8, sp, r.m.getLsbD 2, r.m.getLsbD 3, r.m.extractLsb' 5 3⟩, r.m.getLsbD 4)

/-- No operand but the named ones: D, A, B and C[18:11] hold 0xFF. -/
def Raw.bare (r : Raw) : Option Unit := do ff r.d; ff r.a; ff r.b; ff r.c8

/-- The opcodes on which L may be non-zero (R47, R62). -/
def longLatency (op : Nat) : Bool :=
  [0x140, 0x142, 0x143, 0x145, 0x146, 0x180, 0x1C0, 0x1C1, 0x1C3, 0x242, 0x282, 0x287, 0x300, 0x302, 0x340].contains op

/-- The target of jmp and call: B = 0xFF selects the displacement (R139). -/
def Raw.target (r : Raw) : Option Target :=
  if r.b == 0xFF#8 then some (.disp r.c)
  else do need (r.c == cReg 0xFF 0); some (.reg (← sOf r.b))

/-- The opcode map (R62) with the entry tables' fields. The outer option is absent when OP is not in the map,
the inner when a field breaks R45. -/
def parseFull (r : Raw) : Option (Option Instr) :=
  let m := r.m
  let op2z (k : Op2 → Instr) : Option Instr := do let (o, m) ← r.op2; need (m == 0); some (k o)
  let op2t (k : Op2 → IntTy → Instr) : Option Instr := do let (o, m) ← r.op2; some (k o (← IntTy.ofM m))
  let op1z (k : Op1 → Instr) : Option Instr := do need (m == 0); some (k (← r.op1))
  let op3z (k : Op3 → Instr) : Option Instr := do need (m == 0); some (k (← r.op3))
  let opABb (k : OpAB → Bool → Instr) : Option Instr := do need (mf m 1 10 == 0); some (k (← r.opAB) (m.getLsbD 0))
  let op3b (k : Op3 → Bool → Instr) : Option Instr := do need (mf m 1 10 == 0); some (k (← r.op3) (m.getLsbD 0))
  let bar : Option (BitVec 6) := some (m.extractLsb' 0 6)
  match r.op.toNat with
  | 0x000 => some (op2t .add)
  | 0x001 => some (op2t .sub)
  | 0x002 => some (op2t .mulLo)
  | 0x003 => some (op2t .mulHi)
  | 0x004 => some (do some (.mad (← r.op3) (← IntTy.ofM m)))
  | 0x005 => some (op2t .min)
  | 0x006 => some (op2t .max)
  | 0x007 => some (op1z .abs)
  | 0x008 => some (op2z .and)
  | 0x009 => some (op2z .or)
  | 0x00A => some (op2z .xor)
  | 0x00B => some (do need (mf m 8 3 == 0); some (.lop3 (← r.op3) (m.extractLsb' 0 8)))
  | 0x00C => some (op2z .shl)
  | 0x00D => some (op2z .shr)
  | 0x00E => some (op2z .sar)
  | 0x00F => some (op2z .rot)
  | 0x010 => some (do let (o, m) ← r.op2; need (mf m 1 10 == 0); some (.bfe o (m.getLsbD 0)))
  | 0x011 => some (op2z .bfi)
  | 0x012 => some (op1z .popc)
  | 0x013 => some (op1z .clz)
  | 0x014 => some (op1z .brev)
  | 0x015 => some (op2z .addW)
  | 0x016 => some (do
      let (o, m) ← r.op2
      need (mf m 4 7 == 0)
      if h : mf m 0 3 < 5 then some (.lea o ⟨mf m 0 3, h⟩ (m.getLsbD 3)) else none)
  | 0x017 => some (do
      need (mf m 6 5 == 0)
      some (.cmp (← r.opAB) (← Cond.ofCode (mf m 0 3)) (if m.getLsbD 3 then .n32 else .i32) (← Comb.ofCode (mf m 4 2))))
  | 0x018 => some (op3z .sel)
  | 0x019 => some (op1z .mov)
  | 0x01A => some (do ff r.a; ff r.b; some (.movi r.gd (← Opnd.ofByte r.d) r.c))
  | 0x01B => some (do need (mf m 8 3 == 0); some (.plop (← r.op3) (m.extractLsb' 0 8)))
  | 0x01C => some (do need (mf m 2 9 == 0); some (.dp4 (← r.op3) (m.getLsbD 0) (m.getLsbD 1)))
  | 0x040 => some (op2z .fadd)
  | 0x041 => some (op2z .fsub)
  | 0x042 => some (op2z .fmul)
  | 0x043 => some (op3z .ffma)
  | 0x044 => some (do let (o, m) ← r.op2; need (mf m 1 10 == 0); some (.fmin o (m.getLsbD 0)))
  | 0x045 => some (do let (o, m) ← r.op2; need (mf m 1 10 == 0); some (.fmax o (m.getLsbD 0)))
  | 0x046 => some (do
      need (mf m 6 5 == 0)
      some (.fcmp (← r.opAB) (← FCond.ofCode (mf m 0 3)) (m.getLsbD 3) (← Comb.ofCode (mf m 4 2))))
  | 0x047 => some (do need (mf m 9 2 == 0); some (.fclass (← r.op1) (m.extractLsb' 0 9)))
  | 0x048 => some (op1z .frnd)
  | 0x049 => some (op1z .ffrac)
  | 0x04A => some (op1z .frcp)
  | 0x04B => some (op1z .frsq)
  | 0x04C => some (op1z .fsqrt)
  | 0x04D => some (op1z .fexp2)
  | 0x04E => some (op1z .flog2)
  | 0x04F => some (op1z .fsin)
  | 0x050 => some (op1z .fcos)
  | 0x051 => some (op1z .ftanh)
  | 0x052 => some (opABb .hadd2)
  | 0x053 => some (opABb .hmul2)
  | 0x054 => some (op3b .hfma2)
  | 0x055 => some (op3b .fdot2)
  | 0x056 => some (do need (m == 0); some (.fdiv (← r.opAB)))
  | 0x080 => some (do
      need (mf m 8 3 == 0)
      some (.cvt (← r.op1) (← CvtTy.ofCode (mf m 0 4)) (← CvtTy.ofCode (mf m 4 4))))
  | 0x081 => some (do need (mf m 2 9 == 0); some (.pack2 (← r.opAB) (← Pack2Ty.ofCode (mf m 0 2))))
  | 0x082 => some (do need (mf m 2 9 == 0); some (.pack4 (← r.op3) (← Pack4Ty.ofCode (mf m 0 2))))
  | 0x083 => some (do
      need (mf m 5 6 == 0)
      some (.unpack (← r.op1) (← UnpackTy.ofCode (mf m 0 3)) (m.extractLsb' 3 2).toFin))
  | 0x084 => some (do need (mf m 1 10 == 0); some (.qblk (← r.op1) (m.getLsbD 0)))
  | 0x085 => some (op1z .dqblk)
  | 0x086 => some (do need (mf m 3 8 == 0); some (.i4g (← r.opAB) (m.extractLsb' 0 3).toFin))
  | 0x0C0 => some (do need (mf m 2 9 == 0); some (.vote (← r.op1) (← VoteOp.ofCode (mf m 0 2))))
  | 0x0C1 => some (do
      need (mf m 5 6 == 0)
      if h : mf m 2 3 < 6 then some (.shfl (← r.opAB) (← ShflMode.ofCode (mf m 0 2)) ⟨mf m 2 3, h⟩) else none)
  | 0x0C2 => some (do need (mf m 4 7 == 0); some (.redux (← r.op1) (← RedOp.ofCode (mf m 0 4))))
  | 0x0C3 => some (do need (mf m 5 6 == 0); some (.scan (← r.op1) (← RedOp.ofCode (mf m 0 4)) (m.getLsbD 4)))
  | 0x0C4 => some (op1z .tagof)
  | 0x0C5 => some (op2z .mkaff)
  | 0x0C6 => some (do
      ff r.a; ff r.b; need ((r.c.extractLsb' 6 13) == 0)
      some (.movs r.gd (← Opnd.ofByte r.d) (← SReg.ofCode (r.c.extractLsb' 0 6).toNat)))
  | 0x0C7 => some (do
      r.plainG; ff r.d; ff r.b; need ((r.c.extractLsb' 6 13) == 0)
      some (.setsr (← SReg.ofCode (r.c.extractLsb' 0 6).toNat) (← Opnd.ofByte r.a)))
  | 0x0C8 => some (do
      r.plainG; ff r.b; need ((r.c.extractLsb' 16 3) == 0)
      let vb ← if r.a == 0xFF#8 then some none else (vOf r.a).map some
      let vc ← if r.d == 0xFF#8 then some none else (vOf r.d).map some
      some (.rpf vc vb (r.c.extractLsb' 0 16)))
  | 0x0C9 => some (op2z .rdlane)
  | 0x100 => some (do ff r.d; ff r.b; some (.br r.gd (← Opnd.ofByte r.a) r.c))
  | 0x101 => some (do
      ff r.a; ff r.b
      if r.d == 0#8 then some (.brD r.gd false r.c) else if r.d == 1#8 then some (.brD r.gd true r.c) else none)
  | 0x102 => some (do r.plainG; ff r.d; ff r.a; some (.jmp (← r.target)))
  | 0x103 => some (do r.plainG; ff r.a; some (.call (← sOf r.d) (← r.target)))
  | 0x104 => some (do r.plainG; ff r.b; ff r.c8; need (m == 0); some (.callx (← sOf r.d) (← vOf r.a)))
  | 0x105 => some (do r.plainG; ff r.d; ff r.b; ff r.c8; need (m == 0); some (.ret (← sOf r.a)))
  | 0x106 => some (do r.plainG; r.bare; need (m == 0); some .join)
  | 0x107 => some (do r.plainG; r.bare; need (m == 0); some .conv)
  | 0x108 => some (do r.bare; need (m == 0); some (.exit r.gd))
  | 0x109 => some (do
      ff r.d; ff r.a; ff r.b; need ((r.c.extractLsb' 16 3) == 0); some (.trap r.gd (r.c.extractLsb' 0 16)))
  | 0x10A => some (do r.plainG; r.bare; need (m == 0); some .nop)
  | 0x10B => some (do r.plainG; ff r.a; ff r.b; some (.loop (← sOf r.d) r.c))
  | 0x10C => some (do
      r.plainG; ff r.d; ff r.a; ff r.b; need ((r.c.extractLsb' 16 3) == 0)
      some (.fhdr (r.c.extractLsb' 0 8) (r.c.extractLsb' 8 8)))
  | 0x140 => some (do need (mf m 4 7 == 0); some (.ldA (← r.mem)))
  | 0x141 => some (do need (mf m 4 7 == 0); some (.stA (← r.mem)))
  | 0x142 => some (do need (mf m 4 7 == 0); some (.ldW (← r.mem)))
  | 0x143 => some (do some (.ldC (← r.tile)))
  | 0x144 => some (do some (.stC (← r.tile)))
  | 0x145 => some (do
      need (mf m 4 7 == 0)
      some (.atomA r.gd r.l (← Opnd.ofByte r.d) (← Opnd.ofByte r.a) (← Opnd.ofByte r.b) r.c8 (← AtomOp.ofCode (mf m 0 4))))
  | 0x146 => some (do
      need (m == 0)
      some (.casA r.gd r.l (← Opnd.ofByte r.d) (← Opnd.ofByte r.a) (← Opnd.ofByte r.b) (← Opnd.ofByte r.c8)))
  | 0x147 => some (do let (o, p) ← r.tag; need (!p); some (.tagset o))
  | 0x148 => some (do let (o, p) ← r.tag; need (!p); some (.tagclr o))
  | 0x149 => some (do let (o, p) ← r.tag; some (.tagwait o p))
  | 0x180 => some (do need (mf m 5 6 == 0); some (.ldG (← r.mem) (m.getLsbD 4)))
  | 0x181 => some (do need (mf m 4 7 == 0); some (.stG (← r.mem)))
  | 0x182 => some (do
      ff r.d; need (mf m 0 4 == 0 && mf m 5 6 == 0)
      some (.prefG r.gd (← Opnd.ofByte r.a) (← Opnd.ofByte r.b) r.c8 (m.getLsbD 4)))
  | 0x183 => some (do
      r.plainG; r.bare; need (mf m 4 7 == 0)
      let sc ← Scope.ofCode (mf m 2 2)
      match mf m 0 2 with
      | 1 => some (.fenceRel sc)
      | 2 => some (.fenceAcq sc)
      | 3 => some (.fenceFull sc)
      | _ => none)
  | 0x184 => some (do
      r.plainG; ff r.d; ff r.b; ff r.c8; need (mf m 3 8 == 0)
      some (.waitc (← Opnd.ofByte r.a) (← Path.ofCode (mf m 0 3))))
  | 0x1C0 => some (do
      need (mf m 7 4 == 0)
      some (.atomG r.gd r.l (← Opnd.ofByte r.d) (← Opnd.ofByte r.a) (← Opnd.ofByte r.b) r.c8
        (← AtomOp.ofCode (mf m 0 4)) (m.getLsbD 4) (← Scope.ofCode (mf m 5 2))))
  | 0x1C1 => some (do
      need (mf m 7 4 == 0 && mf m 0 4 == 0)
      some (.casG r.gd r.l (← Opnd.ofByte r.d) (← Opnd.ofByte r.a) (← Opnd.ofByte r.b) (← Opnd.ofByte r.c8)
        (m.getLsbD 4) (← Scope.ofCode (mf m 5 2))))
  | 0x1C2 => some (do
      ff r.c8; need (mf m 2 9 == 0)
      some (.qpush r.gd (← Opnd.ofByte r.d) (← Opnd.ofByte r.a) (← Opnd.ofByte r.b) (← Size.ofQueue (mf m 0 2))))
  | 0x1C3 => some (do
      ff r.b; need (mf m 2 9 == 0)
      some (.qpop r.gd r.l (← Opnd.ofByte r.d) (← Opnd.ofByte r.a) (← Opnd.ofByte r.c8) (← Size.ofQueue (mf m 0 2))))
  | 0x200 => some (do r.plainG; ff r.d; ff r.b; ff r.c8; need (mf m 6 5 == 0); some (.binit (← bar) (← Opnd.ofByte r.a)))
  | 0x201 => some (do r.plainG; r.bare; need (mf m 6 5 == 0); some (.barr (← bar)))
  | 0x202 => some (do
      r.plainG; ff r.d; ff r.b; ff r.c8; need (mf m 7 4 == 0); some (.bexp (← bar) (← Opnd.ofByte r.a) (m.getLsbD 6)))
  | 0x203 => some (do
      r.plainG; ff r.d; ff r.b; ff r.c8; need (mf m 7 4 == 0)
      if m.getLsbD 6 then some (.bwait (← bar) (some (← Opnd.ofByte r.a))) else do ff r.a; some (.bwait (← bar) none))
  | 0x204 => some (do r.plainG; r.bare; need (mf m 6 5 == 0); some (.barrw (← bar)))
  | 0x205 => some (do
      r.plainG; ff r.a; ff r.b; ff r.c8; need (mf m 8 3 == 0)
      some (.btest (← bar) (← Opnd.ofByte r.d) (m.getLsbD 6) (m.getLsbD 7)))
  | 0x206 => some (do r.plainG; ff r.d; ff r.b; ff r.c8; need (mf m 6 5 == 0); some (.bbind (← bar) (← Opnd.ofByte r.a)))
  | 0x240 => some (do r.plainG; ff r.d; need (m == 0); some (.kick (← Opnd.ofByte r.a) (← Opnd.ofByte r.b) r.c8))
  | 0x241 => some (do
      r.plainG; ff r.b; need (mf m 5 6 == 0)
      some (.strdef (← Opnd.ofByte r.d) (m.extractLsb' 0 5) (← Opnd.ofByte r.a) r.c8))
  | 0x242 => some (do
      ff r.a; ff r.b; need (mf m 9 2 == 0)
      some (.strq r.gd r.l (← Opnd.ofByte r.d) (← Opnd.ofByte r.c8) (m.extractLsb' 0 5) (← Size.ofCode (mf m 5 3)) (m.getLsbD 8)))
  | 0x243 => some (do r.plainG; r.bare; need (mf m 5 6 == 0); some (.strend (m.extractLsb' 0 5)))
  | 0x244 => some (do r.plainG; ff r.c8; need (m == 0); some (.spawn (← Opnd.ofByte r.d) (← sOf r.a) (← vOf r.b)))
  | 0x245 => some (do
      need (m == 0)
      some (.task r.gd (← Opnd.ofByte r.d) (← Opnd.ofByte r.a) (← Opnd.ofByte r.b) (← Opnd.ofByte r.c8)))
  | 0x280 => some (do
      need (mf m 9 2 == 0)
      some (.mma ⟨r.gd, ← sOf r.d, ← Opnd.ofByte r.a, ← Opnd.ofByte r.b, ← Opnd.ofByte r.c8, m.extractLsb' 0 5, m.extractLsb' 5 4⟩))
  | 0x281 => some (do
      need (mf m 9 2 == 0)
      some (.mmaSp ⟨r.gd, ← sOf r.d, ← Opnd.ofByte r.a, ← Opnd.ofByte r.b, ← Opnd.ofByte r.c8, m.extractLsb' 0 5, m.extractLsb' 5 4⟩))
  | 0x282 => some (do
      need (mf m 2 9 == 0)
      some (.vmx r.gd r.l (← vOf r.d) (← vOf r.a) (← vOf r.b) (← sOf r.c8) (m.extractLsb' 0 2)))
  | 0x283 => some (do r.plainG; r.bare; need (m == 0); some .mfence)
  | 0x284 => some (do r.plainG; ff r.d; ff r.b; ff r.c8; need (m == 0); some (.mwait (← Opnd.ofByte r.a)))
  | 0x285 => some (do r.plainG; r.bare; need (mf m 10 1 == 0); some (.azero (m.extractLsb' 0 5) (m.extractLsb' 5 5)))
  | 0x286 => some (do
      ff r.d; ff r.c8
      some (.aepi r.gd (m.extractLsb' 0 5) (← Opnd.ofByte r.a) (← Opnd.ofByte r.b) (← Act.ofCode (mf m 5 2)) (m.getLsbD 7)
        (← EpiFmt.ofCode (mf m 8 3))))
  | 0x287 => some (do
      ff r.b; ff r.c8; need (mf m 6 5 == 0)
      some (.amax r.gd r.l (← vOf r.d) (← Opnd.ofByte r.a) (m.extractLsb' 0 5) (m.getLsbD 5)))
  | 0x288 => some (do
      r.plainG; ff r.d; ff r.c8; need (mf m 8 3 == 0)
      some (.scldef (m.extractLsb' 0 8) (← sOf r.a) (← Opnd.ofByte r.b)))
  | 0x289 => some (do
      r.plainG; r.bare; need (mf m 9 2 == 0)
      if m.getLsbD 8 then (do need (mf m 0 8 == 0); some (.sclinv none)) else some (.sclinv (some (m.extractLsb' 0 8))))
  | 0x2C0 => some (do
      r.plainG; ff r.d; ff r.c8; need (mf m 6 5 == 0); some (.rrot (← Opnd.ofByte r.a) (← Opnd.ofByte r.b) (← bar)))
  | 0x2C1 => some (do
      need (mf m 3 8 == 0)
      some (.xst r.gd (← Opnd.ofByte r.d) (← Opnd.ofByte r.a) (← Opnd.ofByte r.b) r.c8 (← Size.ofCode (mf m 0 3))))
  | 0x2C2 => some (do r.plainG; r.bare; need (m == 0); some .xswap)
  | 0x2C3 => some (do r.plainG; r.bare; need (m == 0); some .cbar)
  | 0x300 => some (do r.plainG; ff r.a; ff r.b; need (m == 0); some (.grid r.l (← vOf r.d) (← Opnd.ofByte r.c8)))
  | 0x301 => some (do
      ff r.c8; need (mf m 1 10 == 0); some (.gderiv r.gd (← vOf r.d) (← vOf r.a) (← Opnd.ofByte r.b) (m.getLsbD 0)))
  | 0x302 => some (do
      need (mf m 1 10 == 0)
      if m.getLsbD 0 then (do ff r.c8; some (.texLz r.gd r.l (← vOf r.d) (← vOf r.a) (← sOf r.b)))
      else some (.tex r.gd r.l (← vOf r.d) (← vOf r.a) (← sOf r.b) (← vOf r.c8)))
  | 0x303 => some (do
      r.plainG; need (m == 0); some (.gemit (← Opnd.ofByte r.d) (← vOf r.a) (← vOf r.b) (← Opnd.ofByte r.c8)))
  | 0x304 => some (do r.plainG; ff r.d; ff r.b; ff r.c8; need (mf m 6 5 == 0); some (.kbres (← Opnd.ofByte r.a) (← bar)))
  | 0x305 => some (do
      r.plainG; ff r.c8; need (mf m 1 10 == 0)
      if m.getLsbD 0 then some (.srateCell (← Opnd.ofByte r.d) (← Opnd.ofByte r.a) (← Opnd.ofByte r.b))
      else (do ff r.b; some (.srateGrid (← Opnd.ofByte r.d) (← Opnd.ofByte r.a))))
  | 0x306 => some (do ff r.d; ff r.c8; need (m == 0); some (.rfbk r.gd (← Opnd.ofByte r.a) (← Opnd.ofByte r.b)))
  | 0x340 => some (do
      r.plainG; ff r.b; ff r.c8; need (mf m 1 10 == 0)
      if m.getLsbD 0 then (do ff r.d; some (.btagFree r.l (← Opnd.ofByte r.a)))
      else (do ff r.a; some (.btagAlloc r.l (← Opnd.ofByte r.d))))
  | 0x341 => some (do
      r.plainG; need (mf m 4 7 == 0)
      some (.bsend (← Opnd.ofByte r.d) (← Opnd.ofByte r.a) (← sOf r.b) (← Opnd.ofByte r.c8) (← Combine.ofCode (mf m 0 3)) (m.getLsbD 3)))
  | 0x342 => some (do
      r.plainG; ff r.a; ff r.b; ff r.c8; need (mf m 1 10 == 0)
      if m.getLsbD 0 then some (.bstatRcv (← Opnd.ofByte r.d)) else some (.bstatSnd (← Opnd.ofByte r.d)))
  | 0x380 => some (do
      r.plainG; r.bare; need (mf m 2 9 == 0)
      if h : mf m 0 2 < 3 then some (.icinv ⟨mf m 0 2, h⟩) else none)
  | 0x381 => some (do
      r.plainG; r.bare; need (mf m 1 10 == 0)
      if m.getLsbD 0 then some .trapretRetry else some .trapret)
  | 0x382 => some (do
      r.plainG; r.bare; need (mf m 1 10 == 0)
      if m.getLsbD 0 then some .yieldP else some .yield)
  | 0x383 => some (do r.plainG; ff r.d; ff r.b; ff r.c8; need (m == 0); some (.sleep (← Opnd.ofByte r.a)))
  | 0x384 => some (do
      ff r.d; ff r.a; ff r.b; need ((r.c.extractLsb' 16 3) == 0); some (.brk r.gd (r.c.extractLsb' 0 16)))
  | 0x385 => some (do
      r.plainG; ff r.b; ff r.c8; need (mf m 4 7 == 0)
      if m.getLsbD 0 then (do ff r.d; need (mf m 1 3 == 0); some (.perfMark (← Opnd.ofByte r.a)))
      else (do ff r.a; some (.perfRd (← sOf r.d) (m.extractLsb' 1 3).toFin)))
  | _ => none

/-- A full-form bundle's instruction, after decode orders 2 and 3 (R60). -/
def decodeFull (r : Raw) : Except DErr Instr :=
  match parseFull r with
  | none => .error (.opcode r.op.toNat)
  | some none => .error (.encoding 3)
  | some (some i) => if i.wf && (r.l == 0 || longLatency r.op.toNat) then .ok i else .error (.encoding 3)

/-! ### Halves -/

def HSrc.ofBits (s : BitVec 9) : Option HSrc :=
  if s.getLsbD 8 then some (.imm (s.extractLsb' 0 8)) else (Opnd.ofByte (s.extractLsb' 0 8)).map .reg

def HSrc.toBits : HSrc → BitVec 9
  | .reg o => 0#1 ++ o.toByte
  | .imm v => 1#1 ++ v

/-- A half's instruction (R51 to R53, R56, R57). -/
def parseHalf (h : BitVec 30) : Option (Option Instr) :=
  let oph := (h.extractLsb' 22 8).toNat
  let half : Option Half := do
    need (h.extractLsb' 0 4 == 0)
    some ⟨← HGuard.ofCode (h.extractLsb' 20 2).toNat, (h.extractLsb' 13 7).toFin, ← HSrc.ofBits (h.extractLsb' 4 9)⟩
  match oph with
  | 0x00 => some (half.map .halfAdd)
  | 0x01 => some (half.map .halfSub)
  | 0x02 => some (half.map .halfAnd)
  | 0x03 => some (half.map .halfOr)
  | 0x04 => some (half.map .halfXor)
  | 0x05 => some (half.map .halfShl)
  | 0x06 => some (half.map .halfShr)
  | 0x07 => some (half.map .halfSar)
  | 0x08 => some (half.map .halfMin)
  | 0x09 => some (half.map .halfMax)
  | 0x0A => some (half.map fun x => if x.names then .hnop else .halfMov x)
  | 0x10 => some (half.map .halfFadd)
  | 0x11 => some (half.map .halfFmul)
  | 0x12 => some (half.map .halfFmin)
  | 0x13 => some (half.map .halfFmax)
  | 0x14 => some (half.map .halfFsub)
  | 0xF0 => some (do
      need (h.extractLsb' 0 16 == 0)
      some (.pfxM ⟨← Rnd.ofCode (h.extractLsb' 19 3).toNat, ← Sat.ofCode (h.extractLsb' 17 2).toNat, h.getLsbD 16⟩))
  | 0xF1 => some (do need (h.extractLsb' 13 9 == 0); some (.pfxI (h.extractLsb' 0 13)))
  | _ => none

/-- What a bundle holds after decode orders 1 to 3. -/
inductive Body where
  | full (i : Instr) | pair (hi lo : Instr)
  deriving DecidableEq, Repr

structure Bundle where
  e : Bool
  body : Body
  deriving DecidableEq, Repr

def hiHalf (x : BitVec 64) : BitVec 30 := field x 31 30
def loHalf (x : BitVec 64) : BitVec 30 := field x 1 30

/-- Decode orders 1 to 3 of a bundle (R60): all checks of one order on the high half before the low half. -/
def decodeBundle (x : BitVec 64) : Except DErr Bundle :=
  if x.getLsbD 63 then .error (.encoding 1)
  else if !x.getLsbD 62 then
    match decodeFull (Raw.ofWord x) with
    | .ok i => .ok ⟨x.getLsbD 61, .full i⟩
    | .error e => .error e
  else
    match parseHalf (hiHalf x), parseHalf (loHalf x) with
    | none, _ => .error (.opcode ((hiHalf x).extractLsb' 22 8).toNat)
    | _, none => .error (.opcode ((loHalf x).extractLsb' 22 8).toNat)
    | some (some hi), some (some lo) =>
      if hi.wf && lo.wf && !x.getLsbD 0 then .ok ⟨x.getLsbD 61, .pair hi lo⟩ else .error (.encoding 3)
    | some _, some _ => .error (.encoding 3)

/-! ### The encoder -/

/-- A full form with C[18:11] = c8 and modifier field m. -/
def rawOf (l : BitVec 4) (op : Nat) (g : Guard) (d a b c8 : BitVec 8) (m : BitVec 11) : Raw :=
  ⟨false, l, BitVec.ofNat 10 op, g.toBits, d, a, b, cReg c8 m⟩

def rawC (op : Nat) (g : Guard) (d a b : BitVec 8) (c : BitVec 19) : Raw :=
  ⟨false, 0, BitVec.ofNat 10 op, g.toBits, d, a, b, c⟩

def enc1 (op : Nat) (o : Op1) (m : BitVec 11) : Raw := rawOf 0 op o.g o.d.toByte o.a.toByte 0xFF 0xFF m
def enc2 (op : Nat) (o : Op2) (m : BitVec 11) : Raw :=
  match o.b with
  | .imm v => rawC op o.g o.d.toByte o.a.toByte 0xFF v
  | .reg b => rawOf 0 op o.g o.d.toByte o.a.toByte b.toByte 0xFF m
def encAB (op : Nat) (o : OpAB) (m : BitVec 11) : Raw := rawOf 0 op o.g o.d.toByte o.a.toByte o.b.toByte 0xFF m
def enc3 (op : Nat) (o : Op3) (m : BitVec 11) : Raw := rawOf 0 op o.g o.d.toByte o.a.toByte o.b.toByte o.c.toByte m
def encMem (op : Nat) (o : LocalOp) (m : BitVec 11) : Raw :=
  rawOf o.la op o.g o.d.toByte o.a.toByte o.b.toByte o.off (mp o.size.code 0 ||| mb o.sx 3 ||| m)
def encTile (op : Nat) (o : TileOp) : Raw :=
  rawOf o.la op o.g o.d.toByte o.a.toByte 0xFF o.off (mp o.size.code 0 ||| mp o.tile.toNat 6)
def encTag (op : Nat) (o : TagOp) (clr : Bool) : Raw :=
  rawOf 0 op .always 0xFF o.a.toByte 0xFF o.off
    (mp o.space.code 0 ||| mb o.v 2 ||| mb o.c 3 ||| mb clr 4 ||| mp o.cnt.toNat 5)
def encMma (op : Nat) (o : MmaOp) : Raw :=
  rawOf 0 op o.g (sByte o.fb) o.a.toByte o.b.toByte o.c.toByte (mp o.tile.toNat 0 ||| mp o.kk.toNat 5)
def encTarget (op : Nat) (d : BitVec 8) : Target → Raw
  | .disp c => rawC op .always d 0xFF 0xFF c
  | .reg n => rawOf 0 op .always d 0xFF (sByte n) 0xFF 0
def encSys (op : Nat) (d a b : BitVec 8) (m : BitVec 11) : Raw := rawOf 0 op .always d a b 0xFF m
def encBar (op : Nat) (k : BitVec 6) (d a : BitVec 8) (m : BitVec 11) : Raw := encSys op d a 0xFF (mp k.toNat 0 ||| m)
def cImm (lo16 : BitVec 16) : BitVec 19 := 0#3 ++ lo16

/-- The full form of an instruction (R43, R62); halves, fetched modifiers and events have none. -/
def encodeFull : Instr → Option Raw
  | .add o ty => some (enc2 0x000 o ty.code)
  | .sub o ty => some (enc2 0x001 o ty.code)
  | .mulLo o ty => some (enc2 0x002 o ty.code)
  | .mulHi o ty => some (enc2 0x003 o ty.code)
  | .mad o ty => some (enc3 0x004 o ty.code)
  | .min o ty => some (enc2 0x005 o ty.code)
  | .max o ty => some (enc2 0x006 o ty.code)
  | .abs o => some (enc1 0x007 o 0)
  | .and o => some (enc2 0x008 o 0)
  | .or o => some (enc2 0x009 o 0)
  | .xor o => some (enc2 0x00A o 0)
  | .lop3 o t => some (enc3 0x00B o (mp t.toNat 0))
  | .shl o => some (enc2 0x00C o 0)
  | .shr o => some (enc2 0x00D o 0)
  | .sar o => some (enc2 0x00E o 0)
  | .rot o => some (enc2 0x00F o 0)
  | .bfe o sx => some (enc2 0x010 o (mb sx 0))
  | .bfi o => some (enc2 0x011 o 0)
  | .popc o => some (enc1 0x012 o 0)
  | .clz o => some (enc1 0x013 o 0)
  | .brev o => some (enc1 0x014 o 0)
  | .addW o => some (enc2 0x015 o 0)
  | .lea o sh z => some (enc2 0x016 o (mp sh.val 0 ||| mb z 3))
  | .cmp o c ty k => some (encAB 0x017 o (mp c.code 0 ||| mb (ty == .n32) 3 ||| mp k.code 4))
  | .sel o => some (enc3 0x018 o 0)
  | .mov o => some (enc1 0x019 o 0)
  | .movi g d imm => some (rawC 0x01A g d.toByte 0xFF 0xFF imm)
  | .plop o t => some (enc3 0x01B o (mp t.toNat 0))
  | .dp4 o ua ub => some (enc3 0x01C o (mb ua 0 ||| mb ub 1))
  | .fadd o => some (enc2 0x040 o 0)
  | .fsub o => some (enc2 0x041 o 0)
  | .fmul o => some (enc2 0x042 o 0)
  | .ffma o => some (enc3 0x043 o 0)
  | .fmin o nan => some (enc2 0x044 o (mb nan 0))
  | .fmax o nan => some (enc2 0x045 o (mb nan 0))
  | .fcmp o c u k => some (encAB 0x046 o (mp c.code 0 ||| mb u 3 ||| mp k.code 4))
  | .fclass o m => some (enc1 0x047 o (mp m.toNat 0))
  | .frnd o => some (enc1 0x048 o 0)
  | .ffrac o => some (enc1 0x049 o 0)
  | .frcp o => some (enc1 0x04A o 0)
  | .frsq o => some (enc1 0x04B o 0)
  | .fsqrt o => some (enc1 0x04C o 0)
  | .fexp2 o => some (enc1 0x04D o 0)
  | .flog2 o => some (enc1 0x04E o 0)
  | .fsin o => some (enc1 0x04F o 0)
  | .fcos o => some (enc1 0x050 o 0)
  | .ftanh o => some (enc1 0x051 o 0)
  | .hadd2 o bf => some (encAB 0x052 o (mb bf 0))
  | .hmul2 o bf => some (encAB 0x053 o (mb bf 0))
  | .hfma2 o bf => some (enc3 0x054 o (mb bf 0))
  | .fdot2 o bf => some (enc3 0x055 o (mb bf 0))
  | .fdiv o => some (encAB 0x056 o 0)
  | .cvt o dst src => some (enc1 0x080 o (mp dst.code 0 ||| mp src.code 4))
  | .pack2 o ty => some (encAB 0x081 o (mp ty.code 0))
  | .pack4 o ty => some (enc3 0x082 o (mp ty.code 0))
  | .unpack o ty e => some (enc1 0x083 o (mp ty.code 0 ||| mp e.val 3))
  | .qblk o b32 => some (enc1 0x084 o (mb b32 0))
  | .dqblk o => some (enc1 0x085 o 0)
  | .i4g o h => some (encAB 0x086 o (mp h.val 0))
  | .vote o op => some (enc1 0x0C0 o (mp op.code 0))
  | .shfl o md lg => some (encAB 0x0C1 o (mp md.code 0 ||| mp lg.val 2))
  | .redux o op => some (enc1 0x0C2 o (mp op.code 0))
  | .scan o op ex => some (enc1 0x0C3 o (mp op.code 0 ||| mb ex 4))
  | .tagof o => some (enc1 0x0C4 o 0)
  | .mkaff o => some (enc2 0x0C5 o 0)
  | .movs g d r => some (rawC 0x0C6 g d.toByte 0xFF 0xFF (BitVec.ofNat 19 r.code))
  | .setsr r a => some (rawC 0x0C7 .always 0xFF a.toByte 0xFF (BitVec.ofNat 19 r.code))
  | .rpf vc vb mask =>
    some (rawC 0x0C8 .always (vc.elim 0xFF vByte) (vb.elim 0xFF vByte) 0xFF (cImm mask))
  | .rdlane o => some (enc2 0x0C9 o 0)
  | .br g a c => some (rawC 0x100 g 0xFF a.toByte 0xFF c)
  | .brD g h c => some (rawC 0x101 g (if h then 1 else 0) 0xFF 0xFF c)
  | .jmp t => some (encTarget 0x102 0xFF t)
  | .call d t => some (encTarget 0x103 (sByte d) t)
  | .callx d a => some (encSys 0x104 (sByte d) (vByte a) 0xFF 0)
  | .ret a => some (encSys 0x105 0xFF (sByte a) 0xFF 0)
  | .join => some (encSys 0x106 0xFF 0xFF 0xFF 0)
  | .conv => some (encSys 0x107 0xFF 0xFF 0xFF 0)
  | .exit g => some (rawOf 0 0x108 g 0xFF 0xFF 0xFF 0xFF 0)
  | .trap g code => some (rawC 0x109 g 0xFF 0xFF 0xFF (cImm code))
  | .nop => some (encSys 0x10A 0xFF 0xFF 0xFF 0)
  | .loop d c => some (rawC 0x10B .always (sByte d) 0xFF 0xFF c)
  | .fhdr n g => some (rawC 0x10C .always 0xFF 0xFF 0xFF (cImm (g ++ n)))
  | .ldA o => some (encMem 0x140 o 0)
  | .stA o => some (encMem 0x141 o 0)
  | .ldW o => some (encMem 0x142 o 0)
  | .ldC o => some (encTile 0x143 o)
  | .stC o => some (encTile 0x144 o)
  | .atomA g la d a b off op => some (rawOf la 0x145 g d.toByte a.toByte b.toByte off (mp op.code 0))
  | .casA g la d a b c => some (rawOf la 0x146 g d.toByte a.toByte b.toByte c.toByte 0)
  | .tagset o => some (encTag 0x147 o false)
  | .tagclr o => some (encTag 0x148 o false)
  | .tagwait o clr => some (encTag 0x149 o clr)
  | .ldG o cg => some (encMem 0x180 o (mb cg 4))
  | .stG o => some (encMem 0x181 o 0)
  | .prefG g a b off l2 => some (rawOf 0 0x182 g 0xFF a.toByte b.toByte off (mb l2 4))
  | .fenceRel sc => some (encSys 0x183 0xFF 0xFF 0xFF (mp 1 0 ||| mp sc.code 2))
  | .fenceAcq sc => some (encSys 0x183 0xFF 0xFF 0xFF (mp 2 0 ||| mp sc.code 2))
  | .fenceFull sc => some (encSys 0x183 0xFF 0xFF 0xFF (mp 3 0 ||| mp sc.code 2))
  | .waitc a p => some (encSys 0x184 0xFF a.toByte 0xFF (mp p.code 0))
  | .atomG g la d a b off op wide sc =>
    some (rawOf la 0x1C0 g d.toByte a.toByte b.toByte off (mp op.code 0 ||| mb wide 4 ||| mp sc.code 5))
  | .casG g la d a b c wide sc =>
    some (rawOf la 0x1C1 g d.toByte a.toByte b.toByte c.toByte (mb wide 4 ||| mp sc.code 5))
  | .qpush g d a b z => some (rawOf 0 0x1C2 g d.toByte a.toByte b.toByte 0xFF (mp z.qcode 0))
  | .qpop g la d a c z => some (rawOf la 0x1C3 g d.toByte a.toByte 0xFF c.toByte (mp z.qcode 0))
  | .binit k a => some (encBar 0x200 k 0xFF a.toByte 0)
  | .barr k => some (encBar 0x201 k 0xFF 0xFF 0)
  | .bexp k a nx => some (encBar 0x202 k 0xFF a.toByte (mb nx 6))
  | .bwait k p => some (encBar 0x203 k 0xFF (p.elim 0xFF Opnd.toByte) (mb p.isSome 6))
  | .barrw k => some (encBar 0x204 k 0xFF 0xFF 0)
  | .btest k d cnt nx => some (encBar 0x205 k d.toByte 0xFF (mb cnt 6 ||| mb nx 7))
  | .bbind k a => some (encBar 0x206 k 0xFF a.toByte 0)
  | .kick a b off => some (rawOf 0 0x240 .always 0xFF a.toByte b.toByte off 0)
  | .strdef d k a off => some (rawOf 0 0x241 .always d.toByte a.toByte 0xFF off (mp k.toNat 0))
  | .strq g la d c k z sx =>
    some (rawOf la 0x242 g d.toByte 0xFF 0xFF c.toByte (mp k.toNat 0 ||| mp z.code 5 ||| mb sx 8))
  | .strend k => some (encSys 0x243 0xFF 0xFF 0xFF (mp k.toNat 0))
  | .spawn d a b => some (encSys 0x244 d.toByte (sByte a) (vByte b) 0)
  | .task g d a b c => some (rawOf 0 0x245 g d.toByte a.toByte b.toByte c.toByte 0)
  | .mma o => some (encMma 0x280 o)
  | .mmaSp o => some (encMma 0x281 o)
  | .vmx g la d a b fb kk => some (rawOf la 0x282 g (vByte d) (vByte a) (vByte b) (sByte fb) (mp kk.toNat 0))
  | .mfence => some (encSys 0x283 0xFF 0xFF 0xFF 0)
  | .mwait a => some (encSys 0x284 0xFF a.toByte 0xFF 0)
  | .azero n c => some (encSys 0x285 0xFF 0xFF 0xFF (mp n.toNat 0 ||| mp c.toNat 5))
  | .aepi g n a b act zc fmt =>
    some (rawOf 0 0x286 g 0xFF a.toByte b.toByte 0xFF (mp n.toNat 0 ||| mp act.code 5 ||| mb zc 7 ||| mp fmt.code 8))
  | .amax g la d a n i32 => some (rawOf la 0x287 g (vByte d) a.toByte 0xFF 0xFF (mp n.toNat 0 ||| mb i32 5))
  | .scldef id a b => some (encSys 0x288 0xFF (sByte a) b.toByte (mp id.toNat 0))
  | .sclinv id => some (encSys 0x289 0xFF 0xFF 0xFF (id.elim (mb true 8) fun i => mp i.toNat 0))
  | .rrot a b k => some (encSys 0x2C0 0xFF a.toByte b.toByte (mp k.toNat 0))
  | .xst g d a b off z => some (rawOf 0 0x2C1 g d.toByte a.toByte b.toByte off (mp z.code 0))
  | .xswap => some (encSys 0x2C2 0xFF 0xFF 0xFF 0)
  | .cbar => some (encSys 0x2C3 0xFF 0xFF 0xFF 0)
  | .grid la d c => some (rawOf la 0x300 .always (vByte d) 0xFF 0xFF c.toByte 0)
  | .gderiv g d a b v => some (rawOf 0 0x301 g (vByte d) (vByte a) b.toByte 0xFF (mb v 0))
  | .tex g la d a b c => some (rawOf la 0x302 g (vByte d) (vByte a) (sByte b) (vByte c) 0)
  | .texLz g la d a b => some (rawOf la 0x302 g (vByte d) (vByte a) (sByte b) 0xFF (mb true 0))
  | .gemit d a b c => some (rawOf 0 0x303 .always d.toByte (vByte a) (vByte b) c.toByte 0)
  | .kbres a k => some (encBar 0x304 k 0xFF a.toByte 0)
  | .srateGrid d a => some (encSys 0x305 d.toByte a.toByte 0xFF 0)
  | .srateCell d a b => some (encSys 0x305 d.toByte a.toByte b.toByte (mb true 0))
  | .rfbk g a b => some (rawOf 0 0x306 g 0xFF a.toByte b.toByte 0xFF 0)
  | .btagAlloc la d => some (rawOf la 0x340 .always d.toByte 0xFF 0xFF 0xFF 0)
  | .btagFree la a => some (rawOf la 0x340 .always 0xFF a.toByte 0xFF 0xFF (mb true 0))
  | .bsend d a b c comb fc =>
    some (rawOf 0 0x341 .always d.toByte a.toByte (sByte b) c.toByte (mp comb.code 0 ||| mb fc 3))
  | .bstatSnd d => some (encSys 0x342 d.toByte 0xFF 0xFF 0)
  | .bstatRcv d => some (encSys 0x342 d.toByte 0xFF 0xFF (mb true 0))
  | .icinv sc => some (encSys 0x380 0xFF 0xFF 0xFF (mp sc.val 0))
  | .trapret => some (encSys 0x381 0xFF 0xFF 0xFF 0)
  | .trapretRetry => some (encSys 0x381 0xFF 0xFF 0xFF (mb true 0))
  | .yield => some (encSys 0x382 0xFF 0xFF 0xFF 0)
  | .yieldP => some (encSys 0x382 0xFF 0xFF 0xFF (mb true 0))
  | .sleep a => some (encSys 0x383 0xFF a.toByte 0xFF 0)
  | .brk g code => some (rawC 0x384 g 0xFF 0xFF 0xFF (cImm code))
  | .perfRd d k => some (encSys 0x385 (sByte d) 0xFF 0xFF (mp k.val 1))
  | .perfMark a => some (encSys 0x385 0xFF a.toByte 0xFF (mb true 0))
  | _ => none

def halfBits (oph : Nat) (h : Half) : BitVec 30 :=
  BitVec.ofNat 8 oph ++ BitVec.ofNat 2 h.g.code ++ BitVec.ofNat 7 h.d.val ++ h.s.toBits ++ 0#4

/-- The 30 bits of a half (R51 to R57). -/
def encodeHalf : Instr → Option (BitVec 30)
  | .halfAdd h => some (halfBits 0x00 h)
  | .halfSub h => some (halfBits 0x01 h)
  | .halfAnd h => some (halfBits 0x02 h)
  | .halfOr h => some (halfBits 0x03 h)
  | .halfXor h => some (halfBits 0x04 h)
  | .halfShl h => some (halfBits 0x05 h)
  | .halfShr h => some (halfBits 0x06 h)
  | .halfSar h => some (halfBits 0x07 h)
  | .halfMin h => some (halfBits 0x08 h)
  | .halfMax h => some (halfBits 0x09 h)
  | .halfMov h => some (halfBits 0x0A h)
  | .hnop => some (halfBits 0x0A ⟨.none, 0, .reg (.v 0)⟩)
  | .halfFadd h => some (halfBits 0x10 h)
  | .halfFmul h => some (halfBits 0x11 h)
  | .halfFmin h => some (halfBits 0x12 h)
  | .halfFmax h => some (halfBits 0x13 h)
  | .halfFsub h => some (halfBits 0x14 h)
  | .pfxM m => some (0xF0#8 ++ BitVec.ofNat 3 m.rnd.code ++ BitVec.ofNat 2 m.sat.code ++ BitVec.ofBool m.ftz ++ 0#16)
  | .pfxI hi => some (0xF1#8 ++ 0#9 ++ hi)
  | _ => none

/-- A pair bundle (R51). -/
def pairWord (e : Bool) (hi lo : BitVec 30) : BitVec 64 := 0#1 ++ 1#1 ++ BitVec.ofBool e ++ hi ++ lo ++ 0#1

/-- The no-operation half (R53). -/
def hnopBits : BitVec 30 := halfBits 0x0A ⟨.none, 0, .reg (.v 0)⟩

/-- The bundle of one instruction with E = 0. A half stands in the high slot beside a hnop (R69); a fetched
modifier stands in the low slot after a hnop (R71). -/
def encode (i : Instr) : Option (BitVec 64) :=
  match encodeFull i with
  | some r => some r.toWord
  | none =>
    match i with
    | .pfxM m => (encodeHalf (.pfxM m)).map (pairWord false hnopBits)
    | .pfxI v => (encodeHalf (.pfxI v)).map (pairWord false hnopBits)
    | i => (encodeHalf i).map fun h => pairWord false h hnopBits

/-- The instruction of a bundle whose bits are w, every bit above nbits being 0: the full form's instruction, or
the half that is no hnop. -/
def decodeTableWord (nbits w : Nat) : Option Instr :=
  match decodeBundle (BitVec.ofNat 64 (w % 2 ^ nbits)) with
  | .ok ⟨_, .full i⟩ => some i
  | .ok ⟨_, .pair hi lo⟩ => some (match hi with | .hnop => lo | _ => hi)
  | .error _ => none

end Sys2Proof
end

