-- ==== Sys2Proof/Config.lean ====
section
/-! DEFINITION. What an implementation fixes and the values the manual leaves open. Every opaque constant is
a free value: nothing can be proved of it (log entries 2, 3, 5, 6, 24, 26, 47, 68). -/

namespace Sys2Proof.Config

/-- A value the manual calls unpredictable (R10, R223), fresh for each count of `State.free` (log entry 2). -/
opaque freeWord : Nat → Word
/-- A choice between two outcomes the manual allows (R36, R165, R193, R251), fresh for each count (log entry 2). -/
opaque freeBit : Nat → Bool
/-- What a reading of the DTC at place k differs by; used modulo 2.000 ns + 1 raw unit (R325, log entry 3). -/
opaque clockSkew : Nat → Nat
/-- The T3 functions' choice among the results their error bounds allow, fixed for each prefix and input bits (R118,
R119, log entry 5). -/
opaque frcp : Nat → Word → Word
opaque frsq : Nat → Word → Word
opaque fexp2 : Nat → Word → Word
opaque flog2 : Nat → Word → Word
opaque fsin : Nat → Word → Word
opaque fcos : Nat → Word → Word
opaque ftanh : Nat → Word → Word
/-- SHAKE256 with 512 bits of output (R413). -/
opaque shake256 : List Byte → BitVec 512
/-- SLH-DSA-SHAKE-256s verification over key, message and signature (R413). -/
opaque slhVerify : BitVec 512 → List Byte → List Byte → Bool
/-- SLH-DSA-SHAKE-256f signature under the identity key, of 49,856 bytes (R414). -/
opaque slhSign : List Byte → BitVec 398848
/-- The identity public key derived at reset, of 64 bytes (R414). -/
opaque identityKey : BitVec 512
/-- The key hash and the minimum security version held in fuses (R413). -/
opaque fuseKeyHash : BitVec 256
opaque fuseVersion : Nat
/-- The boot ROM's own measurement (R413). -/
opaque romMeasure : BitVec 512
/-- The content of an OBU of a kind in the n-th temporal unit, from its quantiser and key flag; of a tile group also its tile row
and the samples of that row (R388, R392, log entry 6). -/
opaque av1Obu : Nat → Nat → Nat → Bool → Nat → List Byte → List Byte
/-- The port's unicast MAC address, read from fuses (R415). -/
opaque mac : BitVec 48
/-- What a unorm channel of w bits holds of a colour that is NaN, modulo 2^w (R367, log entry 24). -/
opaque nanUnorm : Nat → Word → Nat
/-- How a record marks a malformed page-table entry, beside the kind in [3:0] of its detail (R316, log entry 47). -/
opaque malformedMark : Nat
/-- Byte i of the header of a grid record, from its grid word, stream, strip and what gives the screen bound: WT, HT, LS, FI and
the vertices' positions (R299, R301, log entry 26). -/
opaque gridHeader : Word → Nat → Nat → List Word → Nat → Byte
/-- A free byte of a field whose content the manual does not give (log entry 2). -/
opaque freeByte : Nat → Byte

/-- Cores, cores of a cluster, clusters, slices (R2). -/
def cores : Nat := 2048
def perCluster : Nat := 16
def clusters : Nat := 128
def sliceCount : Nat := 256
/-- One raw unit of device time is 2^-16 ns; one tu is 1/66 ps, so that every class length of R32 is whole. -/
def tuPerNs : Nat := 66000
/-- 2.000 ns and 1 µs in raw units (R166, R325). -/
def ns2 : Nat := 131072
def us1 : Nat := 65536000

/-- The length of a core cycle in tu by class and clock scale (0 nominal, 1 fall step, 2 boost) (R32). -/
def cycleTu (cls scale : Nat) : Nat :=
  let base := match cls with | 0 => 16500 | 1 => 19800 | 2 => 24750 | _ => 33000
  match scale with | 0 => base | 1 => base * 10 / 11 | _ => base * 10 / 12

end Sys2Proof.Config
end

