-- ==== Sys2Proof/Machine/State.lean ====
section
/-! DEFINITION. The state of the QZ8 as plain data, why a step can stop, and the state after reset. -/

namespace Sys2Proof.Machine

/-- Bytes by address, strictly rising, no entry equal to 0x00, which is what an unlisted address reads as
(R342 for a reservation; log entry 1 for LPDDR 6 and the ring). -/
abbrev Mem := List Host.Cell

/-- A trap about to be raised (R246): code, thread, information, and the address its record holds. -/
structure TrapReq where
  code : Nat
  thread : Nat
  info : Word
  addr : DWord
  deriving DecidableEq, Repr

/-! ### Registers of a wave -/

/-- A V register with its shape tag (R23). A GEN register holds its 32 elements; the index of the row that
stores them is chosen by the core without visible effect before a save (R28, log entry 12). -/
inductive VReg where
  | unwritten | uni (v : Word) | aff (base stride : Word) | gen (row : List Word)
  deriving DecidableEq, Repr

/-- What a destination of a window met (R36): the value it held before a long-latency result was written, or the threads
in which a follower wrote it before the delivery. -/
inductive Held where
  | v (n : Nat) (old : VReg) | s (n : Nat) (old : Word) | wg (n : Nat) (old : Word) | p (n : Nat) (old : Mask)
  | wrote (o : Opnd) (m : Mask)
  deriving DecidableEq, Repr

/-- An open lookahead window (R34): the in-flight instruction; one more than the instructions that may still issue
without a check, 0 once closed early (R35); the destinations; before the delivery what followers wrote to them,
after it what they held before it; whether it is delivered, the error it met, and the core cycle until which its value
is still due to other splits (R128). -/
structure Window where
  acc : Nat
  left : Nat
  dests : List Opnd
  held : List Held
  delivered : Bool
  err : Option DWord
  till : Nat
  deriving DecidableEq, Repr

/-- What a global element does at its place (R176, R319 to R324, R348, R438, R284). -/
inductive ElemOp where
  | load (cg : Bool) | store | atom (op : AtomOp) | cas | push (size : Nat) (count drop : Bool) | pop (size : Nat)
  | task | ring (size : Nat) | tagAlloc | bridle | grid | tex | emit
  deriving DecidableEq, Repr

/-- One element of a global instruction: thread, addresses with the bytes from there to the end of its page, bytes sent,
what came back, and the moment it reaches its core (R308); a queue's element also whether it found its header bad (R322). -/
structure Elem where
  t : Nat
  va : DWord
  pa : Nat
  lease : Nat
  room : Nat
  len : Nat
  data : List Byte
  cmp : List Byte
  done : Bool
  ok : Bool
  err : Bool
  badHdr : Bool
  ret : List Byte
  ctime : DWord
  back : Nat
  deriving DecidableEq, Repr

/-- An instruction on one of the six in-flight paths (R177), in issue order. -/
structure Acc where
  id : Nat
  path : Path
  pc : DWord
  op : ElemOp
  sc : Scope
  dst : Opnd
  pred : Opnd
  regs : Nat
  size : Nat
  sx : Bool
  uniform : Bool
  mask : Mask
  prio : Nat
  elems : List Elem
  done : Bool
  deriving DecidableEq, Repr

/-- A bsend between its checks and the tag area's answer (R353). -/
structure BridleSend where
  tag : Word
  comb : Combine
  count : Nat
  fromC : Bool
  src : Nat
  toCore : Bool
  dst : DWord
  pa : Nat
  deriving DecidableEq, Repr

/-- Why a split waits at its PC (R143, R174, R179, R184, R222, R251, R253, R272, R323, R331, R353, R175, R378). -/
inductive Wait where
  | counter (path : Path) (thr : Nat)
  | mwait (thr : Nat)
  | barrier (k : Nat) (par : Bool)
  | tiles (space : Space) (first cnt : Nat) (v c val : Bool)
  | fence (rel acq : Bool) (sc : Scope) (w ld host : List Nat)
  | icinv (sc : Nat) (w : List Nat)
  | sleep (deadline : Option DWord)
  | translate (a : Acc) (la : Nat) (fault : Option (Nat × Nat))
  | need
  | access (id : Nat)
  | deliver
  | bsend (b : BridleSend)
  | xswap (gen : Nat) (w : List Nat)
  | cbar (gen : Nat) (w : List Nat)
  | confirm
  | held (t : TrapReq) (pc : DWord) (slot : Bool)
  deriving DecidableEq, Repr

/-- A live split is running, parked by join or conv, or waiting at its PC (R137, R244). -/
inductive Status where
  | running | parkedJoin | parkedConv | waiting (w : Wait)
  deriving DecidableEq, Repr

/-- A fetched modifier or immediate on its way to its target (R56 to R59): where the bundle that holds it
stands, and whether it sits in the low slot. -/
structure Pfx where
  m : Option PfxM
  i : Option (BitVec 13)
  pc : DWord
  low : Bool
  deriving DecidableEq, Repr

/-- A live split (R15, R137): id, PC, the low slot it resumes at (R59), mask, S0 to S63, status, the arrived
mark of barrw, xswap and cbar, call depth, the identity that the hint order names it by, and the divergence
identifier: the paths the wave had created before it (R244); and since which cycle it is ready, and whether a yield made it
the youngest (R252). -/
structure Split where
  id : Nat
  pc : DWord
  low : Bool
  mask : Mask
  s : List Word
  status : Status
  arrived : Bool
  depth : Nat
  uid : Nat
  div : Nat
  windows : List Window
  pfx : Option Pfx
  latch : Option (VReg × VReg)
  readyAt : Nat
  young : Bool
  deriving DecidableEq, Repr

/-- A deferred-stack entry (R15). -/
structure Deferred where
  pc : DWord
  mask : Mask
  s : List Word
  depth : Nat
  uid : Nat
  div : Nat
  deriving DecidableEq, Repr

/-- An entry of a stream's operand queue (R200): bytes or a held fault, the stale mark, and the moment it reaches its core. -/
structure StrEntry where
  bytes : List Byte
  fault : Option Nat
  va : Nat
  stale : Bool
  back : Nat
  deriving DecidableEq, Repr

/-- A defined stream (R197 to R202): its identity, and the element run-ahead has asked for, with its address and whether
the wave has written to its line since. -/
structure Strm where
  daddr : Nat
  base : Nat
  stride : Int
  count : Nat
  global : Bool
  esz : Nat
  idx : Option Nat
  idxSigned : Bool
  pos : Nat
  q : AMap StrEntry
  sid : Nat
  out : List (Nat × Nat × Bool)
  deriving DecidableEq, Repr

/-- Wave roles (R203, R204). -/
inductive Role where
  | general | copy | matrix | epilogue
  deriving DecidableEq, Repr

/-- How far a stop of a wave has come (R241). -/
inductive Stop where
  | none | draining | drained
  deriving DecidableEq, Repr

/-- A wave in a context (R12 to R28, R137, R177, R220, R243); `gone` are the windows of splits that ended before their
results came (R152), `owed` the errors that the splits of a drained wave have still to report (R410). -/
structure Wave where
  grid : Nat
  wg : Nat
  idx : Nat
  role : Role
  n : Nat
  g : Nat
  prio : Nat
  stage : Nat
  v : List VReg
  p : List Mask
  splits : List Split
  deferred : List Deferred
  hint : List Nat
  nextUid : Nat
  created : Nat
  area : Option Nat
  exited : Mask
  uconf : DWord
  mflags : Word
  seed : Word
  lwt : DWord
  lwtSet : Bool
  trapReg : DWord
  handler : Option Nat
  heldS : DWord
  heldArr : Bool
  accs : List Acc
  nextAcc : Nat
  gone : List Window
  owed : List (Nat × DWord)
  fob : List Nat
  dirty : List Nat
  rpf : List Nat
  recValid : BitVec 48
  recPar : BitVec 48
  streams : AMap Strm
  snd : Word
  mfault : Option (Nat × Nat × DWord)
  brk : Bool
  wakePend : Bool
  stop : Stop
  started : Bool
  startAt : Nat
  deriving DecidableEq, Repr

/-! ### Workgroups -/

/-- Tile tags V and C (R164) and the zero flag (R194). -/
structure Tag where
  v : Bool
  c : Bool
  z : Bool
  deriving DecidableEq, Repr

/-- A named barrier (R181). -/
structure Bar where
  ph : Bool
  exp : Nat
  arr : Nat
  cnt0 : Int
  cnt1 : Int
  seen0 : Bool
  seen1 : Bool
  lwt0 : DWord
  lwt1 : DWord
  lwtc0 : DWord
  lwtc1 : DWord
  err : Bool
  cause : Nat
  bind : Option Nat
  deriving DecidableEq, Repr

/-- A scale-tensor binding (R215, R232). -/
structure SclBind where
  addr : DWord
  desc : Word
  deriving DecidableEq, Repr

/-- A write of a WG register not long past, or the value before the first of them (no writer): its value, and the last
cycle of its instruction's execute (R334). -/
structure WgWrite where
  reg : Nat
  val : Word
  done : Nat
  idx : Option Nat
  deriving DecidableEq, Repr

/-- A workgroup: its reservation's contents with relative addresses (R156), where it lies on its core (none
while evicted, R242), its barriers, tags, WG registers, bindings and status words; `owedV` are the A-buffer tiles whose V is to
be set when it comes back (R384). -/
structure WGrp where
  grid : Nat
  lin : Nat
  core : Option Nat
  abase : Nat
  wbase : Nat
  cbase : Nat
  a : Mem
  w : Mem
  c : Mem
  ta : List Tag
  tw : List Tag
  tc : List Tag
  bars : List Bar
  wgr : List Word
  wgPrev : List WgWrite
  scl : AMap SclBind
  rcv : Word
  xbind : Bool
  piter : DWord
  pfix : DWord
  stopReq : Bool
  evict : Bool
  saveAt : Nat
  owedV : List Nat
  live : Nat
  saved : Nat
  ended : Bool
  deriving DecidableEq, Repr

/-! ### A core -/

/-- A line of the L1 data cache with its expiry (R166). -/
structure L1Line where
  line : Nat
  data : List Byte
  expiry : DWord
  used : Nat
  deriving DecidableEq, Repr

/-- A TLB entry (R317): address space, first page address, page size in bytes, physical page, lease field, rights. -/
structure TlbE where
  asid : Nat
  va : Nat
  size : Nat
  pa : Nat
  lease : Nat
  w : Bool
  x : Bool
  deriving DecidableEq, Repr

/-- A performance counter (R255). -/
structure Perf where
  value : DWord
  event : Nat
  stage : Option Nat
  squashed : DWord
  deriving DecidableEq, Repr

/-- What a queued matrix instruction is (R205, R227 to R232). -/
inductive MKind where
  | mma (sparse : Bool) | vmx (x : List (List Word)) (addrs : List Word) | azero | aepi (act : Act) (zc : Bool) (fmt : EpiFmt)
  | amax (i32 : Bool) (base : Word) (init : List (Word × Word)) | scldef (id : Nat) | sclinv (id : Option Nat)
  deriving DecidableEq, Repr

/-- An entry of the matrix queue, with what it read at issue and how far it has come (R205 to R224). -/
structure MEntry where
  qid : Nat
  ctx : Nat
  wg : Nat
  acc : Nat
  prio : Nat
  pc : DWord
  uid : Nat
  kind : MKind
  fb : DWord
  sa : Nat
  sb : Nat
  offs : Word
  tile : Nat
  cnt : Nat
  k : Nat
  bindA : Option (Nat × SclBind)
  bindB : Option (Nat × SclBind)
  dst : Nat
  olds : List (Space × Nat × List Byte)
  grant : Bool
  asked : Bool
  started : Bool
  readDone : Bool
  spoiled : Bool
  mixed : List Nat
  fault : Option Nat
  skipped : Bool
  result : List (List Word)
  flags : Word
  deriving DecidableEq, Repr

/-- An entry line of the scale cache (R216): 128 bytes, by identifier, buffer or global memory, and aligned address, with the
moment they reach their core. -/
structure SclLine where
  id : Nat
  local_ : Bool
  line : Nat
  data : List Byte
  back : Nat
  deriving DecidableEq, Repr

/-- What a write travels by from a wave to another: a phase of a barrier, a tile tag, an A-buffer word or a global one that
atomics meet at (R221; log entry 94). -/
inductive Via where
  | bar (k : Nat) (par : Bool) | tile (sp : Space) (t : Nat) | word (a : Nat) | glob (pa : Nat)
  deriving DecidableEq, Repr

/-- A 16-byte part of a buffer that a wave has written: its workgroup, space and place, the writer's index, the waves that
have ordered it by an mfence since, the waves that have acquired it, where it can be acquired, and its bytes from before
(R221). -/
structure Unfenced where
  wg : Nat
  sp : Space
  part : Nat
  by_ : Nat
  seen : List Nat
  known : List Nat
  via : List Via
  old : List Byte
  deriving DecidableEq, Repr

/-- A kick whose requests the engine has not all read (R192). -/
structure Kick where
  ctx : Nat
  idx : Nat
  wg : Nat
  grid : Nat
  addr : Nat
  left : Nat
  acc : Nat
  deriving DecidableEq, Repr

/-- A copy request read into the input queue or being performed (R190 to R196): the context and index of the wave that
kicked it, its words, a gather's descriptor, the
next part and the parts in all, the destination tiles begun, the place in a compressed slot, the latest completion time
of that slot, the bytes left under its current reservation (R277), what has been answered for its next part (none: an
error), the moment the last answer reaches the core, and the completion time of the write of that part. -/
structure CopyReq where
  id : Nat
  ctx : Nat
  idx : Nat
  wg : Nat
  grid : Nat
  prio : Nat
  words : List DWord
  desc : List Byte
  next : Nat
  total : Nat
  begun : List Nat
  comp : Nat
  time : DWord
  granted : Nat
  got : List (Nat × Option (List Byte))
  back : Nat
  wrote : Option (Nat × DWord)
  deriving DecidableEq, Repr

/-- An instruction in execute on a pipe (R29, R32): until which core cycle, its class, and its split's context and uid. -/
structure Exec where
  pipe : Nat
  till : Nat
  cls : Nat
  ctx : Nat
  uid : Nat
  deriving DecidableEq, Repr

/-- Who sends a request (R309, R437): a core; one of its engines (0 copy, 1 run-ahead, 2 scale cache); a unit of a cluster
(0 dicer, 1 texture, 2 k-buffer, 3 gatherer, 4 atomics, 5 rates); the walkers for a cluster; a bridle unit; the launch unit; a
command processor; the fabric port; the strip scheduler with its consumers. -/
inductive Source where
  | core (k : Nat) | engine (k e : Nat) | unit (k u : Nat) | walker (k : Nat) | bridle (u : Nat) | launch | cp (k : Nat) | port | strips
  deriving DecidableEq, Repr

/-- What a request is for: an element of an instruction; a prefetch with the lease field of its page, or none for the L2
alone (R176); a part of a copy request, read or written (R193); element i of the stream with an identity (R200); a line
of a scale tensor (R216); an access of a unit of the device, under a tag; the line of a queue's slot (R322); a line that
the atomics unit of a cluster claims (R275). -/
inductive Purpose where
  | elem | pref (lease : Option Nat) | copyRead (id len : Nat) | copyWrite (id grid : Nat) (data : List Byte) | stream (sid i len : Nat)
  | scale (id line : Nat) | unit (tag : Nat) | slot | claim (cluster : Nat)
  deriving DecidableEq, Repr

/-- A request at the cluster atomics unit or a home slice: the core, context, instruction and element it serves, its
address and class, whether its wave drains (R241, R403), its source, its place in the order of sending, the moment it
reaches its slice (R308), the moment since which none of its source stands before it there (R309), and its purpose. -/
structure Req where
  core : Nat
  ctx : Nat
  acc : Nat
  elem : Nat
  pa : Nat
  high : Bool
  drain : Bool
  src : Source
  seq : Nat
  due : Nat
  head : Nat
  for_ : Purpose
  deriving DecidableEq, Repr

/-- What an access of a unit does at its place: a read; a write of bytes; bits of bytes set or cleared (R439); an atomic of
the host (R418); a record into the ring at a virtual address, with the bytes from there to the end of its page and its address
space (R284); the pop of a task from the queue there (R349). -/
inductive AskOp where
  | read | write (bs : List Byte) | bits (ms : List Byte) (v : Bool) | atom (op : HostAtomic) (data : List Byte)
  | ring (va room asid root : Nat) (rec : List Byte) | pop (room : Nat)
  deriving DecidableEq, Repr

/-- What becomes of an access of a unit once it is performed: its maker asks; nobody does; or it counts for a grid's
deliveries (R341), for a write of the host (R418), for an AV1 stream's unit (R392), for a command processor's heads (R421), or
for so many bytes of a block's barrier (R307). -/
inductive AskFor where
  | poll | none | grid (gid : Nat) | hostWrite (conn seq : Nat) | obu (stream : Nat) | block (wg bar : Nat)
  deriving DecidableEq, Repr

/-- An access of a unit of the device on its way or answered: its tag; its unit and which of the unit's tasks it serves; its
place, what it does, and the chain it acts for (R382); what it counts for; its bytes, none where it met an error, its
completion time, and the moment it is back (R308, R340, R424). -/
structure Ask where
  tag : Nat
  src : Source
  key : Nat
  pa : Nat
  len : Nat
  op : AskOp
  chain : Option Nat
  for_ : AskFor
  got : Option (Option (List Byte))
  time : DWord
  back : Nat
  deriving DecidableEq, Repr

/-- A page that a split's instruction needs and its core does not hold, or the line of a bundle in it (R175, R251). -/
structure Want where
  ctx : Nat
  split : Nat
  asid : Nat
  root : Nat
  va : Nat
  code : Bool
  deriving DecidableEq, Repr

/-- What an instruction leaves its dependants to wait for (R31): the register, the threads of it that no later instruction
has written, and the cycles from which the same split may read it element-wise, and any other reader may. -/
structure Due where
  ctx : Nat
  uid : Nat
  reg : Opnd
  mask : Mask
  same : Nat
  any : Nat
  deriving DecidableEq, Repr

/-- The value of a wave-port load on its way (R171, R34): its split's context and uid, one more than the instructions
that may still issue without it, and the first cycle in which an instruction that waits for it may start. -/
structure Late where
  ctx : Nat
  uid : Nat
  left : Nat
  at_ : Nat
  deriving DecidableEq, Repr

/-- An instruction that has started and waits at its PC, which its later issues do not start again (R29, R255): the
context, its wave's workgroup and index, the split's uid, the PC and the slot. -/
structure Begun where
  ctx : Nat
  wg : Nat
  idx : Nat
  uid : Nat
  pc : DWord
  low : Bool
  deriving DecidableEq, Repr

/-- A core (R13, R19, R157, R235, R255). -/
structure Core where
  waves : AMap Wave
  cyc : DWord
  cycEnd : Nat
  openCls : Nat
  cycCls : Nat
  exhausted : Bool
  execs : List Exec
  dues : List Due
  lates : List Late
  begun : List Begun
  ports : List Nat
  perf : List Perf
  l1 : List L1Line
  fills : List L1Line
  tlb : List TlbE
  ic : List (Nat × DWord)
  il : List (Nat × Bool)
  wants : List Want
  mq : List MEntry
  nextQ : Nat
  scl : List SclLine
  kicks : List Kick
  copyIn : List CopyReq
  copyRun : List CopyReq
  nextReq : Nat
  shadow : Mem
  shadowTags : List Tag
  unf : List Unfenced
  vecLeft : Nat
  deriving DecidableEq, Repr

/-! ### A cluster -/

/-- An amount of current held, or asked for (R277). -/
structure CurRes where
  core : Nat
  req : Requester
  amount : Nat
  prio : Nat
  since : Nat
  drain : Bool
  qid : Nat
  deriving DecidableEq, Repr

/-- A line claimed by the cluster atomics unit (R275). -/
structure Claim where
  line : Nat
  lease : DWord
  used : Nat
  deriving DecidableEq, Repr

/-- A registered rrot arrival (R269, R270). -/
structure RrotArr where
  dst : Nat
  src : Nat
  bar : Nat
  deriving DecidableEq, Repr

/-- A tile on its way round the ring (R270). -/
structure RrotXfer where
  member : Nat
  wg : Nat
  dst : Nat
  bar : Nat
  data : List Byte
  z : Bool
  err : Bool
  deriving DecidableEq, Repr

/-- An xst element on the ring (R271). -/
structure XstElem where
  src : Nat
  ctx : Nat
  acc : Nat
  target : Nat
  addr : Nat
  data : List Byte
  gen : Nat
  last : Bool
  deriving DecidableEq, Repr

/-- The arrival of a saved split at an xswap or cbar (R273, R274): its wave's index and its id, which of the two, its
generation, and the time its release part waits for. -/
structure SavedArr where
  idx : Nat
  split : Nat
  swap : Bool
  gen : Nat
  lwt : DWord
  deriving DecidableEq, Repr

/-- One member of the cluster group (R267, R268): its workgroup, its registered rrot arrivals whose generation has
not started, how many xswap and cbar arrivals it has registered, and those of its saved splits. -/
structure Member where
  wg : Option Nat
  rrot : List RrotArr
  xArr : Nat
  cArr : Nat
  saved : List SavedArr
  deriving DecidableEq, Repr

/-- The cluster group's generations (R270, R272, R273). -/
structure Group where
  members : List Member
  xfers : List RrotXfer
  rrotGen : Nat
  xGen : Nat
  cGen : Nat
  xst : List XstElem
  deriving DecidableEq, Repr

/-- A kbres on its way (R306): its block, its barrier, the records it must sample, whether its pixels are
being written, and whether one could not be. -/
structure KbReq where
  chain : Nat
  wg : Nat
  bx : Nat
  by_ : Nat
  bar : Nat
  recs : List Nat
  writing : Bool
  spoiled : Bool
  deriving DecidableEq, Repr

/-- A bin of the gatherer (R349). -/
structure Bin where
  entry : DWord
  grid : Nat
  since : Nat
  launched : Bool
  tasks : List (List Word × Nat)
  deriving DecidableEq, Repr

/-- A cluster (R266 to R280, R281 to R307, R317, R349, R404 to R407). Its cores that nothing has touched have run
`cycBase` T0 cycles up to the moment `cycFrom` (R19, R33). -/
structure Cluster where
  tlb : List TlbE
  claims : List Claim
  atomQ : List Req
  clim : Nat
  held : List CurRes
  want : List CurRes
  group : Group
  texc : List (Nat × List Byte)
  kq : List KbReq
  bins : List Bin
  taskQs : List Nat
  cycBase : DWord
  cycFrom : Nat
  rail : Nat
  railNext : Option Nat
  boost : Bool
  capped : Bool
  scale : Nat
  temp : Nat
  left : List (Nat × Nat)
  off : Bool
  deriving DecidableEq, Repr

/-! ### The die -/

/-- A line of an L2 slice (R312, R313): recorded expiry, use time, the list of waiting requests of a miss, the cluster that
has claimed it (R275), and its way. -/
structure L2Line where
  line : Nat
  expiry : DWord
  used : Nat
  miss : Option (List Req)
  claim : Option Nat
  way : Nat
  deriving DecidableEq, Repr

/-- An entry of a bridle unit (R354 to R359), with the slots it takes of the store, or of the unit's part of the spill area. -/
structure BEntry where
  id : Nat
  tag : Word
  grid : Nat
  comb : Combine
  count : Nat
  toCore : Bool
  dst : DWord
  opened : DWord
  got : List (List Word)
  slots : List Nat
  spill : Bool
  closed : Bool
  orphan : Bool
  deriving DecidableEq, Repr

/-- An L2 slice with its bridle unit (R312, R358). -/
structure Slice where
  lines : List L2Line
  horizon : DWord
  q : List Req
  entries : List BEntry
  nextEntry : Nat
  deriving DecidableEq, Repr

/-- An operand on its way to its bridle unit (R353). -/
structure Operand where
  core : Nat
  ctx : Nat
  acc : Nat
  grid : Nat
  send : BridleSend
  data : List Word
  deriving DecidableEq, Repr

/-- A page-table walk (R317): its number, its cluster and the core that missed (none for a unit), address space and root, page
address, and the requests of engines and units that wait for it. -/
structure Walk where
  id : Nat
  cluster : Nat
  core : Option Nat
  asid : Nat
  root : Nat
  va : Nat
  eng : List (Source × Nat)
  deriving DecidableEq, Repr

/-- A fault that a walk found for an engine's request (R317). -/
structure WalkFault where
  src : Source
  key : Nat
  va : Nat
  kind : Nat
  mal : Bool
  deriving DecidableEq, Repr

/-! ### Work distribution -/

/-- A launch descriptor (R339). -/
structure Desc where
  entry : DWord
  handler : DWord
  x : Nat
  y : Nat
  z : Nat
  waves : Nat
  n : Nat
  g : Nat
  prio : Nat
  stage : Nat
  kind : Nat
  abuf : Nat
  wbuf : Nat
  cbuf : Nat
  barriers : Nat
  roles : List (Nat × Nat)
  iters : Nat
  ipt : Nat
  tagblock : Nat
  placement : Nat
  asid : Nat
  root : Nat
  taskq : Nat
  zeros : Bool
  deriving DecidableEq, Repr

/-- An accepted grid (R340, R341, R350), with the clusters it has been dispatched to (R296), and whether the launch unit clears
its tags. -/
structure Grid where
  d : Desc
  cp : Option Nat
  chain : Option Nat
  cstage : Nat
  next : Nat
  total : Nat
  done : Nat
  stopped : Bool
  pool : Option Nat
  tagNext : Nat
  place : Option (List Byte)
  sel : Nat
  selAt : Option Nat
  noTarget : Bool
  area : Option Nat
  sendT : DWord
  lwt : DWord
  visited : List Nat
  clearing : Bool
  deriving DecidableEq, Repr

/-- A saved wave that the launch unit will resume (R241 to R245), with the count of the paths it has created, which its
area holds modulo 2^16 alone, the stream records it keeps (R242), the split that runs its handler, the errors that its
splits have still to report, with their loads' bundles (R410; log entry 85), its SR_LWT, which its area holds once a write has
raised it (R19, R433), and the splits that sleep. -/
structure Saved where
  grid : Nat
  wg : Nat
  idx : Nat
  prio : Nat
  addr : Nat
  g : Nat
  brk : Bool
  wake : Bool
  created : Nat
  streams : Nat
  handler : Option Nat
  errs : List (Nat × DWord)
  lwt : DWord
  asleep : List Nat
  deriving DecidableEq, Repr

/-! ### Strips -/

/-- A stream's STREAMCFG fields (R367). -/
structure StreamCfg where
  consumer : Nat
  unit : Nat
  fmt : Nat
  colourFallback : Bool
  h : Nat
  va : Nat
  wo : Nat
  uf : Nat
  tr : Nat
  ns : Nat
  lp : Nat
  epoch : DWord
  period : Nat
  lead : Nat
  slack : Nat
  guardT : Nat
  binit : Nat
  ring : Nat
  colour : Word
  scene : DWord
  clusters : BitVec 128
  recAddr : DWord
  recBytes : List Byte
  asid : Nat
  root : Nat
  deriving DecidableEq, Repr

/-- A stream's STRIPCFG fields (R281, R371). -/
structure StripCfg where
  spp : Nat
  ttag : Nat
  wt : Nat
  ht : Nat
  stage1 : DWord
  stage2 : DWord
  stage3 : DWord
  ub : Nat
  stab : DWord
  ls : Word
  fi : Word
  bg : List Word
  gpt : DWord
  gpn : Nat
  dn : Nat
  draws : DWord
  fbr : DWord
  sri : DWord
  garea : DWord
  gsize : Nat
  asid : Nat
  root : Nat
  cp : Nat
  deriving DecidableEq, Repr

/-- A diced grid waiting for a grid instruction (R290, R292): grid word, patch user word, u and v of each thread. -/
structure Diced where
  word : Word
  user : Word
  us : List Word
  vs : List Word
  deriving DecidableEq, Repr

/-- A cluster's dicer at work on a chain (R290): the pairs passed, the draw, the index in its page list, the page it
resolved to with its address, the next patch's place in it and the patches left, and the grids it holds. -/
structure Dicer where
  pair : Nat
  draw : Nat
  page : Nat
  pageIx : Nat
  addr : Nat
  off : Nat
  left : Nat
  doneAll : Bool
  ready : List Diced
  deriving DecidableEq, Repr

/-- A grid record appended by a gemit (R299): its grid word and the instruction that owes it. -/
structure GridRec where
  word : Word
  core : Nat
  ctx : Nat
  acc : Nat
  deriving DecidableEq, Repr

/-- What an error record says beside its class (R409). -/
structure RecInfo where
  addr : DWord
  kind : Nat
  ix : Nat
  stage : Nat
  virt : Bool
  unc : Bool
  wave : Nat
  grid : Nat
  detail : Nat
  deriving DecidableEq, Repr

/-- A strip chain (R372 to R379, R383 to R386): `before` is the d of the stream when it was created, `disp` the time of
its first dispatch, `waits` says that its stage is still to be launched, `fall` the line its consumer repeats, `took` the sides
(lower: true) whose tether area has taken a neighbour's rows. -/
structure Chain where
  stream : Nat
  frame : Nat
  strip : Nat
  tf : DWord
  ts : DWord
  admitted : Bool
  early : Bool
  at_ : DWord
  d : Nat
  cfg : StripCfg
  gridId : Nat
  cstage : Nat
  recs : List GridRec
  dice : AMap Dicer
  seen : List (Nat × Nat)
  heldFb : List (List Byte)
  heldErr : List (Nat × RecInfo)
  given : Nat
  checks : Nat
  stage1End : DWord
  slot : Nat
  blocks : List Nat
  upper : Bool
  lower : Bool
  scene : DWord
  squash : Bool
  committed : Option DWord
  freed : Bool
  ended : Bool
  waits : Bool
  before : Option Nat
  disp : Option DWord
  judged : Bool
  fall : Option (List Byte)
  took : List Bool
  old : Mem
  deriving DecidableEq, Repr

/-- History kept for a strip index (R370, R375, R377): the measured duration, and of the last committed chain the
grids delivered and the time from its stage-1 end to its commit. -/
structure Hist where
  bs : Option Nat
  com : Option (Nat × Nat)
  deriving DecidableEq, Repr

/-- An enabled stream, or one that finishes its frame after it was disabled (R367 to R393): the next strip to be
created, the next line (for AV1 the next strip) its consumer takes, the last committed line, and of an AV1 stream the
frame's tile rows so far, the key-frame count, the override word and a write offset still to be raised; and of an
ST 2110-20 stream the number of its next packet. -/
structure Stream where
  cfg : StreamCfg
  strip : Option StripCfg
  frame : Nat
  next : Nat
  prevD : Option Nat
  hist : AMap Hist
  rr : Nat
  squashes : Nat
  line : Nat
  cframe : Nat
  lastLine : List Byte
  hasLast : Bool
  src : List (List Byte)
  closing : Bool
  keyAge : Nat
  keyNext : Bool
  qovr : Option Word
  obu : Option (Nat × DWord)
  rtpSeq : Nat
  deriving DecidableEq, Repr

/-! ### The fabric -/

/-- A stream of packets: the queue itself or an indirect buffer, with where it returns (R422). -/
structure PktStream where
  pos : Nat
  stop : Nat
  deriving DecidableEq, Repr

/-- An active LOOP (R422, R423): body start, body end, passes left, depth of its stream. -/
structure LoopSt where
  start : Nat
  stop : Nat
  left : Nat
  depth : Nat
  deriving DecidableEq, Repr

/-- What a command processor waits for inside a packet (R421 to R425). -/
inductive CpWait where
  | none | mem | time (t : DWord) | halted
  deriving DecidableEq, Repr

/-- A command processor (R421 to R426): its queue, its head and tail as bytes since it was configured, its streams and
loops, the bytes it holds, its grids, and the latest completion times of its ended grids' writes and of its own. -/
structure CP where
  base : Nat
  size : Nat
  asid : Nat
  root : Nat
  headWord : Option Nat
  head : Nat
  tail : Nat
  ib : List PktStream
  loops : List LoopSt
  held : List (Nat × Byte)
  wait : CpWait
  grids : List Nat
  running : Bool
  due : DWord
  wdue : DWord
  deriving DecidableEq, Repr

/-- A write of the host not yet acknowledged (R418): its parts not yet performed, and the latest completion time of the rest. -/
structure HostWrite where
  conn : Nat
  seq : Nat
  due : DWord
  left : Nat
  deriving DecidableEq, Repr

/-- A read or atomic of the host not yet answered (R418): the opcode, flags and address of its answer, and its bytes. -/
structure HostRead where
  conn : Nat
  seq : Nat
  opcode : Nat
  flags : Nat
  addr : Nat
  len : Nat
  deriving DecidableEq, Repr

/-- An access to the host window that waits to be sent or answered (R419): its request with the workgroup and index of the
wave that made it, whether it writes, its bytes, the connection and sequence number it was sent on, the command
processor whose FENCE covers it, and the moment it reaches the fabric port (R437). -/
structure HostAcc where
  tag : Nat
  req : Req
  wave : Option (Nat × Nat)
  write : Bool
  len : Nat
  data : List Byte
  conn : Nat
  seq : Nat
  sent : Bool
  cp : Option Nat
  due : Nat
  deriving DecidableEq, Repr

/-- A packet sent and not acknowledged (R417). -/
structure TxPkt where
  seq : Nat
  opcode : Nat
  addr : Nat
  flags : Nat
  payload : List Byte
  tries : Nat
  since : Nat
  deriving DecidableEq, Repr

/-- A message of the host (R416): a write, a read request, the answer to a read of the device's, named by its request's
number, an atomic request, the answer to one, a tail update, a management request, an acknowledgement alone, connect, close. -/
inductive Msg where
  | write (addr : Nat) (data : List Byte) | read (addr len : Nat) | readAns (tag : Nat) (data : List Byte)
  | atom (addr : Nat) (op : HostAtomic) (data : List Byte) | atomAns (tag : Nat) (old : List Byte) | tail (cp tail : Nat)
  | mgmt (r : MgmtReq) | ack | connect | close
  deriving DecidableEq, Repr

/-- An Irsin connection (R416, R417): the next number expected and the messages that came before their turn; the next number
sent, the packets not acknowledged, and those (opcode, address, flags, payload) that wait for room in the window. -/
structure Conn where
  rxNext : Nat
  early : List (IrsinHdr × Msg)
  txNext : Nat
  tx : List TxPkt
  wait : List (Nat × Nat × Nat × List Byte)
  failed : Bool
  deriving DecidableEq, Repr

/-- A DisplayPort output's signal (R391): link rate code, lanes, bits a component, horizontal total, start and sync width in
pixels, vertical total, start and sync width in lines, and the polarities, true for positive. -/
structure DpSignal where
  rate : Nat
  lanes : Nat
  bpc : Nat
  hTotal : Nat
  hStart : Nat
  hsw : Nat
  vTotal : Nat
  vStart : Nat
  vsw : Nat
  hPos : Bool
  vPos : Bool
  deriving DecidableEq, Repr

/-- What the part sends to the outside: Irsin packets with the acknowledgements they carry; the line periods of displays, from the
start of horizontal sync, with the number of zero lines that follow and the time of the first active pixel; the frames of RTP
lines; replies of the recovery channel; and the event messages an Irsin connection has not yet carried. -/
inductive Out where
  | irsin (conn opcode seq : Nat) (addr : Nat) (flags : Nat) (payload : List Byte) (ack : Nat) (sack : BitVec 32)
  | event (bytes : List Byte)
  | readyVector (v : BitVec 256)
  | cpEvent (cp : Nat) (tag value : Word)
  | display (output line : Nat) (sig : DpSignal) (pixels : List Byte) (blank : Nat) (at_ : DWord)
  | rtp (stream line : Nat) (timestamp : Word) (frames : List (List Byte)) (at_ : DWord)
  | recovery (payload : List Byte)
  | ptp (message : List Byte) (at_ : DWord)
  deriving DecidableEq, Repr

/-- The PTP slave's exchange (R428): a two-step Sync's sequence number and correction, the master's time of sending the last Sync,
the device's of its arrival, the device's of sending the delay request not yet answered, and that request's number. -/
structure Ptp where
  two : Option (Nat × DWord)
  t1 : DWord
  t2 : DWord
  t3 : Option DWord
  reqSeq : Nat
  deriving DecidableEq, Repr

/-! ### The package -/

/-- A rail (R404, R407). -/
structure Rail where
  rlim : Nat
  permits : Nat
  ptr : Nat
  calm : Nat
  noBoost : Bool
  deriving DecidableEq, Repr

/-- A tenant partition (R405). -/
structure Partition where
  rails : BitVec 4
  lo : Nat
  hi : Nat
  deriving DecidableEq, Repr

/-- A host rule with whether it is armed (R408). -/
structure Rule where
  bytes : List Byte
  armed : Bool
  deriving DecidableEq, Repr

/-- An access held at an LPDDR 6 channel (R402). -/
structure ChanAcc where
  req : Req
  since : Nat
  deriving DecidableEq, Repr

/-- An LPDDR 6 channel (R401 to R403): the lines to be fetched, in the order in which they reached its controller. -/
structure Chan where
  corrected : BitVec 32
  held : List ChanAcc
  fetches : List Nat
  deriving DecidableEq, Repr

/-- Placements made by management operation 0x02 (R350, R358, R409, R438, R243). -/
structure Pools where
  logRing : Option (Nat × Nat)
  traceRing : Option (Nat × Nat)
  spill : Option (Nat × Nat)
  tagArea : Option (Nat × Nat)
  savePool : Option (Nat × Nat)
  deriving DecidableEq, Repr

/-- The boot ROM's outcome (R413). -/
inductive Boot where
  | atReset | failed | running
  deriving DecidableEq, Repr

/-- The whole part. -/
structure State where
  agenda : List Instr
  /-- The frames that have come to the port and that it has not yet taken (R415). -/
  rx : List (List Byte)
  issueQ : List Cursor
  cur : Cursor
  free : Nat
  tu : Nat
  dtc : DWord
  dtcFrac : Nat
  dtcPpb : Int
  dtcFollow : Bool
  dtcLockSet : Bool
  interval : Nat
  cores : AMap Core
  clusters : AMap Cluster
  slices : AMap Slice
  walks : List Walk
  walkFaults : List WalkFault
  asks : List Ask
  wgs : AMap WGrp
  nextWg : Nat
  operands : List Operand
  mem : Mem
  ring : Mem
  rbase : Option Nat
  badMem : List Nat
  chans : AMap Chan
  grids : AMap Grid
  nextGrid : Nat
  rr : Nat
  saved : List Saved
  places : AMap (List Byte)
  streams : AMap Stream
  chains : AMap Chain
  nextChain : Nat
  cps : AMap CP
  conns : AMap Conn
  hostConn : Option Nat
  hostAccs : List HostAcc
  nextTag : Nat
  hostWrites : List HostWrite
  hostReads : List HostRead
  mgmtQ : List (Nat × MgmtReq)
  out : List Out
  pools : Pools
  orphan : Nat
  ready : BitVec 256
  linkUp : Bool
  rails : List Rail
  parts : AMap Partition
  rules : AMap Rule
  /-- The entries of rules that have fired since the last boundary, in their order (R408). -/
  fired : List (List Byte)
  pkgTemp : List Nat
  regTemp : List Nat
  thot : Nat
  ipv4 : Nat
  ipv6 : Nat
  ptpProfile : Nat
  ptpDomain : Nat
  ptp : Ptp
  boot : Boot
  image : BootImage
  meas : List (BitVec 512)
  deriving DecidableEq, Repr

/-- Why the machine stops. -/
inductive Fault where
  /-- Raised by the meaning of an instruction of the opcode map or the half map when State.cur names no live
  split, so that nothing executes it. Safe: a step issues an instruction only for a live split. -/
  | noExecutingSplit
  deriving DecidableEq, Repr

/-- Why an instruction has no meaning. -/
inductive Refusal where
  /-- The instruction's arm has no meaning yet. Safe: nothing follows from it. -/
  | notModelled (mnemonic : String)
  deriving DecidableEq, Repr

/-- A core with nothing launched. -/
def Core.blank : Core where
  waves := []
  cyc := 0
  cycEnd := 0
  openCls := 0
  cycCls := 0
  exhausted := false
  execs := []
  dues := []
  lates := []
  begun := []
  ports := [0, 0, 0]
  perf := List.replicate 8 ⟨0, 0, none, 0⟩
  l1 := []
  fills := []
  tlb := []
  ic := []
  il := []
  wants := []
  mq := []
  nextQ := 0
  scl := []
  kicks := []
  copyIn := []
  copyRun := []
  nextReq := 0
  shadow := []
  shadowTags := List.replicate 32 ⟨false, true, false⟩
  unf := []
  vecLeft := 0

/-- A group with no members (R267). -/
def Group.blank : Group where
  members := List.replicate 16 ⟨none, [], 0, 0, []⟩
  xfers := []
  rrotGen := 0
  xGen := 0
  cGen := 0
  xst := []

/-- A cluster at reset: CLIM 453 (R277), nominal scale (R404). -/
def Cluster.blank : Cluster where
  tlb := []
  claims := []
  atomQ := []
  clim := 453
  held := []
  want := []
  group := Group.blank
  texc := []
  kq := []
  bins := []
  taskQs := []
  cycBase := 0
  cycFrom := 0
  rail := 0
  railNext := none
  boost := false
  capped := false
  scale := 0
  temp := 100
  left := []
  off := false

/-- A slice that holds no line. -/
def Slice.blank : Slice where
  lines := []
  horizon := 0
  q := []
  entries := []
  nextEntry := 0

/-- A command processor that was never configured. -/
def CP.blank : CP where
  base := 0
  size := 0
  asid := 0
  root := 0
  headWord := none
  head := 0
  tail := 0
  ib := []
  loops := []
  held := []
  wait := .none
  grids := []
  running := false
  due := 0
  wdue := 0

/-- Right after reset: nothing launched, nothing ready (R412), the boot ROM about to run (R413), pools of 64
permits (R407), CLIM and RLIM at their defaults (R277, R404), Thot 95.00 °C (R279), orphan timeout 1 ms (R359). -/
def State.reset : State where
  agenda := []
  rx := []
  issueQ := []
  cur := ⟨0, 0, 0⟩
  free := 0
  tu := 0
  dtc := 0
  dtcFrac := 0
  dtcPpb := 0
  dtcFollow := true
  dtcLockSet := false
  interval := 0
  cores := []
  clusters := []
  slices := []
  walks := []
  walkFaults := []
  asks := []
  wgs := []
  nextWg := 0
  operands := []
  mem := []
  ring := []
  rbase := none
  badMem := []
  chans := []
  grids := []
  nextGrid := 1
  rr := 0
  saved := []
  places := []
  streams := []
  chains := []
  nextChain := 0
  cps := []
  conns := []
  hostConn := none
  hostAccs := []
  nextTag := 0
  hostWrites := []
  hostReads := []
  mgmtQ := []
  out := []
  pools := ⟨none, none, none, none, none⟩
  orphan := 65536000000
  ready := 0
  linkUp := false
  rails := List.replicate 4 ⟨14500, 64, 0, 0, false⟩
  parts := []
  rules := []
  fired := []
  pkgTemp := List.replicate 16 100
  regTemp := List.replicate 4 100
  thot := 380
  ipv4 := 0
  ipv6 := 0
  ptpProfile := 0
  ptpDomain := 0
  ptp := ⟨none, 0, 0, none, 0⟩
  boot := .atReset
  image := ⟨0, 0, [], []⟩
  meas := List.replicate 8 0

end Sys2Proof.Machine
end

