-- ==== Sys2Proof/Machine/Ops.lean ====
section
/-! DEFINITION. The named operations over the state: sparse maps, memory, the executing split, device time,
error records, address translation, taking a trap and ending a grid. -/

namespace Sys2Proof.Machine

/-! ### Sparse maps in rising key order -/

def look {α : Type} : AMap α → Nat → Option α
  | [], _ => none
  | (k, v) :: m, j => if k = j then some v else look m j

def put {α : Type} : AMap α → Nat → α → AMap α
  | [], j, x => [(j, x)]
  | (k, v) :: m, j, x =>
    if j < k then (j, x) :: (k, v) :: m else if j = k then (j, x) :: m else (k, v) :: put m j x

def erase {α : Type} (m : AMap α) (j : Nat) : AMap α := m.filter fun e => e.1 != j

/-- The value held under j, changed by f; nothing happens where j holds none. -/
def change {α : Type} (m : AMap α) (j : Nat) (f : α → α) : AMap α := m.map fun e => if e.1 = j then (j, f e.2) else e

/-! ### Memory (log entry 1) -/

/-- One byte; an unlisted address reads 0x00. -/
def Mem.get : Mem → Nat → Byte
  | [], _ => 0
  | (k, v) :: m, a => if k = a then v else Mem.get m a

/-- One byte written, in the canonical form. -/
def Mem.set : Mem → Nat → Byte → Mem
  | [], a, b => if b = 0 then [] else [(a, b)]
  | (k, v) :: m, a, b =>
    if a < k then (if b = 0 then (k, v) :: m else (a, b) :: (k, v) :: m)
    else if a = k then (if b = 0 then m else (a, b) :: m)
    else (k, v) :: Mem.set m a b

/-- The canonical form: addresses strictly rising, no byte 0x00 listed. -/
def Mem.wf : Mem → Bool
  | [] => true
  | [(_, b)] => b != 0
  | (a, b) :: (a', b') :: m => b != 0 && decide (a < a') && Mem.wf ((a', b') :: m)

def Mem.gets (m : Mem) (a n : Nat) : List Byte := (List.range n).map fun i => m.get (a + i)

def Mem.puts (m : Mem) (a : Nat) : List Byte → Mem
  | [] => m
  | b :: bs => Mem.puts (m.set a b) (a + 1) bs

/-- Little-endian bytes as a number (R4). -/
def leNat : List Byte → Nat
  | [] => 0
  | b :: bs => b.toNat + 256 * leNat bs

/-- The n low bytes of a number, least significant first (R4). -/
def leBytes : Nat → Nat → List Byte
  | 0, _ => []
  | n + 1, v => BitVec.ofNat 8 v :: leBytes n (v / 256)

def Mem.nat (m : Mem) (a n : Nat) : Nat := leNat (m.gets a n)
def Mem.word (m : Mem) (a : Nat) : Word := BitVec.ofNat 32 (m.nat a 4)
def Mem.putNat (m : Mem) (a n v : Nat) : Mem := m.puts a (leBytes n v)

/-- Field n bytes long at offset o of a byte list. -/
def fieldAt (bs : List Byte) (o n : Nat) : Nat := leNat ((bs.drop o).take n)

/-- Bits [lo + w - 1 : lo] of a number (R4). -/
def bitsOf (v lo w : Nat) : Nat := v / 2 ^ lo % 2 ^ w

/-- Physical byte: the strip ring while RBASE places it (R380), LPDDR 6 otherwise (R310). -/
def State.inRing (s : State) (pa : Nat) : Bool :=
  match s.rbase with
  | some b => b ≤ pa && pa < b + 96 * 2 ^ 20
  | none => false

def State.phys (s : State) (pa : Nat) : Byte :=
  if s.inRing pa then s.ring.get (pa - s.rbase.getD 0) else s.mem.get pa

def State.physs (s : State) (pa n : Nat) : List Byte := (List.range n).map fun i => s.phys (pa + i)
def State.physNat (s : State) (pa n : Nat) : Nat := leNat (s.physs pa n)

def State.physPut (s : State) (pa : Nat) (b : Byte) : State :=
  if s.inRing pa then { s with ring := s.ring.set (pa - s.rbase.getD 0) b } else { s with mem := s.mem.set pa b }

def State.physPuts (s : State) (pa : Nat) : List Byte → State
  | [] => s
  | b :: bs => (s.physPut pa b).physPuts (pa + 1) bs

/-! ### Free values (log entry 2) -/

/-- A place among the free values of this step: purpose p, item i. -/
def State.freeIx (s : State) (p i : Nat) : Nat := (s.free * 4096 + p) * 65536 + i
def State.bit (s : State) (p i : Nat) : Bool := Config.freeBit (s.freeIx p i)
def State.word (s : State) (p i : Nat) : Word := Config.freeWord (s.freeIx p i)

/-! ### Cores, workgroups, waves and the executing split -/

def Desc.blank : Desc where
  entry := 0
  handler := 0
  x := 1
  y := 1
  z := 1
  waves := 1
  n := 128
  g := 16
  prio := 0
  stage := 0
  kind := 0
  abuf := 0
  wbuf := 0
  cbuf := 0
  barriers := 0
  roles := []
  iters := 0
  ipt := 0
  tagblock := 0
  placement := 0
  asid := 0
  root := 0
  taskq := 0
  zeros := true

def Grid.blank : Grid where
  d := Desc.blank
  cp := none
  chain := none
  cstage := 0
  next := 0
  total := 1
  done := 0
  stopped := false
  pool := none
  tagNext := 0
  place := none
  sel := 0
  selAt := none
  noTarget := false
  area := none
  sendT := 0
  lwt := 0
  visited := []
  clearing := false

def Split.blank : Split where
  id := 0
  pc := 0
  low := false
  mask := fullMask
  s := List.replicate 64 0
  status := .running
  arrived := false
  depth := 0
  uid := 0
  div := 0
  windows := []
  pfx := none
  latch := none
  readyAt := 0
  young := false

/-- A wave in the state of R18 before its launch gives it a grid, registers and time. -/
def Wave.blank : Wave where
  grid := 0
  wg := 0
  idx := 0
  role := .general
  n := 128
  g := 16
  prio := 0
  stage := 0
  v := List.replicate 128 .unwritten
  p := List.replicate 7 0
  splits := [Split.blank]
  deferred := []
  hint := [0]
  nextUid := 1
  created := 1
  area := none
  exited := 0
  uconf := 0
  mflags := 0
  seed := 0
  lwt := 0
  lwtSet := false
  trapReg := 0
  handler := none
  heldS := 0
  heldArr := false
  accs := []
  nextAcc := 0
  gone := []
  owed := []
  fob := []
  dirty := []
  rpf := []
  recValid := 0
  recPar := 0
  streams := []
  snd := 0
  mfault := none
  brk := false
  wakePend := false
  stop := .none
  started := false
  startAt := 0

/-- A barrier at launch: EXP = 0 and everything clear (R181, R342). -/
def Bar.blank : Bar where
  ph := false
  exp := 0
  arr := 0
  cnt0 := 0
  cnt1 := 0
  seen0 := false
  seen1 := false
  lwt0 := 0
  lwt1 := 0
  lwtc0 := 0
  lwtc1 := 0
  err := false
  cause := 0
  bind := none

/-- A tile tag at launch: V = 0, C = 1, not zero-flagged (R164). -/
def Tag.blank : Tag := ⟨false, true, false⟩

def WGrp.blank : WGrp where
  grid := 0
  lin := 0
  core := none
  abase := 0
  wbase := 0
  cbase := 0
  a := []
  w := []
  c := []
  ta := []
  tw := []
  tc := []
  bars := []
  wgr := List.replicate 16 0
  wgPrev := []
  scl := []
  rcv := 0
  xbind := false
  piter := 0
  pfix := 0
  stopReq := false
  evict := false
  saveAt := 0
  owedV := []
  live := 0
  saved := 0
  ended := false

/-- Cluster k as reset leaves it: the clusters of quadrant q hang on rail q, so that the default CLIMs fit the default
RLIMs (R2, R404; log entry 11). -/
def Cluster.atReset (k : Nat) : Cluster := { Cluster.blank with rail := k / 32 % 4 }
def State.cluster (s : State) (k : Nat) : Cluster := (look s.clusters k).getD (Cluster.atReset k)

/-- The cycles begun by a moment on a core that nothing has touched: all of the T0 length (R32, R33). -/
def Cluster.idleCycles (c : Cluster) (tu : Nat) : Nat :=
  let len := Config.cycleTu 0 c.scale
  (tu - c.cycFrom + len - 1) / len

/-- Such a core: nothing launched, its cycles counted since core reset (R19). -/
def Cluster.idleCore (c : Cluster) (tu : Nat) : Core :=
  let n := c.idleCycles tu
  { Core.blank with cyc := c.cycBase + BitVec.ofNat 64 n, cycEnd := c.cycFrom + n * Config.cycleTu 0 c.scale }

/-- A new clock scale; the cycles begun so far keep their length (R238). -/
def Cluster.setScale (c : Cluster) (tu scale : Nat) : Cluster :=
  let n := c.idleCycles tu
  { c with
    scale := scale
    cycBase := c.cycBase + BitVec.ofNat 64 n
    cycFrom := c.cycFrom + n * Config.cycleTu 0 c.scale }

def State.core (s : State) (k : Nat) : Core := (look s.cores k).getD ((s.cluster (k / 16)).idleCore s.tu)
def State.setCore (s : State) (k : Nat) (c : Core) : State := { s with cores := put s.cores k c }
def State.modCore (s : State) (k : Nat) (f : Core → Core) : State := s.setCore k (f (s.core k))
def State.modCluster (s : State) (k : Nat) (f : Cluster → Cluster) : State :=
  { s with clusters := put s.clusters k (f (s.cluster k)) }
def State.slice (s : State) (k : Nat) : Slice := (look s.slices k).getD Slice.blank
def State.modSlice (s : State) (k : Nat) (f : Slice → Slice) : State :=
  { s with slices := put s.slices k (f (s.slice k)) }
def State.wg (s : State) (k : Nat) : WGrp := (look s.wgs k).getD WGrp.blank
def State.modWg (s : State) (k : Nat) (f : WGrp → WGrp) : State := { s with wgs := change s.wgs k f }
def State.grid (s : State) (k : Nat) : Grid := (look s.grids k).getD Grid.blank
def State.modGrid (s : State) (k : Nat) (f : Grid → Grid) : State := { s with grids := change s.grids k f }

def State.wave? (s : State) (core ctx : Nat) : Option Wave := look (s.core core).waves ctx
def State.wave (s : State) (core ctx : Nat) : Wave := (s.wave? core ctx).getD Wave.blank
def State.modWave (s : State) (core ctx : Nat) (f : Wave → Wave) : State :=
  s.modCore core fun c => { c with waves := change c.waves ctx f }

def Wave.split? (w : Wave) (id : Nat) : Option Split := w.splits.find? (·.id == id)
def Wave.modSplit (w : Wave) (id : Nat) (f : Split → Split) : Wave :=
  { w with splits := w.splits.map fun p => if p.id = id then f p else p }

/-- The wave, split and workgroup that execute. -/
def State.w (s : State) : Wave := s.wave s.cur.core s.cur.ctx
def State.modW (s : State) (f : Wave → Wave) : State := s.modWave s.cur.core s.cur.ctx f
def State.sp (s : State) : Split := (s.w.split? s.cur.split).getD Split.blank
def State.modSp (s : State) (f : Split → Split) : State := s.modW fun w => w.modSplit s.cur.split f
def State.g (s : State) : WGrp := s.wg s.w.wg
def State.modG (s : State) (f : WGrp → WGrp) : State := s.modWg s.w.wg f
/-- The executing grid. -/
def State.gr (s : State) : Grid := s.grid s.w.grid

/-- State.cur names a live split (R15). -/
def State.live (s : State) : Bool := (s.wave? s.cur.core s.cur.ctx).any fun w => (w.split? s.cur.split).isSome

/-! ### Device time (R6, R32, R33, R325, R427; log entry 3) -/

/-- SR_DTC as core k reads it. -/
def State.now (s : State) (k : Nat) : DWord := s.dtc + BitVec.ofNat 64 (Config.clockSkew k % (Config.ns2 + 1))

/-- Time passes by d tu: raw units are 65536 to the nanosecond, and the discipline adds dtcPpb parts in 10^9. -/
def State.pass (s : State) (d : Nat) : State :=
  let q : Nat := (Config.tuPerNs * 1000000000)
  let t := s.dtcFrac + d * 65536 * (1000000000 + s.dtcPpb).toNat
  { s with tu := s.tu + d, dtc := s.dtc + BitVec.ofNat 64 (t / q), dtcFrac := t % q }

/-- a at or past b in device time, compared on their difference (R427). -/
def past (a b : DWord) : Bool := decide (0 ≤ (a - b).toInt)

/-- The same of a recorded time, for which 0 stands for none (log entry 21). -/
def reached (a b : DWord) : Bool := b = 0 || past a b

/-- The later of two device times. -/
def maxD (a b : DWord) : DWord := if b = 0 then a else if a = 0 then b else if reached a b then a else b

/-! ### Rings of records and the error log (R284, R409, R438) -/

/-- A ring with the header of R284 at pa has room for another record. -/
def State.ringRoom (s : State) (pa : Nat) : Bool :=
  decide ((s.physNat pa 4 + 2 ^ 32 - s.physNat (pa + 4) 4) % 2 ^ 32 < s.physNat (pa + 12) 4)

/-- The record in its slot and the write index past it, or the drop count one higher. -/
def State.ringPut (s : State) (pa : Nat) (rec : List Byte) : State :=
  let wr := s.physNat pa 4
  if s.ringRoom pa then
    (s.physPuts (pa + 64 + (wr % s.physNat (pa + 12) 4) * rec.length) rec).physPuts pa (leBytes 4 (wr + 1))
  else s.physPuts (pa + 8) (leBytes 4 (s.physNat (pa + 8) 4 + 1))

/-- One record into a ring, and whether it was written. -/
def State.ringWrite (s : State) (pa : Nat) (rec : List Byte) : State × Bool := (s.ringPut pa rec, s.ringRoom pa)

def RecInfo.blank : RecInfo := ⟨0, 0, 0, 0, false, false, 255, 0, 0⟩

def recordBytes (stamp : DWord) (cls : Nat) (r : RecInfo) : List Byte :=
  leBytes 8 stamp.toNat ++ leBytes 8 r.addr.toNat ++ leBytes 2 cls ++ leBytes 2 (r.kind * 4096 + r.ix % 4096)
    ++ leBytes 1 (r.stage % 8 + (if r.virt then 8 else 0) + (if r.unc then 16 else 0)) ++ leBytes 1 r.wave
    ++ leBytes 2 0 ++ leBytes 4 r.grid ++ leBytes 4 r.detail

/-- One 32-byte record in the log ring, where the host has placed one, and one event message (R409). -/
def State.record (s : State) (cls : Nat) (r : RecInfo) : State :=
  let bs := recordBytes s.dtc cls r
  let s := match s.pools.logRing with
    | some (b, _) => (s.ringWrite b bs).1
    | none => s
  { s with out := s.out ++ [.event bs] }

/-- A record from the wave in a context (R248). -/
def State.recordWave (s : State) (core ctx cls : Nat) (addr : DWord) (virt unc : Bool) (detail : Nat) : State :=
  let w := s.wave core ctx
  s.record cls ⟨addr, 0, core, w.stage, virt, unc, w.idx, w.grid, detail⟩

/-! ### Address translation (R310, R315 to R317) -/

/-- What a walk finds: a page, or the fault kind of R246 with whether an entry was malformed. -/
inductive WalkRes where
  | page (e : TlbE) | fault (kind : Nat) (malformed : Bool)
  deriving DecidableEq, Repr

/-- A range of R310 with a target: LPDDR 6, the strip ring among it, or the host window. -/
def paOk (pa : Nat) : Bool := pa < 2 ^ 39 || (2 ^ 47 ≤ pa && pa < 2 ^ 48)
def isHostPa (pa : Nat) : Bool := 2 ^ 47 ≤ pa && pa < 2 ^ 48

/-- Bits of VA that index level l, the size a leaf of level l maps, and the table sizes (R315). -/
def lvShift : Nat → Nat
  | 0 => 16 | 1 => 21 | 2 => 30 | _ => 39
def lvBits : Nat → Nat
  | 0 => 5 | 1 => 9 | 2 => 9 | _ => 13

/-- A physical location that holds an uncorrectable error (R410): 8-byte units. -/
def State.bad (s : State) (pa n : Nat) : Bool := s.badMem.any fun b => pa / 8 ≤ b / 8 && b / 8 ≤ (pa + n - 1) / 8

/-- Stands among the kinds of R246 for a walk that read an entry with an uncorrectable error (R314, R410). -/
def kindBad : Nat := 16

/-- Where the entry for an address lies in a table of a level. -/
def entryAt (va l table : Nat) : Nat := table + 8 * bitsOf va (lvShift l) (lvBits l)

/-- Stands for the kind 0 of a malformed entry, which the record marks (R316). -/
def kindMal : Nat := 17

/-- Stands for a page that the core does not hold yet (R175). -/
def kindLater : Nat := 18

/-- One level of the walk: entry at the table, as a reader finds it (none: an uncorrectable error), checked by R316. A zero
field that is not zero makes any entry malformed, the other rules a valid one (log entry 47). -/
def walkWith {ε : Type} (rd : Nat → Except ε (Option Nat)) (asid va : Nat) : Nat → Nat → Except ε WalkRes
  | l, table =>
    match rd (entryAt va l table) with
    | .error x => .error x
    | .ok none => .ok (.fault kindBad false)
    | .ok (some e) =>
      let target := bitsOf e 8 40 * 256
      let zeros := bitsOf e 48 16 == 0 && bitsOf e 6 2 == 0
      let leaf := e.testBit 1
      if !zeros then .ok (.fault 0 true)
      else if !e.testBit 0 then .ok (.fault 0 false)
      else if leaf then
        if l = 3 || target % 2 ^ lvShift l != 0 then .ok (.fault 0 true)
        else if !paOk target then .ok (.fault 0 false)
        else .ok (.page ⟨asid, va / 2 ^ lvShift l * 2 ^ lvShift l, 2 ^ lvShift l, target, bitsOf e 4 2, e.testBit 2, e.testBit 3⟩)
      else
        match l with
        | 0 => .ok (.fault 0 true)
        | l' + 1 => if target % (8 * 2 ^ lvBits l') != 0 then .ok (.fault 0 true) else walkWith rd asid va l' target

/-- What an entry's place holds now. -/
def State.entryNow (s : State) (pa : Nat) : Except Unit (Option Nat) := .ok (if s.bad pa 8 then none else some (s.physNat pa 8))

/-- The whole walk from the root table, on the tables as they stand. -/
def State.walk (s : State) (asid root va : Nat) : WalkRes :=
  match walkWith s.entryNow asid va 3 root with
  | .ok r => r
  | .error _ => .fault 0 false

def TlbE.hit (e : TlbE) (asid va : Nat) : Bool := e.asid == asid && e.va ≤ va && va < e.va + e.size

/-- The 64 KiB unit that a walk is asked for. -/
def pageUnit (va : Nat) : Nat := va / 65536 * 65536

/-- The number under which a split's own faults of a walk are kept. -/
def curKey (ctx split : Nat) : Nat := ctx * 4 + split

/-- The kind of a fault, as a walk found it. -/
def WalkFault.kindOf (f : WalkFault) : Nat := if f.mal && f.kind = 0 then kindMal else f.kind

/-- The physical address of va in its page. -/
def TlbE.pa? (e : TlbE) (va : Nat) : Nat := e.pa + (va - e.va)

/-- What translating a 64-bit address in an address space gives the executing split: an entry that the core's TLB or its
cluster's holds, the kind of R246 of a fault that a walk found for it, or that the page is still to be walked for. -/
def State.xlateIn (s : State) (core asid : Nat) (va : DWord) (write exec : Bool) : Except Nat TlbE :=
  if va.toNat ≥ 2 ^ 52 then .error 3
  else match ((s.core core).tlb ++ (s.cluster (core / 16)).tlb).find? (·.hit asid va.toNat) with
    | some e => if write && !e.w then .error 1 else if exec && !e.x then .error 2 else .ok e
    | none => match s.walkFaults.find? fun f => f.src == .core core && f.key == curKey s.cur.ctx s.cur.split && f.va == pageUnit va.toNat with
      | some f => .error f.kindOf
      | none => .error kindLater

/-- The same in a grid's address space. -/
def State.xlate (s : State) (core grid : Nat) (va : DWord) (write exec : Bool) : Except Nat TlbE :=
  s.xlateIn core (s.grid grid).d.asid va write exec

/-- Marks a TRANSLATION trap whose walk met a malformed entry (R316). -/
def tcMal : Nat := 2 ^ 24

/-- Stands in a request for a trap where an instruction cannot go on yet: its information says which page it needs (0 data,
1 code, 2 in the address space of its chain's set-up), and its address which. No trap has this code. -/
def tcLater : Nat := 0

/-- The trap of a thread whose address has a fault of a kind: DATA_ERROR for an entry with an uncorrectable error (R410). -/
def faultTrap (t kind : Nat) (va : DWord) : TrapReq :=
  if kind = kindBad then ⟨0x0E, t, 0, va⟩
  else if kind = kindLater then ⟨tcLater, t, 0, va⟩
  else if kind = kindMal then ⟨0x0C + tcMal, t, 0, va⟩
  else ⟨0x0C, t, BitVec.ofNat 32 kind, va⟩

/-- The detail of a translation fault's record: the kind, and the mark of a malformed entry (R316, R409; log entry 47). -/
def markOf (kind : Nat) (malformed : Bool) : Nat :=
  if malformed then kind + 16 * (1 + Config.malformedMark % (2 ^ 28 - 1)) else kind

/-! ### The strip ring (R380 to R382) -/

/-- Bytes of a pixel, pitches, and whether a slot has a render area (R367, R371, R381). -/
def StreamCfg.bpp (c : StreamCfg) : Nat := if c.fmt = 2 then 8 else 4
def up (n k : Nat) : Nat := (n + k - 1) / k * k
def StreamCfg.pf (c : StreamCfg) : Nat := up (c.wo * c.bpp) 128
def StreamCfg.wt (c : StreamCfg) : Nat := c.wo / c.uf
def StreamCfg.pr (c : StreamCfg) : Nat := up (c.wt * c.bpp) 128
def StreamCfg.hasRender (c : StreamCfg) : Bool := c.uf == 2 || decide (0 < c.tr)
/-- Z of R381. -/
def StreamCfg.slotBytes (c : StreamCfg) : Nat :=
  if c.hasRender then up (c.h * c.pf + (c.h / c.uf + 2 * c.tr) * c.pr) 4096 else up (c.h * c.pf) 4096

/-- The stream and slot a ring offset lies in. -/
def State.slotOf (s : State) (off : Nat) : Option (Nat × Nat) :=
  s.streams.findSome? fun e =>
    let c := e.2.cfg
    if !e.2.closing && c.ring ≤ off && off < c.ring + c.ns * c.slotBytes then some (e.1, (off - c.ring) / c.slotBytes) else none

/-- The chain whose slot it is, not yet freed. -/
def State.slotChain (s : State) (x : Nat × Nat) : Option (Nat × Chain) :=
  s.chains.find? fun e => e.2.stream == x.1 && e.2.slot == x.2 && !e.2.freed

/-- Whether an agent acting for a chain, or for none, may write a physical byte (R382). -/
def State.mayWrite (s : State) (chain : Option Nat) (pa : Nat) : Bool :=
  !s.inRing pa ||
  match s.slotOf (pa - s.rbase.getD 0) with
  | none => true
  | some x => match s.slotChain x with
    | some (k, c) => c.committed.isNone && chain == some k
    | none => false

/-- Whether an agent's read of a physical byte returns it, rather than zero (R382). -/
def State.mayRead (s : State) (chain : Option Nat) (pa : Nat) : Bool :=
  !s.inRing pa ||
  match s.slotOf (pa - s.rbase.getD 0) with
  | none => true
  | some x => match s.slotChain x with
    | some (k, c) => c.committed.isSome || chain == some k
    | none => false

/-- n bytes, all within one slot, as an agent reads them. -/
def State.agentRead (s : State) (chain : Option Nat) (pa n : Nat) : List Byte :=
  if s.mayRead chain pa then s.physs pa n else List.replicate n 0

/-! ### Ends of waves and grids (R152, R248, R341) -/

/-- A wave of a priority leaves a core: its cluster remembers it for 1 µs (R407). -/
def State.noteLeft (s : State) (core prio : Nat) : State :=
  s.modCluster (core / 16) fun c =>
    { c with left := (prio, s.tu) :: c.left.filter fun x => s.tu ≤ x.2 + 1000 * Config.tuPerNs }

/-- A context of a wave whose splits and counters are gone is freed (R152). -/
def State.reap (s : State) (core ctx : Nat) : State :=
  match s.wave? core ctx with
  | none => s
  | some w =>
    if w.splits.isEmpty && w.deferred.isEmpty && w.accs.isEmpty then
      let s := (s.modCore core fun c => { c with waves := erase c.waves ctx }).noteLeft core w.prio
      let s := s.modWg w.wg fun g => { g with live := g.live - 1 }
      let g := s.wg w.wg
      if g.live + g.saved = 0 && !g.ended && (look s.wgs w.wg).isSome then
        let s := s.modWg w.wg fun g => { g with ended := true, core := none }
        s.modGrid w.grid fun r => { r with done := r.done + 1 }
      else s
    else s

/-- All splits of a wave stop for good (R248). -/
def Wave.kill (w : Wave) : Wave := { w with splits := [], deferred := [], hint := [], exited := fullMask, handler := none }

/-- The contexts of the waves that f picks. -/
def State.contexts (s : State) (f : Wave → Bool) : List (Nat × Nat) :=
  s.cores.flatMap fun c => (c.2.waves.filter fun w => f w.2).map fun w => (c.1, w.1)

/-- A workgroup whose last saved wave is dropped ends (R248). -/
def State.dropSaved (s : State) (f : Saved → Bool) : State :=
  (s.saved.filter f).foldl
    (fun s x =>
      let s := { s with saved := s.saved.filter fun y => y != x }
      let s := s.modWg x.wg fun g => { g with saved := g.saved - 1 }
      let g := s.wg x.wg
      if g.live + g.saved = 0 && !g.ended && (look s.wgs x.wg).isSome then
        (s.modWg x.wg fun g => { g with ended := true, core := none }).modGrid x.grid fun r => { r with done := r.done + 1 }
      else s) s

/-- A grid ended by a trap: its waves stop, their in-flight work drains, and nothing of it is dispatched (R248). -/
def State.endGrid (s : State) (gid : Nat) : State :=
  let s := s.modGrid gid fun r => { r with stopped := true }
  let s := s.dropSaved fun x => x.grid == gid
  (s.contexts fun w => w.grid == gid).foldl
    (fun s c => (s.modWave c.1 c.2 Wave.kill).reap c.1 c.2) s

/-! ### Taking a trap (R246 to R248) -/

/-- Trap codes (R246). -/
def tcEncoding : Nat := 0x02
def tcBadTarget : Nat := 0x05
def tcShape : Nat := 0x06
def tcRow : Nat := 0x07
def tcReg : Nat := 0x08
def tcSplitOverflow : Nat := 0x09
def tcConv : Nat := 0x0A
def tcMisaligned : Nat := 0x0B
def tcTranslation : Nat := 0x0C
def tcProtection : Nat := 0x0D
def tcData : Nat := 0x0E
def tcOverrun : Nat := 0x0F
def tcDenied : Nat := 0x10
def tcVmx : Nat := 0x11
def tcRole : Nat := 0x12
def tcDepth : Nat := 0x13
def tcSoftware : Nat := 0x14
def tcBreak : Nat := 0x15
def tcTag : Nat := 0x16
def tcStream : Nat := 0x17

/-- A trap with code and information and no thread. -/
def trapI (code : Nat) (info : Nat) : TrapReq := ⟨code, 0, BitVec.ofNat 32 info, 0⟩

/-- A check of decode order 7. -/
def check (b : Bool) (t : TrapReq) : Except TrapReq Unit := if b then .ok () else .error t

/-- The long-latency windows of a split close: it waits for every delivery (R35). -/
def Split.closeWindows (p : Split) : Split :=
  { p with windows := p.windows.map fun w => { w with left := 0 } }

/-- Sn:Sn+1 of a split, low word first (R16). -/
def Split.pair (p : Split) (n : Nat) : DWord := (p.s.getD (n + 1) 0) ++ (p.s.getD n 0)
def Split.setPair (p : Split) (n : Nat) (v : DWord) : Split :=
  { p with s := (p.s.set n (v.extractLsb' 0 32)).set (n + 1) (v.extractLsb' 32 32) }

/-- The place a trap names: the bundle and the slot bit of R59. -/
structure TrapAt where
  pc : DWord
  slot : Bool
  deriving DecidableEq, Repr

/-- The place of the executing split: the bundle of a low-slot fetched modifier before its target, else its PC. -/
def Split.trapAt (p : Split) : TrapAt :=
  match p.pfx with
  | some x => if x.low then ⟨x.pc, true⟩ else ⟨p.pc, false⟩
  | none => ⟨p.pc, false⟩

/-- SR_TRAP as entry leaves it (R246, R247): the code may carry the deferred bits [21:17] of R224. -/
def trapWord (t : TrapReq) (slot : Bool) (split : Nat) : DWord :=
  t.info ++ BitVec.ofNat 32 (t.code % 2 ^ 22 ||| 0x100 ||| (if slot then 0x200 else 0) ||| (split % 4 * 1024) ||| (t.thread % 32 * 4096))

/-- Entry to the handler of split id of a wave (R247). -/
def Wave.enter (w : Wave) (id : Nat) (t : TrapReq) (at_ : TrapAt) (handler : DWord) : Wave :=
  let held := ((w.split? id).getD Split.blank).pair 62
  let arr := ((w.split? id).getD Split.blank).arrived
  { w with
    heldS := held
    heldArr := arr
    handler := some id
    trapReg := trapWord t at_.slot id
    splits := w.splits.map fun p =>
      if p.id = id then
        { ((p.setPair 62 (at_.pc ||| (if at_.slot then 1#64 else 0#64))).closeWindows) with
          pc := handler, low := false, pfx := none, latch := none, status := .running, arrived := false }
      else p }

/-- The address a trap's record holds (R248, R409). -/
def TrapReq.recAddr (t : TrapReq) (at_ : TrapAt) : DWord :=
  if t.code % 256 = tcTranslation || t.code % 256 = tcData || t.code % 256 = tcTag then
    (if t.addr = 0 then at_.pc else t.addr) else at_.pc

/-- The detail of a trap's record: its information, with the mark of a malformed entry (R316, R409). -/
def TrapReq.detail (t : TrapReq) : Nat := markOf t.info.toNat (t.code.testBit 24)

/-- A grid of a chain started early and not yet confirmed (R378). -/
def State.spec (s : State) (gid : Nat) : Bool :=
  match (s.grid gid).chain with
  | some c => (look s.chains c).any fun x => x.early && !x.admitted
  | none => false

/-- Marks a DATA_ERROR whose record was written when the error was detected (R410). -/
def tcNoted : Nat := 0x100

/-- Whether raising a trap writes its record: a DATA_ERROR's where none was written when the error was detected, so that each
has one (R409, R410); another's where it ends the grid or stops the wave (R248), since an entry to the handler writes none
(R247; log entry 47). -/
def TrapReq.records (t : TrapReq) (taken : Bool) : Bool :=
  if t.code % 256 = tcData then !t.code.testBit 8 && !t.code.testBit 17 else !taken

/-- Every request on its way, wherever it waits, changed by f. -/
def State.mapReqs (s : State) (f : Req → Req) : State :=
  { s with
    slices := s.slices.map fun x => (x.1, { x.2 with
      q := x.2.q.map f
      lines := x.2.lines.map fun l => { l with miss := l.miss.map (·.map f) } })
    clusters := s.clusters.map fun c => (c.1, { c.2 with atomQ := c.2.atomQ.map f })
    chans := s.chans.map fun c => (c.1, { c.2 with held := c.2.held.map fun h => { h with req := f h.req } })
    hostAccs := s.hostAccs.map fun h => { h with req := f h.req } }

/-- A request made for the wave in a context of a core: an access, a texel's, a claim's, a stream's element or a scale line. -/
def Req.ofWave (r : Req) (core ctx : Nat) : Bool :=
  r.core == core && r.ctx == ctx && match r.src, r.for_ with
    | .core _, _ => true
    | .engine _ _, .stream _ _ _ => true
    | .engine _ _, .scale _ _ => true
    | .unit _ _, .elem => true
    | .unit _ _, .claim _ => true
    | _, _ => false

/-- A request for current that serves a wave: one of its matrix instructions, or of its copy requests. -/
def State.curServes (s : State) (core ctx : Nat) (x : CurRes) : Bool :=
  let w := s.wave core ctx
  x.core == core && match x.req with
    | .matrix => (s.core core).mq.any fun e => e.qid == x.qid && e.ctx == ctx
    | .copy => (s.core core).copyRun.any fun r => r.id == x.qid && r.ctx == ctx && r.wg == w.wg && r.idx == w.idx
    | .vector => false

/-- The requests of a wave that begins to drain take the high class, ahead of all others (R241, R403), and what it has asked of
the current arbiter is granted at once (R278). -/
def State.hurry (s : State) (core ctx : Nat) : State :=
  (s.mapReqs fun r => if r.ofWave core ctx then { r with high := true, drain := true } else r).modCluster (core / 16) fun c =>
    { c with want := c.want.map fun x => if s.curServes core ctx x then { x with drain := true } else x }

/-- The address space of a want: that of the set-up of the wave's chain, or its grid's (R281, R339). -/
def State.wantSpace (s : State) (core ctx : Nat) (ofChain : Bool) : Nat × Nat :=
  let g := s.grid (s.wave core ctx).grid
  match (if ofChain then g.chain.bind (look s.chains ·) else none) with
  | some c => (c.cfg.asid, c.cfg.root)
  | none => (g.d.asid, g.d.root)

/-- The core of a split is to find the page or the line of code that its instruction needs. -/
def State.addWant (s : State) (core ctx id : Nat) (t : TrapReq) : State :=
  let x := s.wantSpace core ctx (t.info == 2)
  let w : Want := ⟨ctx, id, x.1, x.2, t.addr.toNat, t.info == 1⟩
  s.modCore core fun c => if c.wants.contains w then c else { c with wants := w :: c.wants }

/-- An instruction that needs a page or a line of code cannot go on yet: its split waits at it (R175). -/
def State.postpone (s : State) (core ctx id : Nat) (t : TrapReq) (at_ : TrapAt) : State :=
  (s.addWant core ctx id t).modWave core ctx fun w => w.modSplit id fun p =>
    { p with pc := at_.pc, low := at_.slot, pfx := none, latch := none, status := .waiting .need }

/-- The number under which what a unit of its cluster fetches for a split's instruction is kept. -/
def splitKey (core ctx split : Nat) : Nat := core * 1024 + curKey ctx split

/-- What was found and fetched for a split's instruction is kept no longer: one that is retried, or that another runs there,
asks again (R317). -/
def State.forgetSplit (s : State) (core ctx id : Nat) : State :=
  let unit (x : Source) (key : Nat) : Bool := match x with
    | .core k => k == core && (key == curKey ctx id || key == 2 ^ 20 + curKey ctx id)
    | .unit k u => k == core / 16 && (u == 1 || u == 5) && key == splitKey core ctx id
    | _ => false
  ({ s with
    walkFaults := s.walkFaults.filter fun f => !unit f.src f.key
    asks := s.asks.filter fun a => !(unit a.src a.key && a.for_ == .poll) } : State).modCore core fun c =>
      { c with il := c.il.filter (·.2), wants := c.wants.filter fun w => !(w.ctx == ctx && w.split == id) }

/-- The same for a wave that begins in a context. -/
def State.forgetWave (s : State) (core ctx : Nat) : State := (List.range 4).foldl (fun s i => s.forgetSplit core ctx i) s

/-- A trap of a split of a context at a named place, held until confirmation in a chain started early (R378): entry to
the handler, or a record and the grid's end; BREAKPOINT without a handler stops the wave alone (R247, R248). -/
def State.raiseAt (s : State) (core ctx id : Nat) (t : TrapReq) (at_ : TrapAt) : State :=
  if t.code = tcLater then s.postpone core ctx id t at_
  else
  let s := s.forgetSplit core ctx id
  let w := s.wave core ctx
  let h := (s.grid w.grid).d.handler
  if s.spec w.grid then
    s.modWave core ctx fun w => w.modSplit id fun p =>
      { p with pc := at_.pc, low := at_.slot, pfx := none, latch := none, status := .waiting (.held t at_.pc at_.slot) }
  else
  let taken := h != 0 && w.handler.isNone
  let s := if t.records taken then
      s.recordWave core ctx (t.code % 256) (t.recAddr at_) true (t.code % 256 == tcData) t.detail
    else s
  if taken then s.modWave core ctx fun w => w.enter id t at_ h
  else if t.code % 256 = tcBreak && w.handler.isNone then
    (s.hurry core ctx).modWave core ctx fun w =>
      { (w.modSplit id fun p => { p with pc := p.pc + 8, pfx := none, low := false }) with brk := true, stop := .draining }
  else s.endGrid w.grid

/-- The trap of the executing split. An instruction that only waits has not been counted by its windows (R34). -/
def State.raise (s : State) (t : TrapReq) : State :=
  let s := if t.code = tcLater then s.modSp fun p => { p with windows := p.windows.map fun w => { w with left := w.left + 1 } } else s
  s.raiseAt s.cur.core s.cur.ctx s.cur.split t s.sp.trapAt

/-! ### The ways an instruction ends -/

/-- The executing split moves past the bundle it executes, and a fetched modifier is used up (R59). -/
def State.advance (s : State) : State := s.modSp fun p => { p with pc := p.pc + 8, low := false, pfx := none }

/-- Every meaning of the opcode map stops by this name when no split executes it. -/
abbrev Res := Host.Outcome State Fault Refusal

/-- An instruction that completes and moves on, or traps and does nothing else (R60, R100, R246). -/
def isa (f : State → Except TrapReq State) (s : State) : Res :=
  if s.live then
    match f s with
    | .ok s' => .next s'.advance
    | .error t => .next (s.raise t)
  else .fault .noExecutingSplit

/-- An instruction that sets the PC itself, waits or repeats. -/
def isaCtl (f : State → Except TrapReq State) (s : State) : Res :=
  if s.live then
    match f s with
    | .ok s' => .next s'
    | .error t => .next (s.raise t)
  else .fault .noExecutingSplit

/-- A half: the bundle it stands in moves the PC on (R55). -/
def isaHalf (f : State → Except TrapReq State) (s : State) : Res :=
  if s.live then
    match f s with
    | .ok s' => .next (s'.modSp fun p => { p with pfx := none })
    | .error t => .next (s.raise t)
  else .fault .noExecutingSplit

/-- An event of the part's agents: where what it needs does not hold, nothing happens (log entry 13). -/
def event (f : State → Option State) (s : State) : Res := .next ((f s).getD s)

/-- The executing split waits at its PC, with its windows closed (R35). -/
def State.wait (s : State) (x : Wait) : State := s.modSp fun p => { p.closeWindows with status := .waiting x }

end Sys2Proof.Machine
end

