-- ==== Sys2Proof/Machine/Flags.lean ====
section
/-! DEFINITION. Shape tags and what sets them (R23 to R28), and the matrix sticky flags' layout (R220). The tags
play the part of flags on this hardware: every vector result forms one. -/

namespace Sys2Proof.Machine

/-- The value of thread t (R23). -/
def VReg.at (v : VReg) (t : Nat) : Word :=
  match v with
  | .unwritten => 0
  | .uni x => x
  | .aff b st => b + st * BitVec.ofNat 32 t
  | .gen row => row.getD t 0

/-- All 32 elements. -/
def VReg.row (v : VReg) : List Word := (List.range 32).map v.at

/-- The two-bit code of a tag (R23). -/
def VReg.code : VReg → Nat
  | .unwritten => 0
  | .uni _ => 1
  | .aff _ _ => 2
  | .gen _ => 3

def VReg.isGen : VReg → Bool
  | .gen _ => true
  | _ => false

/-- UNI, or unwritten, which reads as UNI 0 (R18, R27). -/
def VReg.isUni : VReg → Bool
  | .unwritten => true
  | .uni _ => true
  | _ => false

/-- A partial write: elements of the mask take the new value, the others keep the old (row 1 of R25). -/
def VReg.mix (mask : Mask) (new old : VReg) : VReg :=
  .gen ((List.range 32).map fun t => if mask.getLsbD t then new.at t else old.at t)

/-- What a write under a mask leaves (R24, row 1 of R25). -/
def VReg.written (mask : Mask) (new old : VReg) : VReg :=
  if mask = 0 then old else if mask = fullMask then new else VReg.mix mask new old

/-- Row 3 of R25: add or sub of AFF and AFF or UNI. -/
def affAdd (sub : Bool) (a b : VReg) : Option VReg :=
  let op (x y : Word) := if sub then x - y else x + y
  match a, b with
  | .aff p q, .aff r t => some (.aff (op p r) (op q t))
  | .aff p q, x => if x.isUni then some (.aff (op p (x.at 0)) q) else none
  | x, .aff r t => if x.isUni then some (.aff (op (x.at 0) r) (op 0 t)) else none
  | _, _ => none

/-- Row 4 of R25: mul.lo of AFF by UNI. -/
def affMul (a b : VReg) : Option VReg :=
  match a, b with
  | .aff p q, x => if x.isUni then some (.aff (p * x.at 0) (q * x.at 0)) else none
  | x, .aff p q => if x.isUni then some (.aff (p * x.at 0) (q * x.at 0)) else none
  | _, _ => none

/-- Row 5 of R25: mov of AFF. -/
def affMov (a : VReg) : Option VReg :=
  match a with
  | .aff p q => some (.aff p q)
  | _ => none

/-- The V registers that results still to come will make GEN: each has its row reserved since issue (R26, R169). -/
def Acc.genRegs (a : Acc) : List Nat :=
  match a.dst with
  | .v n => if a.uniform then [] else (List.range (if a.op = .grid then 2 else a.regs)).map (· + n.val)
  | _ => []

/-- Register n holds a row, or has one reserved. -/
def Wave.rowed (w : Wave) (n : Nat) : Bool := (w.v.getD n .unwritten).isGen || w.accs.any fun a => !a.done && a.genRegs.contains n

/-- The rows a wave holds (R26). -/
def Wave.rows (w : Wave) : Nat := ((List.range 128).filter w.rowed).length

/-- A result needs a row while all g are held (R26). -/
def Wave.rowShort (w : Wave) (n : Nat) (new : VReg) : Bool :=
  new.isGen && !w.rowed n && decide (w.g ≤ w.rows)

/-- The first register of a list whose row cannot be had, taking rows in order (R26). -/
def Wave.firstShort (w : Wave) (ns : List Nat) : Option Nat :=
  let need := ns.filter fun n => !w.rowed n
  need[w.g - w.rows]?

/-- The bits of SR_MFLAGS that its layout defines (R220). -/
def mflagBits : Word := 0x0000_003F#32

end Sys2Proof.Machine
end

