-- ==== Sys2Proof/Machine/Float.lean ====
section
/-! DEFINITION. Number formats and rounding (R76 to R93): formats, exact values, one rounding function with
saturation and flushing, the LFSR of stochastic rounding, and the exact operations that are rounded once. -/

namespace Sys2Proof.Machine

/-- Which codes of the top exponent are numbers (R79, R89). -/
inductive Top where
  | ieee | e4m3 | allFinite
  deriving DecidableEq, Repr

/-- A floating format (R79, R89, R93): exponent bits, fraction bits, bias. -/
structure Fmt where
  eb : Nat
  fb : Nat
  bias : Nat
  top : Top
  deriving DecidableEq, Repr

def f32 : Fmt := ⟨8, 23, 127, .ieee⟩
def f16 : Fmt := ⟨5, 10, 15, .ieee⟩
def bf16 : Fmt := ⟨8, 7, 127, .ieee⟩
def e4m3 : Fmt := ⟨4, 3, 7, .e4m3⟩
def e5m2 : Fmt := ⟨5, 2, 15, .ieee⟩
def e2m1 : Fmt := ⟨2, 1, 1, .allFinite⟩
def fa24 : Fmt := ⟨8, 15, 127, .ieee⟩

/-- The position of the sign bit. -/
def Fmt.sbit (f : Fmt) : Nat := f.eb + f.fb
/-- The magnitude code of infinity, or one above the largest finite code. -/
def Fmt.infCode (f : Fmt) : Nat :=
  match f.top with
  | .ieee => (2 ^ f.eb - 1) * 2 ^ f.fb
  | .e4m3 => 2 ^ f.sbit - 1
  | .allFinite => 2 ^ f.sbit
def Fmt.maxCode (f : Fmt) : Nat := f.infCode - 1
/-- The canonical NaN (R80). -/
def Fmt.nan (f : Fmt) : Nat :=
  match f.top with
  | .ieee => (2 ^ f.eb - 1) * 2 ^ f.fb + 2 ^ (f.fb - 1)
  | _ => 2 ^ f.sbit - 1
def Fmt.one (f : Fmt) : Nat := f.bias * 2 ^ f.fb
/-- The exponent of the least denormal. -/
def Fmt.qmin (f : Fmt) : Int := 1 - (f.bias : Int) - f.fb

/-- A value: NaN with its sign bit, an infinity, or ±(m × 2^e), zero keeping its sign. -/
inductive FV where
  | nan (neg : Bool) | inf (neg : Bool) | fin (neg : Bool) (m : Nat) (e : Int)
  deriving DecidableEq, Repr

/-- An exact result; sticky says that the magnitude lies strictly between m × 2^e and (m + 1) × 2^e. -/
inductive XV where
  | nan (neg : Bool) | inf (neg : Bool) | fin (neg : Bool) (m : Nat) (e : Int) (sticky : Bool)
  deriving DecidableEq, Repr

/-- The modifiers in force: rounding, saturation, flushing (R56). -/
structure Mods where
  rnd : Rnd
  sat : Sat
  ftz : Bool
  deriving DecidableEq, Repr

def Mods.plain : Mods := ⟨.rne, .none, false⟩

/-- Decoding (R79). -/
def decode (f : Fmt) (bits : Nat) : FV :=
  let neg := bits.testBit f.sbit
  let mag := bits % 2 ^ f.sbit
  let e := mag / 2 ^ f.fb
  let fr := mag % 2 ^ f.fb
  let special : Bool := match f.top with
    | .ieee => e = 2 ^ f.eb - 1
    | .e4m3 => mag = 2 ^ f.sbit - 1
    | .allFinite => false
  if special then
    (if f.top = .ieee && fr = 0 then .inf neg else .nan neg)
  else if e = 0 then .fin neg fr f.qmin
  else .fin neg (fr + 2 ^ f.fb) (f.qmin + e - 1)

/-- Denormal inputs become zeros of their sign under .ftz (R81). -/
def flushIn (f : Fmt) (ftz : Bool) (x : FV) : FV :=
  match x with
  | .fin n m e => if ftz && m < 2 ^ f.fb && e = f.qmin then .fin n 0 e else x
  | x => x

def decodeIn (f : Fmt) (md : Mods) (bits : Nat) : FV := flushIn f md.ftz (decode f bits)

/-- Whether a magnitude n + (rem / 2^d), with sticky beyond, is rounded up (R83, R85). -/
def roundUp (r : Rnd) (u : Nat) (neg : Bool) (n rem d : Nat) (sticky : Bool) : Bool :=
  match r with
  | .dflt | .rne => decide (2 ^ d < 2 * rem) || (decide (2 * rem = 2 ^ d) && (sticky || n % 2 = 1))
  | .rtz => false
  | .rup => !neg && (rem != 0 || sticky)
  | .rdn => neg && (rem != 0 || sticky)
  | .rna => decide (2 ^ d ≤ 2 * rem)
  | .rs => decide (u < rem * 2 ^ 16 / 2 ^ d)

/-- Overflow in each mode: true gives ±∞, false the largest finite (R83). -/
def overInf (r : Rnd) (neg : Bool) : Bool :=
  match r with
  | .rtz => false
  | .rup => !neg
  | .rdn => neg
  | _ => true

/-- The magnitude code of m × 2^e (m ≠ 0) rounded to f, infCode or above standing for overflow. -/
def roundMag (f : Fmt) (r : Rnd) (u : Nat) (neg : Bool) (m : Nat) (e : Int) (sticky : Bool) : Nat :=
  let m' := m * 2 ^ 24
  let e' := e - 24
  let top : Int := (Nat.log2 m' : Int) + e'
  let q := if top - f.fb < f.qmin then f.qmin else top - f.fb
  let n :=
    if q ≤ e' then m' * 2 ^ (e' - q).toNat
    else
      let d := (q - e').toNat
      let n := m' / 2 ^ d
      if roundUp r u neg n (m' % 2 ^ d) d sticky then n + 1 else n
  (q - f.qmin).toNat * 2 ^ f.fb + n

/-- A clamp of a magnitude code with its sign (R84). -/
def saturate (f : Fmt) (s : Sat) (neg : Bool) (c : Nat) : Bool × Nat :=
  match s with
  | .none => (neg, c)
  | .sat => if neg then (false, 0) else (false, if f.one < c then f.one else c)
  | .sats => (neg, if f.one < c then f.one else c)
  | .satf => (neg, if f.maxCode < c then f.maxCode else c)

/-- Sign and magnitude as bits. -/
def joinSign (f : Fmt) (x : Bool × Nat) : Nat := (if x.1 then 2 ^ f.sbit else 0) + x.2

/-- The magnitude code after rounding, with overflow settled (R83). -/
def roundCode (f : Fmt) (md : Mods) (u : Nat) (neg : Bool) (m : Nat) (e : Int) (st : Bool) : Nat :=
  let c := if m = 0 then 0 else roundMag f md.rnd u neg m e st
  let c := if f.infCode ≤ c then
      (if f.top = .ieee && overInf md.rnd neg then f.infCode else f.maxCode) else c
  if md.ftz && c < 2 ^ f.fb then 0 else c

/-- RoundTo: rounds once, flushes, then saturates (R81 to R85). -/
def roundTo (f : Fmt) (md : Mods) (u : Nat) (x : XV) : Nat :=
  match x with
  | .nan _ => if md.sat = .sat || md.sat = .sats then 0 else f.nan
  | .inf neg => joinSign f (saturate f md.sat neg (if f.top = .ieee then f.infCode else f.maxCode))
  | .fin neg m e st => joinSign f (saturate f md.sat neg (roundCode f md u neg m e st))

def FV.toX : FV → XV
  | .nan n => .nan n
  | .inf n => .inf n
  | .fin n m e => .fin n m e false

/-! ### Exact operations (R80, R83, R113) -/

def FV.neg : FV → FV
  | .nan n => .nan (!n)
  | .inf n => .inf (!n)
  | .fin n m e => .fin (!n) m e

def minI (a b : Int) : Int := if a ≤ b then a else b
def scaled (n : Bool) (m : Nat) (e q : Int) : Int :=
  let v : Int := ((m * 2 ^ (e - q).toNat : Nat) : Int)
  if n then -v else v

/-- A + B; an exact zero of opposite signs is +0, or −0 under RDN. -/
def xadd (rdn : Bool) (a b : FV) : FV :=
  match a, b with
  | .nan n, _ => .nan n
  | _, .nan n => .nan n
  | .inf n, .inf k => if n = k then .inf n else .nan false
  | .inf n, _ => .inf n
  | _, .inf n => .inf n
  | .fin n m e, .fin k l g =>
    let q := minI e g
    let v := scaled n m e q + scaled k l g q
    if v = 0 then .fin (if n = k && m = 0 && l = 0 then n else rdn) 0 q
    else .fin (decide (v < 0)) v.natAbs q

def xmul (a b : FV) : FV :=
  match a, b with
  | .nan n, _ => .nan n
  | _, .nan n => .nan n
  | .inf n, .inf k => .inf (n != k)
  | .inf n, .fin k l _ => if l = 0 then .nan false else .inf (n != k)
  | .fin n m _, .inf k => if m = 0 then .nan false else .inf (n != k)
  | .fin n m e, .fin k l g => .fin (n != k) (m * l) (e + g)

/-- Integer square root: the bits of r from 2^i down. -/
def isqrtGo : Nat → Nat → Nat → Nat
  | 0, _, r => r
  | i + 1, n, r => isqrtGo i n (if (r + 2 ^ i) * (r + 2 ^ i) ≤ n then r + 2 ^ i else r)

def xdiv (a b : FV) : XV :=
  match a, b with
  | .nan n, _ => .nan n
  | _, .nan n => .nan n
  | .inf _, .inf _ => .nan false
  | .inf n, .fin k _ _ => .inf (n != k)
  | .fin n _ e, .inf k => .fin (n != k) 0 e false
  | .fin n m e, .fin k l g =>
    if l = 0 then (if m = 0 then .nan false else .inf (n != k))
    else
      let sh := 64 + Nat.log2 l
      .fin (n != k) (m * 2 ^ sh / l) (e - g - sh) (m * 2 ^ sh % l != 0)

/-- Square root (R118). -/
def xsqrt (a : FV) : XV :=
  match a with
  | .nan n => .nan n
  | .inf n => if n then .nan false else .inf false
  | .fin n m e =>
    if m = 0 then .fin n 0 e false
    else if n then .nan false
    else
      let odd := e % 2 != 0
      let m' := (if odd then 2 * m else m) * 2 ^ 128
      let e' := (if odd then e - 1 else e) - 128
      let r := isqrtGo 80 m' 0
      .fin false r (e' / 2) (r * r != m')

/-! ### Stochastic rounding (R86) -/

/-- One draw: the generator's next state; u is its bits [31:16]. -/
def lfsr (x : Word) : Word :=
  let x := if x = 0 then 1 else x
  (x >>> 1) ^^^ (if x.getLsbD 0 then 0x80200003#32 else 0)

def drawOf (x : Word) : Nat := (x.extractLsb' 16 16).toNat

/-- k draws in order. -/
def draws : Nat → Word → List Nat × Word
  | 0, x => ([], x)
  | k + 1, x =>
    let y := lfsr x
    let r := draws k y
    (drawOf y :: r.1, r.2)

/-- A row computed thread by thread in ascending order; where rs holds, each written thread draws k times. -/
def drawRow (rs : Bool) (k : Nat) (mask : Mask) (seed : Word) (f : Nat → List Nat → Word) : List Word × Word :=
  let r := (List.range 32).foldl
    (fun (acc : List Word × Word) t =>
      if mask.getLsbD t then
        (if rs then
          let d := draws k acc.2
          (f t d.1 :: acc.1, d.2)
        else (f t [] :: acc.1, acc.2))
      else (0 :: acc.1, acc.2)) ([], seed)
  (r.1.reverse, r.2)

/-- The i-th draw of an element. -/
def dr (us : List Nat) (i : Nat) : Nat := us.getD i 0

/-! ### Operations on words -/

def w32 (n : Nat) : Word := BitVec.ofNat 32 n

/-- Modifiers with the opcode's default rounding filled in. -/
def Mods.of (m : Option PfxM) (dr0 : Rnd) : Mods :=
  match m with
  | none => ⟨dr0, .none, false⟩
  | some p => ⟨if p.rnd = .dflt then dr0 else p.rnd, p.sat, p.ftz⟩

def fin32 (md : Mods) (a : Word) : FV := decodeIn f32 md a.toNat

def fopAdd (md : Mods) (u : Nat) (a b : Word) : Word :=
  w32 (roundTo f32 md u (xadd (md.rnd = .rdn) (fin32 md a) (fin32 md b)).toX)
def fopSub (md : Mods) (u : Nat) (a b : Word) : Word :=
  w32 (roundTo f32 md u (xadd (md.rnd = .rdn) (fin32 md a) (fin32 md b).neg).toX)
def fopMul (md : Mods) (u : Nat) (a b : Word) : Word :=
  w32 (roundTo f32 md u (xmul (fin32 md a) (fin32 md b)).toX)
def fopFma (md : Mods) (u : Nat) (a b c : Word) : Word :=
  w32 (roundTo f32 md u (xadd (md.rnd = .rdn) (xmul (fin32 md a) (fin32 md b)) (fin32 md c)).toX)
def fopDiv (md : Mods) (u : Nat) (a b : Word) : Word :=
  w32 (roundTo f32 md u (xdiv (fin32 md a) (fin32 md b)))
def fopSqrt (md : Mods) (u : Nat) (a : Word) : Word :=
  w32 (roundTo f32 md u (xsqrt (fin32 md a)))

/-- Order of two values that are no NaN: −0 below +0 when strict (R114). -/
def fltZ (strict : Bool) (a b : FV) : Bool :=
  match a, b with
  | .nan _, _ => false
  | _, .nan _ => false
  | .inf n, .inf k => n && !k
  | .inf n, _ => n
  | _, .inf k => !k
  | .fin n m e, .fin k l g =>
    let q := minI e g
    let x := scaled n m e q
    let y := scaled k l g q
    if x = 0 && y = 0 then strict && n && !k else decide (x < y)

def FV.isNan : FV → Bool
  | .nan _ => true
  | _ => false

/-- fmin and fmax (R114). -/
def fopMinMax (max nanMode : Bool) (md : Mods) (a b : Word) : Word :=
  let x := fin32 md a
  let y := fin32 md b
  let r :=
    if x.isNan && y.isNan then x
    else if x.isNan then (if nanMode then x else y)
    else if y.isNan then (if nanMode then y else x)
    else if max then (if fltZ true x y then y else x) else (if fltZ true y x then y else x)
  w32 (roundTo f32 md 0 r.toX)

def fcondTest (c : FCond) (u : Bool) (x y : FV) : Bool :=
  let nan := x.isNan || y.isNan
  match c with
  | .ord => !nan
  | .uno => nan
  | .eq => if nan then u else !fltZ false x y && !fltZ false y x
  | .ne => if nan then u else fltZ false x y || fltZ false y x
  | .lt => if nan then u else fltZ false x y
  | .le => if nan then u else !fltZ false y x
  | .gt => if nan then u else fltZ false y x
  | .ge => if nan then u else !fltZ false x y

/-- The class bit of R116. -/
def fclassBit (a : Word) : Nat :=
  match decode f32 a.toNat with
  | .nan _ => 0
  | .inf true => 1
  | .inf false => 8
  | .fin n m e =>
    let k := if m = 0 then 0 else if m < 2 ^ 23 && e = f32.qmin then 1 else 2
    if n then 4 - k else 5 + k

/-- The integer n = value × 2^0 of a finite value under a rounding mode, as a signed integer. -/
def toIntegral (r : Rnd) (u : Nat) (neg : Bool) (m : Nat) (e : Int) : Int :=
  let mag : Nat :=
    if 0 ≤ e then m * 2 ^ e.toNat
    else
      let d := (-e).toNat
      let n := m / 2 ^ d
      if roundUp r u neg n (m % 2 ^ d) d false then n + 1 else n
  if neg then -(mag : Int) else (mag : Int)

/-- Stochastic rounding of a fraction of fewer than 16 bits needs the fraction scaled (R85); 2^24 steps suffice. -/
def toIntegralWide (r : Rnd) (u : Nat) (neg : Bool) (m : Nat) (e : Int) : Int :=
  toIntegral r u neg (m * 2 ^ 24) (e - 24)

/-- frnd (R117). -/
def fopRnd (md : Mods) (u : Nat) (a : Word) : Word :=
  match fin32 md a with
  | .fin n m e => w32 (roundTo f32 ⟨.rne, md.sat, md.ftz⟩ 0 (.fin n (toIntegralWide md.rnd u n m e).natAbs 0 false))
  | x => w32 (roundTo f32 md u x.toX)

/-- ffrac (R117): a fraction in [0, 1), never 1.0. -/
def fopFrac (md : Mods) (a : Word) : Word :=
  match fin32 md a with
  | .fin n m e =>
    if m = 0 then w32 (roundTo f32 md 0 (.fin false 0 0 false))
    else
      let fr : Nat :=
        if 0 ≤ e then 0
        else
          let d := 2 ^ (-e).toNat
          if n then (d - m % d) % d else m % d
      let c := roundCode f32 ⟨.rne, .none, md.ftz⟩ 0 false fr e false
      let c := if f32.one ≤ c then 0x3F7FFFFF else c
      w32 (joinSign f32 (saturate f32 md.sat false c))
  | _ => w32 (roundTo f32 md 0 (.nan false))

/-! ### The T3 functions with an error bound (R118, R119; log entry 5) -/

/-- A magnitude above 2^128, which no mode but RNE's overflow to infinity brings within 1 ulp (R83, R118). -/
def beyond128 (m : Nat) (e : Int) (st : Bool) : Bool :=
  let l := m * 2 ^ e.toNat
  let r := 2 ^ (128 + (-e).toNat)
  decide (r < l) || (decide (r = l) && st)

/-- A result within 1 ulp of an exact positive or negative value: one of the two neighbours that enclose it, or of
the three at most one step away where the value is itself in the format. The step below a power of two counts as one ulp
there (log entry 5). The choice is free and a function of the input. -/
def within1 (free : Word) (md : Mods) (x : XV) : Word :=
  match x with
  | .fin n m e st =>
    if m = 0 then w32 (roundTo f32 md 0 x)
    else
      let lo := roundCode f32 ⟨.rtz, .none, false⟩ 0 n m e st
      if beyond128 m e st then w32 (joinSign f32 (saturate f32 md.sat n (lo + 1)))
      else
      let exact := decide (lo = roundCode f32 ⟨if n then .rdn else .rup, .none, false⟩ 0 n m e st)
      let c := if exact then (match free.toNat % 3 with | 0 => lo - 1 | 1 => lo | _ => lo + 1)
        else (if free.getLsbD 0 then lo + 1 else lo)
      let c := if md.ftz && c < 2 ^ 23 then 0 else c
      w32 (joinSign f32 (saturate f32 md.sat n c))
  | x => w32 (roundTo f32 md 0 x)

/-- The modifiers as a number. -/
def Mods.code (md : Mods) : Nat :=
  (match md.rnd with | .dflt => 0 | .rne => 1 | .rtz => 2 | .rup => 3 | .rdn => 4 | .rna => 5 | .rs => 6)
    + (match md.sat with | .none => 0 | .sat => 8 | .sats => 16 | .satf => 24) + (if md.ftz then 32 else 0)

def fopRcp (md : Mods) (a : Word) : Word :=
  within1 (Config.frcp md.code a) md (xdiv (.fin false 1 0) (fin32 md a))

/-- 1/√x; ±0 gives ±∞ (R118). -/
def fopRsq (md : Mods) (a : Word) : Word :=
  match fin32 md a with
  | .nan _ => w32 (roundTo f32 md 0 (.nan false))
  | .inf n => w32 (roundTo f32 md 0 (if n then .nan false else .fin false 0 0 false))
  | .fin n m e =>
    if m = 0 then w32 (roundTo f32 md 0 (.inf n))
    else if n then w32 (roundTo f32 md 0 (.nan false))
    else
      -- 1/√(m·2^e) = √(2^(2h − e) / m) · 2^(−h); the quotient is taken to 256 bits before the root
      let odd := e % 2 != 0
      let m' := if odd then 2 * m else m
      let e' := if odd then e - 1 else e
      let q := 2 ^ 256 / m'
      let r := isqrtGo 130 q 0
      within1 (Config.frsq md.code a) md (.fin false r (-128 - e' / 2) (r * r * m' != 2 ^ 256))

/-! The functions that have no exact value in the format are taken in fixed point at 2^-128, to far less than their
bounds, by their series. -/

/-- ln 2 × 2^128 and 2π × 2^160. -/
def ln2Fix : Int := 0xb17217f7d1cf79abc9e3b39803f2f6af
def twoPiFix : Int := 0x6487ed5110b4611a62633145c06e0e68948127044

/-- A finite value as a multiple of 2^-128, toward −∞. -/
def toFix (n : Bool) (m : Nat) (e : Int) : Int :=
  let k := e + 128
  let v : Int := if 0 ≤ k then ((m * 2 ^ k.toNat : Nat) : Int) else ((m / 2 ^ (-k).toNat : Nat) : Int)
  if n then -v else v

def ofFix (v : Int) : FV := .fin (decide (v < 0)) v.natAbs (-128)
def mulFix (a b : Int) : Int := a * b / 2 ^ 128

/-- Σ of k terms, the next being step j of the one before. -/
def series (step : Int → Int → Int) : Nat → Int → Int → Int
  | 0, _, _ => 0
  | k + 1, j, t => t + series step k (j + 1) (step j t)

def expFix (x : Int) : Int := series (fun j t => mulFix t x / j) 48 1 (2 ^ 128)
/-- 2^f for 0 ≤ f < 1. -/
def exp2Fix (f : Int) : Int := expFix (mulFix f ln2Fix)
/-- ln of x in [1, 2): 2 artanh((x − 1) / (x + 1)). -/
def lnFix (x : Int) : Int :=
  let z := (x - 2 ^ 128) * 2 ^ 128 / (x + 2 ^ 128)
  let z2 := mulFix z z
  -- the j-th power of z² divided by 2j + 1, each power scaled from the one before
  2 * ((List.range 64).foldl (fun (a : Int × Int) (j : Nat) => (a.1 + a.2 / (2 * (j : Int) + 1), mulFix a.2 z2)) (0, z)).1
/-- log₂ of a positive value m × 2^e. -/
def log2Fix (m : Nat) (e : Int) : Int :=
  let k : Int := Nat.log2 m
  let x := toFix false m (-k)
  (k + e) * 2 ^ 128 + lnFix x * 2 ^ 128 / ln2Fix
/-- The angle less whole turns, in [0, 2π). -/
def turnFix (n : Bool) (m : Nat) (e : Int) : Int := toFix n m (e + 32) % twoPiFix / 2 ^ 32
def sinFix (x : Int) : Int := series (fun j t => -(mulFix (mulFix t x) x / ((2 * j) * (2 * j + 1)))) 40 1 x
def cosFix (x : Int) : Int := series (fun j t => -(mulFix (mulFix t x) x / ((2 * j - 1) * (2 * j)))) 40 1 (2 ^ 128)
/-- tanh of 0 ≤ x < 10: (e^2x − 1) / (e^2x + 1), with e^2x = 2^i × 2^f. -/
def tanhFix (x : Int) : Int :=
  let y := 2 * x * 2 ^ 128 / ln2Fix
  let g := exp2Fix (y % 2 ^ 128) * 2 ^ (y / 2 ^ 128).toNat
  (g - 2 ^ 128) * 2 ^ 128 / (g + 2 ^ 128)

/-- A free bit pattern as a number: NaN and infinities are no value of these functions on finite inputs. -/
def freeNum (w : Word) : FV :=
  match decode f32 w.toNat with
  | .fin n m e => .fin n m e
  | _ => .fin false 0 0

/-- |c − y| ≤ b. -/
def withinBound (c y b : FV) : Bool :=
  match xadd false c y.neg with
  | .fin _ m e => !fltZ false b (.fin false m e)
  | _ => false

/-- Two ulps of f32 at a value. -/
def ulp2 (y : FV) : FV :=
  match y with
  | .fin _ m e =>
    let k : Int := (Nat.log2 m : Int) + e
    .fin false 1 ((if k < -126 then -126 else k) - 22)
  | x => x

/-- The free value where it lies within a bound of y, else y: with the rounding that follows, any f32 value within the
bound and no other (R118). -/
def freeWithin (free : Word) (y : FV) (bounds : List FV) : FV :=
  if bounds.any (withinBound (freeNum free) y) then freeNum free else y

def fopExp2 (md : Mods) (a : Word) : Word :=
  match fin32 md a with
  | .nan _ => w32 (roundTo f32 md 0 (.nan false))
  | .inf n => w32 (roundTo f32 md 0 (if n then .fin false 0 0 false else .inf false))
  | .fin n m e =>
    if fltZ false (.fin n m e) (.fin true 150 0) then w32 (roundTo f32 md 0 (.fin false 0 0 false))
    else if !fltZ false (.fin n m e) (.fin false 128 0) then w32 (roundTo f32 md 0 (.inf false))
    else
      let x := toFix n m e
      let i := x / 2 ^ 128
      if 0 ≤ e || m % 2 ^ (-e).toNat = 0 then w32 (roundTo f32 md 0 (.fin false 1 i false))
      else
        let y : FV := .fin false (exp2Fix (x % 2 ^ 128)).natAbs (i - 128)
        w32 (roundTo f32 md 0 (freeWithin (Config.fexp2 md.code a) y [ulp2 y]).toX)

def fopLog2 (md : Mods) (a : Word) : Word :=
  match fin32 md a with
  | .nan _ => w32 (roundTo f32 md 0 (.nan false))
  | .inf n => w32 (roundTo f32 md 0 (if n then .nan false else .inf false))
  | .fin n m e =>
    if m = 0 then w32 (roundTo f32 md 0 (.inf true))
    else if n then w32 (roundTo f32 md 0 (.nan false))
    else if a.toNat = f32.one then w32 (roundTo f32 md 0 (.fin false 0 0 false))
    else
      let y := ofFix (log2Fix m e)
      let near := 0x3F000000 ≤ a.toNat && a.toNat ≤ 0x40000000
      w32 (roundTo f32 md 0
        (freeWithin (Config.flog2 md.code a) y (ulp2 y :: if near then [.fin false 1 (-22)] else [])).toX)

/-- A free value in [−1, 1] (R118). -/
def freeUnit (w : Word) : FV :=
  match freeNum w with
  | .fin n m e => if fltZ false (.fin false 1 0) (.fin false m e) then .fin n 1 0 else .fin n m e
  | x => x

/-- sin or cos of m × 2^e: within 2^-21 up to 2^16, any value in [−1, 1] above (R118). -/
def freeTurn (free : Word) (fix : Int → Int) (n : Bool) (m : Nat) (e : Int) : FV :=
  if fltZ false (.fin false 1 16) (.fin false m e) then freeUnit free
  else freeWithin free (ofFix (fix (turnFix n m e))) [.fin false 1 (-21)]

def fopSin (md : Mods) (a : Word) : Word :=
  match fin32 md a with
  | .fin n m e =>
    w32 (roundTo f32 md 0 (if m = 0 then .fin n 0 0 false else (freeTurn (Config.fsin md.code a) sinFix n m e).toX))
  | _ => w32 (roundTo f32 md 0 (.nan false))

def fopCos (md : Mods) (a : Word) : Word :=
  match fin32 md a with
  | .fin n m e =>
    w32 (roundTo f32 md 0 (if m = 0 then .fin false 1 0 false else (freeTurn (Config.fcos md.code a) cosFix n m e).toX))
  | _ => w32 (roundTo f32 md 0 (.nan false))

def fopTanh (md : Mods) (a : Word) : Word :=
  match fin32 md a with
  | .nan _ => w32 (roundTo f32 md 0 (.nan false))
  | .inf n => w32 (roundTo f32 md 0 (.fin n 1 0 false))
  | .fin n m e =>
    if m = 0 then w32 (roundTo f32 md 0 (.fin n 0 0 false))
    else if !fltZ false (.fin false m e) (.fin false 10 0) then w32 (roundTo f32 md 0 (.fin n 1 0 false))
    else
      let v := tanhFix (toFix false m e)
      let y := ofFix (if n then -v else v)
      w32 (roundTo f32 md 0 (freeWithin (Config.ftanh md.code a) y [ulp2 y, .fin false 1 (-23)]).toX)

/-! ### Packed halves (R120, R121) -/

def el16 (a : Word) (i : Nat) : Nat := a.toNat / 2 ^ (16 * i) % 2 ^ 16

def hfmt (bf : Bool) : Fmt := if bf then bf16 else f16

def packed2 (f : Nat → Nat) : Word := w32 (f 0 + f 1 * 2 ^ 16)

def fopH2 (bf : Bool) (md : Mods) (us : List Nat) (g : FV → FV → FV) (a b : Word) : Word :=
  packed2 fun i => roundTo (hfmt bf) md (dr us i) (g (decodeIn (hfmt bf) md (el16 a i)) (decodeIn (hfmt bf) md (el16 b i))).toX

def fopH3 (bf : Bool) (md : Mods) (us : List Nat) (a b c : Word) : Word :=
  packed2 fun i => roundTo (hfmt bf) md (dr us i)
    (xadd (md.rnd = .rdn) (xmul (decodeIn (hfmt bf) md (el16 a i)) (decodeIn (hfmt bf) md (el16 b i)))
      (decodeIn (hfmt bf) md (el16 c i))).toX

def fopDot2 (bf : Bool) (md : Mods) (u : Nat) (a b c : Word) : Word :=
  let p (i : Nat) := xmul (decodeIn (hfmt bf) md (el16 a i)) (decodeIn (hfmt bf) md (el16 b i))
  let rdn := decide (md.rnd = .rdn)
  w32 (roundTo f32 md u (xadd rdn (xadd rdn (p 0) (p 1)) (fin32 md c)).toX)

/-! ### Conversion (R76 to R82, R122 to R124) -/

/-- Width and signedness of the integer types, or the float format. -/
def cvtInt : CvtTy → Option (Nat × Bool)
  | .i8 => some (8, true) | .i16 => some (16, true) | .i32 => some (32, true)
  | .n8 => some (8, false) | .n16 => some (16, false) | .n32 => some (32, false)
  | _ => none
def cvtFmt : CvtTy → Fmt
  | .f16 => f16 | .bf16 => bf16 | .e4m3 => e4m3 | .e5m2 => e5m2 | _ => f32

/-- The value of the low w bits. -/
def intOf (w : Nat) (sgn : Bool) (x : Nat) : Int :=
  let v := x % 2 ^ w
  if sgn && v.testBit (w - 1) then (v : Int) - (2 ^ w : Nat) else v

/-- An integer as 32 bits. -/
def wI (v : Int) : Word := BitVec.ofInt 32 v

def clampI (w : Nat) (sgn : Bool) (v : Int) : Int :=
  let lo : Int := if sgn then -(2 ^ (w - 1)) else 0
  let hi : Int := if sgn then 2 ^ (w - 1) - 1 else 2 ^ w - 1
  if v < lo then lo else if hi < v then hi else v

/-- Wrap to w bits, then extend under R76. -/
def wrapI (w : Nat) (sgn : Bool) (v : Int) : Word := wI (intOf w sgn (v % (2 ^ w : Nat)).toNat)

/-- A float to an integer type: rounded, then saturated (R78). -/
def floatToInt (r : Rnd) (u : Nat) (w : Nat) (sgn : Bool) (x : FV) : Word :=
  match x with
  | .nan _ => 0
  | .inf n => wI (clampI w sgn (if n then -(2 ^ 40) else 2 ^ 40))
  | .fin n m e => wI (clampI w sgn (toIntegralWide r u n m e))

def XV.ofInt (v : Int) : XV := .fin (decide (v < 0)) v.natAbs 0 false

/-- A value to a float format; e4m3 keeps the sign of a NaN (R80, R82). -/
def toFmt (f : Fmt) (md : Mods) (u : Nat) (x : XV) : Nat :=
  match x, f.top with
  | .nan true, .e4m3 => if md.sat = .sat || md.sat = .sats then 0 else 2 ^ f.sbit + f.nan
  | x, _ => roundTo f md u x

/-- cvt (R122). -/
def fopCvt (dst src : CvtTy) (m : Option PfxM) (u : Nat) (a : Word) : Word :=
  match cvtInt dst, cvtInt src with
  | some (w, sg), some (sw, ssg) =>
    let v := intOf sw ssg a.toNat
    if (m.map (·.sat)) = some .satf then wI (clampI w sg v) else wrapI w sg v
  | some (w, sg), none =>
    let md := Mods.of m .rtz
    floatToInt md.rnd u w sg (decodeIn (cvtFmt src) md (a.toNat % 2 ^ ((cvtFmt src).sbit + 1)))
  | none, some (sw, ssg) => w32 (toFmt (cvtFmt dst) (Mods.of m .rne) u (XV.ofInt (intOf sw ssg a.toNat)))
  | none, none =>
    let md := Mods.of m .rne
    w32 (toFmt (cvtFmt dst) md u (decodeIn (cvtFmt src) md (a.toNat % 2 ^ ((cvtFmt src).sbit + 1))).toX)

/-- conv of pack2 and pack4 (R123). -/
def packInt (w : Nat) (sgn satf : Bool) (a : Word) : Nat :=
  let v := a.toInt
  ((if satf then clampI w sgn v else v) % (2 ^ w : Nat)).toNat

def packF (f : Fmt) (md : Mods) (u : Nat) (a : Word) : Nat := toFmt f md u (fin32 md a).toX

/-- unpack: exact (R124). -/
def fopUnpack (ty : UnpackTy) (e : Nat) (a : Word) : Word :=
  let h := a.toNat / 2 ^ (16 * e) % 2 ^ 16
  let b := a.toNat / 2 ^ (8 * e) % 2 ^ 8
  let fl (f : Fmt) (x : Nat) := w32 (roundTo f32 Mods.plain 0 (decode f x).toX)
  match ty with
  | .f16 => fl f16 h
  | .bf16 => fl bf16 h
  | .e4m3 => fl e4m3 b
  | .e5m2 => fl e5m2 b
  | .i8 => wI (intOf 8 true b)
  | .n8 => wI (intOf 8 false b)
  | .i16 => wI (intOf 16 true h)
  | .n16 => wI (intOf 16 false h)

/-! ### E2M1X and i4g (R89 to R92) -/

/-- Twice the magnitude of a code (R89), as an exact value with its sign. -/
def e2m1Val (code : Nat) : FV := decode e2m1 code

/-- An element before scaling: code 0b1000 stands for X; X = 0x80 makes it −0 (R90). -/
def e2m1xVal (code x : Nat) : FV := if code % 16 = 8 then decode e4m3 x else e2m1Val (code % 16)

/-- The value of an element under a side word (R90). -/
def e2m1xFull (code side : Nat) : FV :=
  let s := side % 256
  if s = 255 then .nan false
  else match e2m1xVal code (side / 256 % 256) with
    | .fin n m e => .fin n m (e + s - 127)
    | x => x

/-- plain(): the E2M1 code of a value, magnitudes above 6 going to 6, a negative zero coded 0 (R91). -/
def plainCode (r : Rnd) (u : Nat) (x : FV) : Nat :=
  match x with
  | .fin n m e =>
    let c := roundCode e2m1 ⟨r, .none, false⟩ u n m e false
    if c = 0 then 0 else joinSign e2m1 (n, c)
  | _ => 0

/-- |a| > c, for a finite value. -/
def magGt (c : Nat) (x : FV) : Bool :=
  match x with
  | .fin _ m e => fltZ false (.fin false c 0) (.fin false m e)
  | _ => false

def scaleBy (k : Int) (x : FV) : FV :=
  match x with
  | .fin n m e => .fin n m (e - k)
  | x => x

/-- The least k of R91 step 2, from a starting k upward. -/
def qblkK (vs : List FV) : Nat → Int → Int
  | 0, k => k
  | fuel + 1, k =>
    let ys := vs.map (scaleBy k)
    if (ys.filter (magGt 6)).length ≤ 1 && ys.all (fun y => !magGt 448 y) then k else qblkK vs fuel (k + 1)

/-- |y − plain(y)| as a value. -/
def plainErr (y : FV) : FV :=
  match xadd false y (e2m1Val (plainCode .rne 0 y)).neg with
  | .fin _ m e => .fin false m e
  | x => x

/-- The index whose value is largest, ties to the lowest. -/
def argMax (ys : List FV) : Nat :=
  ((List.range ys.length).foldl
    (fun (b : Nat × FV) i => let y := ys.getD i (.fin false 0 0); if fltZ false b.2 y then (i, y) else b)
    (0, ys.getD 0 (.fin false 0 0))).1

/-- The encoding of R91: codes (with the draws given per element) and the side word. -/
def qblkEncode (r : Rnd) (us : List Nat) (vs : List FV) : List Nat × Nat :=
  if vs.any (fun v => match v with | .fin _ _ _ => false | _ => true) then (vs.map fun _ => 0, 0x80FF)
  else if vs.all (fun v => match v with | .fin _ m _ => m == 0 | _ => false) then (vs.map fun _ => 0, 0)
  else
    let k := qblkK vs 254 (-127)
    let ys := vs.map (scaleBy k)
    let j := match ys.findIdx? (magGt 6) with
      | some j => j
      | none => argMax (ys.map plainErr)
    let x : Nat := roundTo e4m3 Mods.plain 0 (ys.getD j (.fin false 0 0)).toX
    ((List.range ys.length).map fun i =>
        if i = j then 8 else plainCode r (dr us i) (ys.getD i (.fin false 0 0)),
      (k + 127).toNat + x * 256)

/-- The i4g weight as bf16 (R92). -/
def i4gWeight (q rec : Nat) : Nat :=
  let z : Nat := rec / 2 ^ 16 % 16
  let d : Int := (q : Int) - z
  roundTo bf16 Mods.plain 0 (xmul (.fin (decide (d < 0)) d.natAbs 0) (decode bf16 (rec % 2 ^ 16))).toX

def bfToF32 (b : Nat) : Word := w32 (roundTo f32 Mods.plain 0 (decode bf16 b).toX)

/-! ### FA24 (R93) -/

/-- RTZ24: one addition into the in-array accumulator. -/
def fa24Add (fa : Nat) (x : FV) : Nat := roundTo fa24 ⟨.rtz, .none, true⟩ 0 (xadd false (decode fa24 fa) x).toX

end Sys2Proof.Machine
end

