-- ==== Sys2Proof/Machine/Operands.lean ====
section
/-! DEFINITION. Reading operands and writing results: the operand index space (R48, R49), scalar slots (R27),
guards (R46), lookahead windows (R34 to R36), WG registers (R334), row budgets (R26) and predicates (R97). -/

namespace Sys2Proof.Machine

/-- The inline constants (R49). -/
def inlineConst (n : Nat) : Word :=
  match n with
  | 0 => 0 | 1 => 1 | 2 => 2 | 3 => 4 | 4 => 0xFFFFFFFF#32 | 5 => 0x3F000000#32 | 6 => 0x3F800000#32
  | 7 => 0x40000000#32 | 8 => 0xBF800000#32 | 9 => 0xBF000000#32 | _ => 0x3E800000#32

/-! ### Windows (R34 to R36) -/

/-- The value a V destination had before a delivery inside a window that is still open. -/
def Split.heldV (p : Split) (n : Nat) : Option VReg :=
  (p.windows.filter fun w => w.delivered && w.left != 0).findSome? fun w =>
    w.held.findSome? fun h => match h with | .v k o => if k = n then some o else none | _ => none
def Split.heldS (p : Split) (n : Nat) : Option Word :=
  (p.windows.filter fun w => w.delivered && w.left != 0).findSome? fun w =>
    w.held.findSome? fun h => match h with | .s k o => if k = n then some o else none | _ => none
def Split.heldWg (p : Split) (n : Nat) : Option Word :=
  (p.windows.filter fun w => w.delivered && w.left != 0).findSome? fun w =>
    w.held.findSome? fun h => match h with | .wg k o => if k = n then some o else none | _ => none
def Split.heldP (p : Split) (n : Nat) : Option Mask :=
  (p.windows.filter fun w => w.delivered && w.left != 0).findSome? fun w =>
    w.held.findSome? fun h => match h with | .p k o => if k = n then some o else none | _ => none

/-- Two values under one tag other than GEN: the tag table holds one of them as a whole. -/
def VReg.sameTag : VReg → VReg → Bool
  | .uni _, .uni _ | .aff _ _, .aff _ _ => true
  | _, _ => false

/-- In each element independently one value or the other, GEN where the tags differ (R36). -/
def State.either (s : State) (p n : Nat) (new old : VReg) : VReg :=
  if new = old then new
  else if new.sameTag old then (if s.bit p (n * 32) then new else old)
  else .gen ((List.range 32).map fun t => if s.bit p (n * 32 + t) then new.at t else old.at t)

/-- An unwritten register reads as UNI 0 (R27). -/
def VReg.read : VReg → VReg
  | .unwritten => .uni 0
  | v => v

/-- In each thread that a follower wrote independently its value or the delivered one, GEN where the tags differ (R36). -/
def State.eitherIn (s : State) (p n : Nat) (m : Mask) (new own : VReg) : VReg :=
  if m = fullMask then s.either p n new own
  else if new = own then new
  else .gen ((List.range 32).map fun t => if m.getLsbD t && !s.bit p (n * 32 + t) then own.at t else new.at t)

/-- A read that may come before or after a delivery: the register with its old tag or with the new one, or, where the
tags differ, either value in each of the threads of m (R36). -/
def State.eitherRead (s : State) (p n : Nat) (m : Mask) (new old : VReg) : VReg :=
  let new := new.read
  let old := old.read
  if new = old then new
  else if m = fullMask && (new.sameTag old || s.bit 13 n) then (if s.bit p (n * 32) then new else old)
  else .gen ((List.range 32).map fun t => if m.getLsbD t && !s.bit p (n * 32 + t) then old.at t else new.at t)

/-! ### Reading -/

/-- A V register of the executing wave as the executing split reads it. -/
def State.readV (s : State) (n : Nat) : VReg :=
  let v := s.w.v.getD n .unwritten
  match s.sp.heldV n with
  | some o => s.eitherRead 1 n fullMask v o
  | none => v

def State.readS (s : State) (n : Nat) : Word :=
  let v := s.sp.s.getD n 0
  match s.sp.heldS n with
  | some o => if s.bit 2 n then v else o
  | none => v

/-- The writes of a register that a read in a cycle may return, of those in the order of their completion: the last that
completed 2 cycles before, and every later one (R334). -/
def wgSeen (cyc : Nat) : List WgWrite → List WgWrite
  | [] => []
  | x :: xs => if xs.any fun y => decide (y.done + 2 ≤ cyc) then wgSeen cyc xs else x :: xs

/-- Of some writes in that order, those from a wave's own last one on: its accesses follow issue order (R334). -/
def wgOwn (idx : Nat) : List WgWrite → List WgWrite
  | [] => []
  | x :: xs => if xs.any (·.idx == some idx) then wgOwn idx xs else x :: xs

/-- A WG register: within 2 core cycles of a write's completion, the value before it or after it (R334). -/
def State.readWg (s : State) (n : Nat) : Word :=
  let g := s.g
  let xs := wgOwn s.w.idx (wgSeen (s.core s.cur.core).cyc.toNat (g.wgPrev.filter (·.reg == n)))
  let v := match xs with
    | [] => g.wgr.getD n 0
    | x :: _ => ((xs[(s.word 3 n).toNat % xs.length]?).getD x).val
  match s.sp.heldWg n with
  | some o => if s.bit 3 (n + 16) then v else o
  | none => v

/-- P0 to P7 as masks; P7 is always true (R16). -/
def State.readP (s : State) (n : Nat) : Mask :=
  if n = 7 then fullMask
  else
    let v := s.w.p.getD n 0
    match s.sp.heldP n with
    | some o => (BitVec.ofBoolListLE ((List.range 32).map fun t =>
        if s.bit 4 (n * 32 + t) then v.getLsbD t else o.getLsbD t)).setWidth 32
    | none => v

/-- A source slot as a register value with its tag (R48). -/
def State.src (s : State) (o : Opnd) : VReg :=
  match o with
  | .v n => s.readV n.val
  | .s n => .uni (s.readS n.val)
  | .wg n => .uni (s.readWg n.val)
  | .k n => .uni (inlineConst n.val)
  | .null => .uni 0
  | .p _ => .uni 0

/-- A slot of packed 16-bit elements: an inline FP32 constant is converted and placed in both (R49). -/
def State.srcH (s : State) (bf : Bool) (o : Opnd) : VReg :=
  match o with
  | .k n =>
    if 5 ≤ n.val then
      let h := roundTo (hfmt bf) Mods.plain 0 (decode f32 (inlineConst n.val).toNat).toX
      .uni (packed2 fun _ => h)
    else s.src o
  | o => s.src o

/-- The value a V destination had before a delivery that is still due to other splits in a cycle (R128, R171). -/
def Split.dueV (p : Split) (n cyc : Nat) : Option VReg :=
  (p.windows.filter fun w => w.delivered && decide (cyc < w.till)).findSome? fun w =>
    w.held.findSome? fun h => match h with | .v k o => if k = n then some o else none | _ => none

/-- A cross-thread source: a result of the split's own open window, or one still due of another split, reads old or new in
each of that split's threads (R36, R128; log entry 86). -/
def State.crossV (s : State) (o : Opnd) : VReg :=
  match o with
  | .v n => s.w.splits.foldl (fun v p =>
    match if p.id = s.cur.split then p.heldV n.val else p.dueV n.val (s.core s.cur.core).cyc.toNat with
      | some old => s.eitherRead 7 n.val p.mask v old
      | none => v) (s.w.v.getD n.val .unwritten)
  | o => s.src o

/-- The register after one of a group; the high word of a 64-bit integer constant is its sign (R49). -/
def Opnd.plus (o : Opnd) (i : Nat) : Opnd :=
  match o with
  | .v n => if h : n.val + i < 128 then .v ⟨n.val + i, h⟩ else .null
  | .s n => if h : n.val + i < 64 then .s ⟨n.val + i, h⟩ else .null
  | .wg n => if h : n.val + i < 16 then .wg ⟨n.val + i, h⟩ else .null
  | o => o

def State.srcHi (s : State) (o : Opnd) : VReg :=
  match o with
  | .k n => .uni (if (inlineConst n.val).getLsbD 31 then 0xFFFFFFFF#32 else 0)
  | .null => .uni 0
  | o => s.src (Opnd.plus o 1)

/-- A 32-bit row and a 64-bit row of values. -/
def State.rowOf (s : State) (o : Opnd) : List Word := (s.src o).row
def State.at64 (s : State) (o : Opnd) (t : Nat) : DWord := (s.srcHi o).at t ++ (s.src o).at t

/-- A scalar slot (R27). -/
def State.scalar (s : State) (o : Opnd) : Except TrapReq Word :=
  let v := s.src o
  if v.isUni then .ok (v.at 0) else .error (trapI tcShape o.toByte.toNat)

/-- A scalar slot of two registers, each checked (R27, R98). -/
def State.scalar64 (s : State) (o : Opnd) : Except TrapReq DWord := do
  let lo ← s.scalar o
  let hi := s.srcHi o
  check hi.isUni (trapI tcShape ((Opnd.plus o 1).toByte.toNat))
  .ok (hi.at 0 ++ lo)

/-- The threads an instruction acts on: active, with the guard true (R46). -/
def State.guardMask (s : State) (g : Guard) : Mask :=
  let p := s.readP g.p.val
  s.sp.mask &&& (if g.neg then ~~~p else p)

/-- The half guards (R51). -/
def State.halfMask (s : State) (g : HGuard) : Mask :=
  match g with
  | .none => s.sp.mask
  | .p0 => s.sp.mask &&& s.readP 0
  | .np0 => s.sp.mask &&& ~~~(s.readP 0)
  | .p1 => s.sp.mask &&& s.readP 1

/-- The 32-bit immediate: extended, or completed by pfx.i (R44, R57). -/
def State.imm (s : State) (v : BitVec 19) (zext : Bool) : Word :=
  match s.sp.pfx.bind (·.i) with
  | some hi => hi ++ v
  | none => if zext then v.setWidth 32 else v.signExtend 32

def State.srcB (s : State) (b : SrcB) (zext : Bool) : VReg :=
  match b with
  | .reg o => s.src o
  | .imm v => .uni (s.imm v zext)

/-- The pfx.m in force for the executing instruction (R56, R58). -/
def State.pm (s : State) : Option PfxM := s.sp.pfx.bind (·.m)

/-! ### Writing -/

/-- A window of the split that names a V, S, WG or P register as its destination and has not closed. -/
def Split.openOn (p : Split) (o : Opnd) : Bool := p.windows.any fun w => w.left != 0 && w.dests.contains o

/-- A follower's write into an open window's destination before the delivery is remembered with its threads; the delivery
then leaves either value in each of them (R36). -/
def Window.follow (w : Window) (o : Opnd) (m : Mask) : Window :=
  if w.left != 0 && !w.delivered && m != 0 && w.dests.contains o then { w with held := .wrote o m :: w.held } else w

/-- The threads in which followers wrote a destination before the delivery. -/
def wroteIn (held : List Held) (o : Opnd) : Mask :=
  held.foldl (fun m h => match h with | .wrote q k => if q = o then m ||| k else m | _ => m) 0

/-- A follower's write after the delivery, done on what the destination held before it as well (R36). -/
def State.heldAgain (s : State) (f : Held → Held) : State :=
  s.modSp fun p => { p with windows := p.windows.map fun w =>
    if w.delivered && w.left != 0 then { w with held := w.held.map f } else w }

/-- The write of a follower on the value a destination held before the delivery. -/
def Held.putV (n : Nat) (val : VReg) (mask : Mask) : Held → Held
  | .v k o => if k = n then .v k (VReg.written mask val o) else .v k o
  | h => h
def Held.putS (n : Nat) (x : Word) : Held → Held
  | .s k o => if k = n then .s k x else .s k o
  | h => h
def Held.putWg (n : Nat) (x : Word) : Held → Held
  | .wg k o => if k = n then .wg k x else .wg k o
  | h => h
def Held.putP (n : Nat) (val mask : Mask) : Held → Held
  | .p k o => if k = n then .p k ((val &&& mask) ||| (o &&& ~~~mask)) else .p k o
  | h => h

def vOpnd (n : Nat) : Opnd := if h : n < 128 then .v ⟨n, h⟩ else .null
def sOpnd (n : Nat) : Opnd := if h : n < 64 then .s ⟨n, h⟩ else .null
def wgOpnd (n : Nat) : Opnd := if h : n < 16 then .wg ⟨n, h⟩ else .null
def pOpnd (n : Nat) : Opnd := if h : n < 8 then .p ⟨n, h⟩ else .null

/-- One V register set whatever its rows, by a write in the threads of m: tag table, operand buffer (R38, R39) and
windows. -/
def State.putV (s : State) (n : Nat) (new : VReg) (m : Mask := fullMask) : State :=
  let s := s.modW fun w => { w with
    v := w.v.set n new
    dirty := if w.fob.contains n && !w.dirty.contains n then n :: w.dirty else w.dirty }
  s.modSp fun p => { p with windows := p.windows.map fun x => x.follow (vOpnd n) m }

/-- A V register written under a mask by the executing split (R24 to R26). -/
def State.writeV (s : State) (n : Nat) (val : VReg) (mask : Mask) : Except TrapReq State :=
  let cur := s.w.v.getD n .unwritten
  let new := VReg.written mask val cur
  if mask = 0 then .ok s
  else if s.w.rowShort n new then .error (trapI tcRow n)
  else
    match s.sp.heldV n with
    | some _ => .ok ((s.putV n (s.either 5 n new cur) mask).heldAgain (Held.putV n val mask))
    | none => .ok (s.putV n new mask)

def State.putS (s : State) (n : Nat) (x : Word) : State :=
  s.modSp fun p => { p with s := p.s.set n x, windows := p.windows.map fun w => w.follow (sOpnd n) fullMask }

def State.writeS (s : State) (n : Nat) (x : Word) : State :=
  match s.sp.heldS n with
  | some _ => (s.putS n (if s.bit 6 n then x else s.sp.s.getD n 0)).heldAgain (Held.putS n x)
  | none => s.putS n x

/-- One write among others of its register in the order of completion: later than its own wave's earlier ones, and of two
in one cycle that of the higher SR_WAVE alone (R334). -/
def wgAdd (y : WgWrite) : List WgWrite → List WgWrite
  | [] => [y]
  | x :: xs =>
    if decide (x.done < y.done) || x.idx == y.idx then x :: wgAdd y xs
    else if x.done = y.done && y.idx.getD 0 < x.idx.getD 0 then x :: xs
    else if x.done = y.done && x.idx.isSome then y :: xs
    else if x.done = y.done then x :: wgAdd y xs
    else y :: x :: xs

/-- The writes of a register kept from a cycle on, another one put among them; before the first stands the register's value. -/
def WGrp.wgNote (g : WGrp) (cyc : Nat) (y : WgWrite) : WGrp :=
  let was := g.wgPrev.filter (·.reg == y.reg)
  let was := if was.isEmpty then [⟨y.reg, g.wgr.getD y.reg 0, 0, none⟩] else wgSeen cyc was
  let own := (was.filter (·.idx == y.idx)).foldl (fun c x => max c x.done) y.done
  let xs := wgAdd { y with done := own } was
  { g with
    wgr := g.wgr.set y.reg ((xs.getLast?.map (·.val)).getD 0)
    wgPrev := xs ++ g.wgPrev.filter (·.reg != y.reg) }

/-- The write of a WG register in a cycle is that of an instruction whose execute ends later (R334). -/
def WGrp.wgLate (g : WGrp) (cyc idx done reg : Nat) : WGrp :=
  match g.wgPrev.find? fun x => x.reg == reg && x.idx == some idx && x.done == cyc with
  | some x => ({ g with wgPrev := g.wgPrev.erase x } : WGrp).wgNote cyc { x with done := done }
  | none => g

/-- A WG register written in this cycle (R334). -/
def State.writeWg (s : State) (n : Nat) (x : Word) : State :=
  let c := (s.core s.cur.core).cyc.toNat
  let idx := s.w.idx
  let put (x : Word) : State :=
    let s := s.modG fun g => g.wgNote c ⟨n, x, c, some idx⟩
    s.modSp fun p => { p with windows := p.windows.map fun w => w.follow (wgOpnd n) fullMask }
  match s.sp.heldWg n with
  | some _ => (put (if s.bit 10 n then x else s.g.wgr.getD n 0)).heldAgain (Held.putWg n x)
  | none => put x

/-- A predicate in the threads of a mask; P7 discards (R97). -/
def State.writeP (s : State) (n : Nat) (val mask : Mask) : State :=
  if n = 7 then s
  else
    let cur := s.w.p.getD n 0
    let put (take : Mask) : State :=
      let new := (val &&& take) ||| (cur &&& ~~~take)
      let s := s.modW fun w => { w with p := w.p.set n new }
      s.modSp fun p => { p with windows := p.windows.map fun w => w.follow (pOpnd n) mask }
    match s.sp.heldP n with
    | some _ => (put (mask &&& (BitVec.ofBoolListLE ((List.range 32).map fun t => s.bit 11 (n * 32 + t))).setWidth 32)).heldAgain
        (Held.putP n val mask)
    | none => put mask

/-- A destination of R96, or null, which discards. -/
def State.writeD (s : State) (d : Opnd) (val : VReg) (mask : Mask) : Except TrapReq State :=
  match d with
  | .v n => s.writeV n.val val mask
  | .s n => .ok (s.writeS n.val (val.at 0))
  | .wg n => .ok (s.writeWg n.val (val.at 0))
  | _ => .ok s

/-- A group of registers written in ascending order, all or none. -/
def State.writeGroup (s : State) (d : Opnd) (mask : Mask) : Nat → List VReg → Except TrapReq State
  | _, [] => .ok s
  | i, v :: vs => do
    let s ← s.writeD (Opnd.plus d i) v mask
    s.writeGroup d mask (i + 1) vs

def State.pOf (s : State) (o : Opnd) : Mask :=
  match o with
  | .p n => s.readP n.val
  | _ => 0

def State.setP (s : State) (o : Opnd) (val mask : Mask) : State :=
  match o with
  | .p n => s.writeP n.val val mask
  | _ => s

/-- A mask from a test of each thread. -/
def maskOf (f : Nat → Bool) : Mask := (BitVec.ofBoolListLE ((List.range 32).map f)).setWidth 32

/-- The threads of a mask in ascending order. -/
def threads (m : Mask) : List Nat := (List.range 32).filter fun t => m.getLsbD t

/-! ### The shared shapes of groups 0x0 to 0x2 (R24 to R30, R96) -/

/-- Where a value is computed from registers per thread: f sees the source values of one thread and the draws of
its k rounded elements. `aff` is the result of rows 3 to 5 of R25. -/
def State.alu (s : State) (g : Guard) (d : Opnd) (srcs : List VReg) (slots : List Opnd) (rs : Bool) (k : Nat)
    (aff : Option VReg) (f : List Word → List Nat → Word) : Except TrapReq State :=
  let at_ (t : Nat) : List Word := srcs.map (·.at t)
  match d with
  | .v n =>
    let mask := s.guardMask g
    if mask = 0 then .ok s
    else if rs then do
      let r := drawRow true k mask s.w.seed fun t us => f (at_ t) us
      (s.modW fun w => { w with seed := r.2 }).writeV n.val (.gen r.1) mask
    else
      match aff with
      | some a => s.writeV n.val a mask
      | none =>
        if srcs.all VReg.isUni then s.writeV n.val (.uni (f (at_ 0) [])) mask
        else s.writeV n.val (.gen ((List.range 32).map fun t => f (at_ t) [])) mask
  | _ => do
    match (srcs.zip slots).find? (fun e => !e.1.isUni) with
    | some e => .error (trapI tcShape e.2.toByte.toNat)
    | none => .ok ()
    if rs then
      let r := draws k s.w.seed
      (s.modW fun w => { w with seed := r.2 }).writeD d (.uni (f (at_ 0) r.1)) fullMask
    else s.writeD d (.uni (f (at_ 0) [])) fullMask

def slotB (b : SrcB) : Opnd :=
  match b with
  | .reg o => o
  | .imm _ => .null

/-- D, A, B entries without rounding. -/
def State.int2 (s : State) (o : Op2) (zext : Bool) (aff : VReg → VReg → Option VReg) (f : Word → Word → Word) :
    Except TrapReq State :=
  let a := s.src o.a
  let b := s.srcB o.b zext
  s.alu o.g o.d [a, b] [o.a, slotB o.b] false 0 (aff a b) fun xs _ => f (xs.getD 0 0) (xs.getD 1 0)

/-- D, A entries without rounding. -/
def State.int1 (s : State) (o : Op1) (aff : VReg → Option VReg) (f : Word → Word) : Except TrapReq State :=
  let a := s.src o.a
  s.alu o.g o.d [a] [o.a] false 0 (aff a) fun xs _ => f (xs.getD 0 0)

/-- D, A, B, C entries without rounding. -/
def State.int3 (s : State) (o : Op3) (f : Word → Word → Word → Word) : Except TrapReq State :=
  s.alu o.g o.d [s.src o.a, s.src o.b, s.src o.c] [o.a, o.b, o.c] false 0 none fun xs _ =>
    f (xs.getD 0 0) (xs.getD 1 0) (xs.getD 2 0)

def noAff1 (_ : VReg) : Option VReg := none
def noAff2 (_ _ : VReg) : Option VReg := none

/-- A floating entry that rounds k elements of each thread with the modifiers in force. -/
def State.flt (s : State) (g : Guard) (d : Opnd) (srcs : List VReg) (slots : List Opnd) (k : Nat)
    (f : Mods → List Nat → List Word → Word) : Except TrapReq State :=
  let md := Mods.of s.pm .rne
  s.alu g d srcs slots (md.rnd = .rs) k none fun xs us => f md us xs

def State.flt1 (s : State) (o : Op1) (f : Mods → Nat → Word → Word) : Except TrapReq State :=
  s.flt o.g o.d [s.src o.a] [o.a] 1 fun md us xs => f md (dr us 0) (xs.getD 0 0)
def State.flt2 (s : State) (o : Op2) (f : Mods → Nat → Word → Word → Word) : Except TrapReq State :=
  s.flt o.g o.d [s.src o.a, s.srcB o.b false] [o.a, slotB o.b] 1 fun md us xs => f md (dr us 0) (xs.getD 0 0) (xs.getD 1 0)

/-- A destination of long latency: its former values, for a window (R34, R36). -/
def State.heldOf (s : State) (o : Opnd) : Held :=
  match o with
  | .v n => .v n.val (s.w.v.getD n.val .unwritten)
  | .s n => .s n.val (s.sp.s.getD n.val 0)
  | .wg n => .wg n.val (s.g.wgr.getD n.val 0)
  | .p n => .p n.val (s.w.p.getD n.val 0)
  | _ => .p 7 0

/-- The registers of a destination group (R168). -/
def groupOf (d : Opnd) (w : Nat) : List Opnd :=
  match d with
  | .v _ | .s _ | .wg _ => (List.range w).map (Opnd.plus d)
  | _ => []

/-- A result delivered at once inside its own window: the window remembers what its destinations held (R34). -/
def State.openDone (s before : State) (la : BitVec 4) (dests : List Opnd) : State :=
  s.modSp fun p => { p with windows := ⟨0, la.toNat + 1, dests, dests.map before.heldOf, true, none, 0⟩ :: p.windows }

/-- A result still to come. -/
def State.openWait (s : State) (acc : Nat) (la : BitVec 4) (dests : List Opnd) : State :=
  s.modSp fun p => { p with windows := ⟨acc, la.toNat + 1, dests, [], false, none, 0⟩ :: p.windows }

end Sys2Proof.Machine
end

