-- ==== Sys2Proof/Machine/Integer.lean ====
section
/-! DEFINITION. The integer instructions of group 0x0 (R103 to R111). -/

namespace Sys2Proof.Machine

/-- .satf is in force (R77). -/
def State.satf (s : State) : Bool := s.pm.any fun m => m.sat == .satf

/-- The value of a word read by type. -/
def IntVal (ty : IntTy) (x : Word) : Int :=
  match ty with
  | .i32 => x.toInt
  | .n32 => x.toNat

/-- An exact result clamped to its type. -/
def clampTy (ty : IntTy) (v : Int) : Word :=
  match ty with
  | .i32 => wI (clampI 32 true v)
  | .n32 => wI (clampI 32 false v)

def aluAdd (satf : Bool) (ty : IntTy) (a b : Word) : Word :=
  if satf then clampTy ty (IntVal ty a + IntVal ty b) else a + b
def aluSub (satf : Bool) (ty : IntTy) (a b : Word) : Word :=
  if satf then clampTy ty (IntVal ty a - IntVal ty b) else a - b
def aluMulLo (satf : Bool) (ty : IntTy) (a b : Word) : Word :=
  if satf then clampTy ty (IntVal ty a * IntVal ty b) else a * b
/-- Bits [63:32] of the 64-bit product. -/
def aluMulHi (ty : IntTy) (a b : Word) : Word := BitVec.ofInt 32 (IntVal ty a * IntVal ty b / 4294967296)
def aluMad (satf : Bool) (ty : IntTy) (a b c : Word) : Word :=
  if satf then clampTy ty (IntVal ty a * IntVal ty b + IntVal ty c) else a * b + c
def aluMin (ty : IntTy) (a b : Word) : Word := if IntVal ty b < IntVal ty a then b else a
def aluMax (ty : IntTy) (a b : Word) : Word := if IntVal ty a < IntVal ty b then b else a
def aluAbs (satf : Bool) (a : Word) : Word :=
  if a = 0x80000000#32 then (if satf then 0x7FFFFFFF#32 else a) else if a.toInt < 0 then -a else a
/-- The shift count B[4:0] (R104). -/
def shiftCount (b : Word) : Nat := b.toNat % 32
def aluShl (a b : Word) : Word := a <<< shiftCount b
def aluShr (a b : Word) : Word := a >>> shiftCount b
def aluSar (a b : Word) : Word := a.sshiftRight (shiftCount b)
def aluRot (a b : Word) : Word := a.rotateLeft (shiftCount b)
/-- The table function of lop3 and plop (R107). -/
def aluLop3 (tbl : BitVec 8) (a b c : Word) : Word :=
  maskOf fun i => tbl.getLsbD ((if a.getLsbD i then 1 else 0) + (if b.getLsbD i then 2 else 0) + (if c.getLsbD i then 4 else 0))
def bfWidth (b : Word) : Nat := let w := b.toNat / 32 % 64; if w < 32 then w else 32
def aluBfe (sx : Bool) (a b : Word) : Word :=
  let w := bfWidth b
  let f := (a >>> shiftCount b).toNat % 2 ^ w
  if w = 0 then 0 else if sx then wI (intOf w true f) else w32 f
def aluBfi (d a b : Word) : Word :=
  let pos := shiftCount b
  let w := bfWidth b
  maskOf fun j => if pos ≤ j && j < pos + w then a.getLsbD (j - pos) else d.getLsbD j
def aluPopc (a : Word) : Word := w32 ((List.range 32).filter fun i => a.getLsbD i).length
def aluClz (a : Word) : Word := if a = 0 then 32 else w32 (31 - Nat.log2 a.toNat)
def aluBrev (a : Word) : Word := maskOf fun i => a.getLsbD (31 - i)
def aluDp4 (satf ua ub : Bool) (a b c : Word) : Word :=
  let by_ (uns : Bool) (x : Word) (i : Nat) : Int := intOf 8 (!uns) (x.toNat / 2 ^ (8 * i))
  let sum : Int := c.toInt + (List.range 4).foldl (fun acc i => acc + by_ ua a i * by_ ub b i) 0
  if satf then wI (clampI 32 true sum) else wI sum
def condTest (c : Cond) (ty : IntTy) (a b : Word) : Bool :=
  match c with
  | .eq => a == b
  | .ne => a != b
  | .lt => decide (IntVal ty a < IntVal ty b)
  | .le => decide (IntVal ty a ≤ IntVal ty b)
  | .gt => decide (IntVal ty b < IntVal ty a)
  | .ge => decide (IntVal ty b ≤ IntVal ty a)

/-- Pd := r, Pd AND r, or Pd OR r (R110). -/
def combine (k : Comb) (old r : Mask) : Mask :=
  match k with
  | .set => r
  | .and => old &&& r
  | .or => old ||| r

/-- A destination pair: both values are formed before either is written (R98, R109). -/
def State.alu64 (s : State) (g : Guard) (d : Opnd) (srcs : List (VReg × VReg)) (slots : List Opnd)
    (f : List DWord → DWord) : Except TrapReq State :=
  let at_ (t : Nat) : DWord := f (srcs.map fun p => p.2.at t ++ p.1.at t)
  let uni := srcs.all fun p => p.1.isUni && p.2.isUni
  match d with
  | .v n => do
    let mask := s.guardMask g
    let lo : VReg := if uni then .uni ((at_ 0).extractLsb' 0 32) else .gen ((List.range 32).map fun t => (at_ t).extractLsb' 0 32)
    let hi : VReg := if uni then .uni ((at_ 0).extractLsb' 32 32) else .gen ((List.range 32).map fun t => (at_ t).extractLsb' 32 32)
    let s ← s.writeV n.val lo mask
    s.writeV (n.val + 1) hi mask
  | _ => do
    match (srcs.zip slots).find? (fun e => !(e.1.1.isUni && e.1.2.isUni)) with
    | some e => .error (trapI tcShape (if e.1.1.isUni then (Opnd.plus e.2 1).toByte.toNat else e.2.toByte.toNat))
    | none => .ok ()
    let v := at_ 0
    let s ← s.writeD d (.uni (v.extractLsb' 0 32)) fullMask
    s.writeD (Opnd.plus d 1) (.uni (v.extractLsb' 32 32)) fullMask

def State.src64 (s : State) (o : Opnd) : VReg × VReg := (s.src o, s.srcHi o)
/-- A 64-bit B slot: the 32-bit immediate is sign-extended (R109). -/
def State.srcB64 (s : State) (b : SrcB) : VReg × VReg :=
  match b with
  | .reg o => s.src64 o
  | .imm v => let x := s.imm v false; (.uni x, .uni (if x.getLsbD 31 then 0xFFFFFFFF#32 else 0))

/-- A comparison into a predicate (R97, R110, R115): written threads only. -/
def State.cmpP (s : State) (g : Guard) (d : Opnd) (k : Comb) (r : Nat → Bool) : State :=
  s.setP d (combine k (s.pOf d) (maskOf r)) (s.guardMask g)

def execAdd (o : Op2) (ty : IntTy) : State → Res :=
  isa fun s => s.int2 o false (fun a b => if s.satf then none else affAdd false a b) (aluAdd s.satf ty)
def execSub (o : Op2) (ty : IntTy) : State → Res :=
  isa fun s => s.int2 o false (fun a b => if s.satf then none else affAdd true a b) (aluSub s.satf ty)
def execMulLo (o : Op2) (ty : IntTy) : State → Res :=
  isa fun s => s.int2 o false (fun a b => if s.satf then none else affMul a b) (aluMulLo s.satf ty)
def execMulHi (o : Op2) (ty : IntTy) : State → Res := isa fun s => s.int2 o false noAff2 (aluMulHi ty)
def execMad (o : Op3) (ty : IntTy) : State → Res := isa fun s => s.int3 o (aluMad s.satf ty)
def execMin (o : Op2) (ty : IntTy) : State → Res := isa fun s => s.int2 o false noAff2 (aluMin ty)
def execMax (o : Op2) (ty : IntTy) : State → Res := isa fun s => s.int2 o false noAff2 (aluMax ty)
def execAbs (o : Op1) : State → Res := isa fun s => s.int1 o noAff1 (aluAbs s.satf)
def execAnd (o : Op2) : State → Res := isa fun s => s.int2 o false noAff2 (· &&& ·)
def execOr (o : Op2) : State → Res := isa fun s => s.int2 o false noAff2 (· ||| ·)
def execXor (o : Op2) : State → Res := isa fun s => s.int2 o false noAff2 (· ^^^ ·)
def execLop3 (o : Op3) (tbl : BitVec 8) : State → Res := isa fun s => s.int3 o (aluLop3 tbl)
def execShl (o : Op2) : State → Res := isa fun s => s.int2 o false noAff2 aluShl
def execShr (o : Op2) : State → Res := isa fun s => s.int2 o false noAff2 aluShr
def execSar (o : Op2) : State → Res := isa fun s => s.int2 o false noAff2 aluSar
def execRot (o : Op2) : State → Res := isa fun s => s.int2 o false noAff2 aluRot
def execBfe (o : Op2) (sx : Bool) : State → Res := isa fun s => s.int2 o true noAff2 (aluBfe sx)
/-- bfi reads the old D as a source (R108). -/
def execBfi (o : Op2) : State → Res :=
  isa fun s => s.alu o.g o.d [s.src o.d, s.src o.a, s.srcB o.b true] [o.d, o.a, slotB o.b] false 0 none fun xs _ =>
    aluBfi (xs.getD 0 0) (xs.getD 1 0) (xs.getD 2 0)
def execPopc (o : Op1) : State → Res := isa fun s => s.int1 o noAff1 aluPopc
def execClz (o : Op1) : State → Res := isa fun s => s.int1 o noAff1 aluClz
def execBrev (o : Op1) : State → Res := isa fun s => s.int1 o noAff1 aluBrev
def execAddW (o : Op2) : State → Res :=
  isa fun s => s.alu64 o.g o.d [s.src64 o.a, s.srcB64 o.b] [o.a, slotB o.b] fun xs => xs.getD 0 0 + xs.getD 1 0
def execLea (o : Op2) (sh : Fin 5) (z : Bool) : State → Res :=
  isa fun s =>
    let b := s.srcB o.b false
    s.alu64 o.g o.d [s.src64 o.a, (b, .uni 0)] [o.a, slotB o.b] fun xs =>
      let x : Word := (xs.getD 1 0).extractLsb' 0 32
      xs.getD 0 0 + ((if z then x.setWidth 64 else x.signExtend 64) <<< sh.val)
def execCmp (o : OpAB) (c : Cond) (ty : IntTy) (k : Comb) : State → Res :=
  isa fun s => .ok (s.cmpP o.g o.d k fun t => condTest c ty ((s.src o.a).at t) ((s.src o.b).at t))
/-- sel: with P7 it is mov D, A; a per-thread predicate is never scalar, and a scalar D takes thread 0's (R111, log
entry 14). -/
def execSel (o : Op3) : State → Res :=
  isa fun s =>
    if o.c = .p 7 then s.int1 ⟨o.g, o.d, o.a⟩ affMov id
    else
      let p := s.pOf o.c
      let a := s.src o.a
      let b := s.src o.b
      match o.d with
      | .v n => s.writeV n.val (.gen ((List.range 32).map fun t => if p.getLsbD t then a.at t else b.at t)) (s.guardMask o.g)
      | d => do
        let x ← s.scalar o.a
        let y ← s.scalar o.b
        s.writeD d (.uni (if p.getLsbD 0 then x else y)) fullMask
def execMov (o : Op1) : State → Res := isa fun s => s.int1 o affMov id
def execMovi (g : Guard) (d : Opnd) (imm : BitVec 19) : State → Res :=
  isa fun s => s.alu g d [.uni (s.imm imm false)] [.null] false 0 none fun xs _ => xs.getD 0 0
def execPlop (o : Op3) (tbl : BitVec 8) : State → Res :=
  isa fun s => .ok (s.setP o.d (aluLop3 tbl (s.pOf o.a) (s.pOf o.b) (s.pOf o.c)) (s.guardMask o.g))
def execDp4 (o : Op3) (ua ub : Bool) : State → Res := isa fun s => s.int3 o (aluDp4 s.satf ua ub)

end Sys2Proof.Machine
end

