-- ==== Sys2Proof/Machine/Control.lean ====
section
/-! DEFINITION. Control flow, divergence and reconvergence, group 0x4 (R137 to R155), with the fetch of a bundle
and the checks of a target. -/

namespace Sys2Proof.Machine

/-! ### Fetching a bundle (R40, R251, R316) -/

/-- The bundle at an address as core k fetches it, once its line has come (`il`): the bytes in memory or, where an instruction
cache may still hold the bundle from before a write, those of any moment since its last icinv (R251); of the host window, what
came. Before that the core is still to fetch the line, or to find its page (R175). -/
def State.fetch (s : State) (k grid : Nat) (pc : DWord) : Except TrapReq DWord :=
  match s.xlate k grid pc false true with
  | .error kind => .error (if kind = kindLater then ⟨tcLater, 0, 1, pc⟩ else faultTrap 0 kind pc)
  | .ok e =>
    let pa := e.pa? pc.toNat
    match (s.core k).il.find? (·.1 == pa / 128) with
    | none => .error ⟨tcLater, 0, 1, pc⟩
    | some l =>
      let new := BitVec.ofNat 64 (leNat (s.agentRead (s.grid grid).chain pa 8))
      let olds := ((s.core k).ic.filter fun x => x.1 == pa).map (·.2)
      let n := if isHostPa pa then olds.length else olds.length + 1
      if !l.2 && (isHostPa pa || s.bad pa 8) then .error ⟨tcData, 0, 0, pc⟩
      else .ok (olds.getD ((s.word 9 (pa % 65536)).toNat % n) new)

/-- The checks of a taken transfer's target, before any state changes (R138). -/
def State.target (s : State) (a : DWord) : Except TrapReq DWord :=
  if a.toNat % 8 != 0 then .error ⟨tcMisaligned, 0, a.extractLsb' 0 32, a⟩
  else do
    let x ← match s.fetch s.cur.core s.w.grid a with
      | .ok x => .ok x
      | .error t => .error { t with addr := a }
    if x.getLsbD 61 then .ok x else .error ⟨tcBadTarget, 0, a.extractLsb' 0 32, a⟩

/-- The budgets an fhdr carries, when the bundle holds one (R148); none of it for any other bundle. K and OP alone make a
bundle an fhdr for a calling transfer; its other fields are checked when it issues (log entry 76). -/
def fhdrOf (x : DWord) : Option (Nat × Nat) :=
  let r := Raw.ofWord x
  if x.extractLsb' 62 2 = 0#2 && r.op = 0x10C#10 then some ((r.c.extractLsb' 0 8).toNat, (r.c.extractLsb' 8 8).toNat) else none

/-- Check 3 of R149 with the range check of R148 at the calling transfer. -/
def State.budget (s : State) (n g : Nat) : Except TrapReq Unit := do
  check (1 ≤ n && n ≤ 128 && g ≤ n) (trapI tcEncoding (7 + 5 * 256))
  check (n ≤ s.w.n && g ≤ s.w.g) (trapI tcReg n)

/-! ### Splits (R137, R142 to R145) -/

/-- The place of a uid in the hint order. -/
def Wave.pos (w : Wave) (uid : Nat) : Nat := (w.hint.findIdx? (· == uid)).getD w.hint.length

def Wave.freeId (w : Wave) : Option Nat := [0, 1, 2, 3].find? fun i => !(w.splits.any (·.id == i))

/-- R142: deferred entries become live while slots are free; the top of the stack is the list's head. -/
def Wave.refill : List Deferred → Wave → Wave
  | [], w => w
  | d :: ds, w =>
    match w.freeId with
    | none => w
    | some i =>
      let p : Split := { Split.blank with id := i, pc := d.pc, mask := d.mask, s := d.s, depth := d.depth, uid := d.uid, div := d.div }
      Wave.refill ds { w with splits := w.splits ++ [p], deferred := ds }

def Split.parked (p : Split) : Bool := p.status == .parkedJoin || p.status == .parkedConv

def Split.release (p : Split) : Split := { p with pc := p.pc + 8, status := .running, readyAt := 0 }

/-- R145: with no live split running, one parked split goes on: by join before by conv, earliest in hint order. -/
def Wave.unpark (w : Wave) : Wave :=
  if w.splits.all Split.parked then
    let byHint := w.hint.filterMap fun u => w.splits.find? (·.uid == u)
    let pick := match byHint.find? (·.status == Status.parkedJoin) with
      | some p => some p
      | none => byHint.find? (·.status == Status.parkedConv)
    match pick with
    | some p => w.modSplit p.id Split.release
    | none => w
  else w

/-- Freed slots and parked splits after a split merged, parked or ended (R142, R145). -/
def Wave.settle (w : Wave) : Wave := (Wave.refill w.deferred w).unpark

/-- A split leaves the wave (R137); results still to come reach its registers all the same (R152). -/
def Wave.endSplit (w : Wave) (id : Nat) : Wave :=
  match w.split? id with
  | none => w
  | some p =>
    ({ w with
      gone := (p.windows.filter fun (x : Window) => !x.delivered) ++ w.gone
      splits := w.splits.filter (·.id != id)
      hint := w.hint.filter (· != p.uid) }).settle

/-- The merge of two splits parked at one address, made once the results of both are delivered (R35, R144). An error that a
window of either holds is the merged split's to report (R410). The identifier of R244 is the later split's (log entry 46). A handler that
one of them runs goes on under the merged split's id (R145). -/
def Wave.merge (w : Wave) (p q : Split) (st : Status) : Wave :=
  let early := if w.pos p.uid ≤ w.pos q.uid then p else q
  let late := if w.pos p.uid ≤ w.pos q.uid then q else p
  let ne := maskNe early.s late.s
  let m : Split := { late with
    id := min p.id q.id, mask := p.mask ||| q.mask, uid := early.uid, status := st, pfx := none, low := false, arrived := false
    windows := (p.windows ++ q.windows).map fun x => { x with left := 0 } }
  { w with
    splits := (w.splits.filter fun x => x.id != p.id && x.id != q.id) ++ [m]
    hint := w.hint.filter (· != late.uid)
    handler := w.handler.map fun h => if h = p.id || h = q.id then min p.id q.id else h
    uconf := w.uconf ||| ne }
where
  maskNe (a b : List Word) : DWord :=
    BitVec.ofNat 64 ((List.range 64).foldl (fun acc k => if a.getD k 0 != b.getD k 0 then acc + 2 ^ k else acc) 0)

/-- A new path beside the executing split (R137, R141): a running split, or a deferred entry. `after` is the uid it
follows in hint order. -/
def Wave.addPath (w : Wave) (after : Nat) (pc : DWord) (mask : Mask) (from_ : Split) : Wave :=
  let uid := w.nextUid
  let div := w.created
  let w := { w with
    nextUid := w.nextUid + 1
    created := w.created + 1
    hint := w.hint.flatMap fun u => if u = after then [u, uid] else [u] }
  match w.freeId with
  | some i =>
    { w with splits := w.splits ++ [{ Split.blank with id := i, pc := pc, mask := mask, s := from_.s, depth := from_.depth, uid := uid, div := div }] }
  | none => { w with deferred := ⟨pc, mask, from_.s, from_.depth, uid, div⟩ :: w.deferred }

/-! ### Waiting for deliveries (R35) -/

/-- A window of the split is not delivered, or holds an error that its first waiting instruction must report (R410). -/
def Split.undelivered (p : Split) : Bool := p.windows.any fun w => !w.delivered || w.err.isSome

/-- A split sent back to the instruction it was about to perform, the low slot included (R59). -/
def Split.rewind (p : Split) : Split :=
  match p.pfx with
  | some x => { p with pc := x.pc, low := x.low, pfx := none }
  | none => p

/-- A split that stays at its instruction, low slot included, and tries again; its windows have not counted it (R34). -/
def Split.stalled (p : Split) : Split :=
  { p.rewind with windows := p.windows.map fun w => { w with left := w.left + 1 } }

/-- The trap of a split that found its fault while it waited, or beside another's: while a sibling's handler is active the
instruction issues again after trapret instead (R247). -/
def State.raiseLate (s : State) (t : TrapReq) : State :=
  if s.w.handler.any (· != s.cur.split) then s.modSp Split.rewind else s.raise t

/-- The DATA_ERROR that a delivered window of the executing split holds, raised at the instruction that waits for it, with
the load's bundle in the record (R410). -/
def State.raiseWindow (s : State) (x : Window) : State :=
  if s.w.handler.any (· != s.cur.split) then s.modSp Split.rewind
  else (s.modSp fun p => { p with windows := p.windows.filter fun y => !(y.acc == x.acc && y.err.isSome) }).raiseAt
    s.cur.core s.cur.ctx s.cur.split ⟨tcData + tcNoted, 0, 0, x.err.getD 0⟩ ⟨s.sp.pc, s.sp.low⟩

/-- An event that closes windows waits for every delivery first; the instruction then issues again (R35). -/
def State.settled (s : State) (f : State → Except TrapReq State) : Except TrapReq State :=
  if s.sp.undelivered then .ok (s.modSp fun p => { (p.rewind).closeWindows with status := .waiting .deliver })
  else f (s.modSp fun p => { p with windows := [] })

/-- The executing split goes on at an address. -/
def State.goto (s : State) (a : DWord) : State := s.modSp fun p => { p with pc := a, low := false, pfx := none }

/-- PC + 8 × d (R138). -/
def State.dispTo (s : State) (d : BitVec 19) : DWord := s.sp.pc + ((s.imm d false).signExtend 64 <<< 3)

def State.targetOf (s : State) (t : Target) : DWord :=
  match t with
  | .disp d => s.dispTo d
  | .reg n => s.sp.pair n.val

/-- The active threads for which the guard field's condition is true (R140, R141). -/
def execBr (g : Guard) (a : Opnd) (disp : BitVec 19) : State → Res :=
  isaCtl fun s => do
    let x ← if a = .null then .ok 1#32 else s.scalar a
    let t := s.guardMask g
    if x = 0 || t = 0 then .ok s.advance
    else if t = s.sp.mask then
      s.settled fun s => do
        let dest := s.dispTo disp
        let _ ← s.target dest
        .ok (s.goto dest)
    else .error (trapI tcShape (0xD0 + g.p.val))

def execBrD (g : Guard) (h : Bool) (disp : BitVec 19) : State → Res :=
  isaCtl fun s =>
    let tk := s.guardMask g
    let nt := s.sp.mask &&& ~~~tk
    if s.w.handler.isSome then .error (trapI tcConv 0)
    else if tk = 0 then .ok s.advance
    else
      s.settled fun s => do
        let dest := s.dispTo disp
        let _ ← s.target dest
        if nt = 0 then .ok (s.goto dest)
        else do
          check (s.w.freeId.isSome || s.w.deferred.length < 8) (trapI tcSplitOverflow 0)
          let p := s.sp
          let fall := p.pc + 8
          let first := if h then (fall, nt) else (dest, tk)
          let other := if h then (dest, tk) else (fall, nt)
          let s := s.modW fun w => w.addPath p.uid other.1 other.2 p
          .ok (s.modSp fun p => { p with pc := first.1, mask := first.2, low := false, pfx := none })

def execJmp (t : Target) : State → Res :=
  isaCtl fun s => s.settled fun s => do
    let dest := s.targetOf t
    let _ ← s.target dest
    .ok (s.goto dest)

/-- call: target, fhdr budget and depth before the return address is written (R147), in the order that R149 gives callx
(log entry 75). -/
def execCall (d : Fin 64) (t : Target) : State → Res :=
  isaCtl fun s => s.settled fun s => do
    let dest := s.targetOf t
    let x ← s.target dest
    match fhdrOf x with
    | some (n, g) => s.budget n g
    | none => .ok ()
    check (s.sp.depth < 64) (trapI tcDepth s.sp.depth)
    let back := s.sp.pc + 8
    .ok ((s.modSp fun p => { p.setPair d.val back with depth := p.depth + 1 }).goto dest)

/-- The distinct targets in the order of their lowest threads, with their masks (R149). -/
def distinct (ts : List (Nat × DWord)) : List (DWord × Mask) :=
  ts.foldl (fun acc e =>
    let m : Mask := 1#32 <<< e.1
    if acc.any (·.1 == e.2) then acc.map fun x => if x.1 = e.2 then (x.1, x.2 ||| m) else x
    else acc ++ [(e.2, m)]) []

/-- Checks 1 to 3 of R149 on each target in turn. -/
def State.callTargets (s : State) : List (DWord × Mask) → Except TrapReq Unit
  | [] => .ok ()
  | e :: es => do
    let x ← s.target e.1
    match fhdrOf x with
    | some (n, g) => s.budget n g
    | none => .error ⟨tcBadTarget, 0, e.1.extractLsb' 0 32, e.1⟩
    s.callTargets es

/-- The targets past the first: free slots in order, then the stack, the last pushed first (R150). -/
def Wave.addCalls (w : Wave) (from_ : Split) (after : Nat) (es : List (DWord × Mask)) : Wave :=
  let free := 4 - w.splits.length
  let tag := (List.range es.length).map fun i => (w.nextUid + i, w.created + i)
  let w := { w with
    nextUid := w.nextUid + es.length
    created := w.created + es.length
    hint := w.hint.flatMap fun u => if u = after then u :: tag.map (·.1) else [u] }
  let w := ((es.zip tag).take free).foldl (fun (w : Wave) e =>
    match w.freeId with
    | some i => { w with splits := w.splits ++ [{ Split.blank with id := i, pc := e.1.1, mask := e.1.2, s := from_.s, depth := from_.depth, uid := e.2.1, div := e.2.2 }] }
    | none => w) w
  { w with deferred := (((es.zip tag).drop free).map fun e => ⟨e.1.1, e.1.2, from_.s, from_.depth, e.2.1, e.2.2⟩) ++ w.deferred }

def execCallx (d : Fin 64) (a : Fin 128) : State → Res :=
  isaCtl fun s =>
    if s.w.handler.isSome then .error (trapI tcConv 0)
    else s.settled fun s => do
      let ts := distinct ((threads s.sp.mask).map fun t => (t, s.at64 (.v a) t))
      s.callTargets ts
      check (s.sp.depth < 64) (trapI tcDepth s.sp.depth)
      check (ts.length - 1 ≤ (4 - s.w.splits.length) + (8 - s.w.deferred.length)) (trapI tcSplitOverflow 0)
      let s := s.modSp fun p => { p.setPair d.val (p.pc + 8) with depth := p.depth + 1 }
      match ts with
      | [] => .ok s
      | e :: es =>
        let p := s.sp
        let s := s.modW fun w => w.addCalls p p.uid es
        .ok (s.modSp fun p => { p with pc := e.1, mask := e.2, low := false, pfx := none })

def execRet (a : Fin 64) : State → Res :=
  isaCtl fun s => s.settled fun s => do
    let dest := s.sp.pair a.val
    let _ ← s.target dest
    check (s.sp.depth ≠ 0) (trapI tcDepth 0)
    .ok ((s.modSp fun p => { p with depth := p.depth - 1 }).goto dest)

/-- join and conv (R143): complete alone, merge with a split parked here, or park. A window closes at a merge alone, which
waits for every delivery of both splits (R35). -/
def State.reconverge (s : State) (st : Status) : Except TrapReq State :=
  let w := s.w
  let p := s.sp
  if w.splits.length = 1 && w.deferred.isEmpty then .ok s.advance
  else
    match w.splits.find? (fun q => q.id != p.id && q.parked && q.pc == p.pc) with
    | some q =>
      if p.undelivered then .ok (s.modSp fun p => { (p.rewind).closeWindows with status := .waiting .deliver })
      else if q.windows.any (!·.delivered) then .ok (s.modSp fun p => p.stalled)
      else .ok (s.modW fun w => (w.merge p q q.status).settle)
    | none => .ok (s.modW fun w => (w.modSplit p.id fun p => { p with status := st, pfx := none }).settle)

def execJoin : State → Res := isaCtl fun s => s.reconverge .parkedJoin
def execConv : State → Res := isaCtl fun s => s.reconverge .parkedConv

/-- exit (R152). A handler ends with the split that runs it (log entry 16). A wave that ends gives up its streams
(R197) and, once drained, its context. -/
def execExit (g : Guard) : State → Res :=
  isaCtl fun s =>
    let e := s.guardMask g
    let keep := s.sp.mask &&& ~~~e
    let c := s.cur
    let s := s.modW fun w => { w with exited := w.exited ||| e }
    if keep != 0 then .ok ((s.modSp fun p => { p with mask := keep }).advance)
    else
      let s := s.modW fun w => { w.endSplit c.split with handler := if w.handler = some c.split then none else w.handler }
      let w := s.w
      if w.splits.isEmpty then
        .ok ((s.modW fun w => { w with streams := [], handler := none }).reap c.core c.ctx)
      else .ok s

def execTrap (g : Guard) (code : BitVec 16) : State → Res :=
  isa fun s => if s.guardMask g = 0 then .ok s else .error (trapI tcSoftware code.toNat)
def execNop : State → Res := isa fun s => .ok s

/-- loop: the count is written and the branch taken together, the target checked first (R151). -/
def execLoop (d : Fin 64) (disp : BitVec 19) : State → Res :=
  isaCtl fun s =>
    let x := s.readS d.val - 1
    if x = 0 then .ok ((s.writeS d.val x).advance)
    else s.settled fun s => do
      let x := s.readS d.val - 1
      if x = 0 then .ok ((s.writeS d.val x).advance)
      else do
        let dest := s.dispTo disp
        let _ ← s.target dest
        .ok ((s.writeS d.val x).goto dest)

def execFhdr (_n _g : BitVec 8) : State → Res := isa fun s => .ok s

/-- R154: the one live split, every thread, no deferred entry, and a guard true everywhere. -/
def State.converged (s : State) (g : Guard) : Bool :=
  s.w.splits.length == 1 && s.w.deferred.isEmpty && s.sp.mask == fullMask && s.guardMask g == fullMask

def State.needConverged (s : State) (g : Guard) : Except TrapReq Unit := check (s.converged g) (trapI tcConv 0)

end Sys2Proof.Machine
end

