-- ==== Sys2Proof/Machine/Buffers.lean ====
section
/-! DEFINITION. The typed buffers of a core as a workgroup sees them (R156 to R164), tile tags and zero flags
(R164, R174, R194), the footprints of queued matrix instructions (R208 to R215, R223), stream staleness (R200)
and the six in-flight counters (R177, R178). -/

namespace Sys2Proof.Machine

/-! ### Reservations (R156) -/

def WGrp.buf (g : WGrp) : Space → Mem
  | .a => g.a
  | .w => g.w
  | .c => g.c

def WGrp.setBuf (g : WGrp) (sp : Space) (m : Mem) : WGrp :=
  match sp with
  | .a => { g with a := m }
  | .w => { g with w := m }
  | .c => { g with c := m }

def WGrp.tags (g : WGrp) : Space → List Tag
  | .a => g.ta
  | .w => g.tw
  | .c => g.tc

def WGrp.setTags (g : WGrp) (sp : Space) (t : List Tag) : WGrp :=
  match sp with
  | .a => { g with ta := t }
  | .w => { g with tw := t }
  | .c => { g with tc := t }

/-- Bytes of a reservation: one tag for each 1 KiB tile. -/
def WGrp.size (g : WGrp) (sp : Space) : Nat := (g.tags sp).length * 1024

def WGrp.tag (g : WGrp) (sp : Space) (t : Nat) : Tag := (g.tags sp).getD t Tag.blank
def WGrp.modTag (g : WGrp) (sp : Space) (t : Nat) (f : Tag → Tag) : WGrp :=
  g.setTags sp ((g.tags sp).set t (f (g.tag sp t)))
def WGrp.modTags (g : WGrp) (sp : Space) (ts : List Nat) (f : Tag → Tag) : WGrp :=
  ts.foldl (fun g t => g.modTag sp t f) g

/-- The tiles that n bytes from an address touch. -/
def tilesOf (lo n : Nat) : List Nat := if n = 0 then [] else (List.range ((lo + n - 1) / 1024 + 1 - lo / 1024)).map (· + lo / 1024)

/-! ### The format block (R208 to R210) and operand sizes (R211 to R214) -/

def fbAF (fb : DWord) : Nat := (fb.extractLsb' 0 4).toNat
def fbBF (fb : DWord) : Nat := (fb.extractLsb' 4 4).toNat
def fbSidA (fb : DWord) : Nat := (fb.extractLsb' 8 8).toNat
def fbSidB (fb : DWord) : Nat := (fb.extractLsb' 16 8).toNat
def fbBL (fb : DWord) : Nat := (fb.extractLsb' 24 2).toNat
def fbSPN (fb : DWord) : Nat := (fb.extractLsb' 26 2).toNat
def fbPrec (fb : DWord) : Nat := (fb.extractLsb' 28 4).toNat
def fbPI (fb : DWord) : Nat := (fb.extractLsb' 32 3).toNat
def fbPro (fb : DWord) : Bool := fb.getLsbD 35

/-- Stored bits of a format code (R209); 0 for a reserved code. -/
def fmtBits (c : Nat) : Nat :=
  match c with
  | 0 => 16 | 1 => 16 | 2 => 8 | 3 => 8 | 4 => 4 | 8 => 8 | 9 => 8 | 10 => 4 | 11 => 4 | 12 => 2 | 13 => 2 | _ => 0

/-- Planes stored for B (R212). -/
def planesB (fb : DWord) : Nat := if fbPro fb then 4 else fmtBits (fbBF fb)
/-- N of N-of-16 sparsity (R208). -/
def spN (fb : DWord) : Nat := 2 ^ fbSPN fb
/-- Z of R214. -/
def sparseBlock (fb : DWord) : Nat := 32 + (planesB fb * 2 * spN fb + 31) / 32 * 32

def bytesA (fb : DWord) (k : Nat) : Nat := 16 * k * fmtBits (fbAF fb) / 8
def bytesB (fb : DWord) (k : Nat) (sparse : Bool) : Nat :=
  if sparse then k / 16 * sparseBlock fb else k / 16 * planesB fb * 32

def epiSize : EpiFmt → Nat
  | .f32 => 4
  | .f16 => 2
  | .bf16 => 2
  | _ => 1

/-- Z_S, the size of a zero-compressed slot for elements of a size (R195). -/
def slotSize (esz : Nat) : Nat := if esz = 1 then 1168 else if esz = 2 then 1104 else 1072

def epiTiles (zc : Bool) (f : EpiFmt) : Nat := if zc then 4 / epiSize f else 1
def epiBytes (zc : Bool) (f : EpiFmt) : Nat := if zc then slotSize (epiSize f) else 256 * epiSize f

/-! ### Footprints (R223) -/

/-- Byte ranges of the A-buffer and W-buffer that are operands or parameters while the entry is busy. -/
def MEntry.readsA (e : MEntry) : List (Nat × Nat) :=
  match e.kind with
  | .mma _ => if e.readDone then [] else [(e.sa, bytesA e.fb e.k)]
  | .aepi _ _ _ => [(e.sb, 160)]
  | _ => []

def MEntry.readsW (e : MEntry) : List (Nat × Nat) :=
  match e.kind with
  | .mma sp => if e.readDone then [] else [(e.sb, bytesB e.fb e.k sp)]
  | .vmx _ addrs => (addrs.filter (· != 0xFFFFFFFF#32)).map fun a => (a.toNat, bytesB e.fb e.k false)
  | _ => []

def MEntry.srcTiles (e : MEntry) : List Nat :=
  match e.kind with
  | .aepi _ _ _ | .amax _ _ _ => (List.range e.cnt).map (· + e.tile)
  | _ => []

def MEntry.dstTiles (e : MEntry) : List Nat :=
  match e.kind with
  | .mma _ | .azero => (List.range e.cnt).map (· + e.tile)
  | _ => []

/-- The accumulator tiles an entry names. -/
def MEntry.tiles (e : MEntry) : List Nat := e.srcTiles ++ e.dstTiles

def overlap (r : Nat × Nat) (lo n : Nat) : Bool := r.1 < lo + n && lo < r.1 + r.2

/-- Who writes a buffer: a wave of its workgroup, by index; a copy, epilogue or bridle write, which the tile tags hold back
(R164); or a rotation. -/
inductive Writer where
  | wave (idx : Nat) | engine | ring
  deriving DecidableEq, Repr

/-- What a write of n bytes does to a busy entry of the workgroup. One that the tags hold back gives an unstarted
instruction the bytes it waits for where it falls in a tile that is not valid; in a valid one it disturbs it (R164, R223). -/
def MEntry.touched (e : MEntry) (wg : Nat) (sp : Space) (lo n : Nat) (by_ : Writer) (valid : Nat → Bool) : MEntry :=
  let waits : Bool := by_ = .engine && !e.started && !(tilesOf lo n).any valid && (match e.kind with | .aepi _ _ _ => false | _ => true)
  if e.wg != wg then e
  else match sp with
    | .a => if !waits && e.readsA.any (overlap · lo n) then { e with spoiled := true } else e
    | .w => if !waits && e.readsW.any (overlap · lo n) then { e with spoiled := true } else e
    | .c =>
      let t := tilesOf lo n
      let e := if e.srcTiles.any t.contains then { e with spoiled := true } else e
      if by_ = .engine then e else { e with mixed := (t.filter fun i => e.dstTiles.contains i) ++ e.mixed }

/-- A tile that a busy entry of the workgroup will write (R223). -/
def State.busyDst (s : State) (core wg tile : Nat) : Bool :=
  (s.core core).mq.any fun e => e.wg == wg && e.dstTiles.contains tile

/-! ### Streams meet writes (R200) -/

/-- A write of n bytes touches the 128-byte line of a queue entry filled before it: the entry is stale; and so is, where a
write to the host window goes out behind it, an element asked for (R419). -/
def Strm.stale (x : Strm) (glob out : Bool) (lo n : Nat) : Strm :=
  let hit (va : Nat) : Bool := overlap (va / 128 * 128, 128) lo n
  if x.global = glob then
    { x with
      q := x.q.map fun e => if hit e.2.va then (e.1, { e.2 with stale := true }) else e
      out := x.out.map fun e => (e.1, e.2.1, e.2.2 || out && hit e.2.1) }
  else x

/-- The wave in a context performs an st.a, st.g, atom or cas over n bytes (R200). -/
def State.staleAt (s : State) (core ctx : Nat) (glob : Bool) (lo n : Nat) : State :=
  s.modWave core ctx fun w => { w with streams := w.streams.map fun x => (x.1, x.2.stale glob false lo n) }
def State.staleOwn (s : State) (glob : Bool) (lo n : Nat) : State := s.staleAt s.cur.core s.cur.ctx glob lo n

/-- The executing wave sends a write of n bytes to the host window. -/
def State.staleHost (s : State) (lo n : Nat) : State :=
  s.modW fun w => { w with streams := w.streams.map fun x => (x.1, x.2.stale true true lo n) }

/-! ### Buffer writes and reads -/

/-- Aligned 16-byte parts that n bytes meet. -/
def partsIn (lo n : Nat) : List Nat := if n = 0 then [] else (List.range ((lo + n - 1) / 16 + 1 - lo / 16)).map (lo / 16 + ·)

/-- Bytes of parts from before a wave's write, which the array may read until an mfence (R221); only a workgroup with
accumulator tiles has instructions that could. -/
def State.noteOld (s : State) (core wg idx : Nat) (sp : Space) (lo n : Nat) : State :=
  let g := s.wg wg
  if g.tc.isEmpty then s
  else
    let us := (partsIn lo n).map fun p => Unfenced.mk wg sp p idx [] [] [] ((g.buf sp).gets (16 * p) 16)
    s.modCore core fun c => { c with unf := (us.filter fun u => !c.unf.contains u) ++ c.unf }

/-- No part of some bytes reads as it did before from now on: another agent than a wave writes them. -/
def State.dropOld (s : State) (core wg : Nat) (sp : Space) (lo n : Nat) : State :=
  let ps := partsIn lo n
  s.modCore core fun c => { c with
    unf := c.unf.filter fun u => !(u.wg == wg && u.sp == sp && ps.contains u.part)
    mq := c.mq.map fun e => if e.wg = wg then { e with olds := e.olds.filter fun o => !(o.1 == sp && ps.contains o.2.1) } else e }

/-- A wave's writes may be acquired by way of something it has done (R221). -/
def Unfenced.released (u : Unfenced) (wg idx : Nat) (v : Via) : Unfenced :=
  if u.wg = wg && (u.by_ == idx || u.known.contains idx) && !u.via.contains v then { u with via := v :: u.via } else u
def Unfenced.acquired (u : Unfenced) (wg idx : Nat) (v : Via) : Unfenced :=
  if u.wg = wg && u.via.contains v && !u.known.contains idx then { u with known := idx :: u.known } else u

/-- A wave of a core releases its writes and those it has acquired, and acquires what has been released. -/
def State.releaseVia (s : State) (core wg idx : Nat) (v : Via) : State :=
  s.modCore core fun c => { c with unf := c.unf.map fun u => u.released wg idx v }
def State.acquireVia (s : State) (core wg idx : Nat) (v : Via) : State :=
  s.modCore core fun c => { c with unf := c.unf.map fun u => u.acquired wg idx v }

/-- What a write of n bytes disturbs in the queue of the array (R223). -/
def State.touch (s : State) (core wg : Nat) (sp : Space) (lo n : Nat) (by_ : Writer) : State :=
  let g := s.wg wg
  s.modCore core fun c => { c with mq := c.mq.map fun e => e.touched wg sp lo n by_ fun t => (g.tag sp t).v }

/-- Bytes into a buffer of a workgroup on a core: matrix footprints and zero flags follow (R194, R223). -/
def State.bufWrite (s : State) (core wg : Nat) (sp : Space) (lo : Nat) (bs : List Byte) (by_ : Writer) : State :=
  (s.touch core wg sp lo bs.length by_).modWg wg fun g =>
    (g.setBuf sp ((g.buf sp).puts lo bs)).modTags sp (tilesOf lo bs.length) fun t => { t with z := false }

/-- One write, with the parts that an mfence has yet to order (R221). -/
def State.bufPut (s : State) (core wg : Nat) (sp : Space) (lo : Nat) (bs : List Byte) (by_ : Writer) : State :=
  let s := match by_ with
    | .wave idx => s.noteOld core wg idx sp lo bs.length
    | _ => s.dropOld core wg sp lo bs.length
  s.bufWrite core wg sp lo bs by_

/-- The bytes from before a wave's instruction that writes n bytes at some places (R170, R221). -/
def State.noteAll (s : State) (core wg idx : Nat) (sp : Space) (los : List Nat) (n : Nat) : State :=
  los.foldl (fun s lo => s.noteOld core wg idx sp lo n) s

def State.bufGet (s : State) (wg : Nat) (sp : Space) (lo n : Nat) : List Byte := ((s.wg wg).buf sp).gets lo n

/-! ### Counters (R177, R178) -/

/-- A long-latency instruction of no path: grid (R292) and btag (R177, R351; log entry 83). -/
def Acc.pathless (a : Acc) : Bool := a.op == .grid || a.op == .tagAlloc

/-- The instructions that a counter counts. -/
def Wave.count (w : Wave) (p : Path) : Nat := (w.accs.filter fun a => a.path == p && !a.pathless).length

/-- Completed instructions at the head of their path leave it, in the order they entered (R178). -/
def retireList (p : Path) : List Acc → List Acc
  | [] => []
  | a :: as => if a.path = p && (a.done || !a.pathless) then (if a.done then retireList p as else a :: as) else a :: retireList p as

def Wave.retire (w : Wave) (p : Path) : Wave := { w with accs := retireList p w.accs }

/-- The wave's instructions under way: those in its paths, and those of a split that waits for translation (R331). -/
def Wave.flying (w : Wave) : List Acc :=
  w.accs ++ w.splits.filterMap fun p => match p.status with
    | .waiting (.translate a _ _) => some a
    | _ => none

/-- The priority a wave's requests carry. -/
def Wave.newAcc (w : Wave) (p : Path) (pc : DWord) (op : ElemOp) : Acc :=
  ⟨w.nextAcc, p, pc, op, .dv, .null, .null, 1, 4, false, false, 0, w.prio, [], false⟩

def Wave.addAcc (w : Wave) (a : Acc) : Wave := { w with accs := w.accs ++ [a], nextAcc := max w.nextAcc (a.id + 1) }
def Wave.modAcc (w : Wave) (id : Nat) (f : Acc → Acc) : Wave :=
  { w with accs := w.accs.map fun a => if a.id = id then f a else a }

/-- An instruction of a path is complete: it is marked, and the head of the path leaves; a wave that has ended may
then go (R152). -/
def State.completeAcc (s : State) (core ctx id : Nat) (p : Path) : State :=
  (s.modWave core ctx fun w => (w.modAcc id fun a => { a with done := true }).retire p).reap core ctx

/-- A counter at its limit stalls (R178). -/
def State.counterFull (s : State) (p : Path) : Bool := decide (255 ≤ s.w.count p)

/-- The executing split stalls. -/
def State.stall (s : State) : State := s.modSp Split.stalled

end Sys2Proof.Machine
end

