-- ==== Sys2Proof/Machine/LocalMem.lean ====
section
/-! DEFINITION. Local loads, stores, block-scope atomics and tag instructions, group 0x5 (R156 to R174). -/

namespace Sys2Proof.Machine

/-- Which wave roles a buffer admits (R158): everyone the A-buffer, general and matrix the W-buffer, all but copy the
C-buffer. -/
def roleReaches (r : Role) (sp : Space) : Bool :=
  match sp, r with
  | .a, _ => true
  | _, .general => true
  | _, .matrix => true
  | .c, .epilogue => true
  | _, _ => false

/-- The OP of the executing bundle, for the traps that report it (R246). -/
def tDenied (op : Nat) : TrapReq := trapI tcDenied op

/-- base + index + off8 × size, mod 2³² (R167). -/
def localEa (base index : Word) (off : BitVec 8) (bytes : Nat) : Word :=
  base + index + off.signExtend 32 * BitVec.ofNat 32 bytes

/-- The addresses of the performed threads with the checks 7a to 7d in order (R169): every thread of one check
before the next check. -/
structure Access where
  ts : List Nat
  ea : Nat → Word
  uniform : Bool

/-- A trap of the lowest thread that fails a test. -/
def failThread (ts : List Nat) (bad : Nat → Bool) (t : Nat → TrapReq) : Except TrapReq Unit :=
  match ts.find? bad with
  | some i => .error { t i with thread := i }
  | none => .ok ()

/-- A check that fails for every performed thread reports the lowest of them (R169). -/
def lowest {α : Type} (ts : List Nat) (r : Except TrapReq α) : Except TrapReq α :=
  match r with
  | .ok x => .ok x
  | .error t => .error { t with thread := ts.headD 0 }

/-- A check over the performed threads: none where nothing is performed (R169). -/
def overEach (ts : List Nat) (r : Except TrapReq Unit) : Except TrapReq Unit := if ts.isEmpty then .ok () else lowest ts r

/-- A scalar destination (R96). -/
def scalarDst (d : Opnd) : Bool := d.isScalarReg

/-- The threads an access performs: those of its guard, or, with a scalar destination, one where the guard holds in any
(R96, R169, log entry 45). -/
def State.performed (s : State) (g : Guard) (scalarD : Bool) : List Nat :=
  let ts := threads (s.guardMask g)
  if scalarD then (if ts.isEmpty then [] else [0]) else ts

/-- Threads, addresses and uniformity of an access; with a scalar destination the slots are scalar and one element is
performed (R168, R172). -/
def State.access (s : State) (g : Guard) (scalarD : Bool) (base index : Opnd) (off : BitVec 8) (bytes : Nat) :
    Except TrapReq Access := do
  let b := s.src base
  let i := s.src index
  let ts := s.performed g scalarD
  overEach ts (check (!scalarD || b.isUni) (trapI tcShape base.toByte.toNat))
  overEach ts (check (!scalarD || i.isUni) (trapI tcShape index.toByte.toNat))
  .ok ⟨ts, fun t => localEa (b.at t) (i.at t) off bytes, b.isUni && i.isUni⟩

/-- Checks 7b to 7d of a local access (R169); the last address must lie inside `limit` bytes. -/
def State.localChecks (s : State) (x : Access) (sp : Space) (op bytes limit : Nat) : Except TrapReq Unit := do
  overEach x.ts (check (roleReaches s.w.role sp) (tDenied op))
  failThread x.ts (fun t => (x.ea t).toNat % bytes != 0) fun t => ⟨tcMisaligned, t, x.ea t, 0⟩
  failThread x.ts (fun t => !decide ((x.ea t).toNat + bytes ≤ limit)) fun t => ⟨tcProtection, t, x.ea t, 0⟩

/-- Register j of a loaded element: bytes 4j + 3 to 4j, extended (R168, R76). -/
def loadWord (z : Size) (sx : Bool) (bs : List Byte) (j : Nat) : Word :=
  match z with
  | .b8 => if sx then wI (intOf 8 true (leNat bs)) else w32 (leNat bs)
  | .b16 => if sx then wI (intOf 16 true (leNat bs)) else w32 (leNat bs)
  | _ => w32 (fieldAt bs (4 * j) 4)

/-- The registers a load writes from each thread's bytes: UNI from a uniform address, else GEN (R168). -/
def loadRegs (z : Size) (sx uniform : Bool) (first : Nat) (bytes : Nat → List Byte) : List VReg :=
  (List.range z.regs).map fun j =>
    if uniform then .uni (loadWord z sx (bytes first) j)
    else .gen ((List.range 32).map fun t => loadWord z sx (bytes t) j)

/-- The bytes of an element from a data slot: registers of a group by size; an inline constant's high words are its
sign or zero (R49, R171; log entry 19). -/
def State.dataWord (s : State) (d : Opnd) (j t : Nat) : Word :=
  match d with
  | .k n => if j = 0 then inlineConst n.val else if (inlineConst n.val).getLsbD 31 && n.val = 4 then 0xFFFFFFFF#32 else 0
  | .null => 0
  | d => (s.src (Opnd.plus d j)).at t

def State.dataBytes (s : State) (d : Opnd) (z : Size) (t : Nat) : List Byte :=
  ((List.range z.regs).flatMap fun j => leBytes 4 (s.dataWord d j t).toNat).take z.bytes

/-- A local load, delivered inside its own window (R168, R171). -/
def State.localLoad (s : State) (o : LocalOp) (sp : Space) (op : Nat) : Except TrapReq State := do
  let x ← s.access o.g (scalarDst o.d) o.a o.b o.off o.size.bytes
  s.localChecks x sp op o.size.bytes (s.g.size sp)
  if x.ts.isEmpty then .ok s else
  let bytes (t : Nat) : List Byte := s.bufGet s.w.wg sp (x.ea t).toNat o.size.bytes
  let first := x.ts.headD 0
  let regs := loadRegs o.size o.sx x.uniform first bytes
  let s' ← lowest x.ts (s.writeGroup o.d (s.guardMask o.g) 0 regs)
  .ok (s'.openDone s o.la (groupOf o.d o.size.regs))

/-- A local store: elements in ascending thread order, the higher thread prevailing (R170). -/
def State.localStore (s : State) (o : LocalOp) (sp : Space) (op : Nat) : Except TrapReq State := do
  let x ← s.access o.g false o.a o.b o.off o.size.bytes
  s.localChecks x sp op o.size.bytes (s.g.size sp)
  let c := s.cur
  let wg := s.w.wg
  .ok (x.ts.foldl (fun s' t =>
    ((s'.bufWrite c.core wg sp (x.ea t).toNat (s.dataBytes o.d o.size t) (.wave s.w.idx))).staleOwn false (x.ea t).toNat o.size.bytes)
    (s.noteAll c.core wg s.w.idx sp (x.ts.map fun t => (x.ea t).toNat) o.size.bytes))

def execLdA (o : LocalOp) : State → Res := isa fun s => s.localLoad o .a 0x140
def execStA (o : LocalOp) : State → Res := isa fun s => s.localStore o .a 0x141
def execLdW (o : LocalOp) : State → Res := isa fun s => s.localLoad o .w 0x142

/-- Byte offsets in a tile, checked against 1,024 and the tile against cbuf (R156, R171). -/
def State.tileAccess (s : State) (o : TileOp) (scalarD : Bool) (op : Nat) : Except TrapReq Access := do
  let x ← s.access o.g scalarD o.a .null o.off o.size.bytes
  overEach x.ts (check (roleReaches s.w.role .c) (tDenied op))
  failThread x.ts (fun t => (x.ea t).toNat % o.size.bytes != 0) fun t => ⟨tcMisaligned, t, x.ea t, 0⟩
  failThread x.ts (fun _ => !decide (o.tile.toNat < s.g.tc.length)) fun t => ⟨tcProtection, t, w32 o.tile.toNat, 0⟩
  failThread x.ts (fun t => !decide ((x.ea t).toNat < 1024)) fun t => ⟨tcProtection, t, x.ea t, 0⟩
  .ok x

/-- ld.c; a tile that an issued matrix instruction will write reads unpredictable elements (R223). -/
def execLdC (o : TileOp) : State → Res :=
  isa fun s => do
    let x ← s.tileAccess o (scalarDst o.d) 0x143
    if x.ts.isEmpty then .ok s else
    let busy := s.busyDst s.cur.core s.w.wg o.tile.toNat
    let bytes (t : Nat) : List Byte :=
      if busy then (List.range o.size.regs).flatMap fun j => leBytes 4 (s.word 10 (j * 32 + t)).toNat
      else s.bufGet s.w.wg .c (o.tile.toNat * 1024 + (x.ea t).toNat) o.size.bytes
    let regs := loadRegs o.size false x.uniform (x.ts.headD 0) bytes
    let s' ← lowest x.ts (s.writeGroup o.d (s.guardMask o.g) 0 regs)
    .ok (s'.openDone s o.la (groupOf o.d o.size.regs))

def execStC (o : TileOp) : State → Res :=
  isa fun s => do
    let x ← s.tileAccess o false 0x144
    let c := s.cur
    let wg := s.w.wg
    let at_ (t : Nat) : Nat := o.tile.toNat * 1024 + (x.ea t).toNat
    .ok (x.ts.foldl (fun s' t => s'.bufWrite c.core wg .c (at_ t) (s.dataBytes o.d o.size t) (.wave s.w.idx))
      (s.noteAll c.core wg s.w.idx .c (x.ts.map at_) o.size.bytes))

/-! ### Block-scope atomics (R172, R173) -/

/-- The new value of an atomic (R172), over a width of 32 or 64 bits. -/
def atomNew (op : AtomOp) (w : Nat) (old data : Nat) : Nat :=
  let lt (a b : Nat) : Bool := decide (intOf w true a < intOf w true b)
  match op with
  | .add => (old + data) % 2 ^ w
  | .minS => if lt data old then data else old
  | .maxS => if lt old data then data else old
  | .minU => if data < old then data else old
  | .maxU => if old < data then data else old
  | .and => old &&& data
  | .or => old ||| data
  | .xor => old ^^^ data
  | .exch => data
  | .addF => (fopAdd Mods.plain 0 (w32 old) (w32 data)).toNat

/-- An A-buffer read-modify-write of each performed thread in ascending order; old values by thread. Where f gives no new
value nothing is written (R173). -/
def State.localRmw (s : State) (ts : List Nat) (ea : Nat → Nat) (f : Nat → Nat → Option Nat) : State × List (Nat × Nat) :=
  let core := s.cur.core
  let wg := s.w.wg
  ts.foldl (fun (acc : State × List (Nat × Nat)) t =>
    let old := leNat (acc.1.bufGet wg .a (ea t) 4)
    let put : State := match f t old with
      | some x => acc.1.bufWrite core wg .a (ea t) (leBytes 4 x) (.wave s.w.idx)
      | none => acc.1
    let s := (put.acquireVia core wg s.w.idx (.word (ea t / 4))).releaseVia core wg s.w.idx (.word (ea t / 4))
    (s.staleOwn false (ea t) 4, (t, old) :: acc.2)) (s.noteAll core wg s.w.idx .a (ts.map ea) 4, [])

def oldOf (os : List (Nat × Nat)) (t : Nat) : Word := w32 ((os.find? fun e => e.1 == t).map (·.2) |>.getD 0)

/-- The shared body of atom.a and cas.a. Rows are checked before any element is performed (7e). -/
def State.localAtomic (s : State) (g : Guard) (la : BitVec 4) (d a index : Opnd) (off : BitVec 8) (data : List Opnd) (op : Nat)
    (f : Nat → Nat → Option Nat) : Except TrapReq State := do
  let sc := scalarDst d
  let x ← s.access g sc a index off 4
  for o in data do
    overEach x.ts (check (!sc || (s.src o).isUni) (trapI tcShape o.toByte.toNat))
  s.localChecks x .a op 4 (s.g.size .a)
  if x.ts.isEmpty then .ok s else
  let r := s.localRmw x.ts (fun t => (x.ea t).toNat) f
  let val : VReg := if sc then .uni (oldOf r.2 0) else .gen ((List.range 32).map (oldOf r.2))
  let s' ← lowest x.ts (r.1.writeD d val (s.guardMask g))
  .ok (s'.openDone s la (groupOf d 1))

def execAtomA (g : Guard) (la : BitVec 4) (d a b : Opnd) (off : BitVec 8) (op : AtomOp) : State → Res :=
  isa fun s => s.localAtomic g la d a .null off [b] 0x145 fun t old => some (atomNew op 32 old ((s.src b).at t).toNat)

def execCasA (g : Guard) (la : BitVec 4) (d a b c : Opnd) : State → Res :=
  isa fun s => s.localAtomic g la d a .null 0 [b, c] 0x146 fun t old =>
    if old = ((s.src b).at t).toNat then some ((s.src c).at t).toNat else none

/-! ### Tags (R174) -/

/-- The first tile and the count of a tag instruction, checked. -/
def State.tagRun (s : State) (o : TagOp) : Except TrapReq (List Nat) := do
  let base ← s.scalar o.a
  check (o.space == .c || base.toNat % 1024 == 0) ⟨tcMisaligned, 0, base, 0⟩
  let first := (if o.space == .c then base.toNat else base.toNat / 1024) + o.off.toNat
  let cnt := o.cnt.toNat + 1
  check (decide (first + cnt ≤ (s.g.tags o.space).length)) ⟨tcProtection, 0, w32 first, 0⟩
  .ok ((List.range cnt).map (· + first))

def tagWrite (o : TagOp) (v : Bool) (t : Tag) : Tag :=
  { t with v := if o.v then v else t.v, c := if o.c then v else t.c }

/-- The executing wave releases its writes by the tags of some tiles, or acquires what they released (R221). -/
def State.releaseTiles (s : State) (sp : Space) (ts : List Nat) : State :=
  ts.foldl (fun s t => s.releaseVia s.cur.core s.w.wg s.w.idx (.tile sp t)) s
def State.acquireTiles (s : State) (sp : Space) (ts : List Nat) : State :=
  ts.foldl (fun s t => s.acquireVia s.cur.core s.w.wg s.w.idx (.tile sp t)) s

def execTagset (o : TagOp) : State → Res :=
  isa fun s => do
    let ts ← s.tagRun o
    .ok ((s.modG fun g => g.modTags o.space ts (tagWrite o true)).releaseTiles o.space ts)
def execTagclr (o : TagOp) : State → Res :=
  isa fun s => do
    let ts ← s.tagRun o
    .ok ((s.modG fun g => g.modTags o.space ts (tagWrite o false)).releaseTiles o.space ts)

/-- Whether every named bit of a run has the named value. -/
def WGrp.tagsAre (g : WGrp) (sp : Space) (ts : List Nat) (v c val : Bool) : Bool :=
  ts.all fun t => (!v || (g.tag sp t).v == val) && (!c || (g.tag sp t).c == val)

def execTagwait (o : TagOp) (clr : Bool) : State → Res :=
  isaCtl fun s => do
    let ts ← s.tagRun o
    s.settled fun s =>
      if s.g.tagsAre o.space ts o.v o.c (!clr) then .ok (s.acquireTiles o.space ts).advance
      else .ok (s.wait (.tiles o.space (ts.headD 0) ts.length o.v o.c (!clr)))

/-- waitc (R179): at or below the threshold, or one of 255 or more, completes at once. -/
def execWaitc (a : Opnd) (path : Path) : State → Res :=
  isaCtl fun s => do
    let x ← s.scalar a
    s.settled fun s =>
      if s.w.count path ≤ x.toNat then .ok s.advance else .ok (s.wait (.counter path x.toNat))

end Sys2Proof.Machine
end

