-- ==== Sys2Proof/Machine/Barriers.lean ====
section
/-! DEFINITION. Named barriers, group 0x8 of the opcode map (R180 to R189). -/

namespace Sys2Proof.Machine

def WGrp.bar (g : WGrp) (k : Nat) : Bar := g.bars.getD k Bar.blank
def State.bar (s : State) (wg k : Nat) : Bar := (s.wg wg).bar k
def State.modBar (s : State) (wg k : Nat) (f : Bar → Bar) : State :=
  s.modWg wg fun g => { g with bars := g.bars.set k (f (g.bar k)) }

/-! ### The fields of a parity (R181) -/

def Bar.cnt (b : Bar) (q : Bool) : Int := if q then b.cnt1 else b.cnt0
def Bar.seen (b : Bar) (q : Bool) : Bool := if q then b.seen1 else b.seen0
def Bar.lwt (b : Bar) (q : Bool) : DWord := if q then b.lwt1 else b.lwt0
def Bar.lwtc (b : Bar) (q : Bool) : DWord := if q then b.lwtc1 else b.lwtc0
def Bar.setCnt (b : Bar) (q : Bool) (v : Int) : Bar := if q then { b with cnt1 := v } else { b with cnt0 := v }
def Bar.setSeen (b : Bar) (q v : Bool) : Bar := if q then { b with seen1 := v } else { b with seen0 := v }
def Bar.setLwt (b : Bar) (q : Bool) (v : DWord) : Bar := if q then { b with lwt1 := v } else { b with lwt0 := v }

/-- Satisfied() of R182. -/
def Bar.satisfied (b : Bar) : Bool := (1 ≤ b.exp && b.arr == b.exp) || (b.exp == 0 && b.seen b.ph)

/-- What Flip() leaves of a barrier. -/
def Bar.flipped (b : Bar) : Bar :=
  let p := b.ph
  let b := if p then { b with lwtc1 := b.lwt1 } else { b with lwtc0 := b.lwt0 }
  { (b.setSeen p false).setLwt p 0 with ph := !p, arr := 0 }

/-- A count held inside 32 signed bits, and whether it was outside (R182). -/
def clampCnt (v : Int) : Int × Bool :=
  if v < -2147483648 then (-2147483648, true) else if 2147483647 < v then (2147483647, true) else (v, false)

/-! ### Releases and errors (R182, R183) -/

/-- The splits parked on a barrier, by core, context and id. -/
def State.parkedOn (s : State) (wg k : Nat) : List (Cursor × Bool) :=
  s.cores.flatMap fun c => c.2.waves.flatMap fun w =>
    if w.2.wg = wg then w.2.splits.filterMap fun p => match p.status with
      | .waiting (.barrier j par) => if j = k then some (⟨c.1, w.1, p.id⟩, par) else none
      | _ => none
    else []

def Split.parkedAt (p : Split) (k : Nat) (par : Bool) : Bool := p.status == Status.waiting (Wait.barrier k par)

/-- A parked split goes on past its wait. -/
def Split.leaveBar (p : Split) (k : Nat) (par : Bool) : Split :=
  if p.parkedAt k par then { p with pc := p.pc + 8, status := .running, arrived := false } else p

def Wave.leaveBar (w : Wave) (k : Nat) (par : Bool) (t : DWord) : Wave :=
  if w.splits.any (·.parkedAt k par) then
    { w with lwt := maxD w.lwt t, lwtSet := w.lwtSet || t != 0, splits := w.splits.map fun p => p.leaveBar k par }
  else w

/-- The waves of a workgroup changed, wherever they are. -/
def State.modWaves (s : State) (wg : Nat) (f : Wave → Wave) : State :=
  { s with cores := s.cores.map fun c =>
      (c.1, { c.2 with waves := c.2.waves.map fun w => if w.2.wg = wg then (w.1, f w.2) else w }) }

/-- Splits parked with a parity go on past their wait, and their waves take its time (R182) and what was released to it
(R221). -/
def State.releaseBar (s : State) (wg k : Nat) (par : Bool) (t : DWord) : State :=
  let s := ((s.parkedOn wg k).filter (·.2 == par)).foldl
    (fun s c => s.acquireVia c.1.core wg (s.wave c.1.core c.1.ctx).idx (.bar k par)) s
  s.modWaves wg fun w => w.leaveBar k par t

/-- The record class of a cause (R183). -/
def causeClass (c : Nat) : Nat :=
  match c with
  | 4 => tcDenied
  | 5 => tcProtection
  | 6 => tcTranslation
  | 7 => tcEncoding
  | 8 => tcData
  | _ => tcOverrun

def barInfo (k : Nat) (b : Bar) : Nat := k + b.cause * 64

/-- A split that is still parked takes BARRIER_OVERRUN at its wait. In a wave that is being stopped, or while a sibling's
handler is active, the wait issues again later and traps then (R183, R241, R247). -/
def State.overrun (s : State) (k : Nat) (b : Bar) (c : Cursor) (par : Bool) : State :=
  let w := s.wave c.core c.ctx
  let p := (w.split? c.split).getD Split.blank
  if !p.parkedAt k par || w.stop != .none then s
  else if w.handler.any (· != c.split) then s.modWave c.core c.ctx fun w => w.modSplit c.split fun p => { p with status := .running }
  else s.raiseAt c.core c.ctx c.split (trapI tcOverrun (barInfo k b)) ⟨p.pc, false⟩

/-- SetError(c): the first cause stays, one record with a detail, and every parked split traps (R183). -/
def State.barErrorAs (s : State) (wg k cause : Nat) (addr : DWord) (virt unc : Bool) (detail : Nat) : State :=
  let s := s.modBar wg k fun b => { b with err := true, cause := if b.err then b.cause else cause }
  let g := s.wg wg
  let b := g.bar k
  let s := s.record (causeClass cause) ⟨addr, 0, g.core.getD 0, (s.grid g.grid).d.stage, virt, unc, 255, g.grid, detail⟩
  (s.parkedOn wg k).foldl (fun s c => s.overrun k b c.1 c.2) s

/-- SetError with the detail word that this model gives every class: the barrier's index, and CAUSE from bit 6 (log entry 61). -/
def State.barError (s : State) (wg k cause : Nat) (addr : DWord) (virt unc : Bool) : State :=
  s.barErrorAs wg k cause addr virt unc (k + cause * 64)

/-- SetError for a translation fault of an engine's request, whose record marks a malformed entry above those bits (R316). -/
def State.barFault (s : State) (wg k : Nat) (addr : DWord) (mal : Bool) : State :=
  s.barErrorAs wg k 6 addr true false (k + 6 * 64 + if mal then 1024 * (1 + Config.malformedMark % (2 ^ 20)) else 0)

/-- Check() of R182: at most one flip of each parity can follow. -/
def State.barCheck (wg k : Nat) : Nat → State → State
  | 0, s => s
  | n + 1, s =>
    let b := s.bar wg k
    if b.err || !b.satisfied then s
    else if b.cnt b.ph = 0 then
      let p := b.ph
      let s := s.releaseBar wg k p (b.lwt p)
      State.barCheck wg k n (s.modBar wg k Bar.flipped)
    else if b.cnt b.ph < 0 then s.barError wg k 1 0 false false
    else s

/-- Arrive() of R182. -/
def State.barArrive (s : State) (wg k : Nat) : State :=
  let b := s.bar wg k
  if b.exp = 0 || b.satisfied then s.barError wg k 2 0 false false
  else State.barCheck wg k 3 (s.modBar wg k fun b => { b with arr := b.arr + 1 })

/-- A change of CNT by d on parity q, held in range (R182). -/
def State.barCount (s : State) (wg k : Nat) (q : Bool) (d : Int) (f : Bar → Bar) : State :=
  let v := clampCnt ((s.bar wg k).cnt q + d)
  let s := s.modBar wg k fun b => f (b.setCnt q v.1)
  let s := if v.2 then s.barError wg k 3 0 false false else s
  State.barCheck wg k 3 s

/-- Expect(q, n) and Bytes(q, n, t) of R182. -/
def State.barExpect (s : State) (wg k : Nat) (q : Bool) (n : Nat) : State := s.barCount wg k q n fun b => b.setSeen q true
def State.barBytes (s : State) (wg k : Nat) (q : Bool) (n : Nat) (t : Option DWord) : State :=
  s.barCount wg k q (-(n : Int)) fun b => match t with
    | some x => b.setLwt q (maxD (b.lwt q) x)
    | none => b

/-! ### The instructions (R180, R184, R186 to R189) -/

/-- Order 7: the barrier is one of the workgroup's. -/
def State.barK (s : State) (k : BitVec 6) : Except TrapReq Nat := do
  check (decide (k.toNat < s.g.bars.length)) (trapI tcProtection 0)
  .ok k.toNat

/-- The executing wave's record of a barrier becomes valid with its parity, and its writes are released to that phase
(R185, R221). -/
def State.noteArrival (s : State) (k : Nat) : State :=
  let ph := (s.g.bar k).ph
  (s.releaseVia s.cur.core s.w.wg s.w.idx (.bar k ph)).modW fun w => { w with
    recValid := w.recValid ||| 1#48 <<< k
    recPar := if ph then w.recPar ||| 1#48 <<< k else w.recPar &&& ~~~(1#48 <<< k) }

/-- Every wave of a workgroup forgets its record of a barrier, a saved one in its area (R181, R243). -/
def State.clearRecords (s : State) (wg k : Nat) : State :=
  let off := ~~~(1#48 <<< k)
  let s := s.modWaves wg fun w => { w with recValid := w.recValid &&& off, recPar := w.recPar &&& off }
  (s.saved.filter fun x => x.wg == wg).foldl (fun s x =>
    let clear (s : State) (o : Nat) : State :=
      s.physPuts (x.addr + o) (leBytes 8 (BitVec.ofNat 48 (s.physNat (x.addr + o) 8) &&& off).toNat)
    clear (clear s 0x148) 0x150) s

/-- A WG register that an instruction of the executing wave still owes: an arrival counts after it is written (R185). -/
def State.owesWg (s : State) : Bool :=
  s.w.flying.any fun a => !a.done && (match a.dst with | .wg _ => true | _ => false)

/-- An arrival waits at its instruction until the wave's WG writes are performed (R185). -/
def State.wgFirst (s : State) (f : State → Except TrapReq State) : Except TrapReq State :=
  if s.owesWg then .ok s.stall else f s

/-- binit: a split parked with parity 1 sees PH differ from it and goes on; one parked with parity 0 stays (R184, R186). -/
def execBinit (k : BitVec 6) (a : Opnd) : State → Res :=
  isa fun s => do
    let j ← s.barK k
    let n ← s.scalar a
    check (decide (n.toNat ≤ 64)) (trapI tcProtection 0)
    let wg := s.w.wg
    let s := (s.modBar wg j fun _ => { Bar.blank with exp := n.toNat }).clearRecords wg j
    .ok (s.releaseBar wg j true 0)

/-- barr: the arrival follows the wave's WG writes (R185). -/
def execBarr (k : BitVec 6) : State → Res :=
  isaCtl fun s => do
    let j ← s.barK k
    s.wgFirst fun s => .ok (((s.noteArrival j).advance).barArrive s.w.wg j)

def execBexp (k : BitVec 6) (a : Opnd) (nx : Bool) : State → Res :=
  isaCtl fun s => do
    let j ← s.barK k
    let n ← s.scalar a
    .ok (s.advance.barExpect s.w.wg j ((s.g.bar j).ph != nx) n.toNat)

/-- A wait with a parity (R184): past it, parked, or trapped. -/
def State.barWait (s : State) (k : Nat) (q : Bool) : State :=
  let b := s.g.bar k
  if b.err then s.raiseLate (trapI tcOverrun (barInfo k b))
  else if b.ph != q then
    let s := (s.acquireVia s.cur.core s.w.wg s.w.idx (.bar k q)).modW fun w =>
      { w with lwt := maxD w.lwt (b.lwtc q), lwtSet := w.lwtSet || b.lwtc q != 0 }
    (s.modSp fun p => { p with arrived := false }).advance
  else s.wait (.barrier k q)

/-- The parity a wait takes from the wave's record, or PH where the record is invalid (R188). -/
def State.recPar? (s : State) (k : Nat) : Bool :=
  if s.w.recValid.getLsbD k then s.w.recPar.getLsbD k else (s.g.bar k).ph

def execBwait (k : BitVec 6) (p : Option Opnd) : State → Res :=
  isaCtl fun s => do
    let j ← s.barK k
    let q ← match p with
      | some a => do let x ← s.scalar a; .ok (x.getLsbD 0)
      | none => .ok (s.recPar? j)
    s.settled fun s => .ok (s.barWait j q)

/-- barrw: an arrival, unless a saved or retried barrw already made it, then the wait (R188, R247). -/
def execBarrw (k : BitVec 6) : State → Res :=
  isaCtl fun s => do
    let j ← s.barK k
    s.settled fun s => s.wgFirst fun s =>
      if s.sp.arrived then .ok (s.barWait j (s.recPar? j))
      else if (s.g.bar j).err then .error (trapI tcOverrun (barInfo j (s.g.bar j)))
      else
        let s := ((s.noteArrival j).modSp fun p => { p with arrived := true }).barArrive s.w.wg j
        .ok (if s.live then s.barWait j (s.recPar? j) else s)

/-- The state word of R189. -/
def Bar.word (b : Bar) (valid par : Bool) : Word :=
  w32 (b.ph.toNat + b.err.toNat * 2 + b.cause % 16 * 4 + b.bind.isSome.toNat * 64 + b.arr % 128 * 128 + b.exp % 128 * 16384
    + (b.seen b.ph).toNat * 2 ^ 21 + valid.toNat * 2 ^ 22 + par.toNat * 2 ^ 23)

def execBtest (k : BitVec 6) (d : Opnd) (cnt nx : Bool) : State → Res :=
  isa fun s => do
    let j ← s.barK k
    let b := s.g.bar j
    let x := if cnt then wI (b.cnt (b.ph != nx)) else b.word (s.w.recValid.getLsbD j) (s.w.recPar.getLsbD j)
    s.writeD d (.uni x) s.sp.mask

def execBbind (k : BitVec 6) (a : Opnd) : State → Res :=
  isa fun s => do
    let j ← s.barK k
    let x ← s.scalar a
    let wg := s.w.wg
    if x = 0xFFFFFFFF#32 then .ok (s.modBar wg j fun b => { b with bind := none })
    else do
      check (x.toNat % 1024 == 0) ⟨tcMisaligned, 0, x, 0⟩
      check (decide (x.toNat + 1024 ≤ s.g.size .a)) ⟨tcProtection, 0, x, 0⟩
      check (!((List.range s.g.bars.length).any fun i => i != j && (s.g.bar i).bind == some x.toNat)) ⟨tcProtection, 0, x, 0⟩
      .ok (s.modBar wg j fun b => { b with bind := some x.toNat })

/-- The barrier of a workgroup bound at an A-buffer address (R187). -/
def WGrp.boundAt (g : WGrp) (addr : Nat) : Option Nat := (List.range g.bars.length).find? fun i => (g.bar i).bind == some addr

end Sys2Proof.Machine
end

