-- ==== Sys2Proof/Machine/Noc.lean ====
section
/-! DEFINITION. The die's network: homes and channels of an address, ring stops, stations and the fixed route of a flit
(R308, R309, R311, R437), and the lines of a slice (R312, R313). -/

namespace Sys2Proof.Machine

/-! ### Homes and channels (R311, R312) -/

/-- The home slice of an LPDDR 6 or ring address (R311). -/
def sliceOf (pa : Nat) : Nat := bitsOf pa 8 8 ^^^ bitsOf pa 16 8 ^^^ bitsOf pa 24 8 ^^^ bitsOf pa 32 8 ^^^ bitsOf pa 40 8
/-- The LPDDR 6 channel of an address (R311). -/
def chanOf (pa : Nat) : Nat := bitsOf pa 10 6 ^^^ bitsOf pa 16 6 ^^^ bitsOf pa 22 6 ^^^ bitsOf pa 28 6 ^^^ bitsOf pa 34 6
/-- The set of a line in its slice, and in an L1 (R166, R312). -/
def l2Set (line : Nat) : Nat := bitsOf (line * 128) 8 8 ^^^ bitsOf (line * 128) 16 8
def l1Set (line : Nat) : Nat := line % 64

/-! ### Stops, stations and routes (R308, R437) -/

/-- Where an agent meets the rings: a stop of a quadrant, or the station Q0–Q1. -/
inductive Seat where
  | stop (quad stop : Nat) | station
  deriving DecidableEq, Repr

/-- A cluster's stop, a slice's stop, and where each source sits: the launch unit, the command processors and the fabric
port are at the station Q0–Q1, and with them the strip scheduler; a bridle unit is at its slice and what serves a cluster at its
cluster (log entry 77). -/
def clusterSeat (c : Nat) : Seat := .stop (c / 32) (c % 32)
def sliceQuad (k : Nat) : Nat := k / 64
def sliceStop (k : Nat) : Nat := 32 + k % 64 / 4
def sliceSeat (k : Nat) : Seat := .stop (sliceQuad k) (sliceStop k)
def Source.seat : Source → Seat
  | .core k | .engine k _ => clusterSeat (k / 16)
  | .unit k _ | .walker k => clusterSeat k
  | .bridle u => sliceSeat u
  | .launch | .cp _ | .port | .strips => .station

/-- The ring pairs of a quadrant: A carries requests and B responses. -/
inductive RingPair where
  | a | b
  deriving DecidableEq, Repr

/-- One passage over a ring of a quadrant's pair, from stop to stop. -/
structure Leg where
  pair : RingPair
  quad : Nat
  from_ : Nat
  to_ : Nat
  deriving DecidableEq, Repr

/-- The stop of a quadrant at its station toward a neighbour: 49 toward the next quadrant, 48 toward the one before. -/
def stationStop (q r : Nat) : Nat := if r = (q + 1) % 4 then 49 else 48

/-- The quadrants a flit passes; between opposite ones, the lower-numbered neighbour of the source lies between. -/
def quadPath (q r : Nat) : List Nat :=
  if q = r then [q] else if (q + 2) % 4 = r then [q, min ((q + 1) % 4) ((q + 3) % 4), r] else [q, r]

/-- The legs through some quadrants, from a stop of the first to a stop of the last. -/
def legsOf (p : RingPair) (a : Nat) : List Nat → Nat → List Leg
  | [], _ => []
  | [q], b => [⟨p, q, a, b⟩]
  | q :: r :: qs, b => ⟨p, q, a, stationStop q r⟩ :: legsOf p (stationStop r q) (r :: qs) b

/-- The quadrant and the stop by which the flits of a quadrant meet the station Q0–Q1: those of 0 and 3 by quadrant 0, those of
1 and 2 by quadrant 1. -/
def stationDoor (q : Nat) : Nat × Nat := if q = 0 || q = 3 then (0, 49) else (1, 48)

/-- The route of a flit: a fixed function of where it comes from and where it goes. -/
def route (p : RingPair) (x y : Seat) : List Leg :=
  match x, y with
  | .stop q a, .stop r b => legsOf p a (quadPath q r) b
  | .station, .stop r b => legsOf p (stationDoor r).2 (quadPath (stationDoor r).1 r) b
  | .stop q a, .station => legsOf p a (quadPath q (stationDoor q).1) (stationDoor q).2
  | .station, .station => []

/-- The direction of a leg: the fewer hops, a tie clockwise. -/
def Leg.clockwise (l : Leg) : Bool := decide ((l.to_ + 50 - l.from_) % 50 ≤ (l.from_ + 50 - l.to_) % 50)
def Leg.hops (l : Leg) : Nat := if l.clockwise then (l.to_ + 50 - l.from_) % 50 else (l.from_ + 50 - l.to_) % 50

/-- A cycle of the 2.0 GHz clock in tu. -/
def nocTu : Nat := Config.tuPerNs / 2

/-- The time a flit takes where no other holds it up: one cycle for each hop, and one for each station it passes, enters or
leaves by (log entry 77). -/
def transit (p : RingPair) (x y : Seat) : Nat :=
  let ls := route p x y
  let ends := (if x = .station then 1 else 0) + (if y = .station then 1 else 0)
  ((ls.map Leg.hops).sum + (ls.length - 1) + (if ls.isEmpty then 0 else ends)) * nocTu

/-- Where the accesses to a physical address are performed: its home slice, or the fabric port. -/
def homeSeat (pa : Nat) : Seat := if isHostPa pa then .station else sliceSeat (sliceOf pa)

/-- The moment a request sent now reaches the place of its address, and that an answer sent now reaches its source. -/
def State.thereAt (s : State) (src : Source) (pa : Nat) : Nat := s.tu + transit .a src.seat (homeSeat pa)
def State.backAt (s : State) (src : Source) (pa : Nat) : Nat := s.tu + transit .b (homeSeat pa) src.seat

/-! ### Sending (R309) -/

/-- A request of priority p: the high class is 6 and 7. -/
def Req.of (core ctx acc elem pa p : Nat) (src : Source) (for_ : Purpose) : Req :=
  ⟨core, ctx, acc, elem, pa, decide (6 ≤ p), false, src, 0, 0, 0, for_⟩

/-- A request of the wave in a context; one that drains sends in the high class, ahead of all others (R241, R403). -/
def State.waveReq (s : State) (core ctx acc elem pa p : Nat) (for_ : Purpose) : Req :=
  let stopped := (s.wave? core ctx).any fun w => w.stop == .draining
  { Req.of core ctx acc elem pa p (.core core) for_ with high := decide (6 ≤ p) || stopped, drain := stopped }

/-- A request on its way to its home slice, in the order of sending. -/
def State.sendReq (s : State) (r : Req) : State :=
  let there := s.thereAt r.src r.pa
  let r := { r with seq := s.nextTag, due := there, head := there }
  ({ s with nextTag := s.nextTag + 1 } : State).modSlice (sliceOf r.pa) fun x => { x with q := x.q ++ [r] }

/-- A cluster-scope atomic on its way to its unit, one cycle away (R276). -/
def State.sendUnit (s : State) (r : Req) : State :=
  let r := { r with seq := s.nextTag, due := s.tu + nocTu, head := s.tu + nocTu }
  ({ s with nextTag := s.nextTag + 1 } : State).modCluster (r.core / 16) fun c => { c with atomQ := c.atomQ ++ [r] }

/-- A request that a test names is on its way: in the queue or on a list of a slice, or at the host window. -/
def State.onWay (s : State) (f : Req → Bool) : Bool :=
  s.slices.any (fun x => x.2.q.any f || x.2.lines.any fun l => (l.miss.getD []).any f) || s.hostAccs.any fun h => f h.req

/-! ### The lines of a slice (R275, R312, R358) -/

/-- Slots that the entries of a unit take, of its store or of its spill part (R358). -/
def Slice.slotsOf (x : Slice) (spill : Bool) : List Nat := (x.entries.filter fun e => e.spill == spill).flatMap (·.slots)

/-- Whether a way is lent to the slice's bridle unit: one of 12 to 15 with a slot in use (R358). -/
def Slice.lent (x : Slice) (way : Nat) : Bool := (x.slotsOf false).any fun i => 12 + i / 32 == way

/-- The recorded expiry of a present line. -/
def Slice.expiryOf (x : Slice) (line : Nat) : DWord := ((x.lines.find? (·.line == line)).map (·.expiry)).getD 0

def Slice.modLine (x : Slice) (line : Nat) (f : L2Line → L2Line) : Slice :=
  { x with lines := x.lines.map fun y => if y.line = line then f y else y }

/-- A claim given up: the home slice and the unit forget it (R275). -/
def State.dropClaim (s : State) (line : Nat) : State :=
  match ((s.slice (sliceOf (line * 128))).lines.find? (·.line == line)).bind (·.claim) with
  | some k =>
    (s.modCluster k fun c => { c with claims := c.claims.filter (·.line != line) }).modSlice (sliceOf (line * 128))
      fun x => x.modLine line fun y => { y with claim := none }
  | none => s

/-- The least recently used line of some. -/
def oldestLine (ls : List L2Line) : Option L2Line :=
  ls.foldl (fun b y => match b with
    | none => some y
    | some z => if y.used < z.used then some y else b) none

/-- The lowest way of a line's set that is neither lent nor holds a line. -/
def Slice.freeWay (x : Slice) (line : Nat) : Option Nat :=
  (List.range 16).find? fun w => !x.lent w && !(x.lines.any fun y => y.way == w && l2Set y.line == l2Set line)

/-- A new line, with the eviction horizon for its expiry, in a free way of its set; where there is none, in place of the least
recently used line of the set without a miss list, whose claim is given up and whose expiry enters the horizon; none where
every way is excluded (R312). -/
def State.allocate (s : State) (line : Nat) (miss : Option (List Req)) : Option State :=
  let k := sliceOf (line * 128)
  let x := s.slice k
  match x.freeWay line with
  | some w => some (s.modSlice k fun x => { x with lines := ⟨line, x.horizon, s.tu, miss, none, w⟩ :: x.lines })
  | none =>
    (oldestLine (x.lines.filter fun y => l2Set y.line == l2Set line && y.miss.isNone)).map fun v =>
      let h := maxD x.horizon v.expiry
      (s.dropClaim v.line).modSlice k fun x =>
        { x with horizon := h, lines := ⟨line, h, s.tu, miss, none, v.way⟩ :: x.lines.filter (·.line != v.line) }

/-- The ready bit of the channel group of an address (R402, R412). -/
def State.chanReady (s : State) (pa : Nat) : Bool := s.ready.getLsbD (8 + chanOf pa / 8)

/-! ### Pieces of an access -/

/-- The pieces of n bytes at an address between multiples of a size: address, length and place in the bytes. -/
def piecesGo (size pa : Nat) : Nat → Nat → Nat → List (Nat × Nat × Nat)
  | 0, _, _ => []
  | fuel + 1, n, at_ =>
    if n = 0 then []
    else
      let m := min n (size - pa % size)
      (pa, m, at_) :: piecesGo size (pa + m) fuel (n - m) (at_ + m)
def piecesOf (size pa n : Nat) : List (Nat × Nat × Nat) := piecesGo size pa (n / size + 2) n 0

/-- Lines of 128 bytes, and the aligned 16-byte parts that an access wider than these decomposes into (R333). -/
def linePieces (pa n : Nat) : List (Nat × Nat × Nat) := piecesOf 128 pa n
def partsAt (pa n : Nat) : List (Nat × Nat × Nat) := piecesOf 16 pa n

end Sys2Proof.Machine
end

