-- ==== Sys2Proof/Machine/HostPort.lean ====
section
/-! DEFINITION. The elements of global instructions, and the fabric port's way out: packets in a connection's window
and the accesses to the host window (R416, R417, R419). -/

namespace Sys2Proof.Machine

/-! ### Elements -/

/-- What an instruction needs of a page, and where its elements are performed. -/
def ElemOp.writes : ElemOp → Bool
  | .load _ => false
  | .tex => false
  | _ => true

def Acc.setElem (a : Acc) (i : Nat) (f : Elem → Elem) : Acc :=
  match a.elems[i]? with
  | some e => { a with elems := a.elems.set i (f e) }
  | none => a

def State.modElem (s : State) (r : Req) (f : Elem → Elem) : State :=
  s.modWave r.core r.ctx fun w => w.modAcc r.acc fun a => a.setElem r.elem f

def State.acc? (s : State) (core ctx id : Nat) : Option Acc :=
  (s.wave? core ctx).bind fun w => w.accs.find? (·.id == id)
def State.elem? (s : State) (r : Req) : Option Elem := (s.acc? r.core r.ctx r.acc).bind fun a => a.elems[r.elem]?

def Elem.finish (e : Elem) (ok err : Bool) (ret : List Byte) (t : DWord) : Elem :=
  { e with done := true, ok := ok, err := err, ret := ret, ctime := t }

def Elem.mk0 (t : Nat) (va : DWord) (len : Nat) (data cmp : List Byte) : Elem :=
  ⟨t, va, 0, 0, 0, len, data, cmp, false, false, false, false, [], 0, 0⟩

/-! ### Packets out (R415 to R417) -/

/-- A connection as it opens. -/
def Conn.blank : Conn := ⟨0, [], 0, [], [], false⟩

/-- A message leaves the port; while the link is down it is discarded (R415). -/
def State.emit (s : State) (o : Out) : State := if s.linkUp then { s with out := s.out ++ [o] } else s

/-- A connection sends another packet: its window of 1,024 has room, and none waits before it (R417). -/
def Conn.room (c : Conn) : Bool := !c.failed && c.wait.isEmpty && decide (c.tx.length < 1024)

/-- The packet a connection keeps until it is acknowledged. -/
def Conn.sending (c : Conn) (opcode addr flags : Nat) (payload : List Byte) (tu : Nat) : Conn :=
  { c with txNext := (c.txNext + 1) % 2 ^ 32, tx := c.tx ++ [TxPkt.mk c.txNext opcode addr flags payload 0 tu] }

/-- What a connection acknowledges: every number below the first write not yet acknowledged, or below the next expected;
and beyond it, those received (R416, R418). A write received before its turn is not yet performed. -/
def State.cumAck (s : State) (conn : Nat) : Nat :=
  match s.hostWrites.find? (·.conn == conn) with
  | some w => w.seq
  | none => ((look s.conns conn).getD Conn.blank).rxNext
def Msg.isWrite : Msg → Bool
  | .write _ _ => true
  | _ => false
def State.selAck (s : State) (conn : Nat) : BitVec 32 :=
  let c := (look s.conns conn).getD Conn.blank
  let a := s.cumAck conn
  let ahead := (c.rxNext + 2 ^ 32 - a) % 2 ^ 32
  (List.range 32).foldl (fun m i =>
    let q := (a + 1 + i) % 2 ^ 32
    if (i + 1 < ahead && !(s.hostWrites.any fun w => w.conn == conn && w.seq == q)) || c.early.any (fun e => e.1.seq == q && !e.2.isWrite) then
      m ||| (1#32 <<< i)
    else m) 0

/-- A packet with the next sequence number of a connection leaves. -/
def State.sendNow (s : State) (conn opcode addr flags : Nat) (payload : List Byte) : State :=
  let c := (look s.conns conn).getD Conn.blank
  let s := { s with conns := put s.conns conn (c.sending opcode addr flags payload s.tu) }
  s.emit (.irsin conn opcode c.txNext addr flags payload (s.cumAck conn) (s.selAck conn))

/-- A packet of a connection leaves, or waits for room in its window; a connection that has failed takes none (R417). -/
def State.sendPkt (s : State) (conn opcode addr flags : Nat) (payload : List Byte) : State :=
  let c := (look s.conns conn).getD Conn.blank
  if c.room then s.sendNow conn opcode addr flags payload
  else if c.failed then s
  else { s with conns := put s.conns conn { c with wait := c.wait ++ [(opcode, addr, flags, payload)] } }

/-- Packets that waited leave, oldest first, while the window has room. -/
def State.sendWaiting (s : State) (conn : Nat) : Nat → State
  | 0 => s
  | n + 1 =>
    match look s.conns conn with
    | some c =>
      match c.wait with
      | (op, addr, flags, bs) :: rest =>
        if !c.failed && decide (c.tx.length < 1024) then
          State.sendWaiting (State.sendNow { s with conns := put s.conns conn { c with wait := rest } } conn op addr flags bs) conn n
        else s
      | [] => s
    | none => s

/-! ### The host window (R419) -/

/-- The command processor whose FENCE covers a request: its own, or that of the grid it serves. -/
def State.cpOf (s : State) (r : Req) : Option Nat :=
  match r.src, r.for_ with
  | .cp k, _ => some k
  | _, .elem => (s.grid (s.wave r.core r.ctx).grid).cp
  | _, .copyWrite _ gid _ => (s.grid gid).cp
  | _, _ => none

/-- An access to the host window on its way to the fabric port (R419, R437). -/
def State.hostAsk (s : State) (r : Req) (write : Bool) (len : Nat) (data : List Byte) : State :=
  let wave : Option (Nat × Nat) := match r.for_ with
    | .elem => (s.wave? r.core r.ctx).map fun w => (w.wg, w.idx)
    | _ => none
  { s with
    hostAccs := s.hostAccs ++ [⟨s.nextTag, r, wave, write, len, data, 0, 0, false, s.cpOf r, s.thereAt r.src r.pa⟩]
    nextTag := s.nextTag + 1 }

/-- Opcode, flags and payload of an access: a write, a read request with its length, or an atomic request (R416). -/
def State.hostMsg (s : State) (h : HostAcc) : Nat × Nat × List Byte :=
  match h.req.for_ with
  | .elem =>
    match s.acc? h.req.core h.req.ctx h.req.acc, s.elem? h.req with
    | some a, some e => match a.op with
      | .load _ => (2, 0, leBytes 4 h.len)
      | .tex => (2, 0, leBytes 4 h.len)
      | .atom op => (4, op.code * 4096, e.data)
      | .cas => (4, 10 * 4096, e.cmp ++ e.data)
      | _ => (1, 0, e.data)
    | _, _ => (2, 0, leBytes 4 h.len)
  | _ => if h.write then (1, 0, h.data) else (2, 0, leBytes 4 h.len)

def HostAcc.sentOn (h : HostAcc) (conn seq : Nat) : HostAcc := { h with sent := true, conn := conn, seq := seq }

/-! ### Accesses of the device's units (R307, R341, R418, R421) -/

/-- A unit's access is performed, or met an error: its answer waits for its maker, or counts for what it serves. -/
def State.giveAsk (s : State) (tag : Nat) (bs : Option (List Byte)) (t : DWord) : State :=
  match s.asks.find? (·.tag == tag) with
  | none => s
  | some a =>
    let rest : State := { s with asks := s.asks.filter (·.tag != tag) }
    match a.for_ with
    | .poll => { s with asks := s.asks.map fun x => if x.tag = tag then { x with got := some bs, time := t, back := s.backAt a.src a.pa } else x }
    | .none => rest
    | .grid gid => rest.modGrid gid fun g => { g with sendT := maxD g.sendT t }
    | .hostWrite c q => { rest with hostWrites := rest.hostWrites.map fun w =>
        if w.conn = c && w.seq = q then { w with left := w.left - 1, due := maxD w.due t } else w }
    | .obu i => { rest with streams := change rest.streams i fun x => { x with obu := x.obu.map fun o => (o.1, maxD o.2 t) } }
    | .block wg bar => match bs, a.src with
      | some _, .unit k _ =>
        if (rest.cluster k).kq.head?.any (·.spoiled) then rest else rest.barBytes wg bar (rest.bar wg bar).ph a.len (some t)
      | some _, _ => rest
      | none, .unit k _ => (rest.barErrorAs wg bar 8 (BitVec.ofNat 64 a.pa) false true 0).modCluster k fun c =>
          { c with kq := match c.kq with | q :: qs => { q with spoiled := true } :: qs | [] => [] }
      | none, _ => rest

/-- The maker of a unit's access: its source and which of its tasks the access serves, the chain it acts for, and the core,
context and priority of the wave behind it. -/
structure Who where
  src : Source
  key : Nat
  chain : Option Nat
  core : Nat
  ctx : Nat
  prio : Nat
  deriving DecidableEq, Repr

/-- A unit that acts for no wave. -/
def Who.of (src : Source) (key : Nat) : Who := ⟨src, key, none, 0, 0, 0⟩

/-! ### The port sends (R326, R417, R419) -/

/-- A store to the host window has been sent: it is complete for the wave or the unit that made it. -/
def State.hostSent (s : State) (h : HostAcc) : State :=
  match h.req.for_ with
  | .elem => s.modElem h.req fun e => { e.finish true false [] s.dtc with back := s.backAt h.req.src h.req.pa }
  | .unit tag => if s.asks.any fun a => a.tag == tag && a.for_ == .poll then s.giveAsk tag (some []) s.dtc else s
  | _ => s

/-- The oldest access that has reached the port and is not yet sent goes out while the mapped connection has room; a store
then completes with the time Now() (R326, R419). -/
def State.pumpHostGo : Nat → State → State
  | 0, s => s
  | n + 1, s =>
    match s.hostConn, s.hostAccs.find? fun h => !h.sent && decide (h.due ≤ s.tu) with
    | some c, some h =>
      match look s.conns c with
      | some k =>
        if k.room then
          let m := s.hostMsg h
          let s : State := { s with hostAccs := s.hostAccs.map fun x => if x.tag = h.tag then x.sentOn c k.txNext else x }
          let s := s.sendPkt c m.1 h.req.pa (m.2.1 + 1) m.2.2
          State.pumpHostGo n (if m.1 = 1 then s.hostSent h else s)
        else s
      | none => s
    | _, _ => s

def State.pumpHost (s : State) : State := State.pumpHostGo s.hostAccs.length s

/-- A request of an engine or a unit on its way: to its home slice, or to the fabric port. -/
def State.engSend (s : State) (r : Req) (write : Bool) (len : Nat) (data : List Byte) : State :=
  if isHostPa r.pa then s.hostAsk r write len data else s.sendReq r

/-- A unit sends an access of n bytes, within a line, to its place. -/
def State.post (s : State) (w : Who) (op : AskOp) (for_ : AskFor) (pa n : Nat) : State :=
  let tag := s.nextTag
  let s : State := { s with nextTag := tag + 1, asks := s.asks ++ [⟨tag, w.src, w.key, pa, n, op, w.chain, for_, none, 0, 0⟩] }
  let data := match op with | .write bs => bs | _ => []
  s.engSend (Req.of w.core w.ctx 0 0 pa w.prio w.src (.unit tag)) (op != .read) n data

/-- A unit writes bytes: each aligned 16-byte part of them on its own (R333). -/
def State.postParts (s : State) (w : Who) (for_ : AskFor) (pa : Nat) (bs : List Byte) : State :=
  (partsAt pa bs.length).foldl (fun s p => s.post w (.write ((bs.drop p.2.2).take p.2.1)) for_ p.1 p.2.1) s

/-- Accesses of a unit's task that are not performed yet. -/
def State.posting (s : State) (w : Who) : Bool := s.asks.any fun a => a.src == w.src && a.key == w.key && a.got.isNone

/-- What a unit's task has been answered is used up: a later access of the place asks again. -/
def State.askDone (s : State) (w : Who) : State := { s with asks := s.asks.filter fun a => !(a.src == w.src && a.key == w.key && a.for_ == .poll) }

end Sys2Proof.Machine
end

