-- ==== Sys2Proof/Machine/Units.lean ====
section
/-! DEFINITION. What the device's units read and translate: a step of a unit finds what its earlier requests have brought
back, or names what it still needs; page-table walks (R281, R315 to R317, R340, R418, R424; log entry 79). -/

namespace Sys2Proof.Machine

/-! ### Reads -/

/-- What a step of a unit still needs: bytes to be read, an act on n bytes to be performed, or a page to be walked for. -/
inductive Need where
  | read (w : Who) (ps : List (Nat × Nat))
  | act (w : Who) (op : AskOp) (pa n : Nat)
  | walk (w : Who) (cluster asid root va : Nat)
  deriving DecidableEq, Repr

/-- A step of a unit, as far as its reads let it go. -/
abbrev Rd (α : Type) := Except Need α

/-- A read that covers n bytes at an address. -/
def Ask.covers (a : Ask) (w : Who) (pa n : Nat) : Bool :=
  a.src == w.src && a.key == w.key && a.op == .read && decide (a.pa ≤ pa) && decide (pa + n ≤ a.pa + a.len)

/-- The bytes that reads of a unit's task have brought back from an address, none for an error; or those still to be read,
line by line. -/
def State.got (s : State) (w : Who) (pa n : Nat) : Rd (Option (List Byte)) :=
  let ps := linePieces pa n
  let found (p : Nat × Nat × Nat) : Option (Option (List Byte)) :=
    (s.asks.find? fun a => a.covers w p.1 p.2.1 && a.got.isSome && decide (a.back ≤ s.tu)).bind fun a =>
      a.got.map (·.map fun bs => (bs.drop (p.1 - a.pa)).take p.2.1)
  match ps.filter fun p => (found p).isNone with
  | [] => .ok (ps.foldr (fun p r => match found p, r with
      | some (some bs), some rest => some (bs ++ rest)
      | _, _ => none) (some []))
  | miss => .error (.read w (miss.map fun p => (p.1, p.2.1)))

/-- What an act of a unit's task has brought back, none for an error; or that it is still to be performed. -/
def State.acted (s : State) (w : Who) (op : AskOp) (pa n : Nat) : Rd (Option (List Byte)) :=
  match s.asks.find? fun a => a.src == w.src && a.key == w.key && a.op == op && decide (a.back ≤ s.tu) with
  | some ⟨_, _, _, _, _, _, _, _, some r, _, _⟩ => .ok r
  | _ => .error (.act w op pa n)

/-- The bytes of accesses part by part, once every part has been answered and is back; none for an error in any. -/
def State.partsGot (s : State) (w : Who) (ps : List (Nat × Nat × Nat)) : Option (Option (List Byte)) :=
  let found (p : Nat × Nat × Nat) : Option (Option (List Byte)) :=
    (s.asks.find? fun a => a.src == w.src && a.key == w.key && a.pa == p.1 && a.got.isSome && decide (a.back ≤ s.tu)).bind (·.got)
  if ps.any fun p => (found p).isNone then none
  else some (ps.foldr (fun p r => match found p, r with
    | some (some bs), some rest => some (bs ++ rest)
    | _, _ => none) (some []))

/-! ### Walks (R317) -/

/-- Room for another walk: 64 misses of the cluster, and 32 walkers with 256 places before them (R317). -/
def State.walkRoom (s : State) (cluster : Nat) : Bool :=
  decide ((s.walks.filter (·.cluster == cluster)).length < 64)
    && decide ((s.walks.filter fun x => x.cluster / 32 == cluster / 32).length < 288)

/-- Two walks are for one page: for the same 64 KiB, or for parts of a larger page of the tables as they stand. -/
def State.samePage (s : State) (x y : Walk) : Bool :=
  x.cluster == y.cluster && x.asid == y.asid && (x.va == y.va || match s.walk x.asid x.root y.va with
    | .page e => e.hit x.asid x.va
    | .fault _ _ => false)

/-- A walk for a page that an access of a core, or an engine's or a unit's request, misses; one in flight for the page is
joined, and where there is no room the miss waits (R317). -/
def State.queueWalk (s : State) (cluster : Nat) (core : Option Nat) (asid root va : Nat) (eng : List (Source × Nat)) : State :=
  let x : Walk := ⟨s.nextTag, cluster, core, asid, root, pageUnit va, eng⟩
  if s.walks.any (s.samePage x) then
    { s with walks := s.walks.map fun y => if s.samePage x y then { y with eng := y.eng ++ eng.filter fun e => !y.eng.contains e } else y }
  else if s.walkRoom cluster then { s with walks := s.walks ++ [x], nextTag := s.nextTag + 1 }
  else s

/-- What a step of a unit needs is asked for; none where that is under way. -/
def State.demand (s : State) : Need → Option State
  | .read w ps =>
    match ps.filter fun p => !(s.asks.any fun a => a.covers w p.1 p.2) with
    | [] => none
    | new => some (new.foldl (fun s p => s.post w .read .poll p.1 p.2) s).pumpHost
  | .act w op pa n =>
    if s.asks.any fun a => a.src == w.src && a.key == w.key && a.op == op then none
    else some (s.post w op .poll pa n).pumpHost
  | .walk w cluster asid root va =>
    if s.walks.any fun x => x.eng.contains (w.src, w.key) && x.va == pageUnit va then none
    else some (s.queueWalk cluster none asid root va [(w.src, w.key)])

/-- What has been found and fetched for a unit's task is used up. -/
def State.stepDone (s : State) (w : Who) : State :=
  { s.askDone w with walkFaults := s.walkFaults.filter fun f => !(f.src == w.src && f.key == w.key) }

/-- A step of a unit that has all it needs is done, with its answers used up; one that has not asks. -/
def State.unitStep (s : State) (w : Who) (r : Rd (Option State)) : Option State :=
  match r with
  | .error n => s.demand n
  | .ok none => none
  | .ok (some t) => some (t.stepDone w)

/-- The core itself, for an instruction of the executing split that reads the tag area. -/
def State.coreWho (s : State) : Who :=
  ⟨.core s.cur.core, 2 ^ 20 + curKey s.cur.ctx s.cur.split, none, s.cur.core, s.cur.ctx, s.w.prio⟩

/-- A unit that serves an instruction of the executing split: 1 texture, 5 rates. -/
def State.splitUnit (s : State) (u : Nat) : Who :=
  ⟨.unit (s.cur.core / 16) u, splitKey s.cur.core s.cur.ctx s.cur.split, s.gr.chain, s.cur.core, s.cur.ctx, s.w.prio⟩

/-- The executing split waits at its instruction, which has not been counted by its windows, for what a unit needs (R34). -/
def State.needWait (s : State) : State := s.modSp fun p => { p.stalled with status := .waiting .need }

/-- An instruction of the executing split that needs bytes by a unit goes on when they are there. -/
def State.unitWait {α : Type} (s : State) (w : Who) (r : Rd α) (f : State → α → Except TrapReq State) : Except TrapReq State :=
  match r with
  | .error n => .ok ((s.demand n).getD s).needWait
  | .ok x => f (s.stepDone w) x

/-! ### Translation (R315 to R317) -/

/-- A walk by a unit without a TLB, which reads the entries itself (log entry 79). -/
def State.ownWalk (s : State) (w : Who) (asid root va : Nat) : Rd WalkRes :=
  if 2 ^ 52 ≤ va then .ok (.fault 3 false)
  else walkWith (fun pa => (s.got w pa 8).map (·.map leNat)) asid va 3 root

/-- A page as a unit of a cluster translates it: by the cluster's TLB, or a walk. -/
def State.unitXlate (s : State) (w : Who) (cluster asid root va : Nat) : Rd WalkRes :=
  if 2 ^ 52 ≤ va then .ok (.fault 3 false)
  else match (s.cluster cluster).tlb.find? (·.hit asid va) with
    | some e => .ok (.page e)
    | none => match s.walkFaults.find? fun f => f.src == w.src && f.key == w.key && f.va == pageUnit va with
      | some f => .ok (.fault f.kind f.mal)
      | none => .error (.walk w cluster asid root va)

/-- Bytes of a virtual range, or the kind of the fault that its first bad page has. -/
abbrev VirtBytes := Except (Nat × Bool) (List Byte)

/-- n bytes at a virtual address, each page of 64 KiB translated by `tr`. -/
def State.readVia (s : State) (w : Who) (tr : Nat → Rd WalkRes) (va n : Nat) : Rd VirtBytes :=
  (piecesOf 65536 va n).foldlM (fun (acc : VirtBytes) p => match acc with
    | .error e => .ok (.error e)
    | .ok bs => do
      match ← tr p.1 with
      | .fault k mal => .ok (.error (k, mal))
      | .page e => match ← s.got w (e.pa? p.1) p.2.1 with
        | some new => .ok (.ok (bs ++ new))
        | none => .ok (.error (kindBad, false))) (.ok [])

/-- The physical pieces of a virtual range that is to be written, or the kind of the fault that its first bad page has. -/
def State.writeVia (tr : Nat → Rd WalkRes) (va n : Nat) : Rd (Except (Nat × Bool) (List (Nat × Nat × Nat))) :=
  (piecesOf 65536 va n).foldlM (fun (acc : Except (Nat × Bool) (List (Nat × Nat × Nat))) p => match acc with
    | .error e => .ok (.error e)
    | .ok ps => do
      match ← tr p.1 with
      | .fault k mal => .ok (.error (k, mal))
      | .page e => if e.w then .ok (.ok (ps ++ [(e.pa? p.1, p.2.1, p.2.2)])) else .ok (.error (1, false))) (.ok [])

/-- n bytes at a virtual address, as a unit without a TLB reads them. -/
def State.ownRead (s : State) (w : Who) (asid root va n : Nat) : Rd VirtBytes := s.readVia w (s.ownWalk w asid root) va n

/-- n bytes at a virtual address, as a unit of a cluster reads them. -/
def State.unitRead (s : State) (w : Who) (cluster asid root va n : Nat) : Rd VirtBytes := s.readVia w (s.unitXlate w cluster asid root) va n

/-- Bytes sent to the pieces of a virtual range, part by part (R333). -/
def State.postPieces (s : State) (w : Who) (for_ : AskFor) (ps : List (Nat × Nat × Nat)) (bs : List Byte) : State :=
  (ps.foldl (fun s p => s.postParts w for_ p.1 ((bs.drop p.2.2).take p.2.1)) s).pumpHost

/-! ### Reads and atomics of the host (R418) -/

/-- The task of the port that serves a message of the host. -/
def portWho (conn seq : Nat) : Who := Who.of .port (conn * 2 ^ 32 + seq)

/-- The record of an error that a message of the host meets. -/
def portRec (addr detail : Nat) : RecInfo := { RecInfo.blank with addr := BitVec.ofNat 64 addr, kind := 5, detail := detail }

/-- The answer to a read or an atomic of the host, once all its parts have come back: its bytes, or none and a record. -/
def State.answerRead (s : State) (x : HostRead) : State :=
  let w := portWho x.conn x.seq
  match s.partsGot w (partsAt x.addr x.len) with
  | none => s
  | some r =>
    let s := { s.askDone w with hostReads := s.hostReads.filter (· != x) }
    match r with
    | some bs => s.sendPkt x.conn x.opcode x.addr x.flags bs
    | none => (s.record tcData { portRec x.addr 0 with unc := true }).sendPkt x.conn x.opcode x.addr x.flags []

def State.answerHost (s : State) : State := s.hostReads.foldl State.answerRead s

end Sys2Proof.Machine
end

