-- ==== Sys2Proof/Machine/GlobalMem.lean ====
section
/-! DEFINITION. Global memory: translation of an access, its elements on their way to their home slices, L1 leases,
loads, stores, device and cluster atomics, queues, and fences (R166, R175, R176, R308 to R332). -/

namespace Sys2Proof.Machine

/-! ### Leases and lines (R166, R312, R316) -/

/-- A lease field as raw units of device time (R316). -/
def leaseLen (f : Nat) : DWord :=
  match f with
  | 1 => 64 * 65536
  | 2 => 256 * 65536
  | 3 => 1024 * 65536
  | _ => 0

/-- n events of the performance counters of a core, for the wave of a stage and grid; those of a chain not yet
confirmed are kept apart until it is (R255, R378). -/
def State.tallyAs (s : State) (core grid stage ev n : Nat) : State :=
  let sp := s.spec grid
  s.modCore core fun c => { c with perf := c.perf.map fun p =>
    if p.event = ev && (p.stage.isNone || p.stage == some stage) then
      (if sp then { p with squashed := p.squashed + BitVec.ofNat 64 n } else { p with value := p.value + BitVec.ofNat 64 n })
    else p }

/-- Events of the wave in a context. -/
def State.tally (s : State) (core ctx ev n : Nat) : State :=
  let w := s.wave core ctx
  s.tallyAs core w.grid w.stage ev n

/-- A core drops its copy of the lines of n bytes, and fills on their way (R166, R328; log entry 20). -/
def State.dropL1 (s : State) (core pa n : Nat) : State :=
  let keep (x : L1Line) : Bool := !(pa / 128 ≤ x.line && x.line ≤ (pa + n - 1) / 128)
  s.modCore core fun c => { c with l1 := c.l1.filter keep, fills := c.fills.filter keep }

/-- Old bundle bytes that instruction caches may still hold: of each 8-byte unit everything it has held since the last
icinv that covered the core (R251, log entry 56). -/
def State.noteCode (s : State) (pa n : Nat) : State :=
  let units := (List.range ((pa + n - 1) / 8 + 1 - pa / 8)).map fun i => (pa / 8 + i) * 8
  let olds := units.map fun u => (u, BitVec.ofNat 64 (s.physNat u 8))
  { s with cores := s.cores.map fun c => (c.1, { c.2 with ic := olds.filter (fun x => !c.2.ic.contains x) ++ c.2.ic }) }

/-- Old 16-byte parts that texture caches may still hold (R296). -/
def State.noteTex (s : State) (pa n : Nat) : State :=
  let parts := (List.range ((pa + n - 1) / 16 + 1 - pa / 16)).map fun i => (pa / 16 + i, s.physs ((pa / 16 + i) * 16) 16)
  { s with clusters := s.clusters.map fun c => (c.1, { c.2 with texc := parts ++ c.2.texc }) }

/-- Bytes performed at a home slice or by an engine. -/
def State.store (s : State) (pa : Nat) (bs : List Byte) : State :=
  if bs.isEmpty then s else ((s.noteCode pa bs.length).noteTex pa bs.length).physPuts pa bs

/-! ### Translation of an access (R169, R175, R317) -/

/-- What one element's address gives without a walk: a page of a TLB, a fault kind, or a miss. -/
inductive Lookup where
  | page (e : TlbE) | fault (kind : Nat) | miss
  deriving DecidableEq, Repr

def State.lookup (s : State) (core asid : Nat) (va : DWord) (write : Bool) : Lookup :=
  if va.toNat ≥ 2 ^ 52 then .fault 3
  else
    match ((s.core core).tlb ++ (s.cluster (core / 16)).tlb).find? (·.hit asid va.toNat) with
    | some e => if write && !e.w then .fault 1 else .page e
    | none => .miss

/-- A TLB takes an entry, most recent first; which one leaves is the model's choice (R317, log entry 7). -/
def tlbPut (cap : Nat) (e : TlbE) (l : List TlbE) : List TlbE := (e :: l.filter (· != e)).take cap

/-- The core TLB takes what its cluster's held for an address. -/
def State.tlbUse (s : State) (core : Nat) (e : TlbE) : State :=
  s.modCore core fun c => { c with tlb := tlbPut 48 e c.tlb }

/-- The set of an entry in the 4,096-entry, 8-way TLB of a cluster: the page number's low bits (log entry 78). -/
def TlbE.set (e : TlbE) : Nat := e.va / e.size % 512

/-- A cluster's TLB takes an entry, the oldest of eight in its set leaving (R317). -/
def tlbPut8 (e : TlbE) (l : List TlbE) : List TlbE :=
  let rest := l.filter (· != e)
  e :: (rest.filter (·.set != e.set) ++ (rest.filter (·.set == e.set)).take 7)

/-- Where elements stand after translation: a fault comes with the elements before its own, which have their pages. -/
inductive Xlated where
  | all (es : List Elem) | fault (t kind : Nat) (va : DWord) (before : List Elem) | miss (vas : List Nat)
  deriving DecidableEq, Repr

/-- An element in its page. -/
def Elem.inPage (e : Elem) (l : Lookup) : Elem :=
  match l with
  | .page p => { e with pa := p.pa? e.va.toNat, lease := p.lease, room := p.va + p.size - e.va.toNat }
  | _ => e

/-- The address space of an instruction's elements: its grid's, or that of its chain's set-up for the rendering units' own
areas (R281). -/
def State.accSpace (s : State) (core ctx : Nat) (a : Acc) : Nat × Nat :=
  s.wantSpace core ctx (match a.op with | .ring _ | .emit => true | _ => false)

/-- The elements in thread order: the first that faults is reported once every one before it is known to have a page. -/
def State.xlateAll (s : State) (core asid : Nat) (write : Bool) (es : List Elem) : Xlated :=
  let rs := es.map fun e => (e, s.lookup core asid e.va write)
  let faults (l : Lookup) : Bool := match l with | .fault _ => true | _ => false
  let missed (xs : List (Elem × Lookup)) : List Nat := xs.filterMap fun r => if r.2 = .miss then some r.1.va.toNat else none
  let paged (xs : List (Elem × Lookup)) : List Elem := xs.map fun r => r.1.inPage r.2
  let before := rs.takeWhile fun r => !faults r.2
  match rs.find? fun r => faults r.2 with
  | some (e, .fault k) => if (missed before).isEmpty then .fault e.t k e.va (paged before) else .miss (missed before)
  | _ => if (missed rs).isEmpty then .all (paged rs) else .miss (missed rs)

/-! ### Sending (R166, R309, R310, R319, R419) -/

/-- An L1 hit (R166): present and Now() + 2.000 ns earlier than the line's expiry. -/
def State.l1Hit (s : State) (core pa : Nat) : Option L1Line :=
  (s.core core).l1.find? fun x => x.line == pa / 128 && !past (s.now core + BitVec.ofNat 64 Config.ns2) x.expiry

def Acc.isDvOrCl (a : Acc) : Bool := a.sc != .sy

/-- Whether an operation is an atomic whose scope names its place (R319). -/
def ElemOp.scoped : ElemOp → Bool
  | .atom _ => true
  | .cas => true
  | _ => false

/-- The bytes whose lines an element's issue drops from the L1: its own, or, of a queue, whatever its slots may be (R319). -/
def Elem.touches (e : Elem) (op : ElemOp) : Nat :=
  match op with
  | .push _ _ _ | .pop _ | .task => e.room
  | _ => e.len

/-- One element sent to the L1, its home slice, the cluster atomics unit or the fabric port; a texel by the texture unit (R296). -/
def State.sendElem (s : State) (core ctx : Nat) (a : Acc) (i : Nat) (e : Elem) : State :=
  let r := s.waveReq core ctx a.id i e.pa a.prio .elem
  let r := if a.op = .tex then { r with src := .unit (core / 16) 1 } else r
  if isHostPa e.pa then
    (s.hostAsk r a.op.writes e.len []).pumpHost
  else
    match a.op with
    | .tex => s.sendReq r
    | .load cg =>
      if cg || e.lease = 0 || s.inRing e.pa then (s.dropL1 core e.pa e.len).sendReq r
      else
        match s.l1Hit core e.pa with
        | some x =>
          let s := s.tally core ctx 0x08 1
          let s := s.modCore core fun c => { c with l1 := { x with used := s.tu } :: c.l1.filter (· != x) }
          s.modElem r fun y => { y with done := true, ret := (x.data.drop (e.pa % 128)).take e.len }
        | none => ((s.tally core ctx 0x09 1).dropL1 core e.pa e.len).sendReq r
    | op =>
      let s := s.dropL1 core e.pa (e.touches op)
      if op.scoped && a.sc = .cl then s.sendUnit r else s.sendReq r

def State.sendAll (s : State) (core ctx : Nat) (a : Acc) : State :=
  ((List.range a.elems.length).zip a.elems).foldl (fun s ie => s.sendElem core ctx a ie.1 ie.2) s

/-- The translated access is performed from here on whatever becomes of the wave (R175): its counter rises, its
destinations open a window, its elements are sent, and a qpush that names Pd waits (R323). -/
def State.launchAcc (s : State) (a : Acc) (la : BitVec 4) (es : List Elem) : State :=
  let c := s.cur
  let a : Acc := { a with elems := es }
  let s := es.foldl (fun s e => match s.lookup c.core (s.accSpace c.core c.ctx a).1 e.va false with | .page p => s.tlbUse c.core p | _ => s) s
  let s := s.modW fun w => w.addAcc a
  let s := es.foldl (fun s e => if a.op.writes && isHostPa e.pa then s.staleHost e.va.toNat e.len else s) s
  let dests := groupOf a.dst a.regs ++ (match a.pred with | .p n => [.p n] | _ => [])
  let s := match a.op with
    | .push _ _ _ => if a.path = Path.g then s.wait (.access a.id) else s.advance
    | .bridle => s.advance
    | .task => if a.pred = Opnd.null then s.advance else s.wait (.access a.id)
    | _ => if a.path = Path.g then (s.openWait a.id la dests).advance else s.advance
  s.sendAll c.core c.ctx a

/-- Cluster or device scope in the host window is refused at 7d (R319). -/
def hostScopeBad (a : Acc) (es : List Elem) : Option Nat :=
  if (match a.op with | .load _ => false | .store => false | .tex => false | _ => true) && a.isDvOrCl then
    (es.find? fun e => isHostPa e.pa).map (·.t)
  else none

/-- Checks 7e: rows for the destinations of a GEN result (R26, R169). -/
def State.accRows (s : State) (a : Acc) : Except TrapReq Unit :=
  match s.w.firstShort a.genRegs with
  | some n => lowest (a.elems.map (·.t)) (.error (trapI tcRow n))
  | none => .ok ()

/-- Walks for addresses that an instruction of the executing wave misses. -/
def State.missWalks (s : State) (a : Acc) (vas : List Nat) : State :=
  let x := s.accSpace s.cur.core s.cur.ctx a
  vas.foldl (fun s va => s.queueWalk (s.cur.core / 16) (some s.cur.core) x.1 x.2 va []) s

/-- The trap of a fault found by translation: that of an element before it with a forbidden scope comes first (R169, R319). -/
def accFault (a : Acc) (t kind : Nat) (va : DWord) (before : List Elem) : TrapReq :=
  match hostScopeBad a before with
  | some u => ⟨tcProtection, u, 0, 0⟩
  | none => faultTrap t kind va

/-- A counter at its limit stalls (R178). -/
def State.counted (s : State) (p : Path) (f : Except TrapReq State) : Except TrapReq State :=
  if s.counterFull p then .ok s.stall else f

/-- An access goes on as far as translation lets it: sent, trapped, stalled at a full counter, or waiting for walks (R169,
R175, R178). -/
def State.goAccess (s : State) (a : Acc) (la : BitVec 4) : Except TrapReq State :=
  match s.xlateAll s.cur.core (s.accSpace s.cur.core s.cur.ctx a).1 a.op.writes a.elems with
  | .fault t k va before => .error (accFault a t k va before)
  | .all es => do
    match hostScopeBad a es with
    | some t => .error ⟨tcProtection, t, 0, 0⟩
    | none => .ok ()
    s.accRows a
    s.counted a.path (.ok (s.launchAcc a la es))
  | .miss vas =>
    .ok (((s.missWalks a vas).modW fun w => { w with nextAcc := max w.nextAcc (a.id + 1) }).modSp fun p =>
      { p with status := .waiting (.translate a la.toNat none) })

/-! ### Issue of the global instructions (R176, R319 to R324) -/

/-- (base pair + index + off8 × size) mod 2⁶⁴ (R167). -/
def State.globalEa (s : State) (base index : Opnd) (off : BitVec 8) (bytes t : Nat) : DWord :=
  s.at64 base t + ((s.src index).at t).signExtend 64 + off.signExtend 64 * BitVec.ofNat 64 bytes

structure GAccess where
  ts : List Nat
  ea : Nat → DWord
  uniform : Bool

/-- Checks 7a, that of the data slots among them, and 7c of a global access (R169). -/
def State.gaccess (s : State) (g : Guard) (scalarD : Bool) (base index : Opnd) (off : BitVec 8) (bytes : Nat)
    (data : Except TrapReq Unit) : Except TrapReq GAccess := do
  let lo := s.src base
  let hi := s.srcHi base
  let ix := s.src index
  let ts := s.performed g scalarD
  overEach ts (check (!scalarD || lo.isUni) (trapI tcShape base.toByte.toNat))
  overEach ts (check (!scalarD || hi.isUni) (trapI tcShape (Opnd.plus base 1).toByte.toNat))
  overEach ts (check (!scalarD || ix.isUni) (trapI tcShape index.toByte.toNat))
  overEach ts data
  let ea (t : Nat) : DWord := s.globalEa base index off bytes t
  failThread ts (fun t => (ea t).toNat % bytes != 0) fun t => ⟨tcMisaligned, t, (ea t).extractLsb' 0 32, ea t⟩
  .ok ⟨ts, ea, lo.isUni && hi.isUni && ix.isUni⟩

/-- No element is performed: nothing is sent and no counter rises (R24, R169). -/
def State.noElems (s : State) (ts : List Nat) (f : Except TrapReq State) : Except TrapReq State :=
  if ts.isEmpty then .ok s.advance else f

def execLdG (o : LocalOp) (cg : Bool) : State → Res :=
  isaCtl fun s => do
    let sd := scalarDst o.d
    let x ← s.gaccess o.g sd o.a o.b o.off o.size.bytes (.ok ())
    s.noElems x.ts (s.counted .g do
      let mask := s.guardMask o.g
      let ts := if x.uniform then x.ts.take 1 else x.ts
      s.goAccess { s.w.newAcc .g s.sp.pc (.load (cg || s.spec s.w.grid)) with
        dst := o.d, regs := o.size.regs, size := o.size.code, sx := o.sx, mask := mask
        uniform := sd || (x.uniform && mask == fullMask)
        elems := ts.map fun t => Elem.mk0 t (x.ea t) o.size.bytes [] [] } o.la)

def execStG (o : LocalOp) : State → Res :=
  isaCtl fun s => do
    let x ← s.gaccess o.g false o.a o.b o.off o.size.bytes (.ok ())
    s.noElems x.ts (s.counted .s
      (s.goAccess { s.w.newAcc .s s.sp.pc .store with
        elems := x.ts.map fun t => Elem.mk0 t (x.ea t) o.size.bytes (s.dataBytes o.d o.size t) [] } 0))

/-- What walks found for the executing split is kept no longer than its instruction (R317). -/
def State.faultsGone (s : State) : State :=
  { s with walkFaults := s.walkFaults.filter fun f => !(f.src == .core s.cur.core && f.key == curKey s.cur.ctx s.cur.split) }

/-- pref.g asks for its line, for the L1 with a lease or for the L2 only; an element that would fault, or that the L1 cannot
take, is dropped (R176). -/
def State.prefElem (s : State) (l2 : Bool) (va : DWord) : State :=
  match s.xlate s.cur.core s.w.grid va false false with
  | .error _ => s
  | .ok e =>
    let c := s.cur
    let s := s.tlbUse c.core e
    let pa := e.pa? va.toNat / 128 * 128
    let ask (lease : Option Nat) : State := s.sendReq (s.waveReq c.core c.ctx 0 0 pa s.w.prio (.pref lease))
    if isHostPa pa || s.inRing pa then s
    else if l2 then ask none
    else if e.lease = 0 || (s.l1Hit c.core pa).isSome then s
    else ask (some e.lease)

def execPrefG (g : Guard) (a b : Opnd) (off : BitVec 8) (l2 : Bool) : State → Res :=
  isa fun s => do
    let ts := threads (s.guardMask g)
    let ea (t : Nat) : DWord := s.globalEa a b off 1 t
    failThread ts (fun t => match s.xlate s.cur.core s.w.grid (ea t) false false with
      | .error k => k == kindLater
      | .ok _ => false) fun t => faultTrap t kindLater (ea t)
    .ok ((ts.foldl (fun s t => s.prefElem l2 (ea t)) s).faultsGone)

def bytesOfReg (s : State) (o : Opnd) (wide : Bool) (t : Nat) : List Byte :=
  if wide then leBytes 8 (s.at64 o t).toNat else leBytes 4 ((s.src o).at t).toNat

def State.scalarData (s : State) (sd : Bool) (os : List Opnd) (wide : Bool) : Except TrapReq Unit :=
  match os.find? (fun o => sd && !((s.src o).isUni && (!wide || (s.srcHi o).isUni))) with
  | some o => .error (trapI tcShape (if (s.src o).isUni then (Opnd.plus o 1).toByte.toNat else o.toByte.toNat))
  | none => .ok ()

/-- The shared issue of atom.g and cas.g (R319 to R321). -/
def State.issueAtomic (s : State) (g : Guard) (la : BitVec 4) (d a : Opnd) (off : BitVec 8) (data : List Opnd) (op : ElemOp)
    (wide : Bool) (sc : Scope) (new cmp : Opnd) : Except TrapReq State := do
  let sd := scalarDst d
  let bytes := if wide then 8 else 4
  let x ← s.gaccess g sd a .null off bytes (s.scalarData sd data wide)
  let path : Path := if d = .null then .s else .g
  s.noElems x.ts (s.counted path
    (s.goAccess { s.w.newAcc path s.sp.pc op with
      dst := d, regs := if wide then 2 else 1, size := if wide then 3 else 2, sc := sc, mask := s.guardMask g, uniform := sd
      elems := x.ts.map fun t => Elem.mk0 t (x.ea t) bytes (bytesOfReg s new wide t) (if op = .cas then bytesOfReg s cmp wide t else []) } la))

def execAtomG (g : Guard) (la : BitVec 4) (d a b : Opnd) (off : BitVec 8) (op : AtomOp) (wide : Bool) (sc : Scope) : State → Res :=
  isaCtl fun s => s.issueAtomic g la d a off [b] (.atom op) wide sc b .null
def execCasG (g : Guard) (la : BitVec 4) (d a b c : Opnd) (wide : Bool) (sc : Scope) : State → Res :=
  isaCtl fun s => s.issueAtomic g la d a 0 [b, c] .cas wide sc c b

/-- The queue address that some threads use: a scalar pair slot, 128-byte aligned (R169, R322, R323). -/
def State.queueAddr (s : State) (a : Opnd) (ts : List Nat) : Except TrapReq DWord := do
  let q ← if ts.isEmpty then .ok (s.at64 a 0) else lowest ts (s.scalar64 a)
  failThread ts (fun _ => q.toNat % 128 != 0) fun t => ⟨tcMisaligned, t, q.extractLsb' 0 32, q⟩
  .ok q

def execQpush (g : Guard) (d a b : Opnd) (z : Size) : State → Res :=
  isaCtl fun s => do
    let ts := threads (s.guardMask g)
    let q ← s.queueAddr a ts
    let path : Path := if d = .null then .s else .g
    let go (s : State) : Except TrapReq State :=
      s.counted path (s.goAccess { s.w.newAcc path s.sp.pc (.push z.bytes true (d == .null)) with
        pred := d, mask := s.guardMask g
        elems := ts.map fun t => Elem.mk0 t q 16 (s.dataBytes b z t) [] } 0)
    s.noElems ts (if d = .null then go s else s.settled go)

def execQpop (g : Guard) (la : BitVec 4) (d a c : Opnd) (z : Size) : State → Res :=
  isaCtl fun s => do
    let ts := threads (s.guardMask g)
    let q ← s.queueAddr a ts
    s.noElems ts (s.counted .g
      (s.goAccess { s.w.newAcc .g s.sp.pc (.pop z.bytes) with
        dst := d, regs := z.regs, size := z.code, pred := c, mask := s.guardMask g
        elems := ts.map fun t => Elem.mk0 t q 16 [] [] } la))

/-! ### Fences (R330 to R332) -/

/-- Whether an in-flight instruction writes, for the release part; and loads, for the acquire part (R331). -/
def Acc.inW (a : Acc) : Bool :=
  match a.op with
  | .store | .atom _ | .cas | .push _ _ _ | .pop _ => a.path == .g || a.path == .s
  | _ => false
def Acc.inLd (a : Acc) : Bool :=
  match a.op with
  | .load _ | .atom _ | .cas | .pop _ => a.path == .g || a.path == .s
  | _ => false

/-- Host-window writes of a wave, whatever context holds it, that Irsin has not acknowledged (R331, R419). -/
def State.hostPending (s : State) (core ctx : Nat) : List Nat :=
  let w := s.wave core ctx
  (s.hostAccs.filter fun h => h.write && h.wave == some (w.wg, w.idx)).map (·.tag)

def State.fenceWait (s : State) (rel acq : Bool) (sc : Scope) : Wait :=
  .fence rel acq sc (if rel then (s.w.flying.filter Acc.inW).map (·.id) else []) (if acq then (s.w.flying.filter Acc.inLd).map (·.id) else [])
    (if rel && sc == .sy then s.hostPending s.cur.core s.cur.ctx else [])

/-- The conditions of R331. Host-window writes of W that were not on their way at the fence's issue are known by their
instructions. -/
def State.fenceDone (s : State) (core ctx : Nat) (rel acq sy : Bool) (w ld host : List Nat) : Bool :=
  let wv := s.wave core ctx
  let late (h : HostAcc) : Bool := h.write && h.wave == some (wv.wg, wv.idx) && w.contains h.req.acc
  (!rel || (w.all (fun i => !(wv.flying.any (·.id == i))) && !(sy && s.hostAccs.any fun h => host.contains h.tag || late h)
    && reached (s.now core) wv.lwt)) && (!acq || ld.all fun i => !(wv.flying.any fun a => a.id == i && !a.done))

/-- A fence completes at once where its conditions hold; else it waits, with its windows closed (R331). -/
def State.fence (s : State) (rel acq : Bool) (sc : Scope) : Except TrapReq State :=
  let x := s.fenceWait rel acq sc
  match x with
  | .fence _ _ _ w ld h =>
    if s.fenceDone s.cur.core s.cur.ctx rel acq (sc == .sy) w ld h then
      .ok ((s.modSp fun p => { p with arrived := false }).advance)
    else .ok (s.wait x)
  | _ => .ok s

def execFenceRel (sc : Scope) : State → Res := isaCtl fun s => s.fence true false sc
def execFenceAcq (sc : Scope) : State → Res := isaCtl fun s => s.fence false true sc
def execFenceFull (sc : Scope) : State → Res := isaCtl fun s => s.fence true true sc

/-- The split of an event's cursor, executing. -/
def State.withCur (s : State) (c : Cursor) : State := { s with cur := c }

/-- The time a waiting fence waits for has come, its closed windows are delivered, and nothing else holds it (R327, R331). -/
def execFenceLeaseTimeReached (c : Cursor) : State → Res :=
  event fun s =>
    let s := s.withCur c
    if s.live then
      match s.sp.status with
      | .waiting (.fence rel acq sc w ld h) =>
        if (s.sp.windows.any fun w => !w.delivered) then none
        else if let some x := s.sp.windows.find? (·.err.isSome) then
          some ((s.modSp fun p => { p with status := .running }).raiseWindow x)
        else if s.fenceDone c.core c.ctx rel acq (sc == .sy) w ld h then
          some ((s.modSp fun p => { p with status := .running, arrived := false }).advance)
        else none
      | _ => none
    else none

/-! ### Walks (R315 to R317) -/

/-- A waiting access learns of a fault: it keeps the lowest thread that has one. -/
def Status.faulted (st : Status) (va kind : Nat) : Status :=
  match st with
  | .waiting (.translate a la f) =>
    match a.elems.find? (fun e => pageUnit e.va.toNat == va) with
    | some e => .waiting (.translate a la (some (match f with
        | some (t, k) => if t ≤ e.t then (t, k) else (e.t, kind)
        | none => (e.t, kind))))
    | none => st
  | _ => st

/-- Whether an instruction that waits for translation does so in an address space. -/
def State.waitsIn (s : State) (core ctx asid : Nat) (st : Status) : Bool :=
  match st with
  | .waiting (.translate a _ _) => (s.accSpace core ctx a).1 == asid
  | _ => false

/-- Every access, split, engine and unit that waits for a page learns of its fault. -/
def State.waitMiss (s : State) (x : Walk) (k : Nat) (mal : Bool) : State :=
  let kind := if mal && k = 0 then kindMal else k
  let seekers := s.cores.flatMap fun c => (c.2.wants.filter fun w => c.1 / 16 == x.cluster && w.asid == x.asid && pageUnit w.va == x.va).map fun w =>
    WalkFault.mk (.core c.1) (curKey w.ctx w.split) x.va k mal
  let told (core ctx : Nat) (p : Split) : Split :=
    if s.waitsIn core ctx x.asid p.status then { p with status := p.status.faulted x.va kind } else p
  { s with
    walkFaults := s.walkFaults ++ (x.eng.map fun e => ⟨e.1, e.2, x.va, k, mal⟩) ++ seekers
    cores := s.cores.map fun c =>
      if c.1 / 16 = x.cluster then
        (c.1, { c.2 with waves := c.2.waves.map fun w => (w.1, { w.2 with splits := w.2.splits.map (told c.1 w.1) }) })
      else c }

/-- The walks of a quadrant, oldest first; 32 walkers are at work on the first of them (R317). -/
def State.quadWalks (s : State) (quad : Nat) : List Walk := (s.walks.filter fun x => x.cluster / 32 == quad).take 32

/-- The task of a walker. -/
def Walk.who (x : Walk) : Who := Who.of (.walker x.cluster) x.id

/-- A walk has found what it looked for: the page enters the TLBs, or all that wait for it learn of the fault, which no TLB
keeps (R317). -/
def State.walked (s : State) (x : Walk) (r : WalkRes) : State :=
  let s := { s.askDone x.who with walks := s.walks.erase x }
  match r with
  | .page e =>
    let s := s.modCluster x.cluster fun c => { c with tlb := tlbPut8 e c.tlb }
    match x.core with
    | some k => s.tlbUse k e
    | none => s
  | .fault k mal => s.waitMiss x k mal

/-- A walker goes on with its walk, walker w of the part being number w / 4 of quadrant w mod 4: it asks for the next entry as a
.cg load, or, with every entry read, it is done (R316). -/
def execPageTableWalk (walker : Nat) : State → Res :=
  event fun s =>
    match (s.quadWalks (walker % 4))[walker / 4]? with
    | none => none
    | some x =>
      match s.ownWalk x.who x.asid x.root x.va with
      | .error n => s.demand n
      | .ok r => some (s.walked x r)

/-- Every element of a waiting access is translated, or one has faulted, each before it in thread order having its page
(R169, R175); in a wave that stops, the instruction is saved and issues again (R241). A page that left both TLBs again walks again. -/
def execGlobalAccessTranslated (c : Cursor) : State → Res :=
  event fun s =>
    let s := s.withCur c
    if s.live && s.w.stop == .none then
      match s.sp.status with
      | .waiting (.translate a la f) =>
        let s' := s.modSp fun p => { p with status := .running }
        let walking (es : List Elem) : Bool := s.walks.any fun x =>
          x.cluster = c.core / 16 && es.any fun e => pageUnit e.va.toNat == x.va
        match f with
        | some (t, k) =>
          let lower := a.elems.filter fun e => e.t < t
          let va := ((a.elems.find? fun e => e.t == t).map (·.va)).getD 0
          if walking lower then none
          else match s.xlateAll c.core (s.accSpace c.core c.ctx a).1 a.op.writes lower with
            | .miss vas => some (s.missWalks a vas)
            | .fault t k va before => some (s'.raiseLate (accFault a t k va before))
            | .all before => some (s'.raiseLate (accFault a t k va before))
        | none =>
          if walking a.elems then none
          else
            match s'.goAccess a (BitVec.ofNat 4 la) with
            | .ok s'' => some s''
            | .error t => some (s'.raiseLate t)
      | _ => none
    else none

end Sys2Proof.Machine
end

