-- ==== Sys2Proof/Machine/Raster.lean ====
section
/-! DEFINITION. The arithmetic of rendering, apart from the state: f32 steps, shading rates (R286), edge counts and
the cutting of a patch (R289, R290), texture levels and filters (R294, R295), projection, coverage and interpolation
(R301, R302), layers (R303, R304), and the colour of a pixel (R306, R367). -/

namespace Sys2Proof.Machine

/-! ### f32 steps, RNE -/

def gAdd (a b : Word) : Word := fopAdd Mods.plain 0 a b
def gSub (a b : Word) : Word := fopSub Mods.plain 0 a b
def gMul (a b : Word) : Word := fopMul Mods.plain 0 a b
def gDiv (a b : Word) : Word := fopDiv Mods.plain 0 a b
def gFma (a b c : Word) : Word := fopFma Mods.plain 0 a b c
def gAbs (a : Word) : Word := a &&& 0x7FFFFFFF#32
def gVal (a : Word) : FV := decode f32 a.toNat
def gLt (a b : Word) : Bool := fltZ false (gVal a) (gVal b)
def gNan (a : Word) : Bool := (gVal a).isNan
def gFin (a : Word) : Bool :=
  match gVal a with
  | .fin _ _ _ => true
  | _ => false
def gMax (a b : Word) : Word := if gLt a b then b else a
def gMin (a b : Word) : Word := if gLt b a then b else a
/-- A ratio of naturals to f32. -/
def gRatio (a b : Nat) : Word := w32 (roundTo f32 Mods.plain 0 (xdiv (.fin false a 0) (.fin false b 0)))
def gNat (n : Nat) : Word := gRatio n 1
def gInt (v : Int) : Word := w32 (roundTo f32 Mods.plain 0 (XV.ofInt v))
/-- The value times 2^k rounded to an integer; 0 for what is not finite. -/
def gRound (r : Rnd) (k : Nat) (a : Word) : Int :=
  match gVal a with
  | .fin n m e => toIntegralWide r 0 n m (e + k)
  | _ => 0
def gFloor (a : Word) : Int := gRound .rdn 0 a
def gOne : Word := 0x3F800000#32
def gHalf : Word := 0x3F000000#32

/-! ### Rates (R286) -/

/-- A rate: log2 extents. -/
abbrev Rate := Nat × Nat

def combine1 (code l r : Nat) : Nat :=
  match code with
  | 0 => l
  | 1 => r
  | 2 => min l r
  | 3 => max l r
  | _ => min 2 (l + r)
def combineRate (code : Nat) (l r : Rate) : Rate := (combine1 code l.1 r.1, combine1 code l.2 r.2)

/-- Density steps: 1 and 3 raise lx, 2 and 4 raise ly. -/
def stepRate : Nat → Rate → Rate
  | 0, r => r
  | n + 1, r =>
    let q := stepRate n r
    if n % 2 = 0 then (min 2 (q.1 + 1), q.2) else (q.1, min 2 (q.2 + 1))

/-- A cell of the screen rate image; a half of 3 reads as 2. -/
def cellRate (nib : Nat) : Rate := (min 2 (nib % 4), min 2 (nib / 4 % 4))

/-! ### Draw records and patches (R282, R285, R288, R289) -/

structure Draw where
  m0 : List Word
  m1 : List Word
  plist : Nat
  pages : Nat
  rate : Rate
  c1 : Nat
  c2 : Nat
  disp : Word
  deriving DecidableEq, Repr

def wordAt (bs : List Byte) (o : Nat) : Word := w32 (leNat ((bs.drop o).take 4))

/-- A draw record; none when it holds a reserved value. -/
def drawOfBytes (bs : List Byte) : Option Draw :=
  let f := (wordAt bs 140).toNat
  let disp := wordAt bs 148
  if f / 1024 != 0 || f % 4 = 3 || f / 4 % 4 = 3 || 4 < f / 16 % 8 || 4 < f / 128 % 8 || (bs.drop 152).any (· != 0)
      || gNan disp || gLt disp 0 then none
  else some ⟨(List.range 16).map fun i => wordAt bs (4 * i), (List.range 16).map fun i => wordAt bs (64 + 4 * i),
    leNat ((bs.drop 128).take 8), (wordAt bs 136).toNat, (f % 4, f / 4 % 4), f / 16 % 8, f / 128 % 8, disp⟩

/-- A patch: points of a row, its rate, its user word and its control points. -/
structure Patch where
  k : Nat
  rate : Rate
  user : Word
  pts : List (Word × Word × Word)
  deriving DecidableEq, Repr

def patchSize (kind : Nat) : Nat := if kind = 0 then 64 else 208

/-- The patch record at an offset of its page; none where R282 ends the page. -/
def patchOf (off : Nat) (bs : List Byte) : Option Patch :=
  let w := (wordAt bs 0).toNat
  let kind := w % 4
  if 1 < kind || w / 64 != 0 || w / 4 % 4 = 3 || w / 16 % 4 = 3 || wordAt bs 8 != 0 || wordAt bs 12 != 0
      || 65536 < off + patchSize kind then none
  else
    let k := if kind = 0 then 2 else 4
    some ⟨k, (w / 4 % 4, w / 16 % 4), wordAt bs 4,
      (List.range (k * k)).map fun i => (wordAt bs (16 + 12 * i), wordAt bs (20 + 12 * i), wordAt bs (24 + 12 * i))⟩

/-- A matrix applied to a point, each row left to right with every step rounded (log entry 24). -/
def clipOf (m : List Word) (p : Word × Word × Word) : Word × Word × Word × Word :=
  let row (r : Nat) : Word :=
    gAdd (gAdd (gAdd (gMul (m.getD (4 * r) 0) p.1) (gMul (m.getD (4 * r + 1) 0) p.2.1)) (gMul (m.getD (4 * r + 2) 0) p.2.2))
      (m.getD (4 * r + 3) 0)
  (row 0, row 1, row 2, row 3)

/-- The screen position of a clip position (R301). -/
def screenOf (wt ht : Nat) (x y w : Word) : Word × Word :=
  (gMul (gMul (gAdd (gDiv x w) gOne) (gNat wt)) gHalf, gMul (gMul (gSub gOne (gDiv y w)) (gNat ht)) gHalf)

/-- W ≤ 0 or NaN, or a NaN position. -/
def behind (c : Word × Word × Word × Word) : Bool := !gLt 0 c.2.2.2 || gNan c.1 || gNan c.2.1

/-- A screen bound: x0, y0, x1, y1; none when a point is behind the eye, so that nothing bounds it (log entry 24). -/
abbrev Bound := Option (Word × Word × Word × Word)

/-- The box around positions, widened by a distance. -/
def boxOf (ps : List (Word × Word)) (wd : Word) : Bound :=
  match ps with
  | [] => none
  | p :: rest =>
    let b := rest.foldl (fun (b : Word × Word × Word × Word) q => (gMin b.1 q.1, gMin b.2.1 q.2, gMax b.2.2.1 q.1, gMax b.2.2.2 q.2))
      (p.1, p.2, p.1, p.2)
    some (gSub b.1 wd, gSub b.2.1 wd, gAdd b.2.2.1 wd, gAdd b.2.2.2 wd)

/-- The widening of R288: displacement plus |LS| × max |1/W − FI|. -/
def widen (disp ls fi : Word) (ws : List Word) : Word :=
  gAdd disp (gMul (gAbs ls) (ws.foldl (fun m w => gMax m (gAbs (gSub (gDiv gOne w) fi))) 0))

def boundOf (wt ht : Nat) (disp ls fi : Word) (cs : List (Word × Word × Word × Word)) : Bound :=
  if cs.any behind then none
  else boxOf (cs.map fun c => screenOf wt ht c.1 c.2.1 c.2.2.2) (widen disp ls fi (cs.map fun c => c.2.2.2))

/-- Whether a bound meets rows lo to hi - 1. -/
def Bound.meetsRows (b : Bound) (lo hi : Nat) : Bool :=
  match b with
  | none => true
  | some (_, y0, _, y1) => !gLt y1 (gNat lo) && gLt y0 (gNat hi)

/-- The cells a bound meets along one axis of n pixels; none when it meets none. -/
def cellSpan (lo hi : Word) (n : Nat) : Option (Nat × Nat) :=
  if gLt hi 0 || !gLt lo (gNat n) then none
  else some ((gFloor (gMax 0 lo)).toNat / 16, (gFloor (gMin hi (gNat (n - 1)))).toNat / 16)

/-- The cells of the screen rate image that a bound meets. -/
def imageCells (wt ht : Nat) (b : Bound) : List (Nat × Nat) :=
  let xs := match b with | none => some (0, (wt - 1) / 16) | some q => cellSpan q.1 q.2.2.1 wt
  let ys := match b with | none => some (0, (ht - 1) / 16) | some q => cellSpan q.2.1 q.2.2.2 ht
  match xs, ys with
  | some (x0, x1), some (y0, y1) =>
    (List.range (y1 + 1 - y0)).flatMap fun y => (List.range (x1 + 1 - x0)).map fun x => (x0 + x, y0 + y)
  | _, _ => []

/-- The finest rate among some; 1 × 1 where there is none. -/
def finest (rs : List Rate) : Rate := if rs.isEmpty then (0, 0) else rs.foldl (fun r c => (min r.1 c.1, min r.2 c.2)) (2, 2)

/-- A power of two at or above n, at most 64. -/
def pow2Up (n : Int) : Nat := (List.find? (fun k => decide (n.toNat ≤ k)) [1, 2, 4, 8, 16, 32]).getD 64

/-- The edge count along a control polygon (R289); 64 with a point behind the eye. -/
def edgeCount (rx ry : Nat) (ps : List (Option (Word × Word))) : Nat :=
  if ps.any (·.isNone) then 64
  else
    let qs := ps.filterMap id
    let len (f : Word × Word → Word) : Word := (qs.zip (qs.drop 1)).foldl (fun a e => gAdd a (gAbs (gSub (f e.2) (f e.1)))) 0
    let m := gMax (gDiv (len (·.1)) (gNat rx)) (gDiv (len (·.2)) (gNat ry))
    if gFin m then max 1 (pow2Up (gRound .rup 0 m)) else 64

/-- Parameter of segment s of n, snapped on an edge of m (R289, R290). -/
def paramOf (s n : Nat) (edge : Option Nat) : Word :=
  match edge with
  | some m => if m < n then gRatio (s * m / n) m else gRatio s n
  | none => gRatio s n

/-- The grids of a patch in order: W, H, u and v of each thread (R290). `n` holds the counts of v=0, v=1, u=0, u=1. -/
def cutPatch (n : Nat × Nat × Nat × Nat) : List (Nat × Nat × List Word × List Word) :=
  let nu := max n.1 n.2.1
  let nv := max n.2.2.1 n.2.2.2
  let kc := (nu + 6) / 7
  let kr := (nv + 2) / 3
  (List.range kr).flatMap fun r => (List.range kc).map fun c =>
    let u0 := c * nu / kc
    let v0 := r * nv / kr
    let w := (c + 1) * nu / kc - u0 + 1
    let h := (r + 1) * nv / kr - v0 + 1
    let at_ (f : Nat → Nat → Word) : List Word := (List.range 32).map fun t => if t % 8 < w && t / 8 < h then f (u0 + t % 8) (v0 + t / 8) else 0
    (w, h, at_ fun su sv => paramOf su nu (if sv = 0 then some n.1 else if sv = nv then some n.2.1 else none),
      at_ fun su sv => paramOf sv nv (if su = 0 then some n.2.2.1 else if su = nu then some n.2.2.2 else none))

/-- The grid word (R292). -/
def gridWord (w h : Nat) (r : Rate) (d : Nat) (p : Rate) (draw : Nat) : Word :=
  w32 (w - 1 + (h - 1) * 8 + r.1 * 32 + r.2 * 128 + d % 8 * 512 + p.1 * 4096 + p.2 * 16384 + draw % 65536 * 65536)

def gwW (g : Word) : Nat := g.toNat % 8 + 1
def gwH (g : Word) : Nat := g.toNat / 8 % 4 + 1
def gwRate (g : Word) : Rate := (g.toNat / 32 % 4, g.toNat / 128 % 4)
def gwD (g : Word) : Nat := g.toNat / 512 % 8
def gwPatch (g : Word) : Rate := (g.toNat / 4096 % 4, g.toNat / 16384 % 4)
def gwDraw (g : Word) : Nat := g.toNat / 65536

/-! ### Textures (R294, R295) -/

structure Tex where
  base : Nat
  w : Nat
  h : Nat
  levels : Nat
  fmt : Nat
  sm : Nat
  tm : Nat
  filter : Nat
  bias : Word
  deriving DecidableEq, Repr

def texOf (bs : List Byte) : Tex :=
  let x := leNat bs
  let f (lo n : Nat) : Nat := x / 2 ^ lo % 2 ^ n
  ⟨f 0 52, f 64 14 + 1, f 78 14 + 1, f 92 4 + 1, f 96 4, f 100 2, f 102 2, f 104 2, w32 (f 128 32)⟩

/-- No reserved value, and no more levels than the size allows. -/
def texValid (bs : List Byte) : Bool :=
  let x := leNat bs
  let f (lo n : Nat) : Nat := x / 2 ^ lo % 2 ^ n
  let t := texOf bs
  f 52 12 == 0 && f 106 22 == 0 && f 160 32 == 0 && f 192 64 == 0 && decide (t.fmt < 6) && decide (t.sm < 3)
    && decide (t.tm < 3) && decide (t.filter < 3) && decide (t.levels ≤ Nat.log2 (max t.w t.h) + 1)

def Tex.texel (t : Tex) : Nat := if t.fmt = 2 then 8 else if t.fmt = 5 then 16 else 4
def Tex.wl (t : Tex) (l : Nat) : Nat := max 1 (t.w / 2 ^ l)
def Tex.hl (t : Tex) (l : Nat) : Nat := max 1 (t.h / 2 ^ l)
def Tex.pitch (t : Tex) (l : Nat) : Nat := (t.wl l * t.texel + 15) / 16 * 16
/-- Where a level starts. -/
def Tex.levelAt (t : Tex) : Nat → Nat
  | 0 => t.base
  | l + 1 => (t.levelAt l + t.pitch l * t.hl l + 127) / 128 * 128

/-- A texel index through its axis mode. -/
def axis (mode : Nat) (i : Int) (n : Nat) : Nat :=
  match mode with
  | 0 => (i % n).toNat
  | 1 => if i < 0 then 0 else min i.toNat (n - 1)
  | _ =>
    let m := (i % (2 * n : Nat)).toNat
    if m < n then m else 2 * n - 1 - m

def Tex.addr (t : Tex) (l : Nat) (i j : Int) : Nat :=
  t.levelAt l + axis t.tm j (t.hl l) * t.pitch l + axis t.sm i (t.wl l) * t.texel

/-- Largest r with r^5 ≤ n, by bits from the top. -/
def root5 (n : Nat) : Nat → Nat → Nat
  | 0, r => r
  | k + 1, r => let c := r + 2 ^ k; root5 n k (if c ^ 5 ≤ n then c else r)

/-- The sRGB transfer function on c/255 (IEC 61966-2-1), rounded once. -/
def srgb (c : Nat) : Word :=
  if c ≤ 10 then gRatio (c * 100) (255 * 1292)
  else
    let n := (200 * c + 2805) ^ 12 * 2 ^ 400
    let d := 53805 ^ 12
    let r := root5 (n / d) 82 0
    w32 (roundTo f32 Mods.plain 0 (.fin false r (-80) (r ^ 5 * d != n)))

def hToF (h : Nat) : Word := w32 (roundTo f32 Mods.plain 0 (decode f16 h).toX)

/-- R, G, B and A of a texel's bytes. -/
def texelOf (fmt : Nat) (bs : List Byte) : List Word :=
  let b (i : Nat) : Nat := (bs.getD i 0).toNat
  let h (i : Nat) : Word := hToF (leNat ((bs.drop (2 * i)).take 2))
  match fmt with
  | 0 => (List.range 4).map fun i => gRatio (b i) 255
  | 1 => ((List.range 3).map fun i => srgb (b i)) ++ [gRatio (b 3) 255]
  | 2 => (List.range 4).map h
  | 3 => [h 0, h 1, 0, gOne]
  | 4 => [wordAt bs 0, 0, 0, gOne]
  | _ => (List.range 4).map fun i => wordAt bs (4 * i)

/-- The level of detail of R295, clamped; NaN gives 0. -/
def Tex.lambda (t : Tex) (lz : Bool) (g : List Word) : Word :=
  let sq (a : Word) : Word := gMul a a
  let half (i : Nat) : Word := fopSqrt Mods.plain 0 (gAdd (sq (gMul (g.getD i 0) (gNat t.w))) (sq (gMul (g.getD (i + 1) 0) (gNat t.h))))
  let lam := if lz then t.bias else gAdd (fopLog2 Mods.plain (fopMinMax true false Mods.plain (half 0) (half 2))) t.bias
  if gNan lam then 0 else gMin (gMax 0 lam) (gNat (t.levels - 1))

/-- The level sampled, and the fraction in 256ths toward the next. -/
def Tex.level (t : Tex) (lam : Word) : Nat × Nat :=
  if t.filter = 2 then
    let l := (gFloor lam).toNat
    let f := (gRound .rne 8 (gSub lam (gNat l))).toNat
    if f = 256 then (l + 1, 0) else (l, f)
  else ((gFloor (gAdd lam gHalf)).toNat, 0)

/-- A coordinate of level l in texels; none when it is not finite. -/
def texCoord (s : Word) (n : Nat) : Option Word :=
  let x := gSub (gMul (if gNan s then 0 else s) (gNat n)) gHalf
  if gFin x then some x else none

/-- An index with its fraction in 256ths. -/
def split256 (x : Word) : Int × Nat :=
  let i := gFloor x
  let a := (gRound .rne 8 (gSub x (gInt i))).toNat
  if a = 256 then (i + 1, 0) else (i, a)

/-- The texels one sample reads, with what its value is from them. -/
def Tex.taps (t : Tex) (l : Nat) (x y : Word) : List Nat :=
  if t.filter = 0 then [t.addr l (gFloor (gAdd x gHalf)) (gFloor (gAdd y gHalf))]
  else
    let i := (split256 x).1
    let j := (split256 y).1
    [t.addr l i j, t.addr l (i + 1) j, t.addr l i (j + 1), t.addr l (i + 1) (j + 1)]

def Tex.value (t : Tex) (x y : Word) (c : Nat → List Word) (ch : Nat) : Word :=
  let v (k : Nat) : Word := (c k).getD ch 0
  if t.filter = 0 then v 0
  else
    let a := (split256 x).2
    let b := (split256 y).2
    let w (p q : Nat) : Word := gRatio (p * q) 65536
    let r := gMul (w (256 - a) (256 - b)) (v 0)
    let r := gFma (w a (256 - b)) (v 1) r
    let r := gFma (w (256 - a) b) (v 2) r
    gFma (w a b) (v 3) r

/-! ### Sampling (R301 to R304) -/

/-- A vertex on the screen for one sample time and lens offset: 1/512 pixel, depth and colour. -/
structure Vtx where
  x : Int
  y : Int
  depth : Word
  col : List Word
  deriving DecidableEq, Repr

/-- Vertex entry e (twelve f32) for a sample's τ, lu and lv; none where R301 removes it. -/
def projectVtx (wt ht : Nat) (ls fi : Word) (e : List Word) (tau : Nat) (lu lv : Int) : Option Vtx :=
  let time := gRatio (2 * tau + 1) 512
  let p (i : Nat) : Word := gFma time (gSub (e.getD (4 + i) 0) (e.getD i 0)) (e.getD i 0)
  let x := p 0
  let y := p 1
  let z := p 2
  let w := p 3
  if !gLt 0 w || gNan x || gNan y || gNan z then none
  else
    let k := gMul ls (gSub (gDiv gOne w) fi)
    let s := screenOf wt ht x y w
    let off (v : Int) : Word := gMul (gDiv (gInt v) (gNat 128)) k
    let sx := gAdd s.1 (off lu)
    let sy := gAdd s.2 (off lv)
    let d := gDiv z w
    if !gFin sx || !gFin sy || gNan d then none
    else some ⟨2 * gRound .rne 8 sx, 2 * gRound .rne 8 sy, d, (e.drop 8).take 4⟩

def edgeFn (p q : Vtx) (x y : Int) : Int := (q.x - p.x) * (y - p.y) - (q.y - p.y) * (x - p.x)

/-- What a triangle gives a sample at (x, y): weights by edge functions, none where it does not cover it. -/
def covers (a b c : Vtx) (x y : Int) : Option (Nat × Nat × Nat) :=
  let area := edgeFn a b c.x c.y
  if area = 0 then none
  else
    let sg : Int := if area < 0 then -1 else 1
    let one (p q : Vtx) : Option Nat :=
      let v := sg * edgeFn p q x y
      let dx := sg * (q.x - p.x)
      let dy := sg * (q.y - p.y)
      if 0 < v || (v = 0 && (dy < 0 || (dy = 0 && 0 < dx))) then some v.toNat else none
    match one b c, one c a, one a b with
    | some u, some v, some w => some (u, v, w)
    | _, _, _ => none

/-- Depth and colour at a covered sample. -/
def interpolate (a b c : Vtx) (e : Nat × Nat × Nat) : Word × List Word :=
  let tot := e.1 + e.2.1 + e.2.2
  let w0 := gRatio e.1 tot
  let w1 := gRatio e.2.1 tot
  let w2 := gRatio e.2.2 tot
  let mix (x y z : Word) : Word := gAdd (gAdd (gMul w0 x) (gMul w1 y)) (gMul w2 z)
  (mix a.depth b.depth c.depth, (List.range 4).map fun i => mix (a.col.getD i 0) (b.col.getD i 0) (c.col.getD i 0))

/-- The first triangle of a W × H grid that covers a sample, in the order of R302. -/
def sampleGrid (w h : Nat) (vs : List (Option Vtx)) (x y : Int) : Option (Word × List Word) :=
  let v (t : Nat) : Option Vtx := (vs.getD t none)
  let tri (p q r : Nat) : Option (Word × List Word) :=
    match v p, v q, v r with
    | some a, some b, some c => (covers a b c x y).map (interpolate a b c)
    | _, _, _ => none
  (List.range (h - 1)).findSome? fun j => (List.range (w - 1)).findSome? fun i =>
    let q := i + 8 * j
    match tri q (q + 1) (q + 9) with
    | some r => some r
    | none => tri q (q + 9) (q + 8)

/-- A layer of a pixel: depth, f16 colour, mask, and whether nothing behind it shows (R303, R304). -/
structure Layer where
  depth : Word
  col : List Nat
  mask : Nat
  opaque_ : Bool
  deriving DecidableEq, Repr

def toH (a : Word) : Nat := roundTo f16 Mods.plain 0 (gVal a).toX

def isOpaque (spp : Nat) (col : List Nat) (mask : Nat) : Bool := col.getD 3 0 == 0x3C00 && mask == 2 ^ spp - 1

def sumWords : List Word → Word
  | [] => 0
  | x :: xs => xs.foldl gAdd x

/-- The fragments of one coarse pixel from its pixels' samples: each with the pixel it belongs to. -/
def fragments (spp : Nat) (pix : List (Nat × Nat)) (cov : Nat × Nat → Nat → Option (Word × List Word)) : List ((Nat × Nat) × Layer) :=
  let got (p : Nat × Nat) : List (Nat × Word × List Word) := (List.range spp).filterMap fun k => (cov p k).map fun v => (k, v.1, v.2)
  let all := pix.flatMap got
  if all.isEmpty then []
  else
    let col := (List.range 4).map fun c => toH (gDiv (sumWords (all.map fun v => v.2.2.getD c 0)) (gNat all.length))
    pix.filterMap fun p =>
      match got p with
      | [] => none
      | v :: vs =>
        let mask := (v :: vs).foldl (fun m x => m + 2 ^ x.1) 0
        some (p, ⟨vs.foldl (fun d x => fopMinMax false false Mods.plain d x.2.1) v.2.1, col, mask, isOpaque spp col mask⟩)

/-- The ninth layer merges the two farthest. -/
def mergeLayers (spp : Nat) (f b : Layer) : Layer :=
  let af := hToF (f.col.getD 3 0)
  let col := (List.range 4).map fun c => toH (gAdd (hToF (f.col.getD c 0)) (gMul (gSub gOne af) (hToF (b.col.getD c 0))))
  let mask := f.mask ||| b.mask
  ⟨f.depth, col, mask, isOpaque spp col mask⟩

/-- Insertion of a fragment (R304). -/
def insertLayer (spp : Nat) (ls : List Layer) (fr : Layer) : List Layer :=
  if gNan fr.depth || ls.any (fun l => l.opaque_ && !gLt fr.depth l.depth) then ls
  else
    let front := ls.filter fun l => !gLt fr.depth l.depth
    let back := ls.filter fun l => gLt fr.depth l.depth
    let out := if fr.opaque_ then front ++ [fr] else front ++ [fr] ++ back
    if 8 < out.length then
      match out[7]?, out[8]? with
      | some f, some b => out.take 7 ++ [mergeLayers spp f b]
      | _, _ => out
    else out

/-- The composed value of a pixel (R306): R, G, B and A. -/
def composePixel (spp : Nat) (bg : List Word) (ls : List Layer) : List Word :=
  let over_ (acc x : List Word) : List Word := (List.range 4).map fun c => gAdd (acc.getD c 0) (gMul (gSub gOne (acc.getD 3 0)) (x.getD c 0))
  let one (k : Nat) : List Word :=
    over_ ((ls.filter fun l => l.mask.testBit k).foldl (fun acc l => over_ acc (l.col.map hToF)) [0, 0, 0, 0]) bg
  let ss := (List.range spp).map one
  (List.range 4).map fun c => gMul (sumWords (ss.map fun x => x.getD c 0)) (gRatio 1 spp)

/-- A unorm channel of w bits (R367); of a NaN no code is stated, so that it is free (log entry 24). -/
def unorm (w : Nat) (a : Word) : Nat :=
  match gVal a with
  | .nan _ => Config.nanUnorm w a % 2 ^ w
  | .inf n => if n then 0 else 2 ^ w - 1
  | .fin n m e =>
    if n then 0
    else if !gLt a gOne then 2 ^ w - 1
    else match xmul (.fin n m e) (.fin false (2 ^ w - 1) 0) with
      | .fin n m e => (toIntegralWide .rne 0 n m e).toNat
      | _ => 0

/-- A pixel in the ring format (R367). -/
def pixelBytes (fmt : Nat) (c : List Word) : List Byte :=
  let le (n v : Nat) : List Byte := (List.range n).map fun i => BitVec.ofNat 8 (v / 256 ^ i)
  match fmt with
  | 0 => (List.range 4).map fun i => BitVec.ofNat 8 (unorm 8 (c.getD i 0))
  | 1 => le 4 (unorm 10 (c.getD 0 0) + unorm 10 (c.getD 1 0) * 2 ^ 10 + unorm 10 (c.getD 2 0) * 2 ^ 20 + unorm 2 (c.getD 3 0) * 2 ^ 30)
  | _ => (List.range 4).flatMap fun i => le 2 (roundTo f16 ⟨.rne, .satf, false⟩ 0 (gVal (c.getD i 0)).toX)

end Sys2Proof.Machine
end

