-- ==== Sys2Proof/Machine/Slices.lean ====
section
/-! DEFINITION. The home slices and the strip ring: performing requests, misses, fills, leases, queue headers, the
cluster atomics unit, and what returns to a wave (R166, R175 to R178, R275, R276, R309 to R314, R319 to R324, R380
to R382, R402, R410). -/

namespace Sys2Proof.Machine

/-! ### Writes of agents (R382) -/

/-- Bytes an agent writes; a write it may not make is dropped with a PROTECTION record (R382). -/
def State.agentWrite (s : State) (chain : Option Nat) (pa : Nat) (bs : List Byte) : State :=
  if s.mayWrite chain pa then s.store pa bs
  else s.record tcProtection { RecInfo.blank with addr := BitVec.ofNat 64 pa, kind := 2, ix := sliceOf pa }

/-- The chain a wave's grid belongs to. -/
def State.chainOf (s : State) (core ctx : Nat) : Option Nat := (s.grid (s.wave core ctx).grid).chain

/-! ### Errors met by an access (R410) -/

/-- A bad 8-byte unit of the line of an address that n written bytes do not cover. -/
def State.badBeside (s : State) (pa n : Nat) : Bool :=
  s.badMem.any fun b => b / 128 == pa / 128 && !(pa ≤ b / 8 * 8 && b / 8 * 8 + 8 ≤ pa + n)

/-- The record of an error that an access meets: it names the bundle of an instruction that returns values, and the data
address of one that does not. -/
def State.recordUnc (s : State) (r : Req) (va : DWord) (detail : Nat) : State :=
  let addr := match s.acc? r.core r.ctx r.acc with
    | some a => if a.path == .g then a.pc else va
    | none => va
  s.recordWave r.core r.ctx tcData addr true true detail

/-! ### Queues (R322 to R324, R347) -/

/-- What a queue header allows: head, tail, drop count, capacity. -/
structure QHdr where
  head : Nat
  tail : Nat
  drop : Nat
  cap : Nat
  deriving DecidableEq, Repr

/-- The header at pa as an agent of a chain reads it, valid for elements with a size code and slot bytes, with `room` bytes of
page from pa. -/
def State.qhdr (s : State) (chain : Option Nat) (pa code bytes room : Nat) : Option QHdr :=
  let h := leNat (s.agentRead chain pa 128)
  let lg := bitsOf h 96 4 + 0
  if bitsOf h 102 922 != 0 || decide (20 < lg) || bitsOf h 100 2 != code || decide (room < 128 + 2 ^ lg * bytes) then none
  else some ⟨bitsOf h 0 32, bitsOf h 32 32, bitsOf h 64 32, 2 ^ lg⟩

def QHdr.count (h : QHdr) : Nat := (h.tail + 2 ^ 32 - h.head) % 2 ^ 32

def qCode (bytes : Nat) : Nat := if bytes = 4 then 0 else if bytes = 8 then 1 else if bytes = 16 then 2 else 3

/-- What an element of a queue instruction leaves: the state, whether it succeeded, the bytes it returns, its completion
time, and whether it found its header bad. -/
structure QRes where
  s : State
  ok : Bool
  ret : List Byte
  t : DWord
  bad : Bool

/-- A header that fails its checks: every element fails; one record for the instruction, where its first such element is
performed (R322, log entry 61). -/
def State.qBad (s : State) (r : Req) (e : Elem) (size : Nat) (t : DWord) : QRes :=
  let found := (s.acc? r.core r.ctx r.acc).any fun a => a.elems.any (·.badHdr)
  ⟨if found then s else s.recordWave r.core r.ctx tcEncoding e.va true false 0, false, List.replicate size 0, t, true⟩

/-- Where the slot of a queue lies that an element now pushes to, or pops from; none where it acts on none. -/
def State.pushSlot (s : State) (chain : Option Nat) (e : Elem) (size : Nat) : Option Nat :=
  (s.qhdr chain e.pa (qCode size) size e.room).bind fun h => if h.count < h.cap then some (e.pa + 128 + h.tail % h.cap * size) else none
def State.popSlot (s : State) (chain : Option Nat) (e : Elem) (size : Nat) : Option Nat :=
  (s.qhdr chain e.pa (qCode size) size e.room).bind fun h => if h.count = 0 then none else some (e.pa + 128 + h.head % h.cap * size)

/-- The slot is written or read with its header: no unit's claim of its line lasts, and it leaves the issuing core's L1 (R275,
R319); with the expiry that a write there must wait for (R312). -/
def State.slotLine (s : State) (r : Req) (pa n : Nat) : State × DWord :=
  let s := (s.dropL1 r.core pa n).dropClaim (pa / 128)
  (s, if s.inRing pa then 0 else (s.slice (sliceOf pa)).expiryOf (pa / 128))

/-- One push (R323): the slot, and the tail above it. -/
def State.qPush (s : State) (r : Req) (chain : Option Nat) (e : Elem) (size : Nat) (drop : Bool) (t : DWord) (data : Nat → List Byte) : QRes :=
  match s.qhdr chain e.pa (qCode size) size e.room with
  | none => s.qBad r e 0 t
  | some h =>
    match s.pushSlot chain e size with
    | some at_ =>
      let x := s.slotLine r at_ size
      let s := if x.1.badBeside at_ size then x.1.recordUnc r e.va 0 else x.1
      ⟨(s.agentWrite chain at_ (data h.tail)).agentWrite chain (e.pa + 4) (leBytes 4 ((h.tail + 1) % 2 ^ 32)), true, [], maxD t x.2, false⟩
    | none =>
      if drop then ⟨s.agentWrite chain (e.pa + 8) (leBytes 4 ((h.drop + 1) % 2 ^ 32)), false, [], t, false⟩
      else ⟨s, false, [], t, false⟩

/-- One pop (R324): the bytes of the slot, and the head above it. -/
def State.qPop (s : State) (r : Req) (chain : Option Nat) (e : Elem) (size : Nat) (t : DWord) : QRes :=
  match s.qhdr chain e.pa (qCode size) size e.room with
  | none => s.qBad r e size t
  | some h =>
    match s.popSlot chain e size with
    | some at_ =>
      let x := s.slotLine r at_ size
      ⟨x.1.agentWrite chain e.pa (leBytes 4 ((h.head + 1) % 2 ^ 32)), true, x.1.agentRead chain at_ size, t, false⟩
    | none => ⟨s, false, List.replicate size 0, t, false⟩

/-! ### Rings of feedback and trace records (R284, R438) -/

/-- Where the slot of a ring's next record lies: past its header, in the header's page while that reaches, else where the tables
place it then (log entry 96); none where its page faults. -/
def State.ringSlot (s : State) (pa va room asid root n : Nat) (wr cap : Nat) : Option Nat :=
  let off := 64 + wr % cap * n
  if off + n ≤ room then some (pa + off)
  else match s.walk asid root (va + off) with
    | .page e => if e.w then some (e.pa? (va + off)) else none
    | .fault _ _ => none

/-- A ring has room for another record. -/
def ringFree (h : List Byte) : Bool := decide ((fieldAt h 0 4 + 2 ^ 32 - fieldAt h 4 4) % 2 ^ 32 < fieldAt h 12 4)

/-- Where the next record of n bytes goes; none where the ring is full or no page holds the slot. -/
def State.ringNext (s : State) (chain : Option Nat) (pa va room asid root n : Nat) : Option Nat :=
  let h := s.agentRead chain pa 16
  if ringFree h then s.ringSlot pa va room asid root n (fieldAt h 0 4) (fieldAt h 12 4) else none

/-- A record is written with the write index above it, or the drop count raised, as one act at the ring's header; and whether
it was written. A record whose slot no page holds is lost. -/
def State.ringAct (s : State) (chain : Option Nat) (pa va room asid root : Nat) (rec : List Byte) : State × Bool :=
  let h := s.agentRead chain pa 16
  if ringFree h then
    match s.ringNext chain pa va room asid root rec.length with
    | some at_ => (((s.dropClaim (at_ / 128)).agentWrite chain at_ rec).agentWrite chain pa (leBytes 4 (fieldAt h 0 4 + 1)), true)
    | none => (s.record tcTranslation { RecInfo.blank with addr := BitVec.ofNat 64 va, kind := 2, ix := sliceOf pa, virt := true }, false)
  else (s.agentWrite chain (pa + 8) (leBytes 4 (fieldAt h 8 4 + 1)), false)

/-! ### Performing one request (R312, R314, R319) -/

/-- Another request of a core waits for a line (R309). -/
def State.othersWait (s : State) (r : Req) : Bool :=
  let on (x : Req) : Bool := x != r && x.core == r.core && x.pa / 128 == r.pa / 128
  let sl := s.slice (sliceOf r.pa)
  sl.q.any on || sl.lines.any (fun x => (x.miss.getD []).any on) || (s.cluster (r.core / 16)).atomQ.any on

/-- A load of a lease page takes a lease, and its line goes on its way to the L1, in place of an older fill of it, unless another
request of the core is still to come to it (R166, R312, R326, R328, log entry 20). -/
def State.grantLease (s : State) (r : Req) (lease : Nat) : State :=
  if lease = 0 || s.inRing r.pa then s
  else
    let exp := s.dtc + leaseLen lease
    let line := r.pa / 128
    let held := s.othersWait r
    let s := s.modSlice (sliceOf r.pa) fun x => x.modLine line fun y => { y with expiry := maxD y.expiry exp }
    if held then s
    else s.modCore r.core fun c => { c with
      fills := c.fills.filter (·.line != line) ++ [⟨line, s.physs (line * 128) 128, exp, s.backAt r.src r.pa⟩] }

/-- The place of an atomic: what it leaves, and its completion time (R172, R319). -/
def State.rmw (s : State) (r : Req) (e : Elem) (t : DWord) (f : Nat → Nat) : State :=
  if s.bad e.pa e.len then (s.recordUnc r e.va 0).modElem r fun e => e.finish false true [] t
  else
    let chain := s.chainOf r.core r.ctx
    let old := s.agentRead chain e.pa e.len
    let s := s.agentWrite chain e.pa (leBytes e.len (f (leNat old)))
    let w := s.wave r.core r.ctx
    let s := (s.acquireVia r.core w.wg w.idx (.glob (e.pa / 8))).releaseVia r.core w.wg w.idx (.glob (e.pa / 8))
    (s.staleAt r.core r.ctx true e.va.toNat e.len).modElem r fun e => e.finish true false old t

/-- The bytes that an instruction reads at its place beside those it names: a queue's header, a ring's, or the unit. -/
def ElemOp.reads (op : ElemOp) (len : Nat) : Nat :=
  match op with
  | .push _ _ _ | .pop _ | .task => 128
  | .ring _ => 16
  | .tagAlloc => 1
  | _ => len

/-- Bytes of a slot of the queue that an element acts on. -/
def ElemOp.slotSize : ElemOp → Nat
  | .push size _ _ | .pop size => size
  | .task => 64
  | _ => 0

/-- A queue element's outcome reaches it. -/
def State.qFinish (r : Req) (x : QRes) : State :=
  x.s.modElem r fun e => { e.finish x.ok false x.ret x.t with badHdr := x.bad }

/-- What a texel's bytes are: the old or the new ones, in each aligned 16-byte part, of those written since the last
grid was dispatched to the cluster (R296). -/
def State.texBytes (s : State) (cluster : Nat) (k : Option Nat) (pa n : Nat) : List Byte :=
  let part := pa / 16
  let olds := (s.cluster cluster).texc.filter fun e => e.1 == part
  let i := (s.word 18 (part % 65536)).toNat % (olds.length + 1)
  match olds[i]? with
  | some e => (e.2.drop (pa % 16)).take n
  | none => s.agentRead k pa n

/-- The request of an element is performed, at a time t that a write returns. -/
def State.performElem (s : State) (r : Req) (t : DWord) : State :=
  match s.acc? r.core r.ctx r.acc, s.elem? r with
  | some a, some e =>
    let s := s.dropL1 r.core e.pa e.len
    let chain := s.chainOf r.core r.ctx
    let slot : Option Nat := match a.op with
      | .pop size => s.popSlot chain e size
      | _ => none
    let fails := s.bad e.pa (a.op.reads e.len) || slot.any fun p => s.bad p (a.op.slotSize)
    let failed := (s.recordUnc r e.va 0).modElem r fun e => e.finish false (a.path == .g) [] t
    match a.op with
    | .load cg =>
      if fails then failed
      else
        let s := s.modElem r fun x => x.finish true false (s.agentRead chain e.pa e.len) 0
        if cg then s else s.grantLease r e.lease
    | .store =>
      let s := if s.badBeside e.pa e.len then s.recordUnc r e.va 0 else s
      ((s.agentWrite chain e.pa e.data).staleAt r.core r.ctx true e.va.toNat e.len).modElem r fun e => e.finish true false [] t
    | .atom op => s.rmw r e t fun old => atomNew op (8 * e.len) old (leNat e.data)
    | .cas => s.rmw r e t fun old => if old = leNat e.cmp then leNat e.data else old
    | .push size _ drop => if fails then failed else State.qFinish r (s.qPush r chain e size drop t fun _ => e.data)
    | .pop size => if fails then failed else State.qFinish r (s.qPop r chain e size t)
    | .task =>
      if fails then failed
      else State.qFinish r (s.qPush r chain e 64 (a.pred == .null) t
        fun tail => e.data.take 8 ++ leBytes 4 tail ++ List.replicate 20 0 ++ e.data.drop 8)
    | .ring _ =>
      if fails then failed
      else
        let sp := s.accSpace r.core r.ctx a
        let x := s.ringAct chain e.pa e.va.toNat e.room sp.1 sp.2 e.data
        x.1.modElem r fun e => e.finish x.2 false [] 0
    | .tagAlloc =>
      if fails then failed
      else
        let s := s.agentWrite chain e.pa [(s.agentRead chain e.pa 1).getD 0 0 ||| e.data.getD 0 0]
        s.modElem r fun e => e.finish true false e.cmp 0
    | .emit =>
      let s := if s.badBeside e.pa e.len then s.recordUnc r e.va 0 else s
      (s.agentWrite chain e.pa e.data).modElem r fun e => e.finish true false [] t
    | .tex =>
      if s.bad e.pa e.len then (s.recordUnc r e.va 0).modElem r fun e => e.finish false true [] t
      else s.modElem r fun x => x.finish true false (s.texBytes (r.core / 16) chain e.pa e.len) 0
    | .bridle | .grid => s
  | _, _ => s

/-! ### Requests of engines and units (R193, R200, R216, R340) -/

/-- The chain of the grid that a request serves. -/
def State.chainFor (s : State) (r : Req) : Option Nat :=
  match r.for_ with
  | .elem | .pref _ | .stream _ _ _ => s.chainOf r.core r.ctx
  | .copyRead id _ => ((s.core r.core).copyRun.find? (·.id == id)).bind fun x => (s.grid x.grid).chain
  | .copyWrite _ gid _ => (s.grid gid).chain
  | .scale id _ => (s.grid (s.wg (id / 256)).grid).chain
  | .unit _ | .slot | .claim _ => none

/-- A stream's asked element takes its bytes, or the fault that reading it met, at a moment at its core; an element no longer
wanted is dropped. -/
def Strm.take (x : Strm) (i : Nat) (bs : Option (List Byte)) (back : Nat) : Strm :=
  match x.out.find? (·.1 == i) with
  | none => x
  | some (_, va, st) =>
    let x := { x with out := x.out.filter (·.1 != i) }
    if i < x.pos || (look x.q i).isSome then x
    else { x with q := put x.q i (match bs with | some b => ⟨b, none, va, st, back⟩ | none => ⟨[], some tcData, va, st, back⟩) }

/-- What comes back to the maker of an engine's or a unit's request: bytes, or none for an error, and a write's time. -/
def State.give (s : State) (r : Req) (bs : Option (List Byte)) (t : DWord) : State :=
  let back := s.backAt r.src r.pa
  match r.for_ with
  | .elem | .pref _ | .slot | .claim _ => s
  | .copyRead id _ => s.modCore r.core fun c => { c with copyRun := c.copyRun.map fun x =>
      if x.id = id then { x with got := (r.pa, bs) :: x.got, back := max x.back back } else x }
  | .copyWrite id _ _ => s.modCore r.core fun c => { c with copyRun := c.copyRun.map fun x =>
      if x.id = id then { x with got := if bs.isNone then (r.pa, none) :: x.got else x.got, back := max x.back back, wrote := some (r.pa, t) } else x }
  | .stream sid i _ => s.modCore r.core fun c => { c with waves := c.waves.map fun w =>
      (w.1, { w.2 with streams := w.2.streams.map fun x => if x.2.sid = sid then (x.1, x.2.take i bs back) else x }) }
  | .scale id line => s.modCore r.core fun c => { c with
      scl := (⟨id, false, line, bs.getD [], back⟩ :: c.scl.filter fun x => !(x.id == id && x.line == line && !x.local_)).take 64 }
  | .unit tag => s.giveAsk tag bs t

/-- Bytes that an engine's or a unit's request reads. -/
def State.lenFor (s : State) (r : Req) : Nat :=
  match r.for_ with
  | .copyRead _ n | .stream _ _ n => n
  | .scale _ _ => 128
  | .unit tag => ((s.asks.find? (·.tag == tag)).map (·.len)).getD 0
  | _ => 0

/-- The record of an uncorrectable error that a slice reports of an address. -/
def sliceErr (pa : Nat) : RecInfo := { RecInfo.blank with addr := BitVec.ofNat 64 pa, kind := 2, ix := sliceOf pa, unc := true }

/-- A write of an engine or a unit is performed at its home slice. -/
def State.engPut (s : State) (chain : Option Nat) (pa : Nat) (bs : List Byte) : State :=
  (if s.badBeside pa bs.length then s.record tcData (sliceErr pa) else s).agentWrite chain pa bs

/-- Bytes whose bits are set or cleared. -/
def maskBits (old ms : List Byte) (v : Bool) : List Byte := (old.zip ms).map fun x => if v then x.1 ||| x.2 else x.1 &&& ~~~x.2

/-- Operand bytes and code of a host atomic; none where the packet is not one (R416). -/
def hostForm (op : HostAtomic) (n : Nat) : Option (Nat × Nat) :=
  match op with
  | .op o => if n = 4 || (n = 8 && o.code != 9) then some (n, o.code) else none
  | .cas => if n = 8 || n = 16 then some (n / 2, 10) else none

/-- What a host atomic leaves. -/
def hostNew (op : HostAtomic) (w : Nat) (old : Nat) (data : List Byte) : Nat :=
  match op with
  | .op o => atomNew o (8 * w) old (leNat data)
  | .cas => if old = leNat (data.take w) then leNat (data.drop w) else old

/-- An access of a unit is performed, at a time t that a write returns. A read, an atomic and a part of a block's row that meet
an uncorrectable error answer so (R307, R410). A task popped comes after a 1; an empty queue answers 0, a header that is none 2. -/
def State.performAsk (s : State) (a : Ask) (t : DWord) : State :=
  let fails := s.bad a.pa a.len
  let old := s.agentRead a.chain a.pa a.len
  match a.op with
  | .read => s.giveAsk a.tag (if fails then none else some old) t
  | .write bs =>
    match a.for_, fails with
    | .block _ _, true => s.giveAsk a.tag none t
    | _, _ => (s.engPut a.chain a.pa bs).giveAsk a.tag (some []) t
  | .bits ms v =>
    if fails then (s.record tcData (sliceErr a.pa)).giveAsk a.tag none t
    else (s.agentWrite a.chain a.pa (maskBits old ms v)).giveAsk a.tag (some []) t
  | .atom op data =>
    if fails then s.giveAsk a.tag none t
    else (s.engPut a.chain a.pa (leBytes a.len (hostNew op a.len (leNat old) data))).giveAsk a.tag (some old) t
  | .pop room =>
    match s.qhdr a.chain a.pa 3 64 room with
    | none => s.giveAsk a.tag (if fails then none else some [2]) t
    | some h =>
      if h.count = 0 then s.giveAsk a.tag (if fails then none else some [0]) t
      else
        let at_ := a.pa + 128 + h.head % h.cap * 64
        if fails || s.bad at_ 64 then s.giveAsk a.tag none t
        else
          (((s.dropClaim (at_ / 128)).agentWrite a.chain a.pa (leBytes 4 ((h.head + 1) % 2 ^ 32))).giveAsk a.tag
            (some (1 :: s.agentRead a.chain at_ 64)) t)
  | .ring va room asid root rec =>
    if s.bad a.pa 16 then (s.record tcData (sliceErr a.pa)).giveAsk a.tag none t else ((s.ringAct a.chain a.pa va room asid root rec).1).giveAsk a.tag (some []) t

/-! ### The cluster atomics unit's claims (R275) -/

/-- The line is the unit's once it reaches it: recorded at the slice with the lease it carries, the least recently used of 64
given up. -/
def State.claim (s : State) (k line : Nat) : State :=
  let s := s.dropClaim line
  let cl := (s.cluster k).claims
  let s := if cl.length < 64 then s else
    match cl.foldl (fun (b : Option Claim) y => match b with
        | none => some y
        | some z => if y.used < z.used then some y else b) none with
    | some v => s.dropClaim v.line
    | none => s
  let sl := sliceOf (line * 128)
  let lease := (s.slice sl).expiryOf line
  (s.modSlice sl fun x => x.modLine line fun y => { y with claim := some k }).modCluster k fun c =>
    { c with claims := ⟨line, lease, s.backAt (.unit k 4) (line * 128)⟩ :: c.claims }

def State.claimed (s : State) (k line : Nat) : Option Claim := (s.cluster k).claims.find? (·.line == line)

/-- A request is performed, at a time t that a write returns. -/
def State.performReq (s : State) (r : Req) (t : DWord) : State :=
  match r.for_ with
  | .elem => (s.performElem r t).modElem r fun e => { e with back := s.backAt r.src r.pa }
  | .pref lease => match lease with
    | some l => if s.bad (r.pa / 128 * 128) 128 then s.record tcData (sliceErr r.pa) else s.grantLease r l
    | none => s
  | .copyWrite _ gid data =>
    (((s.engPut (s.chainFor r) r.pa data).modGrid gid fun g => { g with lwt := maxD g.lwt t }).give r (some []) t)
  | .unit tag => match s.asks.find? (·.tag == tag) with
    | some a => s.performAsk a t
    | none => s
  | .slot => s
  | .claim k => s.claim k (r.pa / 128)
  | _ => s.give r (if s.bad r.pa (s.lenFor r) then none else some (s.agentRead (s.chainFor r) r.pa (s.lenFor r))) t

/-! ### The slice (R309, R312, R313) -/

/-- A request held at a channel that is not ready (R402). -/
def State.holdAt (s : State) (r : Req) : State :=
  if s.chanReady r.pa then s
  else
    let k := chanOf r.pa
    let c := (look s.chans k).getD ⟨0, [], []⟩
    { s with chans := put s.chans k (if c.held.any (fun h => h.req == r) then c else { c with held := c.held ++ [⟨r, s.tu⟩] }) }

def State.unhold (s : State) (r : Req) : State :=
  { s with chans := change s.chans (chanOf r.pa) fun c => { c with held := c.held.filter fun h => h.req.seq != r.seq } }

/-- The time a write performed now returns (R312). -/
def State.writeTime (s : State) (pa : Nat) : DWord :=
  if s.inRing pa then s.dtc else maxD s.dtc ((s.slice (sliceOf pa)).expiryOf (pa / 128))

/-- A request at a present line. -/
def State.performAt (s : State) (r : Req) : State :=
  let k := sliceOf r.pa
  ((s.modSlice k fun x => x.modLine (r.pa / 128) fun y => { y with used := s.tu }).performReq r (s.writeTime r.pa)).unhold r

/-! ### The order of requests at a slice (R309, R313) -/

/-- Nothing of its source holds a request of a slice's queue back: it has arrived; every earlier request of its source, of its
class or to its line, has left the queue, and been performed unless it waits on the list of its own line; and no earlier one
to its line waits at the cluster atomics unit (R276). -/
def State.inOrder (s : State) (slice pos : Nat) (r : Req) : Bool :=
  let x := s.slice slice
  let line := r.pa / 128
  decide (r.due ≤ s.tu)
    && !((x.q.take pos).any fun y => y.src == r.src && (y.high == r.high || y.pa / 128 == line))
    && !(x.lines.any fun l => l.line != line && (l.miss.getD []).any fun y => y.src == r.src && y.high == r.high)
    && !((s.cluster (r.core / 16)).atomQ.any fun y => y.src == r.src && y.pa / 128 == line && y.seq < r.seq)

/-- A line goes on its channel's list of fetches, in the order of arrival. -/
def State.fetchLine (s : State) (line : Nat) : State :=
  let k := chanOf (line * 128)
  let c := (look s.chans k).getD ⟨0, [], []⟩
  { s with chans := put s.chans k { c with fetches := c.fetches ++ [line] } }

def State.unfetch (s : State) (line : Nat) : State :=
  { s with chans := change s.chans (chanOf (line * 128)) fun c => { c with fetches := c.fetches.filter (· != line) } }

/-- A line is present, its bytes fetched. -/
def State.lineIn (s : State) (line : Nat) : Bool :=
  s.inRing (line * 128) || ((s.slice (sliceOf (line * 128))).lines.any (·.line == line)
    && !((look s.chans (chanOf (line * 128))).any fun c => c.fetches.contains line))

/-- Where the slot lies that a queue's or a ring's request acts on now beside its header (R284, R322). -/
def State.slotAt (s : State) (r : Req) : Option Nat :=
  match r.for_ with
  | .elem => match s.acc? r.core r.ctx r.acc, s.elem? r with
    | some a, some e =>
      let chain := s.chainOf r.core r.ctx
      let sp := s.accSpace r.core r.ctx a
      match a.op with
      | .push size _ _ => s.pushSlot chain e size
      | .task => s.pushSlot chain e 64
      | .pop size => s.popSlot chain e size
      | .ring n => s.ringNext chain e.pa e.va.toNat e.room sp.1 sp.2 n
      | _ => none
    | _, _ => none
  | .unit tag => (s.asks.find? (·.tag == tag)).bind fun a => match a.op with
    | .ring va room asid root rec => s.ringNext a.chain a.pa va room asid root rec.length
    | .pop room => (s.qhdr a.chain a.pa 3 64 room).bind fun h => if h.count = 0 then none else some (a.pa + 128 + h.head % h.cap * 64)
    | _ => none
  | _ => none

/-- The line of that slot, where it is not present (R312). -/
def State.slotNeed (s : State) (r : Req) : Option Nat := ((s.slotAt r).map (· / 128)).filter fun l => !s.lineIn l

/-- The fetch of a slot's line, for the element that waits with it; none where it is under way or no way can be had. -/
def State.fetchSlot (s : State) (r : Req) (line : Nat) : Option State :=
  if (s.slice (sliceOf (line * 128))).lines.any (·.line == line) then none
  else
    let x : Req := { r with pa := line * 128, for_ := .slot }
    (s.allocate line (some [x])).map fun s => (s.fetchLine line).holdAt x

/-- Nothing of its source stands before these requests any more: their 64 cycles begin (R309). -/
def Slice.nextHead (x : Slice) (pos tu : Nat) (src : Source) : Slice :=
  { x with q := x.q.take pos ++ (x.q.drop pos).map fun y => if y.src = src then { y with head := max y.head tu } else y }

/-- What serving a request of a slice's queue leaves: performed at a present line, on the list of a line in flight, or on that
of a line it allocates; none where the list is full or no way can be had. A queue's element whose slot is absent has that
fetched, and stays. -/
def State.serve (s : State) (slice pos : Nat) (r : Req) : Option State :=
  let s' := s.modSlice slice fun x => ({ x with q := x.q.eraseIdx pos } : Slice).nextHead pos s.tu r.src
  if s.inRing r.pa then
    match s.slotNeed r with
    | some l => s.fetchSlot r l
    | none => some (s'.performReq r s.dtc)
  else
    match (s.slice slice).lines.find? (·.line == r.pa / 128) with
    | some l =>
      match l.miss with
      | some rs =>
        if rs.length < 30 then
          some ((s'.modSlice slice fun x => x.modLine l.line fun y => { y with miss := some (rs ++ [r]) }).holdAt r)
        else none
      | none =>
        if l.claim.any fun k => (s.claimed k l.line).any fun c => decide (s.tu < c.used) then none
        else match s.slotNeed r with
        | some x => s.fetchSlot r x
        | none => some ((s'.dropClaim l.line).performAt r)
    | none => (s'.allocate (r.pa / 128) (some [r])).map fun s => (s.fetchLine (r.pa / 128)).holdAt r

/-- The order in which a slice input serves what is ready: a normal request that has waited 64 cycles as the first of its
source, then the high class, then the rest. -/
def State.urgency (s : State) (r : Req) : Nat :=
  if r.high then 1 else if r.head + 64 * nocTu ≤ s.tu then 2 else 0

/-- Something else that is ready goes before a request. -/
def State.outranked (s : State) (slice : Nat) (r : Req) : Bool :=
  let q := (s.slice slice).q
  (List.range q.length).any fun j =>
    match q[j]? with
    | some y => decide (s.urgency r < s.urgency y) && s.inOrder slice j y && (s.serve slice j y).isSome
    | none => false

def execSliceRequest (slice pos : Nat) : State → Res :=
  event fun s =>
    match (s.slice slice).q[pos]? with
    | none => none
    | some r => if !s.inOrder slice pos r || s.outranked slice r then none else s.serve slice pos r

/-! ### Fills (R313, R403) -/

/-- The rank of a line at its channel: a draining wave's, a high-class one's, any other. -/
def State.fetchRank (s : State) (line : Nat) : Nat :=
  let rs := (((s.slice (sliceOf (line * 128))).lines.find? (·.line == line)).bind (·.miss)).getD []
  if rs.any (·.drain) then 2 else if rs.any (·.high) then 1 else 0

/-- The controller fetches a line next: none of a higher rank waits at its channel, and in the high queue none of its rank
that arrived before it (R403, log entry 77). -/
def State.fetchTurn (s : State) (line : Nat) : Bool :=
  let ls := ((look s.chans (chanOf (line * 128))).map (·.fetches)).getD []
  let k := s.fetchRank line
  !(ls.any fun y => y != line && decide (k < s.fetchRank y))
    && (k = 0 || !((ls.takeWhile (· != line)).any fun y => s.fetchRank y == k))

/-- The requests of a filled line performed, in the order of its list, up to one whose slot is still absent. -/
def State.serveList (slice line : Nat) : List Req → State → State
  | [], s => s.modSlice slice fun x => x.modLine line fun y => { y with miss := none }
  | r :: rs, s =>
    match s.slotNeed r with
    | some l => (s.fetchSlot r l).getD s
    | none => State.serveList slice line rs ((s.modSlice slice fun x => x.modLine line fun y => { y with miss := some rs }).performAt r)

/-- The fill of a line: its list is served in order (R313); one that waits for a slot's line goes on when that is there. -/
def execL2MissFill (slice line : Nat) : State → Res :=
  event fun s =>
    match ((s.slice slice).lines.find? (·.line == line)).bind (·.miss) with
    | none => none
    | some rs =>
      if s.lineIn line then
        match (rs.head?.bind s.slotNeed) with
        | some l => rs.head?.bind fun r => s.fetchSlot r l
        | none => some (s.serveList slice line rs)
      else if s.chanReady (line * 128) && s.fetchTurn line then some ((s.unfetch line).serveList slice line rs)
      else none

/-- A fill enters the L1, in place of an expired or the least recently used line of its set (R166). -/
def execL1Fill (core idx : Nat) : State → Res :=
  event fun s =>
    match (s.core core).fills[idx]? with
    | none => none
    | some f => if s.tu < f.used then none else
      some (s.modCore core fun c =>
        let l1 := c.l1.filter fun x => x.line != f.line && !past s.dtc x.expiry
        let set := l1.filter fun x => l1Set x.line == l1Set f.line
        let l1 := if set.length < 4 then l1 else
          match set.foldl (fun (b : Option L1Line) y => match b with
              | none => some y
              | some z => if y.used < z.used then some y else b) none with
          | some v => l1.filter (· != v)
          | none => l1
        { c with fills := c.fills.eraseIdx idx, l1 := { f with used := s.tu } :: l1 })

/-! ### Results (R35, R36, R175 to R178, R323, R410) -/

/-- The levels that a thread samples, with its coordinates in each. -/
def Tex.threadTaps (t : Tex) (lam sx sy : Word) : List (Nat × Word × Word) :=
  let lf := t.level lam
  (if lf.2 = 0 then [lf.1] else [lf.1, lf.1 + 1]).filterMap fun l =>
    match texCoord sx (t.wl l), texCoord sy (t.hl l) with
    | some x, some y => some (l, x, y)
    | _, _ => none

/-- The sixteen bytes of a thread from its texels, in the order of the levels it samples; free where a coordinate is not finite
(R295; log entry 25). -/
def State.texValue (s : State) (t : Tex) (lam sx sy : Word) (texels : List (List Byte)) (i : Nat) : List Byte :=
  let n (e : Nat × Word × Word) : Nat := (t.taps e.1 e.2.1 e.2.2).length
  let sample (e : Nat × Word × Word) (from_ ch : Nat) : Word :=
    t.value e.2.1 e.2.2 (fun j => texelOf t.fmt (texels.getD (from_ + j) [])) ch
  match t.threadTaps lam sx sy, (t.level lam).2 with
  | [e], 0 => (List.range 4).flatMap fun ch => leBytes 4 (sample e 0 ch).toNat
  | [e, e'], f =>
    let f := gRatio f 256
    (List.range 4).flatMap fun ch => leBytes 4 (gFma f (sample e' (n e) ch) (gMul (gSub gOne f) (sample e 0 ch))).toNat
  | _, _ => (List.range 16).map fun b => Config.freeByte (s.freeIx 20 (i * 16 + b))

/-- A tex whose texels have come: one element for each thread, with its result. -/
def State.texed (s : State) (a : Acc) : Acc :=
  let of (i : Nat) : Elem :=
    let es := a.elems.filter (·.t == i)
    let x := (es.head?.map (·.data)).getD []
    (Elem.mk0 i 0 16 [] []).finish true (es.any (·.err))
      (s.texValue (texOf (x.take 32)) (wordAt x 32) (wordAt x 36) (wordAt x 40) (es.map (·.ret)) i) 0
  { a with elems := ((a.elems.map (·.t)).dedup).map of }

/-- The value register j of a delivered instruction takes. -/
def Acc.result (a : Acc) (j : Nat) : VReg :=
  let z : Size := match a.size with | 0 => .b8 | 1 => .b16 | 2 => .b32 | 3 => .b64 | _ => .b128
  let row (t : Nat) : Word := ((a.elems.find? (·.t == t)).map fun e => loadWord z a.sx e.ret j).getD 0
  let first := (a.elems.head?.map (·.t)).getD 0
  match a.op with
  | .load _ => if a.uniform then .uni (row first) else
      if a.elems.length = 1 && a.mask != (1#32 <<< first) then .gen (List.replicate 32 (row first)) else .gen ((List.range 32).map row)
  | .tagAlloc => .uni (row first)
  | .grid => if a.uniform || 2 ≤ j then .uni (row first) else .gen ((List.range 32).map row)
  | _ => if a.uniform then .uni (row first) else .gen ((List.range 32).map row)

/-- A V register takes a delivered value; in the threads in which a follower wrote it inside the open window, each element
is either (R36). -/
def State.deliverV (s : State) (n : Nat) (val : VReg) (mask : Mask) (held : List Held) : State :=
  let cur := s.w.v.getD n .unwritten
  let new := VReg.written mask val cur
  let m := wroteIn held (vOpnd n) &&& mask
  s.putV n (if m = 0 then new else s.eitherIn 7 n m new cur) mask

def State.deliverD (s : State) (d : Opnd) (val : VReg) (mask : Mask) (held : List Held) : State :=
  match d with
  | .v n => s.deliverV n.val val mask held
  | .s n =>
    let wrote := wroteIn held d != 0
    s.writeS n.val (if wrote && s.bit 8 n.val then s.sp.s.getD n.val 0 else val.at 0)
  | .wg n =>
    let wrote := wroteIn held d != 0
    s.writeWg n.val (if wrote && s.bit 8 (64 + n.val) then s.g.wgr.getD n.val 0 else val.at 0)
  | _ => s

/-- A predicate slot takes a delivered value, under the same rule. -/
def State.deliverP (s : State) (d : Opnd) (val mask : Mask) (held : List Held) : State :=
  match d with
  | .p n =>
    let wrote := wroteIn held d
    s.setP d (maskOf fun t => if wrote.getLsbD t && s.bit 12 (n.val * 32 + t) then (s.w.p.getD n.val 0).getLsbD t else val.getLsbD t) mask
  | _ => s

/-- The window of an instruction is delivered in a core cycle: closed windows go, an open one keeps what its destinations
held; to other splits it is due in that cycle still (R128, log entry 86). -/
def Split.windowDone (p : Split) (acc cyc : Nat) (held : List Held) : Split :=
  { p with windows := (p.windows.filter fun w => w.acc != acc || w.left != 0 || w.delivered).map fun w =>
      if w.acc = acc && !w.delivered then { w with delivered := true, held := held, till := cyc + 1 } else w }

def Split.windowErr (p : Split) (acc : Nat) (pc : DWord) : Split :=
  { p with windows := p.windows.map fun w => if w.acc = acc && !w.delivered then { w with delivered := true, held := [], err := some pc } else w }

/-- The values of an instruction into its destinations, with what followers wrote to them. -/
def State.deliverAll (s : State) (a : Acc) (held : List Held) : State :=
  let s := (List.range a.regs).foldl (fun s j => s.deliverD (Opnd.plus a.dst j) (a.result j) a.mask held) s
  match a.op with
  | .pop _ | .grid => s.deliverP a.pred (maskOf fun t => a.elems.any fun e => e.t == t && e.ok) a.mask held
  | _ => s

/-- The values of an instruction whose split has ended: its V, P and WG registers take them (R128, R152). -/
def State.deliverGone (s : State) (a : Acc) : State :=
  match s.w.gone.find? (·.acc == a.id) with
  | none => s
  | some x =>
    let s := (s.modW fun w => { w with gone := w.gone.filter (·.acc != a.id) }).withCur { s.cur with split := 4 }
    if a.elems.any (·.err) then s else s.deliverAll a x.held

/-- The values of an instruction reach the split that waits for them under its window or at its PC. -/
def State.deliver (s : State) (a : Acc) : State :=
  match s.w.splits.find? (fun p => p.status == .waiting (.access a.id)) with
  | some p =>
    let s := { s with cur := { s.cur with split := p.id } }
    let s := s.modSp fun p => { p with status := .running }
    if a.elems.any (·.err) then s.raise ⟨tcData + tcNoted, 0, 0, a.pc⟩
    else (s.setP a.pred (maskOf fun t => a.elems.any fun e => e.t == t && e.ok) a.mask).advance
  | none =>
    match s.w.splits.find? (fun p => p.windows.any fun w => w.acc == a.id && !w.delivered) with
    | none => s.deliverGone a
    | some p =>
      let s := { s with cur := { s.cur with split := p.id } }
      if a.elems.any (·.err) then s.modSp fun p => p.windowErr a.id a.pc
      else
        let dests := groupOf a.dst a.regs ++ (match a.pred with | .p n => [.p n] | _ => [])
        let was := dests.map s.heldOf
        let held := ((p.windows.find? fun w => w.acc == a.id && !w.delivered).map (·.held)).getD []
        (s.deliverAll a held).modSp fun p => p.windowDone a.id (s.core s.cur.core).cyc.toNat was

/-- The latest completion time an instruction's elements returned (R176, R319). -/
def Acc.lastTime (a : Acc) : DWord := a.elems.foldl (fun t e => maxD t e.ctime) 0

def State.raiseLwt (s : State) (core ctx : Nat) (t : DWord) : State :=
  (s.modGrid (s.wave core ctx).grid fun g => { g with lwt := maxD g.lwt t }).modWave core ctx fun w =>
    { w with lwt := maxD w.lwt t, lwtSet := true }

/-- Every element is performed, and back at its core at a moment (R308). -/
def Acc.ready (a : Acc) (tu : Nat) : Bool := !a.done && a.op != .bridle && a.op != .grid && a.elems.all fun e => e.done && decide (e.back ≤ tu)

/-- Every element of a G instruction is back: its values are delivered and it leaves its counter in order. -/
def execLoadResponse (core ctx acc : Nat) : State → Res :=
  event fun s =>
    match s.acc? core ctx acc with
    | some a =>
      if a.path == .g && a.ready s.tu then
        let s := (s.raiseLwt core ctx a.lastTime).withCur ⟨core, ctx, 0⟩
        let a := if a.op = .tex then s.texed a else a
        some ((s.deliver a).completeAcc core ctx acc .g)
      else none
    | none => none

/-- Every completion time of an S instruction is back. -/
def execStoreCompletion (core ctx acc : Nat) : State → Res :=
  event fun s =>
    match s.acc? core ctx acc with
    | some a =>
      if a.path == .s && a.ready s.tu then some ((s.raiseLwt core ctx a.lastTime).completeAcc core ctx acc .s) else none
    | none => none

/-! ### The cluster atomics unit (R275, R276) -/

/-- Other requests of an atomic's source to its line that were sent before it stand before it still. -/
def State.earlier (s : State) (r : Req) : Bool :=
  let home := s.slice (sliceOf r.pa)
  let before (y : Req) : Bool := y.src == r.src && y.pa / 128 == r.pa / 128 && decide (y.seq < r.seq)
  home.q.any before || home.lines.any fun l => (l.miss.getD []).any before

/-- The unit asks a line's home slice for it (R275). -/
def State.askClaim (s : State) (cluster : Nat) (r : Req) : Option State :=
  let x : Req := { r with pa := r.pa / 128 * 128, src := .unit cluster 4, for_ := .claim cluster }
  if s.onWay fun y => y.for_ == x.for_ && y.pa == x.pa then none else some (s.sendReq x)

def execClusterAtomic (cluster idx : Nat) : State → Res :=
  event fun s =>
    let q := (s.cluster cluster).atomQ
    match q[idx]? with
    | none => none
    | some r =>
      let line := r.pa / 128
      let go (s : State) : State :=
        let lease := ((s.claimed cluster line).map (·.lease)).getD 0
        let s := s.modCluster cluster fun c => { c with
          atomQ := c.atomQ.eraseIdx idx
          claims := c.claims.map fun x => if x.line = line then { x with used := s.tu } else x }
        (s.performReq r (maxD s.dtc lease)).modElem r fun e => { e with back := s.tu + nocTu }
      let before (y : Req) : Bool := y.src == r.src && y.pa / 128 == line && decide (y.seq < r.seq)
      if s.tu < r.due || (q.take idx).any before || s.earlier r then none
      else if s.inRing r.pa then some (go s)
      else match s.claimed cluster line with
        | some c => if c.used ≤ s.tu then some (go s) else none
        | none => s.askClaim cluster r

/-- The home slice recalls a claim, for a request of its queue that meets it. -/
def execClusterLineRecall (cluster line : Nat) : State → Res :=
  event fun s =>
    let sl := s.slice (sliceOf (line * 128))
    if (s.claimed cluster line).any (fun c => decide (c.used ≤ s.tu)) && (sl.q.any fun r => r.pa / 128 == line && decide (r.due ≤ s.tu)) then
      some (s.dropClaim line)
    else none

/-- A claim ends 1 µs after the line's last atomic. -/
def execClusterClaimTimeout (cluster line : Nat) : State → Res :=
  event fun s =>
    match s.claimed cluster line with
    | some c => if c.used + 1000 * Config.tuPerNs ≤ s.tu then some (s.dropClaim line) else none
    | none => none

/-- Whether an instruction returns values (R410). -/
def Acc.returns (a : Acc) : Bool := a.path == .g

/-- An element whose access failed: DATA_ERROR for a load or atomic, a store dropped; its record's detail is 1 (R402). -/
def State.failElem (s : State) (r : Req) : State :=
  match s.acc? r.core r.ctx r.acc, s.elem? r with
  | some a, some e => (s.recordUnc r e.va 1).modElem r fun e => e.finish false a.returns [] s.dtc
  | _, _ => s

/-- The requests of a queue or list that some test names are gone. -/
def State.dropReqs (s : State) (f : Req → Bool) : State :=
  { s with
    slices := s.slices.map fun x => (x.1, { x.2 with
      q := x.2.q.filter fun r => !f r
      lines := x.2.lines.map fun l => { l with miss := l.miss.map (·.filter fun r => !f r) } })
    clusters := s.clusters.map fun c => (c.1, { c.2 with atomQ := c.2.atomQ.filter fun r => !f r }) }

/-- A request that a channel failed: an element fails; a slot's line or a claimed one fails what waits for it; an engine or a
unit learns of an error; each with its record (R402). -/
def State.failReq (s : State) (r : Req) : State :=
  let rec_ : RecInfo := { sliceErr r.pa with detail := 1 }
  match r.for_ with
  | .elem => s.failElem r
  | .slot =>
    if (s.acc? r.core r.ctx r.acc).isSome && r.src == .core r.core then
      let r : Req := { r with for_ := .elem }
      (s.dropReqs fun y => y.for_ == .elem && y.seq == r.seq).failElem r
    else s.record tcData rec_
  | .claim k =>
    let rs := (s.cluster k).atomQ.filter fun y => y.pa / 128 == r.pa / 128
    rs.foldl State.failElem (s.dropReqs fun y => rs.contains y)
  | _ => (s.record tcData rec_).give r none s.dtc

/-! ### Places in the save pool (R242, R243) -/

/-- Bytes the host allots to the context of a wave with a row budget. -/
def saveSize (g : Nat) : Nat := 3456 + 128 * g + 2048

/-- Bytes of a workgroup save area. -/
def WGrp.saveSize (g : WGrp) : Nat :=
  (g.ta.length + g.tw.length + g.tc.length) * 1025 + 64 * g.bars.length + 64 + 16 * g.scl.length + 32

/-- The areas of the pool in use: contexts of waves, those saved among them, and reservations of evicted workgroups. -/
def State.savedAreas (s : State) : List (Nat × Nat) :=
  s.saved.map (fun x => (x.addr, saveSize x.g))
    ++ (s.cores.flatMap fun c => c.2.waves.filterMap fun w => w.2.area.map fun a => (a, saveSize w.2.g))
    ++ ((s.wgs.filter fun e => e.2.core.isNone && e.2.evict && !e.2.ended).map fun e => (e.2.saveAt, e.2.saveSize))

/-- The lowest free place of the pool that n bytes fit, at a 128-byte boundary, and from the pool's beginning (log entry 27). -/
def State.savePlace (s : State) (n : Nat) : Option Nat :=
  match s.pools.savePool with
  | none => none
  | some (base, size) =>
    let used := s.savedAreas
    let cands := base :: used.map fun u => up (u.1 + u.2) 128
    (cands.filter fun a => base ≤ a && a + n ≤ base + size && used.all fun u => !overlap u a n).min?

end Sys2Proof.Machine
end

