-- ==== Sys2Proof/Machine/CopyEngine.lean ====
section
/-! DEFINITION. The copy engine: kick, the input queue, the checks of a request and its 16-byte parts (R190 to R196),
with the current it reserves (R277). -/

namespace Sys2Proof.Machine

/-! ### The fields of a request (R190) and of a window descriptor (R194) -/

def CopyReq.f (r : CopyReq) (w lo n : Nat) : Nat := bitsOf (r.words.getD w 0).toNat lo n

def CopyReq.par (r : CopyReq) : Bool := r.f 0 62 1 == 1
def CopyReq.swait (r : CopyReq) : Bool := r.f 0 61 1 == 1
def CopyReq.zc (r : CopyReq) : Nat := r.f 0 59 2
def CopyReq.mode (r : CopyReq) : Nat := r.f 0 56 3
def CopyReq.dsp (r : CopyReq) : Nat := r.f 0 54 2
def CopyReq.ssp (r : CopyReq) : Nat := r.f 0 52 2
def CopyReq.src (r : CopyReq) : Nat := r.f 0 0 52
def CopyReq.esz (r : CopyReq) : Nat := r.f 1 58 2
def CopyReq.ebytes (r : CopyReq) : Nat := 2 ^ r.esz
def CopyReq.nb (r : CopyReq) : Nat := r.f 1 52 6
def CopyReq.dst (r : CopyReq) : Nat := r.f 1 0 52
def CopyReq.bytes (r : CopyReq) : Nat := r.f 2 0 32
def CopyReq.rows (r : CopyReq) : Nat := r.f 2 16 16
def CopyReq.rowb (r : CopyReq) : Nat := r.f 2 0 16
def CopyReq.dstr (r : CopyReq) : Int := intOf 32 true (r.f 3 32 32)
def CopyReq.sstr (r : CopyReq) : Int := intOf 32 true (r.f 3 0 32)
def CopyReq.tap (r : CopyReq) : Nat := r.f 2 48 8
def CopyReq.c0 (r : CopyReq) : Nat := r.f 2 32 16
def CopyReq.oy (r : CopyReq) : Nat := r.f 2 16 16
def CopyReq.ox0 (r : CopyReq) : Nat := r.f 2 0 16
def CopyReq.wdesc (r : CopyReq) : Nat := r.f 3 0 17

/-- A field of the window descriptor. -/
def CopyReq.g (r : CopyReq) (lo n : Nat) : Nat := bitsOf (leNat r.desc) lo n
def CopyReq.cb (r : CopyReq) : Nat := r.g 224 8

/-- Z_S for the request's element size (R195). -/
def CopyReq.slot (r : CopyReq) : Nat := slotSize r.ebytes

/-! ### The checks of R191 -/

/-- MODE, SSP, DSP and ZC that stand in the table of R191. -/
def copyCombo (mode ssp dsp zc : Nat) : Bool :=
  match mode, zc with
  | 0, 0 => ssp < 3 && dsp < 3
  | 0, 1 => ssp == 1 && dsp < 2
  | 0, 2 => ssp < 2 && (dsp == 1 || dsp == 2)
  | 1, 0 => ssp < 3 && dsp < 3
  | 2, 0 => ssp < 2 && dsp == 1
  | _, _ => false

/-- Check 2: well-formed in every field its mode uses, zero in the others. -/
def CopyReq.formed (r : CopyReq) : Bool :=
  copyCombo r.mode r.ssp r.dsp r.zc && r.f 0 63 1 == 0 && r.f 1 60 4 == 0 && r.src % 16 == 0 && r.dst % 16 == 0
    && (if r.mode = 2 || r.zc != 0 then r.esz < 3 else r.esz == 0)
    && (match r.mode with
      | 0 => r.f 2 32 32 == 0 && r.f 3 0 64 == 0 && 1 ≤ r.bytes && r.bytes ≤ 2 ^ 24 && r.bytes % 16 == 0
          && (r.zc == 0 || r.bytes % 1024 == 0)
      | 1 => r.f 2 32 32 == 0 && 1 ≤ r.rows && 1 ≤ r.rowb && r.rowb % 16 == 0 && r.dstr % 16 == 0 && r.sstr % 16 == 0
      | _ => r.f 2 56 8 == 0 && r.f 3 17 47 == 0 && r.c0 * r.ebytes % 16 == 0 && r.dst % 1024 == 0 && r.wdesc % 32 == 0)

/-- Bytes of a local space of a workgroup, by the codes of SSP and DSP; none for global. -/
def WGrp.space (g : WGrp) (code : Nat) (src : Bool) : Option Nat :=
  match code with
  | 0 => none
  | 1 => some (g.size .a)
  | _ => some (if src then g.size .c else g.size .w)

def within (sz : Option Nat) (lo : Int) (n : Nat) : Bool :=
  match sz with
  | none => true
  | some k => decide (0 ≤ lo ∧ lo + n ≤ k)

/-- Check 3: every local range the request's own fields fix lies in the reservation. -/
def CopyReq.inside (r : CopyReq) (g : WGrp) : Bool :=
  let ss := g.space r.ssp true
  let ds := g.space r.dsp false
  match r.mode with
  | 0 =>
    let sn := if r.zc = 2 then r.bytes / 1024 * r.slot else r.bytes
    let dn := if r.zc = 1 then r.bytes / 1024 * r.slot else r.bytes
    within ss r.src sn && within ds r.dst dn
  | 1 => (List.range r.rows).all fun (j : Nat) =>
      within ss ((r.src : Int) + j * r.sstr) r.rowb && within ds ((r.dst : Int) + j * r.dstr) r.rowb
  | _ => within ds r.dst 1024 && within (some (g.size .a)) r.wdesc 32

/-- Check 4: the window descriptor (R194). -/
def CopyReq.descOk (r : CopyReq) : Bool :=
  let nz (lo n : Nat) : Bool := 1 ≤ r.g lo n
  let cbe := r.cb * r.ebytes
  r.g 232 24 == 0 && 1 ≤ r.cb && r.cb ≤ 64 && (cbe == 16 || cbe == 32 || cbe == 48 || cbe == 64)
    && r.g 192 32 % 16 == 0 && r.g 160 32 % 16 == 0 && nz 112 16 && nz 96 16 && nz 88 8 && nz 80 8 && nz 72 8 && nz 64 8
    && nz 48 16 && nz 32 16 && nz 16 16 && nz 0 16 && decide (r.tap < r.g 72 8 * r.g 64 8)

/-- Parts of a request: 16 bytes of its destination each; for compress, tiles. -/
def CopyReq.count (r : CopyReq) : Nat :=
  match r.mode with
  | 0 => if r.zc = 1 then r.bytes / 1024 else r.bytes / 16
  | 1 => r.rows * (r.rowb / 16)
  | _ => r.cb * r.ebytes

/-! ### kick and the input queue (R192) -/

/-- The engine reads a request of a kick, in order, while its queue has room; each read lowers C. -/
def State.readKick (core : Nat) : Nat → State → State
  | 0, s => s
  | n + 1, s =>
    let c := s.core core
    match c.kicks with
    | k :: ks =>
      if c.copyIn.length < 64 then
        let bytes := s.bufGet k.wg .a k.addr 32
        let ws := (List.range 4).map fun i => BitVec.ofNat 64 (fieldAt bytes (8 * i) 8)
        let prio := (s.wave core k.ctx).prio
        let s := s.modCore core fun c => { c with
          copyIn := c.copyIn ++ [⟨c.nextReq, k.ctx, k.idx, k.wg, k.grid, prio, ws, [], 0, 0, [], 0, 0, 0, [], 0, none⟩]
          nextReq := c.nextReq + 1
          kicks := if k.left ≤ 1 then ks else { k with addr := k.addr + 32, left := k.left - 1, acc := k.acc + 1 } :: ks }
        State.readKick core n (s.completeAcc core k.ctx k.acc .c)
      else s
    | [] => s

/-- kick: a count of 0 passes every check and does nothing else (R192). -/
def execKick (a b : Opnd) (off : BitVec 8) : State → Res :=
  isaCtl fun s => do
    let base ← s.scalar a
    let n ← s.scalar b
    let addr := base + off.signExtend 32 * 32#32
    if n = 0 then .ok s.advance else
    check (addr.toNat % 32 == 0) ⟨tcMisaligned, 0, addr, 0⟩
    check (decide (n.toNat ≤ 64)) ⟨tcProtection, 0, addr, 0⟩
    check (decide (addr.toNat + n.toNat * 32 ≤ s.g.size .a)) ⟨tcProtection, 0, addr, 0⟩
    if 255 < s.w.count .c + n.toNat then .ok s.stall
    else
      let c := s.cur
      let w := s.w
      let s := s.modW fun w => (List.range n.toNat).foldl (fun w _ => w.addAcc (w.newAcc .c s.sp.pc .store)) w
      let s := s.modCore c.core fun k => { k with kicks := k.kicks ++ [⟨c.ctx, w.idx, w.wg, w.grid, addr.toNat, n.toNat, w.nextAcc⟩] }
      .ok (State.readKick c.core n.toNat s.advance)

def execKickQueueRefill (core : Nat) : State → Res :=
  event fun s =>
    let c := s.core core
    if !c.kicks.isEmpty && decide (c.copyIn.length < 64) then some (State.readKick core 1 s) else none

/-! ### Taking a request (R191) -/

def execCopyRequestTake (core : Nat) : State → Res :=
  event fun s =>
    match (s.core core).copyIn with
    | [] => none
    | r :: rest =>
      let s := s.modCore core fun c => { c with copyIn := rest }
      let g := s.wg r.wg
      if !decide (r.nb < g.bars.length) then
        some (s.record tcDenied ⟨0, 0, core, (s.grid r.grid).d.stage, false, false, 255, r.grid, r.nb⟩)
      else if !r.formed then some (s.barError r.wg r.nb 7 0 false false)
      else if !r.inside g then some (s.barError r.wg r.nb 5 0 false false)
      else
        let r := if r.mode = 2 then { r with desc := s.bufGet r.wg .a r.wdesc 32 } else r
        if r.mode = 2 && !r.descOk then some (s.barError r.wg r.nb 7 0 false false)
        else some (s.modCore core fun c => { c with copyRun := c.copyRun ++ [{ r with total := r.count }] })

/-! ### Reading and writing for an engine (R193, R196, R317) -/

/-- What an engine's access of a place gives: bytes; a cause with the address it concerns and whether a page-table entry
was malformed; or a wait: for a tile, for a walk of a page, for a read it is yet to ask for. -/
inductive EngRead where
  | bytes (bs : List Byte) | cause (c : Nat) (addr : DWord) (mal : Bool) | wait | walk (va : DWord) | ask (pa n : Nat)
  deriving DecidableEq, Repr

/-- The physical address of a global place of a request, once its page is at hand (R196, R317). -/
def State.engPlace (s : State) (core : Nat) (r : CopyReq) (va : Int) (write : Bool) : Except EngRead Nat :=
  let a := BitVec.ofInt 64 va
  match s.walkFaults.find? fun f => f.src == .engine core 0 && f.key == r.id && f.va == pageUnit a.toNat with
  | some f => .error (.cause (if f.kind = kindBad then 8 else 6) a f.mal)
  | none => match s.lookup core (s.grid r.grid).d.asid a write with
    | .fault _ => .error (.cause 6 a false)
    | .miss => .error (.walk a)
    | .page e => .ok (e.pa? a.toNat)

/-- n bytes of global memory: what its request has brought back, or the request it needs. -/
def State.engGlobal (s : State) (core : Nat) (r : CopyReq) (va : Int) (n : Nat) : EngRead :=
  match s.engPlace core r va false with
  | .error w => w
  | .ok pa => match r.got.find? (·.1 == pa) with
    | some (_, some bs) => if s.tu < r.back then .wait else .bytes (bs.take n)
    | some (_, none) => .cause 8 (BitVec.ofInt 64 va) false
    | none => .ask pa n

/-- A tile an issued matrix instruction will write reads as R223 gives. -/
def State.engLocal (s : State) (core wg : Nat) (sp : Space) (lo n : Nat) : List Byte :=
  if sp = .c && (tilesOf lo n).any (s.busyDst core wg) then (List.range n).map fun i => Config.freeByte (s.freeIx 11 i)
  else s.bufGet wg sp lo n

def spaceOf (code : Nat) (src : Bool) : Space := if code = 1 then .a else if src then .c else .w

/-- n source bytes of a request, waiting for V under SWAIT. -/
def State.copySrc (s : State) (core : Nat) (r : CopyReq) (at_ : Int) (n : Nat) : EngRead :=
  if r.ssp = 0 then s.engGlobal core r at_ n
  else
    let lo := at_.toNat
    let sp := spaceOf r.ssp true
    if r.swait && !((tilesOf lo n).all fun t => ((s.wg r.wg).tag sp t).v) then .wait
    else .bytes (s.engLocal core r.wg sp lo n)

/-! ### Gather (R194) -/

/-- Whether element (p, c) of the tile lies inside the input, and where it lies. -/
def CopyReq.gatherAt (r : CopyReq) (p c : Nat) : Option Int :=
  let kw := r.g 64 8
  let iy : Int := (r.oy * r.g 88 8 : Nat) - (r.g 144 16 : Nat) + (r.tap / kw * r.g 112 16 : Nat)
  let ox := r.ox0 + p
  let ix : Int := (ox * r.g 80 8 : Nat) - (r.g 128 16 : Nat) + (r.tap % kw * r.g 96 16 : Nat)
  if decide (ox < r.g 48 16) && decide (0 ≤ ix) && decide (ix < r.g 0 16) && decide (0 ≤ iy) && decide (iy < r.g 16 16)
      && decide (r.c0 + c < r.g 32 16) then
    some (r.src + iy * (r.g 192 32 : Nat) + ix * (r.g 160 32 : Nat) + ((r.c0 + c) * r.ebytes : Nat))
  else none

/-- Z of R194: no element of the tile lies inside. -/
def CopyReq.gatherZ (r : CopyReq) : Bool :=
  (List.range 16).all fun p => (List.range r.cb).all fun c => (r.gatherAt p c).isNone

/-- The first outcome of a list of reads that is not bytes, else all bytes in order. -/
def joinReads : List EngRead → EngRead
  | [] => .bytes []
  | .bytes b :: rs => match joinReads rs with
    | .bytes bs => .bytes (b ++ bs)
    | x => x
  | x :: _ => x

/-- 16 bytes of a gathered tile: elements i/ESZ on, in row order. -/
def State.gatherPart (s : State) (core : Nat) (r : CopyReq) (i : Nat) : EngRead :=
  let per := 16 / r.ebytes
  joinReads ((List.range per).map fun j =>
    let e := i * per + j
    match r.gatherAt (e / r.cb) (e % r.cb) with
    | none => .bytes (List.replicate r.ebytes 0)
    | some a =>
      if r.ssp = 1 && !within (some ((s.wg r.wg).size .a)) a r.ebytes then .cause 5 (BitVec.ofInt 64 a) false
      else s.copySrc core r a r.ebytes)

/-! ### Compress and expand (R195) -/

def elemsOf (n : Nat) : Nat → List Byte → List (List Byte)
  | 0, _ => []
  | k + 1, bs => bs.take n :: elemsOf n k (bs.drop n)

def nonZero (e : List Byte) : Bool := e.any (· != 0)

/-- A group's bitmap and its non-zero elements. -/
def packGroup (es : List (List Byte)) : List Byte :=
  leBytes 2 ((List.range 16).foldl (fun a i => if nonZero (es.getD i []) then a + 2 ^ i else a) 0) ++ (es.filter nonZero).flatten

/-- The slot of 1,024 plain bytes. -/
def packTile (esz : Nat) (plain : List Byte) : List Byte :=
  let groups := 1024 / (16 * esz)
  let body := (List.range groups).flatMap fun g => packGroup (elemsOf esz 16 (plain.drop (g * 16 * esz)))
  leBytes 2 (16 + body.length) ++ leBytes 2 groups ++ List.replicate 12 0 ++ body

/-- The 16 elements of a group from its bitmap and the elements it stores. -/
def unpackGroup (esz m : Nat) (bs : List Byte) : List Byte :=
  ((List.range 16).foldl (fun (x : List Byte × List Byte) i =>
    if m.testBit i then (x.1 ++ x.2.take esz, x.2.drop esz) else (x.1 ++ List.replicate esz 0, x.2)) ([], bs)).1

/-- Bytes of elements that a bitmap marks. -/
def groupLen (esz m : Nat) : Nat := esz * ((List.range 16).filter fun i => m.testBit i).length

/-- n bytes at a place of the slot of a tile, read in aligned 16-byte parts. -/
def State.slotRead (s : State) (core : Nat) (r : CopyReq) (tile at_ n : Nat) : EngRead :=
  let a := at_ / 16
  match joinReads ((List.range ((at_ + n + 15) / 16 - a)).map fun i => s.copySrc core r ((r.src + tile * r.slot + 16 * (a + i) : Nat) : Int) 16) with
  | .bytes bs => .bytes ((bs.drop (at_ % 16)).take n)
  | w => w

/-- The place of group k in the slot of a tile, from the bitmaps of the groups before it. -/
def State.slotPlace (s : State) (core : Nat) (r : CopyReq) (tile : Nat) : Nat → Except EngRead Nat
  | 0 => .ok 16
  | k + 1 =>
    match s.slotPlace core r tile k with
    | .error w => .error w
    | .ok at_ => match s.slotRead core r tile at_ 2 with
      | .bytes m => .ok (at_ + 2 + groupLen r.ebytes (leNat m))
      | w => .error w

/-! ### One part (R163, R164, R193, R194) -/

/-- Where part i of a request lies in its source and destination. -/
def CopyReq.places (r : CopyReq) (i : Nat) : Int × Int :=
  match r.mode with
  | 1 =>
    let per := r.rowb / 16
    let j := i / per
    let o := i % per * 16
    ((r.src : Int) + j * r.sstr + o, (r.dst : Int) + j * r.dstr + o)
  | _ => ((r.src + 16 * i : Nat), (r.dst + 16 * i : Nat))

/-- Whether a later part of the request writes into a local tile (R164). -/
def CopyReq.laterIn (r : CopyReq) (i tile : Nat) : Bool :=
  match r.mode with
  | 1 =>
    let per := r.rowb / 16
    let j0 := i / per
    let hits (lo : Int) (n : Nat) : Bool := decide (0 < n ∧ lo < (tile + 1) * 1024 ∧ (tile : Int) * 1024 < lo + n)
    hits ((r.dst : Int) + j0 * r.dstr + ((i % per + 1) * 16 : Nat)) (r.rowb - (i % per + 1) * 16)
      || (List.range r.rows).any fun (j : Nat) => decide (j0 < j) && hits ((r.dst : Int) + j * r.dstr) r.rowb
  | _ => decide (i + 1 < r.total) && (r.dst + 16 * (i + 1)) / 1024 == tile

/-- A request stopped, with its cause on its barrier (R196). -/
def State.stopCopy (s : State) (core : Nat) (r : CopyReq) (cause : Nat) (addr : DWord) (mal : Bool) : State :=
  let s := ({ s with walkFaults := s.walkFaults.filter fun f => !(f.src == .engine core 0 && f.key == r.id) } : State).modCore core
    fun c => { c with copyRun := c.copyRun.filter fun x => x.id != r.id }
  if cause = 6 then s.barFault r.wg r.nb addr mal
  else s.barError r.wg r.nb cause addr (r.ssp = 0 || r.dsp = 0) (cause = 8)

def State.setCopy (s : State) (core : Nat) (r : CopyReq) : State :=
  s.modCore core fun c => { c with copyRun := c.copyRun.map fun x => if x.id = r.id then r else x }

/-- A request to memory that one of the engine's requests has made is on its way. -/
def State.copyAsked (s : State) (core id : Nat) : Bool :=
  s.onWay fun y => y.src == .engine core 0 && match y.for_ with
    | .copyRead i _ => i == id
    | .copyWrite i _ _ => i == id
    | _ => false

/-- A part that cannot be done yet. A read it lacks is asked for, and a page it misses is walked for; a stop takes effect
once nothing of the request is on its way. -/
def State.copyPause (s : State) (core : Nat) (r : CopyReq) (w : EngRead) : Option State :=
  let req (pa : Nat) (p : Purpose) : Req := Req.of core 0 0 0 pa r.prio (.engine core 0) p
  match w with
  | .ask pa n => if s.copyAsked core r.id then none else some (s.engSend (req pa (.copyRead r.id n)) false n []).pumpHost
  | .walk va =>
    let d := (s.grid r.grid).d
    if s.walks.any (fun x => x.eng.contains (.engine core 0, r.id) && x.va == pageUnit va.toNat) then none
    else some (s.queueWalk (core / 16) (some core) d.asid d.root va.toNat [(.engine core 0, r.id)])
  | .cause c a mal => some (s.stopCopy core r c a mal)
  | _ => none

/-- A global write of a part: asked for, or its page walked for. -/
def State.copyPut (s : State) (core : Nat) (r : CopyReq) (pa : Nat) (bs : List Byte) : Option State :=
  if s.copyAsked core r.id then none
  else some (s.engSend (Req.of core 0 0 0 pa r.prio (.engine core 0) (.copyWrite r.id r.grid bs)) true bs.length bs).pumpHost

/-- The tags of the destination tiles let a write begin (R164). -/
def WGrp.mayBegin (g : WGrp) (sp : Space) (begun ts : List Nat) : Bool :=
  ts.all fun t => begun.contains t || (g.tag sp t).c || !(g.tag sp t).v

/-- A tile written whole takes V = 1, C = 0 and its zero flag. -/
def State.tileDone (s : State) (wg : Nat) (sp : Space) (t : Nat) (z : Bool) : State :=
  s.modWg wg fun g => g.modTag sp t fun _ => ⟨true, false, z⟩

/-- Bytes of a request written to its destination: a wait or a stop, or the state with the completion time of a global
write that has been acknowledged. `last` tells which touched tiles this part completes. -/
def State.copyDst (s : State) (core : Nat) (r : CopyReq) (lo : Int) (bs : List Byte) (last : Nat → Bool) (z : Bool) :
    Except (Option State) (State × CopyReq × Option DWord) :=
  if r.dsp = 0 then
    match s.engPlace core r lo true with
    | .error w => .error (s.copyPause core r w)
    | .ok pa =>
      if (r.got.any fun g => g.1 == pa && g.2.isNone) then .error (some (s.stopCopy core r 8 (BitVec.ofInt 64 lo) false))
      else match r.wrote with
        | some (_, t) => if s.tu < r.back then .error none else .ok (s, r, some t)
        | none => .error (s.copyPut core r pa bs)
  else
    let sp := spaceOf r.dsp false
    let lo := lo.toNat
    let ts := tilesOf lo bs.length
    if (s.wg r.wg).mayBegin sp r.begun ts then
      let fresh := ts.filter fun t => !r.begun.contains t
      let s := s.bufPut core r.wg sp lo bs .engine
      let s := s.modWg r.wg fun g => g.modTags sp fresh fun t => { t with v := false }
      let s := (ts.filter last).foldl (fun s t => s.tileDone r.wg sp t z) s
      .ok (s, { r with begun := fresh ++ r.begun }, none)
    else .error none

/-- A part is over: its bytes count, and the request goes on or ends. What was read of a compressed slot stays for the
parts of its tile. -/
def State.copyNext (s : State) (core : Nat) (r : CopyReq) (next comp n : Nat) (time : DWord) (t : Option DWord) : State :=
  let r := { r with
    next := next, comp := comp, time := time, granted := r.granted - 16, wrote := none
    got := if (r.zc = 2 && next % 64 != 0) || (r.zc = 1 && comp != 0) then r.got else [] }
  let s := if next < r.total then s.setCopy core r else s.modCore core fun c => { c with copyRun := c.copyRun.filter fun x => x.id != r.id }
  if n = 0 then s else s.barBytes r.wg r.nb r.par n t

/-- The bytes of the next part of a request that is not compressed. -/
def State.copyPlain (s : State) (core : Nat) (r : CopyReq) (i : Nat) : EngRead :=
  if r.mode = 2 then (if r.gatherZ then .bytes (List.replicate 16 0) else s.gatherPart core r i)
  else s.copySrc core r (r.places i).1 16

/-- One part of linear, two-dimensional or gather. -/
def State.copyStep (s : State) (core : Nat) (r : CopyReq) : Option State :=
  match s.copyPlain core r r.next with
  | .bytes bs =>
    let last (t : Nat) : Bool := !r.laterIn r.next t
    match s.copyDst core r (r.places r.next).2 bs last (r.mode == 2 && r.gatherZ) with
    | .error x => x
    | .ok (s, r, t) => some (s.copyNext core r (r.next + 1) 0 16 0 t)
  | w => s.copyPause core r w

/-- One part of a slot under compress; the tile counts when its slot is written. -/
def State.compressStep (s : State) (core : Nat) (r : CopyReq) : Option State :=
  match joinReads ((List.range 64).map fun i => s.copySrc core r ((r.src + r.next * 1024 + 16 * i : Nat) : Int) 16) with
  | .bytes bs =>
    let img := packTile r.ebytes bs
    let part := (img.drop (16 * r.comp)).take 16
    let lo := r.dst + r.next * r.slot + 16 * r.comp
    let done := decide (img.length ≤ 16 * (r.comp + 1))
    let lastTile (t : Nat) : Bool := done && !(decide (r.next + 1 < r.total) && (r.dst + (r.next + 1) * r.slot) / 1024 == t)
      || (!done && (lo + 16) / 1024 != t)
    match s.copyDst core r (lo : Int) part lastTile false with
    | .error x => x
    | .ok (s, r, t) =>
      let time := maxD r.time (t.getD 0)
      if done then some (s.copyNext core r (r.next + 1) 0 1024 0 (t.map fun _ => time))
      else some (s.copyNext core r r.next (r.comp + 1) 0 time none)
  | w => s.copyPause core r w

/-- The 16 bytes of part j of a tile under expand. -/
def State.expandPart (s : State) (core : Nat) (r : CopyReq) (tile j : Nat) : EngRead :=
  let esz := r.ebytes
  match s.slotPlace core r tile (j / esz) with
  | .error w => w
  | .ok at_ => match s.slotRead core r tile at_ 2 with
    | .bytes m => match s.slotRead core r tile (at_ + 2) (groupLen esz (leNat m)) with
      | .bytes bs => .bytes (((unpackGroup esz (leNat m) bs).drop (j % esz * 16)).take 16)
      | w => w
    | w => w

/-- One part of a tile under expand: the group count is checked before the tile, the length after it. -/
def State.expandStep (s : State) (core : Nat) (r : CopyReq) : Option State :=
  let tile := r.next / 64
  let j := r.next % 64
  let groups := 1024 / (16 * r.ebytes)
  match s.slotRead core r tile 0 16 with
  | .bytes head =>
    if j = 0 && fieldAt head 2 2 != groups then some (s.stopCopy core r 7 0 false)
    else match s.expandPart core r tile j with
      | .bytes part =>
        match s.copyDst core r ((r.dst + r.next * 16 : Nat) : Int) part (fun t => !r.laterIn r.next t) false with
        | .error x => x
        | .ok (s', r', t) =>
          let fits := match s.slotPlace core r tile groups with
            | .ok n => n == fieldAt head 0 2
            | .error _ => true
          let s' := s'.copyNext core r' (r.next + 1) 0 16 0 t
          if j = 63 && !fits then some (s'.stopCopy core r' 7 0 false) else some s'
      | w => s.copyPause core r w
  | w => s.copyPause core r w

/-- The engine performs the next part of a request, under its current reservation (R193, R277). -/
def execCopyPartWrite (core req : Nat) : State → Res :=
  event fun s =>
    match (s.core core).copyRun.find? (·.id == req) with
    | none => none
    | some r =>
      if r.granted = 0 then none
      else if r.zc = 1 then s.compressStep core r
      else if r.zc = 2 then s.expandStep core r
      else s.copyStep core r

end Sys2Proof.Machine
end

