-- ==== Sys2Proof/Machine/MatrixMath.lean ====
section
/-! DEFINITION. What the matrix array computes: operand layouts (R211 to R214), the sums of R94 in FA24 or exactly,
block scales (R90, R215), the epilogue (R230) and the running argmax (R231), with their flags (R220). -/

namespace Sys2Proof.Machine

/-! ### The format block (R208 to R210) -/

def fbIsFloat (c : Nat) : Bool := decide (c ≤ 4)
def fbIsInt (c : Nat) : Bool := decide (8 ≤ c ∧ c ≤ 13)
def fbBlock (fb : DWord) : Nat := if fbBL fb = 1 then 16 else if fbBL fb = 2 then 32 else 0
/-- An operand is block-scaled: a block length and a scale tensor. -/
def fbScaledA (fb : DWord) : Bool := fbBL fb != 0 && fbSidA fb != 255
def fbScaledB (fb : DWord) : Bool := fbBL fb != 0 && fbSidB fb != 255

/-- Whether a SID may stand on an operand of a format. -/
def sidOk (fb : DWord) (fmt sid : Nat) (isB : Bool) : Bool :=
  sid == 255 || (fbBL fb != 0 && (fmt == 2 || fmt == 3 || fmt == 4)) || (isB && fbPro fb)

/-- R210 for mma (sp = false), mma.sp and vmx. -/
def fbValid (fb : DWord) (k : Nat) (sp vmx : Bool) : Bool :=
  let af := fbAF fb
  let bf := fbBF fb
  (fb.extractLsb' 36 28).toNat == 0 && decide (fbPI fb < 6)
    && (fbPrec fb == 0 || fbPrec fb == 2 || fbPrec fb == 4 || fbPrec fb == 8) && decide (fbBL fb < 3)
    && ((fbIsFloat af && fbIsFloat bf && fbPrec fb == 0)
      || (fbIsInt af && fbIsInt bf && fbBL fb == 0 && fbSidA fb == 255 && fbSidB fb == 255 && fbPI fb == 0))
    && (fbPrec fb == 0 || (decide (fbPrec fb ≤ fmtBits bf) && fbSPN fb == 0 && !fbPro fb))
    && (af != 4 || (fbBL fb != 0 && fbSidA fb != 255)) && (bf != 4 || (fbBL fb != 0 && fbSidB fb != 255))
    && sidOk fb af (fbSidA fb) false && sidOk fb bf (fbSidB fb) true
    && (!fbPro fb || (bf == 0 && fbBL fb == 0 && fbSPN fb == 0 && fbSidB fb != 255 && k % 32 == 0))
    && (if sp then fbSPN fb != 0 else fbSPN fb == 0)
    && (fbBL fb != 2 || k % 32 == 0)
    && (!vmx || ((af == 0 || af == 1) && fbBL fb == 0 && !fbPro fb && fbSidA fb == 255 && fbSidB fb == 255))

/-! ### Elements -/

/-- The float value of a stored code; X for code 0b1000 of e2m1x. -/
def fmtVal (fmt code x : Nat) : FV :=
  match fmt with
  | 0 => decode bf16 code
  | 1 => decode f16 code
  | 2 => decode e4m3 code
  | 3 => decode e5m2 code
  | _ => e2m1xVal code x

/-- The integer value of a stored code of a format, of declared precision p (0 for all its bits) (R213). -/
def fmtInt (fmt p code : Nat) : Int :=
  let w := fmtBits fmt
  let sgn := fmt % 2 == 0
  if p = 0 || p = w then intOf w sgn code
  else intOf p sgn (code / 2 ^ (w - p)) * (2 ^ (w - p) : Nat)

/-- A[i][k] as stored (R211), from the operand's bytes. -/
def codeA (fb : DWord) (k : Nat) (bytes : Nat) (i kk : Nat) : Nat :=
  let b := fmtBits (fbAF fb)
  bitsOf bytes ((i * k + kk) * b) b

/-- B[kk][j] as stored in planes (R212), from the operand's bytes. -/
def codeB (fb : DWord) (bytes : Nat) (kk j : Nat) : Nat :=
  let p := planesB fb
  (List.range p).foldl (fun a q => a + bitsOf bytes (((kk / 16 * p + q) * 32) * 8 + 16 * j + kk % 16) 1 * 2 ^ q) 0

/-- The bitmap of column j of a k-step, and the rank of a kept element among the lowest N set bits (R214). -/
def spMap (fb : DWord) (bytes step j : Nat) : Nat := bitsOf bytes (step * sparseBlock fb * 8 + 16 * j) 16
def spRank (m k : Nat) : Nat := ((List.range k).filter fun i => m.testBit i).length

/-- B[kk][j] as stored for mma.sp; none where it is zero by sparsity. -/
def codeSp (fb : DWord) (bytes : Nat) (kk j : Nat) : Option Nat :=
  let m := spMap fb bytes (kk / 16) j
  let r := spRank m (kk % 16)
  if m.testBit (kk % 16) && decide (r < spN fb) then
    some ((List.range (planesB fb)).foldl (fun a q =>
      a + bitsOf bytes ((kk / 16 * sparseBlock fb + 32 + q * 2 * spN fb) * 8 + spN fb * j + r) 1 * 2 ^ q) 0)
  else none

/-! ### Scales (R215) -/

/-- The bytes of an entry of a scale tensor. -/
def sclSize (desc : Word) : Nat := if desc.getLsbD 18 then 4 else 2
def sclRS (desc : Word) : Nat := (desc.extractLsb' 0 16).toNat
def sclLocal (desc : Word) : Bool := (desc.extractLsb' 16 2).toNat == 1
/-- The address of the entry of row or column r, block b. -/
def SclBind.entry (x : SclBind) (r off b : Nat) : Nat := x.addr.toNat + (r * sclRS x.desc + off + b) * sclSize x.desc

/-- Blocks of an operand: K / BL, or K / 32 under PRO. -/
def blocksOf (fb : DWord) (k : Nat) (pro : Bool) : Nat := if pro then k / 32 else k / fbBlock fb

/-- Every entry an instruction needs: identifier, binding, address. -/
def MEntry.entries (e : MEntry) : List (Nat × SclBind × Nat) :=
  let offA := e.offs.toNat % 2 ^ 16
  let offB := e.offs.toNat / 2 ^ 16
  let all (b : Option (Nat × SclBind)) (off n : Nat) : List (Nat × SclBind × Nat) :=
    match b with
    | some (id, x) => (List.range 16).flatMap fun r => (List.range n).map fun q => (id, x, x.entry r off q)
    | none => []
  all e.bindA offA (blocksOf e.fb e.k false) ++ all e.bindB offB (blocksOf e.fb e.k (fbPro e.fb))

/-! ### One element of the tile (R94) -/

/-- A running element: FA24, the in-block sum, the promoted value, and the flags met. -/
structure Sum where
  fa : Nat
  acc : FV
  c : Nat
  fl : Nat
  deriving DecidableEq, Repr

def flOvf : Nat := 1
def flNan : Nat := 2
def flIovf : Nat := 4
def flVnull : Nat := 8
def flSpx : Nat := 16
def flZskip : Nat := 32

def isFin (x : FV) : Bool :=
  match x with
  | .fin _ _ _ => true
  | _ => false

/-- An addition into FA24 with its flags: saturation, and NaN. -/
def Sum.add (s : Sum) (x : FV) : Sum :=
  let y := xadd false (decode fa24 s.fa) x
  let sat := match y with
    | .fin n m e => m != 0 && decide (fa24.infCode ≤ roundMag fa24 .rtz 0 n m e false)
    | _ => false
  let fl := s.fl ||| (if sat then flOvf else 0) ||| (if y.isNan then flNan else 0)
  { s with fa := fa24Add s.fa x, fl := fl }

/-- The promotion of FA24 into the tile's f32. -/
def Sum.promote (s : Sum) : Sum :=
  let a := decode f32 s.c
  let b := decode fa24 s.fa
  let y := xadd false a b
  let c := roundTo f32 Mods.plain 0 y.toX
  let ovf := isFin y && c % 2 ^ 31 == f32.infCode
  { fa := 0, acc := .fin false 0 0, c := c, fl := s.fl ||| (if ovf then flOvf else 0) ||| (if y.isNan then flNan else 0) }

/-- A block's scale: s − 127, or none for a NaN block. -/
def sclExp (s : Nat) : Option Int := if s = 255 then none else some ((s : Int) - 127)

/-- acc × 2^(sa + sb). -/
def scaleAcc (acc : FV) (sa sb : Option Int) : FV :=
  match sa, sb with
  | some a, some b => scaleBy (-(a + b)) acc
  | _, _ => .nan false

/-- The float sum over k = 0 to K − 1: elements, the scale of each block of each operand, and the prior tile. -/
def dotFloat (fb : DWord) (k : Nat) (a b : Nat → FV) (sa sb : Nat → Option Int) (c : Nat) : Sum :=
  let scaled := fbScaledA fb || fbScaledB fb
  let bl := fbBlock fb
  let p := let p := 2 ^ fbPI fb; if bl = 32 && p = 1 then 2 else p
  (List.range k).foldl (fun (s : Sum) i =>
    let x := a i
    let y := b i
    let s : Sum := if x.isNan || y.isNan then { s with fl := s.fl ||| flNan } else s
    let pr := xmul x y
    let s : Sum := if scaled then { s with acc := xadd false s.acc pr } else s.add pr
    let s : Sum := if scaled && (i + 1) % bl == 0 then
        let q := i / bl
        let v := scaleAcc s.acc (sa q) (sb q)
        let s : Sum := if v.isNan then { s with fl := s.fl ||| flNan } else s
        { s.add v with acc := .fin false 0 0 }
      else s
    if (i + 1) % 16 = 0 && ((i + 1) / 16 % p = 0 || i + 1 = k) then s.promote else s)
    ⟨0, .fin false 0 0, c, if (decode f32 c).isNan then flNan else 0⟩

/-- The integer sum: the tile's i32 wraps, and IOVF says that it did. -/
def dotInt (k : Nat) (a b : Nat → Int) (c : Word) : Word × Nat :=
  let v := c.toInt + (List.range k).foldl (fun acc i => acc + a i * b i) 0
  (wI v, if (wI v).toInt = v then 0 else flIovf)

/-! ### A whole mma (R214, R217, R218, R227) -/

/-- What the array has read: the bytes of A and B as numbers, and each scale entry by its address key. -/
structure MOps where
  a : Nat
  b : Nat
  scl : Nat → Nat → Nat
  deriving Inhabited

/-- The scale entries of an operand: row or column r, block q. -/
def MEntry.scaleA (e : MEntry) (o : MOps) (r q : Nat) : Nat :=
  match e.bindA with
  | some (id, x) => o.scl id (x.entry r (e.offs.toNat % 2 ^ 16) q)
  | none => 127
def MEntry.scaleB (e : MEntry) (o : MOps) (r q : Nat) : Nat :=
  match e.bindB with
  | some (id, x) => o.scl id (x.entry r (e.offs.toNat / 2 ^ 16) q)
  | none => 127

/-- A[i][k] and B[k][j] as float values. -/
def MEntry.elA (e : MEntry) (o : MOps) (i k : Nat) : FV :=
  fmtVal (fbAF e.fb) (codeA e.fb e.k o.a i k) (if fbScaledA e.fb then e.scaleA o i (k / fbBlock e.fb) / 256 % 256 else 0)
def MEntry.elB (e : MEntry) (o : MOps) (sp : Bool) (k j : Nat) : FV :=
  if fbPro e.fb then decode bf16 (i4gWeight (codeB e.fb o.b k j) (e.scaleB o j (k / 32)))
  else
    let x := if fbScaledB e.fb then e.scaleB o j (k / fbBlock e.fb) / 256 % 256 else 0
    if sp then (match codeSp e.fb o.b k j with
      | some c => fmtVal (fbBF e.fb) c x
      | none => .fin false 0 0)
    else fmtVal (fbBF e.fb) (codeB e.fb o.b k j) x

def MEntry.intB (e : MEntry) (o : MOps) (sp : Bool) (k j : Nat) : Int :=
  if sp then (match codeSp e.fb o.b k j with
    | some c => fmtInt (fbBF e.fb) 0 c
    | none => 0)
  else fmtInt (fbBF e.fb) (fbPrec e.fb) (codeB e.fb o.b k j)

/-- Element (i, j) of the new tile with its flags, from the prior word. -/
def MEntry.mmaEl (e : MEntry) (o : MOps) (sp : Bool) (i j : Nat) (c : Word) : Word × Nat :=
  if fbIsInt (fbAF e.fb) then
    dotInt e.k (fun k => fmtInt (fbAF e.fb) 0 (codeA e.fb e.k o.a i k)) (fun k => e.intB o sp k j) c
  else
    let sa (q : Nat) : Option Int := if fbScaledA e.fb then sclExp (e.scaleA o i q % 256) else some 0
    let sb (q : Nat) : Option Int := if fbScaledB e.fb then sclExp (e.scaleB o j q % 256) else some 0
    let r := dotFloat e.fb e.k (e.elA o i) (fun k => e.elB o sp k j) sa sb c.toNat
    (w32 r.c, r.fl)

/-- A bitmap of the operand has more than N set bits (R214). -/
def MEntry.spx (e : MEntry) (o : MOps) : Bool :=
  (List.range (e.k / 16)).any fun s => (List.range 16).any fun j => decide (spN e.fb < spRank (spMap e.fb o.b s j) 16)

/-- The 256 words of the tile after an mma, with the flags. -/
def MEntry.mmaTile (e : MEntry) (o : MOps) (sp : Bool) (c : List Word) : List Word × Nat :=
  let rs := (List.range 256).map fun x => e.mmaEl o sp (x / 16) (x % 16) (c.getD x 0)
  (rs.map (·.1), rs.foldl (fun f r => f ||| r.2) (if sp && e.spx o then flSpx else 0))

/-! ### vmx (R228) -/

/-- x_t[k]: element k mod 2 of register Vx + ⌊k/2⌋. -/
def vmxX (x : List (List Word)) (t k : Nat) : Nat := el16 ((x.getD (k / 2) []).getD t 0) (k % 2)

/-- One thread's 16 columns from the bytes of its group's B. -/
def MEntry.vmxRow (e : MEntry) (x : List (List Word)) (t bytes : Nat) : List Word × Nat :=
  let rs := (List.range 16).map fun j =>
    dotFloat e.fb e.k (fun k => fmtVal (fbAF e.fb) (vmxX x t k) 0) (fun k => fmtVal (fbBF e.fb) (codeB e.fb bytes k j) 0)
      (fun _ => some 0) (fun _ => some 0) 0
  (rs.map fun r => w32 r.c, rs.foldl (fun f r => f ||| r.fl) 0)

/-! ### The epilogue (R230) -/

/-- Conversion to the epilogue's format: the stored code, and whether it was clamped or overflowed (R78, R82). -/
def epiCode (f : EpiFmt) (y : Word) : Nat × Bool :=
  let v := decode f32 y.toNat
  let fl (g : Fmt) : Nat × Bool :=
    let c := toFmt g Mods.plain 0 v.toX
    let big := match v with
      | .fin n m e => m != 0 && decide (g.infCode ≤ roundMag g .rne 0 n m e false)
      | .inf _ => g.top == .e4m3
      | .nan _ => false
    (c, big)
  let it (sg : Bool) : Nat × Bool :=
    let c := floatToInt .rne 0 8 sg v
    let big := match v with
      | .fin n m e => let i := toIntegralWide .rne 0 n m e; clampI 8 sg i != i
      | .inf _ => true
      | .nan _ => false
    (c.toNat % 256, big)
  match f with
  | .f32 => (y.toNat, false)
  | .f16 => fl f16
  | .bf16 => fl bf16
  | .e4m3 => fl e4m3
  | .e5m2 => fl e5m2
  | .i8 => it true
  | .n8 => it false

def actOf (a : Act) (y : Word) : Word :=
  let v := decode f32 y.toNat
  let pos := fltZ false (.fin false 0 0) v
  match a with
  | .none => y
  | .relu => if pos then y else 0
  | .clamp6 => if pos then (if fltZ false (.fin false 6 0) v then 0x40C00000#32 else y) else 0
  | .tanh => fopTanh Mods.plain y

/-- One element: converted, scaled and biased with one rounding, activated, converted; with its flags. -/
def epiEl (i32 : Bool) (act : Act) (f : EpiFmt) (x sc bi : Word) : Nat × Nat :=
  let xf : Nat := if i32 then roundTo f32 Mods.plain 0 (XV.ofInt x.toInt) else x.toNat
  let v := decode f32 xf
  let y := xadd false (xmul v (decode f32 sc.toNat)) (decode f32 bi.toNat)
  let yc := roundTo f32 Mods.plain 0 y.toX
  let r := epiCode f (actOf act (w32 yc))
  let nan := v.isNan || y.isNan || (decode f32 sc.toNat).isNan || (decode f32 bi.toNat).isNan
  let ovf := (isFin y && yc % 2 ^ 31 == f32.infCode) || r.2
  (r.1, (if nan then flNan else 0) ||| (if ovf then flOvf else 0))

/-- The plain bytes of the epilogue's tiles, with the flags. -/
def epiBytesOf (i32 : Bool) (act : Act) (f : EpiFmt) (tiles : List Word) (prm : List Byte) : List Byte × Nat :=
  let rs := (List.range tiles.length).map fun x =>
    epiEl i32 act f (tiles.getD x 0) (w32 (fieldAt prm (x % 16 * 4) 4)) (w32 (fieldAt prm (64 + x % 16 * 4) 4))
  (rs.flatMap fun r => leBytes (epiSize f) r.1, rs.foldl (fun g r => g ||| r.2) 0)

/-! ### amax (R231) -/

/-- v is greater than w, and v equals w, in the order of amax. -/
def amaxGt (i32 : Bool) (v w : Word) : Bool :=
  if i32 then decide (w.toInt < v.toInt)
  else
    let a := decode f32 v.toNat
    let b := decode f32 w.toNat
    if a.isNan then !b.isNan else if b.isNan then false else fltZ false b a
def amaxEq (i32 : Bool) (v w : Word) : Bool := !amaxGt i32 v w && !amaxGt i32 w v

/-- The pair of one thread after a row of 16. -/
def amaxRow (i32 : Bool) (base : Word) (row : List Word) (init : Word × Word) : Word × Word :=
  (List.range 16).foldl (fun (b : Word × Word) j =>
    let v := row.getD j 0
    let ix := base + BitVec.ofNat 32 j
    if amaxGt i32 v b.1 || (amaxEq i32 v b.1 && decide (ix.toNat < b.2.toNat)) then (v, ix) else b) init

/-! ### Array cycles (R206, R227 to R233) -/

def MEntry.planes (e : MEntry) : Nat :=
  if fbPro e.fb then 16 else if fbPrec e.fb != 0 then fbPrec e.fb else fmtBits (fbBF e.fb)

def MEntry.cycles (e : MEntry) : Nat :=
  match e.kind with
  | .mma sp => let n := e.k * e.planes / 16; if sp then n / min 4 (16 / spN e.fb) else n
  | .vmx _ addrs =>
    let gs := (addrs.filter (· != 0xFFFFFFFF#32)).dedup
    (gs.map fun a => ((addrs.filter (· == a)).length + 15) / 16 * (e.k * e.planes / 16)).sum
  | .azero => e.cnt
  | .aepi _ _ _ => 4 * e.cnt
  | .amax _ _ _ => 4
  | _ => 0

end Sys2Proof.Machine
end

