-- ==== Sys2Proof/Machine/Matrix.lean ====
section
/-! DEFINITION. The matrix instructions and the array's queue, group 0xA (R203 to R232). -/

namespace Sys2Proof.Machine

/-! ### Issue (R204, R205, R226) -/

/-- The ROLE trap of R204. -/
def State.roleCheck (s : State) (bad : List Role) (op : Nat) : Except TrapReq Unit :=
  check (!bad.contains s.w.role) (trapI tcRole op)

/-- Roles that group 0xA refuses, and those that mma, mma.sp and vmx refuse. -/
def mBad : List Role := [.copy]
def mmaBad : List Role := [.copy, .epilogue]

def tFmtBlock : TrapReq := trapI tcEncoding (7 + 1 * 256)

/-- An entry as it enters the queue, before its operands are known. -/
def MEntry.blank (kind : MKind) : MEntry where
  qid := 0
  ctx := 0
  wg := 0
  acc := 0
  prio := 0
  pc := 0
  uid := 0
  kind := kind
  fb := 0
  sa := 0
  sb := 0
  offs := 0
  tile := 0
  cnt := 1
  k := 16
  bindA := none
  bindB := none
  dst := 0
  olds := []
  grant := false
  asked := false
  started := false
  readDone := false
  spoiled := false
  mixed := []
  fault := none
  skipped := false
  result := []
  flags := 0

/-- Instructions that raise no counter (R207). -/
def MEntry.quiet (e : MEntry) : Bool :=
  match e.kind with
  | .scldef _ => true
  | .sclinv _ => true
  | _ => false

/-- Old bytes of operand parts that the array may read for an instruction of a wave: written, and no mfence of the wave
since. Its own A-buffer writes come first without one (R163, R221). -/
def State.oldParts (s : State) (e : MEntry) (idx : Nat) : List (Space × Nat × List Byte) :=
  let us := (s.core s.cur.core).unf.filter fun u =>
    u.wg == e.wg && !u.seen.contains idx && !(u.sp == .a && u.by_ == idx)
      && (match u.sp with
        | .a => e.readsA.any (overlap · (16 * u.part) 16)
        | .w => false
        | .c => e.tiles.contains (u.part / 64))
  us.map fun u => (u.sp, u.part, u.old)

/-- The instruction enters the queue, or stalls where the queue or its wave's share is full (R205). `regs` result
registers from dst open a window of la followers. -/
def State.enqueue (s : State) (e : MEntry) (dst : Opnd) (regs : Nat) (la : BitVec 4) : State :=
  let c := s.cur
  let q := (s.core c.core).mq
  if 32 ≤ (q.filter fun x => !x.started).length || (!e.quiet && 8 ≤ s.w.count .m) then s.stall
  else
    let w := s.w
    let e : MEntry := { e with
      qid := (s.core c.core).nextQ, ctx := c.ctx, wg := w.wg, acc := w.nextAcc, prio := w.prio, pc := s.sp.pc, uid := s.sp.uid }
    let e : MEntry := { e with olds := s.oldParts e w.idx }
    let s := s.modCore c.core fun k => { k with mq := k.mq ++ [e], nextQ := k.nextQ + 1 }
    let s := if e.quiet then s else
      s.modW fun w => w.addAcc { w.newAcc .m e.pc .store with dst := dst, regs := regs, mask := fullMask, size := 2 }
    let s := if regs = 0 then s else s.openWait e.acc la (groupOf dst regs)
    s.advance

/-- A binding that an instruction names, of the kind it needs (R215). -/
def State.binding (s : State) (id : Nat) (i4g : Bool) : Except TrapReq (Option (Nat × SclBind)) :=
  match look s.g.scl id with
  | some b => if b.desc.getLsbD 18 = i4g then .ok (some (id, b)) else .error (trapI tcProtection 0)
  | none => .error (trapI tcProtection 0)

def State.bindings (s : State) (fb : DWord) : Except TrapReq (Option (Nat × SclBind) × Option (Nat × SclBind)) := do
  let a ← if fbSidA fb = 255 then .ok none else s.binding (fbSidA fb) false
  let b ← if fbSidB fb = 255 then .ok none else s.binding (fbSidB fb) (fbPro fb)
  .ok (a, b)

/-- Check 5 for a range of a buffer, and for tiles. -/
def State.inBuf (s : State) (sp : Space) (lo : Word) (n : Nat) : Except TrapReq Unit :=
  check (decide (lo.toNat + n ≤ s.g.size sp)) ⟨tcProtection, 0, lo, 0⟩
def State.inTiles (s : State) (t n : Nat) : Except TrapReq Unit :=
  check (decide (t + n ≤ s.g.tc.length)) (trapI tcProtection t)

/-- The shared body of mma and mma.sp (R226, R227). -/
def State.mma (s : State) (o : MmaOp) (sp : Bool) (op : Nat) : Except TrapReq State := do
  s.roleCheck mmaBad op
  s.needConverged o.g
  let sa ← s.scalar o.a
  let sb ← s.scalar o.b
  let so ← if o.c = .null then .ok 0#32 else s.scalar o.c
  let fb := s.sp.pair o.fb.val
  let k := 16 * (o.kk.toNat + 1)
  check (fbValid fb k sp false) tFmtBlock
  check (sa.toNat % 16 == 0) ⟨tcMisaligned, 0, sa, 0⟩
  check (sb.toNat % 32 == 0) ⟨tcMisaligned, 0, sb, 0⟩
  s.inBuf .a sa (bytesA fb k)
  s.inBuf .w sb (bytesB fb k sp)
  s.inTiles o.tile.toNat 1
  let b ← s.bindings fb
  .ok (s.enqueue { MEntry.blank (.mma sp) with
    fb := fb, sa := sa.toNat, sb := sb.toNat, offs := so, tile := o.tile.toNat, k := k, bindA := b.1, bindB := b.2 } .null 0 0)

def execMma (o : MmaOp) : State → Res := isaCtl fun s => s.mma o false 0x280
def execMmaSp (o : MmaOp) : State → Res := isaCtl fun s => s.mma o true 0x281

/-- The first elements of a list that differ from those before. -/
def firstOf (l : List Word) : List Word := l.foldl (fun acc x => if acc.contains x then acc else acc ++ [x]) []

def execVmx (g : Guard) (la : BitVec 4) (d a b : Fin 128) (fb : Fin 64) (kk : BitVec 2) : State → Res :=
  isaCtl fun s => do
    s.roleCheck mmaBad 0x282
    s.needConverged g
    let f := s.sp.pair fb.val
    let k := 16 * (kk.toNat + 1)
    check (fbValid f k false true) tFmtBlock
    let addrs := (s.readV b.val).row
    let ad (t : Nat) : Word := addrs.getD t 0
    let live := (List.range 32).filter fun t => ad t != 0xFFFFFFFF#32
    failThread live (fun t => (ad t).toNat % 1024 != 0) fun t => ⟨tcMisaligned, t, ad t, 0⟩
    failThread live (fun t => !decide ((ad t).toNat + bytesB f k false ≤ s.g.size .w)) fun t => ⟨tcProtection, t, ad t, 0⟩
    failThread live (fun t => decide (4 < (firstOf ((live.filter (· ≤ t)).map ad)).length)) fun t => ⟨tcVmx, t, 0, 0⟩
    match s.w.firstShort ((List.range 16).map (· + d.val)) with
    | some n => .error (trapI tcRow n)
    | none => .ok ()
    let x := (List.range (k / 2)).map fun i => (s.readV (a.val + i)).row
    .ok (s.enqueue { MEntry.blank (.vmx x addrs) with fb := f, k := k } (.v d) 16 la)

/-- mfence: what the wave has written or acquired before it, its later matrix instructions read (R221). -/
def execMfence : State → Res :=
  isa fun s => do
    s.roleCheck mBad 0x283
    let w := s.w
    .ok (s.modCore s.cur.core fun c => { c with unf := c.unf.map fun u => if u.wg = w.wg && (u.by_ == w.idx || u.known.contains w.idx) then { u with seen := w.idx :: u.seen } else u })

/-- A pending matrix fault is reported at the mwait (R224). -/
def State.reportFault (s : State) : State :=
  match s.w.mfault with
  | none => s.advance
  | some (code, more, pc) =>
    let s := s.modW fun w => { w with mfault := none }
    let disp := (pc - s.sp.pc).sshiftRight 3
    s.raise ⟨code + 2 ^ 17 + min more 7 * 2 ^ 18, 0, disp.extractLsb' 0 32, pc⟩

def execMwait (a : Opnd) : State → Res :=
  isaCtl fun s => do
    s.roleCheck mBad 0x284
    let n ← s.scalar a
    s.settled fun s => if s.w.count .m ≤ n.toNat then .ok s.reportFault else .ok (s.wait (.mwait n.toNat))

def execAzero (n c : BitVec 5) : State → Res :=
  isaCtl fun s => do
    s.roleCheck mBad 0x285
    s.inTiles n.toNat (c.toNat + 1)
    .ok (s.enqueue { MEntry.blank .azero with tile := n.toNat, cnt := c.toNat + 1 } .null 0 0)

def execAepi (g : Guard) (n : BitVec 5) (a b : Opnd) (act : Act) (zc : Bool) (fmt : EpiFmt) : State → Res :=
  isaCtl fun s => do
    s.roleCheck mBad 0x286
    s.needConverged g
    let sd ← s.scalar a
    let sp ← s.scalar b
    let c := epiTiles zc fmt
    check (!zc || n.toNat % c == 0) (trapI tcEncoding (7 + 3 * 256))
    check (sd.toNat % 16 == 0) ⟨tcMisaligned, 0, sd, 0⟩
    check (sp.toNat % 32 == 0) ⟨tcMisaligned, 0, sp, 0⟩
    s.inBuf .a sd (epiBytes zc fmt)
    s.inBuf .a sp 160
    s.inTiles n.toNat c
    .ok (s.enqueue { MEntry.blank (.aepi act zc fmt) with dst := sd.toNat, sb := sp.toNat, tile := n.toNat, cnt := c } .null 0 0)

def execAmax (g : Guard) (la : BitVec 4) (d : Fin 128) (a : Opnd) (n : BitVec 5) (i32 : Bool) : State → Res :=
  isaCtl fun s => do
    s.roleCheck mBad 0x287
    s.needConverged g
    let base ← s.scalar a
    s.inTiles n.toNat 1
    match s.w.firstShort [d.val, d.val + 1] with
    | some n => .error (trapI tcRow n)
    | none => .ok ()
    let v := s.readV d.val
    let x := s.readV (d.val + 1)
    let init := (List.range 32).map fun t => (v.at t, x.at t)
    .ok (s.enqueue { MEntry.blank (.amax i32 base init) with tile := n.toNat } (.v d) 2 la)

def execScldef (id : BitVec 8) (a : Fin 64) (b : Opnd) : State → Res :=
  isaCtl fun s => do
    s.roleCheck mBad 0x288
    let desc ← s.scalar b
    let addr := s.sp.pair a.val
    check (decide ((desc.extractLsb' 16 2).toNat < 2) && (desc.extractLsb' 19 13).toNat == 0) (trapI tcEncoding (7 + 2 * 256))
    check (addr.toNat % sclSize desc == 0) ⟨tcMisaligned, 0, addr.extractLsb' 0 32, addr⟩
    check (!sclLocal desc || decide (addr.toNat < s.g.size .w)) ⟨tcProtection, 0, addr.extractLsb' 0 32, 0⟩
    let s' := s.enqueue (MEntry.blank (.scldef id.toNat)) .null 0 0
    if s'.sp.pc = s.sp.pc then .ok s'
    else .ok (s'.modG fun g => { g with scl := put g.scl id.toNat ⟨addr, desc⟩ })

def execSclinv (id : Option (BitVec 8)) : State → Res :=
  isaCtl fun s => do
    s.roleCheck mBad 0x289
    .ok (s.enqueue (MEntry.blank (.sclinv (id.map (·.toNat)))) .null 0 0)

/-! ### Start conditions (R164, R205, R216, R219) -/

/-- Operand tiles the array waits on: A-buffer tiles and W-buffer tiles. -/
def MEntry.opTiles (e : MEntry) : List Nat × List Nat :=
  match e.kind with
  | .mma sp => (tilesOf e.sa (bytesA e.fb e.k), tilesOf e.sb (bytesB e.fb e.k sp))
  | .vmx _ addrs => ([], ((addrs.filter (· != 0xFFFFFFFF#32)).flatMap fun a => tilesOf a.toNat (bytesB e.fb e.k false)).dedup)
  | _ => ([], [])

/-- A-buffer tiles an aepi writes. -/
def MEntry.outTiles (e : MEntry) : List Nat :=
  match e.kind with
  | .aepi _ zc f => tilesOf e.dst (epiBytes zc f)
  | _ => []

def State.tagsReady (s : State) (e : MEntry) : Bool :=
  let g := s.wg e.wg
  let t := e.opTiles
  t.1.all (fun i => (g.tag .a i).v) && t.2.all (fun i => (g.tag .w i).v) && g.mayBegin .a [] e.outTiles

/-- Every A operand tile is zero-flagged (R219). -/
def State.skips (s : State) (e : MEntry) : Bool :=
  match e.kind with
  | .mma _ => e.opTiles.1.all fun i => ((s.wg e.wg).tag .a i).z
  | _ => false

/-- The scale cache's key of an identifier of a workgroup. -/
def sclKey (wg id : Nat) : Nat := wg * 256 + id

/-- The cached line of an entry of a tensor in the W-buffer or in global memory (R216). -/
def Core.sclHit (c : Core) (wg id addr : Nat) (loc : Bool) : Option SclLine :=
  c.scl.find? fun x => x.id == sclKey wg id && x.line == addr / 128 && x.local_ == loc

/-- Entries the instruction needs whose lines are not at hand in the scale cache; a line without bytes is one that met an error. -/
def State.sclMissing (s : State) (core : Nat) (e : MEntry) : List (Nat × SclBind × Nat) :=
  e.entries.filter fun x => ((s.core core).sclHit e.wg x.1 x.2.2 (sclLocal x.2.1.desc)).all fun l => l.data.isEmpty || decide (s.tu < l.back)

/-- An entry of a W-buffer tensor outside the reservation (R224). -/
def State.sclOutside (s : State) (e : MEntry) (x : Nat × SclBind × Nat) : Bool :=
  sclLocal x.2.1.desc && !decide (x.2.2 + sclSize x.2.1.desc ≤ (s.wg e.wg).size .w)

/-- The start conditions of R205; scldef and sclinv never wait, and a skipped instruction needs its tags alone. -/
def State.condsMet (s : State) (core : Nat) (e : MEntry) : Bool :=
  e.quiet || (s.tagsReady e && (s.skips e || (e.grant && (s.sclMissing core e).isEmpty && !e.entries.any (s.sclOutside e))))

/-- Two entries name an accumulator tile of one workgroup (R205). -/
def MEntry.shares (a b : MEntry) : Bool := a.wg == b.wg && a.tiles.any b.tiles.contains

def State.draining (s : State) (core ctx : Nat) : Bool := (s.wave? core ctx).any fun w => w.stop == .draining

/-- The entries that stand before one: those before it in the queue and, where its wave does not drain, the unstarted ones
of waves that do, which have moved ahead of it (R241). -/
def State.ahead (s : State) (core : Nat) (e : MEntry) : List MEntry :=
  let q := (s.core core).mq
  let older := q.takeWhile fun x => x.qid != e.qid
  let dr (x : MEntry) : Bool := s.draining core x.ctx
  if dr e then older.filter fun x => x.started || dr x
  else older ++ (q.drop (older.length + 1)).filter fun x => x.started || dr x

/-- An unstarted instruction may start: nothing before it holds it back (R205). -/
def State.mayStart (s : State) (core : Nat) (e : MEntry) : Bool :=
  (s.ahead core e).all fun o =>
    if o.started then !o.shares e else !(s.condsMet core o) && o.ctx != e.ctx && !o.shares e

def State.mEntry? (s : State) (core qid : Nat) : Option MEntry := (s.core core).mq.find? (·.qid == qid)
def State.setEntry (s : State) (core : Nat) (e : MEntry) : State :=
  s.modCore core fun c => { c with mq := c.mq.map fun x => if x.qid = e.qid then e else x }
def State.dropEntry (s : State) (core qid : Nat) : State :=
  s.modCore core fun c => { c with mq := c.mq.filter fun x => x.qid != qid }

/-- The array's operand tiles are read: C := 1 (R164). -/
def State.consumed (s : State) (e : MEntry) : State :=
  let t := e.opTiles
  s.modWg e.wg fun g => (g.modTags .a t.1 fun x => { x with c := true }).modTags .w t.2 fun x => { x with c := true }

/-- Flags are ORed into SR_MFLAGS (R220). -/
def State.orFlags (s : State) (core ctx : Nat) (fl : Nat) : State :=
  s.modWave core ctx fun w => { w with mflags := w.mflags ||| w32 fl }

/-! ### What an instruction computes (R227 to R231) -/

/-- Operand bytes as the array reads them: an aligned 16-byte part that no mfence has ordered is wholly new, or wholly what it
was before one of the writes (R221). -/
def State.opGet (s : State) (e : MEntry) (sp : Space) (lo n : Nat) : List Byte :=
  let bs := s.bufGet e.wg sp lo n
  if e.olds.isEmpty then bs
  else (List.range n).map fun i =>
    let part := (lo + i) / 16
    let olds := (e.olds.filter fun o => o.1 == sp && o.2.1 == part).map (·.2.2)
    let k := (s.word (if sp = .a then 27 else 28) part).toNat % (olds.length + 1)
    match olds[k]? with
    | some o => o.getD ((lo + i) % 16) 0
    | none => bs.getD i 0

def State.tileWords (s : State) (e : MEntry) (t : Nat) : List Word :=
  let bs := s.opGet e .c (t * 1024) 1024
  (List.range 256).map fun i => w32 (fieldAt bs (4 * i) 4)

/-- A scale entry from its cached line. -/
def State.sclEntry (s : State) (core : Nat) (e : MEntry) (id addr : Nat) : Nat :=
  let bound := ((e.bindA.toList ++ e.bindB.toList).find? (·.1 == id)).map (·.2.desc)
  match bound <|> ((look (s.wg e.wg).scl id).map (·.desc)) with
  | some d => match (s.core core).sclHit e.wg id addr (sclLocal d) with
    | some l => fieldAt l.data (addr % 128) (sclSize d)
    | none => 0
  | none => 0

def State.mOps (s : State) (core : Nat) (e : MEntry) (sp : Bool) : MOps :=
  ⟨leNat (s.opGet e .a e.sa (bytesA e.fb e.k)), leNat (s.bufGet e.wg .w e.sb (bytesB e.fb e.k sp)), s.sclEntry core e⟩

/-- The results an instruction will write, by kind: a tile's words, a register each, or bytes; and its flags. -/
def State.mResult (s : State) (core : Nat) (e : MEntry) : List (List Word) × Nat :=
  match e.kind with
  | .mma sp =>
    let r := e.mmaTile (s.mOps core e sp) sp (s.tileWords e e.tile)
    ([r.1], r.2)
  | .vmx x addrs =>
    let rs := (List.range 32).map fun t =>
      let a := addrs.getD t 0
      if a = 0xFFFFFFFF#32 then (List.replicate 16 (0 : Word), flVnull)
      else e.vmxRow x t (leNat (s.bufGet e.wg .w a.toNat (bytesB e.fb e.k false)))
    ((List.range 16).map fun j => rs.map fun r => r.1.getD j 0, rs.foldl (fun f r => f ||| r.2) 0)
  | .azero => ((List.range e.cnt).map fun _ => List.replicate 256 0, 0)
  | .aepi act zc f =>
    let prm := s.opGet e .a e.sb 160
    let i32 := (prm.getD 128 0).getLsbD 0
    let tiles := (List.range e.cnt).flatMap fun q => s.tileWords e (e.tile + q)
    let r := epiBytesOf i32 act f tiles prm
    let bs := if zc then packTile (epiSize f) r.1 else r.1
    ([bs.map fun b => b.setWidth 32], r.2)
  | .amax i32 base init =>
    let t := s.tileWords e e.tile
    let rs := (List.range 32).map fun i => amaxRow i32 base (t.drop (i % 16 * 16)) (init.getD i (0, 0))
    ([rs.map (·.1), rs.map (·.2)], if (t ++ init.map (·.1)).any (fun v => !i32 && (decode f32 v.toNat).isNan) then flNan else 0)
  | _ => ([], 0)

/-! ### The array's events (R205, R207, R216, R219, R223, R224) -/

/-- scldef and sclinv discard cached lines (R216, R232). -/
def State.discard (s : State) (core wg : Nat) (id : Option Nat) : State :=
  s.modCore core fun c => { c with scl := c.scl.filter fun x =>
    match id with
    | some i => x.id != sclKey wg i
    | none => x.id / 256 != wg }

/-- The current an instruction holds is given back (R277). -/
def State.freeCurrent (s : State) (core : Nat) (r : Requester) (qid : Nat) : State :=
  s.modCluster (core / 16) fun c => { c with
    held := c.held.filter fun x => !(x.core == core && x.req == r && x.qid == qid)
    want := c.want.filter fun x => !(x.core == core && x.req == r && x.qid == qid) }

def execMatrixStart (core qid : Nat) : State → Res :=
  event fun s =>
    match s.mEntry? core qid with
    | none => none
    | some e =>
      if e.started || !s.mayStart core e || !s.condsMet core e then none
      else
        match e.kind with
        | .scldef id => some ((s.dropEntry core qid).discard core e.wg (some id))
        | .sclinv id => some ((s.dropEntry core qid).discard core e.wg id)
        | _ =>
          if s.skips e then
            let s := ((s.consumed e).orFlags core e.ctx flZskip).tally core e.ctx 0x07 1
            some (((s.freeCurrent core .matrix qid).dropEntry core qid).completeAcc core e.ctx e.acc .m)
          else
            let r := s.mResult core e
            let s := match e.kind with
              | .aepi _ zc f => s.touch core e.wg .a e.dst (epiBytes zc f) .engine
              | _ => s
            let s := s.modWg e.wg fun g => g.modTags .a e.outTiles fun t => { t with v := false }
            some ((s.setEntry core { e with started := true, result := r.1, flags := w32 r.2 }).tally core e.ctx 0x06 e.cycles)

/-- What a scale entry of an instruction takes: a fault, a walk of its page, the read of its line at an address, or to wait for
that to come back. -/
inductive SclRead where
  | fault (k : MFaultKind) (mal : Bool) | walk | line (pa : Nat) | wait
  deriving DecidableEq, Repr

/-- The line of a global scale entry, with the fault that a walk or its own read has met (R216, R224, R317). -/
def State.sclPlace (s : State) (core : Nat) (e : MEntry) (x : Nat × SclBind × Nat) : SclRead :=
  match (s.core core).sclHit e.wg x.1 x.2.2 false with
  | some l => if s.tu < l.back then .wait else .fault .dataError false
  | none => match s.walkFaults.find? fun f => f.src == .engine core 2 && f.key == e.qid && f.va == pageUnit x.2.2 with
    | some f => .fault (if f.kind = kindBad then .dataError else .translation f.kind) f.mal
    | none => match s.lookup core (s.grid (s.wg e.wg).grid).d.asid (BitVec.ofNat 64 (x.2.2 / 128 * 128)) false with
      | .fault k => .fault (.translation k) false
      | .miss => .walk
      | .page p => .line (p.pa? (x.2.2 / 128 * 128))

/-- A line of a scale tensor that an unstarted instruction misses: read through the W port, or asked for as a .cg load with
the issuing wave's priority; 64 lines are held, the oldest leaving. -/
def execScaleLineFill (core id line : Nat) : State → Res :=
  event fun s =>
    let need := (s.core core).mq.findSome? fun e =>
      if e.started then none
      else ((s.sclMissing core e).find? fun x => sclKey e.wg x.1 == id && x.2.2 / 128 == line && !s.sclOutside e x).map fun x => (e, x)
    match need with
    | none => none
    | some (e, x) =>
      if sclLocal x.2.1.desc then
        some (s.modCore core fun c => { c with scl := (⟨id, true, line, s.bufGet e.wg .w (line * 128) 128, s.tu⟩ :: c.scl).take 64 })
      else match s.sclPlace core e x with
        | .fault _ _ | .wait => none
        | .walk =>
          if s.walks.any (fun y => y.eng.contains (.engine core 2, e.qid) && y.va == pageUnit x.2.2) then none
          else
            let d := (s.grid (s.wg e.wg).grid).d
            some (s.queueWalk (core / 16) (some core) d.asid d.root x.2.2 [(.engine core 2, e.qid)])
        | .line pa =>
          let r := { s.waveReq core e.ctx 0 0 pa e.prio (.scale id line) with src := .engine core 2 }
          if s.onWay fun y => y.src == r.src && y.for_ == r.for_ then none else some (s.engSend r false 128 []).pumpHost

/-- The fault that an entry meets (R224), with the mark of a malformed page-table entry. -/
def State.entryFault (s : State) (core : Nat) (e : MEntry) (x : Nat × SclBind × Nat) : Option (MFaultKind × Bool) :=
  if s.sclOutside e x then some (.protection, false)
  else if sclLocal x.2.1.desc || !((s.sclMissing core e).contains x) then none
  else match s.sclPlace core e x with
    | .fault k mal => some (k, mal)
    | _ => none

def mfCode : MFaultKind → Nat
  | .translation _ => tcTranslation
  | .protection => tcProtection
  | .dataError => tcData

/-- What the array may meet in an instruction: the fault of one of its scale entries, or an uncorrectable error in any of the
bytes it reads, which only its event tells (R224; log entry 95). -/
def State.arrayFault (s : State) (core : Nat) (e : MEntry) (k : MFaultKind) : Option (MFaultKind × Bool) :=
  match e.entries.findSome? fun x => (s.entryFault core e x).bind fun f => if f.1 = k then some f else none with
  | some f => some f
  | none => if k = .dataError && (match e.kind with | .azero | .scldef _ | .sclinv _ => false | _ => true) then some (k, false) else none

/-- The array detects a fault in an instruction it has come to and does not skip: its record, and the instruction will
complete without changing its destination. -/
def execMatrixFault (core qid : Nat) (k : MFaultKind) : State → Res :=
  event fun s =>
    match s.mEntry? core qid with
    | none => none
    | some e =>
      if e.started || !s.mayStart core e || !s.tagsReady e || s.skips e || !e.grant then none
      else match s.arrayFault core e k with
        | none => none
        | some (_, mal) =>
          let s := s.recordWave core e.ctx (mfCode k) e.pc true (k == .dataError) (match k with | .translation n => markOf n mal | _ => 0)
          let s : State := { s with walkFaults := s.walkFaults.filter fun f => !(f.src == .engine core 2 && f.key == qid) }
          let s := s.modCore core fun c => { c with scl := c.scl.filter fun l => !l.data.isEmpty }
          some (s.setEntry core { e with started := true, fault := some (mfCode k) })

/-- The array has read an mma's operands: C := 1 on their tiles, and their bytes leave the footprint. -/
def execMatrixReadComplete (core qid : Nat) : State → Res :=
  event fun s =>
    match s.mEntry? core qid with
    | some e =>
      match e.kind with
      | .mma _ => if e.started && !e.readDone && e.fault.isNone then some ((s.consumed e).setEntry core { e with readDone := true }) else none
      | _ => none
    | none => none

/-- A write to the tile's words by the array. -/
def State.putTile (s : State) (core wg t : Nat) (ws : List Word) : State :=
  (s.dropOld core wg .c (t * 1024) 1024).modWg wg fun g => { g with c := g.c.puts (t * 1024) (ws.flatMap fun w => leBytes 4 w.toNat) }

/-- Each element unpredictable where the footprint was disturbed (R223). -/
def State.orFree (s : State) (bad : Bool) (j : Nat) (ws : List Word) : List Word :=
  if bad then (List.range ws.length).map fun i => s.word 13 (j * 256 + i) else ws

/-- Result registers reach the wave (R228, R231). -/
def State.mDeliver (s : State) (core : Nat) (e : MEntry) (regs : List (List Word)) : State :=
  match s.acc? core e.ctx e.acc with
  | none => s
  | some a =>
    let elems := (List.range 32).map fun t =>
      (Elem.mk0 t 0 0 [] []).finish true false (regs.flatMap fun r => leBytes 4 (r.getD t 0).toNat) 0
    (s.withCur ⟨core, e.ctx, 0⟩).deliver { a with elems := elems }

/-- A faulted instruction delivers nothing; its window closes with what the registers held. -/
def State.mNoDeliver (s : State) (core : Nat) (e : MEntry) : State :=
  s.modWave core e.ctx fun w => { w with
    gone := w.gone.filter (·.acc != e.acc), splits := w.splits.map fun p => p.windowDone e.acc (s.core core).cyc.toNat [] }

/-- The writes of a completing instruction; a wave's write into one of its tiles leaves that tile alone unpredictable (R223). -/
def State.mWrite (s : State) (core : Nat) (e : MEntry) : State :=
  let rows := (List.range e.result.length).map fun j => s.orFree (e.spoiled || e.mixed.contains (e.tile + j)) j (e.result.getD j [])
  match e.kind with
  | .mma _ => s.putTile core e.wg e.tile (rows.getD 0 [])
  | .azero => (List.range e.cnt).foldl (fun s q => s.putTile core e.wg (e.tile + q) (rows.getD q [])) s
  | .aepi _ _ _ =>
    let s := s.bufPut core e.wg .a e.dst ((rows.getD 0 []).map fun w => w.setWidth 8) .engine
    s.modWg e.wg fun g => g.modTags .a e.outTiles fun _ => ⟨true, false, false⟩
  | .vmx _ _ => (s.consumed e).mDeliver core e rows
  | .amax _ _ _ => s.mDeliver core e rows
  | _ => s

def noteFault (m : Option (Nat × Nat × DWord)) (code : Nat) (pc : DWord) : Option (Nat × Nat × DWord) :=
  match m with
  | none => some (code, 0, pc)
  | some (c, n, p) => some (c, min 7 (n + 1), p)

/-- An instruction completes, after its wave's older ones: results, flags, and the M counter (R207). -/
def execMatrixComplete (core qid : Nat) : State → Res :=
  event fun s =>
    match s.mEntry? core qid with
    | none => none
    | some e =>
      let isMma := match e.kind with | .mma _ => true | _ => false
      let older := (s.core core).mq.takeWhile fun x => x.qid != qid
      if !e.started || (isMma && !e.readDone && e.fault.isNone) || older.any (fun o => o.ctx == e.ctx && !o.quiet) then none
      else
        let s := match e.fault with
          | some code =>
            let s := (s.consumed e).mNoDeliver core e
            s.modWave core e.ctx fun w => { w with mfault := noteFault w.mfault code e.pc }
          | none => (s.mWrite core e).orFlags core e.ctx e.flags.toNat
        some (((s.freeCurrent core .matrix qid).dropEntry core qid).completeAcc core e.ctx e.acc .m)

end Sys2Proof.Machine
end

