-- ==== Sys2Proof/Machine/Cluster.lean ====
section
/-! DEFINITION. The cluster: ring rotation, remote stores, the exchange and the cluster barrier (R266 to R274), and
the current arbiter (R277, R278). -/

namespace Sys2Proof.Machine

/-! ### Members (R267, R268) -/

def Member.blank : Member := ⟨none, [], 0, 0, []⟩
def Group.member (g : Group) (m : Nat) : Member := g.members.getD m Member.blank
def Group.modMember (g : Group) (m : Nat) (f : Member → Member) : Group := { g with members := g.members.set m (f (g.member m)) }
def State.group (s : State) (k : Nat) : Group := (s.cluster k).group
def State.modGroup (s : State) (k : Nat) (f : Group → Group) : State := s.modCluster k fun c => { c with group := f c.group }

/-- The workgroup of a member that is not dead. -/
def State.liveMember (s : State) (k m : Nat) : Option Nat :=
  match ((s.group k).member m).wg with
  | some g => if (look s.wgs g).any (fun x => !x.ended) then some g else none
  | none => none

def State.liveMembers (s : State) (k : Nat) : List Nat := (List.range 16).filter fun m => (s.liveMember k m).isSome

/-- Cluster and member index of the executing core (R266). -/
def State.k (s : State) : Nat := s.cur.core / 16
def State.m (s : State) : Nat := s.cur.core % 16

/-! ### Ring rotation (R269, R270) -/

def execRrot (a b : Opnd) (k : BitVec 6) : State → Res :=
  isaCtl fun s => do
    let j ← s.barK k
    check s.g.xbind (tDenied 0x2C0)
    let d ← s.scalar a
    let x ← s.scalar b
    check (d.toNat % 1024 == 0) ⟨tcMisaligned, 0, d, 0⟩
    check (x.toNat % 1024 == 0) ⟨tcMisaligned, 0, x, 0⟩
    check (decide (d.toNat + 1024 ≤ s.g.size .a)) ⟨tcProtection, 0, d, 0⟩
    check (decide (x.toNat + 1024 ≤ s.g.size .a)) ⟨tcProtection, 0, x, 0⟩
    if 4 ≤ ((s.group s.k).member s.m).rrot.length then .ok s.stall
    else
      let m := s.m
      .ok (s.advance.modGroup s.k fun g => g.modMember m fun y => { y with rrot := y.rrot ++ [⟨d.toNat, x.toNat, j⟩] })

/-- What reaches member m from its neighbour: the source tile, or zeros from a dead one, whose zero flag is free (R268, R270; log
entry 23). -/
def State.rrotXfer (s : State) (k m : Nat) : Option RrotXfer :=
  match s.liveMember k m, ((s.group k).member m).rrot.head? with
  | some wg, some own =>
    let p := (m + 15) % 16
    match s.liveMember k p, ((s.group k).member p).rrot.head? with
    | some src, some arr =>
      some ⟨m, wg, own.dst, own.bar, s.bufGet src .a arr.src 1024, ((s.wg src).tag .a (arr.src / 1024)).z, false⟩
    | _, _ => some ⟨m, wg, own.dst, own.bar, List.replicate 1024 0, s.bit 15 m, false⟩
  | _, _ => none

/-- A generation starts when every live member has registered its arrival: the source tiles are read whole. -/
def execRrotGenerationStart (cluster : Nat) : State → Res :=
  event fun s =>
    let g := s.group cluster
    let ms := s.liveMembers cluster
    if ms.isEmpty || !g.xfers.isEmpty || ms.any (fun m => (g.member m).rrot.isEmpty) then none
    else
      let xs := (List.range 16).filterMap (s.rrotXfer cluster)
      some (s.modGroup cluster fun g => { g with
        xfers := xs, rrotGen := g.rrotGen + 1
        members := g.members.map fun y => { y with rrot := y.rrot.drop 1 } })

/-- A member's tile is written whole and its barrier counts it, or an uncorrectable error leaves the tile invalid. -/
def execRrotTransferDone (cluster member : Nat) : State → Res :=
  event fun s =>
    match (s.group cluster).xfers.find? (·.member == member) with
    | none => none
    | some x =>
      let s := s.modGroup cluster fun g => { g with xfers := g.xfers.filter fun y => y.member != member }
      if (s.liveMember cluster member) != some x.wg then some s
      else
        let core := 16 * cluster + member
        if x.err then
          let s := s.bufPut core x.wg .a x.dst ((List.range 1024).map fun i => Config.freeByte (s.freeIx 16 i)) .ring
          some ((s.modWg x.wg fun g => g.modTag .a (x.dst / 1024) fun t => { t with v := false }).barError x.wg x.bar 8
            (BitVec.ofNat 64 x.dst) false true)
        else
          let s := s.bufPut core x.wg .a x.dst x.data .ring
          let s := s.modWg x.wg fun g => g.modTag .a (x.dst / 1024) fun _ => ⟨true, false, x.z⟩
          some (s.barBytes x.wg x.bar ((s.bar x.wg x.bar).ph) 1024 none)

/-! ### Arrivals at xswap and cbar (R272 to R274) -/

/-- The two instructions of R272. -/
inductive Meet where
  | swap | bar
  deriving DecidableEq, Repr

def Group.gen (g : Group) : Meet → Nat
  | .swap => g.xGen
  | .bar => g.cGen
def Member.arrivals (m : Member) : Meet → Nat
  | .swap => m.xArr
  | .bar => m.cArr

/-- The wait of a split whose arrival is not registered yet, with the writes its release part owes. -/
def Meet.wait (x : Meet) (gen : Nat) (w : List Nat) : Wait :=
  match x with
  | .swap => .xswap gen w
  | .bar => .cbar gen w

/-- What a status says of a meeting: the generation it waits for and the writes owed. -/
def Status.meeting (p : Status) (x : Meet) : Option (Nat × List Nat) :=
  match p, x with
  | .waiting (.xswap g w), .swap => some (g, w)
  | .waiting (.cbar g w), .bar => some (g, w)
  | _, _ => none

/-- The splits of a workgroup that wait in a meeting: context, split, generation, writes owed, arrived mark. -/
structure Waiter where
  ctx : Nat
  split : Nat
  gen : Nat
  w : List Nat
  arrived : Bool
  deriving DecidableEq, Repr

def State.waiters (s : State) (core wg : Nat) (x : Meet) : List Waiter :=
  (s.core core).waves.flatMap fun e =>
    if e.2.wg = wg then e.2.splits.filterMap fun p => (p.status.meeting x).map fun y => ⟨e.1, p.id, y.1, y.2, p.arrived⟩
    else []

/-- Saved arrivals of a member at a meeting. -/
def Member.savedAt (m : Member) (x : Meet) (gen : Nat) : List SavedArr := m.saved.filter fun y => y.swap == (x == .swap) && gen ≤ y.gen

/-- A member has an arrival beyond the last completed generation, registered or not. -/
def State.outstanding (s : State) (k m : Nat) (x : Meet) : Bool :=
  let y := (s.group k).member m
  let gen := (s.group k).gen x
  decide (gen < y.arrivals x) || !(y.savedAt x gen).isEmpty || !(s.waiters (16 * k + m) (y.wg.getD 0) x).isEmpty

/-- Every xst of a member's earlier generations is written at its target. -/
def State.xstDone (s : State) (k m gen : Nat) : Bool := (s.group k).xst.all fun e => e.src != m || gen < e.gen

/-- Whether the release part of a waiter, and for xswap the member's remote stores, let its arrival count now. One that was
saved counts by its saved arrival. -/
def State.arrives (s : State) (k m : Nat) (x : Meet) (y : Waiter) : Bool :=
  !y.arrived && s.fenceDone (16 * k + m) y.ctx true false false y.w [] []
    && (match x with | .swap => s.xstDone k m y.gen | .bar => true)

/-- The same for the arrival of a saved split, whose own writes are performed (R241, R273). -/
def State.savedArrives (s : State) (k m : Nat) (x : Meet) (y : SavedArr) : Bool :=
  reached (s.now (16 * k + m)) y.lwt && (match x with | .swap => s.xstDone k m y.gen | .bar => true)

/-- A live member has arrived at the generation in progress. -/
def State.memberHere (s : State) (k m : Nat) (x : Meet) : Bool :=
  match s.liveMember k m with
  | none => true
  | some wg =>
    let y := (s.group k).member m
    let gen := (s.group k).gen x
    decide (gen < y.arrivals x) || (y.savedAt x gen).any (fun z => z.gen == gen && s.savedArrives k m x z)
      || (s.waiters (16 * k + m) wg x).any fun z => z.gen == gen && s.arrives k m x z

/-- A split released goes on with the acquire part of R272. -/
def Wave.acquire (w : Wave) (x : Meet) (gen : Nat) : Wave :=
  let lds := (w.flying.filter Acc.inLd).map (·.id)
  { w with splits := w.splits.map fun p =>
      if (p.status.meeting x).any (fun y => y.1 == gen) then { p with status := .waiting (.fence false true .cl [] lds []), arrived := true } else p }

/-- The generation completes: members that had only waited count as arrived, and every waiting split is released. -/
def State.meet (s : State) (k : Nat) (x : Meet) : State :=
  let gen := (s.group k).gen x
  let s := (s.liveMembers k).foldl (fun s m => match s.liveMember k m with
    | some wg => s.modWaves wg fun w => w.acquire x gen
    | none => s) s
  s.modGroup k fun g =>
    match x with
    | .swap => { g with xGen := gen + 1, members := g.members.map fun m => { m with xArr := max m.xArr (gen + 1) } }
    | .bar => { g with cGen := gen + 1, members := g.members.map fun m => { m with cArr := max m.cArr (gen + 1) } }

/-- xswap and cbar (R272): a second arrival beyond the last completed generation stalls; a resumed split that has
arrived waits for its own generation only (R274). -/
def State.meetIssue (s : State) (x : Meet) (op : Nat) : Except TrapReq State := do
  check s.g.xbind (tDenied op)
  s.settled fun s =>
    let g := s.group s.k
    let gen := g.gen x
    if s.sp.arrived then
      match ((g.member s.m).savedAt x 0).find? fun y => y.idx == s.w.idx && y.split == s.sp.id with
      | some y => if gen ≤ y.gen then .ok (s.wait (x.wait y.gen [])) else s.fence false true .cl
      | none => s.fence false true .cl
    else if s.outstanding s.k s.m x then .ok s.stall
    else .ok (s.wait (x.wait gen ((s.w.flying.filter Acc.inW).map (·.id))))

def execXswap : State → Res := isaCtl fun s => s.meetIssue .swap 0x2C2
def execCbar : State → Res := isaCtl fun s => s.meetIssue .bar 0x2C3

/-- The window and the shadow bank of a member exchange sides, with their tags and zero flags (R160, R273). -/
def State.swapSides (s : State) (core wg : Nat) : State :=
  let g := s.wg wg
  let c := s.core core
  let s := s.modCore core fun c => { c with shadow := g.a.filter fun e => e.1 < 0x8000, shadowTags := g.ta.take 32 }
  s.modWg wg fun g => { g with a := c.shadow ++ g.a.filter fun e => 0x8000 ≤ e.1, ta := c.shadowTags ++ g.ta.drop 32 }

def execXswapExchange (cluster : Nat) : State → Res :=
  event fun s =>
    let ms := s.liveMembers cluster
    if ms.isEmpty || !ms.all (s.memberHere cluster · .swap) then none
    else
      let s := ms.foldl (fun s m => match s.liveMember cluster m with
        | some wg => s.swapSides (16 * cluster + m) wg
        | none => s) s
      some (s.meet cluster .swap)

def execCbarComplete (cluster : Nat) : State → Res :=
  event fun s =>
    let ms := s.liveMembers cluster
    if ms.isEmpty || !ms.all (s.memberHere cluster · .bar) then none else some (s.meet cluster .bar)

/-! ### Remote stores (R271) -/

def execXst (g : Guard) (d a b : Opnd) (off : BitVec 8) (size : Size) : State → Res :=
  isaCtl fun s => do
    let tgt ← s.scalar b
    let t := tgt.toNat % 16
    let base := s.src a
    let ts := threads (s.guardMask g)
    let ea (i : Nat) : Word := localEa (base.at i) 0 off size.bytes
    check (s.g.xbind && (s.liveMember s.k t).isSome && t != s.m) (tDenied 0x2C1)
    failThread ts (fun i => (ea i).toNat % size.bytes != 0) fun i => ⟨tcMisaligned, i, ea i, 0⟩
    failThread ts (fun i => decide (0x8000 ≤ (ea i).toNat)) fun i => ⟨tcProtection, i, ea i, 0⟩
    s.noElems ts (s.counted .x
      (let acc := s.w.nextAcc
       let gen := (s.group s.k).xGen + (if s.outstanding s.k s.m .swap then 1 else 0)
       let es := ts.map fun i => XstElem.mk s.m s.cur.ctx acc t (ea i).toNat (s.dataBytes d size i) gen (ts.getLast? == some i)
       let s := s.modW fun w => w.addAcc (w.newAcc .x s.sp.pc .store)
       .ok (s.advance.modGroup s.k fun g => { g with xst := g.xst ++ es })))

/-- The last element of an xst written, or dropped, ends the instruction (R177). -/
def State.xstGone (s : State) (k idx : Nat) (e : XstElem) : State :=
  let s := s.modGroup k fun g => { g with xst := g.xst.eraseIdx idx }
  if (s.group k).xst.any (fun x => x.src == e.src && x.ctx == e.ctx && x.acc == e.acc) then s
  else s.completeAcc (16 * k + e.src) e.ctx e.acc .x

/-- The next element of an xst reaches its target's shadow bank; nothing else moves while a rotation runs (R270), and
an element of a later generation waits for the exchange. -/
def execXstElementWrite (cluster idx : Nat) : State → Res :=
  event fun s =>
    let g := s.group cluster
    match g.xst[idx]? with
    | none => none
    | some e =>
      if !g.xfers.isEmpty || decide (g.xGen < e.gen)
          || (g.xst.take idx).any (fun x => x.src == e.src && x.ctx == e.ctx && x.acc == e.acc) then none
      else
        let s := s.modCore (16 * cluster + e.target) fun c => { c with shadow := c.shadow.puts e.addr e.data }
        some (s.xstGone cluster idx e)

/-! ### The current arbiter (R277, R278) -/

/-- The amount a macro-operation reserves at a clock scale: nominal, fall step, boost. -/
def curAmount (r : Requester) (scale : Nat) : Nat :=
  match r, scale with
  | .matrix, 0 => 16 | .matrix, 1 => 18 | .matrix, _ => 20
  | .vector, 0 => 12 | .vector, 1 => 14 | .vector, _ => 15
  | .copy, 0 => 4 | .copy, _ => 5

/-- A request in progress or granted for a core's requester. -/
def Cluster.busyReq (c : Cluster) (core : Nat) (r : Requester) (qid : Nat) : Bool :=
  (c.held ++ c.want).any fun x => x.core == core && x.req == r && x.qid == qid

/-- What a requester would reserve for now: an identifier, a priority, and whether it serves a draining wave. A matrix
instruction asks once its tags let it start and it is not skipped (R206); a draining wave starts nothing, so the vector side
serves none (R241). -/
def State.curNeed (s : State) (core : Nat) (r : Requester) : Option (Nat × Nat × Bool) :=
  let c := s.core core
  match r with
  | .matrix =>
    (c.mq.find? fun e => !e.started && !e.quiet && !e.grant && !e.asked && s.mayStart core e && s.tagsReady e && !s.skips e).map
      fun e => (e.qid, e.prio, s.draining core e.ctx)
  | .vector =>
    if c.vecLeft = 0 && !c.waves.isEmpty && !(s.cluster (core / 16)).busyReq core .vector 0 then
      some (0, (c.waves.map (·.2.prio)).foldl max 0, false)
    else none
  | .copy =>
    (c.copyRun.find? fun x => x.granted = 0 && !(s.cluster (core / 16)).busyReq core .copy x.id).map
      fun x => (x.id, x.prio, c.waves.any fun w => w.1 == x.ctx && w.2.wg == x.wg && w.2.idx == x.idx && w.2.stop == .draining)

def State.request (s : State) (core : Nat) (r : Requester) : Option State :=
  (s.curNeed core r).map fun n =>
    let s := s.modCluster (core / 16) fun c => { c with want := c.want ++ [⟨core, r, curAmount r c.scale, n.2.1, s.tu, n.2.2, n.1⟩] }
    match r with
    | .matrix => s.modCore core fun c => { c with mq := c.mq.map fun e => if e.qid = n.1 then { e with asked := true } else e }
    | _ => s

def execCurrentRequest (core : Nat) (r : Requester) : State → Res := event fun s => s.request core r

def Cluster.fits (c : Cluster) (x : CurRes) : Bool := decide ((c.held.map (·.amount)).sum + x.amount ≤ c.clim)

/-- The waiting request granted next: a draining wave's at once; else by priority and then age, never past an older
one of equal or higher priority that does not fit. -/
def Cluster.nextGrant (c : Cluster) : Option CurRes :=
  match c.want.find? (·.drain) with
  | some x => some x
  | none =>
    let ok := c.want.filter fun x => c.fits x && !((c.want.takeWhile (· != x)).any fun y => x.prio ≤ y.prio && !c.fits y)
    ok.foldl (fun b x => match b with
      | none => some x
      | some y => if y.prio < x.prio then some x else some y) none

/-- A request becomes a reservation. -/
def State.grantTo (s : State) (k : Nat) (x : CurRes) : State :=
  let s := s.modCluster k fun c => { c with want := c.want.erase x, held := c.held ++ [{ x with since := s.tu }] }
  match x.req with
  | .matrix => s.modCore x.core fun c => { c with mq := c.mq.map fun e => if e.qid = x.qid then { e with grant := true } else e }
  | .vector => s.modCore x.core fun c => { c with vecLeft := 64 }
  | .copy => s.modCore x.core fun c => { c with copyRun := c.copyRun.map fun r => if r.id = x.qid then { r with granted := 65536 } else r }

def execCurrentGrant (cluster : Nat) : State → Res :=
  event fun s => ((s.cluster cluster).nextGrant).map (s.grantTo cluster)

/-- Requests that have waited 4 µs. -/
def State.overdue (s : State) (k : Nat) : List CurRes := (s.cluster k).want.filter fun x => x.since + 4000 * Config.tuPerNs ≤ s.tu

def execCurrentGrantTimeout (cluster : Nat) : State → Res :=
  event fun s =>
    match s.overdue cluster with
    | [] => none
    | xs => some (xs.foldl (fun s x => s.grantTo cluster x) s)

/-- Whether a reservation is over: its work is done, or a vector or copy one is 1 µs old. -/
def State.resOver (s : State) (x : CurRes) : Bool :=
  let old := decide (x.since + 1000 * Config.tuPerNs ≤ s.tu)
  let c := s.core x.core
  match x.req with
  | .matrix => !(c.mq.any fun e => e.qid == x.qid)
  | .vector => old || c.vecLeft == 0
  | .copy => old || !(c.copyRun.any fun r => r.id == x.qid && r.granted != 0)

def State.lapse (s : State) (core : Nat) (r : Requester) : Option State :=
  let k := core / 16
  match (s.cluster k).held.find? (fun x => x.core == core && x.req == r && s.resOver x) with
  | none => none
  | some x =>
    let s := s.modCluster k fun c => { c with held := c.held.erase x }
    some (match r with
      | .matrix => s
      | .vector => s.modCore core fun c => { c with vecLeft := 0 }
      | .copy => s.modCore core fun c => { c with copyRun := c.copyRun.map fun y => if y.id = x.qid then { y with granted := 0 } else y })

def execCurrentReservationLapse (core : Nat) (r : Requester) : State → Res := event fun s => s.lapse core r

end Sys2Proof.Machine
end

