-- ==== Sys2Proof/Machine/Render.lean ====
section
/-! DEFINITION. Dicing, shading and sampling: geometry pages, the dicing unit, group 0xC, the sampler and the k-buffer
(R281 to R307). -/

namespace Sys2Proof.Machine

/-! ### Chains and their streams (R281, R369, R378) -/

def StreamCfg.blank : StreamCfg where
  consumer := 3
  unit := 0
  fmt := 0
  colourFallback := false
  h := 8
  va := 8
  wo := 8
  uf := 1
  tr := 0
  ns := 2
  lp := 1
  epoch := 0
  period := 8
  lead := 0
  slack := 0
  guardT := 0
  binit := 0
  ring := 0
  colour := 0
  scene := 0
  clusters := 0
  recAddr := 0
  recBytes := []
  asid := 0
  root := 0

/-- The configuration of a chain's stream. -/
def State.cfgOf (s : State) (c : Chain) : StreamCfg := ((look s.streams c.stream).map (·.cfg)).getD StreamCfg.blank
def State.modChain (s : State) (k : Nat) (f : Chain → Chain) : State := { s with chains := change s.chains k f }

/-- The chain that the executing wave's grid belongs to. -/
def State.chain? (s : State) : Option (Nat × Chain) := s.gr.chain.bind fun k => (look s.chains k).map fun c => (k, c)

/-- A stream's reserved clusters, ascending. -/
def StreamCfg.clusterList (c : StreamCfg) : List Nat := (List.range 128).filter fun i => c.clusters.getLsbD i
def StreamCfg.ht (c : StreamCfg) : Nat := c.va / c.uf
/-- S of R369. -/
def StreamCfg.strips (c : StreamCfg) : Nat := (c.va + c.h - 1) / c.h
/-- Render rows of a strip of the stream, and the first row and the row count of strip n. -/
def StreamCfg.rowH (c : StreamCfg) : Nat := c.h / c.uf
def StreamCfg.row0 (c : StreamCfg) (n : Nat) : Nat := n * c.rowH
def StreamCfg.rows (c : StreamCfg) (n : Nat) : Nat := min c.rowH (c.ht - c.row0 n)

/-- A record of a chain, held while the chain runs ahead of its confirmation (R378, R379). -/
def State.chainRecord (s : State) (k cls : Nat) (r : RecInfo) : State :=
  match look s.chains k with
  | some c => if c.early && !c.admitted then s.modChain k fun c => { c with heldErr := c.heldErr ++ [(cls, r)] } else s.record cls r
  | none => s.record cls r

/-- A record from a cluster unit with a detail. -/
def clusterRec (cluster : Nat) (addr : DWord) (detail : Nat) : RecInfo :=
  { RecInfo.blank with addr := addr, kind := 1, ix := cluster, virt := true, detail := detail }

/-! ### Reading a chain's memory (R281, R296) -/

/-- A cluster's unit at work for a chain: 0 dicer, 2 k-buffer; with the priority of the chain's waves. -/
def State.chainUnit (s : State) (cluster u k : Nat) (c : Chain) : Who := ⟨.unit cluster u, k, some k, 0, 0, (s.grid c.gridId).d.prio⟩

/-- n bytes at a virtual address of a chain, as a unit of a cluster reads them. -/
def State.chainRead (s : State) (w : Who) (cluster : Nat) (c : Chain) (va n : Nat) : Rd VirtBytes :=
  s.unitRead w cluster c.cfg.asid c.cfg.root va n

/-- The record of a unit's read that met a fault or an uncorrectable error, the mark of a malformed entry in its detail (R316,
R410). -/
def virtRec (cluster : Nat) (addr : DWord) (detail : Nat) (e : Nat × Bool) : Nat × RecInfo :=
  if e.1 = kindBad then (tcData, { clusterRec cluster addr detail with unc := true })
  else (tcTranslation, clusterRec cluster addr (markOf detail e.2))

/-- Such a record of a chain. -/
def State.virtFault (s : State) (k cluster : Nat) (addr : DWord) (detail : Nat) (e : Nat × Bool) : State :=
  let r := virtRec cluster addr detail e
  s.chainRecord k r.1 r.2

/-! ### The dicing unit (R282 to R290) -/

def Dicer.blank : Dicer := ⟨0, 0, 0, 0, 0, 0, 0, false, []⟩
def Chain.dicer (c : Chain) (cluster : Nat) : Dicer := (look c.dice cluster).getD Dicer.blank
def State.modDicer (s : State) (k cluster : Nat) (f : Dicer → Dicer) : State :=
  s.modChain k fun c => { c with dice := put c.dice cluster (f (c.dicer cluster)) }

/-- A feedback record (R284). -/
def fbRecord (page : Nat) (c : Chain) (source : Nat) (user : Word) : List Byte :=
  leBytes 4 page ++ leBytes 4 c.frame ++ leBytes 4 (c.strip % 65536 + c.stream * 65536 + source * 2 ^ 24) ++ leBytes 4 user.toNat

/-- A record of the dicer on its way to the feedback ring, held before confirmation. A ring that no page holds, or that lies in
the host window, takes none. -/
def State.feedback (s : State) (w : Who) (cluster k : Nat) (c : Chain) (bs : List Byte) : Rd (State → State) :=
  let va := c.cfg.fbr.toNat
  if c.cfg.fbr = 0 then .ok id
  else if c.early && !c.admitted then .ok fun s => s.modChain k fun c => { c with heldFb := c.heldFb ++ [bs] }
  else do
    match ← s.unitXlate w cluster c.cfg.asid c.cfg.root va with
    | .fault kind mal => .ok fun s => s.virtFault k cluster c.cfg.fbr kind (kind, mal)
    | .page e =>
      if !e.w || isHostPa (e.pa? va) then .ok fun s => s.virtFault k cluster c.cfg.fbr 1 (1, false)
      else .ok fun s => (s.post w (.ring va (e.va + e.size - va) c.cfg.asid c.cfg.root bs) .none (e.pa? va) 16).pumpHost

/-- What a page index resolves to (R283). -/
inductive PageRes where
  | page (ix addr : Nat) (asked : Bool) | none | bad (e : Nat × Bool)
  deriving DecidableEq, Repr

def State.resolvePage (s : State) (w : Who) (cluster : Nat) (c : Chain) (asked : Nat) : Nat → Nat → Rd PageRes
  | 0, _ => .ok (.bad (0, false))
  | n + 1, ix =>
    if c.cfg.gpn ≤ ix then .ok (.bad (0, false))
    else do
      match ← s.chainRead w cluster c (c.cfg.gpt.toNat + 16 * ix) 16 with
      | .error e => .ok (.bad e)
      | .ok bs =>
        let x := leNat bs
        if x.testBit 0 then .ok (.page ix (bitsOf x 16 48 * 65536) (ix == asked))
        else
          let parent := bitsOf x 64 32
          if parent = 0xFFFFFFFF then .ok .none else s.resolvePage w cluster c asked n parent

/-- The pair is passed: the next page of the draw. -/
def Dicer.nextPage (d : Dicer) : Dicer := { d with pair := d.pair + 1, page := d.page + 1, left := 0 }
def Dicer.nextDraw (d : Dicer) : Dicer := { d with draw := d.draw + 1, page := 0, left := 0 }

/-- The draw record at an index; none where it cannot be read or holds a reserved value. -/
def State.drawAt (s : State) (w : Who) (cluster : Nat) (c : Chain) (i : Nat) : Rd (Option Draw) := do
  match ← s.chainRead w cluster c (c.cfg.draws.toNat + 160 * i) 160 with
  | .ok bs => .ok (drawOfBytes bs)
  | .error _ => .ok none

/-- A page of a pair is looked up, with its feedback and its records, and begun. -/
def State.beginPage (s : State) (w : Who) (cluster k : Nat) (c : Chain) (di asked : Nat) : Rd State := do
  let next (s : State) : State := s.modDicer k cluster Dicer.nextPage
  match ← s.resolvePage w cluster c asked 17 asked with
  | .bad e =>
    let fb ← s.feedback w cluster k c (fbRecord asked c 0 0)
    .ok (next (fb (s.virtFault k cluster 0 asked e)))
  | .none =>
    let fb ← s.feedback w cluster k c (fbRecord asked c 0 0)
    .ok (next (fb s))
  | .page ix addr same =>
    let fb ← if same then .ok id else s.feedback w cluster k c (fbRecord asked c 0 0)
    if c.seen.any (· == (di, ix)) then .ok (next (fb s))
    else
      let hd ← s.chainRead w cluster c addr 64
      let s := (fb s).modChain k fun c => { c with seen := (di, ix) :: c.seen }
      match hd with
      | .error e => .ok (next (s.virtFault k cluster (BitVec.ofNat 64 addr) ix e))
      | .ok hd =>
        if (hd.drop 5).any (· != 0) then .ok (next (s.chainRecord k tcEncoding (clusterRec cluster (BitVec.ofNat 64 addr) ix)))
        else if leNat (hd.take 4) = 0 then .ok (next s)
        else .ok (s.modDicer k cluster fun d => { d with pageIx := ix, addr := addr, off := 64, left := leNat (hd.take 4) })

/-- A cell of the screen rate image; one that cannot be read counts as 1 × 1. -/
def State.sriCell (s : State) (w : Who) (cluster : Nat) (c : Chain) (x y : Nat) : Rd Rate := do
  let i := y * (((s.cfgOf c).wt + 15) / 16) + x
  match ← s.chainRead w cluster c (c.cfg.sri.toNat + i / 2) 1 with
  | .ok bs => .ok (cellRate (leNat bs / (if i % 2 = 0 then 1 else 16) % 16))
  | .error _ => .ok (0, 0)

/-- The grids of a patch of a draw (R286 to R290), at the present d. -/
def State.patchGrids (s : State) (w : Who) (cluster : Nat) (c : Chain) (di : Nat) (dr : Draw) (p : Patch) : Rd (List Diced) := do
  let cfg := s.cfgOf c
  let c0 := p.pts.map (clipOf dr.m0)
  let b := boundOf cfg.wt cfg.ht dr.disp c.cfg.ls c.cfg.fi (c0 ++ p.pts.map (clipOf dr.m1))
  if !b.meetsRows (cfg.row0 c.strip) (cfg.row0 c.strip + cfg.rows c.strip) then .ok []
  else
    let image ← (imageCells cfg.wt cfg.ht b).mapM fun q => s.sriCell w cluster c q.1 q.2
    let r := stepRate c.d (combineRate dr.c2 (combineRate dr.c1 dr.rate p.rate) (finest image))
    let scr := c0.map fun q => if behind q then none else some (screenOf cfg.wt cfg.ht q.1 q.2.1 q.2.2.2)
    let pt (j i : Nat) : Option (Word × Word) := scr.getD (j * p.k + i) none
    let cnt (f : Nat → Option (Word × Word)) : Nat := edgeCount (2 ^ r.1) (2 ^ r.2) ((List.range p.k).map f)
    let n := (cnt (pt 0), cnt (pt (p.k - 1)), cnt fun j => pt j 0, cnt fun j => pt j (p.k - 1))
    .ok ((cutPatch n).map fun g => ⟨gridWord g.1 g.2.1 r c.d p.rate di, p.user, g.2.2.1, g.2.2.2⟩)

/-- The next patch of the page begun: its grids join those the dicer holds, or the page ends with a record (R282). -/
def State.dicePatchAt (s : State) (w : Who) (cluster k : Nat) (c : Chain) (dr : Draw) : Rd State := do
  let d := c.dicer cluster
  match ← s.chainRead w cluster c (d.addr + d.off) (min 208 (65536 - d.off)) with
  | .error e => .ok ((s.virtFault k cluster (BitVec.ofNat 64 (d.addr + d.off)) d.pageIx e).modDicer k cluster Dicer.nextPage)
  | .ok bs => match patchOf d.off bs with
    | none => .ok ((s.chainRecord k tcEncoding (clusterRec cluster (BitVec.ofNat 64 d.addr) d.pageIx)).modDicer k cluster Dicer.nextPage)
    | some p =>
      let gs ← s.patchGrids w cluster c d.draw dr p
      .ok (s.modDicer k cluster fun d =>
        let e : Dicer := { d with ready := d.ready ++ gs, off := d.off + (if p.k = 2 then 64 else 208) }
        if d.left ≤ 1 then e.nextPage else { e with left := d.left - 1 })

/-- One step of a cluster's dicer on a chain: a draw passed, a page begun, or a patch cut. -/
def State.diceStep (s : State) (w : Who) (cluster k : Nat) (c : Chain) : Rd State :=
  let d := c.dicer cluster
  let cl := (s.cfgOf c).clusterList
  let first := cl.head? == some cluster
  if c.cfg.dn ≤ d.draw then .ok (s.modDicer k cluster fun d => { d with doneAll := true })
  else do
    let va := c.cfg.draws.toNat + 160 * d.draw
    match ← s.chainRead w cluster c va 160 with
    | .error e =>
      let s := if first then s.virtFault k cluster (BitVec.ofNat 64 va) d.draw e else s
      .ok (s.modDicer k cluster Dicer.nextDraw)
    | .ok bs =>
      match drawOfBytes bs with
      | none =>
        let s := if first then s.chainRecord k tcEncoding (clusterRec cluster (BitVec.ofNat 64 va) d.draw) else s
        .ok (s.modDicer k cluster Dicer.nextDraw)
      | some dr =>
        if dr.pages ≤ d.page then .ok (s.modDicer k cluster Dicer.nextDraw)
        else if cl.getD (d.pair % cl.length) 0 != cluster then .ok (s.modDicer k cluster Dicer.nextPage)
        else if 0 < d.left then s.dicePatchAt w cluster k c dr
        else match ← s.chainRead w cluster c (dr.plist + 4 * d.page) 4 with
          | .error e => .ok ((s.virtFault k cluster (BitVec.ofNat 64 (dr.plist + 4 * d.page)) d.page e).modDicer k cluster Dicer.nextPage)
          | .ok x => s.beginPage w cluster k c d.draw (leNat x)

/-- The counts of delivered grids at which a checkpoint falls (R375), each once. -/
def checkpoints (gp : Nat) : List Nat := ((List.range 8).map fun i => max 1 (((i + 1) * gp + 8) / 9)).dedup

/-- A checkpoint that the delivered grids have reached and the scheduler has not computed. -/
def State.checkDue (s : State) (c : Chain) : Option Nat :=
  match (look s.streams c.stream).bind fun x => (look x.hist c.strip).bind (·.com) with
  | some (gp, _) => ((checkpoints gp)[c.checks]?).bind fun g => if g ≤ c.given then some g else none
  | none => none

/-- A chain that still runs: not late, squashed or over. -/
def Chain.runs (c : Chain) : Bool := !c.ended && !c.squash && c.committed.isNone

/-- A chain's dicer of its first cluster has feedback records to send that were held until the confirmation (R379). -/
def State.heldFeedback (s : State) (cluster : Nat) (c : Chain) : Bool :=
  !c.heldFb.isEmpty && c.admitted && (s.cfgOf c).clusterList.head? == some cluster

/-- The chain of earliest deadline among some. -/
def firstDue (cs : AMap Chain) : Option (Nat × Chain) :=
  cs.foldl (fun (b : Option (Nat × Chain)) e => match b with
    | none => some e
    | some x => if decide ((e.2.tf - x.2.tf).toInt < 0) then some e else some x) none

/-- The dicer of a cluster works on the chain of earliest deadline that has grids left to dice; a checkpoint due is
computed first, and records held are sent before. -/
def execDicePatch (cluster : Nat) : State → Res :=
  event fun s =>
    match s.chains.find? fun e => s.heldFeedback cluster e.2 with
    | some (k, c) =>
      let w := s.chainUnit cluster 0 k c
      s.unitStep w (do
        let fb ← s.feedback w cluster k c (c.heldFb.headD [])
        .ok (some (fb (s.modChain k fun c => { c with heldFb := c.heldFb.drop 1 }))))
    | none =>
      match firstDue (s.chains.filter fun e => e.2.runs && (s.cfgOf e.2).clusters.getLsbD cluster && !(e.2.dicer cluster).doneAll
          && (s.checkDue e.2).isNone) with
      | none => none
      | some (k, c) => s.unitStep (s.chainUnit cluster 0 k c) ((s.diceStep (s.chainUnit cluster 0 k c) cluster k c).map some)

/-! ### grid and gderiv (R291 to R293) -/

/-- Roles that group 0xC refuses. -/
def gBad : List Role := [.copy, .matrix, .epilogue]

/-- The chain of the executing wave, or ACCESS_DENIED (R291). -/
def State.needChain (s : State) (op : Nat) : Except TrapReq (Nat × Chain) :=
  match s.chain? with
  | some x => .ok x
  | none => .error (tDenied op)

def execGrid (la : BitVec 4) (d : Fin 128) (c : Opnd) : State → Res :=
  isaCtl fun s => do
    s.roleCheck gBad 0x300
    let _ ← s.needChain 0x300
    s.needConverged ⟨false, 7⟩
    match s.w.firstShort [d.val, d.val + 1] with
    | some n => .error (trapI tcRow n)
    | none => .ok ()
    let a : Acc := { s.w.newAcc .q s.sp.pc .grid with dst := .v d, regs := 4, size := 4, pred := c, mask := fullMask }
    let dests := groupOf (.v d) 4 ++ (match c with | .p n => [Opnd.p n] | _ => [])
    .ok (((s.modW fun w => w.addAcc a).openWait a.id la dests).advance)

def deliveredElems (g : Diced) : List Elem :=
  let w := gwW g.word
  let h := gwH g.word
  (List.range 32).map fun t =>
    (Elem.mk0 t 0 0 [] []).finish (decide (t % 8 < w ∧ t / 8 < h)) false
      (leBytes 4 (g.us.getD t 0).toNat ++ leBytes 4 (g.vs.getD t 0).toNat ++ leBytes 4 g.user.toNat ++ leBytes 4 g.word.toNat) 0

def noGridElems : List Elem := (List.range 32).map fun t => (Elem.mk0 t 0 0 [] []).finish false false (List.replicate 16 0) 0

/-- A grid instruction's values reach its split, and the instruction leaves its wave. -/
def State.giveGrid (s : State) (core ctx : Nat) (a : Acc) (uniform : Bool) (es : List Elem) : State :=
  let a : Acc := { a with uniform := uniform, elems := es }
  (((s.withCur ⟨core, ctx, 0⟩).deliver a).completeAcc core ctx a.id .q)

/-- The oldest outstanding grid of a wave takes the next grid that its cluster's dicer holds for the chain, or learns
that none is left. -/
def execGridDelivery (core ctx : Nat) : State → Res :=
  event fun s =>
    match (s.wave? core ctx).bind fun w => w.accs.find? (·.op == .grid) with
    | none => none
    | some a =>
      let w := s.wave core ctx
      let cl := core / 16
      match (s.grid w.grid).chain.bind fun k => (look s.chains k).map fun c => (k, c) with
      | none => some (s.giveGrid core ctx a true noGridElems)
      | some (k, c) =>
        let d := c.dicer cl
        if w.splits.isEmpty || !c.runs || !(s.cfgOf c).clusters.getLsbD cl then some (s.giveGrid core ctx a true noGridElems)
        else if (s.checkDue c).isSome then none
        else match d.ready with
          | g :: rest =>
            let s := s.modDicer k cl fun d => { d with ready := rest }
            let s := s.modChain k fun c => { c with given := c.given + 1 }
            some (s.giveGrid core ctx a false (deliveredElems g))
          | [] => if d.doneAll then some (s.giveGrid core ctx a true noGridElems) else none

def execGderiv (g : Guard) (d a : Fin 128) (b : Opnd) (v : Bool) : State → Res :=
  isa fun s => do
    s.roleCheck gBad 0x301
    let gw ← s.scalar b
    let w := gwW gw
    let h := gwH gw
    let md := Mods.of s.pm .rne
    let src := s.crossV (.v a)
    let mask := s.guardMask g
    let inside := maskOf fun t => decide (t % 8 < w) && decide (t / 8 < h) && (if v then h != 1 else w != 1)
    let diff (t : Nat) (us : List Nat) : Word :=
      let step := if v then 8 else 1
      let more := if v then decide (t / 8 < h - 1) else decide (t % 8 < w - 1)
      let x := if more then t + step else t
      fopSub md (dr us 0) (src.at x) (src.at (x - step))
    let r := drawRow (md.rnd == .rs) 1 (mask &&& inside) s.w.seed diff
    let s' : State := if md.rnd == .rs then s.modW fun w => { w with seed := r.2 } else s
    s'.writeV d.val (.gen r.1) mask

/-! ### tex (R294 to R296) -/

/-- The shared body of tex and tex.lz: the descriptor is read first; then a texel is an element of its thread, and a thread that
reads none has one of no bytes, at the descriptor. What the value is made of goes with each. -/
def State.texIssue (s : State) (g : Guard) (la : BitVec 4) (d a : Fin 128) (b : Fin 64) (c : Option (Fin 128)) : Except TrapReq State := do
  s.roleCheck gBad 0x302
  let mask := s.guardMask g
  let ts := threads mask
  let sp := s.sp.pair b.val
  s.noElems ts (s.counted .g do
    check (sp.toNat % 32 == 0) ⟨tcMisaligned, ts.headD 0, sp.extractLsb' 0 32, sp⟩
    let pa ← match s.xlate s.cur.core s.w.grid sp false false with
      | .ok e => .ok (e.pa? sp.toNat)
      | .error k => .error (faultTrap (ts.headD 0) k sp)
    s.unitWait (s.splitUnit 1) (s.got (s.splitUnit 1) pa 32) fun s r => do
      let acc : Acc := { s.w.newAcc .g s.sp.pc .tex with dst := .v d, regs := 4, size := 4, mask := mask }
      match r with
      | none =>
        let s := s.recordWave s.cur.core s.cur.ctx tcData s.sp.pc true true 0
        let acc := { acc with elems := [(Elem.mk0 (ts.headD 0) sp 0 [] []).finish false true [] 0] }
        .ok (((s.modW fun w => w.addAcc acc).openWait acc.id la (groupOf (.v d) 4)).advance)
      | some bs =>
        let t := texOf bs
        check (t.base % 128 == 0) ⟨tcMisaligned, ts.headD 0, w32 t.base, BitVec.ofNat 64 t.base⟩
        check (texValid bs) { trapI tcProtection 0 with thread := ts.headD 0 }
        let elems := ts.flatMap fun i =>
          let lam := t.lambda c.isNone (match c with
            | some v => (List.range 4).map fun j => (s.readV (v.val + j)).at i
            | none => [])
          let sx := (s.readV a.val).at i
          let sy := (s.readV (a.val + 1)).at i
          let info := bs ++ [lam, sx, sy].flatMap fun x => leBytes 4 x.toNat
          match (t.threadTaps lam sx sy).flatMap fun e => t.taps e.1 e.2.1 e.2.2 with
          | [] => [Elem.mk0 i sp 0 info []]
          | vas => vas.map fun va => Elem.mk0 i (BitVec.ofNat 64 va) t.texel info []
        s.goAccess { acc with elems := elems } la)

def execTex (g : Guard) (la : BitVec 4) (d a : Fin 128) (b : Fin 64) (c : Fin 128) : State → Res :=
  isaCtl fun s => s.texIssue g la d a b (some c)
def execTexLz (g : Guard) (la : BitVec 4) (d a : Fin 128) (b : Fin 64) : State → Res :=
  isaCtl fun s => s.texIssue g la d a b none

/-! ### gemit (R299, R300) -/

/-- A grid record: a header that holds the grid word, the stream, the strip and the bound of the vertices, in a layout that
the manual does not give (log entry 26), then 32 entries of twelve f32. -/
def State.gridRecord (s : State) (c : Chain) (gw : Word) (a b : Fin 128) : List Byte :=
  let pos (t : Nat) : List Word := (List.range 8).map fun j => (s.readV (a.val + j)).at t
  let colour (t : Nat) : List Word := (List.range 4).map fun j => (s.readV (b.val + j)).at t
  let head := Config.gridHeader gw c.stream c.strip
    (w32 c.cfg.wt :: w32 c.cfg.ht :: c.cfg.ls :: c.cfg.fi :: (List.range 32).flatMap pos)
  (List.range 64).map head ++ (List.range 32).flatMap fun t => (pos t ++ colour t).flatMap fun x => leBytes 4 x.toNat

def execGemit (d : Opnd) (a b : Fin 128) (c : Opnd) : State → Res :=
  isaCtl fun s => do
    s.roleCheck gBad 0x303
    let (k, ch) ← s.needChain 0x303
    s.needConverged ⟨false, 7⟩
    let gw ← s.scalar c
    if ch.cfg.gsize ≤ ch.recs.length then .ok ((s.setP d 0 fullMask).advance)
    else s.counted .s do
      let va := ch.cfg.garea.toNat + 1600 * ch.recs.length
      let rec_ := s.gridRecord ch gw a b
      let page (p : Nat) : Except Nat TlbE := s.xlateIn s.cur.core ch.cfg.asid (BitVec.ofNat 64 p) true false
      let es ← (partsAt va 1600).mapM fun p => match page p.1 with
        | .ok e => .ok { Elem.mk0 0 (BitVec.ofNat 64 p.1) p.2.1 ((rec_.drop p.2.2).take p.2.1) [] with pa := e.pa? p.1 }
        | .error n =>
          let t := faultTrap 0 n (BitVec.ofNat 64 p.1)
          .error (if n = kindLater then { t with info := 2 } else t)
      let acc : Acc := { s.w.newAcc .s s.sp.pc .emit with elems := es }
      let core := s.cur.core
      let ctx := s.cur.ctx
      let s := s.modChain k fun x => { x with recs := x.recs ++ [⟨gw, core, ctx, acc.id⟩] }
      let s := (s.modW fun w => w.addAcc acc).setP d fullMask fullMask
      .ok (s.advance.sendAll core ctx acc)

/-- A record whose gemit has left its S counter, and one whose bytes are in place (R306). -/
def State.recLeft (s : State) (r : GridRec) : Bool := (s.acc? r.core r.ctx r.acc).isNone
def State.recPlaced (s : State) (r : GridRec) : Bool :=
  match s.acc? r.core r.ctx r.acc with
  | none => true
  | some a => a.elems.all (·.done)

/-! ### kbres and the resolve (R301 to R307, R381, R383) -/

def execKbres (a : Opnd) (k : BitVec 6) : State → Res :=
  isaCtl fun s => do
    s.roleCheck gBad 0x304
    let (id, ch) ← s.needChain 0x304
    let x ← s.scalar a
    let j ← s.barK k
    let cfg := s.cfgOf ch
    let bx := x.toNat % 65536
    let by_ := x.toNat / 65536
    check (decide (16 * bx < cfg.wt) && decide (4 * by_ < cfg.rows ch.strip)) (trapI tcProtection 0)
    let cl := s.cur.core / 16
    if 40 ≤ (s.cluster cl).kq.length then .ok s.stall
    else
      let must := (List.range ch.recs.length).filter fun i => (ch.recs[i]?).any s.recLeft
      let wg := s.w.wg
      .ok (s.advance.modCluster cl fun c => { c with kq := c.kq ++ [⟨id, wg, bx, by_, j, must, false, false⟩] })

/-- What reading for a block meets: the cause of R307, with whether a page-table entry was malformed. -/
def blockCause (e : Nat × Bool) : Nat × Bool := if e.1 = kindBad then (8, false) else (6, e.2)

/-- The twelve words of each vertex entry of record i, or the cause of what reading it met. -/
def State.readRecord (s : State) (w : Who) (cluster : Nat) (c : Chain) (i : Nat) : Rd (Except (Nat × Bool) (List (List Word))) := do
  match ← s.chainRead w cluster c (c.cfg.garea.toNat + 1600 * i) 1600 with
  | .error e => .ok (.error (blockCause e))
  | .ok bs => .ok (.ok ((List.range 32).map fun t => (List.range 12).map fun j => wordAt bs (64 + 48 * t + 4 * j)))

/-- A sample's entry of the sample table: x, y, τ, lu, lv (R301). -/
structure Smp where
  x : Nat
  y : Nat
  tau : Nat
  lu : Int
  lv : Int
  deriving DecidableEq, Repr

def smpOf (bs : List Byte) (spp px py k : Nat) : Smp :=
  let o := ((16 * (py % 16) + px % 16) * spp + k) * 8
  let b (i : Nat) : Nat := (bs.getD (o + i) 0).toNat
  ⟨b 0, b 1, b 2, intOf 8 true (b 3), intOf 8 true (b 4)⟩

/-- The fragments a record leaves in the pixels [x0, x1) × [y0, y1), coarse pixel by coarse pixel. -/
def recordFragments (cfg : StreamCfg) (ls fi : Word) (spp : Nat) (stab : List Byte) (gw : Word) (vs : List (List Word)) (x0 x1 y0 y1 : Nat) :
    List ((Nat × Nat) × Layer) :=
  let r := gwRate gw
  let rx := 2 ^ r.1
  let ry := 2 ^ r.2
  let w := gwW gw
  let h := gwH gw
  let cov (p : Nat × Nat) (k : Nat) : Option (Word × List Word) :=
    let m := smpOf stab spp p.1 p.2 k
    let vx := vs.map fun e => projectVtx cfg.wt cfg.ht ls fi e m.tau m.lu m.lv
    sampleGrid w h vx (512 * p.1 + 2 * m.x + 1) (512 * p.2 + 2 * m.y + 1)
  (List.range ((y1 - y0 + ry - 1) / ry)).flatMap fun cy => (List.range ((x1 - x0 + rx - 1) / rx)).flatMap fun cx =>
    let ys := (List.range ry).filterMap fun j => if y0 + cy * ry + j < y1 then some (y0 + cy * ry + j) else none
    let xs := (List.range rx).filterMap fun i => if x0 + cx * rx + i < x1 then some (x0 + cx * rx + i) else none
    fragments spp (ys.flatMap fun y => xs.map fun x => (x, y)) cov

/-- The layers of each pixel after a list of fragments. -/
def addFragments (spp : Nat) (kb : List ((Nat × Nat) × List Layer)) (fs : List ((Nat × Nat) × Layer)) : List ((Nat × Nat) × List Layer) :=
  kb.map fun e => (e.1, fs.foldl (fun ls f => if f.1 = e.1 then insertLayer spp ls f.2 else ls) e.2)

/-- Where row r of a strip's target lies in its slot, and its pitch (R381). -/
def StreamCfg.rowAt (c : StreamCfg) (r : Int) : Nat :=
  if c.hasRender then c.h * c.pf + (r + c.tr).toNat * c.pr else r.toNat * c.pf

/-- The slot of a chain as a ring offset. -/
def State.slotBase (s : State) (c : Chain) : Nat := (s.cfgOf c).ring + c.slot * (s.cfgOf c).slotBytes

/-- A block's columns and rows of the target: [x0, x1) and [y0, y1). -/
def KbReq.span (q : KbReq) (cfg : StreamCfg) (c : Chain) : (Nat × Nat) × (Nat × Nat) :=
  let y0 := cfg.row0 c.strip + 4 * q.by_
  ((16 * q.bx, min (16 * q.bx + 16) cfg.wt), (y0, min (y0 + 4) (cfg.row0 c.strip + cfg.rows c.strip)))

/-- The pixels of a block from the records named, in their order (R305). -/
def State.blockLayers (s : State) (w : Who) (cluster : Nat) (c : Chain) (q : KbReq) (is : List Nat) :
    Rd (Except (Nat × Bool) (List ((Nat × Nat) × List Layer))) := do
  let cfg := s.cfgOf c
  let spp := c.cfg.spp
  let ((x0, x1), (y0, y1)) := q.span cfg c
  let pix := (List.range (y1 - y0)).flatMap fun j => (List.range (x1 - x0)).map fun i => (x0 + i, y0 + j)
  match ← s.chainRead w cluster c c.cfg.stab.toNat (2048 * spp) with
  | .error e => .ok (.error (blockCause e))
  | .ok stab =>
    let vss ← is.mapM fun i => s.readRecord w cluster c i
    .ok ((is.zip vss).foldl (fun (r : Except (Nat × Bool) (List ((Nat × Nat) × List Layer))) x =>
      match r, x.2 with
      | .error e, _ => .error e
      | _, .error e => .error e
      | .ok kb, .ok vs =>
        .ok (addFragments spp kb (recordFragments cfg c.cfg.ls c.cfg.fi spp stab ((c.recs[x.1]?).map (·.word) |>.getD 0) vs x0 x1 y0 y1)))
      (.ok (pix.map fun p => (p, []))))

/-- Where the part of a row that a block writes lies. -/
def State.blockRow (s : State) (c : Chain) (q : KbReq) (y0 x0 y : Nat) : Nat :=
  s.rbase.getD 0 + s.slotBase c + (s.cfgOf c).rowAt (y - y0 + 4 * q.by_ : Nat) + x0 * (s.cfgOf c).bpp

/-- The rows of a block on their way to the slot, in aligned 16-byte parts, each counted on the barrier with the parity of its
moment (R307, R333). -/
def State.postRows (s : State) (w : Who) (c : Chain) (q : KbReq) (kb : List ((Nat × Nat) × List Layer)) : State :=
  let cfg := s.cfgOf c
  let ((x0, _), (y0, y1)) := q.span cfg c
  ((List.range (y1 - y0)).map (y0 + ·)).foldl (fun s y =>
    let bs := (kb.filter fun e => e.1.2 == y).flatMap fun e => pixelBytes cfg.fmt (composePixel c.cfg.spp c.cfg.bg e.2)
    s.postParts w (.block q.wg q.bar) (s.blockRow c q y0 x0 y) bs) s

/-- The block at the head of a cluster's k-buffer is over. -/
def State.blockGone (s : State) (cluster : Nat) : State := s.modCluster cluster fun c => { c with kq := c.kq.drop 1 }

/-- The oldest block of a cluster's k-buffer is resolved: every record that must take part, and of the later ones in
place any choice, each whole (R306); its rows are written; once they all are, the block is over. -/
def execKbufBlockResolve (cluster : Nat) : State → Res :=
  event fun s =>
    match (s.cluster cluster).kq.head?, (s.cluster cluster).kq.head?.bind fun q => look s.chains q.chain with
    | none, _ => none
    | some _, none => some (s.blockGone cluster)
    | some q, some c =>
      let w := s.chainUnit cluster 2 q.chain c
      if q.writing then
        if s.posting w then none
        else
          let b := q.by_ * 2048 + q.bx
          let s := s.blockGone cluster
          some (if q.spoiled then s else s.modChain q.chain fun c => { c with blocks := if c.blocks.contains b then c.blocks else b :: c.blocks })
      else if !c.runs then some ((s.blockGone cluster).stepDone w)
      else
        let is := (List.range c.recs.length).filter fun i =>
          q.recs.contains i || ((c.recs[i]?).any s.recPlaced && s.bit 23 i)
        s.unitStep w (do
          match ← s.blockLayers w cluster c q is with
          | .error (cause, mal) =>
            let s := s.blockGone cluster
            .ok (some (if cause = 6 then s.barFault q.wg q.bar c.cfg.garea mal else s.barErrorAs q.wg q.bar cause c.cfg.garea true (cause == 8) 0))
          | .ok kb =>
            let s := s.modCluster cluster fun k => { k with kq := match k.kq with | x :: xs => { x with writing := true } :: xs | [] => [] }
            .ok (some (s.postRows w c q kb)))

/-- A band of four render rows is complete: each of its blocks is written (R383). -/
def Chain.bandDone (c : Chain) (cfg : StreamCfg) (band : Nat) : Bool :=
  (List.range ((cfg.wt + 15) / 16)).all fun bx => c.blocks.contains (band * 2048 + bx)

/-! ### srate and rfbk (R297, R298) -/

def rateWord (r : Rate) (d : Nat) : Word := w32 (r.1 + r.2 * 4 + d % 8 * 16)

def execSrateGrid (d a : Opnd) : State → Res :=
  isa fun s => do
    s.roleCheck gBad 0x305
    let gw ← s.scalar a
    s.writeD d (.uni (rateWord (gwRate gw) (gwD gw))) s.sp.mask

/-- The combined rate at a pixel; a draw index without a valid draw counts as rate 1 × 1 with combiners keep (log
entry 24). -/
def State.cellRateAt (s : State) (w : Who) (cluster : Nat) (c : Chain) (gw : Word) (x y : Nat) : Rd Rate := do
  let cell ← s.sriCell w cluster c (x / 16) (y / 16)
  let d ← if gwDraw gw < c.cfg.dn then s.drawAt w cluster c (gwDraw gw) else .ok none
  .ok (stepRate c.d (match d with
    | some d => combineRate d.c2 (combineRate d.c1 d.rate (gwPatch gw)) cell
    | none => (0, 0)))

def execSrateCell (d a b : Opnd) : State → Res :=
  isaCtl fun s => do
    s.roleCheck gBad 0x305
    let (_, c) ← s.needChain 0x305
    let gw ← s.scalar a
    let p ← s.scalar b
    let x := p.toNat % 65536
    let y := p.toNat / 65536
    let cfg := s.cfgOf c
    check (decide (x < cfg.wt) && decide (y < cfg.ht)) (trapI tcProtection 0)
    s.unitWait (s.splitUnit 5) (s.cellRateAt (s.splitUnit 5) (s.cur.core / 16) c gw x y) fun s r => do
      let s ← s.writeD d (.uni (rateWord r c.d)) s.sp.mask
      .ok s.advance

/-- The distinct page values of the written threads, each with its lowest thread, in ascending order of it. -/
def distinctPages (ts : List Nat) (page : Nat → Word) : List Nat :=
  ts.filter fun t => !(ts.any fun u => u < t && page u == page t)

def execRfbk (g : Guard) (a b : Opnd) : State → Res :=
  isaCtl fun s => do
    s.roleCheck gBad 0x306
    let (_, c) ← s.needChain 0x306
    let ts := threads (s.guardMask g)
    let page (t : Nat) : Word := (s.src a).at t
    s.noElems ts (if c.cfg.fbr = 0 then .ok s.advance else s.counted .s
      (s.goAccess { s.w.newAcc .s s.sp.pc (.ring 16) with
        elems := (distinctPages ts page).map fun t =>
          Elem.mk0 t c.cfg.fbr 16 (fbRecord (page t).toNat c 1 ((s.src b).at t)) [] } 0))

end Sys2Proof.Machine
end

