-- ==== Sys2Proof/Machine/Streams.lean ====
section
/-! DEFINITION. Streams and spawn, the rest of group 0x9 (R197 to R202, R239). -/

namespace Sys2Proof.Machine

/-! ### Descriptors (R198) -/

def Strm.blank : Strm := ⟨0, 0, 0, 0, false, 0, none, false, 0, [], 0, []⟩

/-- A descriptor's stream at position 0, under an identity. -/
def Strm.ofDesc (daddr : Nat) (bs : List Byte) (sid : Nat) : Strm :=
  let x := leNat bs
  ⟨daddr, bitsOf x 0 52, intOf 32 true (bitsOf x 96 32), bitsOf x 64 32, bitsOf x 52 2 == 0, bitsOf x 128 3,
    if bitsOf x 131 1 = 1 then some (bitsOf x 132 5) else none, bitsOf x 137 1 == 1, 0, [], sid, []⟩

/-- Check 3 of R199: the zero fields, and the codes of SPACE and ESZ. -/
def descZeros (bs : List Byte) : Bool :=
  let x := leNat bs
  bitsOf x 138 118 == 0 && bitsOf x 54 10 == 0 && decide (bitsOf x 52 2 < 2) && decide (bitsOf x 128 3 < 5)

/-- Elements a queue holds (R197). -/
def Strm.cap (x : Strm) : Nat := 1024 / 2 ^ x.esz

/-! ### Elements (R198, R200) -/

/-- What filling an element takes: nothing more, a read of memory, a walk, or its index, which stream j is to fill from
there on, or already fills. -/
inductive Fill where
  | now (e : StrEntry) | ask (va pa : Nat) | walk (va : Nat) | index (j : Nat) | wait
  deriving DecidableEq, Repr

/-- An element of n bytes of the A-buffer, or its fault (R198, R200). -/
def State.localElem (s : State) (wg n a : Nat) : StrEntry :=
  if a % n != 0 then ⟨[], some tcMisaligned, a, false, s.tu⟩
  else if a + n ≤ (s.wg wg).size .a then ⟨s.bufGet wg .a a n, none, a, false, s.tu⟩
  else ⟨[], some tcProtection, a, false, s.tu⟩

/-- The fill of an element at an address; the fault that a walk found for it is held (R200, R317). -/
def State.fillAt (s : State) (core : Nat) (w : Wave) (x : Strm) (addr : Int) : Fill :=
  let a := (BitVec.ofInt 64 addr).toNat
  let n := 2 ^ x.esz
  if !x.global then .now (s.localElem w.wg n a)
  else if a % n != 0 then .now ⟨[], some tcMisaligned, a, false, s.tu⟩
  else match s.walkFaults.find? fun f => f.src == .engine core 1 && f.key == x.sid && f.va == pageUnit a with
    | some f => .now ⟨[], some (if f.kind = kindBad then tcData else tcTranslation), a, false, s.tu⟩
    | none => match s.lookup core (s.grid w.grid).d.asid (BitVec.ofNat 64 a) false with
      | .fault _ => .now ⟨[], some tcTranslation, a, false, s.tu⟩
      | .miss => .walk a
      | .page e => .ask a (e.pa? a)

/-- The fill of element i: its index comes from the index stream's own queue. An index beyond the index stream's count is
a fault of the element (log entry 22). -/
def State.fillOf (s : State) (core : Nat) (w : Wave) (x : Strm) (i : Nat) : Fill :=
  match x.idx with
  | none => s.fillAt core w x ((x.base : Int) + i * x.stride)
  | some j =>
    let y := (look w.streams j).getD Strm.blank
    if y.count ≤ i then .now ⟨[], some tcProtection, 0, false, s.tu⟩
    else match look y.q i with
      | none => if y.pos ≤ i && i < y.pos + y.cap then .wait else .index j
      | some e =>
        if s.tu < e.back then .wait
        else if e.stale then .index j
        else match e.fault with
          | some c => .now ⟨[], some c, e.va, false, s.tu⟩
          | none => s.fillAt core w x ((x.base : Int) + intOf 32 x.idxSigned (leNat e.bytes) * x.stride)

def Wave.modStr (w : Wave) (k : Nat) (f : Strm → Strm) : Wave := { w with streams := change w.streams k f }

/-- The next element that run-ahead may fill: the lowest neither held nor asked for, inside the count and the queue. -/
def Strm.nextFill (x : Strm) : Option Nat :=
  ((List.range x.cap).find? fun j =>
    (look x.q (x.pos + j)).isNone && !(x.out.any (·.1 == x.pos + j)) && decide (x.pos + j < x.count)).map (x.pos + ·)

/-- An index stream is consumed as its dependant's queue fills (R200). -/
def Wave.usedIndex (w : Wave) (x : Strm) (i : Nat) : Wave :=
  match x.idx with
  | some j => w.modStr j fun y => { y with pos := max y.pos (i + 1), q := y.q.filter fun e => i < e.1 }
  | none => w

/-- A request of run-ahead for an element: the wave's priority, and ahead of others while it drains (R241). -/
def State.fillReq (s : State) (core ctx : Nat) (w : Wave) (x : Strm) (i pa : Nat) : Req :=
  { s.waveReq core ctx 0 0 pa w.prio (.stream x.sid i (2 ^ x.esz)) with src := .engine core 1 }

/-- The run-ahead engine fills one entry, or asks for a global one as a .cg load, the next one when that has come: entries
are filled in element order (R200). -/
def execStreamFill (core ctx k : Nat) : State → Res :=
  event fun s =>
    match s.wave? core ctx with
    | none => none
    | some w =>
      match look w.streams k with
      | none => none
      | some x =>
        match x.nextFill with
        | none => none
        | some i =>
          if w.stop != .none || !x.out.isEmpty then none
          else match s.fillOf core w x i with
            | .now e =>
              let s : State := { s with walkFaults := s.walkFaults.filter fun f => !(f.src == .engine core 1 && f.key == x.sid) }
              some (s.modWave core ctx fun w => (w.modStr k fun x => { x with q := put x.q i e }).usedIndex x i)
            | .ask va pa =>
              let s := s.modWave core ctx fun w => (w.modStr k fun x => { x with out := [(i, va, false)] }).usedIndex x i
              some (s.engSend (s.fillReq core ctx w x i pa) false (2 ^ x.esz) []).pumpHost
            | .walk va =>
              if s.walks.any (fun y => y.eng.contains (.engine core 1, x.sid) && y.va == pageUnit va) then none
              else some (s.queueWalk (core / 16) (some core) (s.grid w.grid).d.asid (s.grid w.grid).d.root va [(.engine core 1, x.sid)])
            | .index j => some (s.modWave core ctx fun w => w.modStr j fun y => { y with pos := i, q := y.q.filter fun e => i < e.1 })
            | .wait => none

/-! ### strdef, strq, strend (R199, R201, R202) -/

def tStr : TrapReq := trapI tcProtection 0

/-- Streams of a wave that take their indices from stream k. -/
def Wave.dependants (w : Wave) (k : Nat) : List Nat := (w.streams.filter fun e => e.2.idx == some k).map (·.1)

/-- Stream records of a core that are held: those of its waves, and of the stopped waves of its workgroups (R197, R242). -/
def State.strRecords (s : State) (core : Nat) : Nat :=
  ((s.core core).waves.map fun w => w.2.streams.length).sum
    + ((s.saved.filter fun x => (s.wg x.wg).core == some core).map (·.streams)).sum

def execStrdef (d : Opnd) (k : BitVec 5) (a : Opnd) (off : BitVec 8) : State → Res :=
  isa fun s => do
    let base ← s.scalar a
    let addr := base + off.signExtend 32 * 32#32
    check (addr.toNat % 32 == 0) ⟨tcMisaligned, 0, addr, 0⟩
    check (decide (addr.toNat + 32 ≤ s.g.size .a)) ⟨tcProtection, 0, addr, 0⟩
    let bs := s.bufGet s.w.wg .a addr.toNat 32
    check (descZeros bs) (trapI tcEncoding (7 + 4 * 256))
    let x := Strm.ofDesc addr.toNat bs s.nextTag
    let w := s.w
    match x.idx with
    | some j =>
      match look w.streams j with
      | some y => check (j != k.toNat && y.idx.isNone && y.esz == 2 && (w.dependants j).all (· == k.toNat)) tStr
      | none => .error tStr
    | none => .ok ()
    check ((w.dependants k.toNat).isEmpty || (look w.streams k.toNat).isNone) tStr
    let s := s.modW fun w => { w with streams := erase w.streams k.toNat }
    let s : State := { s with nextTag := s.nextTag + 1 }
    if s.strRecords s.cur.core < 32 then .ok ((s.modW fun w => { w with streams := put w.streams k.toNat x }).setP d fullMask s.sp.mask)
    else .ok (s.setP d 0 s.sp.mask)

/-- What a thread of strq takes: a zero beyond the count, an entry, or one that must first be filled. -/
inductive StrTake where
  | none | entry (i : Nat) (e : StrEntry) | unfilled (i : Nat)
  deriving DecidableEq, Repr

/-- What the executing threads take at a moment from element i on, in ascending thread order; a stale entry is filled again
first. -/
def strTake (x : Strm) (tu : Nat) : List Nat → Nat → List (Nat × StrTake)
  | [], _ => []
  | t :: ts, i =>
    (t, if x.count ≤ i then .none
      else match look x.q i with
        | some e => if e.stale || decide (tu < e.back) then .unfilled i else .entry i e
        | none => .unfilled i) :: strTake x tu ts (i + 1)

/-- The entry of a thread that is the first to stop a strq: one to be filled, or one that holds a fault. -/
def strStop : List (Nat × StrTake) → Option (Nat × Option Nat)
  | [] => none
  | (_, .unfilled i) :: _ => some (i, none)
  | (_, .entry i e) :: rest => match e.fault with
    | some c => some (i, some c)
    | none => strStop rest
  | (_, .none) :: rest => strStop rest

/-- Entries that a strq must fill again because they are stale (R200, event 0x0B). -/
def Strm.staleIn (x : Strm) (i n : Nat) : Nat := (x.q.filter fun e => i ≤ e.1 && decide (e.1 < i + n) && e.2.stale).length

/-- strq stalls until run-ahead has filled the entries it takes (R200, R201). -/
def execStrq (g : Guard) (la : BitVec 4) (d c : Opnd) (k : BitVec 5) (size : Size) (sx : Bool) : State → Res :=
  isaCtl fun s =>
    match look s.w.streams k.toNat with
    | none => .error tStr
    | some x => do
      check ((s.w.dependants k.toNat).isEmpty && x.esz == size.code) tStr
      s.counted .q do
        let mask := s.guardMask g
        let ts := threads mask
        let got := strTake x s.tu ts x.pos
        match strStop got with
        | some (_, none) =>
          let s := s.tally s.cur.core s.cur.ctx 0x0B (x.staleIn x.pos ts.length)
          let fresh (y : Strm) : Strm := { y with q := y.q.filter fun e => !(x.pos ≤ e.1 && decide (e.1 < x.pos + ts.length) && e.2.stale) }
          .ok (s.modW fun w => w.modStr k.toNat fresh).stall
        | some (i, some code) =>
          let s := s.modW fun w => w.modStr k.toNat fun y => { y with q := erase y.q i }
          .ok (s.raise (trapI 0x17 (code + k.toNat * 256 + i % 2 ^ 19 * 8192)))
        | none =>
          let word (t j : Nat) : Word := match got.find? (·.1 == t) with
            | some (_, .entry _ e) => loadWord size sx e.bytes j
            | _ => 0
          let regs := (List.range size.regs).map fun j => VReg.gen ((List.range 32).map fun t => word t j)
          let ok := maskOf fun t => got.any fun e => e.1 == t && e.2 != .none
          let s1 ← s.writeGroup d mask 0 regs
          let s1 := s1.setP c ok mask
          let s1 := s1.modW fun w => w.modStr k.toNat fun y => { y with pos := y.pos + ts.length, q := y.q.filter fun e => x.pos + ts.length ≤ e.1 }
          let dests := groupOf d size.regs ++ (match c with | .p n => [Opnd.p n] | _ => [])
          .ok ((s1.openDone s la dests).advance)

def execStrend (k : BitVec 5) : State → Res :=
  isa fun s => do
    check ((look s.w.streams k.toNat).isNone || (s.w.dependants k.toNat).isEmpty) tStr
    .ok (s.modW fun w => { w with streams := erase w.streams k.toNat })

/-! ### spawn (R239) -/

/-- Waves of a workgroup that have not ended: their indices, saved ones included. One that has ended may still drain. -/
def State.liveIdx (s : State) (wg : Nat) : List Nat :=
  (s.cores.flatMap fun c => (c.2.waves.filter fun w => w.2.wg == wg && !(w.2.splits.isEmpty && w.2.deferred.isEmpty)).map fun w => w.2.idx)
    ++ (s.saved.filter (·.wg == wg)).map (·.idx)

/-- Contexts and rows of a core that are free (R13, R26). -/
def Core.freeCtx (c : Core) : List Nat := (List.range 64).filter fun i => !(c.waves.any (·.1 == i))
def Core.freeRows (c : Core) : Nat := 1024 - (c.waves.map (·.2.g)).sum

/-- The seed of a wave with linear index w of its grid, and of a spawned wave (R87). -/
def seedOf (w : Nat) : Word := BitVec.ofNat 32 w * 0x9E3779B9#32 + 0x6D2B79F5#32

/-- A pre-emption request that names a workgroup is pending: made, and some wave still to be saved. -/
def State.stopPending (s : State) (wg : Nat) : Bool :=
  (s.wg wg).evict || ((s.wg wg).stopReq && s.cores.any fun c => c.2.waves.any fun w => w.2.wg == wg && w.2.stop != .none)

/-- spawn; the new wave's index may have been an ended wave's, whose writes under way are not its own. -/
def execSpawn (d : Opnd) (a : Fin 64) (b : Fin 128) : State → Res :=
  isa fun s => do
    let entry := s.sp.pair a.val
    let _ ← s.target entry
    let w := s.w
    let k := s.cur.core
    let c := s.core k
    let idxs := s.liveIdx w.wg
    let m := s.sp.mask
    match c.freeCtx with
    | [] => .ok (s.setP d 0 m)
    | ctx :: _ =>
      if decide (w.g ≤ c.freeRows) && decide (idxs.length < 16) && !s.stopPending w.wg then
        let idx := ((List.range 16).find? fun i => !idxs.contains i).getD 0
        let vs := (List.range 8).map fun i => s.readV (b.val + i)
        let nw : Wave := { Wave.blank with
          grid := w.grid, wg := w.wg, idx := idx, role := w.role, n := w.n, g := w.g, prio := w.prio, stage := w.stage
          v := vs ++ List.replicate 120 .unwritten
          splits := [{ Split.blank with pc := entry }]
          seed := w.seed ^^^ (BitVec.ofNat 32 (idx + 1) * 0x9E3779B9#32)
          startAt := c.cyc.toNat + 16, area := s.savePlace (saveSize w.g), nextAcc := s.free * 65536 }
        let s : State := { s with hostAccs := s.hostAccs.map fun h => if h.wave = some (w.wg, idx) then { h with wave := none } else h }
        let s := s.modCore k fun c => { c with waves := put c.waves ctx nw }
        .ok ((s.modWg w.wg fun g => { g with live := g.live + 1 }).setP d fullMask m)
      else .ok (s.setP d 0 m)

/-- A spawned wave is ready 16 core cycles after its spawn, counted on SR_CYC. -/
def execSpawnedWaveReady (core ctx : Nat) : State → Res :=
  event fun s =>
    match s.wave? core ctx with
    | some w =>
      if w.startAt != 0 && decide (w.startAt ≤ (s.core core).cyc.toNat) then some (s.modWave core ctx fun w => { w with startAt := 0 })
      else none
    | none => none

end Sys2Proof.Machine
end

