-- ==== Sys2Proof/Machine/Preempt.lean ====
section
/-! DEFINITION. Pre-emption: stopping a wave, its context save area, eviction of a workgroup's reservations, and what
resuming restores (R240 to R245). -/

namespace Sys2Proof.Machine

/-! ### The context save area (R243, R244) -/

def roleCode : Role → Nat
  | .general => 0
  | .copy => 1
  | .matrix => 2
  | .epilogue => 3

def roleOf (n : Nat) : Role :=
  match n with
  | 1 => .copy
  | 2 => .matrix
  | 3 => .epilogue
  | _ => .general

def Status.code : Status → Nat
  | .running => 0
  | .parkedJoin => 1
  | .parkedConv => 2
  | .waiting _ => 3

def Split.sleeping (p : Split) : Bool :=
  match p.status with
  | .waiting (.sleep _) => true
  | _ => false

def Split.deadline (p : Split) : Option DWord :=
  match p.status with
  | .waiting (.sleep d) => d
  | _ => none

/-- PC with the low slot in bit 0 (R59, log entry 28), mask, state, divergence identifier. -/
def pathEntry (pc : DWord) (low : Bool) (mask : Mask) (st arrived depth pos uid : Nat) : List Byte :=
  leBytes 8 (pc.toNat + low.toNat) ++ leBytes 4 mask.toNat
    ++ leBytes 2 (1 + st * 2 + arrived * 8 + depth % 128 * 16 + pos % 16 * 2048) ++ leBytes 2 uid

def Wave.splitEntry (w : Wave) (i : Nat) : List Byte :=
  match w.split? i with
  | some p => pathEntry p.pc p.low p.mask p.status.code (p.arrived || (w.heldArr && w.handler == some p.id)).toNat p.depth (w.pos p.uid) p.div
  | none => List.replicate 16 0

def Wave.deferEntry (w : Wave) (j : Nat) : List Byte :=
  match w.deferred.reverse[j]? with
  | some d => pathEntry d.pc false d.mask 0 0 d.depth (w.pos d.uid) d.div
  | none => List.replicate 16 0

def wordsBytes (ws : List Word) : List Byte := ws.flatMap fun x => leBytes 4 x.toNat

/-- Bits [125:96] of tag-table entry k: the state of stream k / 2. -/
def Wave.streamBits (w : Wave) (k : Nat) : Nat :=
  match look w.streams (k / 2) with
  | some x => if k % 2 = 0 then x.pos % 2 ^ 30 else x.pos / 2 ^ 30 % 4 + x.daddr % 2 ^ 17 * 4
  | none => 0

/-- A tag-table entry; the rows of GEN registers are numbered in ascending register order (R28, R433, log entry 12). -/
def Wave.tagEntry (w : Wave) (k : Nat) : List Byte :=
  let v := if k < w.n then w.v.getD k .unwritten else .unwritten
  let lo : Nat × Nat × Nat := match v with
    | .unwritten => (0, 0, 0)
    | .uni x => (x.toNat, 0, 0)
    | .aff b st => (b.toNat, st.toNat, 0)
    | .gen _ => (0, 0, ((w.v.take k).filter fun x => match x with | .gen _ => true | _ => false).length)
  leBytes 4 lo.1 ++ leBytes 4 lo.2.1 ++ leBytes 4 lo.2.2 ++ leBytes 4 (w.streamBits k + v.code * 2 ^ 30)

def genRow (v : VReg) : List Byte :=
  match v with
  | .gen row => wordsBytes row
  | _ => []

def padTo (n : Nat) (bs : List Byte) : List Byte := bs ++ List.replicate (n - bs.length) 0

/-- The earliest deadline among sleeping splits, which is the one the area can hold (log entry 29). -/
def Wave.deadline (w : Wave) : DWord :=
  (w.splits.filterMap Split.deadline).foldl (fun d x => if d = 0 then x else if reached d x then x else d) 0

def bitList (n : Nat) (f : Nat → Bool) : Nat := ((List.range n).filter f).foldl (fun a i => a + 2 ^ i) 0

/-- The whole save area of a wave. -/
def State.saveBytes (s : State) (core : Nat) (w : Wave) : List Byte :=
  let flags := w.handler.isSome.toNat + (w.splits.any Split.sleeping).toNat * 2 + w.brk.toNat * 4 + w.wakePend.toNat * 8
  let mf : Nat × Nat := match w.mfault with
    | some (code, more, pc) => (code % 256 + more % 8 * 256, pc.toNat)
    | none => (0, 0)
  leBytes 4 0x56535A51 ++ leBytes 2 1 ++ leBytes 2 flags
    ++ ([w.idx, w.prio, w.stage, w.deferred.length, w.n, w.g, roleCode w.role, 0].flatMap fun x => leBytes 1 x)
    ++ leBytes 4 core ++ leBytes 4 w.grid ++ leBytes 4 (s.wg w.wg).lin ++ leBytes 4 0
    ++ leBytes 8 (s.now core).toNat ++ leBytes 8 (s.core core).cyc.toNat ++ leBytes 8 w.deadline.toNat ++ leBytes 8 0
    ++ ((List.range 4).flatMap w.splitEntry) ++ ((List.range 8).flatMap w.deferEntry)
    ++ padTo 28 (wordsBytes w.p) ++ leBytes 4 w.mflags.toNat ++ leBytes 8 (if w.lwtSet then w.lwt.toNat else 0) ++ leBytes 8 w.uconf.toNat
    ++ leBytes 4 w.seed.toNat ++ leBytes 4 (bitList 32 fun k => (look w.streams k).isSome)
    ++ ((List.range 16).flatMap fun i => leBytes 1 (((List.range 128).filter w.rpf.contains).getD i 255))
    ++ leBytes 8 w.recValid.toNat ++ leBytes 8 w.recPar.toNat ++ leBytes 8 w.trapReg.toNat
    ++ leBytes 8 (if w.handler.isSome then w.heldS.toNat else 0) ++ leBytes 4 w.snd.toNat ++ leBytes 4 mf.1
    ++ leBytes 8 mf.2 ++ leBytes 8 0
    ++ ((List.range 4).flatMap fun i => match w.split? i with
        | some p => padTo 256 (wordsBytes p.s)
        | none => List.replicate 256 0)
    ++ ((List.range 128).flatMap w.tagEntry) ++ padTo (128 * w.g) (w.v.flatMap genRow)
    ++ (w.deferred.reverse.flatMap fun d => padTo 256 (wordsBytes d.s))

/-! ### Reading an area back (R245) -/

def wordsOf (bs : List Byte) (at_ n : Nat) : List Word := (List.range n).map fun i => BitVec.ofNat 32 (fieldAt bs (at_ + 4 * i) 4)
def dwordOf (bs : List Byte) (at_ : Nat) : DWord := BitVec.ofNat 64 (fieldAt bs at_ 8)

/-- A split of an area; a waiting one issues its instruction again, but a sleep goes on under its deadline. -/
def splitBack (bs : List Byte) (i : Nat) (asleep : List Nat) : Option Split :=
  let o := 0x40 + 16 * i
  let st := fieldAt bs (o + 12) 2
  if st.testBit 0 then
    let pc := dwordOf bs o
    let at_ := pc &&& ~~~1#64
    let d := dwordOf bs 0x30
    let status : Status := match bitsOf st 1 2 with
      | 0 => .running
      | 1 => .parkedJoin
      | 2 => .parkedConv
      | _ => if (fieldAt bs 6 2).testBit 1 && asleep.contains i then .waiting (.sleep (if d = 0 then none else some d)) else .running
    some { Split.blank with
      id := i, pc := at_, low := pc.getLsbD 0, mask := BitVec.ofNat 32 (fieldAt bs (o + 8) 4)
      s := wordsOf bs (0x180 + 256 * i) 64, status := status, arrived := st.testBit 3, depth := bitsOf st 4 7
      uid := bitsOf st 11 4, div := fieldAt bs (o + 14) 2 }
  else none

def deferBack (bs : List Byte) (g j : Nat) : Deferred :=
  let o := 0x80 + 16 * j
  ⟨dwordOf bs o, BitVec.ofNat 32 (fieldAt bs (o + 8) 4), wordsOf bs (0xD80 + 128 * g + 256 * j) 64,
    bitsOf (fieldAt bs (o + 12) 2) 4 7, bitsOf (fieldAt bs (o + 12) 2) 11 4, fieldAt bs (o + 14) 2⟩

/-- The hint order: the saved positions name the paths (R137, R244). -/
def hintBack (bs : List Byte) (depth : Nat) : List Nat :=
  let es := ((List.range 4).map fun i => 0x40 + 16 * i) ++ (List.range depth).map fun j => 0x80 + 16 * j
  (List.range 12).flatMap fun pos => es.filterMap fun o =>
    let st := fieldAt bs (o + 12) 2
    if st.testBit 0 && bitsOf st 11 4 == pos then some pos else none

/-- V registers from the tag table, rows taken in ascending register order. -/
def vBack (bs : List Byte) : Nat → Nat → List VReg
  | 0, _ => []
  | n + 1, row =>
    let k := 128 - (n + 1)
    let o := 0x580 + 16 * k
    match fieldAt bs (o + 12) 4 / 2 ^ 30 with
    | 0 => .unwritten :: vBack bs n row
    | 1 => .uni (BitVec.ofNat 32 (fieldAt bs o 4)) :: vBack bs n row
    | 2 => .aff (BitVec.ofNat 32 (fieldAt bs o 4)) (BitVec.ofNat 32 (fieldAt bs (o + 4) 4)) :: vBack bs n row
    | _ => .gen (wordsOf bs (0xD80 + 128 * row) 32) :: vBack bs n (row + 1)

/-- A stream at its saved position, its descriptor read again from the A-buffer (R202). -/
def State.streamBack (s : State) (wg : Nat) (bs : List Byte) (k : Nat) : Strm :=
  let a := fieldAt bs (0x580 + 32 * k + 12) 4
  let b := fieldAt bs (0x580 + 32 * k + 28) 4
  let daddr := bitsOf b 2 17
  { Strm.ofDesc daddr (s.bufGet wg .a daddr 32) (s.nextTag + k) with pos := bitsOf a 0 30 + bitsOf b 0 2 * 2 ^ 30 }

/-- The wave an area holds, with what its record keeps beside the area: the split that runs the handler, those that sleep, the
errors its splits have still to report (log entry 85), and an SR_LWT that no write has raised (log entry 69). The arrived mark of
the split that runs the handler is the trapped instruction's and, where the split waits, the waiting one's too (R244, R247, log
entry 28). -/
def State.waveBack (s : State) (x : Saved) (bs : List Byte) : Wave :=
  let b (o : Nat) : Nat := fieldAt bs o 1
  let g := b 0xD
  let flags := fieldAt bs 6 2
  let trap := dwordOf bs 0x158
  let handler := if flags.testBit 0 then x.handler else none
  let splits := (List.range 4).filterMap fun i => splitBack bs i x.asleep
  let heldArr := splits.any fun p => handler == some p.id && p.arrived
  let splits := splits.map fun p =>
    if handler == some p.id then { p with arrived := p.arrived && bitsOf (fieldAt bs (0x4C + 16 * p.id) 2) 1 2 == 3 } else p
  let splits := splits.map fun p =>
    { p with windows := (x.errs.filter (·.1 == p.id)).map fun e => ⟨s.free * 65536 + 65535, 0, [], [], true, some e.2, 0⟩ }
  let deferred := ((List.range (b 0xB)).map (deferBack bs g)).reverse
  let masks := splits.foldl (fun m p => m ||| p.mask) 0#32 ||| deferred.foldl (fun m d => m ||| d.mask) 0#32
  let lwt := dwordOf bs 0x120
  let defined := fieldAt bs 0x134 4
  let regs := ((List.range 16).map fun i => b (0x138 + i)).filter (· != 255)
  let mf := fieldAt bs 0x16C 4
  { Wave.blank with
    grid := x.grid, wg := x.wg, idx := b 8, prio := b 9, stage := b 10, n := b 12, g := g, role := roleOf (b 14)
    v := vBack bs 128 0, p := wordsOf bs 0x100 7, splits := splits, deferred := deferred
    hint := hintBack bs (b 0xB), nextUid := 12, created := x.created, area := some x.addr
    exited := ~~~masks, uconf := dwordOf bs 0x128, mflags := BitVec.ofNat 32 (fieldAt bs 0x11C 4)
    seed := BitVec.ofNat 32 (fieldAt bs 0x130 4), lwt := if lwt = 0 then x.lwt else lwt, lwtSet := lwt != 0, started := lwt != 0 || x.lwt != 0, trapReg := trap
    handler := handler, heldS := dwordOf bs 0x160, heldArr := heldArr
    fob := regs, rpf := regs, recValid := BitVec.ofNat 48 (fieldAt bs 0x148 8), recPar := BitVec.ofNat 48 (fieldAt bs 0x150 8)
    streams := ((List.range 32).filter fun k => defined.testBit k).map fun k => (k, s.streamBack x.wg bs k)
    snd := BitVec.ofNat 32 (fieldAt bs 0x168 4)
    mfault := if mf % 256 = 0 then none else some (mf % 256, bitsOf mf 8 3, dwordOf bs 0x170)
    wakePend := x.wake || flags.testBit 3, nextAcc := s.free * 65536 }

/-- A wake that waited for the wave lets its sleeping splits go on (R253). -/
def Wave.wakeUp (w : Wave) : Wave :=
  { w with
    wakePend := false
    splits := w.splits.map fun p => if p.sleeping then { p with pc := p.pc + 8, status := .running } else p }

/-! ### Stopping (R240, R241) -/

/-- A wave begins to stop: its requests under way go first from now on (R241), and its core counts it (R255). -/
def State.stopWave (s : State) (core ctx : Nat) : State :=
  if (s.wave core ctx).stop = .none && (s.wave? core ctx).isSome then
    ((s.hurry core ctx).modWave core ctx fun w => { w with stop := .draining }).tally core ctx 0x0A 1
  else s

def State.stopWaves (s : State) (f : Wave → Bool) : State := (s.contexts f).foldl (fun s c => s.stopWave c.1 c.2) s

/-- A request reaches a wave, a workgroup, or every workgroup of a grid. A workgroup that holds its core's exchange
binding is only stopped (R242). -/
def State.preempt (s : State) (t : PreTarget) : State :=
  match t with
  | .wave core ctx => s.stopWave core ctx
  | .workgroup wg evict =>
    let g := s.wg wg
    let s := (s.stopWaves fun w => w.wg == wg).modWg wg fun g => { g with stopReq := true }
    if evict && !g.xbind && !g.ended && g.core.isSome then s.modWg wg fun g => { g with evict := true } else s
  | .grid id =>
    let s := s.stopWaves fun w => w.grid == id
    { s with wgs := s.wgs.map fun x => if x.2.grid = id && !x.2.ended then (x.1, { x.2 with stopReq := true }) else x }

def execPreemptionRequest (t : PreTarget) : State → Res := event fun s => some (s.preempt t)

/-- Nothing of the wave in a context is in execute, or due to a register (R29, R31, R171). -/
def Core.settledCtx (k : Core) (ctx : Nat) : Bool :=
  let cyc := k.cyc.toNat
  !(k.execs.any fun x => x.ctx == ctx && decide (cyc < x.till)) && !(k.dues.any fun d => d.ctx == ctx && decide (cyc < d.any))
    && !(k.lates.any fun x => x.ctx == ctx && decide (cyc < x.at_))

/-- Counters at zero, results delivered, the operand buffer written back; stream queues are discarded (R202, R241). The errors
of delivered windows go with the wave (log entry 85). -/
def execWaveDrainComplete (core ctx : Nat) : State → Res :=
  event fun s =>
    match s.wave? core ctx with
    | some w =>
      if w.stop == .draining && w.accs.isEmpty && (s.core core).settledCtx ctx then
        some (s.modWave core ctx fun w => { w with
          stop := .drained, fob := [], dirty := [], gone := []
          owed := w.splits.flatMap fun p => p.windows.filterMap fun x => x.err.map fun pc => (p.id, pc)
          streams := w.streams.map fun x => (x.1, { x.2 with q := [], out := [] })
          splits := w.splits.map fun p => { p with windows := [] } })
      else none
    | none => none

/-- The arrival of a split that is saved in an xswap or cbar: it counts once SR_LWT's time has come and, for xswap, the
member's earlier remote stores are written (R273, R274). -/
def State.settleMeet (s : State) (core ctx : Nat) (x : Meet) : State :=
  let w := s.wave core ctx
  match w.splits.findSome? fun p => (p.status.meeting x).bind fun y => if p.arrived then none else some (p.id, y.1) with
  | none => s
  | some (id, gen) =>
    let s := s.modWave core ctx fun w => w.modSplit id fun p => { p with arrived := true }
    s.modGroup (core / 16) fun g => g.modMember (core % 16) fun m => { m with
      saved := ⟨w.idx, id, x == .swap, gen, w.lwt⟩ :: m.saved.filter fun y => !(y.idx == w.idx && y.split == id && y.swap == (x == .swap)) }

/-- The area is written, and the context and its rows are free. -/
def execContextSave (core ctx : Nat) : State → Res :=
  event fun s =>
    match s.wave? core ctx with
    | none => none
    | some w =>
      if w.stop != .drained then none
      else match w.area <|> s.savePlace (saveSize w.g) with
        | none => none
        | some addr =>
          let s := (s.settleMeet core ctx .swap).settleMeet core ctx .bar
          let w := s.wave core ctx
          let s := s.store addr (s.saveBytes core w)
          let s := (s.modCore core fun c => { c with
            waves := erase c.waves ctx, begun := c.begun.filter (·.ctx != ctx) }).noteLeft core w.prio
          let more := s.cores.any fun c => c.2.waves.any fun y => y.2.wg == w.wg && y.2.stop != .none
          let s := s.modWg w.wg fun g => { g with live := g.live - 1, saved := g.saved + 1, stopReq := g.stopReq && more }
          some { s with saved := s.saved ++ [⟨w.grid, w.wg, w.idx, w.prio, addr, w.g, w.brk, w.wakePend, w.created, w.streams.length, w.handler, w.owed, w.lwt,
            (w.splits.filter Split.sleeping).map Split.id⟩] }

/-! ### Eviction (R242) -/

def tagByte (t : Tag) : Byte := BitVec.ofNat 8 (t.v.toNat + t.c.toNat * 2 + t.z.toNat * 4)
def tagBack (n : Nat) : Tag := ⟨n.testBit 0, n.testBit 1, n.testBit 2⟩

def intNat (v : Int) : Nat := (BitVec.ofInt 32 v).toNat

def Bar.bytes (b : Bar) : List Byte :=
  leBytes 8 b.lwt0.toNat ++ leBytes 8 b.lwt1.toNat ++ leBytes 8 b.lwtc0.toNat ++ leBytes 8 b.lwtc1.toNat
    ++ leBytes 4 (intNat b.cnt0) ++ leBytes 4 (intNat b.cnt1)
    ++ leBytes 4 (b.ph.toNat + b.exp % 128 * 2 + b.arr % 128 * 256 + b.seen0.toNat * 2 ^ 15 + b.seen1.toNat * 2 ^ 16
      + b.err.toNat * 2 ^ 17 + b.cause % 16 * 2 ^ 18 + b.bind.isSome.toNat * 2 ^ 22)
    ++ leBytes 4 (b.bind.getD 0) ++ List.replicate 16 0

def barBack (bs : List Byte) : Bar :=
  let f := fieldAt bs 40 4
  { Bar.blank with
    lwt0 := dwordOf bs 0, lwt1 := dwordOf bs 8, lwtc0 := dwordOf bs 16, lwtc1 := dwordOf bs 24
    cnt0 := intOf 32 true (fieldAt bs 32 4), cnt1 := intOf 32 true (fieldAt bs 36 4)
    ph := f.testBit 0, exp := bitsOf f 1 7, arr := bitsOf f 8 7, seen0 := f.testBit 15, seen1 := f.testBit 16
    err := f.testBit 17, cause := bitsOf f 18 4, bind := if f.testBit 22 then some (fieldAt bs 44 4 % 2 ^ 17) else none }

/-- The workgroup save area, in the order of R242. -/
def WGrp.saveBytes (g : WGrp) : List Byte :=
  g.a.gets 0 (g.size .a) ++ g.w.gets 0 (g.size .w) ++ g.c.gets 0 (g.size .c) ++ (g.ta ++ g.tw ++ g.tc).map tagByte
    ++ g.bars.flatMap Bar.bytes ++ padTo 64 (wordsBytes g.wgr)
    ++ (g.scl.flatMap fun x => leBytes 8 x.2.addr.toNat ++ leBytes 4 x.2.desc.toNat ++ leBytes 4 x.1)
    ++ List.replicate 16 0xFF ++ leBytes 4 g.rcv.toNat ++ List.replicate 12 0

/-- The scale bindings up to the entry of all ones. -/
def sclBack : Nat → List Byte → AMap SclBind × List Byte
  | 0, bs => ([], bs)
  | n + 1, bs =>
    if fieldAt bs 0 16 = 2 ^ 128 - 1 then ([], bs.drop 16)
    else
      let r := sclBack n (bs.drop 16)
      (put r.1 (fieldAt bs 12 1) ⟨dwordOf bs 0, BitVec.ofNat 32 (fieldAt bs 8 4)⟩, r.2)

/-- A workgroup with its reservations as an area holds them, at places of a core. -/
def WGrp.back (g : WGrp) (bs : List Byte) (core abase wbase cbase : Nat) : WGrp :=
  let na := g.ta.length
  let nw := g.tw.length
  let nc := g.tc.length
  let o1 := na * 1024
  let o2 := o1 + nw * 1024
  let o3 := o2 + nc * 1024
  let o4 := o3 + na + nw + nc
  let o5 := o4 + 64 * g.bars.length
  let tags (o n : Nat) : List Tag := (List.range n).map fun i => tagBack (fieldAt bs (o + i) 1)
  let sc := sclBack (g.scl.length + 1) (bs.drop (o5 + 64))
  { g with
    core := some core, abase := abase, wbase := wbase, cbase := cbase, evict := false
    a := Mem.puts [] 0 (bs.take o1), w := Mem.puts [] 0 ((bs.drop o1).take (nw * 1024))
    c := Mem.puts [] 0 ((bs.drop o2).take (nc * 1024))
    ta := tags o3 na, tw := tags (o3 + na) nw, tc := tags (o3 + na + nw) nc
    bars := (List.range g.bars.length).map fun i => barBack (bs.drop (o4 + 64 * i))
    wgr := wordsOf bs o5 16, scl := sc.1, rcv := BitVec.ofNat 32 (fieldAt sc.2 0 4) }

/-- Work of a workgroup that its core has not finished: waves, kicks, copy requests and matrix instructions. -/
def State.wgBusy (s : State) (core wg : Nat) : Bool :=
  let c := s.core core
  c.waves.any (·.2.wg == wg) || c.kicks.any (·.wg == wg) || c.copyIn.any (·.wg == wg) || c.copyRun.any (·.wg == wg)
    || c.mq.any (·.wg == wg) || (s.cluster (core / 16)).kq.any (·.wg == wg)

/-- All its waves saved and its engine work complete, an evicted workgroup's reservations are written and freed. -/
def execWorkgroupEvict (wg : Nat) : State → Res :=
  event fun s =>
    let g := s.wg wg
    match g.core with
    | none => none
    | some core =>
      if !g.evict || g.ended || decide (0 < g.live) || s.wgBusy core wg then none
      else match s.savePlace g.saveSize with
        | none => none
        | some addr =>
          let s := s.store addr g.saveBytes
          let s := s.modCore core fun c => { c with unf := c.unf.filter fun u => u.wg != wg, scl := c.scl.filter fun x => x.id / 256 != wg }
          some (s.modWg wg fun g => { g with core := none, saveAt := addr })

/-! ### Resuming a wave (R245) -/

/-- A saved wave that its core can take now. -/
def State.mayResume (s : State) (x : Saved) (core : Nat) : Bool :=
  let c := s.core core
  !x.brk && (s.wg x.wg).core == some core && !(s.wg x.wg).evict && !c.freeCtx.isEmpty && decide (x.g ≤ c.freeRows)

/-- A saved wave of at least a priority that a core can take now stands before new work (R245). -/
def State.resumeFirst (s : State) (core prio : Nat) : Bool := s.saved.any fun x => prio ≤ x.prio && s.mayResume x core

def execWaveResume (saved : Nat) (core : Nat) : State → Res :=
  event fun s =>
    match s.saved[saved]? with
    | none => none
    | some x =>
      if !s.mayResume x core then none
      else
        let bs := s.physs x.addr (saveSize x.g)
        if s.bad x.addr (saveSize x.g) then
          some ((s.record tcData { RecInfo.blank with addr := BitVec.ofNat 64 x.addr, kind := 4, unc := true, grid := x.grid }).endGrid x.grid)
        else if fieldAt bs 0 4 != 0x56535A51 || fieldAt bs 4 2 != 1 then
          some ((s.record tcEncoding { RecInfo.blank with addr := BitVec.ofNat 64 x.addr, kind := 4, grid := x.grid }).endGrid x.grid)
        else
          let w := s.waveBack x bs
          let w := if w.wakePend then w.wakeUp else w
          let s : State := { s with saved := s.saved.filter fun y => y != x, nextTag := s.nextTag + 32 }
          let ctx := (s.core core).freeCtx.headD 0
          let s := (s.forgetWave core ctx).modCore core fun c => { c with waves := put c.waves ctx w }
          some (s.modWg x.wg fun g => { g with live := g.live + 1, saved := g.saved - 1 })

end Sys2Proof.Machine
end

