-- ==== Sys2Proof/Machine/Launch.lean ====
section
/-! DEFINITION. The launch unit: descriptors, the resource check, placement, dispatch of workgroups and gangs, and the
ends of grids (R267, R279, R280, R339 to R346, R350, R372, R384, R394, R439). -/

namespace Sys2Proof.Machine

/-! ### The descriptor (R339) -/

/-- A descriptor's fields; `zeros` says that every unlisted byte is zero. -/
def descOf (bs : List Byte) : Desc where
  entry := dwordOf bs 0
  handler := dwordOf bs 8
  x := fieldAt bs 0x10 4
  y := fieldAt bs 0x14 2
  z := fieldAt bs 0x16 2
  waves := fieldAt bs 0x18 1
  n := fieldAt bs 0x19 1
  g := fieldAt bs 0x1A 1
  prio := bitsOf (fieldAt bs 0x1B 1) 0 3
  stage := bitsOf (fieldAt bs 0x1B 1) 3 3
  kind := bitsOf (fieldAt bs 0x1B 1) 6 2
  abuf := fieldAt bs 0x1C 1
  wbuf := fieldAt bs 0x1D 1
  cbuf := fieldAt bs 0x1E 1
  barriers := fieldAt bs 0x1F 1
  roles := (List.range 4).map fun i => (fieldAt bs (0x20 + 2 * i) 1, fieldAt bs (0x21 + 2 * i) 1)
  iters := fieldAt bs 0x28 4
  ipt := fieldAt bs 0x2C 4
  tagblock := fieldAt bs 0x30 2
  placement := fieldAt bs 0x32 1
  asid := fieldAt bs 0x34 2
  root := fieldAt bs 0x38 8
  taskq := fieldAt bs 0x40 8
  zeros := fieldAt bs 0x33 1 == 0 && fieldAt bs 0x36 2 == 0 && fieldAt bs 0x48 56 == 0

/-- Every wave general: the role pairs are all zero. -/
def Desc.noRoles (d : Desc) : Bool := d.roles.all fun r => r.1 == 0 && r.2 == 0

/-- The ranges that hold for every kind. -/
def Desc.ranges (d : Desc) : Bool :=
  d.entry.toNat % 8 == 0 && d.handler.toNat % 8 == 0 && decide (1 ≤ d.x ∧ d.x < 2 ^ 31) && decide (1 ≤ d.y) && decide (1 ≤ d.z)
    && decide (1 ≤ d.waves ∧ d.waves ≤ 16) && decide (1 ≤ d.n ∧ d.n ≤ 128) && decide (d.g ≤ d.n) && decide (d.kind < 3)
    && decide (d.abuf ≤ 128) && decide (d.wbuf ≤ 192) && decide (d.cbuf ≤ 32) && decide (d.barriers ≤ 48)
    && decide (d.tagblock ≤ 4096) && d.root % 65536 == 0 && decide (d.root < 2 ^ 48) && d.zeros

/-- Each role with waves has registers, none above n, and the pairs sum to the waves (log entry 30). -/
def Desc.rolesOk (d : Desc) : Bool :=
  d.noRoles || ((d.roles.map (·.1)).sum == d.waves && d.roles.all fun r => decide (r.2 ≤ d.n) && (r.1 == 0 || decide (1 ≤ r.2)))

/-- The workgroup that is given iteration i of a persistent grid (R345). -/
def Desc.owner (d : Desc) (i : Nat) : Nat := ((i + 1) * d.x - 1) / d.iters
def Desc.lo (d : Desc) (w : Nat) : Nat := w * d.iters / d.x
/-- Sharers of tile t: the workgroups whose ranges meet it. -/
def Desc.sharers (d : Desc) (t : Nat) : Nat :=
  if d.x ≤ d.iters then d.owner ((t + 1) * d.ipt - 1) - d.owner (t * d.ipt) + 1 else d.ipt
def Desc.tiles (d : Desc) : Nat := d.iters / d.ipt

/-- A number below n has a property. -/
def anyBelow (f : Nat → Bool) : Nat → Bool
  | 0 => false
  | n + 1 => f n || anyBelow f n

/-- What each kind asks of its fields, and of those it does not use (R339, R340). -/
def Desc.kindOk (d : Desc) : Bool :=
  match d.kind with
  | 0 => d.iters == 0 && d.ipt == 0 && d.taskq == 0
  | 1 => d.taskq == 0 && d.y == 1 && d.z == 1 && decide (1 ≤ d.iters) && decide (1 ≤ d.ipt ∧ d.ipt ≤ d.iters) && d.iters % d.ipt == 0
      && !anyBelow (fun t => decide (16 < d.sharers t) || (decide (1 < d.sharers t) && decide (d.tagblock < d.tiles))) d.tiles
  | _ => d.iters == 0 && d.ipt == 0 && d.x == 1 && d.y == 1 && d.z == 1 && d.waves == 1 && decide (8 ≤ d.n) && decide (8 ≤ d.g)
      && d.taskq % 128 == 0 && decide (d.taskq < 2 ^ 52)

/-! ### Placement sets (R279, R280, R344) -/

def setExchange (p : List Byte) : Bool := (p.getD 0 0).getLsbD 0
def setCount (p : List Byte) : Nat := bitsOf (p.getD 0 0).toNat 1 2 + 1
def setHeader (p : List Byte) : Bool := decide ((p.getD 0 0).toNat < 8) && fieldAt p 1 15 == 0
def setHeat (p : List Byte) (k c : Nat) : Nat := (p.getD (0x10 + 256 * k + c) 0).toNat
/-- The cluster of a slot: 0 to 127 (log entry 30). -/
def setSlot (p : List Byte) (k i : Nat) : Nat := (p.getD (0x90 + 256 * k + i % 128) 0).toNat % 128

/-- The entry a placement id names; one never installed is all zero (log entry 30). -/
def State.placeOf (s : State) (id : Nat) : Option (List Byte) :=
  if id = 0 then none else some ((look s.places id).getD (List.replicate 2048 0))

/-- R267 for a grid whose set has the exchange flag. -/
def Desc.exchangeOk (d : Desc) (p : Option (List Byte)) : Bool :=
  match p with
  | some p => setHeader p && (!setExchange p || (d.x * d.y * d.z % 16 == 0 && decide (32 ≤ d.abuf)))
  | none => true

/-- A partition holds the identifier, where any is configured (R405). -/
def State.railsFor (s : State) (asid : Nat) : Option (BitVec 4) :=
  if s.parts.isEmpty then some 0xF else (s.parts.find? fun p => p.2.lo ≤ asid && asid ≤ p.2.hi).map (·.2.rails)

/-! ### Acceptance (R340, R350, R439) -/

/-- The check of R340. -/
def State.descOk (s : State) (d : Desc) : Bool :=
  d.ranges && d.rolesOk && d.kindOk && decide (d.waves * d.g ≤ 1024) && d.exchangeOk (s.placeOf d.placement)
    && (s.railsFor d.asid).isSome && (d.tagblock == 0 || s.pools.tagArea.isSome)

/-- The lowest pool that no accepted grid holds (log entry 31). -/
def State.freePool (s : State) : Nat :=
  (((List.range 255).map (· + 1)).find? fun p => !(s.grids.any fun g => g.2.pool == some p)).getD 0

/-- The byte that holds the validity bit of a sequence (R439). -/
def tagByteAt (area pool seq : Nat) : Nat := area + (pool - 1) * 2 ^ 21 + seq / 8

/-- Bytes whose bits 0 to n − 1 are set. -/
def onesBytes (n : Nat) : List Byte :=
  List.replicate (n / 8) 0xFF ++ (if n % 8 = 0 then [] else [BitVec.ofNat 8 (2 ^ (n % 8) - 1)])

/-- The launch unit's task of keeping a grid's validity bits. -/
def tagWho (gid : Nat) : Who := Who.of .launch (2 ^ 20 + gid)

/-- Bits of bytes on their way to be set or cleared, each aligned 16-byte part at its home (R439). -/
def State.postBits (s : State) (w : Who) (for_ : AskFor) (pa : Nat) (ms : List Byte) (v : Bool) : State :=
  (partsAt pa ms.length).foldl (fun s p => s.post w (.bits ((ms.drop p.2.2).take p.2.1) v) for_ p.1 p.2.1) s

/-- A grid that passed its check: its identifier, its pool where it has a tag block, whose bits go on their way, and its set. -/
def State.accept (s : State) (d : Desc) (cp : Option Nat) (chain : Option Nat) (cstage : Nat) : State × Nat :=
  let gid := s.nextGrid
  let area := s.pools.tagArea.map (·.1)
  let pool := if 0 < d.tagblock then some s.freePool else none
  let s := match area, pool with
    | some a, some p => s.postBits (tagWho gid) .none (tagByteAt a p 0) (onesBytes d.tagblock) true
    | _, _ => s
  let g : Grid := { Grid.blank with
    d := d, cp := cp, chain := chain, cstage := cstage, total := if d.kind = 2 then 0 else d.x * d.y * d.z
    area := area, pool := pool, tagNext := d.tagblock, place := s.placeOf d.placement }
  ({ s with grids := put s.grids gid g, nextGrid := gid + 1 }, gid)

def launchRec (addr detail : Nat) (grid : Nat) : RecInfo :=
  { RecInfo.blank with addr := BitVec.ofNat 64 addr, kind := 4, virt := true, grid := grid, detail := detail }

/-- The record of a read by the launch unit that met a fault or an uncorrectable error (R316, R410). -/
def launchFault (addr grid : Nat) (e : Nat × Bool) : Nat × RecInfo :=
  if e.1 = kindBad then (tcData, { launchRec addr 0 grid with unc := true }) else (tcTranslation, launchRec addr (markOf e.1 e.2) grid)

/-- A launch: the descriptor, which the launch unit reads once as .cg loads, is checked; a refused one leaves one record. -/
def State.launch (s : State) (w : Who) (asid root va : Nat) (cp chain : Option Nat) (cstage : Nat) (fix : Desc → Desc) :
    Rd (State × Option Nat) :=
  if va % 128 != 0 then .ok (s.record tcEncoding (launchRec va 0 0), none)
  else do
    match ← s.ownRead w asid root va 128 with
    | .error e => .ok (s.record (launchFault va 0 e).1 (launchFault va 0 e).2, none)
    | .ok bs =>
      let d := fix (descOf bs)
      if s.descOk d then
        let r := s.accept d cp chain cstage
        .ok (r.1, some r.2)
      else .ok (s.record tcEncoding (launchRec va 0 0), none)

/-! ### The resource check (R342) -/

/-- Where a reservation would lie on a core, in tiles. -/
structure Spot where
  a : Nat
  w : Nat
  c : Nat
  deriving DecidableEq, Repr

/-- The lowest free range of n places. -/
def firstRange (cap n : Nat) (used : List (Nat × Nat)) : Option Nat :=
  if n = 0 then some 0 else (List.range (cap + 1 - n)).find? fun b => used.all fun u => !overlap u b n

/-- The workgroups that hold reservations on a core. -/
def State.residents (s : State) (core : Nat) : List WGrp := (s.wgs.filter fun e => e.2.core == some core).map (·.2)

def State.spot (s : State) (core waves g abuf wbuf cbuf bars : Nat) : Option Spot :=
  let c := s.core core
  let rs := s.residents core
  if decide (waves ≤ c.freeCtx.length) && decide (waves * g ≤ c.freeRows) && decide ((rs.map (·.bars.length)).sum + bars ≤ 48) then
    match firstRange 128 abuf (rs.map fun r => (r.abase, r.ta.length)), firstRange 192 wbuf (rs.map fun r => (r.wbase, r.tw.length)),
        firstRange 32 cbuf (rs.map fun r => (r.cbase, r.tc.length)) with
    | some a, some w, some k => some ⟨a, w, k⟩
    | _, _, _ => none
  else none

/-- Clusters reserved by an enabled stream (R368). -/
def State.reserved (s : State) (k : Nat) : Bool := s.streams.any fun x => !x.2.closing && x.2.cfg.clusters.getLsbD k

def Stream.cores (x : Stream) : List Nat := x.cfg.clusterList.flatMap fun k => (List.range 16).map (16 * k + ·)

/-- A core may take workgroups of a grid: its cluster ready, its rail in the grid's partition, and the cluster one that
the grid's chain reserves, or not reserved against it (R342, R368, R372). -/
def State.mayHost (s : State) (core : Nat) (r : Grid) : Bool :=
  let k := core / 16
  s.ready.getLsbD (64 + k) && ((s.railsFor r.d.asid).any fun m => m.getLsbD (s.cluster k).rail)
    && (match r.chain with
      | some c => (look s.chains c).any fun x => (look s.streams x.stream).any fun y => y.cfg.clusters.getLsbD k
      | none => !(r.d.prio == 7 && s.reserved k))

/-- A workgroup of a grid fits a core. -/
def State.fits (s : State) (core : Nat) (r : Grid) : Option Spot :=
  if s.mayHost core r && !s.resumeFirst core r.d.prio then
    s.spot core r.d.waves r.d.g r.d.abuf r.d.wbuf r.d.cbuf r.d.barriers
  else none

/-! ### The choice of a placement (R280) -/

def State.temp (s : State) (c : Nat) : Nat := (s.cluster c).temp

def State.candidate (s : State) (p : List Byte) (k : Nat) : Bool :=
  (List.range 128).all fun c => setHeat p k c == 0 || decide (s.temp c < s.thot)

/-- S as a fraction of 0.25 °C; a placement without heat scores 0 (log entry 30). -/
def State.score (s : State) (p : List Byte) (k : Nat) : Nat × Nat :=
  (((List.range 128).map fun c => setHeat p k c * s.temp c).sum, max 1 ((List.range 128).map (setHeat p k)).sum)

def lessScore (a b : Nat × Nat) : Bool := decide (a.1 * b.2 < b.1 * a.2)

/-- The candidate with the lowest score, the lower index of equals. -/
def State.best (s : State) (p : List Byte) : Option Nat :=
  ((List.range (setCount p)).filter (s.candidate p)).foldl (fun b k => match b with
    | none => some k
    | some j => if lessScore (s.score p k) (s.score p j) then some k else some j) none

/-- The placement a grid's next workgroup uses. -/
def State.selNow (s : State) (r : Grid) (p : List Byte) : Nat := if r.selAt.isSome then r.sel else (s.best p).getD 0

/-- An episode without a candidate begins, with its record, or ends. -/
def State.episode (s : State) (gid : Nat) (found : Bool) : State :=
  let r := s.grid gid
  let s := if !found && !r.noTarget then s.record 0x22 { RecInfo.blank with kind := 4, grid := gid } else s
  s.modGrid gid fun r => { r with noTarget := !found }

/-- The first dispatch of a grid with a set selects its placement. -/
def State.select (s : State) (gid : Nat) : State :=
  let r := s.grid gid
  match r.place with
  | none => s
  | some p =>
    if r.selAt.isSome then s
    else (s.modGrid gid fun r => { r with sel := (s.best p).getD 0, selAt := some s.tu }).episode gid (s.best p).isSome

/-! ### Dispatching one workgroup, or one cluster group (R18, R87, R203, R267, R342, R343) -/

/-- The role and register count of wave i. -/
def Desc.roleOfWave (d : Desc) (i : Nat) : Role × Nat :=
  if d.noRoles then (.general, d.n)
  else ((d.roles.zip [Role.general, .copy, .matrix, .epilogue]).foldl (fun (acc : Nat × Option (Role × Nat)) x =>
    match acc.2 with
    | some _ => acc
    | none => if i < acc.1 + x.1.1 then (acc.1, some (x.2, x.1.2)) else (acc.1 + x.1.1, none)) (0, none)).2.getD (.general, d.n)

/-- SR_PITER and SR_PFIX of workgroup w of a persistent grid (R345, R346). -/
def Desc.piter (d : Desc) (w : Nat) : DWord :=
  if d.kind = 1 then BitVec.ofNat 64 (d.lo w + d.lo (w + 1) * 2 ^ 32) else 0
def Grid.pfix (r : Grid) (w : Nat) : DWord :=
  let d := r.d
  let lo := d.lo w
  let hi := d.lo (w + 1)
  if d.kind != 1 || lo == hi then 0
  else
    let tf := lo / d.ipt
    let tl := (hi - 1) / d.ipt
    let part (t : Nat) : Nat := if lo ≤ t * d.ipt && (t + 1) * d.ipt ≤ hi then 0 else 1
    let tag := if d.tagblock = 0 then 0 else (r.pool.getD 0 * 2 ^ 24 + tf) % 2 ^ 32
    BitVec.ofNat 64 (tag + part tf * 2 ^ 32 + part tl * 2 ^ 33 + d.sharers tf * 2 ^ 34 + d.sharers tl * 2 ^ 39)

/-- WG0 to WG15 at dispatch: zeros, and for a chain WG12 to WG15 (R394). -/
def State.wgInit (s : State) (chain : Option Nat) : List Word :=
  match chain.bind (look s.chains ·) with
  | none => List.replicate 16 0
  | some c => List.replicate 12 0 ++ [BitVec.ofNat 32 (s.slotBase c), BitVec.ofNat 32 (c.strip % 65536 + c.stream * 65536),
      BitVec.ofNat 32 c.frame, BitVec.ofNat 32 (c.d % 8)]

/-- The A-buffer tags at dispatch: those of tether areas already valid in a stage-3 workgroup are set (R164, R384). -/
def State.tagInit (s : State) (r : Grid) : List Tag :=
  let ts := List.replicate r.d.abuf Tag.blank
  match r.chain.bind (look s.chains ·) with
  | some c =>
    if r.cstage = 3 then
      (List.range ts.length).map fun i =>
        if (c.upper && i == c.cfg.ttag) || (c.lower && i == c.cfg.ttag + 1) then { Tag.blank with v := true } else Tag.blank
    else ts
  | none => ts

/-- The waves of a new workgroup in the lowest free contexts, each with its place for a save area (R243). -/
def State.startWaves (s : State) (core gid wg : Nat) (mk : Nat → Wave) (n : Nat) : State :=
  let ctxs := (s.core core).freeCtx.take n
  (ctxs.zip (List.range n)).foldl (fun s x =>
    let w := mk x.2
    (s.forgetWave core x.1).modCore core fun c => { c with waves := put c.waves x.1 { w with grid := gid, wg := wg, area := s.savePlace (saveSize w.g) } }) s

/-- A grid is dispatched to a cluster: the first time, the cluster's texture cache is emptied (R296). -/
def State.visit (s : State) (gid cluster : Nat) : State :=
  if (s.grid gid).visited.contains cluster then s
  else (s.modCluster cluster fun c => { c with texc := [] }).modGrid gid fun g => { g with visited := cluster :: g.visited }

/-- A workgroup of a grid begins on a core: reservations of zeros, tags, barriers, and its waves. -/
def State.startWg (s : State) (core gid lin : Nat) (p : Spot) (xb : Bool) (mk : Nat → Wave) : State :=
  let r := s.grid gid
  let d := r.d
  let id := s.nextWg
  let g : WGrp := { WGrp.blank with
    grid := gid, lin := lin, core := some core, abase := p.a, wbase := p.w, cbase := p.c
    ta := s.tagInit r, tw := List.replicate d.wbuf Tag.blank, tc := List.replicate d.cbuf Tag.blank
    bars := List.replicate d.barriers Bar.blank, wgr := s.wgInit r.chain, xbind := xb
    piter := d.piter lin, pfix := r.pfix lin, live := d.waves }
  let s : State := { s with wgs := put s.wgs id g, nextWg := id + 1 }
  let s := s.visit gid (core / 16)
  let s := if xb then s.modGroup (core / 16) fun x => x.modMember (core % 16) fun _ => ⟨some id, [], 0, 0, []⟩ else s
  let s := s.modCore core fun c => { c with unf := c.unf.filter fun u => !(s.wg u.wg).ended }
  s.startWaves core gid id mk d.waves

/-- Wave i of workgroup lin as a launch starts it. Its linear index in its grid is taken as that of its workgroup times the
waves of a workgroup, plus i (log entry 80). -/
def State.launchWave (s : State) (d : Desc) (lin i : Nat) : Wave :=
  let ro := d.roleOfWave i
  { Wave.blank with
    idx := i, role := ro.1, n := ro.2, g := min d.g ro.2, prio := d.prio, stage := d.stage
    splits := [{ Split.blank with pc := d.entry }], seed := seedOf (lin * d.waves + i), nextAcc := s.free * 65536 }

/-- Cores in the order of the round-robin pointer: all 2,048, or a chain's reserved cores (R343, R372). -/
def State.rrCores (s : State) (r : Grid) : List Nat :=
  match r.chain.bind (look s.chains ·) with
  | some c =>
    match look s.streams c.stream with
    | some x => (x.cores.filter fun k => x.rr ≤ k) ++ x.cores.filter fun k => k < x.rr
    | none => []
  | none => (List.range Config.cores).map fun i => (s.rr + i) % Config.cores

/-- The pointer moves past a core. -/
def State.rrPast (s : State) (r : Grid) (core : Nat) : State :=
  match r.chain.bind (look s.chains ·) with
  | some c => { s with streams := change s.streams c.stream fun x => { x with rr := core + 1 } }
  | none => { s with rr := (core + 1) % Config.cores }

/-- The first of some cores that a workgroup of a grid fits. -/
def State.firstFit (s : State) (r : Grid) (cores : List Nat) : Option (Nat × Spot) :=
  cores.findSome? fun k => (s.fits k r).map fun p => (k, p)

def Grid.exchange (r : Grid) : Bool := r.place.any setExchange

/-- A grid has workgroups the launch unit still dispatches. -/
def Grid.pending (r : Grid) : Bool := !r.stopped && r.d.kind != 2 && decide (r.next < r.total)

/-- Where the next unit of a grid goes: one workgroup, or the 16 of a cluster group. -/
def State.nextSpots (s : State) (r : Grid) : Option (List (Nat × Spot)) :=
  match r.place with
  | none => (s.firstFit r (s.rrCores r)).map fun x => [x]
  | some p =>
    let sel := s.selNow r p
    if setExchange p then
      let k := setSlot p sel (r.next / 16)
      let xs := (List.range 16).filterMap fun m =>
        let core := 16 * k + m
        if (s.residents core).any (·.xbind) then none else (s.fits core r).map fun q => (core, q)
      if xs.length = 16 then some xs else none
    else
      let k := setSlot p sel r.next
      (s.firstFit r ((List.range 16).map (16 * k + ·))).map fun x => [x]

/-- A chain's first dispatch, which is its admission time where it started early (R370, R376). -/
def State.noteStart (s : State) (r : Grid) : State :=
  match r.chain with
  | some k => s.modChain k fun c =>
      { c with at_ := if c.at_ = 0 then s.dtc else c.at_, disp := if c.disp.isNone then some s.dtc else c.disp }
  | none => s

/-- The next unit of a grid is dispatched. -/
def State.dispatchUnit (s : State) (gid : Nat) : Option State :=
  let r := s.grid gid
  (s.nextSpots r).map fun xs =>
    let s := (s.select gid).noteStart r
    let s := if r.exchange then s.modCluster ((xs.head?.map (·.1)).getD 0 / 16) fun c => { c with group := Group.blank } else s
    let s := ((List.range xs.length).zip xs).foldl (fun s x =>
      let lin := r.next + x.1
      s.startWg x.2.1 gid lin x.2.2 r.exchange (s.launchWave r.d lin)) s
    let s := if r.place.isNone then s.rrPast r ((xs.head?.map (·.1)).getD 0) else s
    s.modGrid gid fun r => { r with next := r.next + xs.length }

/-- Units until a grid has none left; none where one does not fit. -/
def State.dispatchAll (gid : Nat) : Nat → State → Option State
  | 0, s => some s
  | n + 1, s => if (s.grid gid).pending then (s.dispatchUnit gid).bind (State.dispatchAll gid n) else some s

/-- The next dispatch of a grid: a unit, or under kind 1 the whole gang (R345). -/
def State.tryGrid (s : State) (gid : Nat) : Option State :=
  let r := s.grid gid
  if r.d.kind = 1 then s.dispatchAll gid r.total else s.dispatchUnit gid

/-! ### The choice of a grid (R343, R372) -/

/-- Whether the first of two chains' grids goes first: earlier Tf, higher stage, lower stream. -/
def chainBefore (a b : Chain) (x y : Grid) : Bool :=
  if a.tf = b.tf then (if x.cstage = y.cstage then decide (a.stream < b.stream) else decide (y.cstage < x.cstage))
  else decide ((a.tf - b.tf).toInt < 0)

def State.gridBefore (s : State) (a b : Nat × Grid) : Bool :=
  if a.2.d.prio = b.2.d.prio then
    match a.2.d.prio == 7, a.2.chain.bind (look s.chains ·), b.2.chain.bind (look s.chains ·) with
    | true, some x, some y => chainBefore x y a.2 b.2
    | _, _, _ => decide (a.1 < b.1)
  else decide (b.2.d.prio < a.2.d.prio)

/-- The grid chosen now: the first in the order of R343 of those with a dispatch that fits, their tag blocks set (R439). -/
def State.chosen (s : State) : Option Nat :=
  (s.grids.filter fun e => e.2.pending && !s.posting (tagWho e.1) && (s.tryGrid e.1).isSome).foldl (fun (b : Option (Nat × Grid)) e => match b with
    | none => some e
    | some x => if s.gridBefore e x then some e else some x) none |>.map (·.1)

/-- A chain that holds its clusters against evicted workgroups of priority 0 to 6 (R429). -/
def State.heldByChain (s : State) (core : Nat) : Bool :=
  s.chains.any fun e => e.2.admitted && e.2.runs && (s.cfgOf e.2).clusters.getLsbD (core / 16)

/-- Where an evicted workgroup can come back: the lowest core that passes the check with its saved waves and has
records for their streams (R197, R242, R429). -/
def State.returnSpot (s : State) (wg : Nat) (g : WGrp) : Option (Nat × Spot) :=
  let r := s.grid g.grid
  (List.range Config.cores).findSome? fun k =>
    if s.mayHost k r && !(decide (r.d.prio < 7) && s.heldByChain k) then
      let mine := s.saved.filter (·.wg == wg)
      if s.strRecords k + (mine.map (·.streams)).sum ≤ 32 then
        (s.spot k mine.length r.d.g g.ta.length g.tw.length g.tc.length g.bars.length).map fun p => (k, p)
      else none
    else none

/-- The evicted workgroups that can come back, the one of highest priority first. -/
def State.returning (s : State) : Option (Nat × Nat × Spot) :=
  let xs := s.wgs.filterMap fun e =>
    if e.2.evict && e.2.core.isNone && !e.2.ended then (s.returnSpot e.1 e.2).map fun x => ((s.grid e.2.grid).d.prio, e.1, x.1, x.2) else none
  (xs.foldl (fun (b : Option (Nat × Nat × Nat × Spot)) x => match b with
    | none => some x
    | some y => if y.1 < x.1 then some x else some y) none).map (·.2)

/-- The reservations of an evicted workgroup come back to a core, with the V of tether areas that became valid meanwhile (R384);
where its save area holds an uncorrectable error, that is recorded and its grid ends (R410; log entry 97). -/
def State.restoreWg (s : State) (wg core : Nat) (p : Spot) : State :=
  let g := s.wg wg
  if s.bad g.saveAt g.saveSize then
    (s.record tcData { launchRec g.saveAt 0 g.grid with virt := false, unc := true }).endGrid g.grid
  else
  let g' := g.back (s.physs g.saveAt g.saveSize) core p.a p.w p.c
  (s.modWg wg fun _ => { g'.owedV.foldl (fun g i => g.modTag .a i fun t => { t with v := true }) g' with owedV := [] }).visit g.grid (core / 16)

def execGangDispatch (grid : Nat) : State → Res :=
  event fun s =>
    if s.returning.isNone && s.chosen == some grid && (s.grid grid).d.kind == 1 then s.tryGrid grid else none

/-! ### Temperatures (R279, R280) -/

/-- A grid that still dispatches considers its placement at a sample. -/
def State.reconsider (s : State) (gid : Nat) : State :=
  let r := s.grid gid
  match r.place, r.selAt with
  | some p, some t =>
    if !r.pending then s
    else
      let b := s.best p
      let s := s.episode gid b.isSome
      match b with
      | some k =>
        let cur := s.score p r.sel
        let new := s.score p k
        if decide (t + 10000000 * Config.tuPerNs ≤ s.tu) && decide (new.1 * cur.2 + 8 * (new.2 * cur.2) ≤ cur.1 * new.2) then
          s.modGrid gid fun r => { r with sel := k, selAt := some s.tu }
        else s
      | none => s
  | _, _ => s

/-! ### Host rules (R408) -/

/-- What a rule reads. -/
def State.reading (s : State) (src : Nat) : Nat :=
  let ix := src % 4096
  match src / 4096 with
  | 0 => (s.cluster ix).temp
  | 1 => s.pkgTemp.getD ix 0
  | 2 => s.regTemp.getD ix 0
  | _ => ((look s.chans ix).map (·.corrected.toNat)).getD 0

/-- A rule judged: it fires once at its threshold, and its action waits for the boundary. A sensor's is armed again 8 units
below; a counter's only by a reset of the counter, which reset alone does, and the table goes with it. -/
def State.judgeRule (s : State) (i : Nat) (r : Rule) : State :=
  let src := fieldAt r.bytes 0 2
  let v := s.reading src
  let th := fieldAt r.bytes 2 2
  if r.armed && decide (th ≤ v) then
    ({ s with rules := put s.rules i { r with armed := false }, fired := s.fired ++ [r.bytes] } : State).record (fieldAt r.bytes 8 2)
      { RecInfo.blank with kind := 6, ix := src % 4096, detail := v }
  else if !r.armed && src / 4096 != 3 && decide (v + 8 ≤ th) then
    { s with rules := put s.rules i { r with armed := true } }
  else s

/-- Every rule judged on the readings as they stand. -/
def State.judgeRules (s : State) : State := s.rules.foldl (fun s e => s.judgeRule e.1 e.2) s

def execThermalSample (temps : List Nat) : State → Res :=
  event fun s =>
    let s := ((List.range 128).zip temps).foldl (fun s x => s.modCluster x.1 fun c => { c with temp := x.2 }) s
    some ((s.grids.map (·.1)).foldl (fun s gid => s.reconsider gid) s.judgeRules)

/-! ### The end of a grid (R341, R372) -/

/-- The descriptor of a chain's stage. -/
def StripCfg.stageDesc (c : StripCfg) (n : Nat) : DWord :=
  match n with
  | 1 => c.stage1
  | 2 => c.stage2
  | _ => c.stage3

/-- A chain's descriptor is one of kind 0 with placement 0, run at the chain's priority (R371, R372, R378). -/
def chainDesc (prio : Nat) (d : Desc) : Desc := { d with prio := prio, zeros := d.zeros && d.kind == 0 && d.placement == 0 }

/-- The machine without a workgroup and its waves on a core. -/
def State.without (s : State) (core wg : Nat) : State :=
  (s.modWg wg fun g => { g with core := none }).modCore core fun c => { c with waves := c.waves.filter fun w => w.2.wg != wg }

/-- Of some workgroups in order, those that must leave a core before a workgroup of a grid fits there. -/
def State.toLeave (core : Nat) (d : Desc) : List Nat → State → List Nat
  | [], _ => []
  | w :: ws, s =>
    if (s.spot core d.waves d.g d.abuf d.wbuf d.cbuf d.barriers).isSome then [] else w :: State.toLeave core d ws (s.without core w)

/-- The candidates of a core: priority 0 to 6, lowest first, the latest dispatched first of equals (R373). -/
def State.candidates (s : State) (core : Nat) (xb : Bool) : List Nat :=
  let ws := s.wgs.filter fun e => e.2.core == some core && !e.2.ended && !e.2.evict && e.2.xbind == xb
  (List.range 7).flatMap fun p => ((ws.filter fun e => (s.grid e.2.grid).d.prio == p).map (·.1)).reverse

/-- Eviction on one core until a workgroup of a grid fits, or no candidate remains; then its workgroups with an exchange
binding are stopped. -/
def State.clearCore (s : State) (d : Desc) (core : Nat) : State :=
  let gone := s.wgs.filter fun e => e.2.core == some core && e.2.evict
  let sim := gone.foldl (fun s e => s.without core e.1) s
  let ws := State.toLeave core d (s.candidates core false) sim
  let fits := ((ws.foldl (fun s w => s.without core w) sim).spot core d.waves d.g d.abuf d.wbuf d.cbuf d.barriers).isSome
  let s := ws.foldl (fun s w => s.preempt (.workgroup w true)) s
  if fits then s else (s.candidates core true).foldl (fun s w => s.preempt (.workgroup w false)) s

/-- Eviction on a chain's reserved cores for its stage-1 grid. -/
def State.clearCores (s : State) (k : Nat) : State :=
  match look s.chains k with
  | some c =>
    if c.gridId = 0 || c.cstage != 1 || !c.admitted then s
    else (((look s.streams c.stream).map Stream.cores).getD []).foldl (fun s core => s.clearCore (s.grid c.gridId).d core) s
  | none => s

/-- A stage of a chain is to be launched: the launch unit does so once fewer than 255 grids are accepted and the stage's
descriptor is read (R340). -/
def State.launchStage (s : State) (k n : Nat) : State := s.modChain k fun c => { c with cstage := n, gridId := 0, waits := true }

/-- The launch unit's task of a chain's stage. -/
def stageWho (k : Nat) : Who := Who.of .launch (256 + k)

/-- The stage is launched; one refused leaves the chain to become late (log entry 32). -/
def State.startStage (s : State) (k n : Nat) (c : Chain) : Rd State := do
  let prio := if c.early && !c.admitted then 0 else 7
  let r ← s.launch (stageWho k) c.cfg.asid c.cfg.root (c.cfg.stageDesc n).toNat none (some k) n (chainDesc prio)
  .ok ((r.1.modChain k fun c => { c with gridId := r.2.getD 0, waits := false }).clearCores k)

/-- A stage that is to be launched. -/
def State.waitingStage (s : State) : Option (Nat × Nat) :=
  (s.chains.find? fun e => e.2.waits && e.2.runs).map fun e => (e.1, e.2.cstage)

/-- The launch of a chain's stage, or the read it needs; none while that is under way or 255 grids are accepted. -/
def State.stageStep (s : State) : Option State :=
  match (if s.grids.length < 255 then s.waitingStage else none) with
  | none => none
  | some (k, n) => (look s.chains k).bind fun c => s.unitStep (stageWho k) ((s.startStage k n c).map some)

/-- A chain's stage is launched where one is to be; else the next workgroup goes to its core (R343). -/
def execWorkgroupDispatch : State → Res :=
  event fun s =>
    match s.stageStep with
    | some s => some s
    | none =>
      match s.returning with
      | some (wg, core, p) => some (s.restoreWg wg core p)
      | none =>
        match s.chosen with
        | some gid => if (s.grid gid).d.kind = 1 then none else s.dispatchUnit gid
        | none => none

/-- The stages of a chain beside its commit. -/
def StripCfg.lastStage (c : StripCfg) : Nat := if c.stage3 = 0 then 2 else 3

/-- The end of a chain's grid: the next stage, or the chain waits for its commit. -/
def State.stageEnd (s : State) (k : Nat) : State :=
  match look s.chains k with
  | none => s
  | some c =>
    let s := s.modChain k fun x => { x with gridId := 0, stage1End := if c.cstage = 1 then s.dtc else x.stage1End }
    if !c.runs then s
    else if c.cstage < c.cfg.lastStage then s.launchStage k (c.cstage + 1)
    else s.modChain k fun x => { x with cstage := 4 }

/-- Nothing of a grid is left to do (R341). -/
def State.gridOver (s : State) (gid : Nat) (r : Grid) : Bool :=
  (r.stopped || (r.d.kind != 2 && r.next == r.total))
    && !(s.wgs.any fun e => e.2.grid == gid && !e.2.ended)
    && !(s.operands.any (·.grid == gid))
    && !(s.slices.any fun x => x.2.entries.any (·.grid == gid))
    && !(s.asks.any fun a => a.for_ == .grid gid)
    && reached s.dtc r.sendT

/-- A grid that is over goes, with its tasks, and its command processor or chain learns of it. -/
def State.gridGone (s : State) (gid : Nat) (r : Grid) : State :=
  let s : State := { s with grids := erase s.grids gid, wgs := s.wgs.filter fun e => e.2.grid != gid }
  let s := match r.cp with
    | some k => { s with cps := change s.cps k fun c => { c with grids := c.grids.filter (· != gid), due := maxD c.due (maxD r.lwt r.sendT) } }
    | none => s
  let s : State := { s with clusters := s.clusters.map fun c => (c.1, { c.2 with
    bins := c.2.bins.filter (·.grid != gid), taskQs := c.2.taskQs.filter (· != gid) }) }
  match r.chain with
  | some k => s.stageEnd k
  | none => s

/-- A grid that is over has its tags cleared first, then is freed with its pool (R341, R439). -/
def execGridEnd (grid : Nat) : State → Res :=
  event fun s =>
    match look s.grids grid with
    | none => none
    | some r =>
      if !s.gridOver grid r || s.posting (tagWho grid) then none
      else match r.area, r.pool, r.clearing with
        | some a, some p, false =>
          some ((s.modGrid grid fun g => { g with clearing := true }).postBits (tagWho grid) .none (tagByteAt a p 0) (onesBytes r.tagNext) false)
        | _, _, _ => some (s.gridGone grid r)

end Sys2Proof.Machine
end

