-- ==== Sys2Proof/Machine/Bridles.lean ====
section
/-! DEFINITION. Tasks and their gathering, bridle tags, sends, combination and delivery (R347 to R360, R439). -/

namespace Sys2Proof.Machine

/-! ### Tasks (R347, R348) -/

def execTask (g : Guard) (d a b c : Opnd) : State → Res :=
  isaCtl fun s => do
    let ts := threads (s.guardMask g)
    let _ ← s.scalar64 a
    let e ← s.scalar64 b
    let q ← s.queueAddr a ts
    failThread ts (fun _ => e.toNat % 8 != 0) fun t => ⟨tcMisaligned, t, e.extractLsb' 0 32, e⟩
    let path : Path := if d = .null then .s else .g
    let arg (t : Nat) : List Byte := (List.range 8).flatMap fun j => leBytes 4 ((s.src (Opnd.plus c j)).at t).toNat
    let go (s : State) : Except TrapReq State :=
      s.counted path (s.goAccess { s.w.newAcc path s.sp.pc .task with
        pred := d, mask := s.guardMask g
        elems := ts.map fun t => Elem.mk0 t q 16 (leBytes 8 e.toNat ++ arg t) [] } 0)
    s.noElems ts (if d = .null then go s else s.settled go)

/-! ### Gatherers (R349) -/

/-- The bins a gatherer still fills. -/
def Cluster.open_ (c : Cluster) : List Bin := c.bins.filter fun b => !b.launched

/-- The bin that a task of a grid and entry goes to. -/
def Bin.takes (b : Bin) (grid : Nat) (entry : DWord) : Bool := !b.launched && b.grid == grid && b.entry == entry

/-- A task put into its bin; a ninth entry launches the oldest bin, and 32 tasks launch theirs. -/
def Cluster.binTask (c : Cluster) (grid : Nat) (entry : DWord) (args : List Word) (seq tu : Nat) : Cluster :=
  let full (b : Bin) : Bin := if 32 ≤ b.tasks.length then { b with launched := true } else b
  if c.bins.any (·.takes grid entry) then
    { c with bins := c.bins.map fun b => if b.takes grid entry then full { b with tasks := b.tasks ++ [(args, seq)] } else b }
  else
    let oldest := (c.open_.foldl (fun (b : Option Bin) x => match b with
      | none => some x
      | some y => if x.since < y.since then some x else some y) none)
    let bins := if c.open_.length < 8 then c.bins else c.bins.map fun b => if some b == oldest then { b with launched := true } else b
    { c with bins := bins ++ [⟨entry, grid, tu, false, [(args, seq)]⟩] }

/-- What the bundle at a task's entry says: a fault, no entry point, budgets above the grid's, or fit to run. -/
inductive EntryCheck where
  | fault (cls info : Nat) | bad | over (n : Nat) | ok
  deriving DecidableEq, Repr

/-- The gatherer reads the bundle at a task's entry. -/
def State.entryCheck (s : State) (w : Who) (cluster gid : Nat) (entry : DWord) : Rd EntryCheck := do
  let d := (s.grid gid).d
  match ← s.unitXlate w cluster d.asid d.root entry.toNat with
  | .fault k mal => .ok (if k = kindBad then .fault tcData 0 else .fault tcTranslation (markOf k mal))
  | .page e =>
    if !e.x then .ok (.fault tcTranslation 2)
    else match ← s.got w (e.pa? entry.toNat) 8 with
      | none => .ok (.fault tcData 0)
      | some bs =>
        let x := BitVec.ofNat 64 (leNat bs)
        .ok (match x.getLsbD 61, fhdrOf x with
          | true, some (n, g) => if n ≤ d.n && g ≤ d.g then .ok else .over n
          | _, _ => .bad)

def gatherRec (cluster : Nat) (entry : DWord) (gid detail : Nat) : RecInfo := { clusterRec cluster entry detail with grid := gid }

/-- The gatherer's task of a grid's queue. -/
def State.gatherWho (s : State) (cluster gid : Nat) : Who := ⟨.unit cluster 3, gid, none, 0, 0, (s.grid gid).d.prio⟩

/-- A queue has had its turn. -/
def Cluster.turned (c : Cluster) (gid : Nat) : Cluster := { c with taskQs := c.taskQs.filter (· != gid) ++ [gid] }

/-- A popped task into its bin, or its record. -/
def State.takeTask (s : State) (w : Who) (cluster gid : Nat) (slot : List Byte) : Rd State := do
  let entry := dwordOf slot 0
  match ← s.entryCheck w cluster gid entry with
  | .fault cls info => .ok (s.record cls { gatherRec cluster entry gid info with unc := cls == tcData })
  | .bad => .ok (s.record tcBadTarget (gatherRec cluster entry gid (entry.toNat % 2 ^ 32)))
  | .over n => .ok (s.record tcReg (gatherRec cluster entry gid n))
  | .ok => .ok (s.modCluster cluster fun c => c.binTask gid entry (wordsOf slot 32 8) (fieldAt slot 8 4) s.tu)

/-- One turn of a queue: its header's page, a pop there as one act, and the task that it gave. -/
def State.popStep (s : State) (w : Who) (cluster gid : Nat) : Rd State := do
  let d := (s.grid gid).d
  let q := BitVec.ofNat 64 d.taskq
  match ← s.unitXlate w cluster d.asid d.root d.taskq with
  | .fault kind mal =>
    .ok (if kind = kindBad then s.record tcData { gatherRec cluster q gid 0 with unc := true }
      else s.record tcTranslation (gatherRec cluster q gid (markOf kind mal)))
  | .page e =>
    if isHostPa (e.pa? d.taskq) || !e.w then .ok (s.record tcTranslation (gatherRec cluster q gid 1))
    else match ← s.acted w (.pop (e.va + e.size - d.taskq)) (e.pa? d.taskq) 128 with
      | none => .ok (s.record tcData { gatherRec cluster q gid 0 with unc := true })
      | some [] => .ok s
      | some (k :: slot) =>
        if k = 2 then .ok (s.record tcEncoding (gatherRec cluster q gid 0))
        else if k = 0 then .ok s
        else s.takeTask w cluster gid slot

/-- The gatherer pops from the queue whose turn it is, of those assigned whose grids run. -/
def execGathererPop (cluster grid : Nat) : State → Res :=
  event fun s =>
    if ((s.cluster cluster).taskQs.filter fun g => !(s.grid g).stopped).head? != some grid then none
    else
      let w := s.gatherWho cluster grid
      s.unitStep w ((s.popStep w cluster grid).map fun s => some (s.modCluster cluster fun c => c.turned grid))

/-- 128.000 ns after its first task entered, a bin launches. -/
def execGathererBinTimeout (cluster bin : Nat) : State → Res :=
  event fun s =>
    match (s.cluster cluster).bins[bin]? with
    | some b =>
      if !b.launched && decide (b.since + 128 * Config.tuPerNs ≤ s.tu) then
        some (s.modCluster cluster fun c => { c with bins := c.bins.set bin { b with launched := true } })
      else none
    | none => none

/-- The wave of a bin of k tasks: a task for each of threads 0 to k − 1. -/
def State.taskWave (s : State) (d : Desc) (b : Bin) : Wave :=
  let k := b.tasks.length
  let here : Mask := maskOf fun t => decide (t < k)
  let row (j : Nat) : VReg := .gen ((List.range 32).map fun t => ((b.tasks[t]?).map fun x => x.1.getD j 0).getD 0)
  let ro := d.roleOfWave 0
  { Wave.blank with
    role := ro.1, n := ro.2, g := min d.g ro.2, prio := d.prio, stage := d.stage, exited := ~~~here
    v := (List.range 8).map row ++ List.replicate 120 .unwritten
    splits := [{ Split.blank with pc := b.entry, mask := here, s := BitVec.ofNat 32 k :: List.replicate 63 0 }]
    seed := seedOf ((b.tasks.head?.map (·.2)).getD 0), nextAcc := s.free * 65536 }

/-- A launched bin takes the lowest core of its cluster that it fits. -/
def execTaskBinLaunch (cluster bin : Nat) : State → Res :=
  event fun s =>
    match (s.cluster cluster).bins[bin]? with
    | none => none
    | some b =>
      let r := s.grid b.grid
      if !b.launched || r.stopped || s.posting (tagWho b.grid) then none
      else match s.firstFit r ((List.range 16).map (16 * cluster + ·)) with
        | none => none
        | some (core, p) =>
          let s := s.modCluster cluster fun c => { c with bins := c.bins.eraseIdx bin }
          some (s.startWg core b.grid 0 p false fun _ => s.taskWave r.d b)

/-! ### Tags (R350, R351, R439) -/

/-- Whether a tag is valid for a grid's pool, as a task reads it in the tag area; none for an uncorrectable error there. -/
def State.tagValid (s : State) (w : Who) (gid : Nat) (tag : Word) : Rd (Option Bool) :=
  let r := s.grid gid
  let seq := tag.toNat % 2 ^ 24
  match r.area, r.pool with
  | some a, some p =>
    if tag != 0 && tag.toNat / 2 ^ 24 == p && decide (seq < r.tagNext) then
      (s.got w (tagByteAt a p seq) 1).map (·.map fun bs => (bs.headD 0).getLsbD (seq % 8))
    else .ok (some false)
  | _, _ => .ok (some false)

/-- The trap of a tag that is not valid, or whose bit cannot be read (R351, R353, R410). -/
def tagTrap (tag : Word) (v : Option Bool) : TrapReq := if v.isNone then ⟨tcData, 0, 0, 0⟩ else ⟨tcTag, 0, tag, 0⟩

/-- The grid that issues btag holds a pool from then on. -/
def State.needPool (s : State) (gid : Nat) : State :=
  let p := s.freePool
  s.modGrid gid fun r => if r.pool.isNone && r.area.isSome then { r with pool := some p } else r

def tagElem (pa : Nat) (bit : Byte) (tag : Word) : Elem :=
  { Elem.mk0 0 (BitVec.allOnes 64) 1 [bit] (leBytes 4 tag.toNat) with pa := pa }

def execBtagAlloc (la : BitVec 4) (d : Opnd) : State → Res :=
  isaCtl fun s =>
    let gid := s.w.grid
    let s := s.needPool gid
    let r := s.grid gid
    let acc : Acc := { s.w.newAcc .g s.sp.pc .tagAlloc with
      dst := d, size := 2, uniform := d.isScalarReg || s.sp.mask == fullMask, mask := s.sp.mask }
    match s.w.firstShort acc.genRegs with
    | some n => .error (trapI tcRow n)
    | none =>
      match r.area, r.pool with
      | some a, some p =>
        if 2 ^ 24 ≤ r.tagNext then
          let z := (tagElem 0 0 0).finish true false (leBytes 4 0) 0
          .ok ((((s.modW fun w => w.addAcc { acc with elems := [z] }).openWait acc.id la (groupOf d 1)).advance))
        else
          let tag := BitVec.ofNat 32 (p * 2 ^ 24 + r.tagNext)
          let e := tagElem (tagByteAt a p r.tagNext) (1#8 <<< (r.tagNext % 8)) tag
          .ok ((s.modGrid gid fun r => { r with tagNext := r.tagNext + 1 }).launchAcc acc la [e])
      | _, _ =>
        let z := (tagElem 0 0 0).finish true false (leBytes 4 0) 0
        .ok (((s.modW fun w => w.addAcc { acc with elems := [z] }).openWait acc.id la (groupOf d 1)).advance)

/-- btag.free waits for the tag's bit, and sends the clearing of it; what the same core reads of it afterwards comes after that
(R309). -/
def execBtagFree (_la : BitVec 4) (a : Opnd) : State → Res :=
  isaCtl fun s => do
    let tag ← s.scalar a
    let r := s.gr
    let seq := tag.toNat % 2 ^ 24
    s.unitWait s.coreWho (s.tagValid s.coreWho s.w.grid tag) fun s v => do
      check (v == some true && decide (r.d.tagblock ≤ seq)) (tagTrap tag v)
      let pa := tagByteAt (r.area.getD 0) (r.pool.getD 1) seq
      .ok (s.post s.coreWho (.bits [1#8 <<< (seq % 8)] false) .none pa 1).advance

/-! ### Sending (R352, R353) -/

/-- A source tile lies in the reservation. -/
def State.sendSrc (s : State) (fromC : Bool) (src : Nat) : Bool :=
  if fromC then decide (src < s.g.tc.length) else decide (src + 1024 ≤ s.g.size .a)

/-- The global destination, translated; the host window is a place too. -/
def State.sendDst (s : State) (dst : DWord) : Except TrapReq Nat :=
  match s.xlate s.cur.core s.w.grid dst true false with
  | .error k => .error (faultTrap 0 k dst)
  | .ok e => .ok (e.pa? dst.toNat)

def execBsend (d a : Opnd) (b : Fin 64) (c : Opnd) (comb : Combine) (fromC : Bool) : State → Res :=
  isaCtl fun s => do
    let tag ← s.scalar d
    let src ← s.scalar a
    let cnt ← s.scalar c
    let dst := s.sp.pair b.val
    let core := dst.getLsbD 63
    check (!(fromC && s.w.role == .copy)) (tDenied 0x341)
    check (decide (2 ≤ cnt.toNat ∧ cnt.toNat ≤ 16)) (trapI tcProtection 0)
    check (fromC || src.toNat % 1024 == 0) ⟨tcMisaligned, 0, src, 0⟩
    check (core || dst.toNat % 1024 == 0) ⟨tcMisaligned, 0, dst.extractLsb' 0 32, dst⟩
    check (s.sendSrc fromC src.toNat) ⟨tcProtection, 0, src, 0⟩
    check (!core || decide (dst.toNat / 2 ^ 32 % 2 ^ 31 < max 1 s.gr.total)) (trapI tcProtection 0)
    let pa ← if core then .ok 0 else s.sendDst dst
    s.counted .s (.ok (s.modSp fun p => { p with status := .waiting (.bsend ⟨tag, comb, cnt.toNat, fromC, src.toNat, core, dst, pa⟩) }))

/-- The operand of a bsend leaves: the source tile is read whole. -/
def State.sendOperand (s : State) (b : BridleSend) : State :=
  let sp : Space := if b.fromC then .c else .a
  let bytes := s.engLocal s.cur.core s.w.wg sp (if b.fromC then b.src * 1024 else b.src) 1024
  let acc := s.w.newAcc .s s.sp.pc .bridle
  let o : Operand := ⟨s.cur.core, s.cur.ctx, acc.id, s.w.grid, b, wordsOf bytes 0 256⟩
  (({ s with operands := s.operands ++ [o] } : State).modW fun w => w.addAcc acc).advance

/-- The tag area answers: a tag that is not valid traps; otherwise, once the S counter has room (R178), the operand leaves. In a
wave that stops, the instruction is saved and issues again (R241). -/
def execBsendTagCheckAnswer (at_ : Cursor) : State → Res :=
  event fun s =>
    let s := s.withCur at_
    if !s.live || s.w.stop != .none then none
    else match s.sp.status with
      | .waiting (.bsend b) =>
        s.unitStep s.coreWho ((s.tagValid s.coreWho s.w.grid b.tag).map fun v =>
          let s := s.modSp fun p => { p with status := .running }
          if v != some true then some (s.raiseLate (tagTrap b.tag v))
          else if s.counterFull .s then none
          else some (s.sendOperand b))
      | _ => none

/-! ### Combination (R355, R356) -/

/-- Over all finite values of an element: 2^b units, their exact sum, and whether one or the sum does not fit. -/
def exactSum (vs : List FV) : Int × Int × Bool :=
  let fs := vs.filterMap fun v => match v with
    | .fin n m e => if m = 0 then none else some (n, m, e)
    | _ => none
  let b := fs.foldl (fun q v => minI q v.2.2) ((fs.head?.map (·.2.2)).getD 0)
  let xs := fs.map fun v => scaled v.1 v.2.1 v.2.2 b
  let sum := xs.foldl (· + ·) 0
  (b, sum, decide (2 ^ 127 ≤ sum.natAbs) || xs.any fun x => decide (2 ^ 127 ≤ x.natAbs))

def FV.isInf (neg : Bool) : FV → Bool
  | .inf n => n == neg
  | _ => false
def FV.isNegZero : FV → Bool
  | .fin n m _ => n && m == 0
  | _ => false

/-- One element under .add.x, and whether it is out of range. A NaN or an infinity stands before the range (log entry 33). -/
def addX (ws : List Word) : Word × Bool :=
  let vs := ws.map fun w => decode f32 w.toNat
  if vs.any FV.isNan || (vs.any (FV.isInf true) && vs.any (FV.isInf false)) then (w32 f32.nan, false)
  else if vs.any (FV.isInf false) then (0x7F800000#32, false)
  else if vs.any (FV.isInf true) then (0xFF800000#32, false)
  else
    let r := exactSum vs
    let neg := decide (r.2.1 < 0)
    if r.2.2 then (if neg then 0xFF7FFFFF#32 else 0x7F7FFFFF#32, true)
    else if r.2.1 = 0 then (if vs.all FV.isNegZero then 0x80000000#32 else 0, false)
    else (w32 (roundTo f32 Mods.plain 0 (.fin neg r.2.1.natAbs r.1 false)), false)

/-- One element of a delivery, from its operands in arrival order. -/
def combineElem (c : Combine) (ws : List Word) : Word × Bool :=
  let canon (w : Word) : Word := w32 (roundTo f32 Mods.plain 0 (decode f32 w.toNat).toX)
  let fold (f : Word → Word → Word) : Word := (ws.drop 1).foldl f (canon (ws.headD 0))
  match c with
  | .addF32 => (fold (fopAdd Mods.plain 0), false)
  | .addX => addX ws
  | .maxF32 => (fold (fopMinMax true false Mods.plain), false)
  | .minF32 => (fold (fopMinMax false false Mods.plain), false)
  | .addI32 => (ws.foldl (· + ·) 0, false)

/-- The tile an entry delivers, and whether RANGE goes with it. -/
def BEntry.result (e : BEntry) : List Word × Bool :=
  let rs := (List.range 256).map fun i => combineElem e.comb (e.got.map fun o => o.getD i 0)
  (rs.map (·.1), rs.any (·.2))

/-! ### The matching store (R354, R358) -/

/-- The unit of a tag. -/
def unitOf (tag : Word) : Nat :=
  (tag.extractLsb' 0 8 ^^^ tag.extractLsb' 8 8 ^^^ tag.extractLsb' 16 8 ^^^ tag.extractLsb' 24 8).toNat

/-- Bytes of a unit's part of the spill area, and its slots. -/
def spillPart (size : Nat) : Nat := size / 256 / 1024 * 1024
def State.spillSlots (s : State) : Nat :=
  match s.pools.spill with
  | some (_, size) => spillPart size / 1024
  | none => 0

/-- Where slot i of unit u's part of the spill area lies. -/
def State.spillAt (s : State) (u i : Nat) : Nat :=
  match s.pools.spill with
  | some (base, size) => base + u * spillPart size + 1024 * i
  | none => 0

/-- The slots of a new entry: free ones of the ways borrowed, then of the other ways, lowest first; else of the spill part, lowest
first; or nowhere. -/
def State.slotsFor (s : State) (x : Slice) (n : Nat) : Option (Bool × List Nat) :=
  let free := (List.range 128).filter fun i => !(x.slotsOf false).contains i
  let here := (free.filter fun i => x.lent (12 + i / 32)) ++ free.filter fun i => !x.lent (12 + i / 32)
  let there := (List.range s.spillSlots).filter fun i => !(x.slotsOf true).contains i
  if n ≤ here.length then some (false, here.take n) else if n ≤ there.length then some (true, there.take n) else none

/-- Lines in the ways of some slots of a unit's store. -/
def Slice.linesIn (x : Slice) (slots : List Nat) : List L2Line := x.lines.filter fun y => slots.any fun i => 12 + i / 32 == y.way

/-- A way that is borrowed holds no line: those there leave, their leases go to the eviction horizon, and claims on them are
given up (R275, R312). -/
def State.borrow (s : State) (u : Nat) (slots : List Nat) : State :=
  let out := (s.slice u).linesIn slots
  (out.foldl (fun s y => s.dropClaim y.line) s).modSlice u fun x => { x with
    lines := x.lines.filter fun y => !out.any fun z => z.line == y.line
    horizon := out.foldl (fun h y => maxD h y.expiry) x.horizon }

/-! ### Delivery (R357, R359, R360) -/

def bridleRec (u : Nat) (e : BEntry) (addr : DWord) (detail : Nat) : RecInfo :=
  { RecInfo.blank with addr := addr, kind := 2, ix := u, virt := !e.toCore, grid := e.grid, detail := detail }

def State.bridleRecord (s : State) (cls u : Nat) (e : BEntry) : State := s.record cls (bridleRec u e e.dst e.tag.toNat)

/-- The record of a delivery that an uncorrectable error stopped. -/
def State.bridleUnc (s : State) (u : Nat) (e : BEntry) : State := s.record tcData { bridleRec u e e.dst e.tag.toNat with unc := true }

def State.removeEntry (s : State) (u id : Nat) : State :=
  s.modSlice u fun x => { x with entries := x.entries.filter (·.id != id) }

/-- Parts of a delivery to a core, in order: each is written and then counts on the parity current at that moment; the last
completes the tile first (R164, R187). -/
def State.deliverParts (core wg k addr : Nat) (bs : List Byte) (last : State → State) : Nat → State → State
  | 0, s => s
  | n + 1, s =>
    let i := 63 - n
    let s := s.bufPut core wg .a (addr + 16 * i) ((bs.drop (16 * i)).take 16) .engine
    let s := if n = 0 then last s else s
    State.deliverParts core wg k addr bs last n (s.barBytes wg k (s.bar wg k).ph 16 none)

/-- A status word with a delivery of a status counted. -/
def rcvWord (w : Word) (orphan range : Bool) : Word :=
  if orphan || range then
    BitVec.ofNat 32 ((w.toNat % 4 ||| orphan.toNat ||| range.toNat * 2) + min 255 (bitsOf w.toNat 8 8 + 1) * 256)
  else w

/-- What becomes of a delivery to a workgroup's bound address: made, thrown away, or held. -/
inductive CoreDelivery where
  | to_ (wg core bar : Nat) | discard | hold
  deriving DecidableEq, Repr

/-- A workgroup being evicted takes deliveries until its waves are saved and its copy and matrix work is done (R242). -/
def State.coreDelivery (s : State) (e : BEntry) : CoreDelivery :=
  let lin := e.dst.toNat / 2 ^ 32 % 2 ^ 31
  let addr := e.dst.toNat % 2 ^ 32
  match s.wgs.find? fun x => x.2.grid == e.grid && x.2.lin == lin && !x.2.ended with
  | some (wg, g) =>
    match g.core, g.boundAt addr with
    | some core, some k => if !(g.evict && g.live == 0 && !s.wgBusy core wg) && g.mayBegin .a [] [addr / 1024] then .to_ wg core k else .hold
    | _, _ => .hold
  | none => if (s.grid e.grid).stopped || s.wgs.any fun x => x.2.grid == e.grid && x.2.lin == lin then .discard else .hold

/-- The TRANSLATION record of a delivery holds the tag; that of a malformed entry differs from it (R316, R357, log entry 47). -/
def State.bridleFault (s : State) (u : Nat) (e : BEntry) (mal : Bool) : State :=
  let mark := if mal then 1 + Config.malformedMark % (2 ^ 32 - 1) else 0
  s.record tcTranslation (bridleRec u e e.dst ((e.tag.toNat + mark) % 2 ^ 32))

/-- A unit's task of an entry. -/
def State.entryWho (s : State) (u : Nat) (e : BEntry) : Who := { Who.of (.bridle u) e.id with chain := (s.grid e.grid).chain }

/-- A delivery to a core, unless it must be held (R357). -/
def State.deliverCore (s : State) (u : Nat) (e : BEntry) (ws : List Word) (ranged : Bool) : Option State :=
  match s.coreDelivery e with
  | .hold => none
  | .discard => some ((s.removeEntry u e.id).bridleRecord tcProtection u e)
  | .to_ wg core k =>
    let addr := e.dst.toNat % 2 ^ 32
    let s := s.removeEntry u e.id
    let s := if ranged then s.bridleRecord 0x24 u e else s
    let last (s : State) : State :=
      (s.tileDone wg .a (addr / 1024) false).modWg wg fun g => { g with rcv := rcvWord g.rcv e.orphan ranged }
    let s := (s.touch core wg .a addr 1024 .engine).modWg wg fun g => g.modTags .a [addr / 1024] fun t => { t with v := false }
    some (State.deliverParts core wg k addr (wordsBytes ws) last 64 s)

/-- A delivery to global memory: translated now, and sent as aligned 16-byte parts, each of which counts for its grid (R341,
R357). -/
def State.deliverGlobal (s : State) (u : Nat) (e : BEntry) (ws : List Word) (ranged : Bool) : Rd State := do
  let w := s.entryWho u e
  let d := (s.grid e.grid).d
  let r ← s.ownWalk w d.asid d.root e.dst.toNat
  let s := s.removeEntry u e.id
  let s := if ranged then s.bridleRecord 0x24 u e else s
  match r with
  | .fault kind mal => .ok (if kind = kindBad then s.bridleUnc u e else s.bridleFault u e mal)
  | .page p => .ok (if p.w then (s.postParts w (.grid e.grid) (p.pa? e.dst.toNat) (wordsBytes ws)).pumpHost else s.bridleFault u e false)

/-- A closed entry goes on with its delivery. One whose spill slots hold an uncorrectable error is lost with its record (R410; log
entry 97). -/
def State.deliverEntry (s : State) (u : Nat) (e : BEntry) : Option State :=
  let r := e.result
  if e.spill && e.slots.any fun i => s.bad (s.spillAt u i) 1024 then some ((s.removeEntry u e.id).bridleUnc u e)
  else if e.toCore then s.deliverCore u e r.1 r.2
  else s.unitStep (s.entryWho u e) ((s.deliverGlobal u e r.1 r.2).map some)

/-- The entry closes, and is delivered or held. -/
def State.closeEntry (s : State) (u : Nat) (e : BEntry) : State :=
  let e : BEntry := { e with closed := true }
  let s := s.modSlice u fun x => { x with entries := x.entries.map fun y => if y.id = e.id then e else y }
  (s.deliverEntry u e).getD s

/-- The send status word with one more refusal. -/
def sndWord (w : Word) (full : Bool) : Word :=
  BitVec.ofNat 32 ((w.toNat % 4 ||| (if full then 1 else 2)) + min 255 (bitsOf w.toNat 8 8 + 1) * 256)

def State.refuse (s : State) (o : Operand) (full : Bool) : State :=
  s.modWave o.core o.ctx fun w => { w with snd := sndWord w.snd full }

/-- The open entry that an operand joins. -/
def Slice.openFor (x : Slice) (o : Operand) : Option BEntry := x.entries.find? fun e => e.tag == o.send.tag && !e.closed

/-- The slots that an operand takes where it opens an entry. -/
def Operand.need (o : Operand) : Nat := if o.send.comb = .addX then 5 else 1

/-- A fetch into a way that an operand's entry would borrow is under way: the operand waits for it (R312). -/
def State.wayBusy (s : State) (o : Operand) : Bool :=
  let x := s.slice (unitOf o.send.tag)
  (x.openFor o).isNone && match s.slotsFor x o.need with
    | some (false, slots) => (x.linesIn slots).any (·.miss.isSome)
    | _ => false

/-- An operand reaches its unit: it joins the open entry of its tag, opens one, or is refused. -/
def State.arrive (s : State) (o : Operand) : State :=
  let u := Machine.unitOf o.send.tag
  let x := s.slice u
  match x.openFor o with
  | some e =>
    if e.comb = o.send.comb && e.count = o.send.count && e.toCore = o.send.toCore && e.dst = o.send.dst then
      let e' : BEntry := { e with got := e.got ++ [o.data] }
      let s := s.modSlice u fun x => { x with entries := x.entries.map fun y => if y.id = e.id then e' else y }
      if e'.count ≤ e'.got.length then s.closeEntry u e' else s
    else (s.refuse o false).record tcTag { bridleRec u e o.send.dst o.send.tag.toNat with grid := o.grid }
  | none =>
    match s.slotsFor x o.need with
    | none => s.refuse o true
    | some (spill, slots) =>
      let e : BEntry := ⟨x.nextEntry, o.send.tag, o.grid, o.send.comb, o.send.count, o.send.toCore, o.send.dst, s.dtc, [o.data], slots, spill, false, false⟩
      (if spill then s else s.borrow u slots).modSlice u fun x => { x with entries := x.entries ++ [e], nextEntry := x.nextEntry + 1 }

def execBridleOperandArrival (idx : Nat) : State → Res :=
  event fun s =>
    match s.operands[idx]? with
    | none => none
    | some o =>
      if s.wayBusy o then none
      else
        let s : State := { s with operands := s.operands.eraseIdx idx }
        some ((s.arrive o).completeAcc o.core o.ctx o.acc .s)

/-- A held delivery is made once its workgroup can take it. -/
def execBridleHeldDelivery (unit entry : Nat) : State → Res :=
  event fun s =>
    match (s.slice unit).entries.find? fun e => e.id == entry && e.closed with
    | some e => s.deliverEntry unit e
    | none => none

/-- An entry open for the orphan timeout is delivered with the operands present (R359). -/
def execBridleOrphanTimeout (unit entry : Nat) : State → Res :=
  event fun s =>
    match (s.slice unit).entries.find? fun e => e.id == entry && !e.closed with
    | some e =>
      if past s.dtc (e.opened + BitVec.ofNat 64 s.orphan) then
        some ((s.bridleRecord 0x23 unit e).closeEntry unit { e with orphan := true })
      else none
    | none => none

/-! ### Status (R360) -/

def execBstatSnd (d : Opnd) : State → Res :=
  isa fun s => do
    let x := s.w.snd
    s.modW (fun w => { w with snd := 0 }) |>.writeD d (.uni x) s.sp.mask
def execBstatRcv (d : Opnd) : State → Res :=
  isa fun s => do
    let x := s.g.rcv
    s.modG (fun g => { g with rcv := 0 }) |>.writeD d (.uni x) s.sp.mask

end Sys2Proof.Machine
end

