-- ==== Sys2Proof/Machine/System.lean ====
section
/-! DEFINITION. The system instructions of group 0xE: icinv, the return from a handler, yield, sleep and wake, brk, and
the performance counters (R249 to R255, R438). -/

namespace Sys2Proof.Machine

/-! ### icinv (R251) -/

/-- The instruction caches of a scope forget what they held, lines and old bytes: 0 the core, 1 its cluster, 2 the device. -/
def State.dropCode (s : State) (sc core : Nat) : State :=
  let covers (k : Nat) : Bool := match sc with
    | 0 => k == core
    | 1 => k / 16 == core / 16
    | _ => true
  { s with cores := s.cores.map fun c => if covers c.1 then (c.1, { c.2 with ic := [], il := [] }) else c }

def execIcinv (sc : Fin 3) : State → Res :=
  isaCtl fun s => s.settled fun s =>
    let w := (s.w.flying.filter Acc.inW).map (·.id)
    if s.fenceDone s.cur.core s.cur.ctx true false false w [] [] then .ok (s.dropCode sc.val s.cur.core).advance
    else .ok (s.wait (.icinv sc.val w))

/-! ### Return from a handler (R249) -/

/-- S62:S63 and SR_TRAP as the handler leaves them give way to what was held; the split goes on at an address. -/
def State.leaveHandler (s : State) (retry : Bool) : Except TrapReq State := do
  check s.w.handler.isSome (trapI tcProtection 0)
  let a := s.sp.pair 62
  check (a.extractLsb' 1 2 == 0#2) ⟨tcMisaligned, 0, a.extractLsb' 0 32, a⟩
  check (a.extractLsb' 52 12 == 0#12) ⟨tcTranslation, 0, 3#32, a⟩
  let low := a.getLsbD 0
  let pc := a &&& ~~~7#64
  let held := s.w.heldS
  let s := s.modSp fun p => { p.setPair 62 held with
    pc := if retry then pc else if low then pc + 16 else pc + 8
    low := retry && low, pfx := none, latch := none, arrived := retry && s.w.heldArr }
  .ok (s.modW fun w => { w with handler := none, heldS := 0, heldArr := false, trapReg := w.trapReg &&& ~~~0x100#64 })

def execTrapret : State → Res := isaCtl fun s => s.leaveHandler false
def execTrapretRetry : State → Res := isaCtl fun s => s.leaveHandler true

/-! ### yield (R252) -/

/-- The split becomes the youngest ready split: its age begins again, behind every split that becomes ready with it. -/
def State.youngest (s : State) : State := s.modSp fun p => { p with readyAt := 0, young := true }

def execYield : State → Res := isa fun s => .ok s.youngest

/-- A core is one that a grid's next unit, or one of the whole gang under kind 1, may go to: one of its placement's clusters,
where it has a set (R279, R343, R345). -/
def State.couldUse (s : State) (core : Nat) (r : Grid) : Bool :=
  s.mayHost core r && match r.place with
    | none => true
    | some p =>
      let slot (i : Nat) : Nat := setSlot p (s.selNow r p) (if setExchange p then i / 16 else i)
      let n := if r.d.kind = 1 then min (r.total - r.next) 2048 else 1
      (List.range n).any fun i => slot (r.next + i) == core / 16

/-- A grid waits for contexts of a core: its next unit fits nowhere and the core has too few, or its gang does not fit (R345). -/
def State.gridWants (s : State) (core gid : Nat) (r : Grid) : Bool :=
  r.pending && s.couldUse core r
    && (if r.d.kind = 1 then (s.tryGrid gid).isNone else (s.nextSpots r).isNone && decide ((s.core core).freeCtx.length < r.d.waves))

/-- A workgroup of priority at least p waits for contexts of a core: one still to be dispatched, one whose waves are saved
for that core, one that was evicted, or the workgroup of a launched bin of its cluster (R241, R242, R252, R349). -/
def State.wantsCore (s : State) (core p : Nat) : Bool :=
  let short (n : Nat) : Bool := decide ((s.core core).freeCtx.length < n)
  (s.grids.any fun e => decide (p ≤ e.2.d.prio) && s.gridWants core e.1 e.2)
    || (s.saved.any fun x => decide (p ≤ x.prio) && !x.brk && (s.wg x.wg).core == some core && short 1)
    || (s.wgs.any fun e => e.2.evict && e.2.core.isNone && !e.2.ended && decide (p ≤ (s.grid e.2.grid).d.prio)
        && s.mayHost core (s.grid e.2.grid) && (s.returnSpot e.1 e.2).isNone && short (s.saved.filter (·.wg == e.1)).length)
    || ((s.cluster (core / 16)).bins.any fun b => b.launched && decide (p ≤ (s.grid b.grid).d.prio)
        && s.mayHost core (s.grid b.grid) && short 1)

/-- The request that yield.p raises reaches its wave when the splits of its core cycle have issued, a trap of one of them
before it (R240). -/
def execYieldP : State → Res :=
  isa fun s =>
    let c := s.cur
    let s := s.youngest
    .ok (if s.wantsCore c.core s.w.prio then { s with agenda := .preemptionRequest (.wave c.core c.ctx) :: s.agenda } else s)

/-! ### sleep and wake (R253) -/

def execSleep (a : Opnd) : State → Res :=
  isaCtl fun s => do
    let n ← s.scalar a
    s.settled fun s =>
      .ok (s.wait (.sleep (if n = 0 then none else some (s.now s.cur.core + BitVec.ofNat 64 (n.toNat * 65536)))))

def execSleepExpiry (at_ : Cursor) : State → Res :=
  event fun s =>
    let s := s.withCur at_
    if !s.live || s.w.stop != .none then none
    else match s.sp.status with
      | .waiting (.sleep (some d)) =>
        if past (s.now at_.core) d then some (s.modSp fun p => { p with status := .running }).advance else none
      | _ => none

/-- A wake for a wave, named by grid, linear workgroup index and SR_WAVE. For a saved wave it sets flag [3] of the word at
offset 0x006 of its area, and takes effect at resume (R243, R253). -/
def State.wake (s : State) (grid wg wave : Nat) : State :=
  let hit (w : Wave) : Bool := w.grid == grid && (s.wg w.wg).lin == wg && w.idx == wave
  let held (x : Saved) : Bool := x.grid == grid && (s.wg x.wg).lin == wg && x.idx == wave
  let s' := (s.contexts hit).foldl (fun s c => s.modWave c.1 c.2 Wave.wakeUp) s
  let s' := (s.saved.filter held).foldl (fun s x =>
    s.physPuts (x.addr + 6) [BitVec.ofNat 8 (s.physNat (x.addr + 6) 1) ||| 8#8]) s'
  { s' with saved := s'.saved.map fun x => if held x then { x with wake := true } else x }

def execWake (grid wg wave : Nat) : State → Res := event fun s => some (s.wake grid wg wave)

/-! ### brk (R254) -/

def execBrk (g : Guard) (code : BitVec 16) : State → Res :=
  isa fun s => if s.guardMask g = 0 then .ok s else .error (trapI tcBreak code.toNat)

/-! ### Performance counters and the trace ring (R255, R438) -/

def execPerfRd (d : Fin 64) (k : Fin 8) : State → Res :=
  isa fun s =>
    let x := (((s.core s.cur.core).perf[k.val]?).map (·.value)).getD 0
    .ok ((s.writeS d.val (x.extractLsb' 0 32)).writeS (d.val + 1) (x.extractLsb' 32 32))

/-- A trace record. -/
def State.markBytes (s : State) (a : Word) : List Byte :=
  let w := s.w
  leBytes 8 (s.now s.cur.core).toNat ++ leBytes 8 (s.core s.cur.core).cyc.toNat ++ leBytes 4 w.grid ++ leBytes 4 a.toNat
    ++ leBytes 2 s.cur.core ++ leBytes 1 w.idx ++ leBytes 1 (w.stage % 8) ++ leBytes 4 0

def execPerfMark (a : Opnd) : State → Res :=
  isaCtl fun s => do
    let x ← s.scalar a
    match s.pools.traceRing with
    | none => .ok s.advance
    | some (base, _) =>
      s.counted .s (.ok (s.launchAcc (s.w.newAcc .s s.sp.pc (.ring 32)) 0
        [{ Elem.mk0 0 (BitVec.allOnes 64) 32 (s.markBytes x) [] with pa := base, room := 2 ^ 40 }]))

end Sys2Proof.Machine
end

