-- ==== Sys2Proof/Machine/Video.lean ====
section
/-! DEFINITION. What the consumers make of a strip's lines, apart from the state: RGB and BT.709 components (R367, R388, R393),
DisplayPort line periods (R387, R391), AV1 temporal units (R392), and the packets of ST 2110-20 (R389, R393, R415). -/

namespace Sys2Proof.Machine

/-! ### Components of ring pixels (R367, R388; log entry 6) -/

/-- The denominator of every component: a multiple of those of the three ring formats. -/
def full : Nat := 255 * 1023 * 2 ^ 24

/-- The value of a half-precision component between 0 and 1, over 2^24; that of a NaN is free (log entry 24). -/
def halfPart (bits : Nat) : Nat :=
  match decode f16 bits with
  | .nan _ => Config.nanUnorm 24 (BitVec.ofNat 32 bits) % 2 ^ 24
  | .inf neg => if neg then 0 else 2 ^ 24
  | .fin neg m e => if neg then 0 else min (2 ^ 24) (m * 2 ^ (e + 24).toNat)

/-- Bytes of a pixel of a ring format. -/
def pixelLen (fmt : Nat) : Nat := if fmt = 2 then 8 else 4

/-- Red, green and blue of pixel i of a line, over `full`. -/
def ringPixel (fmt : Nat) (bs : List Byte) (i : Nat) : List Nat :=
  let w := leNat ((bs.drop (i * pixelLen fmt)).take (pixelLen fmt))
  match fmt with
  | 0 => [0, 8, 16].map fun b => bitsOf w b 8 * (full / 255)
  | 1 => [0, 10, 20].map fun b => bitsOf w b 10 * (full / 1023)
  | _ => [0, 16, 32].map fun b => halfPart (bitsOf w b 16) * (full / 2 ^ 24)

def ringPixels (fmt : Nat) (bs : List Byte) : List (List Nat) := (List.range (bs.length / pixelLen fmt)).map (ringPixel fmt bs)

/-- A component as a whole number of w bits, RNE (R367). -/
def atBits (w c : Nat) : Nat :=
  let x := c * (2 ^ w - 1)
  let q := x / full
  let r := x % full
  if 2 * r < full || (2 * r = full && q % 2 = 0) then q else q + 1

/-- BT.709 luminance over 10,000 × `full`. -/
def luma (p : List Nat) : Nat := 2126 * p.getD 0 0 + 7152 * p.getD 1 0 + 722 * p.getD 2 0

/-- Y at 10 bits, limited range: 4 × (219 Y + 16) to the nearest, a half up. -/
def lumaCode (p : List Nat) : Nat := (2 * 876 * luma p + 129 * (10000 * full)) / (2 * (10000 * full))

/-- The mean of a colour difference over some pixels at 10 bits, limited range: 4 × (224 C + 128) to the nearest, a half up; `c`
is the component, and 2(1 − K) of BT.709 is `k` / 10,000. -/
def chromaCode (ps : List (List Nat)) (c k : Nat) : Nat :=
  let s : Int := (ps.map fun p => Int.ofNat (10000 * p.getD c 0) - Int.ofNat (luma p)).sum
  let d : Int := Int.ofNat (ps.length * k * full)
  ((2 * 896 * s + 1025 * d) / (2 * d)).toNat

/-- Cb and Cr of some pixels. -/
def cbCode (ps : List (List Nat)) : Nat := chromaCode ps 2 18556
def crCode (ps : List (List Nat)) : Nat := chromaCode ps 0 15748

/-! ### DisplayPort (R387, R391) -/

/-- Red, green and blue of each pixel at bpc bits, two bytes a component. -/
def linePixels (fmt bpc : Nat) (bs : List Byte) : List Byte :=
  (ringPixels fmt bs).flatMap fun p => p.flatMap fun c => leBytes 2 (atBits bpc c)

/-- The signal that a DisplayPort record asks for. -/
def dpSignal (b : List Byte) : DpSignal :=
  let f := fieldAt b
  ⟨f 1 1, f 2 1, f 3 1, f 4 2, f 6 2, f 8 2, f 0xA 2, f 0xC 2, f 0xE 2, (f 0x10 1).testBit 0, (f 0x10 1).testBit 1⟩

/-- A line period of a signal from the start of its horizontal sync: zeros, the active pixels, zeros. -/
def DpSignal.period (d : DpSignal) (active : List Byte) : List Byte :=
  let z (n : Nat) : List Byte := List.replicate (6 * n) 0
  z d.hStart ++ active ++ z (d.hTotal - d.hStart - active.length / 6)

/-- The level of the horizontal sync at pixel x of a line period, and of the vertical sync in line y from its start: the sync's
polarity for its width (R391). -/
def DpSignal.hLevel (d : DpSignal) (x : Nat) : Bool := if x % d.hTotal < d.hsw then d.hPos else !d.hPos
def DpSignal.vLevel (d : DpSignal) (y : Nat) : Bool := if y % d.vTotal < d.vsw then d.vPos else !d.vPos

/-! ### AV1 (R388, R392) -/

/-- A strip's lines as 10-bit 4:2:0 planes, two bytes a sample: Y, then Cb and Cr of each 2 × 2 block. -/
def planes420 (lines : List (Nat × List Byte)) : List Byte :=
  let rows := lines.map fun l => ringPixels l.1 l.2
  let width := (rows.map List.length).foldl max 0
  let block (y x : Nat) : List (List Nat) :=
    [(2 * y, 2 * x), (2 * y, 2 * x + 1), (2 * y + 1, 2 * x), (2 * y + 1, 2 * x + 1)].map fun a => (rows.getD a.1 []).getD a.2 []
  let chroma (f : List (List Nat) → Nat) : List Byte :=
    (List.range (rows.length / 2)).flatMap fun y => (List.range (width / 2)).flatMap fun x => leBytes 2 (f (block y x))
  (rows.flatMap fun r => r.flatMap fun p => leBytes 2 (lumaCode p)) ++ chroma cbCode ++ chroma crCode

/-- A length in groups of seven bits, the lowest first. -/
def leb128 : Nat → Nat → List Byte
  | 0, _ => []
  | k + 1, n => if n < 128 then [BitVec.ofNat 8 n] else BitVec.ofNat 8 (n % 128 + 128) :: leb128 k (n / 128)

/-- An OBU of a kind with its length (log entry 6). -/
def obu (kind : Nat) (bs : List Byte) : List Byte := BitVec.ofNat 8 (kind * 8 + 2) :: leb128 8 bs.length ++ bs

/-- The OBUs of the n-th temporal unit: a temporal delimiter, a sequence header before a key frame, a frame header, and one
tile group for each tile row. -/
def av1Unit (n quant : Nat) (key : Bool) (rows : List (List Byte)) : List Byte :=
  obu 2 [] ++ (if key then obu 1 (Config.av1Obu 1 n quant key 0 []) else []) ++ obu 3 (Config.av1Obu 3 n quant key 0 [])
    ++ (List.range rows.length).flatMap fun i => obu 4 (Config.av1Obu 4 n quant key i (rows.getD i []))

/-! ### ST 2110-20 (R389, R393) -/

/-- Bytes of a number, the highest first. -/
def beBytes (n v : Nat) : List Byte := (leBytes n v).reverse

/-- Octets and pixels of a pgroup, and bits of a pixel, by sampling. -/
def pgroup : Nat → Nat × Nat × Nat
  | 0 => (5, 2, 20) | 1 => (3, 1, 24) | _ => (15, 4, 30)

/-- The samples of a pgroup's pixels, in the order in which they are sent. -/
def pgSamples (sampling : Nat) (ps : List (List Nat)) : List (Nat × Nat) :=
  match sampling with
  | 0 => [cbCode ps, lumaCode (ps.getD 0 []), crCode ps, lumaCode (ps.getD 1 [])].map fun v => (10, v)
  | 1 => ps.flatMap fun p => p.map fun c => (8, atBits 8 c)
  | _ => ps.flatMap fun p => p.map fun c => (10, atBits 10 c)

/-- A pgroup's octets: its samples one after another, the highest bit first. -/
def pgBytes (sampling : Nat) (ps : List (List Nat)) : List Byte :=
  beBytes (pgroup sampling).1 ((pgSamples sampling ps).foldl (fun a x => a * 2 ^ x.1 + x.2) 0)

/-- A line's octets in a sampling. -/
def lineOctets (sampling fmt : Nat) (bs : List Byte) : List Byte :=
  let ps := ringPixels fmt bs
  let n := (pgroup sampling).2.1
  (List.range (ps.length / n)).flatMap fun i => pgBytes sampling ((ps.drop (i * n)).take n)

/-- The Internet checksum of bytes. -/
def inetSum (bs : List Byte) : Nat :=
  let s := ((List.range ((bs.length + 1) / 2)).map fun i => (bs.getD (2 * i) 0).toNat * 256 + (bs.getD (2 * i + 1) 0).toNat).sum
  let s := s % 65536 + s / 65536
  let s := s % 65536 + s / 65536
  65535 - s % 65536

/-- The RTP payload header and header of a packet of a line: 12 bytes, then the extended sequence number, the length, the line
and the offset of its first pixel (general packing mode; log entry 6). -/
def rtpPacket (b : List Byte) (seq : Nat) (stamp : Word) (line off : Nat) (marker : Bool) (data : List Byte) : List Byte :=
  beBytes 1 0x80 ++ beBytes 1 (fieldAt b 2 1 + (if marker then 128 else 0)) ++ beBytes 2 (seq % 65536) ++ beBytes 4 stamp.toNat
    ++ beBytes 4 (fieldAt b 4 4) ++ beBytes 2 (seq / 65536 % 65536) ++ beBytes 2 data.length ++ beBytes 2 line ++ beBytes 2 off ++ data

/-- UDP over IPv4 or IPv6 in an Ethernet frame, as a stream's record asks. -/
def rtpFrame (b payload : List Byte) : List Byte :=
  let f := fieldAt b
  let v6 := (f 1 1).testBit 0
  let raw (o n : Nat) : List Byte := (b.drop o).take n
  let alen := if v6 then 16 else 4
  let src := raw 0x18 alen
  let dst := raw 0x28 alen
  let len := 8 + payload.length
  let ports := beBytes 2 (f 0xA 2) ++ beBytes 2 (f 0xC 2) ++ beBytes 2 len
  let sum := inetSum (src ++ dst ++ beBytes 4 len ++ beBytes 4 17 ++ ports ++ [0, 0] ++ payload)
  let udp := ports ++ beBytes 2 (if sum = 0 then 65535 else sum) ++ payload
  let ip : List Byte :=
    if v6 then beBytes 4 (6 * 2 ^ 28 + f 3 1 * 2 ^ 22) ++ beBytes 2 len ++ beBytes 1 17 ++ raw 0x38 1 ++ src ++ dst
    else
      let head (sum : Nat) : List Byte := beBytes 1 0x45 ++ beBytes 1 (f 3 1 * 4) ++ beBytes 2 (20 + len) ++ beBytes 4 0x4000
        ++ raw 0x38 1 ++ beBytes 1 17 ++ beBytes 2 sum ++ src ++ dst
      head (inetSum (head 0))
  let tag : List Byte := if (f 1 1).testBit 3 then beBytes 2 0x8100 ++ beBytes 2 (f 8 2) else []
  raw 0x10 6 ++ beBytes 6 Config.mac.toNat ++ tag ++ beBytes 2 (if v6 then 0x86DD else 0x0800) ++ ip ++ udp

/-- The frames that carry a line, each with at most the record's payload, from a sequence number on; the last of a video frame
is marked. -/
def rtpFrames (b : List Byte) (seq : Nat) (stamp : Word) (line : Nat) (last : Bool) (octets : List Byte) : List (List Byte) :=
  let most := max 1 (fieldAt b 0xE 2)
  let pg := pgroup (bitsOf (fieldAt b 1 1) 1 2)
  let n := (octets.length + most - 1) / most
  (List.range n).map fun i =>
    rtpFrame b (rtpPacket b (seq + i) stamp line (i * most / pg.1 * pg.2.1) (last && i + 1 == n) ((octets.drop (i * most)).take most))

end Sys2Proof.Machine
end

