-- ==== Sys2Proof/Machine/Strip.lean ====
section
/-! DEFINITION. The strip scheduler and the consumers: deadlines, admission, density steps, commit, early starts, late
strips, tether rows, and what DisplayPort, AV1 and ST 2110-20 take (R369 to R393). -/

namespace Sys2Proof.Machine

/-! ### Deadlines (R370) -/

/-- The deadline of strip n of frame f. -/
def StreamCfg.tf (c : StreamCfg) (f n : Nat) : DWord :=
  c.epoch + BitVec.ofNat 64 (f * c.period + n * c.h * c.lp) - BitVec.ofNat 64 c.lead

/-- When active line l of frame f starts. -/
def StreamCfg.lineTime (c : StreamCfg) (f l : Nat) : DWord := c.epoch + BitVec.ofNat 64 (f * c.period + l * c.lp)

def Stream.histOf (x : Stream) (n : Nat) : Hist := (look x.hist n).getD ⟨none, none⟩
/-- The budget of strip n, between 0 and F. -/
def Stream.bs (x : Stream) (n : Nat) : Nat := min x.cfg.period ((x.histOf n).bs.getD x.cfg.binit)
/-- The start time of strip n of frame f. -/
def Stream.ts (x : Stream) (f n : Nat) : DWord := x.cfg.tf f n - BitVec.ofNat 64 (x.bs n) - BitVec.ofNat 64 x.cfg.slack

/-- a lies after b in device time. -/
def later (a b : DWord) : Bool := decide (0 < (a - b).toInt)
/-- The part's time is at or past t. -/
def State.atOrPast (s : State) (t : DWord) : Bool := !later t s.dtc

/-- The lowest frame whose strip 0 starts at or after now. -/
def Stream.firstFrame (x : Stream) (now : DWord) : Nat :=
  let late := (now - x.ts 0 0).toInt
  if late ≤ 0 then 0 else (late.toNat + x.cfg.period - 1) / x.cfg.period

/-! ### Streams and their chains -/

def State.stream? (s : State) (i : Nat) : Option Stream := (look s.streams i).filter fun x => !x.closing
def State.modStream (s : State) (i : Nat) (f : Stream → Stream) : State := { s with streams := change s.streams i f }

/-- The chains of a stream, oldest first. -/
def State.chainsOf (s : State) (i : Nat) : List (Nat × Chain) := s.chains.filter fun e => e.2.stream == i
def State.newestChain (s : State) (i : Nat) : Option (Nat × Chain) := (s.chainsOf i).getLast?

/-- The slot of the strip a stream creates next (R381). -/
def Stream.slotOf (x : Stream) : Nat := (x.frame * x.cfg.strips + x.next) % x.cfg.ns

/-- The chain that holds a slot of a stream; a committed one of consumer 3 gives it up where an admission needs it
(R386). -/
def State.slotHolder (s : State) (i slot : Nat) : Option (Nat × Chain) := s.slotChain (i, slot)

/-- A slot is free, or its holder gives it up to an admission. -/
def State.slotOpen (s : State) (i : Nat) (x : Stream) : Bool :=
  match s.slotHolder i x.slotOf with
  | none => true
  | some (_, c) => x.cfg.consumer == 3 && c.committed.isSome

/-- An admission takes the slot from its holder. -/
def State.takeSlot (s : State) (i : Nat) (x : Stream) : State :=
  match s.slotHolder i x.slotOf with
  | some (k, _) => s.modChain k fun c => { c with freed := true }
  | none => s

/-- The stream's next strip is the one after. -/
def Stream.pass (x : Stream) : Stream :=
  if x.next + 1 = x.cfg.strips then { x with frame := x.frame + 1, next := 0 } else { x with next := x.next + 1 }

/-- The bytes of a slot of the ring. -/
def State.slotBytes (s : State) (x : Stream) : Mem :=
  let b := x.cfg.ring + x.slotOf * x.cfg.slotBytes
  s.ring.filter fun e => b ≤ e.1 && decide (e.1 < b + x.cfg.slotBytes)

/-- The bytes a slot held before, in place of those it holds. -/
def restoreSlot (m old : Mem) (b n : Nat) : Mem :=
  old.foldl (fun m e => if b ≤ e.1 && decide (e.1 < b + n) then m.set e.1 e.2 else m)
    (m.filter fun e => decide (e.1 < b) || b + n ≤ e.1)

/-- The chain of the strip a stream creates next. -/
def State.nextChainOf (s : State) (i : Nat) (x : Stream) (cfg : StripCfg) : Chain where
  stream := i
  frame := x.frame
  strip := x.next
  tf := x.cfg.tf x.frame x.next
  ts := x.ts x.frame x.next
  admitted := false
  early := false
  at_ := 0
  d := (x.prevD.getD 0) - 1
  cfg := cfg
  gridId := 0
  cstage := 0
  recs := []
  dice := []
  seen := []
  heldFb := []
  heldErr := []
  given := 0
  checks := 0
  stage1End := 0
  slot := x.slotOf
  blocks := []
  upper := false
  lower := false
  scene := 0
  squash := false
  committed := none
  freed := false
  ended := false
  waits := false
  before := x.prevD
  disp := none
  judged := false
  fall := none
  took := []
  old := s.slotBytes x

def StripCfg.blank : StripCfg where
  spp := 1
  ttag := 0
  wt := 0
  ht := 0
  stage1 := 0
  stage2 := 0
  stage3 := 0
  ub := 0
  stab := 0
  ls := 0
  fi := 0
  bg := []
  gpt := 0
  gpn := 0
  dn := 0
  draws := 0
  fbr := 0
  sri := 0
  garea := 0
  gsize := 0
  asid := 0
  root := 0
  cp := 0

/-- A chain joins its stream, whose next strip follows. -/
def State.addChain (s : State) (i : Nat) (c : Chain) : State × Nat :=
  let k := s.nextChain
  let s : State := { s with chains := put s.chains k c, nextChain := k + 1 }
  (s.modStream i Stream.pass, k)

/-! ### Tether rows (R383 to R385) -/

/-- Row r of a chain's slot. -/
def State.rowAddr (s : State) (c : Chain) (r : Int) : Nat := s.rbase.getD 0 + s.slotBase c + (s.cfgOf c).rowAt r

/-- One row of a slot copied onto another. -/
def State.copyRow (s : State) (dst : Chain) (dr : Int) (src : Chain) (sr : Int) : State :=
  let cfg := s.cfgOf dst
  s.store (s.rowAddr dst dr) (s.physs (s.rowAddr src sr) (cfg.wt * cfg.bpp))

/-- The rows of a tether area. -/
def StreamCfg.tetherRows (c : StreamCfg) (lower : Bool) : List Int :=
  (List.range c.tr).map fun i => if lower then Int.ofNat (c.rowH + i) else Int.ofNat i - c.tr

/-- The V of a tile is set; an evicted workgroup gets it with its restored reservation (R384). -/
def WGrp.setV (g : WGrp) (i : Nat) : WGrp :=
  if g.core.isSome then g.modTag .a i fun t => { t with v := true } else { g with owedV := i :: g.owedV }

/-- An area becomes valid: its tile's V is set in every stage-3 workgroup (R384). One that is valid stays so. -/
def State.setValid (s : State) (k : Nat) (lower : Bool) : State :=
  match look s.chains k with
  | none => s
  | some c =>
    if (if lower then c.lower else c.upper) then s
    else
      let s := s.modChain k fun c => if lower then { c with lower := true } else { c with upper := true }
      { s with wgs := s.wgs.map fun e =>
          let r := s.grid e.2.grid
          if r.chain == some k && r.cstage == 3 && !e.2.ended then (e.1, e.2.setV (c.cfg.ttag + lower.toNat)) else e }

/-- An area filled with copies of one row of its own strip. -/
def State.ownFill (s : State) (k : Nat) (c : Chain) (lower : Bool) (row : Int) : State :=
  (((s.cfgOf c).tetherRows lower).foldl (fun s r => s.copyRow c r c row) s).setValid k lower

/-- At admission the outer area of the first and of the last strip takes the strip's own row (R383). -/
def State.outerFill (s : State) (k : Nat) : State :=
  match look s.chains k with
  | none => s
  | some c =>
    let cfg := s.cfgOf c
    if !cfg.hasRender then s
    else
      let s := if c.strip = 0 then s.ownFill k c false 0 else s
      if c.strip + 1 = cfg.strips then s.ownFill k c true (Int.ofNat (cfg.rows c.strip) - 1) else s

/-- Whether a side of a strip is an end of its frame. -/
def State.frameEnd (s : State) (c : Chain) (lower : Bool) : Bool :=
  if lower then c.strip + 1 == (s.cfgOf c).strips else c.strip == 0

/-- The neighbour whose rows an area takes: the confirmed strip before or after, of the frame before or after at a frame's end
(R383, log entry 35). -/
def State.neighbour (s : State) (c : Chain) (lower : Bool) : Option Chain :=
  let n := (s.cfgOf c).strips
  let at_ (e : Chain) : Nat := e.frame * n + e.strip
  (s.chains.find? fun e => e.2.stream == c.stream && e.2.admitted && !e.2.freed
    && (if lower then at_ e.2 == at_ c + 1 else at_ e.2 + 1 == at_ c)).map (·.2)

/-- The neighbour's rows are complete: its first band, or its last (R383). -/
def Chain.ready (c : Chain) (cfg : StreamCfg) (lower : Bool) : Bool :=
  c.bandDone cfg (if lower then 0 else cfg.rows c.strip / 4 - 1)

/-- A chain whose area takes its neighbour's rows now: before Tf − UB, and once; an area that is valid only where it was filled at
a frame's end (R383, R385). -/
def State.mayCopy (s : State) (c : Chain) (lower : Bool) : Option Chain :=
  let valid := if lower then c.lower else c.upper
  if c.admitted && c.runs && (s.cfgOf c).hasRender && !c.took.contains lower && (!valid || s.frameEnd c lower)
      && !s.atOrPast (c.tf - BitVec.ofNat 64 c.cfg.ub) then
    (s.neighbour c lower).filter fun n => n.ready (s.cfgOf c) lower
  else none

def execTetherCopy (stream strip : Nat) (lower : Bool) : State → Res :=
  event fun s =>
    ((s.chainsOf stream).findSome? fun e => if e.2.strip = strip then (s.mayCopy e.2 lower).map fun n => (e.1, e.2, n) else none).map
      fun (k, c, n) =>
        let cfg := s.cfgOf c
        let first : Int := if lower then 0 else Int.ofNat (cfg.rows n.strip) - cfg.tr
        (((cfg.tetherRows lower).zip (List.range cfg.tr)).foldl (fun s x => s.copyRow c x.1 n (first + x.2)) s).setValid k lower
          |>.modChain k fun c => { c with took := lower :: c.took }

/-- What a record of a strip says: launch unit, stream, frame and strip (R409). -/
def Chain.info (c : Chain) (addr : Nat) : RecInfo :=
  { RecInfo.blank with addr := BitVec.ofNat 64 addr, kind := 4, grid := c.gridId
                       detail := c.stream % 64 + c.frame % 2 ^ 14 * 64 + c.strip % 2 ^ 12 * 2 ^ 20 }

def execHaloSubstituted (stream : Nat) (lower : Bool) : State → Res :=
  event fun s =>
    ((s.chainsOf stream).find? fun e =>
      e.2.admitted && e.2.runs && (s.cfgOf e.2).hasRender && !(if lower then e.2.lower else e.2.upper)
        && s.atOrPast (e.2.tf - BitVec.ofNat 64 e.2.cfg.ub)).map fun (k, c) =>
      (s.ownFill k c lower (if lower then Int.ofNat (s.cfgOf c).rowH - 1 else 0)).record 0x21 (c.info lower.toNat)

/-! ### Admission (R373, R376) -/

/-- The strip a stream creates next is due: its start time has come, its deadline has not, its slot can be had, and
every earlier chain of the stream is admitted or over. -/
def State.admissible (s : State) (i : Nat) (x : Stream) : Bool :=
  x.strip.isSome && s.atOrPast (x.ts x.frame x.next) && !s.atOrPast (x.cfg.tf x.frame x.next) && s.slotOpen i x
    && ((s.newestChain i).all fun e => e.2.admitted || e.2.ended)

/-- The strip a stream creates next is admitted. -/
def State.admitChain (s : State) (i : Nat) : State :=
  match s.stream? i with
  | none => s
  | some x =>
    let s := s.takeSlot i x
    let c := { s.nextChainOf i x (x.strip.getD StripCfg.blank) with admitted := true, at_ := s.dtc, old := [] }
    let r := s.addChain i c
    let s := r.1.modStream i fun x => { x with prevD := some c.d }
    (s.outerFill r.2).launchStage r.2 1

def execChainAdmission (stream : Nat) : State → Res :=
  event fun s => (s.stream? stream).bind fun x => if s.admissible stream x then some (s.admitChain stream) else none

/-! ### Density steps (R375, R376) -/

/-- A checkpoint's prediction is past the limit. -/
def State.predictsLate (s : State) (cfg : StreamCfg) (c : Chain) (gp rb g : Nat) : Bool :=
  let since := (s.dtc - c.at_).toNat
  later (s.dtc + BitVec.ofNat 64 ((gp - g) * since / g + rb)) (c.tf - BitVec.ofNat 64 cfg.guardT)

def execDensityCheckpoint (stream : Nat) : State → Res :=
  event fun s =>
    ((s.chainsOf stream).find? fun e => e.2.runs && (s.checkDue e.2).isSome).bind fun (k, c) =>
      match (look s.streams stream).bind fun x => (x.histOf c.strip).com with
      | none => none
      | some (gp, rb) =>
        let d := if s.predictsLate (s.cfgOf c) c gp rb c.given then min 4 (c.d + 1) else c.d
        let s := s.modChain k fun c => { c with d := d, checks := c.checks + 1 }
        some (if (s.newestChain stream).any (·.1 == k) then s.modStream stream fun x => { x with prevD := some d } else s)

/-! ### Commit and late strips (R374, R377) -/

/-- The last line of a strip's final area. -/
def State.lastLineOf (s : State) (c : Chain) : List Byte :=
  let cfg := s.cfgOf c
  let l := min cfg.va ((c.strip + 1) * cfg.h) - 1 - c.strip * cfg.h
  s.physs (s.rbase.getD 0 + s.slotBase c + l * cfg.pf) (cfg.wo * cfg.bpp)

def execChainCommit (stream : Nat) : State → Res :=
  event fun s =>
    ((s.chainsOf stream).find? fun e => e.2.runs && e.2.admitted && e.2.cstage == 4 && !later s.dtc e.2.tf).map fun (k, c) =>
      let com := (c.given, (s.dtc - c.stage1End).toNat)
      let h : Hist := ⟨c.disp.map fun t => (s.dtc - t).toNat, some com⟩
      let s := s.modStream stream fun x => { x with hist := put x.hist c.strip h, lastLine := s.lastLineOf c, hasLast := true }
      s.modChain k fun c => { c with committed := some s.dtc }

/-- Counts kept apart on a stream's cores enter their counters, or are dropped. -/
def State.settlePerf (s : State) (x : Stream) (keep : Bool) : State :=
  x.cores.foldl (fun s k => s.modCore k fun c => { c with perf := c.perf.map fun p =>
    { p with value := if keep then p.value + p.squashed else p.value, squashed := 0 } }) s

/-- The counts kept apart for a chain that ends without being confirmed are dropped (R255). -/
def State.dropPerf (s : State) (i : Nat) (c : Chain) : State :=
  match s.stream? i with
  | some x => if c.early && !c.admitted then s.settlePerf x false else s
  | none => s

/-- A strip's chain is abandoned at its deadline. -/
def State.abandon (s : State) (i k : Nat) (c : Chain) : State :=
  let s := s.record 0x20 (c.info c.d)
  let s := s.dropPerf i c
  let s := if c.at_ = 0 then s else
    s.modStream i fun x => { x with hist := put x.hist c.strip { x.histOf c.strip with bs := some (s.dtc - c.at_).toNat } }
  let s := s.modChain k fun c => { c with
    ended := true, freed := true, waits := false, heldErr := [], heldFb := if c.admitted then c.heldFb else []
    dice := c.dice.map fun e => (e.1, { e.2 with ready := [] }) }
  if c.gridId = 0 then s else s.endGrid c.gridId

def execStripLate (stream : Nat) : State → Res :=
  event fun s =>
    (s.stream? stream).bind fun x =>
      match (s.chainsOf stream).find? fun e => e.2.runs && s.atOrPast e.2.tf with
      | some (k, c) => some (s.abandon stream k c)
      | none =>
        if s.atOrPast (x.cfg.tf x.frame x.next) then
          let c := { s.nextChainOf stream x (x.strip.getD StripCfg.blank) with d := 0, old := [], freed := true, ended := true }
          let r := s.addChain stream c
          some (r.1.record 0x20 (c.info 0))
        else none

/-! ### Early start (R378, R379) -/

/-- The strip scheduler's tasks: a stream's early start, the reads and writes for its encoder, a chain's confirmation. -/
def earlyWho (stream : Nat) : Who := Who.of .strips stream
def qovrWho (stream : Nat) : Who := Who.of .strips (64 + stream)
def obuWho (stream : Nat) : Who := Who.of .strips (128 + stream)
def confirmWho (k : Nat) : Who := Who.of .strips (256 + k)

/-- The scene-generation word of a stream, as a .cg load; none where it cannot be read. -/
def State.sceneWord (s : State) (w : Who) (cfg : StreamCfg) : Rd (Option DWord) := do
  match ← s.ownRead w cfg.asid cfg.root cfg.scene.toNat 8 with
  | .ok bs => .ok (some (BitVec.ofNat 64 (leNat bs)))
  | .error _ => .ok none

def execChainEarlyStart (stream : Nat) : State → Res :=
  event fun s =>
    (s.stream? stream).bind fun x =>
      let idle := x.cores.all fun k => (s.core k).waves.isEmpty
      if x.strip.isSome && x.cfg.scene != 0 && idle && (s.slotHolder stream x.slotOf).isNone && !s.atOrPast (x.ts x.frame x.next)
          && ((s.newestChain stream).all fun e => e.2.admitted || e.2.ended) then
        s.unitStep (earlyWho stream) ((s.sceneWord (earlyWho stream) x.cfg).map fun o => o.map fun w =>
          let c := { s.nextChainOf stream x (x.strip.getD StripCfg.blank) with early := true, scene := w }
          let r := s.addChain stream c
          (r.1.modStream stream fun x => { x with prevD := some c.d }).launchStage r.2 1)
      else none

/-- Held splits go on from their instruction. -/
def Wave.confirmed (w : Wave) : Wave :=
  { w with prio := 7, splits := w.splits.map fun p => if p.status == Status.waiting Wait.confirm then { p with status := .running } else p }

/-- What a core's matrix queue and copy engine hold for a grid's waves takes priority 7 with them (R277). -/
def Core.raisePrio (k : Core) (gid : Nat) : Core :=
  let up (r : CopyReq) : CopyReq := if r.grid = gid then { r with prio := 7 } else r
  { k with
    mq := k.mq.map fun e => if (k.waves.any fun w => w.1 == e.ctx && w.2.grid == gid) then { e with prio := 7 } else e
    copyIn := k.copyIn.map up
    copyRun := k.copyRun.map up }

/-- A grid takes priority 7 with its waves, those saved among them, and with the engines' work for them. -/
def State.raisePrio (s : State) (gid : Nat) : State :=
  let s := s.modGrid gid fun r => { r with d := { r.d with prio := 7 } }
  let s : State := { s with cores := s.cores.map fun c => (c.1, c.2.raisePrio gid) }
  let s := (s.contexts fun w => w.grid == gid).foldl (fun s c => s.modWave c.1 c.2 Wave.confirmed) s
  (s.saved.filter fun x => x.grid == gid).foldl
    (fun s x => { s with saved := s.saved.map fun y => if y = x then { y with prio := 7 } else y }.store (x.addr + 9) [7]) s

/-- A held trap is raised; a second one of a wave issues again after the first one's handler (R247, R379). -/
def State.raiseHeld (s : State) (c : Cursor) : State :=
  match ((s.wave? c.core c.ctx).bind fun w => w.split? c.split).map Split.status with
  | some (.waiting (.held t pc slot)) =>
    if (s.wave c.core c.ctx).handler.isSome then
      s.modWave c.core c.ctx fun w => w.modSplit c.split fun p => { p with status := .running }
    else s.raiseAt c.core c.ctx c.split t ⟨pc, slot⟩
  | _ => s

/-- The traps that a grid's splits hold, raised in the order of core, context and split. -/
def State.raiseAllHeld (s : State) (gid : Nat) : State :=
  ((s.contexts fun w => w.grid == gid).flatMap fun c => [0, 1, 2, 3].map fun i => Cursor.mk c.1 c.2 i).foldl State.raiseHeld s

/-- The chain is confirmed: an admitted chain from now on, whose held feedback its dicer sends. -/
def State.confirm (s : State) (k : Nat) (x : Stream) (c : Chain) : State :=
  let s := s.modChain k fun c => { c with admitted := true, heldErr := [] }
  let s := if c.gridId = 0 then s else s.raisePrio c.gridId
  let s := c.heldErr.foldl (fun s e => s.record e.1 e.2) s
  let s := (s.settlePerf x true).outerFill k
  let s := if c.gridId = 0 then s else s.raiseAllHeld c.gridId
  s.clearCores k

/-- The present d of the chain before one of a stream (R376). -/
def State.presentD (s : State) (i k : Nat) (c : Chain) : Option Nat :=
  match ((s.chainsOf i).filter fun e => decide (e.1 < k) && !e.2.squash && (e.2.admitted || e.2.early)).getLast? with
  | some e => some e.2.d
  | none => c.before

/-- The chain is squashed: its grids end without records, its slot reads as before it, and a new chain is admitted. -/
def State.squash (s : State) (i k : Nat) (x : Stream) (c : Chain) : State :=
  let s := s.modChain k fun c => { c with squash := true, ended := true, freed := true, waits := false, heldErr := [], heldFb := [] }
  let s := if c.gridId = 0 then s else s.endGrid c.gridId
  let s := s.settlePerf x false
  let s : State := { s with ring := restoreSlot s.ring c.old (x.cfg.ring + c.slot * x.cfg.slotBytes) x.cfg.slotBytes }
  let s := s.modStream i fun x => { x with squashes := x.squashes + 1, prevD := s.presentD i k c, frame := c.frame, next := c.strip }
  s.admitChain i

def execChainConfirmOrSquash (stream : Nat) : State → Res :=
  event fun s =>
    (s.stream? stream).bind fun x =>
      match (s.chainsOf stream).find? fun e => e.2.early && !e.2.admitted && e.2.runs && s.atOrPast e.2.ts with
      | none => none
      | some (k, c) =>
        s.unitStep (confirmWho k) ((s.sceneWord (confirmWho k) x.cfg).map fun w =>
          some (if w == some c.scene then s.confirm k x c else s.squash stream k x c))

/-! ### Consumers (R386) -/

/-- A strip judged: the line its consumer repeats where it is not committed. -/
def State.judge (s : State) (k : Nat) (x : Stream) : State :=
  s.modChain k fun c => { c with judged := true, fall := if x.hasLast && !x.cfg.colourFallback then some x.lastLine else none }

/-- A line of fallback: its pixel format and bytes. -/
def Stream.fallLine (x : Stream) (f : Option (List Byte)) : Nat × List Byte :=
  match f with
  | some bs => (x.cfg.fmt, bs)
  | none => (0, (List.replicate x.cfg.wo (leBytes 4 x.cfg.colour.toNat)).flatten)

/-- Line l of frame f as a stream's consumer reads it. -/
def State.lineFor (s : State) (i : Nat) (x : Stream) (f l : Nat) : Option (Nat × List Byte) :=
  if x.closing then some (x.fallLine none)
  else ((s.chainsOf i).find? fun e => e.2.frame == f && e.2.strip == l / x.cfg.h && e.2.judged).map fun e =>
    if e.2.committed.isSome then
      (x.cfg.fmt, s.physs (s.rbase.getD 0 + s.slotBase e.2 + (l % x.cfg.h) * x.cfg.pf) (x.cfg.wo * x.cfg.bpp))
    else x.fallLine e.2.fall

/-- The slot of a strip is freed once its last line is read. -/
def State.freeStrip (s : State) (i f n : Nat) : State :=
  match (s.chainsOf i).find? fun e => e.2.frame == f && e.2.strip == n && !e.2.freed && e.2.committed.isSome with
  | some (k, _) => s.modChain k fun c => { c with freed := true }
  | none => s

/-- The consumer has taken a line: the next of its frame, or the first of the next frame, or the end of a stream that
was disabled (R368). -/
def State.lineTaken (s : State) (i : Nat) (x : Stream) : State :=
  let last := x.line + 1 == x.cfg.va
  let s := if last || (x.line + 1) % x.cfg.h == 0 then s.freeStrip i x.cframe (x.line / x.cfg.h) else s
  if last then
    if x.closing then { s with streams := erase s.streams i } else s.modStream i fun x => { x with line := 0, cframe := x.cframe + 1 }
  else s.modStream i fun x => { x with line := x.line + 1 }

/-- A strip's lines as the encoder takes them: in 10-bit 4:2:0 planes (R388). -/
def State.stripSource (s : State) (i : Nat) (x : Stream) (f n : Nat) : List Byte :=
  planes420 ((List.range (min x.cfg.va ((n + 1) * x.cfg.h) - n * x.cfg.h)).filterMap fun j => s.lineFor i x f (n * x.cfg.h + j))

def Stream.av1 (x : Stream) : Bool := x.cfg.consumer == 1
def Stream.qovrAt (x : Stream) : Nat := fieldAt x.cfg.recBytes 0x20 8

/-- The encoder takes strip n of its frame: its source lines join the frame, and its slot is free (log entry 36). -/
def State.encodeStrip (s : State) (i : Nat) (x : Stream) : State :=
  let src := s.stripSource i x x.cframe x.line
  (s.freeStrip i x.cframe x.line).modStream i fun x => { x with src := x.src ++ [src], line := x.line + 1 }

/-- At Tf the oldest strip not yet judged is taken, committed or late; a disabled AV1 stream takes fallback strips. -/
def execStripConsume (stream : Nat) : State → Res :=
  event fun s =>
    (look s.streams stream).bind fun x =>
      let encoder := !x.av1 || (decide (x.line < x.cfg.strips) && (decide (0 < x.line) || x.closing || x.qovrAt == 0 || x.qovr.isSome))
      if !encoder then none
      else if x.closing then
        if x.av1 && s.atOrPast (x.cfg.tf x.cframe x.line) then some (s.encodeStrip stream x) else none
      else match (s.chainsOf stream).find? fun e => !e.2.judged && !e.2.squash with
        | some (k, c) =>
          if s.atOrPast c.tf && (c.committed.isSome || c.ended) then
            let s := s.judge k x
            some (if x.av1 then s.encodeStrip stream x else s)
          else none
        | none => none

/-! ### Lines to a display or to the network (R387, R389) -/

/-- A stream's next line may be read: for a display during the line period that ends at its time (R387), for the network from
its time on (R389). -/
def State.lineDue (s : State) (i consumer : Nat) : Option (Stream × Nat × List Byte) :=
  (look s.streams i).bind fun x =>
    let from_ := x.cfg.lineTime x.cframe x.line - BitVec.ofNat 64 (if consumer = 0 then x.cfg.lp else 0)
    if x.cfg.consumer == consumer && s.atOrPast from_ then (s.lineFor i x x.cframe x.line).map fun r => (x, r.1, r.2) else none

def execDisplayportLine (stream : Nat) : State → Res :=
  event fun s =>
    (s.lineDue stream 0).map fun (x, fmt, bs) =>
      let sig := dpSignal x.cfg.recBytes
      let blank := if x.line + 1 = x.cfg.va then sig.vTotal - x.cfg.va else 0
      let s : State := { s with
        out := s.out ++ [.display x.cfg.unit x.line sig (sig.period (linePixels fmt sig.bpc bs)) blank (x.cfg.lineTime x.cframe x.line)] }
      s.lineTaken stream x

/-- The RTP time of a frame: 90 kHz from its DTC value. -/
def rtpTime (t : DWord) : Word := BitVec.ofNat 32 (t.toNat * 90000 / (65536 * 1000000000))

def execSt2110LineSend (stream : Nat) : State → Res :=
  event fun s =>
    (s.lineDue stream 2).map fun (x, fmt, bs) =>
      let b := x.cfg.recBytes
      let stamp := rtpTime (x.cfg.lineTime x.cframe 0)
      let frames := rtpFrames b x.rtpSeq stamp x.line (x.line + 1 == x.cfg.va) (lineOctets (bitsOf (fieldAt b 1 1) 1 2) fmt bs)
      let s := (s.emit (.rtp stream x.line stamp frames (x.cfg.lineTime x.cframe x.line))).modStream stream fun x =>
        { x with rtpSeq := (x.rtpSeq + frames.length) % 2 ^ 32 }
      s.lineTaken stream x

/-! ### AV1 (R388, R392) -/

def av1Rec (addr : Nat) : RecInfo := { RecInfo.blank with addr := BitVec.ofNat 64 addr, kind := 4, virt := true }

/-- The record of a read or a write for an AV1 stream that a page's fault or an uncorrectable error stops. -/
def State.av1Fault (s : State) (addr : Nat) (e : Nat × Bool) : State :=
  if e.1 = kindBad then s.record tcData { av1Rec addr with unc := true }
  else s.record tcTranslation { av1Rec addr with detail := markOf e.1 e.2 }

def execAv1QovrRead (stream : Nat) : State → Res :=
  event fun s =>
    (look s.streams stream).bind fun x =>
      if x.av1 && !x.closing && x.line == 0 && x.qovrAt != 0 && x.qovr.isNone && s.atOrPast (x.cfg.tf x.cframe 0) then
        let set (s : State) (w : Word) : State := s.modStream stream fun x => { x with qovr := some w }
        s.unitStep (qovrWho stream) ((s.ownRead (qovrWho stream) x.cfg.asid x.cfg.root x.qovrAt 4).map fun r => some (match r with
          | .error e => set (s.av1Fault x.qovrAt e) 0
          | .ok bs =>
            let w := BitVec.ofNat 32 (leNat bs)
            if w.extractLsb' 10 22 != 0 || (w.getLsbD 8 && w.extractLsb' 0 8 == 0) then set (s.record tcEncoding (av1Rec x.qovrAt)) 0
            else set s w))
      else none

/-- Whether the frame is a key frame, and its base_q_idx. -/
def Stream.key (x : Stream) : Bool :=
  x.keyNext || decide (fieldAt x.cfg.recBytes 2 2 ≤ x.keyAge) || (x.qovr.getD 0).getLsbD 9
def Stream.quant (x : Stream) : Nat :=
  let w := x.qovr.getD 0
  if w.getLsbD 8 then (w.extractLsb' 0 8).toNat else fieldAt x.cfg.recBytes (if x.key then 4 else 5) 1

/-- Bytes for a virtual range of an AV1 stream, part by part; or the fault that stops them. -/
def State.obuPut (s : State) (i : Nat) (cfg : StreamCfg) (for_ : AskFor) (va : Nat) (bs : List Byte) :
    Rd (Except (Nat × Bool) (State → State)) :=
  (State.writeVia (s.ownWalk (obuWho i) cfg.asid cfg.root) va bs.length).map fun r =>
    r.map fun ps s => s.postPieces (obuWho i) for_ ps bs

/-- A word of the header of an AV1 stream's ring, which is left where its page may not be written. -/
def State.hdrPut (s : State) (i : Nat) (cfg : StreamCfg) (off v : Nat) : Rd (State → State) := do
  match ← s.obuPut i cfg .none (fieldAt cfg.recBytes 0x18 8 + off) (leBytes 4 v) with
  | .ok f => .ok f
  | .error _ => .ok id

/-- Bytes of a ring from an offset on, in two pieces where they pass its end. -/
def State.unitPut (s : State) (i : Nat) (cfg : StreamCfg) (base size off : Nat) (bs : List Byte) :
    Rd (Except (Nat × Bool) (State → State)) := do
  let n := min bs.length (size - off % size)
  match ← s.obuPut i cfg (.obu i) (base + off % size) (bs.take n), ← s.obuPut i cfg (.obu i) base (bs.drop n) with
  | .ok f, .ok g => .ok (.ok fun s => g (f s))
  | .error e, _ => .ok (.error e)
  | _, .error e => .ok (.error e)

/-- The unit of a frame is over: its key-frame count rises; a unit that is not written asks for a key frame next. -/
def State.unitOver (s : State) (i : Nat) (key drop : Bool) : State :=
  s.modStream i fun x => { x with keyNext := drop, keyAge := if key then 1 else x.keyAge + 1 }

/-- The frame's unit goes on its way to the ring, or is dropped and counted. -/
def State.writeUnit (s : State) (i : Nat) (x : Stream) : Rd State := do
  let cfg := x.cfg
  let fld := fieldAt cfg.recBytes
  let base := fld 8 8
  let size := fld 0x10 4
  let hdr := fld 0x18 8
  let bs := av1Unit s.free x.quant x.key x.src
  let unit := leBytes 4 bs.length ++ bs ++ List.replicate ((4 - bs.length % 4) % 4) 0
  match ← s.ownRead (obuWho i) cfg.asid cfg.root hdr 64 with
  | .error e => .ok ((s.av1Fault hdr e).unitOver i x.key true)
  | .ok h =>
    let wr := leNat (h.take 4)
    let rd := leNat ((h.drop 4).take 4)
    let room : Int := Int.ofNat size - Int.ofNat ((wr + 2 ^ 32 - rd) % 2 ^ 32)
    let drop ← s.hdrPut i cfg 8 (leNat ((h.drop 8).take 4) + 1)
    if (Int.ofNat unit.length) ≤ room then
      match ← s.unitPut i cfg base size wr unit with
      | .error e => .ok ((drop (s.av1Fault base e)).unitOver i x.key true)
      | .ok put => .ok (put ((s.unitOver i x.key false).modStream i fun x => { x with obu := some ((wr + unit.length) % 2 ^ 32, s.dtc) }))
    else .ok ((drop s).unitOver i x.key true)

/-- A stream that was disabled is gone once its encoder has nothing left to do. -/
def State.encoderGone (s : State) (i : Nat) : State :=
  match look s.streams i with
  | some x => if x.closing && x.line == x.cfg.strips && x.obu.isNone then { s with streams := erase s.streams i } else s
  | none => s

/-- Once a frame's last strip is encoded its unit is written; once its bytes are performed and their completion times have come
the write offset rises. -/
def execAv1FrameEncode (stream : Nat) : State → Res :=
  event fun s =>
    (look s.streams stream).bind fun x =>
      match x.obu with
      | some (wr, t) =>
        if s.atOrPast t && !(s.asks.any fun a => a.for_ == .obu stream) then
          s.unitStep (obuWho stream) ((s.hdrPut stream x.cfg 0 wr).map fun put =>
            some ((put (s.modStream stream fun x => { x with obu := none })).encoderGone stream))
        else none
      | none =>
        if x.av1 && x.line == x.cfg.strips then
          let next (s : State) : State := s.modStream stream fun x => { x with line := 0, cframe := x.cframe + 1, src := [], qovr := none }
          s.unitStep (obuWho stream) ((s.writeUnit stream x).map fun s => some (if x.closing then s.encoderGone stream else next s))
        else none

end Sys2Proof.Machine
end

