-- ==== Sys2Proof/Machine/StreamSetup.lean ====
section
/-! DEFINITION. STREAMCFG and STRIPCFG: the fields of streams, consumer records and chain set-ups, and what refuses them
(R367, R368, R371, R390 to R393). -/

namespace Sys2Proof.Machine

/-! ### STREAMCFG (R367, R368) -/

/-- The fields of a STREAMCFG body, for a queue's address space. -/
def streamCfgOf (b : List Byte) (asid root : Nat) : StreamCfg where
  consumer := bitsOf (fieldAt b 1 1) 1 2
  unit := bitsOf (fieldAt b 1 1) 3 3
  fmt := bitsOf (fieldAt b 2 1) 0 2
  colourFallback := (fieldAt b 2 1).testBit 2
  h := fieldAt b 3 1
  va := fieldAt b 4 2
  wo := fieldAt b 6 2
  uf := fieldAt b 8 1
  tr := fieldAt b 9 1
  ns := fieldAt b 10 1
  lp := fieldAt b 0x0C 4
  epoch := dwordOf b 0x10
  period := fieldAt b 0x18 8
  lead := fieldAt b 0x20 8
  slack := fieldAt b 0x28 8
  guardT := fieldAt b 0x30 8
  binit := fieldAt b 0x38 8
  ring := fieldAt b 0x40 4
  colour := BitVec.ofNat 32 (fieldAt b 0x44 4)
  scene := dwordOf b 0x48
  clusters := BitVec.ofNat 128 (fieldAt b 0x50 16)
  recAddr := dwordOf b 0x60
  recBytes := []
  asid := asid
  root := root

/-- The zero fields of a body. -/
def streamZeros (b : List Byte) : Bool :=
  fieldAt b 1 1 < 64 && fieldAt b 2 1 < 8 && fieldAt b 0x0B 1 == 0 && fieldAt b 0x68 24 == 0

/-- Every field in its range; zero lines or columns are out of range (log entry 35). -/
def StreamCfg.ranges (c : StreamCfg) : Bool :=
  (match c.consumer with
    | 0 => decide (c.unit < 4)
    | 1 => true
    | _ => c.unit == 0)
    && decide (c.fmt < 3) && decide (8 ≤ c.h ∧ c.h ≤ 64) && c.h % 4 == 0 && (c.consumer != 1 || c.h == 64)
    && (c.uf == 1 || (c.uf == 2 && c.h % 8 == 0)) && decide (0 < c.va) && c.va % (4 * c.uf) == 0
    && decide (c.va ≤ 16384 * c.uf) && decide (0 < c.wo) && c.wo % c.uf == 0 && decide (c.wo ≤ 16384 * c.uf) && [0, 1, 2, 4].contains c.tr
    && decide (2 ≤ c.ns ∧ c.ns ≤ 8) && decide (0 < c.lp) && decide (c.va * c.lp ≤ c.period)
    && ((c.consumer != 0 && c.consumer != 2) || decide (c.lp ≤ c.lead)) && decide (c.binit ≤ c.period)
    && c.ring % 4096 == 0 && c.scene.toNat % 8 == 0 && c.recAddr.toNat % 64 == 0 && (c.consumer != 3 || c.recAddr == 0)

/-- The enabled streams. -/
def State.enabled (s : State) : List (Nat × Stream) := s.streams.filter fun e => !e.2.closing

/-- Clusters, ring range and unit collide with no enabled stream. -/
def State.roomFor (s : State) (c : StreamCfg) : Bool :=
  let size := c.ns * c.slotBytes
  c.clusters != 0 && decide (c.ring + size ≤ 96 * 2 ^ 20)
    && (s.enabled.all fun e =>
      let o := e.2.cfg
      (o.clusters &&& c.clusters) == 0 && (decide (c.ring + size ≤ o.ring) || decide (o.ring + o.ns * o.slotBytes ≤ c.ring))
        && !(c.consumer == 0 && o.consumer == 0 && o.unit == c.unit))
    && (c.consumer != 1 || decide ((s.enabled.filter fun e => e.2.cfg.consumer == 1 && e.2.cfg.unit == c.unit).length < 3))

/-- The strip ring, the clusters and the consumer's unit are ready (R412). -/
def State.unitsReady (s : State) (c : StreamCfg) : Bool :=
  s.rbase.isSome && s.ready.getLsbD 4 && (c.clusterList.all fun k => s.ready.getLsbD (64 + k))
    && (match c.consumer with
      | 0 => s.ready.getLsbD (16 + c.unit)
      | 1 => s.ready.getLsbD (20 + c.unit)
      | 2 => s.ready.getLsbD 5
      | _ => true)

/-! ### Consumer records (R390 to R393) -/

/-- Link rates in 10 Mbit/s a lane, by code. -/
def linkRate : Nat → Nat
  | 0 => 162 | 1 => 270 | 2 => 540 | 3 => 810 | 4 => 1000 | 5 => 1350 | _ => 2000

/-- R391: the record of a DisplayPort stream. -/
def StreamCfg.dpOk (c : StreamCfg) (b : List Byte) : Bool :=
  let f := fieldAt b
  let rate := f 1 1
  let lanes := f 2 1
  let bpc := f 3 1
  let ht := f 4 2
  let hs := f 6 2
  let hw := f 8 2
  let vt := f 0xA 2
  let vs := f 0xC 2
  let vw := f 0xE 2
  let range (n : Nat) : Bool := decide (1 ≤ n ∧ n ≤ 32767)
  let e : Nat × Nat := if rate ≤ 3 then (8, 10) else (128, 132)
  f 0 1 == 1 && decide (rate ≤ 6) && [1, 2, 4].contains lanes && [8, 10].contains bpc
    && [ht, hs, hw, vt, vs, vw].all range && decide (f 0x10 1 < 4) && f 0x11 111 == 0
    && decide (hw < hs) && decide (hs + c.wo ≤ ht) && decide (vw < vs) && decide (vs + c.va ≤ vt)
    && vt * c.lp == c.period
    && decide (ht * 65536 * 3 * bpc * 100 * e.2 ≤ lanes * linkRate rate * e.1 * c.lp)

/-- A sum of fractions. -/
def addFrac (a b : Nat × Nat) : Nat × Nat := (a.1 * b.2 + b.1 * a.2, a.2 * b.2)

/-- Pixels per ns of an AV1 stream. -/
def StreamCfg.pixelRate (c : StreamCfg) : Nat × Nat := (c.wo * c.va * 65536, c.period)

/-- R392: the record of an AV1 stream, beside the streams already on its engine. -/
def State.av1Ok (s : State) (c : StreamCfg) (b : List Byte) : Bool :=
  let f := fieldAt b
  let size := f 0x10 4
  let others := (s.enabled.filter fun e => e.2.cfg.consumer == 1 && e.2.cfg.unit == c.unit).map (·.2.cfg.pixelRate)
  let sum := others.foldl addFrac c.pixelRate
  f 0 1 == 2 && f 1 1 == 0 && decide (1 ≤ f 2 2) && decide (1 ≤ f 4 1) && decide (1 ≤ f 5 1) && f 6 2 == 0
    && f 8 8 % 4096 == 0 && ((List.range 15).any fun i => size == 2 ^ (16 + i)) && f 0x14 4 == 0
    && f 0x18 8 % 64 == 0 && f 0x20 8 % 4 == 0 && f 0x28 88 == 0
    && c.wo % 8 == 0 && c.va % 8 == 0 && decide (c.wo ≤ 4096) && decide (c.va ≤ 2304) && decide (sum.1 * 1000 ≤ 1493 * sum.2)

/-- Gbit/s of an ST 2110-20 stream. -/
def StreamCfg.bitRate (c : StreamCfg) (sampling : Nat) : Nat × Nat := (c.wo * (pgroup sampling).2.2 * 65536, c.lp)

def samplingOf (b : List Byte) : Nat := bitsOf (fieldAt b 1 1) 1 2

/-- R393: the record of an ST 2110-20 stream, beside the others enabled. -/
def State.rtpOk (s : State) (c : StreamCfg) (b : List Byte) : Bool :=
  let f := fieldAt b
  let v := f 1 1
  let sampling := samplingOf b
  let pg := pgroup sampling
  let others := (s.enabled.filter fun e => e.2.cfg.consumer == 2).map fun e => e.2.cfg.bitRate (samplingOf e.2.cfg.recBytes)
  let sum := others.foldl addFrac (c.bitRate sampling)
  let v4 (o : Nat) : Bool := v.testBit 0 || f (o + 4) 12 == 0
  f 0 1 == 3 && decide (v < 16) && decide (sampling < 3) && decide (96 ≤ f 2 1 ∧ f 2 1 ≤ 127) && decide (f 3 1 < 64)
    && (v.testBit 3 || f 8 2 == 0) && decide (1 ≤ f 0xA 2) && decide (1 ≤ f 0xC 2)
    && decide (512 ≤ f 0xE 2 ∧ f 0xE 2 ≤ 8960) && f 0xE 2 % pg.1 == 0 && f 0x16 2 == 0 && v4 0x18 && v4 0x28
    && decide (1 ≤ f 0x38 1) && f 0x39 71 == 0 && c.wo % pg.2.1 == 0 && decide (sum.1 ≤ 720 * sum.2)

def State.recordOk (s : State) (c : StreamCfg) (b : List Byte) : Bool :=
  match c.consumer with
  | 0 => c.dpOk b
  | 1 => s.av1Ok c b
  | 2 => s.rtpOk c b
  | _ => true

/-! ### Performing the packets -/

/-- The record of a refused set-up, with the stream id. -/
def setupRec (id : Nat) : RecInfo := { RecInfo.blank with kind := 4, detail := id }

/-- A stream as it is enabled: from its first frame on (R370). -/
def State.openStream (s : State) (id : Nat) (c : StreamCfg) : State :=
  let x : Stream := {
    cfg := c, strip := none, frame := 0, next := 0, prevD := none, hist := [], rr := (c.clusterList.head?.getD 0) * 16
    squashes := 0, line := 0, cframe := 0, lastLine := [], hasLast := false, src := [], closing := false, keyAge := 0
    keyNext := true, qovr := none, obu := none, rtpSeq := 0 }
  let f := x.firstFrame s.dtc
  let s := (s.stepDone (earlyWho id)).stepDone (qovrWho id)
  { s with streams := put s.streams id { x with frame := f, cframe := f }, chains := s.chains.filter fun e => e.2.stream != id }

/-- A stream is disabled: its chains end, and its consumer sends the fallback colour to the end of a frame it has begun
(R368). -/
def State.closeStream (s : State) (id : Nat) (x : Stream) : State :=
  let s := (s.chainsOf id).foldl (fun s e =>
    let s := (s.dropPerf id e.2).modChain e.1 fun c => { c with ended := true, freed := true, waits := false }
    if e.2.gridId = 0 then s else s.endGrid e.2.gridId) s
  let begun := match x.cfg.consumer with
    | 0 | 2 => s.atOrPast (x.cfg.lineTime x.cframe 0)
    | 1 => decide (0 < x.line) || x.obu.isSome
    | _ => false
  if begun then s.modStream id fun x => { x with closing := true } else { s with streams := erase s.streams id }

/-- The record of a stream record that a page's fault or an uncorrectable error hides (R390, R410). -/
def State.setupFault (s : State) (id : Nat) (e : Nat × Bool) : State :=
  if e.1 = kindBad then s.record tcData { setupRec id with unc := true } else s.record tcTranslation (setupRec id)

/-- A STREAMCFG body; the launch unit reads its stream record. -/
def State.setStream (s : State) (w : Who) (b : List Byte) (asid root : Nat) : Rd State :=
  let id := fieldAt b 0 1
  let refuse : State := s.record tcEncoding (setupRec id)
  if !(fieldAt b 1 1).testBit 0 then
    .ok (if 48 ≤ id then refuse else match s.stream? id with
      | some x => s.closeStream id x
      | none => s)
  else
    let c := streamCfgOf b asid root
    if 48 ≤ id || !streamZeros b || !c.ranges || (s.stream? id).isSome || !s.roomFor c || !s.unitsReady c then .ok refuse
    else if c.consumer = 3 then .ok (s.openStream id c)
    else (s.ownRead w asid root c.recAddr.toNat 128).map fun r => match r with
      | .error e => s.setupFault id e
      | .ok r => if s.recordOk c r then s.openStream id { c with recBytes := r } else refuse

/-- The fields of a STRIPCFG body (R281, R371). -/
def stripCfgOf (b : List Byte) (asid root cp : Nat) : StripCfg where
  spp := [1, 4, 8, 16].getD (fieldAt b 1 1 % 4) 1
  ttag := fieldAt b 2 2
  wt := fieldAt b 4 2
  ht := fieldAt b 6 2
  stage1 := dwordOf b 8
  stage2 := dwordOf b 0x10
  stage3 := dwordOf b 0x18
  ub := fieldAt b 0x20 8
  stab := dwordOf b 0x28
  ls := BitVec.ofNat 32 (fieldAt b 0x30 4)
  fi := BitVec.ofNat 32 (fieldAt b 0x34 4)
  bg := wordsOf b 0x38 4
  gpt := dwordOf b 0x48
  gpn := fieldAt b 0x50 4
  dn := fieldAt b 0x54 2
  draws := dwordOf b 0x58
  fbr := dwordOf b 0x60
  sri := dwordOf b 0x68
  garea := dwordOf b 0x70
  gsize := fieldAt b 0x78 4
  asid := asid
  root := root
  cp := cp

/-- A chain's descriptor as R340 judges it: of kind 0, with placement 0. -/
def State.stageOk (s : State) (w : Who) (c : StripCfg) (va : DWord) : Rd (Option Desc) :=
  if va.toNat % 128 != 0 then .ok none
  else (s.ownRead w c.asid c.root va.toNat 128).map fun r => match r with
    | .ok bs => (some (chainDesc 7 (descOf bs))).filter s.descOk
    | .error _ => none

/-- What a STRIPCFG body asks beside its descriptors. -/
def stripForm (b : List Byte) (x : StreamCfg) (c : StripCfg) : Bool :=
  fieldAt b 1 1 < 4 && fieldAt b 0x56 2 == 0 && fieldAt b 0x7C 4 == 0 && c.wt == x.wt && c.ht == x.ht
    && c.stab.toNat % 64 == 0 && (c.stage3 != 0) == x.hasRender

/-- A STRIPCFG body; the launch unit reads its descriptors. -/
def State.setStrip (s : State) (w : Who) (b : List Byte) (asid root cp : Nat) : Rd State :=
  let id := fieldAt b 0 1
  let c := stripCfgOf b asid root cp
  let refuse : State := s.record tcEncoding (setupRec id)
  match s.stream? id with
  | none => .ok refuse
  | some x =>
    if !stripForm b x.cfg c then .ok refuse
    else do
      let d1 ← s.stageOk w c c.stage1
      let d2 ← s.stageOk w c c.stage2
      let d3 ← if x.cfg.hasRender then s.stageOk w c c.stage3 else .ok none
      if d1.isSome && d2.isSome && (!x.cfg.hasRender || d3.any fun d => decide (c.ttag + 1 < d.abuf)) then
        .ok (s.modStream id fun x => { x with strip := some c })
      else .ok refuse

end Sys2Proof.Machine
end

