-- ==== Sys2Proof/Machine/CommandProc.lean ====
section
/-! DEFINITION. The eight command processors: fetching packets, their checks, and each packet's effect (R421 to R426). -/

namespace Sys2Proof.Machine

def State.cp (s : State) (k : Nat) : CP := (look s.cps k).getD CP.blank
def State.modCp (s : State) (k : Nat) (f : CP → CP) : State := { s with cps := change s.cps k f }

/-! ### Streams of packets and the bytes held (R421, R424) -/

/-- Depth of the current stream: 0 is the queue. -/
def CP.depth (c : CP) : Nat := c.ib.length
/-- Position and end of the current stream: bytes since configuration in the queue, addresses in an indirect buffer. -/
def CP.pos (c : CP) : Nat := match c.ib with | [] => c.head | x :: _ => x.pos
def CP.stop (c : CP) : Nat := match c.ib with | [] => c.tail | x :: _ => x.stop
def CP.setPos (c : CP) (p : Nat) : CP :=
  match c.ib with
  | [] => { c with head := p }
  | x :: xs => { c with ib := { x with pos := p } :: xs }
/-- The virtual address of a position. -/
def CP.va (c : CP) (p : Nat) : Nat := match c.ib with | [] => c.base + p % c.size | _ => p

/-- The addresses held before a packet of n bytes at the present position runs: 256 bytes, up to the end of the stream
or of the ring image, and the packet. -/
def CP.window (c : CP) (n : Nat) : List Nat :=
  let p := c.pos
  let toEnd := match c.ib with
    | [] => min (c.tail - p) (c.size - p % c.size)
    | x :: _ => x.stop - p
  (List.range (max n (min 256 toEnd))).map fun i => c.va (p + i)

/-- Why a processor cannot go on: the class it halts with, or what its units must first bring. -/
inductive CpStop where
  | halt (cls : Nat) | need (n : Need)
  deriving DecidableEq, Repr

/-- A step of a processor, as far as it can go. -/
abbrev CpRun (α : Type) := Except CpStop α

/-- The processor's tasks: its reads with its head's writes, and its WRITE; and those of the launch unit that serve its LAUNCH and
its set-up packets. -/
def cpWho (k : Nat) : Who := Who.of (.cp k) 0
def cpWriteWho (k : Nat) : Who := Who.of (.cp k) 1
def launchWho (k : Nat) : Who := Who.of .launch k
def setupWho (k : Nat) : Who := Who.of .launch (8 + k)

def CpRun.of {α : Type} (r : Rd α) : CpRun α :=
  match r with
  | .ok x => .ok x
  | .error n => .error (.need n)

/-- Bytes that a processor reads as .cg loads; a fault or an uncorrectable error halts it (R423). -/
def State.cpBytes (s : State) (k : Nat) (c : CP) (va n : Nat) : CpRun (List Byte) := do
  match ← CpRun.of (s.ownRead (cpWho k) c.asid c.root va n) with
  | .ok bs => .ok bs
  | .error e => .error (.halt (if e.1 = kindBad then tcData else tcTranslation))

/-- Runs of addresses within lines, the last first: an address goes on with the run or begins another. -/
def addRun (rs : List (Nat × Nat)) (a : Nat) : List (Nat × Nat) :=
  match rs with
  | (b, n) :: rest => if a = b + n && a / 128 == b / 128 then (b, n + 1) :: rest else (a, 1) :: rs
  | [] => [(a, 1)]

/-- Bytes at addresses, those held kept and the others read. -/
def State.holdBytes (s : State) (k : Nat) (c : CP) (as : List Nat) : CpRun (List (Nat × Byte)) := do
  let runs := ((as.filter fun a => !(c.held.any (·.1 == a))).foldl addRun []).reverse
  let held ← runs.foldlM (fun acc r => (s.cpBytes k c r.1 r.2).map fun bs => acc ++ (List.range' r.1 r.2).zip bs) c.held
  .ok (as.map fun a => (a, ((held.find? (·.1 == a)).map (·.2)).getD 0))

/-- The processor holds its window. -/
def State.fillWindow (s : State) (k : Nat) (c : CP) (n : Nat) : CpRun CP :=
  (s.holdBytes k c (c.window n)).map fun h => { c with held := h }

/-- The word at a position, of those held. -/
def CP.word (c : CP) (p : Nat) : Nat :=
  leNat ((List.range 4).map fun i => ((c.held.find? (·.1 == c.va (p + i))).map (·.2)).getD 0)

/-- A packet as it is read: opcode, flags, body words. -/
structure Pkt where
  op : Nat
  flags : Nat
  len : Nat
  words : List Nat
  deriving DecidableEq, Repr

def Pkt.bytes (p : Pkt) : Nat := 4 + 4 * p.len

/-- What a processor finds at its position. -/
inductive CpFetch where
  | idle | stop (e : CpStop) | packet (c : CP) (p : Pkt)
  deriving DecidableEq, Repr

/-- The packet at the present position, its window held. -/
def State.cpFetch (s : State) (k : Nat) : CpFetch :=
  let c := s.cp k
  if !c.running || c.wait == .halted || c.stop < c.pos + 4 then .idle
  else match s.fillWindow k c 4 with
    | .error e => .stop e
    | .ok c =>
      let h := c.word c.pos
      let len := bitsOf h 8 16
      let op := bitsOf h 0 8
      if c.stop < c.pos + 4 + 4 * len then (if c.ib.isEmpty then .idle else .stop (.halt tcEncoding))
      else match s.fillWindow k c (if op = 0 then 4 else 4 + 4 * len) with
        | .error e => .stop e
        | .ok c => .packet c ⟨op, bitsOf h 24 8, len, if op = 0 then [] else (List.range len).map fun i => c.word (c.pos + 4 + 4 * i)⟩

/-! ### What halts a processor (R422, R423) -/

/-- Body length and flags of each opcode. -/
def Pkt.formOk (p : Pkt) : Bool :=
  let cmp := decide (p.flags < 6)
  match p.op with
  | 0x00 => p.flags == 0
  | 0x01 => p.flags == 0 && p.len == 2
  | 0x02 => p.flags == 0 && p.len == 3
  | 0x03 => p.flags == 0 && p.len == 2
  | 0x04 => cmp && p.len == 4
  | 0x05 => cmp && p.len == 4
  | 0x06 => p.flags == 0 && decide (3 ≤ p.len ∧ p.len ≤ 66)
  | 0x07 => decide (p.flags < 4) && p.len == 0
  | 0x08 => p.flags == 0 && p.len == 0
  | 0x09 => decide (p.flags < 2) && p.len == 2
  | 0x0A => p.flags == 0 && p.len == 2
  | 0x0B => p.flags == 0 && p.len == 32
  | 0x0C => p.flags == 0 && p.len == 32
  | _ => false

def Pkt.w (p : Pkt) (i : Nat) : Nat := p.words.getD i 0
def Pkt.addr (p : Pkt) : Nat := p.w 0 + p.w 1 * 2 ^ 32
def Pkt.body (p : Pkt) : List Byte := p.words.flatMap (leBytes 4)

/-- Addresses on four bytes, counts and lengths in their ranges. -/
def Pkt.valuesOk (p : Pkt) : Bool :=
  match p.op with
  | 0x01 | 0x04 | 0x05 | 0x06 => p.addr % 4 == 0
  | 0x02 => p.addr % 4 == 0 && decide (1 ≤ p.w 2 ∧ p.w 2 ≤ 2 ^ 20)
  | 0x03 => decide (1 ≤ p.w 0)
  | _ => true

def compareOp (code a b : Nat) : Bool :=
  match code with
  | 0 => a == b
  | 1 => a != b
  | 2 => decide (a < b)
  | 3 => decide (b ≤ a)
  | 4 => decide (b < a)
  | _ => decide (a ≤ b)

/-- A word that PRED or WAITMEM reads, as a .cg load. -/
def State.cpRead (s : State) (k : Nat) (c : CP) (va : Nat) : CpRun Nat := (s.cpBytes k c va 4).map leNat

/-! ### Going on (R422, R423) -/

/-- At the end of a loop's body the next pass begins, or the loop is over; at the end of an indirect buffer its packet is
over. A body that ends inside a packet breaks R422. -/
def CP.settle : Nat → CP → Except CpStop CP
  | 0, c => .ok c
  | n + 1, c =>
    let l := c.loops.head?.filter fun l => l.depth == c.depth
    match l with
    | some l =>
      if c.pos < l.stop then .ok c
      else if c.pos = l.stop then
        (if 1 < l.left then .ok ({ c with loops := { l with left := l.left - 1 } :: c.loops.drop 1 }.setPos l.start)
         else CP.settle n { c with loops := c.loops.drop 1 })
      else .error (.halt tcEncoding)
    | none =>
      match c.ib with
      | x :: xs =>
        if x.pos = x.stop then
          let c := { c with ib := xs }
          CP.settle n (c.setPos (c.pos + 16))
        else .ok c
      | [] => .ok c

/-- A packet is over: its bytes are dropped, and execution stands at a new position. -/
def CP.passTo (c : CP) (p : Nat) : Except CpStop CP :=
  let gone := (List.range (p - c.pos)).map fun i => c.va (c.pos + i)
  CP.settle 16 ({ c with held := c.held.filter fun x => !gone.contains x.1, wait := .none }.setPos p)

/-- The head on its way to where the configuration names it; a word that may not be written is left. -/
def State.headPut (s : State) (k : Nat) (c : CP) : Rd (State → State) :=
  match c.headWord with
  | none => .ok id
  | some va => (State.writeVia (s.ownWalk (cpWho k) c.asid c.root) va 8).map fun r => match r with
    | .ok ps => fun s => s.postPieces (cpWho k) .none ps (leBytes 8 c.head)
    | .error _ => id

/-- A packet that ends at a position completes. -/
def State.cpTo (s : State) (k : Nat) (c : CP) (p : Nat) : CpRun (Option State) := do
  let c ← c.passTo p
  let put ← CpRun.of (s.headPut k c)
  .ok (some (put (s.modCp k fun x => { c with grids := x.grids, due := x.due, wdue := x.wdue })))

def State.cpDone (s : State) (k : Nat) (c : CP) (p : Pkt) : CpRun (Option State) := s.cpTo k c (c.pos + p.bytes)

/-- The header and, of a LOOP, the body length at a position, from the bytes held or read now. -/
def State.skipWord (s : State) (k : Nat) (c : CP) (p : Nat) : CpRun Nat :=
  (s.holdBytes k c ((List.range 4).map fun i => c.va (p + i))).map fun h => leNat (h.map (·.2))

/-- The position after n packets from p on: a LOOP goes with its body, and the end of the stream stops the skip. -/
def State.skip (s : State) (k : Nat) (c : CP) : Nat → Nat → CpRun Nat
  | 0, p => .ok p
  | n + 1, p =>
    if c.stop < p + 4 then .ok (min p c.stop)
    else do
      let h ← s.skipWord k c p
      let b ← if bitsOf h 0 8 = 3 && p + 12 ≤ c.stop then s.skipWord k c (p + 8) else .ok 0
      let q := p + 4 + 4 * bitsOf h 8 16 + 4 * b
      if c.stop < q then .ok c.stop else s.skip k c n q

/-! ### The packets (R422, R425) -/

/-- Every earlier grid of the processor has ended, and its writes' completion times have come. -/
def State.gridsDone (s : State) (k : Nat) : Bool :=
  let c := s.cp k
  c.grids.isEmpty && (c.due == 0 || s.atOrPast c.due)

/-- FENCE's condition: its grids, and a system-scope release. -/
def State.fenced (s : State) (k flags : Nat) : Bool :=
  let c := s.cp k
  (!flags.testBit 0 || s.gridsDone k)
    && (!flags.testBit 1 || ((c.wdue == 0 || s.atOrPast c.wdue) && !(s.hostAccs.any fun h => h.write && h.cp == some k)))

/-- Set-up packets and launches wait for DTC valid (R412). -/
def State.dtcValid (s : State) : Bool := s.ready.getLsbD 3

def State.cpLaunch (s : State) (k : Nat) (c : CP) (p : Pkt) : CpRun (Option State) :=
  if !s.dtcValid || 255 ≤ s.grids.length then .ok none
  else do
    let r ← CpRun.of (s.launch (launchWho k) c.asid c.root p.addr (some k) none 0 id)
    let s := r.1.stepDone (launchWho k)
    (match r.2 with
      | some g => s.modCp k fun x => { x with grids := x.grids ++ [g] }
      | none => s).cpDone k c p

def State.cpIb (s : State) (k : Nat) (c : CP) (p : Pkt) : CpRun (Option State) :=
  if 4 ≤ c.depth then .error (.halt 0x25)
  else .ok (some (s.modCp k fun _ => { c with ib := ⟨p.addr, p.addr + 4 * p.w 2⟩ :: c.ib }))

def State.cpLoop (s : State) (k : Nat) (c : CP) (p : Pkt) : CpRun (Option State) :=
  let start := c.pos + p.bytes
  let stop := start + 4 * p.w 1
  if 4 ≤ c.loops.length then .error (.halt 0x25)
  else if !c.ib.isEmpty && c.stop < stop then .error (.halt tcEncoding)
  else if p.w 1 = 0 then s.cpDone k c p
  else s.cpTo k { c with loops := ⟨start, stop, p.w 0, c.depth⟩ :: c.loops } start

def State.cpPred (s : State) (k : Nat) (c : CP) (p : Pkt) : CpRun (Option State) := do
  let w ← s.cpRead k c p.addr
  let next := c.pos + p.bytes
  if compareOp p.flags w (p.w 2) then
    let q ← s.skip k c (min (p.w 3) ((c.stop - next) / 4)) next
    s.cpTo k c q
  else s.cpDone k c p

/-- WAITMEM completes where the compare holds; else it waits. -/
def State.cpWaitmem (s : State) (k : Nat) (c : CP) (p : Pkt) : CpRun (Option State) := do
  let w ← s.cpRead k c p.addr
  if compareOp p.flags (w &&& p.w 3) (p.w 2) then s.cpDone k c p
  else .ok (some (s.modCp k fun _ => { c with wait := .mem }))

/-- WRITE sends its parts to their homes, and is over once each is performed there, or sent to the host (R326, R333). -/
def State.cpWrite (s : State) (k : Nat) (c : CP) (p : Pkt) : CpRun (Option State) :=
  let w := cpWriteWho k
  let data := p.body.drop 8
  match s.asks.filter fun a => a.src == w.src && a.key == w.key with
  | [] => do
    match ← CpRun.of (State.writeVia (s.ownWalk (cpWho k) c.asid c.root) p.addr data.length) with
    | .error _ => .error (.halt tcTranslation)
    | .ok ps => .ok (some ((s.modCp k fun _ => c).postPieces w .poll ps data))
  | as =>
    if as.all fun a => a.got.isSome && decide (a.back ≤ s.tu) then
      let t := as.foldl (fun t a => maxD t a.time) 0
      ((s.askDone w).modCp k fun x => { x with wdue := maxD x.wdue t }).cpDone k c p
    else .ok none

/-- FETCHFENCE drops what is held beyond its own packet; the window is read again. -/
def State.cpFetchfence (s : State) (k : Nat) (c : CP) (p : Pkt) : CpRun (Option State) := s.cpDone k { c with held := [] } p

def State.cpTimewait (s : State) (k : Nat) (c : CP) (p : Pkt) : CpRun (Option State) :=
  let t := BitVec.ofNat 64 p.addr
  if s.atOrPast t then s.cpDone k c p else .ok (some (s.modCp k fun _ => { c with wait := .time t }))

def State.cpEvent (s : State) (k : Nat) (c : CP) (p : Pkt) : CpRun (Option State) :=
  if p.flags.testBit 0 && !s.gridsDone k then .ok none
  else State.cpDone { s with out := s.out ++ [Out.cpEvent k (BitVec.ofNat 32 (p.w 0)) (BitVec.ofNat 32 (p.w 1))] } k c p

def State.cpStrip (s : State) (k : Nat) (c : CP) (p : Pkt) : CpRun (Option State) :=
  if !s.dtcValid then .ok none
  else do
    let s ← CpRun.of (s.setStrip (setupWho k) p.body c.asid c.root k)
    (s.stepDone (setupWho k)).cpDone k c p

def State.cpStream (s : State) (k : Nat) (c : CP) (p : Pkt) : CpRun (Option State) :=
  if !s.dtcValid then .ok none
  else do
    let s ← CpRun.of (s.setStream (setupWho k) p.body c.asid c.root)
    (s.stepDone (setupWho k)).cpDone k c p

/-- What a packet does: it completes or begins to wait, it has to wait as it stands, or it halts the processor. -/
def State.cpPerform (s : State) (k : Nat) (c : CP) (p : Pkt) : CpRun (Option State) :=
  if !p.formOk || !p.valuesOk then .error (.halt tcEncoding)
  else match p.op with
    | 0x00 => s.cpDone k c p
    | 0x01 => s.cpLaunch k c p
    | 0x02 => s.cpIb k c p
    | 0x03 => s.cpLoop k c p
    | 0x04 => s.cpPred k c p
    | 0x05 => s.cpWaitmem k c p
    | 0x06 => s.cpWrite k c p
    | 0x07 => if s.fenced k p.flags then s.cpDone k c p else .ok none
    | 0x08 => s.cpFetchfence k c p
    | 0x09 => s.cpEvent k c p
    | 0x0A => s.cpTimewait k c p
    | 0x0B => s.cpStrip k c p
    | _ => s.cpStream k c p

/-- The packet at a processor's position, where it is the one an event names; or what it needs is asked for. -/
def State.cpRun (s : State) (k op : Nat) (waits : CpWait → Bool) : Option State :=
  match s.cpFetch k with
  | .packet c p =>
    if p.op = op && waits c.wait then
      match s.cpPerform k c p with
      | .ok (some s) => some (s.stepDone (cpWho k))
      | .ok none => some ((s.stepDone (cpWho k)).modCp k fun _ => c)
      | .error (.need n) => s.demand n
      | .error (.halt _) => none
    else none
  | .stop (.need n) => s.demand n
  | _ => none

def fresh (w : CpWait) : Bool := w == .none

def execCpNop (cp : Nat) : State → Res := event fun s => s.cpRun cp 0x00 fresh
def execCpLaunch (cp : Nat) : State → Res := event fun s => s.cpRun cp 0x01 fresh
def execCpIb (cp : Nat) : State → Res := event fun s => s.cpRun cp 0x02 fresh
def execCpLoop (cp : Nat) : State → Res := event fun s => s.cpRun cp 0x03 fresh
def execCpPred (cp : Nat) : State → Res := event fun s => s.cpRun cp 0x04 fresh
def execCpWaitmem (cp : Nat) : State → Res := event fun s => s.cpRun cp 0x05 fresh
def execCpWrite (cp : Nat) : State → Res := event fun s => s.cpRun cp 0x06 fresh
def execCpFence (cp : Nat) : State → Res := event fun s => s.cpRun cp 0x07 fresh
def execCpFetchfence (cp : Nat) : State → Res := event fun s => s.cpRun cp 0x08 fresh
def execCpEvent (cp : Nat) : State → Res := event fun s => s.cpRun cp 0x09 fresh
def execCpTimewait (cp : Nat) : State → Res := event fun s => s.cpRun cp 0x0A fresh
def execCpStripcfg (cp : Nat) : State → Res := event fun s => s.cpRun cp 0x0B fresh
def execCpStreamcfg (cp : Nat) : State → Res := event fun s => s.cpRun cp 0x0C fresh

/-- A waiting WAITMEM reads its word again. -/
def execWaitmemReread (cp : Nat) : State → Res := event fun s => s.cpRun cp 0x05 fun w => w == .mem

/-- A waiting TIMEWAIT completes once its time has come. -/
def execTimewaitTimeReached (cp : Nat) : State → Res :=
  event fun s => s.cpRun cp 0x0A fun w => match w with
    | .time t => s.atOrPast t
    | _ => false

/-- The processor halts, with one record that holds its packet's address. -/
def State.haltCp (s : State) (k cls : Nat) : State :=
  let c := s.cp k
  ((s.stepDone (cpWho k)).modCp k fun c => { c with wait := .halted }).record cls
    { RecInfo.blank with addr := BitVec.ofNat 64 (c.va c.pos), kind := 5, ix := k, virt := true, unc := cls == tcData }

def execCpHalt (cp : Nat) : State → Res :=
  event fun s =>
    match s.cpFetch cp with
    | .stop (.halt cls) => some (s.haltCp cp cls)
    | .packet c p =>
      match s.cpPerform cp c p with
      | .error (.halt cls) => some (s.haltCp cp cls)
      | _ => none
    | _ => none

end Sys2Proof.Machine
end

