-- ==== Sys2Proof/Machine/Convert.lean ====
section
/-! DEFINITION. Conversion and quantisation, group 0x2 (R122 to R127). -/

namespace Sys2Proof.Machine

/-- Whether the modifiers in force round stochastically; .rs on an integer destination of cvt from a float draws too
(R86, R122). -/
def State.rsOn (s : State) : Bool := s.pm.any fun m => m.rnd == .rs

def execCvt (o : Op1) (dst src : CvtTy) : State → Res :=
  isa fun s => s.alu o.g o.d [s.src o.a] [o.a] s.rsOn 1 none fun xs us => fopCvt dst src s.pm (dr us 0) (xs.getD 0 0)

def pack2El (ty : Pack2Ty) (m : Option PfxM) (u : Nat) (a : Word) : Nat :=
  let satf := m.any fun x => x.sat == .satf
  match ty with
  | .f16 => packF f16 (Mods.of m .rne) u a
  | .bf16 => packF bf16 (Mods.of m .rne) u a
  | .i16 => packInt 16 true satf a
  | .n16 => packInt 16 false satf a

def pack4El (ty : Pack4Ty) (m : Option PfxM) (u : Nat) (a : Word) : Nat :=
  let satf := m.any fun x => x.sat == .satf
  match ty with
  | .e4m3 => packF e4m3 (Mods.of m .rne) u a
  | .e5m2 => packF e5m2 (Mods.of m .rne) u a
  | .i8 => packInt 8 true satf a
  | .n8 => packInt 8 false satf a

def execPack2 (o : OpAB) (ty : Pack2Ty) : State → Res :=
  isa fun s => s.alu o.g o.d [s.src o.a, s.src o.b] [o.a, o.b] s.rsOn 2 none fun xs us =>
    w32 (pack2El ty s.pm (dr us 0) (xs.getD 0 0) + pack2El ty s.pm (dr us 1) (xs.getD 1 0) * 2 ^ 16)

/-- The old D goes to byte 3 and counts as a source (R123). -/
def execPack4 (o : Op3) (ty : Pack4Ty) : State → Res :=
  isa fun s =>
    s.alu o.g o.d [s.src o.a, s.src o.b, s.src o.c, s.src o.d] [o.a, o.b, o.c, o.d] s.rsOn 4 none fun xs us =>
      w32 ((List.range 4).foldl (fun acc i => acc + pack4El ty s.pm (dr us i) (xs.getD i 0) * 2 ^ (8 * i)) 0)

/-- The source of unpack: packed 16-bit floats are a slot of R49. -/
def State.srcU (s : State) (ty : UnpackTy) (o : Opnd) : VReg :=
  match ty with
  | .f16 => s.srcH false o
  | .bf16 => s.srcH true o
  | _ => s.src o

def execUnpack (o : Op1) (ty : UnpackTy) (e : Fin 4) : State → Res :=
  isa fun s => s.alu o.g o.d [s.srcU ty o.a] [o.a] false 0 none fun xs _ => fopUnpack ty e.val (xs.getD 0 0)

/-- qblk: non-participants count as +0.0; each written thread draws once under .rs, in ascending index (R125). With
a scalar destination the one element of a scalar source is every v of the block, and thread 0's code is written
(log entry 15). -/
def execQblk (o : Op1) (b32 : Bool) : State → Res :=
  isa fun s => do
    let md := Mods.of s.pm .rne
    let a := s.src o.a
    match o.d with
    | .v n =>
      let mask := s.guardMask o.g
      let us := drawRow (md.rnd = .rs) 1 mask s.w.seed fun _ us => w32 (dr us 0)
      let u (t : Nat) : Nat := (us.1.getD t 0).toNat
      let v (t : Nat) : FV := if mask.getLsbD t then fin32 md (a.at t) else .fin false 0 0
      let len := if b32 then 32 else 16
      let row := (List.range (32 / len)).flatMap fun b =>
        let ts := (List.range len).map (· + b * len)
        let r := qblkEncode md.rnd (ts.map u) (ts.map v)
        r.1.map fun c => w32 (r.2 * 2 ^ 16 + c)
      let s := if md.rnd = .rs then s.modW fun w => { w with seed := us.2 } else s
      s.writeV n.val (.gen row) mask
    | d =>
      let x ← s.scalar o.a
      let us := draws (if md.rnd = .rs then 1 else 0) s.w.seed
      let len := if b32 then 32 else 16
      let r := qblkEncode md.rnd (List.replicate len (dr us.1 0)) (List.replicate len (fin32 md x))
      (s.modW fun w => { w with seed := us.2 }).writeD d (.uni (w32 (r.2 * 2 ^ 16 + r.1.getD 0 0))) fullMask

def execDqblk (o : Op1) : State → Res :=
  isa fun s => s.int1 o noAff1 fun a =>
    w32 (roundTo f32 ⟨.rne, if s.satf then .satf else .none, false⟩ 0 (e2m1xFull (a.toNat % 16) (a.toNat / 2 ^ 16)).toX)

def execI4g (o : OpAB) (h : Fin 8) : State → Res :=
  isa fun s => s.int2 ⟨o.g, o.d, o.a, .reg o.b⟩ false noAff2 fun a b =>
    bfToF32 (i4gWeight (a.toNat / 2 ^ (4 * h.val) % 16) b.toNat)

end Sys2Proof.Machine
end

