-- ==== Sys2Proof/Machine/FloatArith.lean ====
section
/-! DEFINITION. The floating-point instructions of group 0x1 (R112 to R121). -/

namespace Sys2Proof.Machine

def State.fltH2 (s : State) (o : OpAB) (bf : Bool) (g : Mods → FV → FV → FV) : Except TrapReq State :=
  s.flt o.g o.d [s.srcH bf o.a, s.srcH bf o.b] [o.a, o.b] 2 fun md us xs => fopH2 bf md us (g md) (xs.getD 0 0) (xs.getD 1 0)

def execFadd (o : Op2) : State → Res := isa fun s => s.flt2 o fopAdd
def execFsub (o : Op2) : State → Res := isa fun s => s.flt2 o fopSub
def execFmul (o : Op2) : State → Res := isa fun s => s.flt2 o fopMul
def execFfma (o : Op3) : State → Res :=
  isa fun s => s.flt o.g o.d [s.src o.a, s.src o.b, s.src o.c] [o.a, o.b, o.c] 1 fun md us xs =>
    fopFma md (dr us 0) (xs.getD 0 0) (xs.getD 1 0) (xs.getD 2 0)
def execFmin (o : Op2) (nan : Bool) : State → Res := isa fun s => s.flt2 o fun md _ a b => fopMinMax false nan md a b
def execFmax (o : Op2) (nan : Bool) : State → Res := isa fun s => s.flt2 o fun md _ a b => fopMinMax true nan md a b
def execFcmp (o : OpAB) (c : FCond) (u : Bool) (k : Comb) : State → Res :=
  isa fun s =>
    let md := Mods.of s.pm .rne
    .ok (s.cmpP o.g o.d k fun t => fcondTest c u (fin32 md ((s.src o.a).at t)) (fin32 md ((s.src o.b).at t)))
def execFclass (o : Op1) (m : BitVec 9) : State → Res :=
  isa fun s => .ok (s.cmpP o.g o.d .set fun t => m.getLsbD (fclassBit ((s.src o.a).at t)))
def execFrnd (o : Op1) : State → Res := isa fun s => s.flt1 o fopRnd
def execFfrac (o : Op1) : State → Res := isa fun s => s.flt1 o fun md _ a => fopFrac md a
def execFrcp (o : Op1) : State → Res := isa fun s => s.flt1 o fun md _ a => fopRcp md a
def execFrsq (o : Op1) : State → Res := isa fun s => s.flt1 o fun md _ a => fopRsq md a
def execFsqrt (o : Op1) : State → Res := isa fun s => s.flt1 o fopSqrt
def execFexp2 (o : Op1) : State → Res := isa fun s => s.flt1 o fun md _ a => fopExp2 md a
def execFlog2 (o : Op1) : State → Res := isa fun s => s.flt1 o fun md _ a => fopLog2 md a
def execFsin (o : Op1) : State → Res := isa fun s => s.flt1 o fun md _ a => fopSin md a
def execFcos (o : Op1) : State → Res := isa fun s => s.flt1 o fun md _ a => fopCos md a
def execFtanh (o : Op1) : State → Res := isa fun s => s.flt1 o fun md _ a => fopTanh md a
def execFdiv (o : OpAB) : State → Res := isa fun s => s.flt2 ⟨o.g, o.d, o.a, .reg o.b⟩ fopDiv
def execHadd2 (o : OpAB) (bf : Bool) : State → Res := isa fun s => s.fltH2 o bf fun md => xadd (md.rnd = .rdn)
def execHmul2 (o : OpAB) (bf : Bool) : State → Res := isa fun s => s.fltH2 o bf fun _ => xmul
def execHfma2 (o : Op3) (bf : Bool) : State → Res :=
  isa fun s => s.flt o.g o.d [s.srcH bf o.a, s.srcH bf o.b, s.srcH bf o.c] [o.a, o.b, o.c] 2 fun md us xs =>
    fopH3 bf md us (xs.getD 0 0) (xs.getD 1 0) (xs.getD 2 0)
/-- The C slot of fdot2 is an f32 (R121). -/
def execFdot2 (o : Op3) (bf : Bool) : State → Res :=
  isa fun s => s.flt o.g o.d [s.srcH bf o.a, s.srcH bf o.b, s.src o.c] [o.a, o.b, o.c] 1 fun md us xs =>
    fopDot2 bf md (dr us 0) (xs.getD 0 0) (xs.getD 1 0) (xs.getD 2 0)

end Sys2Proof.Machine
end

