-- ==== Sys2Proof/Machine/Halves.lean ====
section
/-! DEFINITION. The halves of the pair form and the fetched modifiers (R51 to R59). -/

namespace Sys2Proof.Machine

/-- What a half computes: whether it is a float half, whether it reads its D, rows 3 and 5 of R25, its effect (R52). -/
structure HalfOp where
  float : Bool
  useD : Bool
  aff : VReg → VReg → Option VReg
  f : Mods → Nat → Word → Word → Word

def intHalf (f : Word → Word → Word) : HalfOp := ⟨false, true, noAff2, fun _ _ a b => f a b⟩
def fltHalf (f : Mods → Nat → Word → Word → Word) : HalfOp := ⟨true, true, noAff2, f⟩

def opAddH : HalfOp := ⟨false, true, affAdd false, fun _ _ a b => a + b⟩
def opSubH : HalfOp := ⟨false, true, affAdd true, fun _ _ a b => a - b⟩
def opMovH : HalfOp := ⟨false, false, fun _ b => affMov b, fun _ _ _ b => b⟩

/-- The half of an instruction, with its operation; hnop and the fetched modifiers have none. -/
def halfOf : Instr → Option (Half × HalfOp)
  | .halfAdd h => some (h, opAddH)
  | .halfSub h => some (h, opSubH)
  | .halfAnd h => some (h, intHalf (· &&& ·))
  | .halfOr h => some (h, intHalf (· ||| ·))
  | .halfXor h => some (h, intHalf (· ^^^ ·))
  | .halfShl h => some (h, intHalf aluShl)
  | .halfShr h => some (h, intHalf aluShr)
  | .halfSar h => some (h, intHalf aluSar)
  | .halfMin h => some (h, intHalf (aluMin .i32))
  | .halfMax h => some (h, intHalf (aluMax .i32))
  | .halfMov h => some (h, opMovH)
  | .halfFadd h => some (h, fltHalf fopAdd)
  | .halfFmul h => some (h, fltHalf fopMul)
  | .halfFmin h => some (h, fltHalf fun md _ a b => fopMinMax false false md a b)
  | .halfFmax h => some (h, fltHalf fun md _ a b => fopMinMax true false md a b)
  | .halfFsub h => some (h, fltHalf fopSub)
  | _ => none

/-- The S operand of a half: an immediate is sign-extended, or in a float half the FP32 value of that integer (R52). -/
def State.halfSrc (s : State) (h : Half) (float : Bool) : VReg :=
  match h.s with
  | .reg o => s.src o
  | .imm v => .uni (if float then w32 (roundTo f32 Mods.plain 0 (XV.ofInt v.toInt)) else v.signExtend 32)

/-- The two values a half reads: those latched when its pair issued, or the present ones (R54). -/
def State.halfReads (s : State) (h : Half) (float : Bool) : VReg × VReg :=
  s.sp.latch.getD (s.readV h.d.val, s.halfSrc h float)

/-- Result, written threads and the generator's next state. -/
def State.halfEval (s : State) (h : Half) (op : HalfOp) : VReg × Mask × Word :=
  let r := s.halfReads h op.float
  let mask := s.halfMask h.g
  let md := Mods.of s.pm .rne
  if op.float && decide (md.rnd = .rs) then
    let q := drawRow true 1 mask s.w.seed fun t us => op.f md (dr us 0) (r.1.at t) (r.2.at t)
    (.gen q.1, mask, q.2)
  else
    let v : VReg := match op.aff r.1 r.2 with
      | some a => a
      | none =>
        if (!op.useD || r.1.isUni) && r.2.isUni then .uni (op.f md 0 (r.1.at 0) (r.2.at 0))
        else .gen ((List.range 32).map fun t => op.f md 0 (r.1.at t) (r.2.at t))
    (v, mask, s.w.seed)

def State.halfRun (s : State) (h : Half) (op : HalfOp) : Except TrapReq State :=
  let r := s.halfEval h op
  (s.modW fun w => { w with seed := r.2.2 }).writeV h.d.val r.1 r.2.1

def execHalfAdd (h : Half) : State → Res := isaHalf fun s => s.halfRun h opAddH
def execHalfSub (h : Half) : State → Res := isaHalf fun s => s.halfRun h opSubH
def execHalfAnd (h : Half) : State → Res := isaHalf fun s => s.halfRun h (intHalf (· &&& ·))
def execHalfOr (h : Half) : State → Res := isaHalf fun s => s.halfRun h (intHalf (· ||| ·))
def execHalfXor (h : Half) : State → Res := isaHalf fun s => s.halfRun h (intHalf (· ^^^ ·))
def execHalfShl (h : Half) : State → Res := isaHalf fun s => s.halfRun h (intHalf aluShl)
def execHalfShr (h : Half) : State → Res := isaHalf fun s => s.halfRun h (intHalf aluShr)
def execHalfSar (h : Half) : State → Res := isaHalf fun s => s.halfRun h (intHalf aluSar)
def execHalfMin (h : Half) : State → Res := isaHalf fun s => s.halfRun h (intHalf (aluMin .i32))
def execHalfMax (h : Half) : State → Res := isaHalf fun s => s.halfRun h (intHalf (aluMax .i32))
def execHalfMov (h : Half) : State → Res := isaHalf fun s => s.halfRun h opMovH
/-- The half no-op, whatever register it names (R53). -/
def execHnop : State → Res := isaHalf fun s => .ok s
def execHalfFadd (h : Half) : State → Res := isaHalf fun s => s.halfRun h (fltHalf fopAdd)
def execHalfFmul (h : Half) : State → Res := isaHalf fun s => s.halfRun h (fltHalf fopMul)
def execHalfFmin (h : Half) : State → Res :=
  isaHalf fun s => s.halfRun h (fltHalf fun md _ a b => fopMinMax false false md a b)
def execHalfFmax (h : Half) : State → Res :=
  isaHalf fun s => s.halfRun h (fltHalf fun md _ a b => fopMinMax true false md a b)
def execHalfFsub (h : Half) : State → Res := isaHalf fun s => s.halfRun h (fltHalf fopSub)

/-- A fetched modifier is held by the split until its target performs (R58, R59). -/
def execPfxM (m : PfxM) : State → Res :=
  isaCtl fun s => .ok (s.modSp fun p => { p with pfx := some ⟨some m, none, p.pc, p.low⟩ })
/-- A fetched immediate half, likewise (R57 to R59). -/
def execPfxI (hi : BitVec 13) : State → Res :=
  isaCtl fun s => .ok (s.modSp fun p => { p with pfx := some ⟨none, some hi, p.pc, p.low⟩ })

end Sys2Proof.Machine
end

