-- ==== Sys2Proof/Machine/Irsin.lean ====
section
/-! DEFINITION. Irsin: what the host's packets do, acknowledgement and retransmission, and the host window's answers
(R415 to R421). -/

namespace Sys2Proof.Machine

/-- Numbers of 32 bits: a stands before b. -/
def seqBefore (a b : Nat) : Bool := a != b && decide ((b + 2 ^ 32 - a) % 2 ^ 32 < 2 ^ 31)

/-! ### Acknowledgements (R416, R417) -/

/-- A packet that a header acknowledges. -/
def hdrAcks (h : IrsinHdr) (seq : Nat) : Bool :=
  seqBefore seq h.ack || ((List.range 32).any fun i => h.sack.getLsbD i && seq == (h.ack + 1 + i) % 2 ^ 32)

/-- A write that the host has acknowledged is over; a copy engine's part then goes on (R331, R419). -/
def State.hostAcked (s : State) (h : HostAcc) : State :=
  ({ s with hostAccs := s.hostAccs.filter fun x => x.tag != h.tag } : State).give h.req (some []) s.dtc

/-- A header's acknowledgements retire packets from the connection's window, and the port sends what waited. -/
def State.takeAck (s : State) (h : IrsinHdr) : State :=
  let s : State := { s with conns := change s.conns h.conn fun c => { c with tx := c.tx.filter fun p => !hdrAcks h p.seq } }
  let done := s.hostAccs.filter fun x => x.sent && x.write && x.conn == h.conn && hdrAcks h x.seq && (x.req.for_ != .elem || (s.elem? x.req).all fun e => e.done)
  let s := done.foldl State.hostAcked s
  ((s.sendWaiting h.conn ((((look s.conns h.conn).map (·.wait.length)).getD 0))).pumpHost).answerHost

/-- A packet of acknowledgement alone. -/
def State.ackNow (s : State) (conn : Nat) : State :=
  s.emit (.irsin conn 0x0A ((look s.conns conn).getD Conn.blank).txNext 0 0 [] (s.cumAck conn) (s.selAck conn))

/-! ### Host messages to device memory (R418) -/

/-- Device memory holds all of n bytes at an address. -/
def inDevice (pa n : Nat) : Bool := decide (pa + n ≤ 2 ^ 39)

/-- A message that is answered with no bytes, and its record. -/
def State.noAnswer (s : State) (h : IrsinHdr) (cls opcode flags addr : Nat) : State :=
  (s.record cls (portRec addr 0)).sendPkt h.conn opcode addr flags []

/-- Every part is performed and its completion time has come: the write is acknowledged. -/
def execIrsinWriteAckDue (idx : Nat) : State → Res :=
  event fun s =>
    match s.hostWrites[idx]? with
    | none => none
    | some w =>
      if w.left = 0 && s.atOrPast w.due then some (({ s with hostWrites := s.hostWrites.eraseIdx idx } : State).ackNow w.conn) else none

/-! ### Answers to the host window's accesses (R419) -/

/-- The access that an answer names by its request's sequence number. -/
def State.asked (s : State) (conn tag : Nat) : Option HostAcc :=
  s.hostAccs.find? fun x => x.sent && x.conn == conn && x.seq == tag

/-- An answer reaches what asked: an element, an engine or a unit. An empty one, or one of another length, is an error
(log entry 37). -/
def State.answer (s : State) (h : HostAcc) (data : List Byte) (t : DWord) : State :=
  let s : State := { s with hostAccs := s.hostAccs.filter fun x => x.tag != h.tag }
  let ok := data.length == h.len
  if h.req.for_ = .elem then s.modElem h.req fun e =>
    { (if ok then e.finish true false data t else e.finish false true [] t) with back := s.backAt h.req.src h.req.pa }
  else s.give h.req (if ok then some data else none) s.dtc

/-! ### What a message does (R416 to R421) -/

/-- A message that is not discarded as it stands: no more than 8,192 bytes, and an atomic of a listed form. -/
def Msg.ok : Msg → Bool
  | .write _ data => decide (data.length ≤ 8192)
  | .read _ n => decide (n ≤ 8192)
  | .atom _ op data => (hostForm op data.length).isSome
  | _ => true

/-- A write goes on its way in aligned 16-byte parts (R333). -/
def State.takeWrite (s : State) (h : IrsinHdr) (addr : Nat) (data : List Byte) : State :=
  if !inDevice addr data.length then s.noAnswer h tcProtection 0x03 0 addr
  else
    let s : State := { s with hostWrites := s.hostWrites ++ [⟨h.conn, h.seq, s.dtc, (partsAt addr data.length).length⟩] }
    s.postParts (portWho h.conn h.seq) (.hostWrite h.conn h.seq) addr data

/-- A read goes on its way part by part, as a .cg load. -/
def State.takeRead (s : State) (h : IrsinHdr) (addr len : Nat) : State :=
  if !inDevice addr len then s.noAnswer h tcProtection 0x03 0 addr
  else
    let s : State := { s with hostReads := s.hostReads ++ [⟨h.conn, h.seq, 0x03, 0, addr, len⟩] }
    ((partsAt addr len).foldl (fun s p => s.post (portWho h.conn h.seq) .read .poll p.1 p.2.1) s).answerHost

/-- An atomic goes on its way, one of device scope at its home slice. -/
def State.takeAtomic (s : State) (h : IrsinHdr) (addr : Nat) (op : HostAtomic) (data : List Byte) : State :=
  match hostForm op data.length with
  | none => s
  | some (w, code) =>
    if !inDevice addr w then s.noAnswer h tcProtection 0x05 (code * 4096) addr
    else if addr % w != 0 then s.noAnswer h tcMisaligned 0x05 (code * 4096) addr
    else
      let s : State := { s with hostReads := s.hostReads ++ [⟨h.conn, h.seq, 0x05, code * 4096, addr, w⟩] }
      s.post (portWho h.conn h.seq) (.atom op data) .poll addr w

/-- The host advances a queue's tail, never past a full ring. -/
def State.takeTail (s : State) (cp tail : Nat) : State :=
  let c := s.cp cp
  if c.tail ≤ tail && tail ≤ c.head + c.size then s.modCp cp fun c => { c with tail := tail } else s

/-- What the port does for a connection's messages is forgotten, with the answers they would have had. -/
def State.forgetConn (s : State) (conn : Nat) : State :=
  { s with
    hostWrites := s.hostWrites.filter fun w => w.conn != conn
    hostReads := s.hostReads.filter fun r => r.conn != conn
    asks := s.asks.filter fun a => !(a.src == .port && a.key / 2 ^ 32 == conn && a.for_ == .poll && a.op == .read) }

/-- Every access that waits on a connection fails: DATA_ERROR for a wave, cause 8 for an engine, a store dropped. -/
def State.failWaiting (s : State) (conn : Nat) : State :=
  let xs := s.hostAccs.filter fun x => if x.sent then x.conn == conn else s.hostConn == some conn
  xs.foldl (fun s x =>
    let s : State := { s with hostAccs := s.hostAccs.filter fun y => y.tag != x.tag }
    match s.acc? x.req.core x.req.ctx x.req.acc, s.elem? x.req with
    | some a, some e =>
      if x.req.for_ != .elem then s.give x.req none s.dtc
      else if e.done then s
      else s.modElem x.req fun e => { e.finish false a.returns [] s.dtc with back := s.backAt x.req.src x.req.pa }
    | _, _ => s.give x.req none s.dtc) s

/-- A connection closes; what waited on it fails (log entry 37). -/
def State.takeClose (s : State) (conn : Nat) : State :=
  let s := ((s.ackNow conn).failWaiting conn).forgetConn conn
  { s with conns := erase s.conns conn }

/-- An answer of status and bytes to a management request, in as many packets as it takes. -/
def State.replyGo (s : State) (conn : Nat) : Nat → List Byte → State
  | 0, _ => s
  | n + 1, bs =>
    let s := s.sendPkt conn 0x09 0 0 (bs.take 8192)
    if 8192 < bs.length then s.replyGo conn n (bs.drop 8192) else s
def State.reply (s : State) (conn status : Nat) (bs : List Byte) : State :=
  s.replyGo conn ((bs.length + 4) / 8192 + 1) (leBytes 4 status ++ bs)

/-- Status 1, with its record. -/
def State.refuseReq (s : State) (conn : Nat) : State := (s.record tcEncoding (portRec 0 0)).reply conn 1 []

/-- Malformed requests at the head are answered. -/
def State.drainBad : Nat → State → State
  | 0, s => s
  | n + 1, s =>
    match s.mgmtQ with
    | (conn, .malformed _) :: rest => State.drainBad n (({ s with mgmtQ := rest } : State).refuseReq conn)
    | _ => s

/-- What a message does in its turn. -/
def State.actMsg (s : State) (h : IrsinHdr) : Msg → State
  | .write addr data => s.takeWrite h addr data
  | .read addr len => s.takeRead h addr len
  | .readAns tag data => match s.asked h.conn tag with
    | some x => if x.write then s else (s.answer x data 0).pumpHost
    | none => s
  | .atom addr op data => s.takeAtomic h addr op data
  | .atomAns tag old => match s.asked h.conn tag with
    | some x => (s.answer x old s.dtc).pumpHost
    | none => s
  | .tail cp tail => s.takeTail cp tail
  | .mgmt r => State.drainBad (s.mgmtQ.length + 1) { s with mgmtQ := s.mgmtQ ++ [(h.conn, r)] }
  | .close => s.takeClose h.conn
  | .ack | .connect => s

/-- A message in its turn, with the acknowledgement it asks for; a write's comes with its completion (R418). -/
def State.takeMsg (s : State) (h : IrsinHdr) (m : Msg) : State :=
  let s := State.actMsg { s with conns := change s.conns h.conn fun c =>
    { c with rxNext := (c.rxNext + 1) % 2 ^ 32, early := c.early.filter (·.1.seq != h.seq) } } h m
  if h.ackReq && !(s.hostWrites.any fun w => w.conn == h.conn && w.seq == h.seq) then s.ackNow h.conn else s

/-- The messages kept whose turn has come. -/
def State.takeEarly (conn : Nat) : Nat → State → State
  | 0, s => s
  | n + 1, s =>
    match (look s.conns conn).bind fun c => c.early.find? (·.1.seq == c.rxNext) with
    | some (h, m) => State.takeEarly conn n (s.takeMsg h m)
    | none => s

/-- A message of a connection: its acknowledgements count, and it is acted on where it is the next in sequence. One that
comes early is kept for its turn; one that came before is acknowledged again; one that R416 discards is not (R416, R417). -/
def State.rxMsg (s : State) (h : IrsinHdr) (m : Msg) : Option State :=
  if !s.ready.getLsbD 1 || !m.ok then none
  else match look s.conns h.conn with
    | none => none
    | some c =>
      if c.failed then none
      else
        let s := s.takeAck h
        if h.seq = c.rxNext then some (State.takeEarly h.conn c.early.length (s.takeMsg h m))
        else if seqBefore h.seq c.rxNext then some (s.ackNow h.conn)
        else if decide ((h.seq + 2 ^ 32 - c.rxNext) % 2 ^ 32 < 1024) && !(c.early.any (·.1.seq == h.seq)) then
          some { s with conns := change s.conns h.conn fun c => { c with early := c.early ++ [(h, m)] } }
        else some s

def execIrsinWrite (h : IrsinHdr) (addr : Nat) (data : List Byte) : State → Res := event fun s => s.rxMsg h (.write addr data)
def execIrsinReadRequest (h : IrsinHdr) (addr len : Nat) : State → Res := event fun s => s.rxMsg h (.read addr len)
def execIrsinAtomicRequest (h : IrsinHdr) (addr : Nat) (op : HostAtomic) (data : List Byte) : State → Res :=
  event fun s => s.rxMsg h (.atom addr op data)
def execIrsinReadResponse (h : IrsinHdr) (tag : Nat) (data : List Byte) : State → Res := event fun s => s.rxMsg h (.readAns tag data)
def execIrsinAtomicResponse (h : IrsinHdr) (tag : Nat) (old : List Byte) : State → Res := event fun s => s.rxMsg h (.atomAns tag old)
def execIrsinTailUpdate (h : IrsinHdr) (cp tail : Nat) : State → Res := event fun s => s.rxMsg h (.tail cp tail)
def execIrsinManagementRequest (h : IrsinHdr) (r : MgmtReq) : State → Res := event fun s => s.rxMsg h (.mgmt r)
def execIrsinClose (h : IrsinHdr) : State → Res := event fun s => s.rxMsg h .close

/-! ### Queues, events and connections (R416, R417, R421) -/

/-- The bytes of an event message; none for what is no event. -/
def Out.eventBytes : Out → Option (List Byte)
  | .event bs => some bs
  | .readyVector v => some (leBytes 32 v.toNat)
  | .cpEvent k tag value => some (leBytes 4 k ++ leBytes 4 tag.toNat ++ leBytes 4 value.toNat)
  | _ => none

/-- The oldest event message not yet carried goes out on a connection. -/
def execIrsinEvent (conn : Nat) : State → Res :=
  event fun s =>
    match look s.conns conn, s.out.findIdx? fun o => o.eventBytes.isSome with
    | some c, some i =>
      if c.room && s.ready.getLsbD 1 then
        some (({ s with out := s.out.eraseIdx i } : State).sendPkt conn 0x07 0 1 (((s.out[i]?).bind Out.eventBytes).getD []))
      else none
    | _, _ => none

/-- An acknowledgement alone has no turn. -/
def State.rxAck (s : State) (h : IrsinHdr) : Option State :=
  if s.ready.getLsbD 1 && (look s.conns h.conn).any (fun c => !c.failed) then some (s.takeAck h) else none

/-- A connection opens at the host's sequence number, one of 64. -/
def State.rxConnect (s : State) (h : IrsinHdr) : Option State :=
  if s.ready.getLsbD 1 && decide (h.conn < 64) then
    let s := s.forgetConn h.conn
    some (({ s with conns := put s.conns h.conn { Conn.blank with rxNext := (h.seq + 1) % 2 ^ 32 } } : State).ackNow h.conn)
  else none

def execIrsinAck (h : IrsinHdr) : State → Res := event fun s => s.rxAck h
def execIrsinConnect (h : IrsinHdr) : State → Res := event fun s => s.rxConnect h

/-- The timeout of a packet after n retries: 50 µs, doubled each time, up to 10 ms. -/
def retryTu (n : Nat) : Nat := min (50000 * 2 ^ n) 10000000 * Config.tuPerNs

def execIrsinRetransmitTimeout (conn seq : Nat) : State → Res :=
  event fun s =>
    match look s.conns conn with
    | none => none
    | some c =>
      match c.tx.find? (·.seq == seq) with
      | none => none
      | some p =>
        if c.failed || decide (s.tu < p.since + retryTu p.tries) then none
        else if 16 ≤ p.tries then
          let s : State := { s with conns := change s.conns conn fun c => { c with failed := true, tx := [], wait := [] } }
          some ((s.record tcData (portRec 0 conn)).failWaiting conn)
        else
          let s : State := { s with conns := change s.conns conn fun c =>
            { c with tx := c.tx.map fun x => if x.seq = seq then { x with tries := x.tries + 1, since := s.tu } else x } }
          some (s.emit (.irsin conn p.opcode seq p.addr p.flags p.payload (s.cumAck conn) (s.selAck conn)))

end Sys2Proof.Machine
end

