-- ==== Sys2Proof/Machine/Management.lean ====
section
/-! DEFINITION. The management channel, the device time counter's settings, and PTP (R420, R428 and the rules each
operation governs). -/

namespace Sys2Proof.Machine

/-! ### Requests and answers (R420) -/

/-- What performing a request comes to: it waits, it is refused, or it is done and answered. -/
inductive MgmtRes where
  | wait | refuse | done (s : State) (payload : List Byte)

/-- The oldest request is performed, where it is of the kind an event names. -/
def State.mgmt (s : State) (f : MgmtReq → State → Option MgmtRes) : Option State :=
  match s.mgmtQ with
  | [] => none
  | (conn, r) :: rest =>
    let s' : State := { s with mgmtQ := rest }
    match f r s' with
    | none => none
    | some .wait => none
    | some .refuse => some (State.drainBad (rest.length + 1) (s'.refuseReq conn))
    | some (.done t bs) => some (State.drainBad (rest.length + 1) (t.reply conn 0 bs))

/-- A request that is done where its body is right. -/
def MgmtRes.if_ (ok : Bool) (s : State) : MgmtRes := if ok then .done s [] else .refuse

/-! ### The ready vector (R412) -/

/-- A bit of the ready vector; every change sends an event message. -/
def State.setReady (s : State) (i : Nat) (v : Bool) : State :=
  if s.ready.getLsbD i = v then s
  else
    let m : BitVec 256 := 1#256 <<< i
    let r := if v then s.ready ||| m else s.ready &&& ~~~m
    { s with ready := r, out := s.out ++ [Out.readyVector r] }

/-! ### Status, areas, counters, tables -/

/-- Ready vector, status word, sensors and counters; the layout of the body is the model's (log entry 38). -/
def State.statusBytes (s : State) : List Byte :=
  leBytes 32 s.ready.toNat ++ leBytes 4 s.linkUp.toNat
    ++ ((List.range 128).flatMap fun c => leBytes 2 (s.cluster c).temp) ++ (s.pkgTemp.flatMap (leBytes 2)) ++ (s.regTemp.flatMap (leBytes 2))
    ++ ((List.range 64).flatMap fun c => leBytes 4 (((look s.chans c).map (·.corrected.toNat)).getD 0))

def execMgmtReadStatus : State → Res :=
  event fun s => s.mgmt fun r s => match r with
    | .readStatus => some (.done s s.statusBytes)
    | _ => none

/-- An area lies in LPDDR 6. -/
def areaOk (a : Option (Nat × Nat)) (align : Nat) : Bool := a.all fun x => x.1 % align == 0 && inDevice x.1 x.2

def execMgmtPlaceAreas : State → Res :=
  event fun s => s.mgmt fun r s => match r with
    | .placeAreas lg tr sp ta sv =>
      let p := s.pools
      some (.if_ (areaOk lg 64 && areaOk tr 64 && areaOk sp 1024 && areaOk (ta.map fun x => (x.1, 510 * 2 ^ 20)) (2 ^ 21) && areaOk sv 128)
        { s with pools := { logRing := lg.or p.logRing, traceRing := tr.or p.traceRing, spill := sp.or p.spill,
                            tagArea := ta.or p.tagArea, savePool := sv.or p.savePool } })
    | _ => none

/-- The sum of CLIM over the clusters that f places on a rail (R404). -/
def climSum (clim rail : Nat → Nat) (k : Nat) : Nat := (((List.range 128).filter fun c => rail c == k).map clim).sum

def State.clim (s : State) (c : Nat) : Nat := (s.cluster c).clim
/-- A cluster's rail once its move is made. -/
def State.railOf (s : State) (c : Nat) : Nat := ((s.cluster c).railNext).getD (s.cluster c).rail
def State.rlim (s : State) (k : Nat) : Nat := ((s.rails[k]?).map (·.rlim)).getD 0

/-- Every rail's sum within its limit. -/
def climOk (clim rail rlim : Nat → Nat) : Bool := (List.range 4).all fun k => decide (climSum clim rail k ≤ rlim k)

/-- CLIM of a cluster as a write or a rule sets it (R277, R404). -/
def State.mayClim (s : State) (c v : Nat) : Bool :=
  decide (c < 128) && decide (64 ≤ v ∧ v ≤ 1023)
    && climOk (fun k => if k = c then v else s.clim k) s.railOf s.rlim && climOk (fun k => if k = c then v else s.clim k) (fun k => (s.cluster k).rail) s.rlim

/-- A partition that meets no other (R405). -/
def State.mayPart (s : State) (i mask lo hi : Nat) : Bool :=
  decide (i < 4) && decide (mask < 16) && decide (lo ≤ hi) && decide (hi < 65536)
    && s.parts.all fun p => p.1 == i || ((p.2.rails &&& BitVec.ofNat 4 mask) == 0 && (decide (p.2.hi < lo) || decide (hi < p.2.lo)))

def execMgmtSetPower : State → Res :=
  event fun s => s.mgmt fun r s => match r with
    | .setClim c v => some (.if_ (s.mayClim c v) (s.modCluster c fun x => { x with clim := v }))
    | .setRlim k v => some (.if_ (decide (k < 4) && decide (v ≤ 16383) && climOk s.clim s.railOf (fun j => if j = k then v else s.rlim j)
          && climOk s.clim (fun c => (s.cluster c).rail) (fun j => if j = k then v else s.rlim j))
        { s with rails := s.rails.modify k fun x => { x with rlim := v } })
    | .setRail c k => some (.if_ (decide (c < 128) && decide (k < 4) && climOk s.clim (fun j => if j = c then k else s.railOf j) s.rlim)
        (s.modCluster c fun x => { x with railNext := some k }))
    | .setPartition i mask lo hi => some (.if_ (if mask = 0 then decide (i < 4) else s.mayPart i mask lo hi)
        { s with parts := if mask = 0 then erase s.parts i else put s.parts i ⟨BitVec.ofNat 4 mask, lo, hi⟩ })
    | .setBoost c on => some (.if_ (decide (c < 128)) (s.modCluster c fun x => { x with boost := on }))
    | _ => none

/-- A rule entry without a reserved value (R408). -/
def ruleOk (b : List Byte) : Bool :=
  let src := fieldAt b 0 2
  let kind := src / 4096
  let ix := src % 4096
  let act := fieldAt b 4 1
  b.length == 16 && decide (kind < 4) && decide (ix < [128, 16, 4, 64].getD kind 0) && decide (act ≤ 5) && fieldAt b 5 1 == 0
    && (if act = 3 then decide (64 ≤ fieldAt b 6 2 ∧ fieldAt b 6 2 ≤ 1023) else fieldAt b 6 2 == 0)
    && decide (0x8000 ≤ fieldAt b 8 2) && fieldAt b 10 6 == 0

def execMgmtWriteRule : State → Res :=
  event fun s => s.mgmt fun r s => match r with
    | .writeRule i b => some (.if_ (decide (i < 64) && ruleOk b) { s with rules := put s.rules i ⟨b, true⟩ })
    | _ => none

def execMgmtWritePlacement : State → Res :=
  event fun s => s.mgmt fun r s => match r with
    | .writePlacement i b => some (.if_ (decide (1 ≤ i ∧ i < 256) && b.length == 2048) { s with places := put s.places i b })
    | _ => none

def execMgmtSetPerfCounter : State → Res :=
  event fun s => s.mgmt fun r s => match r with
    | .setPerf core k ev st =>
      some (.if_ (decide (core < Config.cores) && decide (k < 8) && st.all fun x => decide (x < 8))
        (s.modCore core fun c => { c with perf := c.perf.modify k fun p => { p with event := ev, stage := st } }))
    | _ => none

/-- The orphan timeout: 1 µs to 1 s, raw (R359). -/
def execMgmtSetOrphanTimeout : State → Res :=
  event fun s => s.mgmt fun r s => match r with
    | .setOrphan raw => some (.if_ (decide (65536000 ≤ raw ∧ raw ≤ 65536000000000)) { s with orphan := raw })
    | _ => none

/-- RBASE: 128 MiB-aligned in LPDDR 6 (R380). -/
def execMgmtPlaceRbase : State → Res :=
  event fun s => s.mgmt fun r s => match r with
    | .placeRbase pa => some (.if_ (pa % 2 ^ 27 == 0 && inDevice pa (96 * 2 ^ 20)) { s with rbase := some pa })
    | _ => none

/-- A unit that walks by itself and has not come to an end reads its entries anew (R318, log entry 79). -/
def State.forgetWalks (s : State) : State :=
  { s with asks := s.asks.filter fun a => !(a.op == .read && a.for_ == .poll && match a.src with
      | .cp _ | .launch | .strips => true
      | _ => false) }

/-- Every TLB drops the entries that overlap a range, and the walks begun before end first (R318). -/
def execMgmtInvalidateTranslations : State → Res :=
  event fun s => s.mgmt fun r s => match r with
    | .invalidate asid lo hi =>
      if s.walks.any fun w => w.asid == asid then some .wait
      else
        let s := s.forgetWalks
        let keep (e : TlbE) : Bool := !(e.asid == asid && decide (e.va ≤ hi) && decide (lo < e.va + e.size))
        some (.done { s with
          cores := s.cores.map fun c => (c.1, { c.2 with tlb := c.2.tlb.filter keep })
          clusters := s.clusters.map fun c => (c.1, { c.2 with tlb := c.2.tlb.filter keep }) } [])
    | _ => none

/-! ### Processors, waves, queues and connections -/

/-- What units have brought a processor for a packet that it leaves is forgotten. -/
def State.forgetCp (s : State) (k : Nat) : State :=
  [cpWho k, cpWriteWho k, launchWho k, setupWho k].foldl State.stepDone s

/-- A queue as it is configured, empty and not started (R421). -/
def State.configCp (s : State) (k base lg asid root hw : Nat) : State :=
  let c := s.cp k
  let s := s.forgetCp k
  { s with cps := put s.cps k { CP.blank with
      base := base, size := 2 ^ lg, asid := asid, root := root, headWord := some hw, grids := c.grids, due := c.due, wdue := c.wdue } }

/-- A processor starts, or restarts, at an address of its queue: the nearest position at or before the tail that has it,
or the first (R423; log entry 39). -/
def State.startCp (s : State) (k addr : Nat) : State :=
  (s.forgetCp k).modCp k fun c =>
    let off := addr - c.base
    let back := (c.tail % c.size + c.size - off) % c.size
    let p := if back ≤ c.tail then c.tail - back else off
    { c with head := p, tail := max c.tail p, ib := [], loops := [], held := [], wait := .none, running := true }

def execMgmtCommandProcessor : State → Res :=
  event fun s => s.mgmt fun r s => match r with
    | .cpConfig k base lg asid root hw =>
      some (.if_ (decide (k < 8) && decide (12 ≤ lg ∧ lg ≤ 24) && base % 2 ^ lg == 0 && decide (base + 2 ^ lg ≤ 2 ^ 52) && decide (asid < 65536)
          && root % 65536 == 0 && hw % 8 == 0) (s.configCp k base lg asid root hw))
    | .cpStart k addr =>
      let c := s.cp k
      some (.if_ (decide (k < 8) && decide (0 < c.size) && decide (c.base ≤ addr) && decide (addr < c.base + c.size) && addr % 4 == 0) (s.startCp k addr))
    | _ => none

/-- A request raised between two packets of a processor (R420). -/
def execMgmtPreempt : State → Res :=
  event fun s => s.mgmt fun r s => match r with
    | .preempt k t =>
      if 8 ≤ k then some .refuse
      else match (s.cp k).wait with
        | .mem | .time _ => some .wait
        | _ => some (.done (s.preempt t) [])
    | _ => none

def execMgmtWake : State → Res :=
  event fun s => s.mgmt fun r s => match r with
    | .wake g wg w => some (.done (s.wake g wg w) [])
    | _ => none

/-- A stopped wave named by grid, workgroup index and SR_WAVE. -/
def State.brkSaved (s : State) (g wg w : Nat) : Option Saved :=
  s.saved.find? fun x => x.brk && x.grid == g && (s.wg x.wg).lin == wg && x.idx == w
def State.brkWaves (s : State) (f : Wave → Bool) : List (Nat × Nat) := s.contexts fun w => w.brk && f w

def execMgmtResumeBreakpoint : State → Res :=
  event fun s => s.mgmt fun r s => match r with
    | .resumeBrk g wg w =>
      match s.brkSaved g wg w with
      | some x =>
        let fl := s.phys (x.addr + 6)
        some (.done (({ s with saved := s.saved.map fun y => if y = x then { y with brk := false } else y } : State).store (x.addr + 6) [fl &&& ~~~4#8]) [])
      | none =>
        match s.brkWaves fun v => v.grid == g && (s.wg v.wg).lin == wg && v.idx == w with
        | (core, ctx) :: _ => some (.done (s.modWave core ctx fun v => { v with brk := false }) [])
        | [] => some .refuse
    | .endGrid g =>
      let stopped := s.saved.any (fun x => x.brk && x.grid == g) || !(s.brkWaves fun v => v.grid == g).isEmpty
      some (.if_ stopped (s.endGrid g))
    | _ => none

/-- A task grid's queue joins a cluster's gatherer (R349). -/
def execMgmtAssignTaskQueue : State → Res :=
  event fun s => s.mgmt fun r s => match r with
    | .assignQueue g c =>
      some (.if_ (decide (c < 128) && (look s.grids g).any fun x => x.d.kind == 2)
        (s.modCluster c fun x => { x with taskQs := if x.taskQs.contains g then x.taskQs else x.taskQs ++ [g] }))
    | _ => none

/-- The host window goes to a connection, and what waited is sent (R419). -/
def execMgmtMapHostWindow : State → Res :=
  event fun s => s.mgmt fun r s => match r with
    | .mapHostWindow c => some (.if_ (decide (c < 64)) ({ s with hostConn := some c } : State).pumpHost)
    | _ => none

/-! ### Attestation (R414) -/

/-- What an attestation signs. -/
def State.attestBytes (s : State) (nonce : BitVec 256) : List Byte :=
  (s.meas.flatMap fun m => leBytes 64 m.toNat) ++ leBytes 32 nonce.toNat ++ leBytes 8 s.dtc.toNat ++ leBytes 4 Config.fuseVersion
    ++ leBytes 64 Config.identityKey.toNat

def execMgmtAttestation : State → Res :=
  event fun s => s.mgmt fun r s => match r with
    | .attestation nonce =>
      let bs := s.attestBytes nonce
      some (.done s (bs ++ leBytes 49856 (Config.slhSign bs).toNat))
    | _ => none

/-! ### The DTC and PTP (R427, R428) -/

/-- The interval that a device time lies in (R406). -/
def intervalOf (t : DWord) : Nat := t.toNat / (5000 * 65536)

/-- The DTC is set: times of the old scale are forgotten, and DTC valid is set after it. -/
def State.setDtc (s : State) (t : DWord) : State :=
  ({ s with
    dtc := t, dtcFrac := 0, interval := intervalOf t
    cores := s.cores.map fun c => (c.1, { c.2 with l1 := [], fills := [] })
    clusters := s.clusters.map fun c => (c.1, { c.2 with claims := c.2.claims.map fun x => { x with lease := 0 } })
    slices := s.slices.map fun x => (x.1, { x.2 with horizon := 0, lines := x.2.lines.map fun l => { l with expiry := 0 } }) } : State).setReady 3 true

/-- The DTC may be set: no grid is accepted, and no stream is enabled. -/
def State.dtcFree (s : State) : Bool := s.grids.isEmpty && s.enabled.isEmpty

def execMgmtSetPtp : State → Res :=
  event fun s => s.mgmt fun r s => match r with
    | .setPtp p d => some (.if_ (decide (p < 2) && decide (d < 128)) { s with ptpProfile := p, ptpDomain := d })
    | .freeRun t =>
      some (.if_ s.dtcFree (({ (s.setReady 3 false).setReady 2 false with dtcFollow := false, dtcPpb := 0 } : State).setDtc t))
    | .leaveFreeRun =>
      some (.if_ (s.dtcFree && !s.dtcFollow) { (s.setReady 3 false) with dtcFollow := true, dtcLockSet := false })
    | _ => none

/-- The servo's frequency, in parts in 10⁹: toward the master, at most 50 ppm; the manual gives no more of its law. -/
def State.servo (s : State) (offset : Int) : Int :=
  let r : Int := Int.ofNat ((s.word 26 0).toNat % 50001)
  if offset = 0 then 0 else if 0 < offset then r else -r

/-- The DTC follows a master, and is locked. -/
def State.mayServo (s : State) : Bool := s.dtcFollow && s.dtcLockSet && s.linkUp && s.ready.getLsbD 2

/-- A PTP message is timestamped, and once locked the servo slews the DTC by the offset to the master. -/
def execPtpMessage (offset : Int) : State → Res :=
  event fun s => if s.mayServo then some { s with dtcPpb := s.servo offset } else none

/-- A lock: the first after reset or after free-run sets the DTC to PTP time. -/
def execPtpLock (time : BitVec 64) : State → Res :=
  event fun s =>
    if !s.dtcFollow || s.ready.getLsbD 2 || s.boot != .running || !s.linkUp then none
    else if s.dtcLockSet then some (s.setReady 2 true)
    else some (({ s with dtcLockSet := true } : State).setDtc time |>.setReady 2 true)

/-- Loss of lock: the DTC holds its frequency. -/
def execPtpLossOfLock : State → Res :=
  event fun s => if s.ready.getLsbD 2 then some (s.setReady 2 false) else none

/-- The link goes down or up (R415). -/
def execEthernetLinkChange (up : Bool) : State → Res := event fun s => some { s with linkUp := up }

end Sys2Proof.Machine
end

