-- ==== Sys2Proof/Machine/Issue.lean ====
section
/-! DEFINITION. Issuing an instruction: the decode order of R60, the target rule of a fetched modifier (R56 to R59,
R436), the bank rule (R54), register budgets (R17), pairs, lookahead windows (R34), and the choice of splits in a
core cycle (R29 to R33, R235 to R238). `run` is exec. -/

namespace Sys2Proof.Machine

/-! ### Register operands an instruction's fields select (R17) -/

def grp (o : Opnd) (w : Nat) : List Opnd := (List.range w).map (Opnd.plus o)

def srcBs (b : SrcB) (w : Nat) : List Opnd :=
  match b with
  | .reg o => grp o w
  | .imm _ => []

def vReg (n : Fin 128) (w : Nat) : List Opnd := grp (.v n) w
def sReg (n : Fin 64) (w : Nat) : List Opnd := grp (.s n) w

def tgtOps : Target → List Opnd
  | .disp _ => []
  | .reg n => sReg n 2

def locOps (o : LocalOp) (aw : Nat) : List Opnd := grp o.d o.size.regs ++ grp o.a aw ++ [o.b]
def halfOps (h : Half) : List Opnd :=
  match h.s with
  | .reg o => [.v h.d, o]
  | .imm _ => [.v h.d]

/-- Every register the fields select, groups in full. -/
def opnds : Instr → List Opnd
  | .add o _ | .sub o _ | .mulLo o _ | .mulHi o _ | .min o _ | .max o _ | .and o | .or o | .xor o | .shl o | .shr o
  | .sar o | .rot o | .bfe o _ | .bfi o | .fadd o | .fsub o | .fmul o | .fmin o _ | .fmax o _ | .mkaff o
  | .rdlane o => [o.d, o.a] ++ srcBs o.b 1
  | .addW o => grp o.d 2 ++ grp o.a 2 ++ srcBs o.b 2
  | .lea o _ _ => grp o.d 2 ++ grp o.a 2 ++ srcBs o.b 1
  | .mad o _ | .lop3 o _ | .sel o | .plop o _ | .dp4 o _ _ | .ffma o | .hfma2 o _ | .fdot2 o _ | .pack4 o _ =>
    [o.d, o.a, o.b, o.c]
  | .abs o | .popc o | .clz o | .brev o | .mov o | .fclass o _ | .frnd o | .ffrac o | .frcp o | .frsq o | .fsqrt o
  | .fexp2 o | .flog2 o | .fsin o | .fcos o | .ftanh o | .cvt o _ _ | .unpack o _ _ | .qblk o _ | .dqblk o | .vote o _
  | .redux o _ | .scan o _ _ | .tagof o => [o.d, o.a]
  | .cmp o _ _ _ | .fcmp o _ _ _ | .fdiv o | .hadd2 o _ | .hmul2 o _ | .pack2 o _ | .i4g o _ | .shfl o _ _ =>
    [o.d, o.a, o.b]
  | .movi _ d _ | .movs _ d _ => [d]
  | .setsr r a => grp a (if r.wide then 2 else 1)
  | .jmp t => tgtOps t
  | .call d t => sReg d 2 ++ tgtOps t
  | .ret a => sReg a 2
  | .loop d _ => [.s d]
  | .perfRd d _ => sReg d 2
  | .rpf vc vb mask =>
    (List.range 16).flatMap fun i =>
      if mask.getLsbD i then
        (if i < 8 then (vb.map fun b => Opnd.plus (.v b) i).toList else (vc.map fun c => Opnd.plus (.v c) (i - 8)).toList)
      else []
  | .br _ a _ => [a]
  | .callx d a => sReg d 2 ++ vReg a 2
  | .ldA o | .stA o | .ldW o => locOps o 1
  | .ldG o _ | .stG o => locOps o 2
  | .ldC o | .stC o => grp o.d o.size.regs ++ [o.a]
  | .atomA _ _ d a b _ _ => [d, a, b]
  | .casA _ _ d a b c => [d, a, b, c]
  | .tagset o | .tagclr o | .tagwait o _ => [o.a]
  | .prefG _ a b _ _ => grp a 2 ++ [b]
  | .waitc a _ | .mwait a | .sleep a | .perfMark a => [a]
  | .atomG _ _ d a b _ _ wide _ => let w := if wide then 2 else 1; grp d w ++ grp a 2 ++ grp b w
  | .casG _ _ d a b c wide _ => let w := if wide then 2 else 1; grp d w ++ grp a 2 ++ grp b w ++ grp c w
  | .qpush _ d a b z => [d] ++ grp a 2 ++ grp b z.regs
  | .qpop _ _ d a c z => grp d z.regs ++ grp a 2 ++ [c]
  | .binit _ a | .bexp _ a _ | .bbind _ a => [a]
  | .bwait _ p => p.toList
  | .btest _ d _ _ => [d]
  | .kick a b _ => [a, b]
  | .strdef d _ a _ => [d, a]
  | .strq _ _ d c _ z _ => grp d z.regs ++ [c]
  | .spawn d a b => [d] ++ sReg a 2 ++ vReg b 8
  | .task _ d a b c => [d] ++ grp a 2 ++ grp b 2 ++ grp c 8
  | .mma o | .mmaSp o => sReg o.fb 2 ++ [o.a, o.b, o.c]
  | .vmx _ _ d a b fb kk => vReg d 16 ++ vReg a (8 * (kk.toNat + 1)) ++ [.v b] ++ sReg fb 2
  | .aepi _ _ a b _ _ _ => [a, b]
  | .amax _ _ d a _ _ => vReg d 2 ++ [a]
  | .scldef _ a b => sReg a 2 ++ [b]
  | .rrot a b _ => [a, b]
  | .xst _ d a b _ z => grp d z.regs ++ [a, b]
  | .grid _ d c => vReg d 4 ++ [c]
  | .gderiv _ d a b _ => [.v d, .v a, b]
  | .tex _ _ d a b c => vReg d 4 ++ vReg a 2 ++ sReg b 2 ++ vReg c 4
  | .texLz _ _ d a b => vReg d 4 ++ vReg a 2 ++ sReg b 2
  | .gemit d a b c => [d] ++ vReg a 8 ++ vReg b 4 ++ [c]
  | .kbres a _ => [a]
  | .srateGrid d a => [d, a]
  | .srateCell d a b => [d, a, b]
  | .rfbk _ a b => [a, b]
  | .btagAlloc _ d | .bstatSnd d | .bstatRcv d => [d]
  | .btagFree _ a => [a]
  | .bsend d a b c _ _ => [d, a] ++ sReg b 2 ++ [c]
  | .halfAdd h | .halfSub h | .halfAnd h | .halfOr h | .halfXor h | .halfShl h | .halfShr h | .halfSar h | .halfMin h
  | .halfMax h | .halfMov h | .halfFadd h | .halfFmul h | .halfFmin h | .halfFmax h | .halfFsub h => halfOps h
  | _ => []

def opndV : Opnd → Option Nat
  | .v n => some n.val
  | _ => none

/-- The lowest selected V register at or above the declared count (R17). -/
def overBudget (n : Nat) (i : Instr) : Option Nat :=
  ((opnds i).filterMap opndV |>.filter fun k => n ≤ k).min?

/-! ### Fetched modifiers (R56 to R59, R77, R436) -/

inductive PfxFit where
  | fits | orphan | illegal
  deriving DecidableEq, Repr

/-- An integer result: .satf and nothing else (R77). -/
def fitInt (m : PfxM) : PfxFit := if m.rnd = .dflt && (m.sat = .none || m.sat = .satf) && !m.ftz then .fits else .illegal
/-- Any saturation and flush, the opcode's own rounding (R112). -/
def fitNoRnd (m : PfxM) : PfxFit := if m.rnd = .dflt then .fits else .illegal
/-- Rounding and .satf (R123). -/
def fitPack (m : PfxM) : PfxFit := if (m.sat = .none || m.sat = .satf) && !m.ftz then .fits else .illegal

/-- What an instruction makes of a pfx.m whose target writes an integer result but takes no prefix: a field that no
integer result accepts is refused before the prefix is an orphan (R77, R60; log entry 71). -/
def fitNone (m : PfxM) : PfxFit := if fitInt m = .fits then .orphan else .illegal

/-- Whether an instruction accepts a pfx.m, and with which fields (R77, R112 to R126, R131, R291). The half fmin and fmax
take the rounding of their full forms, the default alone (R52, R114; log entry 72). A conversion to an integer type takes
.satf alone (R77; log entry 50). -/
def fitM (m : PfxM) : Instr → PfxFit
  | .add _ _ | .sub _ _ | .mulLo _ _ | .mad _ _ | .abs _ | .dp4 _ _ _ => fitInt m
  | .fadd _ | .fsub _ | .fmul _ | .ffma _ | .frnd _ | .fsqrt _ | .fdiv _ | .hadd2 _ _ | .hmul2 _ _ | .hfma2 _ _
  | .fdot2 _ _ | .gderiv _ _ _ _ _ => .fits
  | .fmin _ _ | .fmax _ _ | .ffrac _ | .frcp _ | .frsq _ | .fexp2 _ | .flog2 _ | .fsin _ | .fcos _ | .ftanh _
  | .halfFmin _ | .halfFmax _ => fitNoRnd m
  | .fcmp _ _ _ _ => if m.rnd = .dflt && m.sat = .none then .fits else .illegal
  | .cvt _ dst _ => if (cvtInt dst).isSome then fitInt m else .fits
  | .pack2 _ ty => if ty = .i16 || ty = .n16 then fitInt m else fitPack m
  | .pack4 _ ty => if ty = .i8 || ty = .n8 then fitInt m else fitPack m
  | .qblk _ _ => if m.sat = .none then .fits else .illegal
  | .unpack _ ty _ => if ty = .i8 || ty = .n8 || ty = .i16 || ty = .n16 then fitNone m else .orphan
  | .dqblk _ => if m.rnd = .dflt && (m.sat = .none || m.sat = .satf) && !m.ftz then .fits else .illegal
  | .redux _ op | .scan _ op _ => match op with
    | .fadd | .fmin | .fmax => .fits
    | _ => fitNone m
  | .halfFadd _ | .halfFmul _ | .halfFsub _ => .fits
  | .mulHi _ _ | .min _ _ | .max _ _ | .and _ | .or _ | .xor _ | .lop3 _ _ | .shl _ | .shr _ | .sar _ | .rot _ | .bfe _ _
  | .bfi _ | .popc _ | .clz _ | .brev _ | .addW _ | .lea _ _ _ | .halfAdd _ | .halfSub _ | .halfAnd _ | .halfOr _
  | .halfXor _ | .halfShl _ | .halfShr _ | .halfSar _ | .halfMin _ | .halfMax _ => fitNone m
  | _ => .orphan

def srcImm : SrcB → Bool
  | .imm _ => true
  | .reg _ => false

def tgtImm : Target → Bool
  | .disp _ => true
  | .reg _ => false

/-- Whether an instruction is in an immediate form that takes pfx.i (R436). -/
def fitI : Instr → Bool
  | .add o _ | .sub o _ | .mulLo o _ | .mulHi o _ | .min o _ | .max o _ | .and o | .or o | .xor o | .shl o | .shr o
  | .sar o | .rot o | .bfe o _ | .bfi o | .addW o | .lea o _ _ | .fadd o | .fsub o | .fmul o | .fmin o _ | .fmax o _
  | .mkaff o | .rdlane o => srcImm o.b
  | .movi _ _ _ | .br _ _ _ | .brD _ _ _ | .loop _ _ => true
  | .jmp t | .call _ t => tgtImm t
  | _ => false

def isPfx : Instr → Bool
  | .pfxM _ | .pfxI _ => true
  | _ => false

/-- The target rule for a fetched modifier p and its target. -/
def pfxFit (p target : Instr) : PfxFit :=
  match p with
  | .pfxM m => fitM m target
  | .pfxI _ => if fitI target then .fits else .orphan
  | _ => .orphan

/-! ### The checks of R60 -/

def bankV (n : Nat) : Nat := n % 4

/-- The registers a half reads by bank: its D, and S when that names a V register; hnop and modifiers none (R54). -/
def halfBanks (i : Instr) : List Nat :=
  match halfOf i with
  | some (h, _) => h.d.val % 4 :: (match h.s with | .reg (.v n) => [n.val % 4] | _ => [])
  | none => []

/-- R54: the two D registers in different banks, and no bank read more than twice. -/
def pairOk (hi lo : Instr) : Bool :=
  let ds := match halfOf hi, halfOf lo with
    | some (a, _), some (b, _) => a.d.val % 4 != b.d.val % 4
    | _, _ => true
  let reads := halfBanks hi ++ halfBanks lo
  ds && [0, 1, 2, 3].all fun b => (reads.filter (· == b)).length ≤ 2

def tIll : Nat := 0x01
def tPair : Nat := 0x03
def tOrphan : Nat := 0x04

def derrTrap : DErr → TrapReq
  | .encoding o => trapI tcEncoding o
  | .opcode op => trapI tIll op

/-- A failed check with the place its trap names. -/
abbrev Checked := Except (TrapReq × TrapAt)

def fail {α : Type} (t : TrapReq) (at_ : TrapAt) : Checked α := .error (t, at_)

/-- The bundle after the one at pc, which a low-slot modifier at pc applies to; a fetch fault is reported at the
modifier's bundle (R58). -/
def State.nextBundle (s : State) (pc : DWord) : Checked (DWord × Except DErr Bundle) :=
  match s.fetch s.cur.core s.w.grid (pc + 8) with
  | .error t => fail t ⟨pc, true⟩
  | .ok x => .ok (x, decodeBundle x)

/-- The instruction that a low-slot modifier applies to, with the E bit of its bundle (R58). -/
def lowTarget (b : Except DErr Bundle) : Option (Bool × Instr) :=
  match b with
  | .error _ => none
  | .ok ⟨e, .full i⟩ => some (e, i)
  | .ok ⟨e, .pair hi _⟩ => some (e, hi)

/-- Order 3 for a modifier: a field that its target refuses (R77, R112). -/
def fieldCheck (p : Instr) (t : Option (Bool × Instr)) (at_ : TrapAt) : Checked Unit :=
  match t with
  | some (_, i) => if pfxFit p i = .illegal then fail (trapI tcEncoding 3) at_ else .ok ()
  | none => .ok ()

/-- Order 4 for a modifier: no target, one behind an entry mark, or one that does not accept it (R58). -/
def orphanCheck (p : Instr) (t : Option (Bool × Instr)) (at_ : TrapAt) : Checked Unit :=
  match t with
  | some (e, i) => if e || decide (pfxFit p i ≠ .fits) then fail (trapI tOrphan 0) at_ else .ok ()
  | none => fail (trapI tOrphan 0) at_

def budgetCheck (n : Nat) (i : Instr) (at_ : TrapAt) : Checked Unit :=
  match overBudget n i with
  | some k => fail (trapI tcReg k) at_
  | none => .ok ()

/-- The half of a pair's bundle in a slot (R51). -/
def halfAt (x : DWord) (low : Bool) : BitVec 30 := if low then x.extractLsb' 1 30 else x.extractLsb' 31 30

/-- Order 6 for the half of a pair's bundle in a slot. A half no-op names its D register too, which its instruction does not
keep (R17, R53, R61). -/
def halfBudget (n : Nat) (x : DWord) (low : Bool) (i : Instr) (at_ : TrapAt) : Checked Unit :=
  let d := ((halfAt x low).extractLsb' 13 7).toNat
  match i with
  | .hnop => if n ≤ d then fail (trapI tcReg d) at_ else .ok ()
  | i => budgetCheck n i at_

/-- What a split issues after orders 1 to 6 (R60): an instruction; a pair; a modifier with the low half; the half before
a low-slot modifier; a low-slot modifier with its target, which stands in the next bundle. -/
inductive Job where
  | full (i : Instr)
  | pair (hi lo : Instr)
  | pfxLo (pfx lo : Instr)
  | half (hi : Instr)
  | target (pfx : Instr) (b : Body)
  deriving DecidableEq, Repr

/-- Orders 5 and 6 for a pair without modifiers. -/
def pairChecks (n : Nat) (x : DWord) (hi lo : Instr) (at_ : TrapAt) : Checked Unit := do
  if pairOk hi lo then .ok () else fail (trapI tPair 0) at_
  halfBudget n x false hi at_
  halfBudget n x true lo at_

/-- Orders 3 to 6 of a pair's bundle x at pc, of each order the high half first. With modifiers in both slots a fault in
fetching the next bundle comes before the orphan of the high one (log entry 73). The checks of what the bundle holds
itself are reported at `own`, those of its low-slot modifier at its low slot. -/
def State.bundleChecks (s : State) (pc x : DWord) (hi lo : Instr) (own : TrapAt) : Checked Unit :=
  let low : TrapAt := ⟨pc, true⟩
  if isPfx lo then do
    let nb ← s.nextBundle pc
    if isPfx hi then fieldCheck hi (some (false, lo)) own else .ok ()
    fieldCheck lo (lowTarget nb.2) low
    if isPfx hi then fail (trapI tOrphan 0) own else .ok ()
    orphanCheck lo (lowTarget nb.2) low
    halfBudget s.w.n x false hi own
  else if isPfx hi then do
    fieldCheck hi (some (false, lo)) own
    orphanCheck hi (some (false, lo)) own
    halfBudget s.w.n x true lo own
  else pairChecks s.w.n x hi lo own

/-- The checks of orders 1 to 6 on what the split issues: the bundle at its PC, or, where it goes on at the low slot, the
bundle after it, which the modifier there applies to. What the target's own bundle fails is reported at the modifier
(R59), an orphan in its low slot at that slot (R58; log entry 74). -/
def State.prepare (s : State) : Checked Job := do
  let p := s.sp
  let own : TrapAt := ⟨p.pc, false⟩
  let x ← match s.fetch s.cur.core s.w.grid p.pc with
    | .ok x => .ok x
    | .error t => fail t own
  let b ← match decodeBundle x with
    | .ok b => .ok b
    | .error e => fail (derrTrap e) own
  match b.body with
  | .full i => do
    budgetCheck s.w.n i own
    .ok (.full i)
  | .pair hi lo => do
    s.bundleChecks p.pc x hi lo own
    if isPfx lo && p.low then do
      let nb ← s.nextBundle p.pc
      match nb.2 with
      | .ok ⟨_, .full i⟩ => do
        budgetCheck s.w.n i ⟨p.pc, true⟩
        .ok (.target lo (.full i))
      | .ok ⟨_, .pair hi' lo'⟩ => do
        s.bundleChecks (p.pc + 8) nb.1 hi' lo' ⟨p.pc, true⟩
        .ok (.target lo (.pair hi' lo'))
      | .error _ => fail (trapI tOrphan 0) ⟨p.pc, true⟩
    else if isPfx lo then .ok (.half hi)
    else if isPfx hi then .ok (.pfxLo hi lo)
    else .ok (.pair hi lo)

/-! ### Performing (R34, R54, R55, R59) -/

/-- An instruction is issued: windows that have ended are gone, the others count it (R34). -/
def State.countIssue (s : State) (k : Nat) : State :=
  s.modSp fun p => { p with
    windows := (p.windows.filter fun w => !(w.delivered && w.left ≤ 1)).map fun w => { w with left := w.left - k }
    readyAt := 0, young := false }

/-- Every window that must be delivered before the next instruction has been (R34, R35). -/
def Split.windowsReady (p : Split) : Bool := p.windows.all fun w => w.delivered || 1 < w.left

abbrev Run := Instr → State → Res

/-- Goes on from a next state; a stop stays a stop. -/
def andThen (r : Res) (f : State → Res) : Res :=
  match r with
  | .next s => f s
  | .fault e => .fault e
  | .refused e => .refused e

/-- Whether a half would need a row it cannot have, given how many rows are already spoken for (R26, R55). -/
def State.halfNeed (s : State) (i : Instr) : Option (Nat × Bool) :=
  match halfOf i with
  | some (h, op) =>
    let r := s.halfEval h op
    let cur := s.w.v.getD h.d.val .unwritten
    some (h.d.val, (VReg.written r.2.1 r.1 cur).isGen && !s.w.rowed h.d.val)
  | none => none

/-- The first D of a pair whose row cannot be had, judged on the rows held before either half writes; a modifier in force is
the high half's (R26, R55, R59). -/
def State.pairShort (s : State) (hi lo : Instr) : Option Nat :=
  let need (x : Option (Nat × Bool)) : Bool := x.any (·.2)
  let h := s.halfNeed hi
  let l := (s.modSp fun p => { p with pfx := none }).halfNeed lo
  let held := s.w.rows
  let after := held + (if need h then 1 else 0)
  if need h && decide (s.w.g ≤ held) then h.map (·.1)
  else if need l && decide (s.w.g ≤ after) then l.map (·.1)
  else none

/-- What the low half reads before the high half writes (R54). -/
def State.latchOf (s : State) (i : Instr) : Option (VReg × VReg) :=
  (halfOf i).map fun e => (s.readV e.1.d.val, s.halfSrc e.1 e.2.float)

/-- Both halves read, then the high half and the low half perform, and the split moves on (R54, R55). -/
def runPair (run : Run) (hi lo : Instr) (s : State) : Res :=
  match s.pairShort hi lo with
  | some d => .next (s.raise (trapI tcRow d))
  | none =>
    let latch := s.latchOf lo
    andThen (run hi s) fun s =>
      let s := s.modSp fun p => { p with latch := latch }
      andThen (run lo s) fun s => .next ((s.modSp fun p => { p with latch := none }).advance)

/-- A half alone, moving on by `f`; a ROW_BUDGET trap stays a trap. -/
def runHalf (run : Run) (i : Instr) (f : State → Res) (s : State) : Res :=
  match s.pairShort i .hnop with
  | some d => .next (s.raise (trapI tcRow d))
  | none => andThen (run i s) f

/-- A modifier in the low slot with its target, as one instruction: the target runs with the PC on its own bundle (R58,
R59). Where that bundle has a modifier in its low slot too, the split goes on there. -/
def runTarget (run : Run) (pfx : Instr) (b : Body) (s : State) : Res :=
  andThen (run pfx (s.modSp fun p => { p with low := true })) fun s =>
    let s := s.modSp fun p => { p with pc := p.pc + 8, low := false }
    match b with
    | .full i => run i s
    | .pair hi lo =>
      if isPfx lo then runHalf run hi (fun s => .next (s.modSp fun p => { p with low := true })) s
      else runPair run hi lo s

/-- The split waits for its deliveries and issues again (R34). -/
def State.waitDeliver (s : State) (low : Bool) : State :=
  s.modSp fun p => { p with low := low, status := .waiting .deliver }

/-- A pair needs two places in every window still undelivered (R34, log entry 17). -/
def Split.roomForPair (p : Split) : Bool := p.windows.all fun w => w.delivered || 2 < w.left

/-- The instructions of a job, a modifier counting as part of its target (R34, R255). -/
def Job.instrs : Job → List Instr
  | .full i => [i]
  | .pair hi lo => [hi, lo]
  | .pfxLo _ lo => [lo]
  | .half hi => [hi]
  | .target _ (.full i) => [i]
  | .target _ (.pair hi lo) => if isPfx lo then [hi] else [hi, lo]

/-- One job of a split. -/
def perform (run : Run) (j : Job) (s : State) : Res :=
  if j.instrs.length = 2 && !s.sp.roomForPair then .next (s.waitDeliver s.sp.low)
  else
    let s := s.countIssue j.instrs.length
    match j with
    | .full i => run i s
    | .pair hi lo => runPair run hi lo s
    | .pfxLo pfx lo => andThen (run pfx s) fun s => runHalf run lo (fun s => .next s.advance) s
    | .half hi => runHalf run hi (fun s => .next (s.modSp fun p => { p with low := true })) s
    | .target pfx b => runTarget run pfx b s

/-- A split may start an instruction: live, not parked or waiting, its windows delivered, no other split's handler
active, and its wave not being stopped (R235, R241, R247). -/
def Wave.canIssue (w : Wave) (p : Split) : Bool :=
  p.status == .running && p.windowsReady && !w.brk && w.stop == .none
    && (match w.handler with | none => true | some h => h == p.id)

/-- What a chain started early may not do before it is confirmed (R378): any write outside its staging. -/
def writesOutside : Instr → Bool
  | .stG _ | .atomG _ _ _ _ _ _ _ _ _ | .casG _ _ _ _ _ _ _ _ | .qpush _ _ _ _ _ | .qpop _ _ _ _ _ _ | .task _ _ _ _ _
  | .btagAlloc _ _ | .btagFree _ _ | .bsend _ _ _ _ _ _ | .rfbk _ _ _ | .xst _ _ _ _ _ _ | .perfMark _ => true
  | _ => false

/-- The executing split issues what stands at its PC. The wave's first issue sets SR_LWT (R18). A load that met an
uncorrectable error delivered nothing; DATA_ERROR is raised here, at the first instruction that waits for it, with the
load's bundle in the record (R410). -/
def issue (run : Run) (s : State) : Res :=
  if s.live && s.w.canIssue s.sp then
    let s := if s.w.started then s else
      s.modW fun w => { w with started := true, lwt := if w.lwtSet then w.lwt else s.now s.cur.core }
    match s.sp.windows.find? fun w => w.err.isSome && w.left ≤ 1 with
    | some x => .next (s.raiseWindow x)
    | none =>
    match s.prepare with
    | .error (t, at_) => .next (s.raiseAt s.cur.core s.cur.ctx s.cur.split t at_)
    | .ok (.full i) =>
      if s.spec s.w.grid && writesOutside i then .next (s.modSp fun p => { p with status := .waiting .confirm })
      else perform run (.full i) s
    | .ok j => perform run j s
  else .next s

end Sys2Proof.Machine
end

