-- ==== Sys2Proof/Machine/WaveOps.lean ====
section
/-! DEFINITION. The wave instructions, group 0x3 (R128 to R136): cross-thread operations, shape tags and special
registers. -/

namespace Sys2Proof.Machine

/-- vote (R129). -/
def voteResult (op : VoteOp) (part p : Mask) : Bool :=
  match op with
  | .or => part &&& p != 0
  | .and => part &&& ~~~p == 0
  | .agree => (part &&& p == 0) || (part &&& ~~~p == 0)
  | .mask => false

def execVote (o : Op1) (op : VoteOp) : State → Res :=
  isa fun s =>
    let part := s.guardMask o.g
    let p := s.pOf o.a
    match op with
    | .mask =>
      match o.d with
      | .v n => s.writeV n.val (.uni (part &&& p)) s.sp.mask
      | d => s.writeD d (.uni (part &&& p)) fullMask
    | op => .ok (s.setP o.d (if voteResult op part p then fullMask else 0) s.sp.mask)

/-- The lane shfl reads (R130). -/
def shflLane (mode : ShflMode) (w t b : Nat) : Nat :=
  let base := t / w * w
  match mode with
  | .at => base + b % w
  | .mir => t ^^^ (b % w)
  | .back => if t < base + b then t else t - b
  | .fwd => if base + w ≤ t + b then t else t + b

def execShfl (o : OpAB) (mode : ShflMode) (lg : Fin 6) : State → Res :=
  isa fun s =>
    let a := s.crossV o.a
    let b := s.src o.b
    let lane (t : Nat) : Nat := shflLane mode (2 ^ lg.val) t ((b.at t).toNat % 32)
    match o.d with
    | .v n =>
      s.writeV n.val (if a.isUni then .uni (a.at 0) else .gen ((List.range 32).map fun t => a.at (lane t))) (s.guardMask o.g)
    | d => do
      let x ← s.scalar o.a
      s.writeD d (.uni x) fullMask

/-- The identity of an operation (R131). -/
def redIdent (op : RedOp) : Word :=
  match op with
  | .addI32 => 0 | .minI32 => 0x7FFFFFFF#32 | .maxI32 => 0x80000000#32 | .minN32 => 0xFFFFFFFF#32 | .maxN32 => 0
  | .and => 0xFFFFFFFF#32 | .or => 0 | .xor => 0 | .fadd => 0x80000000#32 | .fmin => 0x7F800000#32
  | .fmax => 0xFF800000#32

/-- One combining step; saturation is left to the value written (R131). -/
def redStep (op : RedOp) (md : Mods) (u : Nat) (a b : Word) : Word :=
  let md := { md with sat := .none }
  match op with
  | .addI32 => a + b
  | .minI32 => aluMin .i32 a b
  | .maxI32 => aluMax .i32 a b
  | .minN32 => aluMin .n32 a b
  | .maxN32 => aluMax .n32 a b
  | .and => a &&& b
  | .or => a ||| b
  | .xor => a ^^^ b
  | .fadd => fopAdd md u a b
  | .fmin => fopMinMax false false md a b
  | .fmax => fopMinMax true false md a b

def redIsFloat (op : RedOp) : Bool :=
  match op with
  | .fadd | .fmin | .fmax => true
  | _ => false

/-- The saturation of the value written; without one the value stands as it is (R131). -/
def redSat (op : RedOp) (md : Mods) (x : Word) : Word :=
  if redIsFloat op && md.sat != .none then w32 (roundTo f32 ⟨.rne, md.sat, false⟩ 0 (decode f32 x.toNat).toX) else x

/-- A combining step that draws under .rs. -/
def redDraw (op : RedOp) (md : Mods) (seed : Word) (a b : Word) : Word × Word :=
  if md.rnd = .rs then let y := lfsr seed; (redStep op md (drawOf y) a b, y) else (redStep op md 0 a b, seed)

/-- One level of the fixed pairwise tree: ascending i (R131). -/
def redLevel (op : RedOp) (md : Mods) : List Word → Word → List Word × Word
  | a :: b :: xs, seed =>
    let r := redDraw op md seed a b
    let q := redLevel op md xs r.2
    (r.1 :: q.1, q.2)
  | xs, seed => (xs, seed)

def redTree (op : RedOp) (md : Mods) : Nat → List Word → Word → List Word × Word
  | 0, xs, seed => (xs, seed)
  | n + 1, xs, seed =>
    let r := redLevel op md xs seed
    redTree op md n r.1 r.2

/-- One step of the prefix network: descending t, both operands from before this d (R131). -/
def scanStep (op : RedOp) (md : Mods) (d : Nat) (y : List Word) (seed : Word) : List Word × Word :=
  (List.range 32).reverse.foldl
    (fun (acc : List Word × Word) t =>
      if d ≤ t then
        let r := redDraw op md acc.2 (y.getD (t - d) 0) (y.getD t 0)
        (r.1 :: acc.1, r.2)
      else (y.getD t 0 :: acc.1, acc.2)) ([], seed)

def scanAll (op : RedOp) (md : Mods) (xs : List Word) (seed : Word) : List Word × Word :=
  [1, 2, 4, 8, 16].foldl (fun (acc : List Word × Word) d => scanStep op md d acc.1 acc.2) (xs, seed)

def State.redParts (s : State) (g : Guard) (a : Opnd) (op : RedOp) : List Word :=
  let part := s.guardMask g
  let v := s.crossV a
  (List.range 32).map fun t => if part.getLsbD t then v.at t else redIdent op

def execRedux (o : Op1) (op : RedOp) : State → Res :=
  isa fun s =>
    let md := Mods.of s.pm .rne
    let r := redTree op md 5 (s.redParts o.g o.a op) s.w.seed
    let s := s.modW fun w => { w with seed := r.2 }
    let x := redSat op md (r.1.getD 0 0)
    match o.d with
    | .v n => s.writeV n.val (.uni x) (s.guardMask o.g)
    | d => s.writeD d (.uni x) fullMask

/-- scan (R131). A scalar destination takes the element of thread 0 (log entry 81). -/
def execScan (o : Op1) (op : RedOp) (excl : Bool) : State → Res :=
  isa fun s =>
    let md := Mods.of s.pm .rne
    let xs := s.redParts o.g o.a op
    let r := scanAll op md xs s.w.seed
    let z (t : Nat) : Word :=
      redSat op md (if excl then (if t = 0 then redIdent op else r.1.getD (t - 1) 0) else r.1.getD t 0)
    let a := s.crossV o.a
    let mask := s.guardMask o.g
    let s := s.modW fun w => { w with seed := r.2 }
    match o.d with
    | .v n =>
      let aff := mask = fullMask && op = .addI32 && a.isUni
      s.writeV n.val (if aff then .aff (if excl then 0 else a.at 0) (a.at 0) else .gen ((List.range 32).map z)) mask
    | d => s.writeD d (.uni (z 0)) fullMask

/-- tagof on a destination of an open window returns either tag (R36, R132). -/
def execTagof (o : Op1) : State → Res :=
  isa fun s =>
    let code : Nat := match o.a with
      | .v n =>
        let v := s.w.v.getD n.val .unwritten
        match s.sp.heldV n.val with
        | some old => if s.bit 8 n.val then v.code else old.code
        | none => v.code
      | _ => 0
    match o.d with
    | .v n => s.writeV n.val (.uni (w32 code)) (s.guardMask o.g)
    | d => s.writeD d (.uni (w32 code)) fullMask

def execMkaff (o : Op2) : State → Res :=
  isa fun s => do
    let base ← s.scalar o.a
    let stride ← match o.b with
      | .reg b => s.scalar b
      | .imm v => .ok (s.imm v false)
    match o.d with
    | .v n => s.writeV n.val (.aff base stride) (s.guardMask o.g)
    | _ => .ok s

/-! ### Special registers (R19 to R22, R133, R134) -/

/-- The three indices of a linear workgroup index (R343). -/
def wgIndex (d : Desc) (lin : Nat) : Nat × Nat × Nat := (lin % d.x, lin / d.x % d.y, lin / d.x / d.y)

def splitWord (w : Wave) (p : Split) : DWord :=
  BitVec.ofNat 64 (p.mask.toNat + (p.id % 4) * 2 ^ 32 + (w.splits.length % 8) * 2 ^ 34 + (w.deferred.length % 16) * 2 ^ 37)

/-- The length code of a cluster's clock (R238): 00 nominal, 01 fall, 10 boost. -/
def State.classWord (s : State) (core : Nat) : Nat :=
  let c := s.core core
  c.openCls % 4 + (c.cycCls % 4) * 4 + ((s.cluster (core / 16)).scale % 4) * 16

/-- A special register as the executing split reads it (R19 to R22). -/
def State.readSR (s : State) (r : SReg) : DWord :=
  let k := s.cur.core
  let w := s.w
  let i := wgIndex s.gr.d s.g.lin
  match r with
  | .tid => 0
  | .wave => BitVec.ofNat 64 w.idx
  | .wgidX => BitVec.ofNat 64 i.1
  | .wgidY => BitVec.ofNat 64 i.2.1
  | .wgidZ => BitVec.ofNat 64 i.2.2
  | .stage => BitVec.ofNat 64 (w.stage % 8)
  | .core => BitVec.ofNat 64 k
  | .cluster => BitVec.ofNat 64 (k / 16)
  | .cyc => (s.core k).cyc
  | .dtc => s.now k
  | .lwt => w.lwt
  | .uconf => w.uconf
  | .mflags => w.mflags.setWidth 64
  | .seed => w.seed.setWidth 64
  | .split => splitWord w s.sp
  | .class => BitVec.ofNat 64 (s.classWord k)
  | .piter => s.g.piter
  | .pfix => s.g.pfix
  | .trap => w.trapReg

def execMovs (g : Guard) (d : Opnd) (r : SReg) : State → Res :=
  isa fun s =>
    let x := s.readSR r
    match r, d with
    | .tid, .v n => s.writeV n.val (.aff 0 1) (s.guardMask g)
    | _, .v n => s.writeV n.val (.uni (x.extractLsb' 0 32)) (s.guardMask g)
    | r, d => do
      let s ← s.writeD d (.uni (x.extractLsb' 0 32)) fullMask
      if r.wide then s.writeD (Opnd.plus d 1) (.uni (x.extractLsb' 32 32)) fullMask else .ok s

/-- setsr: SR_TRAP only in the wave's handler; every other unwritable register is PROTECTION (R21, R134). -/
def execSetsr (r : SReg) (a : Opnd) : State → Res :=
  isa fun s =>
    match r with
    | .uconf => do let v ← s.scalar64 a; .ok (s.modW fun w => { w with uconf := v })
    | .trap => do
      let v ← s.scalar64 a
      check s.w.handler.isSome (trapI tcProtection 0)
      .ok (s.modW fun w => { w with trapReg := v })
    | .mflags => do let v ← s.scalar a; .ok (s.modW fun w => { w with mflags := v &&& mflagBits })
    | .seed => do let v ← s.scalar a; .ok (s.modW fun w => { w with seed := v })
    | _ => .error (trapI tcProtection 0)

/-- The registers rpf selects, each once (R135). -/
def rpfRegs (vc vb : Option (Fin 128)) (mask : BitVec 16) : List Nat :=
  ((List.range 16).filterMap fun i =>
    if mask.getLsbD i then
      (if i < 8 then vb.map fun b => b.val + i else vc.map fun c => c.val + (i - 8))
    else none).eraseDups

/-- rpf writes back, empties and fills the operand buffer (R38, R135). -/
def execRpf (vc vb : Option (Fin 128)) (mask : BitVec 16) : State → Res :=
  isa fun s => .ok (s.modW fun w => { w with fob := rpfRegs vc vb mask, dirty := [], rpf := rpfRegs vc vb mask })

def execRdlane (o : Op2) : State → Res :=
  isa fun s => do
    let lane ← match o.b with
      | .reg b => s.scalar b
      | .imm v => .ok (s.imm v false)
    let x := (s.crossV o.a).at (lane.toNat % 32)
    match o.d with
    | .v n => s.writeV n.val (.uni x) (s.guardMask o.g)
    | d => s.writeD d (.uni x) fullMask

end Sys2Proof.Machine
end

