-- ==== Sys2Proof/Machine/Timing.lean ====
section
/-! DEFINITION. Time in a core: classes and occupancy, dependency bounds, what each cycle starts, and how long it is
(R13, R29 to R35, R39, R101, R102, R235 to R238, R255, R277). -/

namespace Sys2Proof.Machine

/-! ### Classes and operands -/

/-- The timing class (R101). -/
def clsOf : Instr → Nat
  | .mulHi _ _ | .mad _ _ | .popc _ | .clz _ | .brev _ | .bfe _ _ | .bfi _ | .dp4 _ _ _ | .fdot2 _ _ | .cvt _ _ _
  | .pack2 _ _ | .pack4 _ _ | .unpack _ _ _ | .vote _ _ => 1
  | .qblk _ _ | .dqblk _ | .i4g _ _ | .shfl _ _ _ | .redux _ _ | .scan _ _ _ | .frnd _ | .ffrac _ | .gderiv _ _ _ _ _ => 2
  | .frcp _ | .frsq _ | .fsqrt _ | .fexp2 _ | .flog2 _ | .fsin _ | .fcos _ | .ftanh _ | .fdiv _ => 3
  | _ => 0

/-- The class of a job: halves are T0, and a modifier in the low slot takes its target's (R101, R236). -/
def Job.cls : Job → Nat
  | .full i => clsOf i
  | .target _ (.full i) => clsOf i
  | _ => 0

/-- How many of the operands an instruction's fields select, from the first on, are only written. -/
def writesOnly : Instr → Nat
  | .add _ _ | .sub _ _ | .mulLo _ _ | .mulHi _ _ | .min _ _ | .max _ _ | .and _ | .or _ | .xor _ | .shl _ | .shr _ | .sar _
  | .rot _ | .bfe _ _ | .fadd _ | .fsub _ | .fmul _ | .fmin _ _ | .fmax _ _ | .mkaff _ | .rdlane _ | .mad _ _
  | .lop3 _ _ | .sel _ | .plop _ _ | .dp4 _ _ _ | .ffma _ | .hfma2 _ _ | .fdot2 _ _ | .pack4 _ _ | .abs _ | .popc _ | .clz _
  | .brev _ | .mov _ | .fclass _ _ | .frnd _ | .ffrac _ | .frcp _ | .frsq _ | .fsqrt _ | .fexp2 _ | .flog2 _ | .fsin _
  | .fcos _ | .ftanh _ | .cvt _ _ _ | .unpack _ _ _ | .qblk _ _ | .dqblk _ | .vote _ _ | .redux _ _ | .scan _ _ _ | .tagof _
  | .fdiv _ | .hadd2 _ _ | .hmul2 _ _ | .pack2 _ _ | .i4g _ _ | .shfl _ _ _ | .movi _ _ _ | .movs _ _ _ | .btest _ _ _ _
  | .strdef _ _ _ _ | .spawn _ _ _ | .task _ _ _ _ _ | .qpush _ _ _ _ _ | .gderiv _ _ _ _ _ | .gemit _ _ _ _
  | .srateGrid _ _ | .srateCell _ _ _ | .btagAlloc _ _ | .bstatSnd _ | .bstatRcv _ | .atomA _ _ _ _ _ _ _
  | .casA _ _ _ _ _ _ => 1
  | .cmp _ _ _ c | .fcmp _ _ _ c => if c = .set then 1 else 0
  | .addW _ | .lea _ _ _ | .callx _ _ => 2
  | .atomG _ _ _ _ _ _ _ w _ | .casG _ _ _ _ _ _ w _ => if w then 2 else 1
  | .ldA o | .ldW o | .ldG o _ => o.size.regs
  | .ldC o => o.size.regs
  | .qpop _ _ _ _ _ z | .strq _ _ _ _ _ z _ => z.regs
  | .vmx _ _ _ _ _ _ _ => 16
  | .amax _ _ _ _ _ _ => 2
  | .grid _ _ _ | .tex _ _ _ _ _ _ | .texLz _ _ _ _ _ => 4
  | _ => 0

/-- The predicate of a half's guard (R51). -/
def halfGuardOps (g : HGuard) : List Opnd :=
  match g with
  | .none => []
  | .p0 | .np0 => [.p 0]
  | .p1 => [.p 1]

/-- Registers an instruction reads, its guard apart; sel under P7 is a mov (R111). -/
def readsOf (i : Instr) : List Opnd :=
  match i with
  | .cmp o _ _ _ | .fcmp o _ _ _ => [o.d, o.a, o.b]
  | .pack4 o _ => [o.a, o.b, o.c, o.d]
  | .sel o => if o.c = .p 7 then [o.a] else [o.a, o.b, o.c]
  | .halfMov h => ((halfOps h).drop 1) ++ halfGuardOps h.g
  | .hnop => []
  | .call _ t => tgtOps t
  | .trapret | .trapretRetry => [.s 62, .s 63]
  | .qpop _ _ _ a _ _ => grp a 2
  | .strq _ _ _ _ _ _ _ | .grid _ _ _ | .perfRd _ _ => []
  | i => (opnds i).drop (writesOnly i) ++ (match halfOf i with | some (h, _) => halfGuardOps h.g | none => [])

/-- Registers it writes at its issue or when its elements pass. -/
def destsOf (i : Instr) : List Opnd :=
  match i with
  | .bfi o => [o.d]
  | .cmp o _ _ _ | .fcmp o _ _ _ => [o.d]
  | .movs _ d r => grp d (if r.wide then 2 else 1)
  | .loop d _ => [.s d]
  | .call d _ | .perfRd d _ => sReg d 2
  | .trapret | .trapretRetry => [.s 62, .s 63]
  | i => match halfOf i with
    | some (h, _) => [.v h.d]
    | none => (opnds i).take (writesOnly i)

/-- The guard field of an instruction that has one. -/
def guardOf : Instr → Option Guard
  | .add o _ | .sub o _ | .mulLo o _ | .mulHi o _ | .min o _ | .max o _ | .and o | .or o | .xor o | .shl o | .shr o | .sar o
  | .rot o | .bfe o _ | .bfi o | .addW o | .lea o _ _ | .fadd o | .fsub o | .fmul o | .fmin o _ | .fmax o _ | .mkaff o
  | .rdlane o => some o.g
  | .mad o _ | .lop3 o _ | .sel o | .plop o _ | .dp4 o _ _ | .ffma o | .hfma2 o _ | .fdot2 o _ | .pack4 o _ => some o.g
  | .abs o | .popc o | .clz o | .brev o | .mov o | .fclass o _ | .frnd o | .ffrac o | .frcp o | .frsq o | .fsqrt o | .fexp2 o
  | .flog2 o | .fsin o | .fcos o | .ftanh o | .cvt o _ _ | .unpack o _ _ | .qblk o _ | .dqblk o | .vote o _ | .redux o _
  | .scan o _ _ | .tagof o => some o.g
  | .cmp o _ _ _ | .fcmp o _ _ _ | .fdiv o | .hadd2 o _ | .hmul2 o _ | .pack2 o _ | .i4g o _ | .shfl o _ _ => some o.g
  | .movi g _ _ | .movs g _ _ | .exit g | .trap g _ | .brk g _ | .br g _ _ | .brD g _ _ => some g
  | .ldA o | .stA o | .ldW o | .ldG o _ | .stG o => some o.g
  | .ldC o | .stC o => some o.g
  | .atomA g _ _ _ _ _ _ | .casA g _ _ _ _ _ | .prefG g _ _ _ _ | .atomG g _ _ _ _ _ _ _ _ | .casG g _ _ _ _ _ _ _
  | .qpush g _ _ _ _ | .qpop g _ _ _ _ _ | .strq g _ _ _ _ _ _ | .task g _ _ _ _ | .vmx g _ _ _ _ _ _ | .aepi g _ _ _ _ _ _
  | .amax g _ _ _ _ _ | .xst g _ _ _ _ _ | .gderiv g _ _ _ _ | .tex g _ _ _ _ _ | .texLz g _ _ _ _ | .rfbk g _ _ => some g
  | .mma o | .mmaSp o => some o.g
  | _ => none

/-! ### Occupancy (R29, R30, R39, R102) -/

/-- Threads that pass through the pipe. -/
def State.passing (s : State) (i : Instr) : Nat :=
  match guardOf i with
  | some g => (threads (s.guardMask g)).length
  | none => match halfOf i with
    | some (h, _) => (threads (s.halfMask h.g)).length
    | none => (threads s.sp.mask).length

def isV : Opnd → Bool
  | .v _ => true
  | _ => false

def State.genOpnd (s : State) (o : Opnd) : Bool :=
  match o with
  | .v n => (s.w.v.getD n.val .unwritten).isGen
  | _ => false

/-- GEN sources outside the fast operand buffer (R39); tagof reads the tag alone (R132). -/
def State.unbuffered (s : State) (i : Instr) : Nat :=
  match i with
  | .tagof _ => 0
  | i => ((readsOf i).filter fun o => s.genOpnd o && (match o with | .v n => !s.w.fob.contains n.val | _ => false)).length

/-- Instructions whose threads pass through the pipe; every other one issues once by its entry or reads scalars alone
(R29, R30, R139, R174, R176, R179, R188, R192, R199, R225, R239, R269, R272, R297, R305, R330, R351, R353). -/
def perThread : Instr → Bool
  | .setsr _ _ | .rpf _ _ _ | .vote _ _ | .prefG _ _ _ _ _ | .btest _ _ _ _ | .strdef _ _ _ _ | .spawn _ _ _ | .btagAlloc _ _
  | .srateGrid _ _ | .srateCell _ _ _ | .bstatSnd _ | .bstatRcv _ | .bsend _ _ _ _ _ _ | .kick _ _ _ | .tagset _ | .tagclr _ | .tagwait _ _ | .loop _ _ | .call _ _
  | .perfRd _ _ | .trapret | .trapretRetry | .aepi _ _ _ _ _ _ _ | .amax _ _ _ _ _ _ | .mma _ | .mmaSp _ | .scldef _ _ _ | .rrot _ _ _
  | .br _ _ _ | .brD _ _ _ | .exit _ | .trap _ _ | .brk _ _ | .hnop => false
  | i => (guardOf i).isSome || !(destsOf i).isEmpty || (match i with
    | .callx _ _ | .gemit _ _ _ _ => true
    | _ => false)

/-- A scalar operation or a register without a row. -/
def State.rowless (s : State) (o : Opnd) : Bool := !s.genOpnd o
def State.plain (s : State) (o : Opnd) : Bool :=
  match o with
  | .v n => let v := s.w.v.getD n.val .unwritten; v.isUni || v = .unwritten
  | _ => true

/-- The base and index of a load (R168). -/
def addrOps : Instr → Option (List Opnd)
  | .ldA o | .ldW o => some [o.a, o.b]
  | .ldC o => some [o.a]
  | .ldG o _ => some (grp o.a 2 ++ [o.b])
  | _ => none

/-- A long-latency instruction, whose result the window rules cover (R34, R62). -/
def isLong : Instr → Bool
  | .ldA _ | .ldW _ | .ldC _ | .ldG _ _ | .atomA _ _ _ _ _ _ _ | .casA _ _ _ _ _ _ | .atomG _ _ _ _ _ _ _ _ _
  | .casG _ _ _ _ _ _ _ _ | .qpop _ _ _ _ _ _ | .strq _ _ _ _ _ _ _ | .vmx _ _ _ _ _ _ _ | .amax _ _ _ _ _ _ | .grid _ _ _
  | .tex _ _ _ _ _ _ | .texLz _ _ _ _ _ | .btagAlloc _ _ => true
  | _ => false

/-- Whether an instruction issues once (R30): by its entry; a load from a uniform address (R168); into an S or WG register
(R96); else with sources that hold no row and results that hold none after it. `t` is the state it left. -/
def issuesOnce (s t : State) (i : Instr) : Bool :=
  let vs := (readsOf i ++ destsOf i).filter isV
  let w := t.wave s.cur.core s.cur.ctx
  if !perThread i then true
  else match addrOps i with
    | some os => os.all s.plain
    | none => match i with
      | .callx _ _ => !((readsOf i).any s.genOpnd)
      | .plop _ _ => false
      | i =>
        if vs.isEmpty || (!(destsOf i).isEmpty && (destsOf i).all Opnd.isScalarReg) then true
        else if isLong i || (destsOf i).isEmpty then false
        else match i with
          | .cmp _ _ _ _ | .fcmp _ _ _ _ | .fclass _ _ => (readsOf i).all s.plain
          | _ => !((readsOf i).any s.genOpnd)
            && (destsOf i).all fun o => match o with | .v n => !(w.v.getD n.val .unwritten).isGen | _ => true

/-- Pipe cycles of an instruction (R29, R30, R39, with the exceptions of R102, R225 and R299). -/
def occupancy (s t : State) (i : Instr) : Nat :=
  let k := max 1 (s.passing i)
  let extra := 4 * s.unbuffered i
  match i with
  | .vote _ _ => 1
  | .redux _ _ | .scan _ _ _ => k + 5
  | .task _ _ _ _ _ | .vmx _ _ _ _ _ _ _ | .gemit _ _ _ _ => 32 + extra
  | .rpf vc vb mask => 1 + s.w.dirty.length + ((rpfRegs vc vb mask).filter fun n => (s.w.v.getD n .unwritten).isGen).length
  | .mma _ | .mmaSp _ | .aepi _ _ _ _ _ _ _ | .amax _ _ _ _ _ _ => 1
  | _ => (if issuesOnce s t i then 1 else k) + extra

/-! ### The wave ports (R161, R171) -/

/-- Passes on the A-buffer port: in one pass no two distinct words of one bank; an atomic's elements count one by one. -/
def bankPasses (each : Bool) (es : List (Nat × Nat)) : Nat :=
  let ws := es.flatMap fun e => (List.range (max 1 (e.2 / 4))).map (e.1 / 4 + ·)
  let ws := if each then ws else ws.eraseDups
  ((List.range 32).map fun b => (ws.filter fun w => w % 32 == b).length).foldl max 0

/-- Passes on the W or C port: one for each 128-byte segment touched. -/
def segPasses (es : List (Nat × Nat)) : Nat := (es.map fun e => e.1 / 128).eraseDups.length

/-- The port a local access takes (0 A, 1 W, 2 C), its passes, and its window where it brings a value. -/
def State.portUse (s : State) (i : Instr) : Option (Nat × Nat × Option (BitVec 4)) :=
  let at_ (g : Guard) (d base index : Opnd) (off : BitVec 8) (n : Nat) : List (Nat × Nat) :=
    match s.access g (scalarDst d) base index off n with
    | .ok x => x.ts.map fun t => ((x.ea t).toNat, n)
    | .error _ => []
  match i with
  | .ldA o => some (0, bankPasses false (at_ o.g o.d o.a o.b o.off o.size.bytes), some o.la)
  | .stA o => some (0, bankPasses false (at_ o.g .null o.a o.b o.off o.size.bytes), none)
  | .atomA g la d a _ off _ => some (0, bankPasses true (at_ g d a .null off 4), some la)
  | .casA g la d a _ _ => some (0, bankPasses true (at_ g d a .null 0 4), some la)
  | .ldW o => some (1, segPasses (at_ o.g o.d o.a o.b o.off o.size.bytes), some o.la)
  | .ldC o => some (2, segPasses (at_ o.g o.d o.a .null o.off o.size.bytes), some o.la)
  | .stC o => some (2, segPasses (at_ o.g .null o.a .null o.off o.size.bytes), none)
  | _ => none

/-- The first cycle in which what waits for a value of a port may start: the value comes 2 cycles after the last of the
passes (R171). -/
def Core.portValue (k : Core) (x : Nat × Nat × Option (BitVec 4)) : Nat := max k.cyc.toNat (k.ports.getD x.1 0) + x.2.1 + 2

/-- An issue takes its port for its passes (R171). -/
def Core.takePort (k : Core) (ctx uid : Nat) (x : Nat × Nat × Option (BitVec 4)) : Core :=
  if x.2.1 = 0 then k
  else
    let free := max k.cyc.toNat (k.ports.getD x.1 0) + x.2.1
    { k with
      ports := k.ports.set x.1 free
      lates := match x.2.2 with
        | some la => ⟨ctx, uid, la.toNat + 1, k.portValue x⟩ :: k.lates
        | none => k.lates }

/-- Cycles after its start in which a class delivers its first element (R31). -/
def clsDelay (c : Nat) : Nat :=
  match c with
  | 0 => 4
  | 1 => 5
  | 2 => 6
  | _ => 8

def crossThread : Instr → Bool
  | .shfl _ _ _ | .redux _ _ | .scan _ _ _ | .vote _ _ | .rdlane _ => true
  | _ => false

/-! ### What an issue leaves in its core (R29, R31, R34, R171, R235, R255) -/

/-- Whether the issue left its split at the same instruction, among others to wait for a page or a line of code. -/
def heldBack (s t : State) (j : Job) : Bool :=
  let transfer := match j with
    | .full (.br _ _ _) | .full (.brD _ _ _) | .full (.jmp _) | .full (.loop _ _) | .full (.call _ _) | .full (.ret _) => true
    | _ => false
  match (t.wave? s.cur.core s.cur.ctx).bind fun w => w.split? s.cur.split with
  | some p => p.pc == s.sp.pc && p.low == s.sp.low && p.uid == s.sp.uid && (!transfer || p.status == .waiting .need)
  | none => false

/-- Whether a split left at its instruction has not started it: it stalls, or waits for what comes before it. -/
def State.unstarted (t : State) (c : Cursor) : Bool :=
  match (t.wave? c.core c.ctx).bind fun w => w.split? c.split with
  | some p => match p.status with
    | .running | .waiting .deliver | .waiting .confirm | .waiting (.held _ _ _) => true
    | _ => false
  | none => false

def State.begunKey (s : State) : Begun := ⟨s.cur.ctx, s.w.wg, s.w.idx, s.sp.uid, s.sp.pc, s.sp.low⟩

/-- The loads on their way to a split see n more of its instructions; none may follow a transfer or a wait (R34, R35). -/
def Core.countLate (k : Core) (ctx uid n : Nat) (closed : Bool) : Core :=
  { k with lates := k.lates.map fun x =>
      if x.ctx = ctx && x.uid = uid then { x with left := if closed then 1 else max 1 (x.left - n) } else x }

/-- Whether an instruction closes the windows of its split where it issues: a transfer that is taken, one that makes a split,
or a waiting instruction (R35). -/
def State.closes (s : State) (i : Instr) : Bool :=
  match i with
  | .waitc _ _ | .bwait _ _ | .barrw _ | .tagwait _ _ | .mwait _ | .sleep _ | .fenceRel _ | .fenceAcq _ | .fenceFull _
  | .icinv _ | .xswap | .cbar => true
  | .jmp _ | .call _ _ | .callx _ _ | .ret _ | .trapret | .trapretRetry => true
  | .br g a _ => s.guardMask g != 0 && (a == .null || (s.src a).at 0 != 0)
  | .brD g _ _ => s.guardMask g != 0
  | .loop d _ => s.readS d.val - 1 != 0
  | _ => false

/-- The split of a wave that holds all threads of another state's split: the one a merge made of it has more (R144). -/
def Wave.holder (w : Wave) (p : Split) : Option Split := w.splits.find? fun q => p.mask &&& ~~~q.mask == 0

/-- After a merge, what was under way for either split is the merged split's, whose windows are closed (R35, R144). -/
def Core.merged (k : Core) (ctx : Nat) (before after : Wave) : Core :=
  if before.splits.length ≤ after.splits.length then k
  else
    let into (uid : Nat) : Option Nat :=
      (before.splits.find? (·.uid == uid)).bind fun p => (after.holder p).bind fun q => if q.mask = p.mask then none else some q.uid
    { k with
      lates := k.lates.map fun x => if x.ctx = ctx then (match into x.uid with
        | some u => { x with uid := u, left := 1 }
        | none => x) else x
      dues := k.dues.map fun x => if x.ctx = ctx then { x with uid := (into x.uid).getD x.uid } else x }

/-- A write of some registers hides what earlier ones owe to the same elements; a scalar register is its split's own
(R31). -/
def Due.hidden (d : Due) (news : List Due) : Due :=
  { d with mask := news.foldl (fun m x =>
      if x.ctx = d.ctx && x.reg = d.reg && (x.uid = d.uid || !(match d.reg with | .s _ => true | _ => false)) then m &&& ~~~x.mask else m) d.mask }

/-- The threads whose elements of a register an instruction writes; a register without elements counts as all. -/
def State.writesIn (s : State) (i : Instr) (o : Opnd) : Mask :=
  match o with
  | .v _ | .p _ => match guardOf i, halfOf i with
    | some g, _ => s.guardMask g
    | none, some (h, _) => s.halfMask h.g
    | none, none => s.sp.mask
  | _ => fullMask

/-- The newest window of the executing split, that of a local load, is due to other splits until a cycle (R128, R171). -/
def Split.dueTill (p : Split) (till : Nat) : Split :=
  match p.windows with
  | w :: ws => { p with windows := { w with till := till } :: ws }
  | [] => p

/-- An instruction starts: its pipe and port are taken, its registers fall due, and the counters count it. The cycles of
unbuffered sources stand in each half's own occupancy, and a pair takes the larger one (log entry 87). -/
def State.account (s t : State) (j : Job) : State :=
  let c := s.cur
  let k0 := s.core c.core
  let now := k0.cyc.toNat
  let is := j.instrs
  let m := (is.map (occupancy s t)).foldl max 1
  let last := now + m + clsDelay j.cls - 1
  let dues := ((is.filter fun i => !isLong i).flatMap fun i =>
    (destsOf i).map fun o => Due.mk c.ctx s.sp.uid o (s.writesIn i o) (now + clsDelay j.cls) last).filter (·.mask != 0)
  let after := t.wave c.core c.ctx
  let closed := is.any s.closes || after.handler != s.w.handler || (match after.split? c.split with
    | some p => p.status != .running
    | none => true)
  let loads := (is.filterMap s.portUse).filter fun x => x.2.1 != 0 && x.2.2.isSome
  let t := loads.foldl (fun t x => t.modWave c.core c.ctx fun w => w.modSplit c.split fun p => p.dueTill (k0.portValue x)) t
  let t := dues.foldl (fun t d => match d.reg with
    | .wg n => t.modWg s.w.wg fun g => g.wgLate now s.w.idx last n.val
    | _ => t) t
  let t := t.modCore c.core fun k =>
    let k := k.countLate c.ctx s.sp.uid is.length closed
    let k := (is.filterMap s.portUse).foldl (fun k x => k.takePort c.ctx s.sp.uid x) k
    ({ k with
      execs := ⟨c.ctx % 32, now + m, j.cls, c.ctx, s.sp.uid⟩ :: k.execs
      dues := dues ++ (k.dues.map (·.hidden dues)).filter (·.mask != 0) } : Core).merged c.ctx s.w after
  t.tallyAs c.core s.w.grid s.w.stage 0x00 is.length

/-- The end of an issue: an instruction that starts is accounted once, however often it issues while it waits. -/
def noteIssue (s t : State) : State :=
  let c := s.cur
  let forget (t : State) : State :=
    t.modCore c.core fun k => { k with begun := k.begun.filter fun x => !(x.ctx == c.ctx && x.uid == s.sp.uid) }
  match s.live && s.w.canIssue s.sp, s.prepare with
  | true, .ok j =>
    let held := heldBack s t j
    let begun := (s.core c.core).begun.contains s.begunKey
    if held && t.unstarted c then t
    else
      let t := forget t
      let t := if held then t.modCore c.core fun k => { k with begun := s.begunKey :: k.begun } else t
      if begun then t else s.account t j
  | true, .error e =>
    if e.1.code = tcLater then t else
    (forget t).modCore c.core fun k => { k with execs := ⟨c.ctx % 32, k.cyc.toNat + 1, 0, c.ctx, s.sp.uid⟩ :: k.execs }
  | _, _ => t

/-- Issue as a step performs it. -/
def issueTimed (run : Run) (s : State) : Res := andThen (issue run s) fun t => .next (noteIssue s t)

/-! ### Waits a core sees end by itself -/

/-- What a split's instruction needed has come: no page or line of code is to be found, and nothing is fetched or walked for by a
unit (R175). -/
def State.needOver (s : State) (core ctx : Nat) (p : Split) : Bool :=
  let mine (x : Source) (key : Nat) : Bool := match x with
    | .unit k u => k == core / 16 && (u == 1 || u == 5) && key == splitKey core ctx p.id
    | .core k => k == core && key == 2 ^ 20 + curKey ctx p.id
    | _ => false
  !((s.core core).wants.any fun w => w.ctx == ctx && w.split == p.id)
    && !(s.asks.any fun a => mine a.src a.key && (a.got.isNone || decide (s.tu < a.back)))
    && !(s.walks.any fun x => x.eng.any fun e => mine e.1 e.2)

/-- The condition of a wait that its own core answers. -/
def State.waitOver (s : State) (core ctx : Nat) (w : Wave) (p : Split) : Bool :=
  match p.status with
  | .waiting (.counter path thr) => decide (w.count path ≤ thr)
  | .waiting (.mwait thr) => decide (w.count .m ≤ thr)
  | .waiting (.barrier k par) => (s.bar w.wg k).err || (s.bar w.wg k).ph != par
  | .waiting (.tiles sp first cnt v c val) => (s.wg w.wg).tagsAre sp ((List.range cnt).map (· + first)) v c val
  | .waiting .deliver => p.windows.all (·.delivered) || p.windowsReady
  | .waiting .need => s.needOver core ctx p
  | .waiting (.icinv _ ws) => s.fenceDone core ctx true false false ws [] []
  | _ => false

/-- One split whose wait is over goes on past its instruction, which has started and completes here (R182, R222, R235). One
that waited for its deliveries, or whose wait ends in a trap, issues its instruction; one that waited for a page, code or bytes
goes on with its instruction at once, outside the choices of the cycle (R175). -/
def State.pollSplit (s : State) (core ctx id : Nat) : State :=
  let w := s.wave core ctx
  match w.split? id with
  | none => s
  | some p =>
    if w.stop != .none || !s.waitOver core ctx w p then s
    else
      let again := s.modWave core ctx fun w => w.modSplit id fun p => { p with status := .running }
      let on : State := { (again.withCur ⟨core, ctx, id⟩).advance with cur := s.cur }
      match p.status with
      | .waiting .need => { again with issueQ := again.issueQ ++ [⟨core, ctx, id⟩] }
      | .waiting (.icinv sc _) => on.dropCode sc core
      | .waiting (.counter _ _) => on
      | .waiting (.tiles sp first cnt _ _ _) =>
        { ((on.withCur ⟨core, ctx, id⟩).acquireTiles sp ((List.range cnt).map (· + first))) with cur := s.cur }
      | .waiting (.mwait _) => if w.mfault.isSome then again else on
      | .waiting (.barrier k q) =>
        if (s.bar w.wg k).err then again else { (again.withCur ⟨core, ctx, id⟩).barWait k q with cur := s.cur }
      | _ => again

def State.splitsOf (s : State) (core : Nat) : List Cursor :=
  (s.core core).waves.flatMap fun e => e.2.splits.map fun p => ⟨core, e.1, p.id⟩

def State.poll (s : State) (core : Nat) : State := (s.splitsOf core).foldl (fun s c => s.pollSplit c.core c.ctx c.split) s

/-! ### Readiness and choice (R31, R235, R236) -/

/-- The dependency bounds of R31 let an instruction of a split start in a cycle. -/
def Core.clear (k : Core) (ctx uid cyc : Nat) (i : Instr) : Bool :=
  let rs := readsOf i ++ (match guardOf i with | some g => [.p g.p] | none => [])
  k.dues.all fun d => d.ctx != ctx || !rs.contains d.reg
    || (if d.uid = uid && !crossThread i then decide (d.same ≤ cyc) else decide (d.any ≤ cyc))

/-- An instruction's entry holds it back now: its port is busy, or issuing it would change nothing but leave it to try
again, as with a full queue or a counter at its limit (R235). -/
def State.stalls (s : State) (i : Instr) : Bool :=
  let port := match s.portUse i with
    | some x => decide ((s.core s.cur.core).cyc.toNat < (s.core s.cur.core).ports.getD x.1 0)
    | none => false
  let r : Res := match i with
    | .ldG o cg => execLdG o cg s
    | .stG o => execStG o s
    | .atomG g la d a b off op wide sc => execAtomG g la d a b off op wide sc s
    | .casG g la d a b c wide sc => execCasG g la d a b c wide sc s
    | .qpush g d a b z => execQpush g d a b z s
    | .qpop g la d a c z => execQpop g la d a c z s
    | .task g d a b c => execTask g d a b c s
    | .strq g la d c k z sx => execStrq g la d c k z sx s
    | .kick a b n => execKick a b n s
    | .mma o => execMma o s
    | .mmaSp o => execMmaSp o s
    | .vmx g la d a b fb kk => execVmx g la d a b fb kk s
    | .azero t n => execAzero t n s
    | .aepi g t a b act zc fmt => execAepi g t a b act zc fmt s
    | .amax g la d a t i32 => execAmax g la d a t i32 s
    | .scldef id a b => execScldef id a b s
    | .sclinv id => execSclinv id s
    | .rrot a b k => execRrot a b k s
    | .xst g d a b off z => execXst g d a b off z s
    | .xswap => execXswap s
    | .cbar => execCbar s
    | .kbres a k => execKbres a k s
    | .tex g la d a b c => execTex g la d a b c s
    | .texLz g la d a b => execTexLz g la d a b s
    | .gemit d a b c => execGemit d a b c s
    | .rfbk g a b => execRfbk g a b s
    | .bsend a b c d e f => execBsend a b c d e f s
    | .perfMark a => execPerfMark a s
    | .barr k => execBarr k s
    | .barrw k => execBarrw k s
    | .join => execJoin s
    | .conv => execConv s
    | _ => .next s.advance
  port || (match r with
    | .next t => heldBack s t (.full i) && t.sp.status == .running && t.w.streams == s.w.streams
    | _ => false)

/-- A split ready in this cycle: where it is, its class, its wave's priority, since when, and whether it yielded. -/
structure Ready where
  at_ : Cursor
  cls : Nat
  prio : Nat
  since : Nat
  young : Bool
  deriving DecidableEq, Repr

/-- What a split started still holds its next n instructions: its occupancy, or a load whose value one of them must have
(R34, R171, R262). -/
def Core.busySplit (k : Core) (ctx uid cyc n : Nat) : Bool :=
  (k.execs.any fun x => x.ctx == ctx && x.uid == uid && decide (cyc < x.till))
    || k.lates.any fun x => x.ctx == ctx && x.uid == uid && decide (x.left ≤ n ∧ cyc < x.at_)

/-- Whether a split is ready, and with what class (R235). -/
def State.readyCls (s : State) (c : Cursor) : Option Nat :=
  let s := s.withCur c
  let w := s.w
  let k := s.core c.core
  let cyc := k.cyc.toNat
  if !(w.canIssue s.sp) || s.issueQ.contains c || decide (cyc < w.startAt) || k.busySplit c.ctx s.sp.uid cyc 1 then none
  else match s.prepare with
    | .ok j =>
      if j.instrs.all (k.clear c.ctx s.sp.uid cyc) && (j.instrs.length != 2 || s.sp.roomForPair) && !k.busySplit c.ctx s.sp.uid cyc j.instrs.length
          && !(match j with | .full i => s.stalls i | _ => false) then some j.cls
      else none
    | .error e => if e.1.code = tcLater then none else some 0

/-- Ready splits keep the cycle they became ready in; the others forget it. -/
def State.markReady (s : State) (c : Cursor) : State :=
  let r := (s.readyCls c).isSome
  let cyc := (s.core c.core).cyc.toNat
  s.modWave c.core c.ctx fun w => w.modSplit c.split fun p => { p with readyAt := if r then (if p.readyAt = 0 then cyc + 1 else p.readyAt) else 0 }

def State.readies (s : State) (core : Nat) : List Ready :=
  (s.splitsOf core).filterMap fun c => (s.readyCls c).map fun k =>
    let p := ((s.wave core c.ctx).split? c.split).getD Split.blank
    ⟨c, k, (s.wave core c.ctx).prio, p.readyAt - 1, p.young⟩

def Core.busyCls (k : Core) (cls : Nat) : Bool := k.execs.any fun x => x.cls == cls && decide (k.cyc.toNat < x.till)
def Core.pipeFree (k : Core) (pipe : Nat) : Bool := !(k.execs.any fun x => x.pipe == pipe && decide (k.cyc.toNat < x.till))

/-- Some ready instruction of another class has waited 128 cycles. -/
def Core.waited (k : Core) (rs : List Ready) : Bool := rs.any fun r => r.cls != k.openCls && decide (r.since + 128 ≤ k.cyc.toNat)

/-- The open class may start nothing more: the 128-cycle condition has been met, and an instruction of another class is
still there (R236, R237). -/
def Core.shut (k : Core) (rs : List Ready) : Bool := k.waited rs || (k.exhausted && rs.any fun r => r.cls != k.openCls)

/-- The class that may start now, where one may (R236). -/
def Core.startCls (k : Core) (rs : List Ready) : Option Nat :=
  let held := k.shut rs
  let own := rs.any (·.cls == k.openCls)
  if own && !held then some k.openCls
  else if k.busyCls k.openCls then none
  else
    (((rs.filter (·.cls != k.openCls)).foldl (fun (b : Option Ready) r => match b with
      | none => some r
      | some x => if r.since < x.since || (r.since == x.since && decide (r.cls < x.cls)) then some r else some x) none).map (·.cls))

/-- The order within a pipe: priority, readiness (one that yielded behind those of its age, R252), context, split. -/
def Ready.before (a b : Ready) : Bool :=
  if a.prio != b.prio then decide (b.prio < a.prio)
  else if a.since != b.since then decide (a.since < b.since)
  else if a.young != b.young then b.young
  else if a.at_.ctx = b.at_.ctx then decide (a.at_.split < b.at_.split)
  else decide (a.at_.ctx < b.at_.ctx)

/-- The splits that start in this cycle, in ascending pipe order. -/
def Core.choices (k : Core) (rs : List Ready) (cls : Nat) : List Cursor :=
  (List.range 32).filterMap fun pipe =>
    if !k.pipeFree pipe then none
    else ((rs.filter fun r => r.cls == cls && r.at_.ctx % 32 == pipe).foldl (fun (b : Option Ready) r => match b with
      | none => some r
      | some x => if r.before x then some r else some x) none).map (·.at_)

/-! ### Pages and code that splits wait for (R175, R251, R317) -/

/-- A want is met, or what it needs next is asked for: a walk of its page, or the line of its bundle. -/
def State.wantStep (core : Nat) (s : State) (w : Want) : State :=
  let met (s : State) : State := s.modCore core fun c => { c with wants := c.wants.filter (· != w) }
  let key := curKey w.ctx w.split
  let who : Who := ⟨.core core, key, (s.grid (s.wave core w.ctx).grid).chain, core, w.ctx, (s.wave core w.ctx).prio⟩
  match ((s.core core).tlb ++ (s.cluster (core / 16)).tlb).find? (·.hit w.asid w.va) with
  | none =>
    if s.walkFaults.any fun f => f.src == .core core && f.key == key && f.va == pageUnit w.va then met s
    else s.queueWalk (core / 16) (some core) w.asid w.root w.va []
  | some e =>
    let pa := e.pa? w.va
    let line := pa / 128
    if !w.code || !e.x || (s.core core).il.any (·.1 == line) then met s
    else match s.got who (line * 128) 128 with
      | .error n => (s.demand n).getD s
      | .ok r =>
        let units := (List.range 16).map fun i => (line * 128 + 8 * i, BitVec.ofNat 64 (fieldAt (r.getD []) (8 * i) 8))
        met ((s.askDone who).modCore core fun c =>
          { c with il := (line, r.isSome) :: c.il, ic := if isHostPa pa && r.isSome then units ++ c.ic else c.ic })

/-- Splits of a core whose bundle is still to be fetched; what no split waits for any more is dropped; and each want goes on. -/
def State.seek (s : State) (core : Nat) : State :=
  let fetching (s : State) (c : Cursor) : Option TrapReq :=
    let s := s.withCur c
    if s.w.canIssue s.sp && !s.issueQ.contains c then (match s.prepare with
      | .error e => if e.1.code = tcLater then some e.1 else none
      | .ok _ => none)
    else none
  let cs := s.splitsOf core
  let live (w : Want) : Bool := cs.any fun c => c.ctx == w.ctx && c.split == w.split
    && ((((s.wave core c.ctx).split? c.split).any fun p => p.status == .waiting .need)
      || (fetching s c).any fun t => t.addr.toNat == w.va)
  let s := s.modCore core fun k => { k with wants := k.wants.filter live }
  let s := cs.foldl (fun s c => match fetching s c with
    | some t => s.addWant c.core c.ctx c.split t
    | none => s) s
  ((s.core core).wants).foldl (State.wantStep core) s

/-! ### A core cycle -/

/-- Grants the cluster's arbiter can make now, at most n (R278). -/
def State.grants (k : Nat) : Nat → State → State
  | 0, s => s
  | n + 1, s =>
    match s.overdue k with
    | x :: _ => State.grants k n (s.grantTo k x)
    | [] => match (s.cluster k).nextGrant with
      | some x => State.grants k n (s.grantTo k x)
      | none => s

/-- The vector side's reservation: one that is over lapses, and a core without one asks while something is ready. -/
def State.vectorSide (s : State) (core : Nat) (any : Bool) : State :=
  let s := (s.lapse core .vector).getD s
  let s := if any then (s.request core .vector).getD s else s
  State.grants (core / 16) (s.cluster (core / 16)).want.length s

/-- The splits that start, in ascending pipe order, each a start of the vector side's reservation; when the last start is
used a new reservation is asked for at once, and while it is denied nothing starts (R277). -/
def State.starts (core : Nat) : List Cursor → State → State × List Cursor
  | [], s => (s, [])
  | c :: cs, s =>
    let s := if (s.core core).vecLeft = 0 then s.vectorSide core true else s
    if (s.core core).vecLeft = 0 then (s, [])
    else
      let r := State.starts core cs (s.modCore core fun k => { k with vecLeft := k.vecLeft - 1 })
      (r.1, c :: r.2)

/-- Cycle events of the performance counters (0x01 to 0x04): under a filter only with a wave of the stage present. -/
def Core.countCycle (k : Core) (cls : Nat) : Core :=
  { k with perf := k.perf.map fun p =>
      if p.event = cls + 1 && (match p.stage with | none => true | some st => k.waves.any fun w => w.2.stage == st) then
        { p with value := p.value + 1 }
      else p }

/-- The next cycle of a core: time moves to its beginning, what waited goes on, and each pipe starts what R235 to R237
choose; the cycle lasts as its slowest class (R32). -/
def execCoreCycleIssue (core : Nat) : State → Res :=
  event fun s =>
    let s := s.pass ((s.core core).cycEnd - s.tu)
    let s := s.modCore core fun k => { k with
      cyc := k.cyc + 1
      execs := k.execs.filter fun x => (k.cyc + 1).toNat < x.till
      lates := k.lates.filter fun x => (k.cyc + 1).toNat < x.at_
      dues := k.dues.filter fun d => (k.cyc + 1).toNat < d.any }
    let s := ((s.seek core).pumpHost.answerHost).poll core
    let s := (s.splitsOf core).foldl State.markReady s
    let rs := s.readies core
    let s := s.vectorSide core (!rs.isEmpty)
    let k := s.core core
    let held := k.shut rs
    let start := k.startCls rs
    let (s, picks) := State.starts core (match start with | some c => k.choices rs c | none => []) s
    let switched := decide (start.getD k.openCls ≠ k.openCls) && !picks.isEmpty
    let opened := if switched then start.getD k.openCls else k.openCls
    let cls := ((k.execs.map (·.cls)) ++ (if picks.isEmpty then [] else [opened])).foldl max 0
    let scale := (s.cluster (core / 16)).scale
    let s := rs.foldl (fun s r => if some r.cls != start then
      s.tallyAs core (s.wave core r.at_.ctx).grid (s.wave core r.at_.ctx).stage 0x05 1 else s) s
    let s := s.modCore core fun k => ({ k with
      openCls := opened, cycCls := cls, exhausted := held && !switched
      cycEnd := max s.tu k.cycEnd + Config.cycleTu cls scale }).countCycle cls
    some { s with issueQ := s.issueQ ++ picks }

/-- A ready instruction of another class has waited 128 cycles: no instruction of the open class starts until the switch. -/
def execClassWaitExpiry (core : Nat) : State → Res :=
  event fun s =>
    let k := s.core core
    if k.waited (s.readies core) then some (s.modCore core fun k => { k with exhausted := true }) else none

end Sys2Proof.Machine
end

