-- ==== Sys2Proof/Machine/Package.lean ====
section
/-! DEFINITION. The package: reset and the boot ROM, readiness, intervals and boost, sensors and host rules, channels and
uncorrectable errors (R401 to R414). -/

namespace Sys2Proof.Machine

/-! ### Reset, firmware and readiness (R412, R413) -/

/-- The boot ROM's three checks, in order; a signature has 29,792 bytes. -/
def imageOk (i : BootImage) : Bool :=
  i.sig.length == 29792 && (Config.shake256 (leBytes 64 i.pk.toNat)).extractLsb' 0 256 == Config.fuseKeyHash && decide (Config.fuseVersion ≤ i.version)
    && Config.slhVerify i.pk i.sig (leBytes 64 i.pk.toNat ++ leBytes 4 i.version ++ i.body)

/-- The ROM's measurement, and the firmware's where the ROM runs it. -/
def bootMeas (i : BootImage) (ok : Bool) : List (BitVec 512) :=
  [Config.romMeasure, if ok then Config.shake256 (leBytes 64 i.pk.toNat ++ leBytes 4 i.version ++ i.body) else 0, 0, 0, 0, 0, 0, 0]

/-- The boot ROM checks an image. -/
def State.bootWith (s : State) (i : BootImage) : State :=
  let ok := imageOk i
  { s with boot := if ok then .running else .failed, image := i, meas := bootMeas i ok }

/-- Reset: every state but the outside world's and LPDDR 6's contents is as after reset (log entry 40). -/
def execReset (img : BootImage) : State → Res :=
  event fun s =>
    some (({ State.reset with
      agenda := s.agenda, rx := s.rx, free := s.free, mem := s.mem, badMem := s.badMem, linkUp := s.linkUp, out := s.out } : State).bootWith img)

/-- The recovery channel takes a new image, or tells the ROM's measurement. -/
def execRecoveryChannelRequest (r : RecoveryReq) : State → Res :=
  event fun s =>
    if s.boot != .failed then none
    else match r with
      | .image i => some (s.bootWith i)
      | .measurement => some (s.emit (.recovery (leBytes 64 Config.romMeasure.toNat)))

/-- A function reports ready: the link always, the others where the firmware runs, a cluster after its rail. -/
def execReadyBitSet (bit : Nat) : State → Res :=
  event fun s =>
    let ok := match s.boot with
      | .atReset => false
      | .failed => bit == 0
      | .running =>
        (decide (bit ≤ 31) && bit != 2 && bit != 3 && !(decide (6 ≤ bit ∧ bit < 8)))
          || (decide (64 ≤ bit ∧ bit < 192) && s.ready.getLsbD (28 + (s.cluster (bit - 64)).rail) && !(s.cluster (bit - 64)).off)
    if ok then some (s.setReady bit true) else none

/-- Registers without a row of their own: THOT, the port's addresses, and a measurement register of the firmware's six, which
a stage extends with what it measures and nothing writes (R279, R413, R415; log entry 99). -/
def execRegisterWrite (r : CfgReg) (value : Nat) : State → Res :=
  event fun s => match r with
    | .thot => some { s with thot := value }
    | .ipv4 => some { s with ipv4 := value % 2 ^ 32 }
    | .ipv6 => some { s with ipv6 := value % 2 ^ 128 }
    | .extend k =>
      let m := Config.shake256 (leBytes 64 ((s.meas.getD k 0).toNat) ++ leBytes 64 value)
      if s.boot = .running ∧ 2 ≤ k ∧ k < 8 then some { s with meas := s.meas.set k m } else none

/-! ### Interval boundaries (R404, R406 to R408) -/

/-- What a fired rule does at the boundary. -/
def State.ruleAct (s : State) (b : List Byte) : State :=
  let src := fieldAt b 0 2
  let ix := src % 4096
  let isC := src / 4096 == 0
  match fieldAt b 4 1 with
  | 1 => if isC then s.modCluster ix fun c => { c with boost := false } else s
  | 2 => if isC then s.modCluster ix fun c => { c with capped := true } else s
  | 3 =>
    if !isC then s
    else if s.mayClim ix (fieldAt b 6 2) then s.modCluster ix fun c => { c with clim := fieldAt b 6 2 }
    else s.record tcEncoding { RecInfo.blank with kind := 6, ix := ix }
  | 4 => if isC then (s.modCluster ix fun c => { c with off := true }).setReady (64 + ix) false else s
  | 5 =>
    let k := if isC then (s.cluster ix).rail else ix
    if isC || src / 4096 == 2 then { s with rails := s.rails.modify k fun r => { r with noBoost := true } } else s
  | _ => s

/-- Fired rules take effect. -/
def State.rulesTake (s : State) : State := s.fired.foldl State.ruleAct { s with fired := [] }

/-- A cluster whose move was held may go: it is empty, and no stream reserves it. -/
def State.mayMove (s : State) (c : Nat) : Bool :=
  (s.cluster c).railNext.isSome && !(s.wgs.any fun e => e.2.core.any fun x => x / 16 == c) && !s.reserved c

/-- Clusters move to their next rails, where every rail's limit then holds; else they stay held (log entry 98). -/
def State.railMoves (s : State) (cs : List Nat) : State :=
  if climOk s.clim (fun c => if cs.contains c then s.railOf c else (s.cluster c).rail) s.rlim then
    cs.foldl (fun s c => s.modCluster c fun x => { x with rail := s.railOf c, railNext := none }) s
  else s

/-- The moves of a boundary: all that may go at once, and where a limit forbids that, each that it allows, in cluster order. -/
def State.moveRails (s : State) : State :=
  let cs := (List.range 128).filter s.mayMove
  let s := s.railMoves cs
  cs.foldl (fun s c => if (s.cluster c).railNext.isSome then s.railMoves [c] else s) s

/-- The priority of a cluster's claim: the highest of the waves one of its cores held in the last 1 µs. -/
def State.claimPrio (s : State) (c : Nat) : Option Nat :=
  let now := (s.contexts fun _ => true).filterMap fun x => if x.1 / 16 = c then some (s.wave x.1 x.2).prio else none
  let left := (s.cluster c).left.filterMap fun x => if s.tu ≤ x.2 + 1000 * Config.tuPerNs then some x.1 else none
  (now ++ left).foldl (fun b p => some (max p (b.getD 0))) none

/-- Clusters of a rail that claim boost, in the order of grants. -/
def State.claims (s : State) (k : Nat) (r : Rail) : List Nat :=
  let cs := (List.range 128).filterMap fun i =>
    let c := (r.ptr + i) % 128
    let x := s.cluster c
    if x.rail == k && x.boost && !x.capped && !r.noBoost then (s.claimPrio c).map fun p => (c, p) else none
  (List.range 8).flatMap fun j => (cs.filter fun x => x.2 == 7 - j).map (·.1)

/-- The clusters on a rail. -/
def State.onRail (s : State) (k : Nat) : List Nat := (List.range 128).filter fun c => (s.cluster c).rail == k

/-- The permits and the calm run at an interval's end. -/
def State.railEnd (s : State) (k : Nat) : State :=
  let cs := s.onRail k
  let boosted := (cs.filter fun c => (s.cluster c).scale == 2).length
  let calm := cs.all fun c => (s.cluster c).scale == 0
  { s with rails := s.rails.modify k fun r =>
      let p := r.permits - boosted
      if !calm then { r with permits := p, calm := 0 }
      else if r.calm = 1 then { r with permits := min 64 (p + 1), calm := 0 }
      else { r with permits := p, calm := 1 } }

/-- The grants of a rail for the next interval, and the scale of each of its clusters; one that arrives at this boundary takes
no part in them and is at nominal (R404). -/
def State.railGrant (s : State) (k : Nat) (ends came : List Nat) : State :=
  match s.rails[k]? with
  | none => s
  | some r =>
    let won := ((s.claims k r).filter fun c => !came.contains c).take r.permits
    let s : State := { s with rails := s.rails.modify k fun r => { r with ptr := (won.getLast?.map fun c => (c + 1) % 128).getD r.ptr } }
    (s.onRail k).foldl (fun s c => s.modCluster c fun x =>
      x.setScale s.tu (if won.contains c then 2 else if ends.contains c && !x.capped && !came.contains c then 1 else 0)) s

/-- The interval after another, at the counter's end the first again. -/
def nextInterval (i : Nat) : Nat := if i < intervalOf (BitVec.allOnes 64) then i + 1 else 0

/-- The next boundary on the DTC: an interval ends, rules and moves take effect, and the next interval's scales are set. -/
def execIntervalBoundary : State → Res :=
  event fun s =>
    if intervalOf s.dtc = s.interval then none
    else
      let s := ((List.range 4).foldl State.railEnd { s with interval := nextInterval s.interval }).rulesTake
      let came := (List.range 128).filter s.mayMove
      let s := s.moveRails
      let came := came.filter fun c => (s.cluster c).railNext.isNone
      let ends := (List.range 128).filter fun c => (s.cluster c).scale == 2
      some ((List.range 4).foldl (fun s k => s.railGrant k ends came) s)

/-- A cluster's core supply in mV, which goes with its clock scale (R406). -/
def Cluster.supply (c : Cluster) : Nat := match c.scale with | 0 => 550 | 1 => 575 | _ => 600

/-! ### Sensors and host rules (R408) -/

def execSensorSample (packages regulators : List Nat) : State → Res :=
  event fun s =>
    let s : State := { s with
      pkgTemp := (List.range 16).map fun i => packages.getD i (s.pkgTemp.getD i 0)
      regTemp := (List.range 4).map fun i => regulators.getD i (s.regTemp.getD i 0) }
    some s.judgeRules

/-! ### Channels and errors (R402, R410) -/

/-- A request leaves the slice's lists and the atomics units' queues. -/
def State.dropReq (s : State) (r : Req) : State :=
  let s := s.modSlice (sliceOf r.pa) fun x => { x with
    q := x.q.filter (· != r)
    lines := x.lines.filterMap fun l => match l.miss with
      | some rs => let rs' := rs.filter (· != r)
                   if rs'.isEmpty && !rs.isEmpty then none else some { l with miss := some rs' }
      | none => some l }
  let s := if (s.slice (sliceOf r.pa)).lines.any (fun l => l.line == r.pa / 128 && l.miss.isSome) then s else s.unfetch (r.pa / 128)
  s.modCluster (r.core / 16) fun c => { c with atomQ := c.atomQ.filter (· != r) }

/-- The 100 ms of R402 in tu. -/
def chanTimeout : Nat := 100000000 * Config.tuPerNs

/-- A held access fails: a copy request stops with cause 8 and a record whose detail is 1; the rest as failReq has it (R402). -/
def State.failHeld (s : State) (r : Req) : State :=
  let stop (id : Nat) : State := match (s.core r.core).copyRun.find? (·.id == id) with
    | none => s
    | some x => (s.modCore r.core fun c => { c with copyRun := c.copyRun.filter fun y => y.id != id }).barErrorAs x.wg x.nb 8
        (BitVec.ofNat 64 r.pa) false true 1
  match r.for_ with
  | .copyRead id _ => stop id
  | .copyWrite id _ _ => stop id
  | _ => s.failReq r

def execChannelAccessTimeout (chan idx : Nat) : State → Res :=
  event fun s =>
    match (look s.chans chan).bind (·.held[idx]?) with
    | none => none
    | some h =>
      if s.ready.getLsbD (8 + chan / 8) || decide (s.tu < h.since + chanTimeout) then none
      else
        let s : State := { s with chans := change s.chans chan fun c => { c with held := c.held.eraseIdx idx } }
        some ((s.dropReq h.req).failHeld h.req)

/-- A request reads its line for someone who then learns of an error there; one that writes goes on. -/
def State.readsLine (s : State) (r : Req) : Bool :=
  match r.for_ with
  | .elem => (s.acc? r.core r.ctx r.acc).any Acc.returns
  | .copyRead _ _ | .stream _ _ _ | .scale _ _ => true
  | .unit tag => (s.asks.find? (·.tag == tag)).any fun a => match a.op with
    | .read | .atom _ _ | .pop _ => true
    | _ => false
  | .copyWrite _ _ _ | .pref _ | .slot | .claim _ => false

/-- A slice's line is lost: each consumer that waits for it is told, and the line is fetched anew (R314); a writer, or nobody,
leaves a record alone. -/
def State.sliceError (s : State) (k line : Nat) : State :=
  let rs := (s.slice k).q.filter fun r => r.pa / 128 == line
  let s := (s.dropClaim line).modSlice k fun x => { x with lines := x.lines.filter fun l => l.line != line || l.miss.isSome }
  let noted (s : State) : State := s.record tcData { sliceErr (line * 128) with ix := k }
  if rs.isEmpty then noted s
  else rs.foldl (fun s r =>
    if r.for_ = .elem then match s.elem? r with
      | some e => if s.readsLine r then ((s.dropReq r).recordUnc r e.va 0).modElem r fun x => { x.finish false true [] 0 with back := s.backAt r.src r.pa }
                  else s.recordUnc r e.va 0
      | none => s
    else if s.readsLine r then (s.dropReq r).give r none s.dtc
    else noted s) s

/-- A channel's counter of corrected errors, one up: it saturates (R401). -/
def satInc (v : Word) : Word := if v = BitVec.allOnes 32 then v else v + 1

/-- An uncorrectable error: where it lies in a location it stays and meets every later read; in a transfer it meets the
transfer's consumer at once. An error that a channel corrects changes no data and writes no record: it is counted (R401; log entry 84),
and the rules that read its counter are judged. -/
def execUncorrectableError (e : ErrSite) : State → Res :=
  event fun s => match e with
    | .dram pa => if s.badMem.contains (pa / 8 * 8) then none else some { s with badMem := (pa / 8 * 8) :: s.badMem }
    | .corrected ch =>
      if 64 ≤ ch then none
      else
        let c := (look s.chans ch).getD ⟨0, [], []⟩
        some ({ s with chans := put s.chans ch { c with corrected := satInc c.corrected } } : State).judgeRules
    | .slice k line => if (s.slice k).lines.any (·.line == line) then some (s.sliceError k line) else none
    | .rrot k m => some (s.modGroup k fun g => { g with xfers := g.xfers.map fun x => if x.member = m then { x with err := true } else x })
    | .xst k i =>
      match (s.group k).xst[i]? with
      | some e =>
        some ((s.recordWave (16 * k + e.src) e.ctx tcData (BitVec.ofNat 64 e.addr) false true 0).xstGone k i e)
      | none => none
    | .copyPart core req => ((s.core core).copyRun.find? (·.id == req)).map fun r => s.stopCopy core r 8 0 false
    | .kbuf k =>
      match (s.cluster k).kq with
      | q :: rest =>
        let qs := if q.writing then { q with spoiled := true } :: rest else rest
        some ((s.modCluster k fun c => { c with kq := qs }).barErrorAs q.wg q.bar 8 0 false true 0)
      | [] => none

end Sys2Proof.Machine
end

