-- ==== Sys2Proof/Machine/Dispatch.lean ====
section
/-! DEFINITION. One arm per constructor of Instr: its meaning, by name. -/

namespace Sys2Proof.Machine

def exec (i : Instr) (s : State) : Host.Outcome State Fault Refusal :=
  match i with
  | .add o ty => Sys2Proof.Machine.execAdd o ty s
  | .sub o ty => Sys2Proof.Machine.execSub o ty s
  | .mulLo o ty => Sys2Proof.Machine.execMulLo o ty s
  | .mulHi o ty => Sys2Proof.Machine.execMulHi o ty s
  | .mad o ty => Sys2Proof.Machine.execMad o ty s
  | .min o ty => Sys2Proof.Machine.execMin o ty s
  | .max o ty => Sys2Proof.Machine.execMax o ty s
  | .abs o => Sys2Proof.Machine.execAbs o s
  | .and o => Sys2Proof.Machine.execAnd o s
  | .or o => Sys2Proof.Machine.execOr o s
  | .xor o => Sys2Proof.Machine.execXor o s
  | .lop3 o tbl => Sys2Proof.Machine.execLop3 o tbl s
  | .shl o => Sys2Proof.Machine.execShl o s
  | .shr o => Sys2Proof.Machine.execShr o s
  | .sar o => Sys2Proof.Machine.execSar o s
  | .rot o => Sys2Proof.Machine.execRot o s
  | .bfe o sx => Sys2Proof.Machine.execBfe o sx s
  | .bfi o => Sys2Proof.Machine.execBfi o s
  | .popc o => Sys2Proof.Machine.execPopc o s
  | .clz o => Sys2Proof.Machine.execClz o s
  | .brev o => Sys2Proof.Machine.execBrev o s
  | .addW o => Sys2Proof.Machine.execAddW o s
  | .lea o sh z => Sys2Proof.Machine.execLea o sh z s
  | .cmp o c ty comb => Sys2Proof.Machine.execCmp o c ty comb s
  | .sel o => Sys2Proof.Machine.execSel o s
  | .mov o => Sys2Proof.Machine.execMov o s
  | .movi g d imm => Sys2Proof.Machine.execMovi g d imm s
  | .plop o tbl => Sys2Proof.Machine.execPlop o tbl s
  | .dp4 o ua ub => Sys2Proof.Machine.execDp4 o ua ub s
  | .fadd o => Sys2Proof.Machine.execFadd o s
  | .fsub o => Sys2Proof.Machine.execFsub o s
  | .fmul o => Sys2Proof.Machine.execFmul o s
  | .ffma o => Sys2Proof.Machine.execFfma o s
  | .fmin o nan => Sys2Proof.Machine.execFmin o nan s
  | .fmax o nan => Sys2Proof.Machine.execFmax o nan s
  | .fcmp o c u comb => Sys2Proof.Machine.execFcmp o c u comb s
  | .fclass o m => Sys2Proof.Machine.execFclass o m s
  | .frnd o => Sys2Proof.Machine.execFrnd o s
  | .ffrac o => Sys2Proof.Machine.execFfrac o s
  | .frcp o => Sys2Proof.Machine.execFrcp o s
  | .frsq o => Sys2Proof.Machine.execFrsq o s
  | .fsqrt o => Sys2Proof.Machine.execFsqrt o s
  | .fexp2 o => Sys2Proof.Machine.execFexp2 o s
  | .flog2 o => Sys2Proof.Machine.execFlog2 o s
  | .fsin o => Sys2Proof.Machine.execFsin o s
  | .fcos o => Sys2Proof.Machine.execFcos o s
  | .ftanh o => Sys2Proof.Machine.execFtanh o s
  | .fdiv o => Sys2Proof.Machine.execFdiv o s
  | .hadd2 o bf => Sys2Proof.Machine.execHadd2 o bf s
  | .hmul2 o bf => Sys2Proof.Machine.execHmul2 o bf s
  | .hfma2 o bf => Sys2Proof.Machine.execHfma2 o bf s
  | .fdot2 o bf => Sys2Proof.Machine.execFdot2 o bf s
  | .cvt o dst src => Sys2Proof.Machine.execCvt o dst src s
  | .pack2 o ty => Sys2Proof.Machine.execPack2 o ty s
  | .pack4 o ty => Sys2Proof.Machine.execPack4 o ty s
  | .unpack o ty e => Sys2Proof.Machine.execUnpack o ty e s
  | .qblk o b32 => Sys2Proof.Machine.execQblk o b32 s
  | .dqblk o => Sys2Proof.Machine.execDqblk o s
  | .i4g o h => Sys2Proof.Machine.execI4g o h s
  | .vote o op => Sys2Proof.Machine.execVote o op s
  | .shfl o mode lg => Sys2Proof.Machine.execShfl o mode lg s
  | .redux o op => Sys2Proof.Machine.execRedux o op s
  | .scan o op excl => Sys2Proof.Machine.execScan o op excl s
  | .tagof o => Sys2Proof.Machine.execTagof o s
  | .mkaff o => Sys2Proof.Machine.execMkaff o s
  | .movs g d r => Sys2Proof.Machine.execMovs g d r s
  | .setsr r a => Sys2Proof.Machine.execSetsr r a s
  | .rpf vc vb mask => Sys2Proof.Machine.execRpf vc vb mask s
  | .rdlane o => Sys2Proof.Machine.execRdlane o s
  | .br g a disp => Sys2Proof.Machine.execBr g a disp s
  | .brD g h disp => Sys2Proof.Machine.execBrD g h disp s
  | .jmp t => Sys2Proof.Machine.execJmp t s
  | .call d t => Sys2Proof.Machine.execCall d t s
  | .callx d a => Sys2Proof.Machine.execCallx d a s
  | .ret a => Sys2Proof.Machine.execRet a s
  | .join => Sys2Proof.Machine.execJoin s
  | .conv => Sys2Proof.Machine.execConv s
  | .exit g => Sys2Proof.Machine.execExit g s
  | .trap g code => Sys2Proof.Machine.execTrap g code s
  | .nop => Sys2Proof.Machine.execNop s
  | .loop d disp => Sys2Proof.Machine.execLoop d disp s
  | .fhdr n g => Sys2Proof.Machine.execFhdr n g s
  | .ldA o => Sys2Proof.Machine.execLdA o s
  | .stA o => Sys2Proof.Machine.execStA o s
  | .ldW o => Sys2Proof.Machine.execLdW o s
  | .ldC o => Sys2Proof.Machine.execLdC o s
  | .stC o => Sys2Proof.Machine.execStC o s
  | .atomA g la d a b off op => Sys2Proof.Machine.execAtomA g la d a b off op s
  | .casA g la d a b c => Sys2Proof.Machine.execCasA g la d a b c s
  | .tagset o => Sys2Proof.Machine.execTagset o s
  | .tagclr o => Sys2Proof.Machine.execTagclr o s
  | .tagwait o clr => Sys2Proof.Machine.execTagwait o clr s
  | .ldG o cg => Sys2Proof.Machine.execLdG o cg s
  | .stG o => Sys2Proof.Machine.execStG o s
  | .prefG g a b off l2 => Sys2Proof.Machine.execPrefG g a b off l2 s
  | .fenceRel sc => Sys2Proof.Machine.execFenceRel sc s
  | .fenceAcq sc => Sys2Proof.Machine.execFenceAcq sc s
  | .fenceFull sc => Sys2Proof.Machine.execFenceFull sc s
  | .fenceLeaseTimeReached at_ => Sys2Proof.Machine.execFenceLeaseTimeReached at_ s
  | .waitc a path => Sys2Proof.Machine.execWaitc a path s
  | .atomG g la d a b off op wide sc => Sys2Proof.Machine.execAtomG g la d a b off op wide sc s
  | .casG g la d a b c wide sc => Sys2Proof.Machine.execCasG g la d a b c wide sc s
  | .qpush g d a b size => Sys2Proof.Machine.execQpush g d a b size s
  | .qpop g la d a c size => Sys2Proof.Machine.execQpop g la d a c size s
  | .binit k a => Sys2Proof.Machine.execBinit k a s
  | .barr k => Sys2Proof.Machine.execBarr k s
  | .bexp k a nx => Sys2Proof.Machine.execBexp k a nx s
  | .bwait k p => Sys2Proof.Machine.execBwait k p s
  | .barrw k => Sys2Proof.Machine.execBarrw k s
  | .btest k d cnt nx => Sys2Proof.Machine.execBtest k d cnt nx s
  | .bbind k a => Sys2Proof.Machine.execBbind k a s
  | .kick a b off => Sys2Proof.Machine.execKick a b off s
  | .kickQueueRefill core => Sys2Proof.Machine.execKickQueueRefill core s
  | .copyRequestTake core => Sys2Proof.Machine.execCopyRequestTake core s
  | .copyPartWrite core req => Sys2Proof.Machine.execCopyPartWrite core req s
  | .strdef d k a off => Sys2Proof.Machine.execStrdef d k a off s
  | .streamFill core ctx k => Sys2Proof.Machine.execStreamFill core ctx k s
  | .strq g la d c k size sx => Sys2Proof.Machine.execStrq g la d c k size sx s
  | .strend k => Sys2Proof.Machine.execStrend k s
  | .spawn d a b => Sys2Proof.Machine.execSpawn d a b s
  | .spawnedWaveReady core ctx => Sys2Proof.Machine.execSpawnedWaveReady core ctx s
  | .task g d a b c => Sys2Proof.Machine.execTask g d a b c s
  | .mma o => Sys2Proof.Machine.execMma o s
  | .mmaSp o => Sys2Proof.Machine.execMmaSp o s
  | .vmx g la d a b fb kk => Sys2Proof.Machine.execVmx g la d a b fb kk s
  | .mfence => Sys2Proof.Machine.execMfence s
  | .mwait a => Sys2Proof.Machine.execMwait a s
  | .azero n c => Sys2Proof.Machine.execAzero n c s
  | .aepi g n a b act zc fmt => Sys2Proof.Machine.execAepi g n a b act zc fmt s
  | .amax g la d a n i32 => Sys2Proof.Machine.execAmax g la d a n i32 s
  | .scldef id a b => Sys2Proof.Machine.execScldef id a b s
  | .sclinv id => Sys2Proof.Machine.execSclinv id s
  | .matrixStart core qid => Sys2Proof.Machine.execMatrixStart core qid s
  | .scaleLineFill core id line => Sys2Proof.Machine.execScaleLineFill core id line s
  | .matrixComplete core qid => Sys2Proof.Machine.execMatrixComplete core qid s
  | .matrixFault core qid k => Sys2Proof.Machine.execMatrixFault core qid k s
  | .rrot a b k => Sys2Proof.Machine.execRrot a b k s
  | .rrotGenerationStart cluster => Sys2Proof.Machine.execRrotGenerationStart cluster s
  | .rrotTransferDone cluster member => Sys2Proof.Machine.execRrotTransferDone cluster member s
  | .xst g d a b off size => Sys2Proof.Machine.execXst g d a b off size s
  | .xstElementWrite cluster idx => Sys2Proof.Machine.execXstElementWrite cluster idx s
  | .xswap => Sys2Proof.Machine.execXswap s
  | .xswapExchange cluster => Sys2Proof.Machine.execXswapExchange cluster s
  | .cbar => Sys2Proof.Machine.execCbar s
  | .cbarComplete cluster => Sys2Proof.Machine.execCbarComplete cluster s
  | .clusterAtomic cluster idx => Sys2Proof.Machine.execClusterAtomic cluster idx s
  | .clusterLineRecall cluster line => Sys2Proof.Machine.execClusterLineRecall cluster line s
  | .clusterClaimTimeout cluster line => Sys2Proof.Machine.execClusterClaimTimeout cluster line s
  | .currentRequest core r => Sys2Proof.Machine.execCurrentRequest core r s
  | .currentGrant cluster => Sys2Proof.Machine.execCurrentGrant cluster s
  | .currentGrantTimeout cluster => Sys2Proof.Machine.execCurrentGrantTimeout cluster s
  | .currentReservationLapse core r => Sys2Proof.Machine.execCurrentReservationLapse core r s
  | .grid la d c => Sys2Proof.Machine.execGrid la d c s
  | .gridDelivery core ctx => Sys2Proof.Machine.execGridDelivery core ctx s
  | .gderiv g d a b v => Sys2Proof.Machine.execGderiv g d a b v s
  | .tex g la d a b c => Sys2Proof.Machine.execTex g la d a b c s
  | .texLz g la d a b => Sys2Proof.Machine.execTexLz g la d a b s
  | .gemit d a b c => Sys2Proof.Machine.execGemit d a b c s
  | .kbres a k => Sys2Proof.Machine.execKbres a k s
  | .kbufBlockResolve cluster => Sys2Proof.Machine.execKbufBlockResolve cluster s
  | .srateGrid d a => Sys2Proof.Machine.execSrateGrid d a s
  | .srateCell d a b => Sys2Proof.Machine.execSrateCell d a b s
  | .rfbk g a b => Sys2Proof.Machine.execRfbk g a b s
  | .dicePatch cluster => Sys2Proof.Machine.execDicePatch cluster s
  | .btagAlloc la d => Sys2Proof.Machine.execBtagAlloc la d s
  | .btagFree la a => Sys2Proof.Machine.execBtagFree la a s
  | .bsend d a b c comb fromC => Sys2Proof.Machine.execBsend d a b c comb fromC s
  | .bsendTagCheckAnswer at_ => Sys2Proof.Machine.execBsendTagCheckAnswer at_ s
  | .bstatSnd d => Sys2Proof.Machine.execBstatSnd d s
  | .bstatRcv d => Sys2Proof.Machine.execBstatRcv d s
  | .bridleOperandArrival idx => Sys2Proof.Machine.execBridleOperandArrival idx s
  | .bridleHeldDelivery unit entry => Sys2Proof.Machine.execBridleHeldDelivery unit entry s
  | .bridleOrphanTimeout unit entry => Sys2Proof.Machine.execBridleOrphanTimeout unit entry s
  | .icinv sc => Sys2Proof.Machine.execIcinv sc s
  | .trapret => Sys2Proof.Machine.execTrapret s
  | .trapretRetry => Sys2Proof.Machine.execTrapretRetry s
  | .yield => Sys2Proof.Machine.execYield s
  | .yieldP => Sys2Proof.Machine.execYieldP s
  | .sleep a => Sys2Proof.Machine.execSleep a s
  | .sleepExpiry at_ => Sys2Proof.Machine.execSleepExpiry at_ s
  | .wake grid wg wave => Sys2Proof.Machine.execWake grid wg wave s
  | .brk g code => Sys2Proof.Machine.execBrk g code s
  | .perfRd d k => Sys2Proof.Machine.execPerfRd d k s
  | .perfMark a => Sys2Proof.Machine.execPerfMark a s
  | .halfAdd h => Sys2Proof.Machine.execHalfAdd h s
  | .halfSub h => Sys2Proof.Machine.execHalfSub h s
  | .halfAnd h => Sys2Proof.Machine.execHalfAnd h s
  | .halfOr h => Sys2Proof.Machine.execHalfOr h s
  | .halfXor h => Sys2Proof.Machine.execHalfXor h s
  | .halfShl h => Sys2Proof.Machine.execHalfShl h s
  | .halfShr h => Sys2Proof.Machine.execHalfShr h s
  | .halfSar h => Sys2Proof.Machine.execHalfSar h s
  | .halfMin h => Sys2Proof.Machine.execHalfMin h s
  | .halfMax h => Sys2Proof.Machine.execHalfMax h s
  | .halfMov h => Sys2Proof.Machine.execHalfMov h s
  | .hnop => Sys2Proof.Machine.execHnop s
  | .halfFadd h => Sys2Proof.Machine.execHalfFadd h s
  | .halfFmul h => Sys2Proof.Machine.execHalfFmul h s
  | .halfFmin h => Sys2Proof.Machine.execHalfFmin h s
  | .halfFmax h => Sys2Proof.Machine.execHalfFmax h s
  | .halfFsub h => Sys2Proof.Machine.execHalfFsub h s
  | .pfxM m => Sys2Proof.Machine.execPfxM m s
  | .pfxI hi => Sys2Proof.Machine.execPfxI hi s
  | .coreCycleIssue core => Sys2Proof.Machine.execCoreCycleIssue core s
  | .classWaitExpiry core => Sys2Proof.Machine.execClassWaitExpiry core s
  | .preemptionRequest t => Sys2Proof.Machine.execPreemptionRequest t s
  | .waveDrainComplete core ctx => Sys2Proof.Machine.execWaveDrainComplete core ctx s
  | .contextSave core ctx => Sys2Proof.Machine.execContextSave core ctx s
  | .workgroupEvict wg => Sys2Proof.Machine.execWorkgroupEvict wg s
  | .waveResume saved core => Sys2Proof.Machine.execWaveResume saved core s
  | .globalAccessTranslated at_ => Sys2Proof.Machine.execGlobalAccessTranslated at_ s
  | .pageTableWalk walker => Sys2Proof.Machine.execPageTableWalk walker s
  | .sliceRequest slice pos => Sys2Proof.Machine.execSliceRequest slice pos s
  | .l2MissFill slice line => Sys2Proof.Machine.execL2MissFill slice line s
  | .l1Fill core idx => Sys2Proof.Machine.execL1Fill core idx s
  | .loadResponse core ctx acc => Sys2Proof.Machine.execLoadResponse core ctx acc s
  | .storeCompletion core ctx acc => Sys2Proof.Machine.execStoreCompletion core ctx acc s
  | .channelAccessTimeout chan idx => Sys2Proof.Machine.execChannelAccessTimeout chan idx s
  | .uncorrectableError e => Sys2Proof.Machine.execUncorrectableError e s
  | .workgroupDispatch => Sys2Proof.Machine.execWorkgroupDispatch s
  | .gangDispatch grid => Sys2Proof.Machine.execGangDispatch grid s
  | .gridEnd grid => Sys2Proof.Machine.execGridEnd grid s
  | .thermalSample temps => Sys2Proof.Machine.execThermalSample temps s
  | .gathererPop cluster grid => Sys2Proof.Machine.execGathererPop cluster grid s
  | .gathererBinTimeout cluster bin => Sys2Proof.Machine.execGathererBinTimeout cluster bin s
  | .taskBinLaunch cluster bin => Sys2Proof.Machine.execTaskBinLaunch cluster bin s
  | .chainAdmission stream => Sys2Proof.Machine.execChainAdmission stream s
  | .densityCheckpoint stream => Sys2Proof.Machine.execDensityCheckpoint stream s
  | .chainCommit stream => Sys2Proof.Machine.execChainCommit stream s
  | .stripLate stream => Sys2Proof.Machine.execStripLate stream s
  | .chainEarlyStart stream => Sys2Proof.Machine.execChainEarlyStart stream s
  | .chainConfirmOrSquash stream => Sys2Proof.Machine.execChainConfirmOrSquash stream s
  | .tetherCopy stream strip lower => Sys2Proof.Machine.execTetherCopy stream strip lower s
  | .haloSubstituted stream lower => Sys2Proof.Machine.execHaloSubstituted stream lower s
  | .stripConsume stream => Sys2Proof.Machine.execStripConsume stream s
  | .displayportLine stream => Sys2Proof.Machine.execDisplayportLine stream s
  | .av1FrameEncode stream => Sys2Proof.Machine.execAv1FrameEncode stream s
  | .av1QovrRead stream => Sys2Proof.Machine.execAv1QovrRead stream s
  | .st2110LineSend stream => Sys2Proof.Machine.execSt2110LineSend stream s
  | .cpNop cp => Sys2Proof.Machine.execCpNop cp s
  | .cpLaunch cp => Sys2Proof.Machine.execCpLaunch cp s
  | .cpIb cp => Sys2Proof.Machine.execCpIb cp s
  | .cpLoop cp => Sys2Proof.Machine.execCpLoop cp s
  | .cpPred cp => Sys2Proof.Machine.execCpPred cp s
  | .cpWaitmem cp => Sys2Proof.Machine.execCpWaitmem cp s
  | .cpWrite cp => Sys2Proof.Machine.execCpWrite cp s
  | .cpFence cp => Sys2Proof.Machine.execCpFence cp s
  | .cpFetchfence cp => Sys2Proof.Machine.execCpFetchfence cp s
  | .cpEvent cp => Sys2Proof.Machine.execCpEvent cp s
  | .cpTimewait cp => Sys2Proof.Machine.execCpTimewait cp s
  | .cpStripcfg cp => Sys2Proof.Machine.execCpStripcfg cp s
  | .cpStreamcfg cp => Sys2Proof.Machine.execCpStreamcfg cp s
  | .cpHalt cp => Sys2Proof.Machine.execCpHalt cp s
  | .irsinWrite h addr data => Sys2Proof.Machine.execIrsinWrite h addr data s
  | .irsinReadRequest h addr len => Sys2Proof.Machine.execIrsinReadRequest h addr len s
  | .irsinReadResponse h tag data => Sys2Proof.Machine.execIrsinReadResponse h tag data s
  | .irsinAtomicRequest h addr op data => Sys2Proof.Machine.execIrsinAtomicRequest h addr op data s
  | .irsinAtomicResponse h tag old => Sys2Proof.Machine.execIrsinAtomicResponse h tag old s
  | .irsinTailUpdate h cp tail => Sys2Proof.Machine.execIrsinTailUpdate h cp tail s
  | .irsinEvent conn => Sys2Proof.Machine.execIrsinEvent conn s
  | .irsinManagementRequest h r => Sys2Proof.Machine.execIrsinManagementRequest h r s
  | .irsinAck h => Sys2Proof.Machine.execIrsinAck h s
  | .irsinConnect h => Sys2Proof.Machine.execIrsinConnect h s
  | .irsinClose h => Sys2Proof.Machine.execIrsinClose h s
  | .irsinRetransmitTimeout conn seq => Sys2Proof.Machine.execIrsinRetransmitTimeout conn seq s
  | .mgmtReadStatus => Sys2Proof.Machine.execMgmtReadStatus s
  | .mgmtPlaceAreas => Sys2Proof.Machine.execMgmtPlaceAreas s
  | .mgmtSetPower => Sys2Proof.Machine.execMgmtSetPower s
  | .mgmtWriteRule => Sys2Proof.Machine.execMgmtWriteRule s
  | .mgmtWritePlacement => Sys2Proof.Machine.execMgmtWritePlacement s
  | .mgmtSetPerfCounter => Sys2Proof.Machine.execMgmtSetPerfCounter s
  | .mgmtSetOrphanTimeout => Sys2Proof.Machine.execMgmtSetOrphanTimeout s
  | .mgmtPlaceRbase => Sys2Proof.Machine.execMgmtPlaceRbase s
  | .mgmtInvalidateTranslations => Sys2Proof.Machine.execMgmtInvalidateTranslations s
  | .mgmtCommandProcessor => Sys2Proof.Machine.execMgmtCommandProcessor s
  | .mgmtPreempt => Sys2Proof.Machine.execMgmtPreempt s
  | .mgmtWake => Sys2Proof.Machine.execMgmtWake s
  | .mgmtResumeBreakpoint => Sys2Proof.Machine.execMgmtResumeBreakpoint s
  | .mgmtAssignTaskQueue => Sys2Proof.Machine.execMgmtAssignTaskQueue s
  | .mgmtSetPtp => Sys2Proof.Machine.execMgmtSetPtp s
  | .mgmtAttestation => Sys2Proof.Machine.execMgmtAttestation s
  | .mgmtMapHostWindow => Sys2Proof.Machine.execMgmtMapHostWindow s
  | .ptpMessage offset => Sys2Proof.Machine.execPtpMessage offset s
  | .ptpLock time => Sys2Proof.Machine.execPtpLock time s
  | .ptpLossOfLock => Sys2Proof.Machine.execPtpLossOfLock s
  | .ethernetLinkChange up => Sys2Proof.Machine.execEthernetLinkChange up s
  | .intervalBoundary => Sys2Proof.Machine.execIntervalBoundary s
  | .sensorSample packages regulators => Sys2Proof.Machine.execSensorSample packages regulators s
  | .reset img => Sys2Proof.Machine.execReset img s
  | .readyBitSet bit => Sys2Proof.Machine.execReadyBitSet bit s
  | .registerWrite r value => Sys2Proof.Machine.execRegisterWrite r value s
  | .matrixReadComplete core qid => Sys2Proof.Machine.execMatrixReadComplete core qid s
  | .timewaitTimeReached cp => Sys2Proof.Machine.execTimewaitTimeReached cp s
  | .waitmemReread cp => Sys2Proof.Machine.execWaitmemReread cp s
  | .irsinWriteAckDue idx => Sys2Proof.Machine.execIrsinWriteAckDue idx s
  | .recoveryChannelRequest r => Sys2Proof.Machine.execRecoveryChannelRequest r s

end Sys2Proof.Machine
end

