-- ==== Sys2Proof/Machine/Fetch.lean ====
section
/-! DEFINITION. What a step takes next, and how an instruction is placed where a step fetches it. -/

namespace Sys2Proof.Machine

/-- The core whose present cycle ends first, the lowest of equals. -/
def nextCore (cs : AMap Core) : Nat :=
  (cs.foldl (fun (b : Option (Nat × Nat)) c =>
    match b with
    | none => some (c.1, c.2.cycEnd)
    | some (k, e) => if c.2.cycEnd < e then some (c.1, c.2.cycEnd) else some (k, e)) none |>.map (·.1)).getD 0

/-- An instruction of the opcode map or the half map, which only a split performs. -/
def isIsa (i : Instr) : Bool := (encode i).isSome

/-- The grid and the wave a placed instruction runs in, on core 0 in context 0 (log entry 4). -/
def loaderGrid : Grid := { Grid.blank with next := 1 }
def loaderWave : Wave := { Wave.blank with grid := 1, wg := 0 }
def loaderGroup : WGrp :=
  { WGrp.blank with
    grid := 1, core := some 0, live := 1
    ta := List.replicate 128 Tag.blank, tw := List.replicate 192 Tag.blank, tc := List.replicate 32 Tag.blank
    bars := List.replicate 48 Bar.blank }

/-- The bundle placed after a fetched modifier, so that it has a target it applies to. -/
def partnerOf (i : Option Instr) : Nat :=
  match i with
  | some (.pfxM _) => 0x002038000007F800
  | some (.pfxI _) => 0x000D3807FFF80000
  | _ => 0

/-- s with the loader's wave as the one wave of core 0, its first page mapped and its first line fetched, the bundle at address 0 and its wave's
split next to issue. -/
def State.place (s : State) (bundle next : Nat) : State :=
  { s with
    agenda := []
    issueQ := [⟨0, 0, 0⟩]
    cur := ⟨0, 0, 0⟩
    grids := put s.grids 1 loaderGrid
    wgs := put s.wgs 0 loaderGroup
    cores := put s.cores 0 { Core.blank with
      waves := [(0, loaderWave)], tlb := [⟨0, 0, 65536, 0, 0, true, true⟩], il := [(0, true)] }
    rbase := none
    badMem := []
    mem := (s.mem.putNat 0 8 bundle).putNat 8 8 next }

end Sys2Proof.Machine
end

