-- ==== Sys2Proof/Machine/Wire.lean ====
section
/-! DEFINITION. The wire: the frames the port takes, the Irsin header, the bodies of management requests, and the messages of
the PTP slave (R415, R416, R420, R428). Places of fields that the manual leaves open are the model's (log entries 100 and 101). -/

namespace Sys2Proof.Machine

/-- The number in n bytes at an offset, the highest byte first. -/
def beAt (bs : List Byte) (o n : Nat) : Nat := leNat ((bs.drop o).take n).reverse

/-! ### The Irsin header (R416) -/

/-- The 32-byte header. -/
def irsinHeader (conn opcode seq addr flags len ack : Nat) (sack : BitVec 32) : List Byte :=
  [1#8] ++ leBytes 1 opcode ++ leBytes 2 flags ++ leBytes 4 conn ++ leBytes 4 seq ++ leBytes 4 ack ++ leBytes 8 addr ++ leBytes 4 len
    ++ leBytes 4 sack.toNat

/-- The bytes of a message of the port: its header and its payload. -/
def Out.packet : Out → Option (List Byte)
  | .irsin conn opcode seq addr flags payload ack sack => some (irsinHeader conn opcode seq addr flags payload.length ack sack ++ payload)
  | _ => none

/-- A packet that R416 does not discard for its version, opcode, flags, atomic code or length. -/
def irsinOk (p : List Byte) : Bool :=
  let op := fieldAt p 1 1
  let fl := fieldAt p 2 2
  let len := fieldAt p 0x18 4
  fieldAt p 0 1 == 1 && decide (1 ≤ op ∧ op ≤ 12) && bitsOf fl 1 11 == 0
    && (if op = 4 ∨ op = 5 then decide (fl / 4096 ≤ 10) && !(fl / 4096 == 9 && len == 8) else fl / 4096 == 0)
    && decide (len ≤ 8192) && decide (32 + len ≤ p.length)

def irsinHdr (p : List Byte) : IrsinHdr :=
  ⟨fieldAt p 4 4, fieldAt p 8 4, (fieldAt p 2 2).testBit 0, fieldAt p 0xC 4, BitVec.ofNat 32 (fieldAt p 0x1C 4)⟩

/-- The atomic of a code of R416. -/
def hostOp (code : Nat) : Option HostAtomic := if code = 10 then some .cas else (AtomOp.ofCode code).map .op

/-- The request that an answer for an address answers: the oldest on its connection that no answer kept for its turn names. -/
def State.answered (s : State) (conn addr : Nat) : Nat :=
  let early := ((look s.conns conn).map (·.early)).getD []
  let named (q : Nat) : Bool := early.any fun e => match e.2 with
    | .readAns t _ | .atomAns t _ => t == q
    | _ => false
  ((s.hostAccs.find? fun x => x.sent && !x.write && x.conn == conn && x.req.pa == addr && !named x.seq).map (·.seq)).getD (2 ^ 32)

/-! ### Management bodies (R420) -/

/-- A request's code and body: 64-bit operands in the order of the model's requests, after a word that tells apart what one code
holds several of (log entry 100). Any other code or length is malformed. -/
def mgmtOf (bs : List Byte) : MgmtReq :=
  let x (i : Nat) : Nat := fieldAt bs (4 + 8 * i) 8
  let is (n : Nat) (r : MgmtReq) : Option MgmtReq := if bs.length = 4 + 8 * n then some r else none
  let opt (i : Nat) : Option Nat := if x i = 2 ^ 64 - 1 then none else some (x i)
  let area (i : Nat) : Option (Nat × Nat) := (opt (2 * i)).map fun a => (a, x (2 * i + 1))
  let r : Option MgmtReq := match fieldAt bs 0 4 with
    | 0x01 => is 0 .readStatus
    | 0x02 => is 10 (.placeAreas (area 0) (area 1) (area 2) (area 3) (area 4))
    | 0x03 => match x 0 with
      | 0 => is 3 (.setClim (x 1) (x 2))
      | 1 => is 3 (.setRlim (x 1) (x 2))
      | 2 => is 3 (.setRail (x 1) (x 2))
      | 3 => is 5 (.setPartition (x 1) (x 2) (x 3) (x 4))
      | 4 => if x 2 < 2 then is 3 (.setBoost (x 1) (x 2 == 1)) else none
      | _ => none
    | 0x04 => is 3 (.writeRule (x 0) (bs.drop 12))
    | 0x05 => is 257 (.writePlacement (x 0) (bs.drop 12))
    | 0x06 => is 4 (.setPerf (x 0) (x 1) (x 2) (opt 3))
    | 0x07 => is 1 (.setOrphan (x 0))
    | 0x08 => is 1 (.placeRbase (x 0))
    | 0x09 => is 3 (.invalidate (x 0) (x 1) (x 2))
    | 0x0A => match x 0 with
      | 0 => is 7 (.cpConfig (x 1) (x 2) (x 3) (x 4) (x 5) (x 6))
      | 1 => is 3 (.cpStart (x 1) (x 2))
      | _ => none
    | 0x0B => match x 1 with
      | 0 => is 4 (.preempt (x 0) (.wave (x 2) (x 3)))
      | 1 => if x 3 < 2 then is 4 (.preempt (x 0) (.workgroup (x 2) (x 3 == 1))) else none
      | 2 => is 3 (.preempt (x 0) (.grid (x 2)))
      | _ => none
    | 0x0C => is 3 (.wake (x 0) (x 1) (x 2))
    | 0x0D => match x 0 with
      | 0 => is 4 (.resumeBrk (x 1) (x 2) (x 3))
      | 1 => is 2 (.endGrid (x 1))
      | _ => none
    | 0x0E => is 2 (.assignQueue (x 0) (x 1))
    | 0x0F => match x 0 with
      | 0 => is 3 (.setPtp (x 1) (x 2))
      | 1 => is 2 (.freeRun (BitVec.ofNat 64 (x 1)))
      | 2 => is 1 .leaveFreeRun
      | _ => none
    | 0x10 => is 4 (.attestation (BitVec.ofNat 256 (fieldAt bs 4 32)))
    | 0x11 => is 1 (.mapHostWindow (x 0))
    | _ => none
  r.getD (.malformed (fieldAt bs 0 4))

/-! ### Packets in (R415, R416) -/

/-- What a packet's message is. One that the manual gives the device no effect for takes its turn alone. -/
def State.msgOf (s : State) (p : List Byte) : Msg :=
  let conn := fieldAt p 4 4
  let addr := fieldAt p 0x10 8
  let body := (p.drop 32).take (fieldAt p 0x18 4)
  match fieldAt p 1 1 with
  | 0x01 => .write addr body
  | 0x02 => if body.length = 4 then .read addr (leNat body) else .ack
  | 0x03 => .readAns (s.answered conn addr) body
  | 0x04 => match hostOp (fieldAt p 2 2 / 4096) with
    | some op => .atom addr op body
    | none => .ack
  | 0x05 => .atomAns (s.answered conn addr) body
  | 0x06 => if body.length = 8 then .tail addr (leNat body) else .ack
  | 0x08 => .mgmt (mgmtOf body)
  | 0x0C => .close
  | _ => .ack

/-- An Irsin packet arrives; one that R416 discards does nothing. -/
def State.rxIrsin (s : State) (p : List Byte) : State :=
  if !irsinOk p then s
  else
    let h := irsinHdr p
    (match fieldAt p 1 1 with
      | 0x0A => s.rxAck h
      | 0x0B => s.rxConnect h
      | _ => s.rxMsg h (s.msgOf p)).getD s

/-! ### The PTP slave (R428) -/

/-- The device's port identity, from its MAC address. -/
def ptpIdentity : List Byte :=
  let m := beBytes 6 Config.mac.toNat
  m.take 3 ++ [0xFF#8, 0xFE#8] ++ m.drop 3 ++ beBytes 2 1

/-- A PTP time stamp of 48 bits of seconds and 32 of nanoseconds, and a correction, as a device time. -/
def ptpTime (p : List Byte) (o : Nat) : DWord := BitVec.ofNat 64 ((beAt p o 6 * 10 ^ 9 + beAt p (o + 6) 4) * 65536)
def ptpCorr (p : List Byte) : DWord := BitVec.ofNat 64 (beAt p 8 8)

/-- A delay request of the slave: 34 bytes of header and its time stamp, which is zero. -/
def delayReq (domain seq : Nat) : List Byte :=
  beBytes 1 1 ++ beBytes 1 0x12 ++ beBytes 2 44 ++ beBytes 1 domain ++ List.replicate 15 0 ++ ptpIdentity ++ beBytes 2 seq ++ [1#8, 0x7F#8]
    ++ List.replicate 10 0

/-- The master's time at the sending of a Sync is known: the slave asks for the delay, stamped as it leaves. -/
def State.askDelay (s : State) (t1 : DWord) : State :=
  let q := (s.ptp.reqSeq + 1) % 65536
  ({ s with ptp := { s.ptp with t1 := t1, t3 := some s.dtc, reqSeq := q, two := none } } : State).emit (.ptp (delayReq s.ptpDomain q) s.dtc)

/-- The servo slews toward the master, once it is locked. -/
def State.slew (s : State) (offset : Int) : State :=
  if s.mayServo then { s with dtcPpb := s.servo offset } else s

/-- A PTP message of the device's domain, stamped on its arrival: a Sync of a one-step or of a two-step master, its Follow_Up,
and the answer to the slave's request, from which the offset comes: half of how much later, on the slave's clock, the Sync took
than the request. -/
def State.rxPtp (s : State) (p : List Byte) : State :=
  let q := beAt p 30 2
  if p.length < 44 || beAt p 1 1 % 16 != 2 || beAt p 4 1 != s.ptpDomain || !s.dtcFollow then s
  else match beAt p 0 1 % 16 with
    | 0 =>
      let s : State := { s with ptp := { s.ptp with t2 := s.dtc } }
      if (beAt p 6 1).testBit 1 then { s with ptp := { s.ptp with two := some (q, ptpCorr p) } } else s.askDelay (ptpTime p 34 + ptpCorr p)
    | 8 => match s.ptp.two with
      | some (k, c) => if k = q then s.askDelay (ptpTime p 34 + ptpCorr p + c) else s
      | none => s
    | 9 => match s.ptp.t3 with
      | some t3 =>
        if q = s.ptp.reqSeq && (p.drop 44).take 10 == ptpIdentity then
          let late : DWord := (s.ptp.t2 - s.ptp.t1) - (ptpTime p 34 - ptpCorr p - t3)
          State.slew { s with ptp := { s.ptp with t3 := none } } (-(late.toInt / 2))
        else s
      | none => s
    | _ => s

/-! ### Frames (R415) -/

/-- The UDP port and payload of a frame for the device: to its MAC address or PTP's groups, tagged or not, of at most 9,216
bytes, IPv4 or IPv6, in one piece. Any other is discarded. -/
def State.udpOf (s : State) (fr : List Byte) : Option (Nat × List Byte) :=
  let da := beAt fr 0 6
  let o := if beAt fr 12 2 = 0x8100 then 18 else 14
  let udp (u : Nat) : Option (Nat × List Byte) :=
    let n := beAt fr (u + 4) 2
    if 8 ≤ n && u + n ≤ fr.length then some (beAt fr (u + 2) 2, (fr.drop (u + 8)).take (n - 8)) else none
  if 9216 < fr.length || !(da == Config.mac.toNat || da == 0x01005E000181 || da == 0x333300000181) then none
  else match beAt fr (o - 2) 2 with
    | 0x0800 =>
      let dst := beAt fr (o + 16) 4
      if beAt fr o 1 / 16 = 4 && 5 ≤ beAt fr o 1 % 16 && beAt fr (o + 6) 2 % 16384 = 0 && beAt fr (o + 9) 1 = 17
        && (dst == s.ipv4 || dst == 0xE0000181) then udp (o + beAt fr o 1 % 16 * 4) else none
    | 0x86DD =>
      let dst := beAt fr (o + 24) 16
      if beAt fr o 1 / 16 = 6 && beAt fr (o + 6) 1 = 17 && (dst == s.ipv6 || dst == 0xFF0E0000000000000000000000000181) then udp (o + 40) else none
    | _ => none

/-- The port takes a frame: Irsin on port 0x5A51, PTP on 319 and 320. -/
def State.takeFrame (s : State) (fr : List Byte) : State :=
  if !s.linkUp then s
  else match s.udpOf fr with
    | some (port, p) => if port = 0x5A51 then s.rxIrsin p else if port = 319 || port = 320 then s.rxPtp p else s
    | none => s

end Sys2Proof.Machine
end

