-- ==== Sys2Proof/Machine/Step.lean ====
section
/-! DEFINITION. One step of the part: the next split that the present core cycle chose to issue (a wave's instructions
come before the events of that cycle, R182, R240; log entry 82), else the event the environment has placed next, else the next frame
at the port, else the next cycle of the core whose cycle ends first. -/

namespace Sys2Proof.Machine

def step (s : State) : Host.Outcome State Fault Refusal :=
  let s := { s with free := s.free + 1 }
  match s.issueQ with
  | c :: rest => issueTimed exec { s with issueQ := rest, cur := c }
  | [] =>
    match s.agenda with
    | e :: rest =>
      if isIsa e then .next { s with agenda := rest } else exec e { s with agenda := rest }
    | [] => match s.rx with
      | f :: rest => .next (State.takeFrame { s with rx := rest } f)
      | [] => exec (.coreCycleIssue (nextCore s.cores)) s

/-- s with a bundle whose bits are w where step fetches next (log entry 4). -/
def State.withFetchWord (s : State) (nbits w : Nat) : State :=
  s.place (w % 2 ^ nbits) (partnerOf (decodeTableWord nbits w))

end Sys2Proof.Machine
end

