-- ==== Sys2Proof/Safety.lean ====
section
/-! DEFINITION. The terms the statements use: what a state must be for an instruction to complete, what an instruction
computes in the words of the spec's tables, and what two states have in common. -/

namespace Sys2Proof.Machine

/-! ### What an instruction needs -/

/-- State.cur names a live split with no lookahead window open (R15, R34). -/
abbrev State.quiet (s : State) : Prop := s.live = true ∧ s.sp.windows = []

/-- Vn holds a row already, or one of the wave's g rows is free (R26). -/
abbrev State.rowFree (s : State) (n : Nat) : Prop := s.w.rowed n = true ∨ s.w.rows < s.w.g

/-- Vn and Vn+1 can both hold rows (R26, R98). -/
abbrev State.rowsFree2 (s : State) (n : Nat) : Prop :=
  (s.w.rowed n = true ∧ s.w.rowed (n + 1) = true) ∨ s.w.rows + 2 ≤ s.w.g

/-- `exec i s` answers a next state, of which p holds. -/
def Runs (i : Instr) (s : State) (p : State → Prop) : Prop := ∃ t, exec i s = .next t ∧ p t

/-- Vn of the executing wave. -/
def State.vreg (s : State) (n : Nat) : VReg := s.w.v.getD n .unwritten

/-- A scalar destination takes a value (R96). -/
def State.putD (s : State) (d : Opnd) (x : Word) : State :=
  match d with
  | .s n => s.writeS n.val x
  | .wg n => s.writeWg n.val x
  | _ => s

/-- Every thread t of the mask holds a value of which rel t holds, every other thread what it held (R24, R46). -/
def Written (mask : Mask) (old new : VReg) (rel : Nat → Word → Prop) : Prop :=
  ∀ t < 32, if mask.getLsbD t then rel t (new.at t) else new.at t = old.at t

/-- i writes Vn in the threads of the mask and moves on; with no thread in the mask it only moves on (R24). -/
def WritesV (i : Instr) (s : State) (n : Nat) (mask : Mask) (rel : Nat → Word → Prop) : Prop :=
  if mask = 0 then exec i s = .next s.advance
  else ∃ r, exec i s = .next ((s.putV n r).advance) ∧ Written mask (s.vreg n) r rel

/-! ### What the value instructions compute -/

/-- Guard, destination, the operands read with their slots, and how the operand values of one thread and that thread's
result are related. -/
structure ValueOp where
  g : Guard
  d : Opnd
  srcs : List VReg
  slots : List Opnd
  rel : List Word → Word → Prop

def intLo (ty : IntTy) : Int := match ty with | .i32 => -2147483648 | .n32 => 0
def intHi (ty : IntTy) : Int := match ty with | .i32 => 2147483647 | .n32 => 4294967295

/-- The exact result wraps, or is clamped to its type under .satf (R77, R103). -/
def Narrowed (satf : Bool) (ty : IntTy) (v : Int) (r : Word) : Prop :=
  r = BitVec.ofInt 32 (if satf then max (intLo ty) (min v (intHi ty)) else v)

def bitAt (x : Word) (i : Nat) : Nat := (x.getLsbD i).toNat

/-- A byte of a register read as signed or unsigned (R105). -/
def byteVal (uns : Bool) (x : Word) (i : Nat) : Int :=
  if uns then ((x.extractLsb' (8 * i) 8).toNat : Int) else (x.extractLsb' (8 * i) 8).toInt

/-- The operations of R103 to R108 and R111, one destination each. -/
def intOp (s : State) (i : Instr) : Option ValueOp :=
  let two (o : Op2) (zext : Bool) (rel : Word → Word → Word → Prop) : Option ValueOp :=
    some ⟨o.g, o.d, [s.src o.a, s.srcB o.b zext], [o.a, slotB o.b], fun xs r => rel (xs.getD 0 0) (xs.getD 1 0) r⟩
  let one (o : Op1) (rel : Word → Word → Prop) : Option ValueOp :=
    some ⟨o.g, o.d, [s.src o.a], [o.a], fun xs r => rel (xs.getD 0 0) r⟩
  let three (o : Op3) (rel : Word → Word → Word → Word → Prop) : Option ValueOp :=
    some ⟨o.g, o.d, [s.src o.a, s.src o.b, s.src o.c], [o.a, o.b, o.c],
      fun xs r => rel (xs.getD 0 0) (xs.getD 1 0) (xs.getD 2 0) r⟩
  match i with
  | .add o ty => two o false fun a b => Narrowed s.satf ty (IntVal ty a + IntVal ty b)
  | .sub o ty => two o false fun a b => Narrowed s.satf ty (IntVal ty a - IntVal ty b)
  | .mulLo o ty => two o false fun a b => Narrowed s.satf ty (IntVal ty a * IntVal ty b)
  | .mulHi o ty => two o false fun a b r => r = BitVec.ofInt 32 (IntVal ty a * IntVal ty b / 2 ^ 32)
  | .mad o ty => three o fun a b c => Narrowed s.satf ty (IntVal ty a * IntVal ty b + IntVal ty c)
  | .min o ty => two o false fun a b r => IntVal ty r = Min.min (IntVal ty a) (IntVal ty b)
  | .max o ty => two o false fun a b r => IntVal ty r = Max.max (IntVal ty a) (IntVal ty b)
  | .abs o => one o fun a r => r = BitVec.ofInt 32 (if s.satf then Min.min (a.toInt.natAbs : Int) 2147483647 else a.toInt.natAbs)
  | .and o => two o false fun a b r => r = a &&& b
  | .or o => two o false fun a b r => r = a ||| b
  | .xor o => two o false fun a b r => r = a ^^^ b
  | .lop3 o tbl => three o fun a b c r =>
      ∀ k < 32, r.getLsbD k = tbl.getLsbD (bitAt a k + 2 * bitAt b k + 4 * bitAt c k)
  | .shl o => two o false fun a b r => r.toNat = a.toNat * 2 ^ (b.toNat % 32) % 2 ^ 32
  | .shr o => two o false fun a b r => r.toNat = a.toNat / 2 ^ (b.toNat % 32)
  | .sar o => two o false fun a b r => r.toInt = a.toInt / 2 ^ (b.toNat % 32)
  | .rot o => two o false fun a b r => r = (a <<< (b.toNat % 32)) ||| (a >>> (32 - b.toNat % 32))
  | .bfe o sx => two o true fun a b r =>
      let pos := b.toNat % 32
      let w := Min.min (b.toNat / 32 % 64) 32
      ∀ k < 32, r.getLsbD k =
        (if k < w then a.getLsbD (pos + k) else sx && decide (0 < w) && a.getLsbD (pos + (w - 1)))
  | .bfi o => some ⟨o.g, o.d, [s.src o.d, s.src o.a, s.srcB o.b true], [o.d, o.a, slotB o.b], fun xs r =>
      let pos := (xs.getD 2 0).toNat % 32
      let w := Min.min ((xs.getD 2 0).toNat / 32 % 64) 32
      ∀ k < 32, r.getLsbD k =
        (if pos ≤ k ∧ k < pos + w then (xs.getD 1 0).getLsbD (k - pos) else (xs.getD 0 0).getLsbD k)⟩
  | .popc o => one o fun a r => r.toNat = ((List.range 32).map (bitAt a)).sum
  | .clz o => one o fun a r =>
      (a = 0 ∧ r = 32) ∨ (r.toNat < 32 ∧ a.getLsbD (31 - r.toNat) = true ∧ ∀ k, 31 - r.toNat < k → a.getLsbD k = false)
  | .brev o => one o fun a r => ∀ k < 32, r.getLsbD k = a.getLsbD (31 - k)
  | .mov o => one o fun a r => r = a
  | .movi g d v => some ⟨g, d, [.uni (s.imm v false)], [.null], fun xs r => r = xs.getD 0 0⟩
  | .dp4 o ua ub => three o fun a b c =>
      Narrowed s.satf .i32 (c.toInt + ((List.range 4).map fun k => byteVal ua a k * byteVal ub b k).sum)
  | _ => none

/-- A 64-bit result in a register pair: the operand pairs and the function of their values in one thread (R109). -/
structure WideOp where
  g : Guard
  d : Opnd
  srcs : List (VReg × VReg)
  f : List DWord → DWord

def wideOp (s : State) (i : Instr) : Option WideOp :=
  match i with
  | .addW o => some ⟨o.g, o.d, [s.src64 o.a, s.srcB64 o.b], fun xs => xs.getD 0 0 + xs.getD 1 0⟩
  | .lea o sh z => some ⟨o.g, o.d, [s.src64 o.a, (s.srcB o.b false, .uni 0)], fun xs =>
      let b : Word := (xs.getD 1 0).extractLsb' 0 32
      BitVec.ofInt 64 ((xs.getD 0 0).toNat + (if z then (b.toNat : Int) else b.toInt) * 2 ^ sh.val)⟩
  | _ => none

/-- The value of a pair in one thread, the low word in the first register (R76). -/
def pairAt (p : VReg × VReg) (t : Nat) : DWord := p.2.at t ++ p.1.at t

/-- A result in a predicate: the test of each thread and how it is combined with the old value (R110). -/
structure PredOp where
  g : Guard
  d : Opnd
  comb : Comb
  test : Nat → Bool

def condHolds (c : Cond) (x y : Int) : Bool :=
  match c with
  | .eq => decide (x = y) | .ne => decide (x ≠ y) | .lt => decide (x < y)
  | .le => decide (x ≤ y) | .gt => decide (x > y) | .ge => decide (x ≥ y)

def predOp (s : State) (i : Instr) : Option PredOp :=
  match i with
  | .cmp o c ty k => some ⟨o.g, o.d, k, fun t => condHolds c (IntVal ty ((s.src o.a).at t)) (IntVal ty ((s.src o.b).at t))⟩
  | .fcmp o c u k => some ⟨o.g, o.d, k, fun t =>
      fcondTest c u (fin32 (Mods.of s.pm .rne) ((s.src o.a).at t)) (fin32 (Mods.of s.pm .rne) ((s.src o.b).at t))⟩
  | .fclass o m => some ⟨o.g, o.d, .set, fun t => m.getLsbD (fclassBit ((s.src o.a).at t))⟩
  | .plop o tbl => some ⟨o.g, o.d, .set, fun t =>
      tbl.getLsbD (bitAt (s.pOf o.a) t + 2 * bitAt (s.pOf o.b) t + 4 * bitAt (s.pOf o.c) t)⟩
  | _ => none

def combineBit (k : Comb) (old r : Bool) : Bool :=
  match k with
  | .set => r | .and => old && r | .or => old || r

/-- An instruction that may round stochastically: k elements of each thread are rounded, each with its draw (R86). -/
structure RoundOp where
  g : Guard
  d : Opnd
  srcs : List VReg
  slots : List Opnd
  rs : Bool
  k : Nat
  f : List Nat → List Word → Word

/-- The rounding instructions of groups 0x1 and 0x2 (R113 to R124). -/
def roundOp (s : State) (i : Instr) : Option RoundOp :=
  let md := Mods.of s.pm .rne
  let rs := decide (md.rnd = .rs)
  let one (o : Op1) (f : Nat → Word → Word) : Option RoundOp :=
    some ⟨o.g, o.d, [s.src o.a], [o.a], rs, 1, fun us xs => f (us.getD 0 0) (xs.getD 0 0)⟩
  let two (o : Op2) (f : Nat → Word → Word → Word) : Option RoundOp :=
    some ⟨o.g, o.d, [s.src o.a, s.srcB o.b false], [o.a, slotB o.b], rs, 1, fun us xs => f (us.getD 0 0) (xs.getD 0 0) (xs.getD 1 0)⟩
  let el (bf : Bool) (x : Word) (j : Nat) : FV := decodeIn (hfmt bf) md (x.extractLsb' (16 * j) 16).toNat
  let halves (bf : Bool) (us : List Nat) (x : Nat → XV) : Word :=
    BitVec.ofNat 16 (roundTo (hfmt bf) md (us.getD 1 0) (x 1)) ++ BitVec.ofNat 16 (roundTo (hfmt bf) md (us.getD 0 0) (x 0))
  let rdn := decide (md.rnd = .rdn)
  match i with
  | .fadd o => two o fun u a b => w32 (roundTo f32 md u (xadd rdn (fin32 md a) (fin32 md b)).toX)
  | .fsub o => two o fun u a b => w32 (roundTo f32 md u (xadd rdn (fin32 md a) (fin32 md b).neg).toX)
  | .fmul o => two o fun u a b => w32 (roundTo f32 md u (xmul (fin32 md a) (fin32 md b)).toX)
  | .ffma o => some ⟨o.g, o.d, [s.src o.a, s.src o.b, s.src o.c], [o.a, o.b, o.c], rs, 1, fun us xs =>
      w32 (roundTo f32 md (us.getD 0 0)
        (xadd rdn (xmul (fin32 md (xs.getD 0 0)) (fin32 md (xs.getD 1 0))) (fin32 md (xs.getD 2 0))).toX)⟩
  | .fmin o nan => two o fun _ a b => fopMinMax false nan md a b
  | .fmax o nan => two o fun _ a b => fopMinMax true nan md a b
  | .fdiv o => two ⟨o.g, o.d, o.a, .reg o.b⟩ fun u a b => w32 (roundTo f32 md u (xdiv (fin32 md a) (fin32 md b)))
  | .frnd o => one o fun u a => fopRnd md u a
  | .ffrac o => one o fun _ a => fopFrac md a
  | .frcp o => one o fun _ a => fopRcp md a
  | .frsq o => one o fun _ a => fopRsq md a
  | .fsqrt o => one o fun u a => w32 (roundTo f32 md u (xsqrt (fin32 md a)))
  | .fexp2 o => one o fun _ a => fopExp2 md a
  | .flog2 o => one o fun _ a => fopLog2 md a
  | .fsin o => one o fun _ a => fopSin md a
  | .fcos o => one o fun _ a => fopCos md a
  | .ftanh o => one o fun _ a => fopTanh md a
  | .hadd2 o bf => some ⟨o.g, o.d, [s.srcH bf o.a, s.srcH bf o.b], [o.a, o.b], rs, 2, fun us xs =>
      halves bf us fun j => (xadd rdn (el bf (xs.getD 0 0) j) (el bf (xs.getD 1 0) j)).toX⟩
  | .hmul2 o bf => some ⟨o.g, o.d, [s.srcH bf o.a, s.srcH bf o.b], [o.a, o.b], rs, 2, fun us xs =>
      halves bf us fun j => (xmul (el bf (xs.getD 0 0) j) (el bf (xs.getD 1 0) j)).toX⟩
  | .hfma2 o bf => some ⟨o.g, o.d, [s.srcH bf o.a, s.srcH bf o.b, s.srcH bf o.c], [o.a, o.b, o.c], rs, 2, fun us xs =>
      halves bf us fun j => (xadd rdn (xmul (el bf (xs.getD 0 0) j) (el bf (xs.getD 1 0) j)) (el bf (xs.getD 2 0) j)).toX⟩
  | .fdot2 o bf => some ⟨o.g, o.d, [s.srcH bf o.a, s.srcH bf o.b, s.src o.c], [o.a, o.b, o.c], rs, 1, fun us xs =>
      let p (j : Nat) := xmul (el bf (xs.getD 0 0) j) (el bf (xs.getD 1 0) j)
      w32 (roundTo f32 md (us.getD 0 0) (xadd rdn (xadd rdn (p 0) (p 1)) (fin32 md (xs.getD 2 0))).toX)⟩
  | .cvt o dst src => some ⟨o.g, o.d, [s.src o.a], [o.a], s.rsOn, 1, fun us xs => fopCvt dst src s.pm (us.getD 0 0) (xs.getD 0 0)⟩
  | .pack2 o ty => some ⟨o.g, o.d, [s.src o.a, s.src o.b], [o.a, o.b], s.rsOn, 2, fun us xs =>
      BitVec.ofNat 16 (pack2El ty s.pm (us.getD 1 0) (xs.getD 1 0)) ++ BitVec.ofNat 16 (pack2El ty s.pm (us.getD 0 0) (xs.getD 0 0))⟩
  | .pack4 o ty => some ⟨o.g, o.d, [s.src o.a, s.src o.b, s.src o.c, s.src o.d], [o.a, o.b, o.c, o.d], s.rsOn, 4, fun us xs =>
      let e (j : Nat) : BitVec 8 := BitVec.ofNat 8 (pack4El ty s.pm (us.getD j 0) (xs.getD j 0))
      e 3 ++ e 2 ++ e 1 ++ e 0⟩
  | .unpack o ty e => some ⟨o.g, o.d, [s.srcU ty o.a], [o.a], false, 0, fun _ xs => fopUnpack ty e.val (xs.getD 0 0)⟩
  | .dqblk o => some ⟨o.g, o.d, [s.src o.a], [o.a], false, 0, fun _ xs =>
      w32 (roundTo f32 ⟨.rne, if s.satf then .satf else .none, false⟩ 0
        (e2m1xFull ((xs.getD 0 0).extractLsb' 0 4).toNat ((xs.getD 0 0).extractLsb' 16 16).toNat).toX)⟩
  | .i4g o h => some ⟨o.g, o.d, [s.src o.a, s.src o.b], [o.a, o.b], false, 0, fun _ xs =>
      bfToF32 (i4gWeight ((xs.getD 0 0).extractLsb' (4 * h.val) 4).toNat (xs.getD 1 0).toNat)⟩
  | _ => none

/-- SR_SEED after n draws (R86). -/
def seedAfter : Nat → Word → Word
  | 0, x => x
  | n + 1, x => seedAfter n (lfsr x)

/-- The k draws that follow a seed, in order. -/
def drawsFrom (k : Nat) (x : Word) : List Nat := (List.range k).map fun j => ((seedAfter (j + 1) x).extractLsb' 16 16).toNat

/-- How many threads below t are in a mask. -/
def below (m : Mask) (t : Nat) : Nat := ((List.range t).filter fun j => m.getLsbD j).length

/-- SR_SEED of the executing wave set. -/
def State.setSeed (s : State) (x : Word) : State := s.modW fun w => { w with seed := x }

/-- The pairwise tree over 2^n positions: the left half combined with the right half (R131). -/
def treeOf (f : Word → Word → Word) : Nat → (Nat → Word) → Word
  | 0, x => x 0
  | n + 1, x => f (treeOf f n x) (treeOf f n fun j => x (j + 2 ^ n))

/-- The prefix network: the distances, the last first (R131). -/
def networkOf (f : Word → Word → Word) : List Nat → (Nat → Word) → Nat → Word
  | [], x, t => x t
  | d :: ds, x, t => if d ≤ t then f (networkOf f ds x (t - d)) (networkOf f ds x t) else networkOf f ds x t

/-- The destination of a value instruction and how many registers from it are written; none for any other (R96, R98,
R110, R129 to R133). -/
def valueDst (s : State) (i : Instr) : Option (Opnd × Nat) :=
  match i with
  | .sel o => some (o.d, 1)
  | .qblk o _ | .vote o _ | .redux o _ | .scan o _ _ | .tagof o => some (o.d, 1)
  | .shfl o _ _ => some (o.d, 1)
  | .rdlane o | .mkaff o => some (o.d, 1)
  | .movs _ d r => some (d, if r.wide then 2 else 1)
  | i =>
    ((intOp s i).map fun o => (o.d, 1)).or (((roundOp s i).map fun o => (o.d, 1)).or
      (((wideOp s i).map fun o => (o.d, 2)).or ((predOp s i).map fun o => (o.d, 1))))

/-- From s to t nothing changed but, in the executing wave, what a value instruction with destination d, of w registers,
may write: those registers, the split's PC, and SR_SEED where it rounds stochastically (R24, R96, R100). -/
def OnlyValue (s t : State) (d : Opnd) (w : Nat) : Prop :=
  let named (o : Opnd) : Prop := ∃ j < w, Opnd.plus d j = o
  t.mem = s.mem ∧ t.ring = s.ring ∧ t.out = s.out ∧ t.clusters = s.clusters ∧ t.slices = s.slices ∧ t.grids = s.grids ∧ t.dtc = s.dtc ∧
    (∀ core ctx, (core, ctx) ≠ (s.cur.core, s.cur.ctx) → t.wave? core ctx = s.wave? core ctx) ∧
    (∀ k, { t.core k with waves := [] } = { s.core k with waves := [] }) ∧
    (∀ n < 128, (∀ h, ¬ named (.v ⟨n, h⟩)) → t.vreg n = s.vreg n) ∧
    (∀ n < 8, (∀ h, ¬ named (.p ⟨n, h⟩)) → t.w.p.getD n 0 = s.w.p.getD n 0) ∧
    (∀ n < 64, (∀ h, ¬ named (.s ⟨n, h⟩)) → t.sp.s.getD n 0 = s.sp.s.getD n 0) ∧
    (∀ j, j ≠ s.cur.split → t.w.split? j = s.w.split? j) ∧ t.sp.pc = s.sp.pc + 8 ∧ t.sp.mask = s.sp.mask ∧ t.sp.status = s.sp.status ∧
    t.sp.depth = s.sp.depth ∧ t.w.deferred = s.w.deferred ∧ t.w.hint = s.w.hint ∧ t.w.exited = s.w.exited ∧ t.w.accs = s.w.accs ∧
    t.w.lwt = s.w.lwt ∧ t.w.mflags = s.w.mflags ∧ t.w.uconf = s.w.uconf ∧ t.w.trapReg = s.w.trapReg ∧ t.w.handler = s.w.handler ∧
    t.w.streams = s.w.streams ∧ t.w.snd = s.w.snd ∧ ((Mods.of s.pm .rne).rnd ≠ .rs → s.rsOn = false → t.w.seed = s.w.seed) ∧
    (∀ j, j ≠ s.w.wg → look t.wgs j = look s.wgs j) ∧
    (∀ n < 16, (∀ h, ¬ named (.wg ⟨n, h⟩)) → t.g.wgr.getD n 0 = s.g.wgr.getD n 0) ∧
    t.g.a = s.g.a ∧ t.g.w = s.g.w ∧ t.g.c = s.g.c ∧ t.g.bars = s.g.bars ∧ t.g.ta = s.g.ta ∧ t.g.tw = s.g.tw ∧ t.g.tc = s.g.tc

/-- From s to t an instruction ran to its end without a trap: its split stands at pc with the threads it had, no handler was
entered or left, no grid was stopped, and no byte of memory changed. -/
def EndsAt (s t : State) (pc : DWord) : Prop :=
  t.sp.pc = pc ∧ t.sp.status = s.sp.status ∧ t.sp.mask = s.sp.mask ∧ t.w.handler = s.w.handler ∧ t.w.trapReg = s.w.trapReg ∧
    t.grids = s.grids ∧ t.mem = s.mem ∧ t.ring = s.ring

/-- What an issue adds to a wave and to a workgroup beside its instruction's own effect: the moment until which a load is due to
other splits (R128), and the order of writes of workgroup registers that end together (R334). -/
def Wave.untimed (w : Wave) : Wave :=
  { w with splits := w.splits.map fun p => { p with windows := p.windows.map fun x => { x with till := 0 } } }
def WGrp.untimed (g : WGrp) : WGrp := { g with wgr := [], wgPrev := [] }

/-- From t, as instructions leave it, to t' a step added only its core's bookkeeping (R29, R31, R235, R255). -/
def Timed (is : List Instr) (t t' : State) : Prop :=
  t'.mem = t.mem ∧ t'.ring = t.ring ∧ t'.grids = t.grids ∧ t'.clusters = t.clusters ∧ t'.slices = t.slices ∧ t'.out = t.out ∧ t'.asks = t.asks ∧
    t'.cur = t.cur ∧ t'.issueQ = t.issueQ ∧ t'.agenda = t.agenda ∧ t'.free = t.free ∧
    (∀ core ctx, (t'.wave? core ctx).map Wave.untimed = (t.wave? core ctx).map Wave.untimed) ∧
    (t'.wgs.map fun x => (x.1, x.2.untimed)) = (t.wgs.map fun x => (x.1, x.2.untimed)) ∧
    ((∀ i ∈ is, ∀ n, Opnd.wg n ∉ destsOf i) → t'.wgs = t.wgs)

/-! ### Control transfers -/

/-- The executing split's windows closed, all their results delivered (R35). -/
def State.closed (s : State) : State := s.modSp fun p => { p with windows := [] }

/-- A target that a taken transfer accepts: an aligned address whose bundle can be fetched and has E = 1 (R138). -/
abbrev Lands (s : State) (dest : DWord) (x : DWord) : Prop :=
  dest.toNat % 8 = 0 ∧ s.fetch s.cur.core s.w.grid dest = .ok x ∧ x.getLsbD 61 = true

/-- i is a transfer taken to dest (R138 to R141, R147, R151). -/
def Transfers (i : Instr) (s : State) (dest : DWord) : Prop :=
  match i with
  | .br g a disp =>
    (a = .null ∨ ((s.src a).isUni = true ∧ (s.src a).at 0 ≠ 0)) ∧ s.guardMask g ≠ 0 ∧ s.guardMask g = s.sp.mask ∧
      dest = s.closed.dispTo disp
  | .brD g _ disp => s.w.handler = none ∧ s.guardMask g ≠ 0 ∧ dest = s.closed.dispTo disp
  | .jmp t => dest = s.closed.targetOf t
  | .call _ t => dest = s.closed.targetOf t
  | .ret a => dest = s.closed.sp.pair a.val
  | .loop d disp => s.readS d.val ≠ 1 ∧ dest = s.closed.dispTo disp
  | _ => False

/-- The budget check of an fhdr at a called target (R147 to R149). -/
abbrev BudgetOk (s : State) (x : DWord) : Prop :=
  ∀ n g, fhdrOf x = some (n, g) → 1 ≤ n ∧ n ≤ 128 ∧ g ≤ n ∧ n ≤ s.w.n ∧ g ≤ s.w.g

/-! ### Halves (R52) -/

/-- The half of an instruction, whether it is a float half, and its value from the old D and S with a draw. -/
def halfSpec (md : Mods) (i : Instr) : Option (Half × Bool × (Nat → Word → Word → Word)) :=
  match i with
  | .halfAdd h => some (h, false, fun _ a b => a + b)
  | .halfSub h => some (h, false, fun _ a b => a - b)
  | .halfAnd h => some (h, false, fun _ a b => a &&& b)
  | .halfOr h => some (h, false, fun _ a b => a ||| b)
  | .halfXor h => some (h, false, fun _ a b => a ^^^ b)
  | .halfShl h => some (h, false, fun _ a b => a <<< (b.toNat % 32))
  | .halfShr h => some (h, false, fun _ a b => a >>> (b.toNat % 32))
  | .halfSar h => some (h, false, fun _ a b => a.sshiftRight (b.toNat % 32))
  | .halfMin h => some (h, false, fun _ a b => BitVec.ofInt 32 (Min.min a.toInt b.toInt))
  | .halfMax h => some (h, false, fun _ a b => BitVec.ofInt 32 (Max.max a.toInt b.toInt))
  | .halfMov h => some (h, false, fun _ _ b => b)
  | .halfFadd h => some (h, true, fun u a b => w32 (roundTo f32 md u (xadd (decide (md.rnd = .rdn)) (fin32 md a) (fin32 md b)).toX))
  | .halfFsub h => some (h, true, fun u a b => w32 (roundTo f32 md u (xadd (decide (md.rnd = .rdn)) (fin32 md a) (fin32 md b).neg).toX))
  | .halfFmul h => some (h, true, fun u a b => w32 (roundTo f32 md u (xmul (fin32 md a) (fin32 md b)).toX))
  | .halfFmin h => some (h, true, fun _ a b => fopMinMax false false md a b)
  | .halfFmax h => some (h, true, fun _ a b => fopMinMax true false md a b)
  | _ => none

/-! ### Local memory (R156 to R174) -/

/-- The invariants of the executing wave and workgroup that its registers and buffers rest on: the sizes of the
register files, the workgroup exists, and its buffers are in canonical form. -/
def State.sound (s : State) : Prop :=
  s.w.v.length = 128 ∧ s.w.p.length = 7 ∧ s.sp.s.length = 64 ∧ s.g.wgr.length = 16 ∧
    (∃ g, look s.wgs s.w.wg = some g) ∧ Mem.wf s.g.a = true ∧ Mem.wf s.g.w = true ∧ Mem.wf s.g.c = true

/-- base + index + off × size of one thread, mod 2³² (R167). -/
def State.localAddr (s : State) (o : LocalOp) (t : Nat) : Nat :=
  ((s.src o.a).at t + (s.src o.b).at t + o.off.signExtend 32 * BitVec.ofNat 32 o.size.bytes).toNat

/-- Every thread of a mask has an aligned address inside `limit` bytes (R169). -/
abbrev AddrsOk (m : Mask) (addr : Nat → Nat) (bytes limit : Nat) : Prop :=
  ∀ t < 32, m.getLsbD t = true → addr t % bytes = 0 ∧ addr t + bytes ≤ limit

/-- Rows for w registers from Vn (R26). -/
abbrev State.rowsFor (s : State) (n w : Nat) : Prop := (∀ j < w, s.w.rowed (n + j) = true) ∨ s.w.rows + w ≤ s.w.g

/-- Register j of a loaded element, from its bytes (R76, R168). -/
def loadedWord (z : Size) (sx : Bool) (bs : List Byte) (j : Nat) : Word :=
  match z with
  | .b8 => if sx then (BitVec.ofNat 8 (leNat bs)).signExtend 32 else BitVec.ofNat 32 (leNat bs)
  | .b16 => if sx then (BitVec.ofNat 16 (leNat bs)).signExtend 32 else BitVec.ofNat 32 (leNat bs)
  | _ => BitVec.ofNat 32 (leNat ((bs.drop (4 * j)).take 4))

/-- After a store of each thread's bytes, thread by thread upward: what address a holds (R170). -/
def storedByte (m : Mask) (addr : Nat → Nat) (bytes : Nat → List Byte) (old : Byte) (a : Nat) : Byte :=
  (List.range 32).foldl (fun b t =>
    if m.getLsbD t ∧ addr t ≤ a ∧ a < addr t + (bytes t).length then (bytes t).getD (a - addr t) 0 else b) old

/-- Everything of the machine but cores, workgroups and its own clock is as it was. -/
def SameOutside (s t : State) : Prop :=
  t.mem = s.mem ∧ t.ring = s.ring ∧ t.out = s.out ∧ t.clusters = s.clusters ∧ t.slices = s.slices ∧
    t.grids = s.grids ∧ t.chains = s.chains ∧ t.streams = s.streams ∧ t.cps = s.cps ∧ t.rails = s.rails ∧ t.dtc = s.dtc

/-! ### Barriers and streams -/

/-- The parity a bexp names (R182). -/
def Bar.named (b : Bar) (nx : Bool) : Bool := if nx then !b.ph else b.ph

/-- What Flip() makes of a barrier: the other parity, no arrivals, the completed phase's LWT kept in LWTC (R182). -/
def Flips (b b' : Bar) : Prop :=
  b'.ph = !b.ph ∧ b'.arr = 0 ∧ b'.exp = b.exp ∧ b'.seen b.ph = false ∧ b'.seen (!b.ph) = b.seen (!b.ph) ∧
    b'.lwt b.ph = 0 ∧ b'.lwtc b.ph = b.lwt b.ph ∧ b'.lwt (!b.ph) = b.lwt (!b.ph) ∧ b'.lwtc (!b.ph) = b.lwtc (!b.ph) ∧
    b'.cnt b.ph = b.cnt b.ph ∧ b'.cnt (!b.ph) = b.cnt (!b.ph) ∧ b'.err = b.err ∧ b'.bind = b.bind

/-- The queue of a stream holds at a moment an entry for element i that strq can take (R200, R201). -/
def Strm.ready (x : Strm) (tu i : Nat) : Prop := ∃ e, look x.q i = some e ∧ e.stale = false ∧ e.back ≤ tu

/-- The entry that strq takes for element i (R200, R201). -/
def Strm.entry (x : Strm) (i : Nat) : StrEntry := (look x.q i).getD ⟨[], none, 0, false, 0⟩

/-! ### Global memory -/

/-- LPDDR 6 and the strip ring are in canonical form. -/
abbrev State.memOk (s : State) : Prop := Mem.wf s.mem = true ∧ Mem.wf s.ring = true

/-- From s to t an access with an identifier was sent: the youngest of its wave, counted on its path, with these elements
(thread, address, bytes); no register and no byte of memory changed. -/
def IssuedAs (id : Nat) (s t : State) (p : Path) (op : ElemOp) (l : List (Nat × DWord × List Byte)) : Prop :=
  t.mem = s.mem ∧ t.ring = s.ring ∧ t.wgs = s.wgs ∧ t.w.v = s.w.v ∧ t.w.p = s.w.p ∧ t.sp.s = s.sp.s ∧
    t.w.count p = s.w.count p + 1 ∧ ∃ a, t.w.accs.getLast? = some a ∧ a.id = id ∧ a.path = p ∧ a.op = op ∧
      a.elems.map (fun e => (e.t, e.va, e.data)) = l

/-- The same, with the wave's next identifier. -/
abbrev Issued (s t : State) (p : Path) (op : ElemOp) (l : List (Nat × DWord × List Byte)) : Prop :=
  IssuedAs s.w.nextAcc s t p op l

/-- A slice's queue after one request has left it: the others in their order, changed at most in when each came to the head of
its source (R309). -/
def QLeft (q q' : List Req) (pos : Nat) : Prop :=
  (q'.map fun y => { y with head := 0 }) = (q.eraseIdx pos).map fun y => { y with head := 0 }

/-- Physical bytes after n bytes were written at an address. -/
def Stored (s t : State) (pa : Nat) (bs : List Byte) : Prop :=
  ∀ x, t.phys x = if pa ≤ x ∧ x < pa + bs.length then bs.getD (x - pa) 0 else s.phys x

/-- A valid queue header at a physical address for slots of a size (R322): the capacity's logarithm and the size code in byte 12,
zeros above them, and room for the slots in its page. -/
def State.queueAt (s : State) (pa code size lg room : Nat) : Prop :=
  lg < 16 ∧ (s.phys (pa + 12)).toNat = lg + 16 * code ∧ (∀ i, 13 ≤ i → i < 128 → s.phys (pa + i) = 0) ∧ 128 + 2 ^ lg * size ≤ room

/-- Physical bytes after a slot was written and the tail of the queue at an address raised. -/
def Pushed (s t : State) (q slot tail : Nat) (bs : List Byte) : Prop :=
  ∀ x, t.phys x = if slot ≤ x ∧ x < slot + bs.length then bs.getD (x - slot) 0
    else if q + 4 ≤ x ∧ x < q + 8 then (leBytes 4 ((tail + 1) % 2 ^ 32)).getD (x - (q + 4)) 0 else s.phys x

/-- The element a request names is done, with what it returns. -/
def Answered (t : State) (r : Req) (ok err : Bool) (ret : List Byte) : Prop :=
  ∃ e, t.elem? r = some e ∧ e.done = true ∧ e.ok = ok ∧ e.err = err ∧ e.ret = ret

/-! ### The matrix array -/

/-- From s to t an instruction entered the array's queue: the youngest entry, counted or not; its wave moved on and no
register and no byte changed. -/
def Queued (s t : State) (counted : Bool) (p : MEntry → Prop) : Prop :=
  ∃ e, (t.core s.cur.core).mq = (s.core s.cur.core).mq ++ [e] ∧ e.ctx = s.cur.ctx ∧ e.wg = s.w.wg ∧ e.pc = s.sp.pc ∧
    e.started = false ∧ p e ∧ t.w.count .m = s.w.count .m + counted.toNat ∧ t.sp.pc = s.sp.pc + 8 ∧ t.w.v = s.w.v ∧ t.w.p = s.w.p ∧
    t.sp.s = s.sp.s ∧ t.mem = s.mem ∧ ∀ sp, t.g.buf sp = s.g.buf sp

/-- The array's queue and the wave's share have room (R205). -/
abbrev State.arrayRoom (s : State) : Prop :=
  ((s.core s.cur.core).mq.filter fun x => !x.started).length < 32 ∧ s.w.count .m < 8

/-- The scale identifiers of a format block name bindings of the kind the operand needs (R215). -/
def State.scaleOk (s : State) (fb : DWord) : Prop :=
  (fbSidA fb ≠ 255 → ∃ x, look s.g.scl (fbSidA fb) = some x ∧ x.desc.getLsbD 18 = false) ∧
    (fbSidB fb ≠ 255 → ∃ x, look s.g.scl (fbSidB fb) = some x ∧ x.desc.getLsbD 18 = fbPro fb)

/-- A signed byte at an address of a buffer, and element (k, j) of B stored in eight planes (R211, R212). -/
def State.byteAt (s : State) (wg : Nat) (sp : Space) (a : Nat) : Byte := Mem.get ((s.wg wg).buf sp) a
def State.planeInt8 (s : State) (wg b k j : Nat) : Int :=
  let bit (q : Nat) : Int := if (s.byteAt wg .w (b + (k / 16 * 8 + q) * 32 + 2 * j + k % 16 / 8)).getLsbD (k % 8) then 1 else 0
  ((List.range 7).map fun q => bit q * 2 ^ q).sum - bit 7 * 128

/-- The value of a stored code of bf16, f16, e4m3 or e5m2 (R209). -/
def floatOf (fmt code : Nat) : FV :=
  match fmt with
  | 0 => decode bf16 code
  | 1 => decode f16 code
  | 2 => decode e4m3 code
  | _ => decode e5m2 code

/-- Bit i of a run of bytes of the W-buffer. -/
def State.bitW (s : State) (wg a i : Nat) : Nat := bitAt ((s.byteAt wg .w (a + i / 8)).setWidth 32) (i % 8)

/-- A[i][k] of n bytes as stored row by row (R211), and B[k][j] as stored in planes (R212). -/
def State.rowCode (s : State) (wg a n len i k : Nat) : Nat := leNat ((List.range n).map fun x => s.byteAt wg .a (a + (i * len + k) * n + x))
def State.planeCode (s : State) (wg b planes k j : Nat) : Nat :=
  ((List.range planes).map fun q => s.bitW wg (b + (k / 16 * planes + q) * 32) (16 * j + k % 16) * 2 ^ q).sum

/-- B[k][j] of a compressed k-step, none where it is not kept (R214). -/
def State.keptCode (s : State) (wg b planes n k j : Nat) : Option Nat :=
  let block := b + k / 16 * (32 + (planes * 2 * n + 31) / 32 * 32)
  let mark (x : Nat) : Bool := decide (s.bitW wg block (16 * j + x) = 1)
  let rank := ((List.range (k % 16)).filter mark).length
  if mark (k % 16) && decide (rank < n) then
    some ((List.range planes).map fun q => s.bitW wg (block + 32 + q * (2 * n)) (n * j + rank) * 2 ^ q).sum
  else none

/-- FA24 after a k-step's products in ascending k, and the tile's element with FA24 added (R94). -/
def stepSum (pr : Nat → FV) (fa step : Nat) : Nat := (List.range 16).foldl (fun fa k => fa24Add fa (pr (16 * step + k))) fa
def promoted (c fa : Nat) : Nat := roundTo f32 Mods.plain 0 (xadd false (decode f32 c) (decode fa24 fa)).toX

/-- FA24 and the tile's element after n k-steps of `steps`, promoted after every p and after the last (R94). -/
def floatSum (p steps : Nat) (pr : Nat → FV) (c : Nat) : Nat → Nat × Nat
  | 0 => (0, c)
  | n + 1 =>
    let x := floatSum p steps pr c n
    let fa := stepSum pr x.1 n
    if (n + 1) % p = 0 ∨ n + 1 = steps then (0, promoted x.2 fa) else (fa, x.2)

/-- A signed byte of a code. -/
def int8 (code : Nat) : Int := if code < 128 then code else (code : Int) - 256

/-- The stored code of an f32 value in a format of the epilogue (R230, R78, R82). -/
def epiStored (f : EpiFmt) (y : Nat) : Nat :=
  let v := decode f32 y
  match f with
  | .f32 => y
  | .f16 => toFmt f16 Mods.plain 0 v.toX
  | .bf16 => toFmt bf16 Mods.plain 0 v.toX
  | .e4m3 => toFmt e4m3 Mods.plain 0 v.toX
  | .e5m2 => toFmt e5m2 Mods.plain 0 v.toX
  | .i8 => (floatToInt .rne 0 8 true v).toNat % 256
  | .n8 => (floatToInt .rne 0 8 false v).toNat % 256

/-- An activation of an f32 value (R230). -/
def activated (a : Act) (y : Nat) : Nat :=
  let above (x : FV) : Bool := fltZ false x (decode f32 y)
  match a with
  | .none => y
  | .relu => if above (decode f32 0) then y else 0
  | .clamp6 => if above (decode f32 0) then (if above (decode f32 0x40C00000) then 0x40C00000 else y) else 0
  | .tanh => (fopTanh Mods.plain (w32 y)).toNat

end Sys2Proof.Machine
end

