-- ==== Sys2Proof/Certificates/Slice0/Obligations.lean ====
section
/-! DEFINITION. The statements for the provers. -/

open Sys2Proof Sys2Proof.Machine

/-- R103 to R108, R111, R24: each of the 24 integer instructions with one V destination writes, in each active thread
whose guard is true, the value its table gives, and changes no other thread.
R96, R27: the same instructions with an S or WG destination read every slot as scalar: with UNI operands the one
value is written; else the first operand that is not UNI traps SHAPE_MISMATCH. -/
def Obligations.IntegerResults : Prop :=
  (∀ (i : Instr) (s : State) (op : ValueOp) (n : Fin 128),
    intOp s i = some op → op.d = .v n → s.quiet → s.rowFree n.val →
    WritesV i s n.val (s.guardMask op.g) fun t r => op.rel (op.srcs.map fun v => v.at t) r) ∧
  (∀ (i : Instr) (s : State) (op : ValueOp),
    intOp s i = some op → op.d.isScalarReg = true → s.quiet →
    ((∀ v ∈ op.srcs, v.isUni = true) →
      ∃ x, op.rel (op.srcs.map fun v => v.at 0) x ∧ exec i s = .next ((s.putD op.d x).advance)) ∧
    (∀ k v, op.srcs[k]? = some v → v.isUni = false → (∀ j < k, ∀ u, op.srcs[j]? = some u → u.isUni = true) →
      exec i s = .next (s.raise (trapI tcShape (op.slots.getD k .null).toByte.toNat))))

/-- R109, R98: add.w and lea write the low word to D and the high word to D + 1. -/
def Obligations.WidePairResult : Prop :=
  ∀ (i : Instr) (s : State) (op : WideOp), wideOp s i = some op → op.d.fits 2 = true → s.quiet →
    (∀ n : Fin 128, op.d = .v n → s.rowsFree2 n.val →
      if s.guardMask op.g = 0 then exec i s = .next s.advance
      else ∃ lo hi, exec i s = .next (((s.putV n.val lo).putV (n.val + 1) hi).advance) ∧
        ∀ t < 32, if (s.guardMask op.g).getLsbD t then pairAt (lo, hi) t = op.f (op.srcs.map fun p => pairAt p t)
          else lo.at t = (s.vreg n.val).at t ∧ hi.at t = (s.vreg (n.val + 1)).at t) ∧
    (op.d.isScalarReg = true →
      ((∀ p ∈ op.srcs, p.1.isUni = true ∧ p.2.isUni = true) →
        exec i s = .next ((((s.putD op.d ((op.f (op.srcs.map fun p => pairAt p 0)).extractLsb' 0 32)).putD (Opnd.plus op.d 1)
          ((op.f (op.srcs.map fun p => pairAt p 0)).extractLsb' 32 32))).advance)) ∧
      ((∃ p ∈ op.srcs, p.1.isUni = false ∨ p.2.isUni = false) → ∃ x, exec i s = .next (s.raise (trapI tcShape x))))

/-- R97, R107, R110, R115, R116: cmp, fcmp, fclass and plop combine each thread's test with the old predicate, in the
active threads whose guard is true.
R111: sel takes A where Pc is true and B elsewhere; with P7 it is mov. A scalar destination takes thread 0's choice
(log entry 14). -/
def Obligations.PredicateAndSelectResults : Prop :=
  (∀ (i : Instr) (s : State) (op : PredOp) (n : Fin 8), predOp s i = some op → op.d = .p n → s.live = true →
    ∃ m : Mask, exec i s = .next ((s.writeP n.val m (s.guardMask op.g)).advance) ∧
      ∀ t < 32, m.getLsbD t = combineBit op.comb ((s.readP n.val).getLsbD t) (op.test t)) ∧
  (∀ (o : Op3) (s : State) (pc : Fin 8), o.c = .p pc → s.quiet →
    (∀ n : Fin 128, o.d = .v n → s.rowFree n.val →
      WritesV (.sel o) s n.val (s.guardMask o.g) fun t r =>
        r = if (s.readP pc.val).getLsbD t then (s.src o.a).at t else (s.src o.b).at t) ∧
    (pc = 7 → exec (.sel o) s = exec (.mov ⟨o.g, o.d, o.a⟩) s) ∧
    (o.d.isScalarReg = true → (s.src o.a).isUni = true → (s.src o.b).isUni = true →
      exec (.sel o) s = .next ((s.putD o.d
        (if (s.readP pc.val).getLsbD 0 then (s.src o.a).at 0 else (s.src o.b).at 0)).advance)))

/-- R24 to R26: the tag of a result: GEN for a partial write; else UNI from UNI sources, AFF for add and sub of AFF and AFF or
UNI, mul.lo of AFF by UNI and mov of AFF, the first three without .satf; else GEN: a GEN source, AFF under .satf, mul.lo of AFF by
AFF, and AFF in any other operation; a GEN result with every row held traps ROW_BUDGET. -/
def Obligations.ShapeTagOfResult : Prop :=
  ∀ (i : Instr) (s : State) (op : ValueOp) (n : Fin 128), intOp s i = some op → op.d = .v n → s.quiet → s.guardMask op.g ≠ 0 →
    let full := s.guardMask op.g = fullMask
    let a := op.srcs.getD 0 .unwritten
    let b := op.srcs.getD 1 .unwritten
    let writes (p : VReg → Prop) : Prop := ∃ r, exec i s = .next ((s.putV n.val r).advance) ∧ p r
    let adds : Prop := ∃ o ty, i = .add o ty ∨ i = .sub o ty
    let mulLo : Prop := ∃ o ty, i = .mulLo o ty
    let mov : Prop := ∃ o, i = .mov o
    let gen : Prop := (s.rowFree n.val → writes fun r => r.isGen = true) ∧
      (s.w.rowed n.val = false → s.w.g ≤ s.w.rows → exec i s = .next (s.raise (trapI tcRow n.val)))
    (¬ full → gen) ∧
    (full → (∀ v ∈ op.srcs, v.isUni = true) → s.rowFree n.val → writes fun r => ∃ x, r = .uni x) ∧
    (full → s.satf = false →
      (∀ o ty p q p' q', i = .add o ty → a = .aff p q → b = .aff p' q' → writes (· = .aff (p + p') (q + q'))) ∧
      (∀ o ty p q, i = .add o ty → a = .aff p q → b.isUni = true → writes (· = .aff (p + b.at 0) q)) ∧
      (∀ o ty p q, i = .add o ty → a.isUni = true → b = .aff p q → writes (· = .aff (a.at 0 + p) q)) ∧
      (∀ o ty p q p' q', i = .sub o ty → a = .aff p q → b = .aff p' q' → writes (· = .aff (p - p') (q - q'))) ∧
      (∀ o ty p q, i = .sub o ty → a = .aff p q → b.isUni = true → writes (· = .aff (p - b.at 0) q)) ∧
      (∀ o ty p q, i = .sub o ty → a.isUni = true → b = .aff p q → writes (· = .aff (a.at 0 - p) (0 - q))) ∧
      (∀ o ty p q, i = .mulLo o ty → a = .aff p q → b.isUni = true → writes (· = .aff (p * b.at 0) (q * b.at 0))) ∧
      (∀ o ty p q, i = .mulLo o ty → a.isUni = true → b = .aff p q → writes (· = .aff (p * a.at 0) (q * a.at 0)))) ∧
    (full → ∀ o p q, i = .mov o → a = .aff p q → writes (· = .aff p q)) ∧
    (full → (∃ v ∈ op.srcs, v.isGen = true) → gen) ∧
    (full → (∃ v ∈ op.srcs, v.isUni = false) → (s.satf = true ∧ (adds ∨ mulLo)) ∨ (¬ adds ∧ ¬ mulLo ∧ ¬ mov) → gen) ∧
    (full → mulLo → a.isUni = false → b.isUni = false → gen)

/-- R113 to R124, R126, R127, with R80 to R84: the 27 rounding instructions of groups 0x1 and 0x2, without stochastic
rounding, write in each active thread whose guard is true the value their entry gives.
R96, R27: the same instructions with a scalar destination. -/
def Obligations.RoundedResults : Prop :=
  (∀ (i : Instr) (s : State) (op : RoundOp) (n : Fin 128),
    roundOp s i = some op → op.rs = false → op.d = .v n → s.quiet → s.rowFree n.val →
    WritesV i s n.val (s.guardMask op.g) fun t r => r = op.f [] (op.srcs.map fun v => v.at t)) ∧
  (∀ (i : Instr) (s : State) (op : RoundOp),
    roundOp s i = some op → op.rs = false → op.d.isScalarReg = true → s.quiet →
    ((∀ v ∈ op.srcs, v.isUni = true) →
      exec i s = .next ((s.putD op.d (op.f [] (op.srcs.map fun v => v.at 0))).advance)) ∧
    (∀ k v, op.srcs[k]? = some v → v.isUni = false → (∀ j < k, ∀ u, op.srcs[j]? = some u → u.isUni = true) →
      exec i s = .next (s.raise (trapI tcShape (op.slots.getD k .null).toByte.toNat))))

/-- R86, R25: under .rs an instruction draws once for every element it rounds, over the threads it writes in ascending
order and within a thread in ascending element order; the result is GEN, and SR_SEED is the generator's state after the
last draw. -/
def Obligations.StochasticDraws : Prop :=
  ∀ (i : Instr) (s : State) (op : RoundOp) (n : Fin 128),
    roundOp s i = some op → op.rs = true → op.d = .v n → s.quiet → s.rowFree n.val → s.guardMask op.g ≠ 0 →
    ∃ r, r.isGen = true ∧
      exec i s = .next ((((s.modW fun w =>
        { w with seed := seedAfter (op.k * below (s.guardMask op.g) 32) s.w.seed }).putV n.val r)).advance) ∧
      Written (s.guardMask op.g) (s.vreg n.val) r fun t x =>
        x = op.f (drawsFrom op.k (seedAfter (op.k * below (s.guardMask op.g) t) s.w.seed)) (op.srcs.map fun v => v.at t)

/-- R125, R91: qblk gives each thread of a block its side word and code, non-participants counting as +0.0; the result is GEN
whenever a thread is written; under .rs every written thread draws once, in ascending order.
R96, R27, log entry 15: with a scalar destination and a UNI source, that source is every element and thread 0's code is written. -/
def Obligations.BlockQuantise : Prop :=
  ∀ (o : Op1) (b32 : Bool) (s : State), s.quiet →
    let md := Mods.of s.pm .rne
    let rs := decide (md.rnd = .rs)
    let len := if b32 then 32 else 16
    let draw (k : Nat) : Nat := if rs then (drawsFrom 1 (seedAfter k s.w.seed)).getD 0 0 else 0
    (∀ n : Fin 128, o.d = .v n → s.rowFree n.val →
      let part := s.guardMask o.g
      let x (t : Nat) : FV := if part.getLsbD t then fin32 md ((s.src o.a).at t) else .fin false 0 0
      let u (t : Nat) : Nat := if part.getLsbD t then draw (below part t) else 0
      let drawn := if rs then s.setSeed (seedAfter (below part 32) s.w.seed) else s
      if part = 0 then exec (.qblk o b32) s = .next drawn.advance
      else ∃ r, r.isGen = true ∧ exec (.qblk o b32) s = .next ((drawn.putV n.val r).advance) ∧
        Written part (s.vreg n.val) r fun t r =>
          let block := (List.range len).map fun j => t / len * len + j
          let e := qblkEncode md.rnd (block.map u) (block.map x)
          r = w32 (e.2 * 65536 + e.1.getD (t % len) 0)) ∧
    (o.d.isScalarReg = true →
      ((s.src o.a).isUni = true →
        let e := qblkEncode md.rnd (List.replicate len (draw 0)) (List.replicate len (fin32 md ((s.src o.a).at 0)))
        exec (.qblk o b32) s = .next (((s.setSeed (seedAfter (if rs then 1 else 0) s.w.seed)).putD o.d (w32 (e.2 * 65536 + e.1.getD 0 0))).advance)) ∧
      ((s.src o.a).isUni = false → exec (.qblk o b32) s = .next (s.raise (trapI tcShape o.a.toByte.toNat))))

/-- R52, R54, R86: each of the 16 halves with an effect writes its D in the threads of its half guard, from the old D and
S that its pair read; hnop does nothing.
R56 to R59: a fetched modifier is held by its split, with the place of its half, until its target performs. -/
def Obligations.HalvesAndModifiers : Prop :=
  (∀ (i : Instr) (s : State), s.quiet →
    (∀ (h : Half) (float : Bool) (f : Nat → Word → Word → Word),
      halfSpec (Mods.of s.pm .rne) i = some (h, float, f) → s.rowFree h.d.val →
      let m := s.halfMask h.g
      let rs := float && decide ((Mods.of s.pm .rne).rnd = .rs)
      let rd := s.halfReads h float
      let s' := s.setSeed (if rs then seedAfter (below m 32) s.w.seed else s.w.seed)
      let fin (t : State) : State := t.modSp fun p => { p with pfx := none }
      if m = 0 then exec i s = .next (fin s')
      else ∃ r, exec i s = .next (fin (s'.putV h.d.val r)) ∧ Written m (s.vreg h.d.val) r fun t x =>
        x = f (if rs then ((seedAfter (below m t + 1) s.w.seed).extractLsb' 16 16).toNat else 0) (rd.1.at t) (rd.2.at t)) ∧
    (i = .hnop → exec i s = .next (s.modSp fun p => { p with pfx := none }))) ∧
  (∀ (s : State) (m : PfxM) (hi : BitVec 13), s.live = true →
    (Runs (.pfxM m) s fun t => t.sp.pfx = some ⟨some m, none, s.sp.pc, s.sp.low⟩ ∧ t.pm = some m ∧ t.sp.pc = s.sp.pc) ∧
    (Runs (.pfxI hi) s fun t => t.sp.pfx = some ⟨none, some hi, s.sp.pc, s.sp.low⟩ ∧ t.sp.pc = s.sp.pc ∧
      ∀ v z, t.imm v z = hi ++ v) ∧
    (s.sp.pfx = none → ∀ v, s.imm v true = v.setWidth 32 ∧ s.imm v false = v.signExtend 32))

/-- R129: vote over the active threads whose guard is true; a predicate result goes to every active thread. Log entry 49: the
mask to V is written in every active thread. -/
def Obligations.VoteResult : Prop :=
  ∀ (o : Op1) (s : State), s.quiet →
    let part := s.guardMask o.g
    let pa := s.pOf o.a
    (∀ n : Fin 8, o.d = .p n → ∃ any all same : Bool,
      (any = true ↔ ∃ t < 32, part.getLsbD t = true ∧ pa.getLsbD t = true) ∧
      (all = true ↔ ∀ t < 32, part.getLsbD t = true → pa.getLsbD t = true) ∧
      (same = true ↔ ∃ v, ∀ t < 32, part.getLsbD t = true → pa.getLsbD t = v) ∧
      exec (.vote o .or) s = .next ((s.writeP n.val (if any then fullMask else 0) s.sp.mask).advance) ∧
      exec (.vote o .and) s = .next ((s.writeP n.val (if all then fullMask else 0) s.sp.mask).advance) ∧
      exec (.vote o .agree) s = .next ((s.writeP n.val (if same then fullMask else 0) s.sp.mask).advance)) ∧
    (∀ n : Fin 64, o.d = .s n → exec (.vote o .mask) s = .next ((s.writeS n.val (part &&& pa)).advance)) ∧
    (∀ n : Fin 128, o.d = .v n → s.rowFree n.val → WritesV (.vote o .mask) s n.val s.sp.mask fun _ r => r = part &&& pa)

/-- R130, R136, R128: the lane each thread of shfl and rdlane reads; an inactive lane gives its current value.
R131: redux combines by the fixed pairwise tree and scan by the fixed prefix network, non-participants counting as
the identity; without .rs the tree and the network are those of the rule, and each combining step draws under .rs; a scan's result
is GEN but for a full-mask add of a UNI source. Log entry 81: a scan with a scalar destination writes thread 0's element. -/
def Obligations.LaneReadsAndReductions : Prop :=
  (∀ (s : State), s.quiet →
    (∀ (o : OpAB) (mode : ShflMode) (lg : Fin 6) (n : Fin 128), o.d = .v n → s.rowFree n.val →
      WritesV (.shfl o mode lg) s n.val (s.guardMask o.g) fun t r =>
        let w := 2 ^ lg.val
        let base := t - t % w
        let b := ((s.src o.b).at t).toNat % 32
        r = (s.crossV o.a).at (match mode with
          | .at => base + b % w
          | .mir => t ^^^ (b % w)
          | .back => if t < base + b then t else t - b
          | .fwd => if base + w ≤ t + b then t else t + b)) ∧
    (∀ (o : OpAB) (mode : ShflMode) (lg : Fin 6), o.d.isScalarReg = true → (s.src o.a).isUni = true →
      exec (.shfl o mode lg) s = .next ((s.putD o.d ((s.src o.a).at 0)).advance)) ∧
    (∀ (o : Op2) (x : VReg), s.srcB o.b false = x → x.isUni = true →
      (∀ n : Fin 128, o.d = .v n → s.rowFree n.val →
        WritesV (.rdlane o) s n.val (s.guardMask o.g) fun _ r => r = (s.crossV o.a).at ((x.at 0).toNat % 32)) ∧
      (o.d.isScalarReg = true →
        exec (.rdlane o) s = .next ((s.putD o.d ((s.crossV o.a).at ((x.at 0).toNat % 32))).advance)))) ∧
  (∀ (o : Op1) (op : RedOp) (excl : Bool) (s : State), s.quiet →
    let md := Mods.of s.pm .rne
    let parts := s.redParts o.g o.a op
    let rs := decide (md.rnd = .rs)
    let sum := redSat op md ((redTree op md 5 parts s.w.seed).1.getD 0 0)
    let net := (scanAll op md parts s.w.seed).1
    let z (t : Nat) : Word := redSat op md (if excl then (if t = 0 then redIdent op else net.getD (t - 1) 0) else net.getD t 0)
    let sr := s.setSeed (seedAfter (if rs then 31 else 0) s.w.seed)
    let ss := s.setSeed (seedAfter (if rs then 129 else 0) s.w.seed)
    (rs = false → (redTree op md 5 parts s.w.seed).1.getD 0 0 = treeOf (redStep op md 0) 5 fun t => parts.getD t 0) ∧
    (rs = false → ∀ t < 32, net.getD t 0 = networkOf (redStep op md 0) [16, 8, 4, 2, 1] (fun t => parts.getD t 0) t) ∧
    (∀ t < 32, parts.getD t 0 = if (s.guardMask o.g).getLsbD t then (s.crossV o.a).at t else redIdent op) ∧
    (∀ n : Fin 128, o.d = .v n → s.rowFree n.val → s.guardMask o.g ≠ 0 →
      (∃ r, exec (.redux o op) s = .next ((sr.putV n.val r).advance) ∧
        Written (s.guardMask o.g) (s.vreg n.val) r fun _ x => x = sum) ∧
      (∃ r, exec (.scan o op excl) s = .next ((ss.putV n.val r).advance) ∧
        (¬((s.crossV o.a).isUni = true ∧ op = .addI32 ∧ s.guardMask o.g = fullMask) → r.isGen = true ∧
          Written (s.guardMask o.g) (s.vreg n.val) r fun t x => x = z t) ∧
        ((s.crossV o.a).isUni = true → op = .addI32 → s.guardMask o.g = fullMask →
          r = .aff (if excl then 0 else (s.crossV o.a).at 0) ((s.crossV o.a).at 0)))) ∧
    (∀ n : Fin 128, o.d = .v n → s.guardMask o.g = 0 →
      exec (.redux o op) s = .next sr.advance ∧ exec (.scan o op excl) s = .next ss.advance) ∧
    (o.d.isScalarReg = true →
      exec (.redux o op) s = .next ((sr.putD o.d sum).advance) ∧ exec (.scan o op excl) s = .next ((ss.putD o.d (z 0)).advance)))

/-- R132: tagof reads the tag's code, mkaff makes base + stride × thread.
R38, R135: rpf fills the operand buffer with each selected register once and writes no register. -/
def Obligations.TagsAndOperandBuffer : Prop :=
  (∀ (s : State), s.quiet →
    (∀ (o : Op1) (a : Fin 128), o.a = .v a →
      (∀ n : Fin 128, o.d = .v n → s.rowFree n.val →
        WritesV (.tagof o) s n.val (s.guardMask o.g) fun _ r => r = w32 (s.vreg a.val).code) ∧
      (o.d.isScalarReg = true → exec (.tagof o) s = .next ((s.putD o.d (w32 (s.vreg a.val).code)).advance))) ∧
    (∀ (o : Op2) (n : Fin 128), o.d = .v n → s.rowFree n.val → (s.src o.a).isUni = true → (s.srcB o.b false).isUni = true →
      WritesV (.mkaff o) s n.val (s.guardMask o.g) fun t r =>
        r = (s.src o.a).at 0 + (s.srcB o.b false).at 0 * BitVec.ofNat 32 t)) ∧
  (∀ (s : State) (vc vb : Option (Fin 128)) (mask : BitVec 16), s.live = true →
    ∃ rs : List Nat, rs.Nodup ∧
      (∀ n, n ∈ rs ↔ ∃ j < 16, mask.getLsbD j = true ∧
        ((j < 8 ∧ ∃ b, vb = some b ∧ n = b.val + j) ∨ (8 ≤ j ∧ ∃ c, vc = some c ∧ n = c.val + (j - 8)))) ∧
      exec (.rpf vc vb mask) s = .next ((s.modW fun w => { w with fob := rs, dirty := [], rpf := rs }).advance))

/-- R133, R134, R21: movs reads a special register, 64 bits into a scalar pair; setsr writes the four writable ones, SR_TRAP
only in the handler; a write of any other traps PROTECTION. R19, R20, R343: what the read-only special registers hold. Log entry
3: the skew of SR_DTC on a core is free within its bound. -/
def Obligations.SpecialRegisters : Prop :=
  (∀ (s : State), s.quiet →
    (∀ (g : Guard) (n : Fin 128) (r : SReg), s.rowFree n.val →
      WritesV (.movs g (.v n) r) s n.val (s.guardMask g) fun t x =>
        x = if r = .tid then w32 t else (s.readSR r).extractLsb' 0 32) ∧
    (∀ (g : Guard) (n : Fin 64) (r : SReg), (r.wide = true → n.val < 63) →
      exec (.movs g (.s n) r) s = .next (if r.wide then
          ((s.writeS n.val ((s.readSR r).extractLsb' 0 32)).writeS (n.val + 1) ((s.readSR r).extractLsb' 32 32)).advance
        else (s.writeS n.val ((s.readSR r).extractLsb' 0 32)).advance)) ∧
    (∀ n : Fin 64, exec (.setsr .uconf (.s n)) s = .next ((s.modW fun w => { w with uconf := s.at64 (.s n) 0 }).advance)) ∧
    (∀ n : Fin 64, s.w.handler ≠ none →
      exec (.setsr .trap (.s n)) s = .next ((s.modW fun w => { w with trapReg := s.at64 (.s n) 0 }).advance)) ∧
    (∀ n : Fin 64, s.w.handler = none → exec (.setsr .trap (.s n)) s = .next (s.raise (trapI tcProtection 0))) ∧
    (∀ a : Opnd, (s.src a).isUni = true →
      exec (.setsr .mflags a) s = .next ((s.modW fun w => { w with mflags := (s.src a).at 0 &&& 0x3F#32 }).advance) ∧
      exec (.setsr .seed a) s = .next ((s.modW fun w => { w with seed := (s.src a).at 0 }).advance)) ∧
    (∀ (r : SReg) (a : Opnd), r ≠ .uconf → r ≠ .trap → r ≠ .mflags → r ≠ .seed →
      exec (.setsr r a) s = .next (s.raise (trapI tcProtection 0)))) ∧
  (∀ (s : State),
    let d := s.gr.d
    (s.readSR .wave).toNat = s.w.idx % 2 ^ 64 ∧
    (s.readSR .core).toNat = s.cur.core % 2 ^ 64 ∧
    (s.readSR .cluster).toNat = s.cur.core / 16 % 2 ^ 64 ∧
    (0 < d.x → 0 < d.y → d.x * d.y * d.z < 2 ^ 64 → s.g.lin < d.x * d.y * d.z →
      s.g.lin = (s.readSR .wgidX).toNat + d.x * ((s.readSR .wgidY).toNat + d.y * (s.readSR .wgidZ).toNat) ∧
      (s.readSR .wgidX).toNat < d.x ∧ (s.readSR .wgidY).toNat < d.y ∧ (s.readSR .wgidZ).toNat < d.z) ∧
    (s.readSR .split).extractLsb' 0 32 = s.sp.mask ∧
    ((s.readSR .split).extractLsb' 32 2).toNat = s.sp.id % 4 ∧
    ((s.readSR .split).extractLsb' 34 3).toNat = s.w.splits.length % 8 ∧
    ((s.readSR .split).extractLsb' 37 4).toNat = s.w.deferred.length % 16 ∧
    ((s.readSR .split).extractLsb' 41 23).toNat = 0 ∧
    (s.readSR .stage).toNat = s.w.stage % 8 ∧
    ((s.readSR .class).extractLsb' 0 2).toNat = (s.core s.cur.core).openCls % 4 ∧
    ((s.readSR .class).extractLsb' 2 2).toNat = (s.core s.cur.core).cycCls % 4 ∧
    ((s.readSR .class).extractLsb' 4 2).toNat = (s.cluster (s.cur.core / 16)).scale % 4 ∧
    ((s.readSR .class).extractLsb' 6 58).toNat = 0 ∧
    s.readSR .lwt = s.w.lwt ∧ s.readSR .uconf = s.w.uconf ∧ s.readSR .trap = s.w.trapReg ∧
    (s.readSR .mflags).extractLsb' 0 32 = s.w.mflags ∧ (s.readSR .seed).extractLsb' 0 32 = s.w.seed ∧
    s.readSR .cyc = (s.core s.cur.core).cyc ∧ ((s.readSR .dtc) - s.dtc).toNat ≤ 131072 ∧
    s.readSR .piter = s.g.piter ∧ s.readSR .pfix = s.g.pfix)

/-- R21: a setsr that names a read-only special register traps PROTECTION, as does one that names SR_TRAP outside the wave's
trap handler; a movs or setsr whose index is 0x13 to 0x3F decodes to ILLEGAL_ENCODING. -/
def Obligations.SpecialRegisterTraps : Prop :=
  (∀ (s : State) (r : SReg) (a : Opnd), s.quiet → r ≠ .uconf → r ≠ .mflags → r ≠ .seed → (r = .trap → s.w.handler = none ∧ ∃ n, a = .s n) →
    exec (.setsr r a) s = .next (s.raise (trapI tcProtection 0))) ∧
  (∀ x : DWord, x.getLsbD 62 = false → x.extractLsb' 47 10 = 0x0C6#10 ∨ x.extractLsb' 47 10 = 0x0C7#10 → 0x13 ≤ (x.extractLsb' 0 6).toNat →
    ∃ k, decodeBundle x = .error (.encoding k) ∧ (derrTrap (.encoding k)).code = tcEncoding)

/-- R24, R96, R97, R100: a value instruction that does not trap changes its destination registers, the PC of its split and,
where it rounds stochastically, SR_SEED, and nothing else: no other register of any kind, no byte of any memory. -/
def Obligations.ValueInstructionFrame : Prop :=
  ∀ (i : Instr) (s t : State) (d : Opnd) (w : Nat), s.quiet → valueDst s i = some (d, w) → exec i s = .next t →
    (∃ tr, t = s.raise tr) ∨ OnlyValue s t d w

/-- R138: each check of a taken transfer's target and its trap, before any state changes.
R140, R139: br, jmp and loop: when each is taken, where it goes, and when br traps SHAPE_MISMATCH. -/
def Obligations.BranchesAndTargets : Prop :=
  (∀ (i : Instr) (s : State) (dest : DWord), s.quiet → Transfers i s dest →
    (dest.toNat % 8 ≠ 0 → exec i s = .next (s.raise ⟨tcMisaligned, 0, dest.extractLsb' 0 32, dest⟩)) ∧
    (dest.toNat % 8 = 0 → ∀ e, s.closed.fetch s.closed.cur.core s.closed.w.grid dest = .error e →
      exec i s = .next (s.raise { e with addr := dest })) ∧
    (dest.toNat % 8 = 0 → ∀ x, s.closed.fetch s.closed.cur.core s.closed.w.grid dest = .ok x → x.getLsbD 61 = false →
      exec i s = .next (s.raise ⟨tcBadTarget, 0, dest.extractLsb' 0 32, dest⟩))) ∧
  (∀ (s : State), s.quiet →
    (∀ (g : Guard) (a : Opnd) (disp : BitVec 19),
      (a ≠ .null → (s.src a).isUni = false → exec (.br g a disp) s = .next (s.raise (trapI tcShape a.toByte.toNat))) ∧
      (a = .null ∨ (s.src a).isUni = true →
        ((a ≠ .null ∧ (s.src a).at 0 = 0) ∨ s.guardMask g = 0 → exec (.br g a disp) s = .next s.advance) ∧
        (∀ dest x, Transfers (.br g a disp) s dest → Lands s.closed dest x →
          exec (.br g a disp) s = .next (s.closed.goto dest)) ∧
        (a = .null ∨ (s.src a).at 0 ≠ 0 → s.guardMask g ≠ 0 → s.guardMask g ≠ s.sp.mask →
          exec (.br g a disp) s = .next (s.raise (trapI tcShape (0xD0 + g.p.val)))))) ∧
    (∀ (t : Target) (x : DWord), Lands s.closed (s.closed.targetOf t) x →
      exec (.jmp t) s = .next (s.closed.goto (s.closed.targetOf t))) ∧
    (∀ (d : Fin 64) (disp : BitVec 19),
      (s.readS d.val = 1 → exec (.loop d disp) s = .next ((s.writeS d.val 0).advance)) ∧
      (∀ x, s.readS d.val ≠ 1 → Lands s.closed (s.closed.dispTo disp) x →
        exec (.loop d disp) s =
          .next ((s.closed.writeS d.val (s.closed.readS d.val - 1)).goto (s.closed.dispTo disp)))))

/-- R151: loop decrements Sn in the executing split's copy; not zero, it branches to the target, checked under R138; zero, it
continues at PC + 8; a count of 0 wraps to 0xFFFF_FFFF. -/
def Obligations.LoopCounts : Prop :=
  ∀ (s : State) (d : Fin 64) (disp : BitVec 19), s.quiet → s.sp.s.length = 64 →
    let x := s.sp.s.getD d.val 0
    let dest := s.closed.dispTo disp
    let counted (t : State) : Prop := t.sp.s = s.sp.s.set d.val (x - 1) ∧ (∀ j, j ≠ s.cur.split → t.w.split? j = s.w.split? j) ∧ t.mem = s.mem
    (x = 0 → x - 1 = 0xFFFFFFFF#32) ∧
    (x - 1 ≠ 0 → ∀ b, Lands s.closed dest b → Runs (.loop d disp) s fun t => counted t ∧ t.sp.pc = dest) ∧
    (x - 1 ≠ 0 → (dest.toNat % 8 ≠ 0 → exec (.loop d disp) s = .next (s.raise ⟨tcMisaligned, 0, dest.extractLsb' 0 32, dest⟩)) ∧
      (dest.toNat % 8 = 0 → ∀ e, s.closed.fetch s.cur.core s.w.grid dest = .error e → exec (.loop d disp) s = .next (s.raise { e with addr := dest })) ∧
      (dest.toNat % 8 = 0 → ∀ b, s.closed.fetch s.cur.core s.w.grid dest = .ok b → b.getLsbD 61 = false →
        exec (.loop d disp) s = .next (s.raise ⟨tcBadTarget, 0, dest.extractLsb' 0 32, dest⟩))) ∧
    (x - 1 = 0 → Runs (.loop d disp) s fun t => counted t ∧ t.sp.pc = s.sp.pc + 8)

/-- R141, R137: br.d divides the split by its guard; the first path keeps the split, the other becomes a running split
or the top deferred entry, with the split's S registers and call depth; with no room it traps SPLIT_OVERFLOW. -/
def Obligations.DivergentBranch : Prop :=
  ∀ (s : State) (g : Guard) (h : Bool) (disp : BitVec 19), s.quiet → s.w.handler = none →
    let tk := s.guardMask g
    let nt := s.sp.mask &&& ~~~tk
    let dest := s.closed.dispTo disp
    let first := if h then (s.sp.pc + 8, nt) else (dest, tk)
    let other := if h then (dest, tk) else (s.sp.pc + 8, nt)
    (tk = 0 → exec (.brD g h disp) s = .next s.advance) ∧
    (∀ x, tk ≠ 0 → nt = 0 → Lands s.closed dest x → exec (.brD g h disp) s = .next (s.closed.goto dest)) ∧
    (∀ x, tk ≠ 0 → nt ≠ 0 → Lands s.closed dest x → (s.w.freeId ≠ none ∨ s.w.deferred.length < 8) →
      Runs (.brD g h disp) s fun t =>
        t.sp.pc = first.1 ∧ t.sp.mask = first.2 ∧ t.sp.s = s.sp.s ∧ t.sp.depth = s.sp.depth ∧
        first.2 ||| other.2 = s.sp.mask ∧ first.2 &&& other.2 = 0 ∧
        (∀ j, s.w.freeId = some j → t.w.deferred = s.w.deferred ∧ ∃ q ∈ t.w.splits,
          q.id = j ∧ q.pc = other.1 ∧ q.mask = other.2 ∧ q.s = s.sp.s ∧ q.depth = s.sp.depth ∧ q.status = .running) ∧
        (s.w.freeId = none → t.w.splits.length = s.w.splits.length ∧ ∃ d, t.w.deferred = d :: s.w.deferred ∧
          d.pc = other.1 ∧ d.mask = other.2 ∧ d.s = s.sp.s ∧ d.depth = s.sp.depth)) ∧
    (∀ x, tk ≠ 0 → nt ≠ 0 → Lands s.closed dest x → s.w.freeId = none → 8 ≤ s.w.deferred.length →
      exec (.brD g h disp) s = .next (s.raise (trapI tcSplitOverflow 0)))

/-- R147: call writes the return address and adds 1 to the depth, ret goes back to it and subtracts 1; CALL_DEPTH at
the ends, REG_BUDGET where the target's fhdr asks too much (for call, log entry 75: before CALL_DEPTH).
R149, R150: callx checks its targets in the order of their lowest threads, then depth and places; with every check passed the split
goes to the first target with the threads that named it; the further ones take free slots in order, then the top of the deferred
stack, and stand behind the split in hint order; each with its target's threads, the split's S registers, the return address and
the new depth. -/
def Obligations.CallsAndReturns : Prop :=
  (∀ (s : State), s.quiet →
    (∀ (d : Fin 64) (t : Target) (x : DWord), Lands s.closed (s.closed.targetOf t) x →
      (BudgetOk s.closed x → s.closed.sp.depth < 64 →
        exec (.call d t) s = .next ((s.closed.modSp fun p =>
          { p.setPair d.val (s.closed.sp.pc + 8) with depth := p.depth + 1 }).goto (s.closed.targetOf t))) ∧
      (BudgetOk s.closed x → 64 ≤ s.closed.sp.depth →
        exec (.call d t) s = .next (s.raise (trapI tcDepth s.closed.sp.depth))) ∧
      (∀ n g, fhdrOf x = some (n, g) → 1 ≤ n → n ≤ 128 → g ≤ n → (s.closed.w.n < n ∨ s.closed.w.g < g) →
        exec (.call d t) s = .next (s.raise (trapI tcReg n)))) ∧
    (∀ (a : Fin 64) (x : DWord), Lands s.closed (s.closed.sp.pair a.val) x →
      (s.closed.sp.depth ≠ 0 →
        exec (.ret a) s =
          .next ((s.closed.modSp fun p => { p with depth := p.depth - 1 }).goto (s.closed.sp.pair a.val))) ∧
      (s.closed.sp.depth = 0 → exec (.ret a) s = .next (s.raise (trapI tcDepth 0))))) ∧
  (∀ (s : State) (d : Fin 64) (a : Fin 128), s.quiet → s.w.handler = none → s.sp.mask ≠ 0 →
    let c := s.closed
    let named (dest : DWord) (m : Mask) : Prop :=
      ∀ t < 32, m.getLsbD t = true ↔ (c.sp.mask.getLsbD t = true ∧ c.at64 (.v a) t = dest)
    let ts := distinct ((threads c.sp.mask).map fun t => (t, c.at64 (.v a) t))
    (∀ e ∈ ts, named e.1 e.2 ∧ e.2 ≠ 0) ∧ (ts.map (·.1)).Nodup ∧
    (∀ t < 32, c.sp.mask.getLsbD t = true → ∃ e ∈ ts, e.2.getLsbD t = true) ∧
    ((∀ e ∈ ts, ∃ x n g, Lands c e.1 x ∧ fhdrOf x = some (n, g) ∧ BudgetOk c x) → c.sp.depth < 64 →
      ts.length - 1 ≤ (4 - c.w.splits.length) + (8 - c.w.deferred.length) →
      Runs (.callx d a) s fun t => ∃ e es, ts = e :: es ∧
        t.sp.pc = e.1 ∧ t.sp.mask = e.2 ∧ t.sp.depth = c.sp.depth + 1 ∧ t.sp.s = (c.sp.setPair d.val (c.sp.pc + 8)).s ∧
        t.w.splits.length + t.w.deferred.length = c.w.splits.length + c.w.deferred.length + es.length ∧
        t.w.hint = (c.w.hint.flatMap fun u => if u = c.sp.uid then u :: (List.range es.length).map (c.w.nextUid + ·) else [u]) ∧
        (∃ ids : List Nat, ids.Pairwise (· < ·) ∧ (∀ i ∈ ids, ∀ p ∈ c.w.splits, p.id ≠ i) ∧ ids.length = Min.min es.length (4 - c.w.splits.length) ∧
          ∀ j x i, es[j]? = some x → ids[j]? = some i → ∃ q ∈ t.w.splits, q.id = i ∧ q.pc = x.1 ∧ q.mask = x.2 ∧ q.s = t.sp.s ∧
            q.depth = c.sp.depth + 1 ∧ q.uid = c.w.nextUid + j ∧ q.status = .running) ∧
        ∃ ds, t.w.deferred = ds ++ c.w.deferred ∧
          (ds.map fun x => (x.pc, x.mask, x.s, x.depth)) = (es.drop (4 - c.w.splits.length)).map fun x => (x.1, x.2, t.sp.s, c.sp.depth + 1)) ∧
    (∀ pre e post x, ts = pre ++ e :: post → (∀ y ∈ pre, ∃ x n g, Lands c y.1 x ∧ fhdrOf x = some (n, g) ∧ BudgetOk c x) → Lands c e.1 x →
      (fhdrOf x = none → exec (.callx d a) s = .next (s.raise ⟨tcBadTarget, 0, e.1.extractLsb' 0 32, e.1⟩)) ∧
      (∀ n g, fhdrOf x = some (n, g) → 1 ≤ n → n ≤ 128 → g ≤ n → (c.w.n < n ∨ c.w.g < g) →
        exec (.callx d a) s = .next (s.raise (trapI tcReg n)))) ∧
    ((∀ e ∈ ts, ∃ x n g, Lands c e.1 x ∧ fhdrOf x = some (n, g) ∧ BudgetOk c x) →
      (64 ≤ c.sp.depth → exec (.callx d a) s = .next (s.raise (trapI tcDepth c.sp.depth))) ∧
      (c.sp.depth < 64 → (4 - c.w.splits.length) + (8 - c.w.deferred.length) < ts.length - 1 →
        exec (.callx d a) s = .next (s.raise (trapI tcSplitOverflow 0)))))

/-- R143, R35: join and conv complete alone, merge with a split parked at the same bundle once every delivery of both has
come, or park; until then the split waits for its own, and tries again while the other's are on their way. -/
def Obligations.JoinAndConv : Prop :=
  ∀ (i : Instr) (st : Status) (s : State), (i = .join ∧ st = .parkedJoin) ∨ (i = .conv ∧ st = .parkedConv) → s.live = true →
    (s.w.splits.length = 1 → s.w.deferred = [] → exec i s = .next s.advance) ∧
    (¬(s.w.splits.length = 1 ∧ s.w.deferred = []) →
      (∀ q, s.w.splits.find? (fun q => q.id != s.sp.id && q.parked && q.pc == s.sp.pc) = some q →
        (s.sp.undelivered = true →
          exec i s = .next (s.modSp fun p => { p.rewind.closeWindows with status := .waiting .deliver })) ∧
        (s.sp.undelivered = false → (∃ x ∈ q.windows, x.delivered = false) → exec i s = .next s.stall) ∧
        (s.sp.undelivered = false → (∀ x ∈ q.windows, x.delivered = true) →
          exec i s = .next (s.modW fun w => (w.merge s.sp q q.status).settle))) ∧
      (s.w.splits.find? (fun q => q.id != s.sp.id && q.parked && q.pc == s.sp.pc) = none →
        exec i s = .next (s.modW fun w => (w.modSplit s.sp.id fun p => { p with status := st, pfx := none }).settle)))

/-- R144: what a merge of two splits of a wave forms. That a merge with the handler's split leaves the merged one the handler is
the model's reading (log entry 16). -/
def Obligations.MergeOfTwoSplits : Prop :=
  ∀ (w : Wave) (p q : Split) (st : Status), p ∈ w.splits → q ∈ w.splits → p.id ≠ q.id → p.uid ≠ q.uid →
    p.uid ∈ w.hint → q.uid ∈ w.hint → w.hint.Nodup →
    let w' := w.merge p q st
    let early := if w.pos p.uid < w.pos q.uid then p else q
    let late := if w.pos p.uid < w.pos q.uid then q else p
    (∃ m ∈ w'.splits, m.mask = p.mask ||| q.mask ∧ m.id = Min.min p.id q.id ∧ m.s = late.s ∧ m.depth = late.depth ∧
      m.uid = early.uid ∧ (∀ x ∈ w'.splits, x = m ∨ (x ∈ w.splits ∧ x.id ≠ p.id ∧ x.id ≠ q.id))) ∧
    (∀ x ∈ w.splits, x.id ≠ p.id → x.id ≠ q.id → x ∈ w'.splits) ∧
    w'.hint = w.hint.filter (· != late.uid) ∧
    (∀ h, w.handler = some h → w'.handler = some (if h = p.id ∨ h = q.id then Min.min p.id q.id else h)) ∧
    (∀ k < 64, w'.uconf.getLsbD k = (w.uconf.getLsbD k || (p.s.getD k 0 != q.s.getD k 0))) ∧
    w'.v = w.v ∧ w'.p = w.p

/-- R142: once a split has merged, parked or ended, no slot is free while a deferred entry waits, and the entries that
became live took the lowest free ids in the order of the stack.
R145: with every live split parked, the split parked by join that is earliest in hint order goes on, else the one
parked by conv; with a split running nothing is released. -/
def Obligations.DeferredAndParkedSplits : Prop :=
  (∀ (w : Wave), (w.splits.map (·.id)).Nodup → (∀ p ∈ w.splits, p.id < 4) →
    ((w.settle).deferred = [] ∨ (w.settle).splits.length = 4) ∧
    (∀ d ds j, w.deferred = d :: ds → w.freeId = some j →
      (∀ k < j, ∃ p ∈ w.splits, p.id = k) ∧
      ∃ p ∈ (Wave.refill w.deferred w).splits, p.id = j ∧ p.pc = d.pc ∧ p.mask = d.mask ∧ p.s = d.s ∧ p.depth = d.depth ∧
        p.status = .running)) ∧
  (∀ (w : Wave) (p : Split), (w.splits.map (·.id)).Nodup → (w.splits.map (·.uid)).Nodup → p ∈ w.splits → p.uid ∈ w.hint →
    ((∃ q ∈ w.splits, q.parked = false) → w.unpark = w) ∧
    ((∀ q ∈ w.splits, q.parked = true) →
      (p.status = .parkedJoin ∧ (∀ q ∈ w.splits, q.status = .parkedJoin → w.pos p.uid ≤ w.pos q.uid) ∨
       p.status = .parkedConv ∧ (∀ q ∈ w.splits, q.status ≠ .parkedJoin) ∧
         (∀ q ∈ w.splits, q.status = .parkedConv → w.pos p.uid ≤ w.pos q.uid)) →
      w.unpark = w.modSplit p.id fun q => { q with pc := q.pc + 8, status := .running, readyAt := 0 }))

/-- R152: exit ends the threads whose guard is true; a split left with none ends, and the deferred entry on top takes its slot; a
wave left with no split gives up its streams and, its in-flight work done, its context. Log entry 16: a handler ends with the split
that runs it.
R153, R254, R148: trap and brk raise their exception when the guard is true for an active thread, and otherwise do
nothing; nop and fhdr do nothing. -/
def Obligations.ExitTrapAndHeader : Prop :=
  (∀ (s : State) (g : Guard), s.live = true →
    let ends := s.guardMask g
    let keep := s.sp.mask &&& ~~~ends
    (keep ≠ 0 → Runs (.exit g) s fun t =>
      t.sp.mask = keep ∧ t.sp.pc = s.sp.pc + 8 ∧ t.w.exited = s.w.exited ||| ends ∧ t.w.splits.length = s.w.splits.length) ∧
    (keep = 0 → (∃ q ∈ s.w.splits, q.id ≠ s.cur.split) ∨ s.w.deferred ≠ [] → Runs (.exit g) s fun t =>
      t.w.exited = s.w.exited ||| ends ∧
      t.w = { ({ s.w with exited := s.w.exited ||| ends } : Wave).endSplit s.cur.split with
        handler := if s.w.handler = some s.cur.split then none else s.w.handler }) ∧
    (keep = 0 → (∀ q ∈ s.w.splits, q.id = s.cur.split) → s.w.deferred = [] → s.w.accs = [] →
      Runs (.exit g) s fun t => t.wave? s.cur.core s.cur.ctx = none) ∧
    (∀ d ds, keep = 0 → (∀ q ∈ s.w.splits, q.id = s.cur.split) → s.w.deferred = d :: ds → Runs (.exit g) s fun t =>
      ∃ p ∈ t.w.splits, p.id = 0 ∧ p.pc = d.pc ∧ p.mask = d.mask ∧ p.s = d.s ∧ p.depth = d.depth ∧ p.status = .running) ∧
    (keep = 0 → (∀ q ∈ s.w.splits, q.id = s.cur.split) → s.w.deferred = [] → s.w.accs ≠ [] → Runs (.exit g) s fun t =>
      ∃ w', t.wave? s.cur.core s.cur.ctx = some w' ∧ w'.splits = [] ∧ w'.streams = [] ∧ w'.accs = s.w.accs ∧ w'.exited = s.w.exited ||| ends)) ∧
  (∀ (s : State) (g : Guard) (code : BitVec 16) (n b : BitVec 8), s.live = true →
    (s.guardMask g ≠ 0 →
      exec (.trap g code) s = .next (s.raise (trapI tcSoftware code.toNat)) ∧
      exec (.brk g code) s = .next (s.raise (trapI tcBreak code.toNat))) ∧
    (s.guardMask g = 0 → exec (.trap g code) s = .next s.advance ∧ exec (.brk g code) s = .next s.advance) ∧
    exec .nop s = .next s.advance ∧ exec (.fhdr n b) s = .next s.advance)

/-- R247, R246: entry to a handler: S62:S63 is held and takes the place of the trap, SR_TRAP is written, windows close,
the PC becomes the handler's address with the mask unchanged; nothing else of the wave changes. -/
def Obligations.TrapEntry : Prop :=
  ∀ (s : State) (tr : TrapReq), s.live = true → s.sound → s.spec s.w.grid = false → s.w.handler = none →
    (s.grid s.w.grid).d.handler ≠ 0 → 0 < tr.code → tr.code < 256 → tr.thread < 32 →
    let at_ := s.sp.trapAt
    let t := s.raise tr
    t.w.heldS = s.sp.pair 62 ∧ t.sp.pair 62 = (at_.pc ||| (if at_.slot then 1#64 else 0#64)) ∧
    t.sp.pc = (s.grid s.w.grid).d.handler ∧ t.sp.mask = s.sp.mask ∧ t.w.handler = some s.cur.split ∧
    (t.w.trapReg.extractLsb' 0 8).toNat = tr.code ∧ t.w.trapReg.getLsbD 8 = true ∧
    t.w.trapReg.getLsbD 9 = at_.slot ∧ (t.w.trapReg.extractLsb' 10 2).toNat = s.cur.split % 4 ∧
    (t.w.trapReg.extractLsb' 12 5).toNat = tr.thread ∧ (t.w.trapReg.extractLsb' 17 15).toNat = 0 ∧
    t.w.trapReg.extractLsb' 32 32 = tr.info ∧
    (∀ x ∈ t.sp.windows, x.left = 0) ∧ (∀ k < 62, t.sp.s.getD k 0 = s.sp.s.getD k 0) ∧
    t.w.v = s.w.v ∧ t.w.p = s.w.p ∧ t.w.uconf = s.w.uconf ∧ t.w.seed = s.w.seed ∧ t.w.mflags = s.w.mflags ∧ t.wgs = s.wgs ∧
    (s.pools.logRing = none → t.mem = s.mem)

/-- R248: without a handler, or in one, a trap other than BREAKPOINT ends the grid: it is stopped, no wave of it has a
split left, and one record is written; BREAKPOINT without a handler stops the wave alone past the brk. -/
def Obligations.TrapWithoutHandler : Prop :=
  ∀ (s : State) (tr : TrapReq) (g : Grid), s.live = true → s.spec s.w.grid = false → look s.grids s.w.grid = some g → 0 < tr.code →
    ((g.d.handler = 0 ∨ s.w.handler ≠ none) → tr.code % 256 ≠ tcBreak →
      ((s.raise tr).grid s.w.grid).stopped = true ∧
      (∀ core ctx w, (s.raise tr).wave? core ctx = some w → w.grid = s.w.grid →
        (s.cores.map (·.1)).Nodup → (∀ c ∈ s.cores, (c.2.waves.map (·.1)).Nodup) → w.splits = [] ∧ w.deferred = []) ∧
      (tr.code < 256 ∨ tr.code % 256 ≠ tcData → ∃ bs, (s.raise tr).out = s.out ++ [.event bs])) ∧
    (g.d.handler = 0 → s.w.handler = none → tr.code % 256 = tcBreak →
      (s.raise tr).w.brk = true ∧ (s.raise tr).w.stop = .draining ∧ (s.raise tr).sp.pc = s.sp.pc + 8 ∧
      ((s.raise tr).grid s.w.grid).stopped = g.stopped)

/-- R249: trapret and trapret.retry restore S62:S63, end the handler and go on after the trapping instruction or at it;
outside a handler they trap PROTECTION. -/
def Obligations.HandlerReturn : Prop :=
  ∀ (s : State), s.live = true → s.sp.s.length = 64 →
    let a := s.sp.pair 62
    (s.w.handler ≠ none → a.extractLsb' 1 2 = 0#2 → a.extractLsb' 52 12 = 0#12 →
      (Runs .trapret s fun t => t.sp.pc = (a &&& ~~~7#64) + (if a.getLsbD 0 then 16 else 8) ∧ t.sp.low = false ∧
        t.sp.pair 62 = s.w.heldS ∧ t.w.handler = none ∧ t.w.trapReg = s.w.trapReg &&& ~~~0x100#64 ∧ t.sp.mask = s.sp.mask) ∧
      (Runs .trapretRetry s fun t => t.sp.pc = (a &&& ~~~7#64) ∧ t.sp.low = a.getLsbD 0 ∧
        t.sp.pair 62 = s.w.heldS ∧ t.w.handler = none ∧ t.w.trapReg = s.w.trapReg &&& ~~~0x100#64 ∧ t.sp.mask = s.sp.mask)) ∧
    (s.w.handler = none → exec .trapret s = .next (s.raise (trapI tcProtection 0)) ∧
      exec .trapretRetry s = .next (s.raise (trapI tcProtection 0)))

/-- R167 to R171: ld.a and ld.w load each performed thread's element, little-endian and extended, into the group; no byte
of any buffer changes.
R170, R171: st.a stores each performed thread's element, the higher thread prevailing, and changes no other byte. -/
def Obligations.LocalLoadsAndStores : Prop :=
  (∀ (s : State) (o : LocalOp) (i : Instr) (sp : Space),
    ((i = .ldA o ∧ sp = .a) ∨ (i = .ldW o ∧ sp = .w ∧ (s.w.role = .general ∨ s.w.role = .matrix))) →
    s.quiet → s.sound → i.wf = true →
    (∀ n : Fin 128, o.d = .v n → s.rowsFor n.val o.size.regs →
      AddrsOk (s.guardMask o.g) (s.localAddr o) o.size.bytes (s.g.size sp) →
      Runs i s fun t => SameOutside s t ∧ t.wgs = s.wgs ∧ t.sp.pc = s.sp.pc + 8 ∧ t.w.p = s.w.p ∧ t.sp.s = s.sp.s ∧
        (∀ m, (m < n.val ∨ n.val + o.size.regs ≤ m) → t.vreg m = s.vreg m) ∧
        ∀ j < o.size.regs, Written (s.guardMask o.g) (s.vreg (n.val + j)) (t.vreg (n.val + j)) fun k r =>
          r = loadedWord o.size o.sx (s.bufGet s.w.wg sp (s.localAddr o k) o.size.bytes) j) ∧
    (∀ n : Fin 64, o.d = .s n → (s.src o.a).isUni = true → (s.src o.b).isUni = true → s.guardMask o.g ≠ 0 →
      s.localAddr o 0 % o.size.bytes = 0 → s.localAddr o 0 + o.size.bytes ≤ s.g.size sp →
      Runs i s fun t => SameOutside s t ∧ t.wgs = s.wgs ∧ t.w.v = s.w.v ∧
        ∀ j < o.size.regs, t.sp.s.getD (n.val + j) 0 =
          loadedWord o.size o.sx (s.bufGet s.w.wg sp (s.localAddr o 0) o.size.bytes) j) ∧
    (∀ n : Fin 16, o.d = .wg n → s.g.wgPrev = [] → (s.src o.a).isUni = true → (s.src o.b).isUni = true → s.guardMask o.g ≠ 0 →
      s.localAddr o 0 % o.size.bytes = 0 → s.localAddr o 0 + o.size.bytes ≤ s.g.size sp →
      Runs i s fun t => SameOutside s t ∧ t.w.v = s.w.v ∧ t.sp.s = s.sp.s ∧ t.g.a = s.g.a ∧ t.g.w = s.g.w ∧ t.g.c = s.g.c ∧
        ∀ j < o.size.regs, t.g.wgr.getD (n.val + j) 0 =
          loadedWord o.size o.sx (s.bufGet s.w.wg sp (s.localAddr o 0) o.size.bytes) j) ∧
    (s.guardMask o.g = 0 → (o.d.isScalarReg = true → (s.src o.a).isUni = true ∧ (s.src o.b).isUni = true) →
      exec i s = .next s.advance)) ∧
  (∀ (s : State) (o : LocalOp), s.quiet → s.sound → (Instr.stA o).wf = true →
    AddrsOk (s.guardMask o.g) (s.localAddr o) o.size.bytes (s.g.size .a) →
    Runs (.stA o) s fun t => SameOutside s t ∧ t.sp.pc = s.sp.pc + 8 ∧ t.w.v = s.w.v ∧ t.w.p = s.w.p ∧ t.sp.s = s.sp.s ∧
      t.g.w = s.g.w ∧ t.g.c = s.g.c ∧ t.g.wgr = s.g.wgr ∧ t.g.bars = s.g.bars ∧
      ∀ a, Mem.get t.g.a a =
        storedByte (s.guardMask o.g) (s.localAddr o) (fun k => s.dataBytes o.d o.size k) (Mem.get s.g.a a) a)

/-- R156, R171: ld.c and st.c address a byte of one accumulator tile; ld.c of a tile no issued matrix instruction will
write reads what it holds, and st.c changes no byte but those it stores. -/
def Obligations.TileAccess : Prop :=
  ∀ (s : State) (o : TileOp), s.quiet → s.sound → (s.w.role ≠ .copy) → o.tile.toNat < s.g.tc.length →
    let addr (k : Nat) : Nat := ((s.src o.a).at k + o.off.signExtend 32 * BitVec.ofNat 32 o.size.bytes).toNat
    let place (k : Nat) : Nat := o.tile.toNat * 1024 + addr k
    AddrsOk (s.guardMask o.g) addr o.size.bytes 1024 →
    ((Instr.ldC o).wf = true → ∀ n : Fin 128, o.d = .v n → s.rowsFor n.val o.size.regs →
      s.busyDst s.cur.core s.w.wg o.tile.toNat = false →
      Runs (.ldC o) s fun t => SameOutside s t ∧ t.wgs = s.wgs ∧
        ∀ j < o.size.regs, Written (s.guardMask o.g) (s.vreg (n.val + j)) (t.vreg (n.val + j)) fun k r =>
          r = loadedWord o.size false (s.bufGet s.w.wg .c (place k) o.size.bytes) j) ∧
    ((Instr.stC o).wf = true →
      Runs (.stC o) s fun t => SameOutside s t ∧ t.w.v = s.w.v ∧ t.g.a = s.g.a ∧ t.g.w = s.g.w ∧
        ∀ a, Mem.get t.g.c a = storedByte (s.guardMask o.g) place (fun k => s.dataBytes o.d o.size k) (Mem.get s.g.c a) a)

/-- R169: the checks of a local access and the thread each reports: role, then alignment, then bounds; with no thread to
perform there is nothing to check. -/
def Obligations.LocalAccessTraps : Prop :=
  ∀ (s : State) (o : LocalOp) (i : Instr) (op : Nat) (sp : Space),
    ((i = .ldA o ∧ sp = .a ∧ op = 0x140) ∨ (i = .stA o ∧ sp = .a ∧ op = 0x141) ∨ (i = .ldW o ∧ sp = .w ∧ op = 0x142)) →
    o.d.isScalarReg = false → s.live = true →
    let part (k : Nat) : Prop := k < 32 ∧ (s.guardMask o.g).getLsbD k = true
    let reach := sp = .a ∨ s.w.role = .general ∨ s.w.role = .matrix
    let off (k : Nat) : Prop := s.localAddr o k % o.size.bytes ≠ 0
    let out (k : Nat) : Prop := s.g.size sp < s.localAddr o k + o.size.bytes
    (∀ k, ¬reach → part k → (∀ j < k, ¬part j) → exec i s = .next (s.raise { trapI tcDenied op with thread := k })) ∧
    (s.guardMask o.g = 0 → exec i s = .next s.advance) ∧
    (∀ k, reach → part k → off k → (∀ j < k, part j → ¬off j) →
      exec i s = .next (s.raise ⟨tcMisaligned, k, BitVec.ofNat 32 (s.localAddr o k), 0⟩)) ∧
    (∀ k, reach → (∀ j, part j → ¬off j) → part k → out k → (∀ j < k, part j → ¬out j) →
      exec i s = .next (s.raise ⟨tcProtection, k, BitVec.ofNat 32 (s.localAddr o k), 0⟩))

/-- R172, R173: atom.a and cas.a of one thread with an S or WG destination return the old word and store the new one; no other
byte of the buffer changes.
R172, R173, R170: atom.a and cas.a with a V destination or none act thread by thread in ascending order: on a word that several
threads address, each thread's old value is the result of the one before it; a null destination discards the old values, and no
other byte changes. -/
def Obligations.LocalAtomics : Prop :=
  (∀ (s : State) (g : Guard) (la : BitVec 4) (a b c : Opnd) (off : BitVec 8) (op : AtomOp) (n : Fin 64) (k : Fin 16),
    s.quiet → s.sound → (s.src a).isUni = true → (s.src b).isUni = true → (s.src c).isUni = true → s.guardMask g ≠ 0 →
    let ad (off : BitVec 8) : Nat := ((s.src a).at 0 + off.signExtend 32 * 4).toNat
    let old (off : BitVec 8) : Word := BitVec.ofNat 32 (leNat (s.bufGet s.w.wg .a (ad off) 4))
    let does (i : Opnd → Instr) (off : BitVec 8) (new : Word) : Prop :=
      ad off % 4 = 0 → ad off + 4 ≤ s.g.size .a →
      let stored (t : State) : Prop := t.w.v = s.w.v ∧ t.w.p = s.w.p ∧ SameOutside s t ∧
        BitVec.ofNat 32 (leNat (t.bufGet s.w.wg .a (ad off) 4)) = new ∧
        ∀ x, (x < ad off ∨ ad off + 4 ≤ x) → Mem.get t.g.a x = Mem.get s.g.a x
      (Runs (i (.s n)) s fun t => t.sp.s.getD n.val 0 = old off ∧ stored t) ∧
      ((∀ x ∈ s.g.wgPrev, x.reg ≠ k.val) → Runs (i (.wg k)) s fun t => t.g.wgr.getD k.val 0 = old off ∧ t.sp.s = s.sp.s ∧ stored t)
    let x := (s.src b).at 0
    does (fun d => .atomA g la d a b off op) off (match op with
      | .add => old off + x
      | .minS => if x.toInt < (old off).toInt then x else old off
      | .maxS => if (old off).toInt < x.toInt then x else old off
      | .minU => if x.toNat < (old off).toNat then x else old off
      | .maxU => if (old off).toNat < x.toNat then x else old off
      | .and => old off &&& x | .or => old off ||| x | .xor => old off ^^^ x | .exch => x
      | .addF => fopAdd Mods.plain 0 (old off) x) ∧
    does (fun d => .casA g la d a b c) 0 (if old 0 = x then (s.src c).at 0 else old 0)) ∧
  (∀ (s : State) (g : Guard) (la : BitVec 4) (a b c : Opnd) (off : BitVec 8) (op : AtomOp) (n : Fin 128),
    s.quiet → s.sound →
    let m := s.guardMask g
    let does (i : Opnd → Instr) (off : BitVec 8) (new : Nat → Word → Word) : Prop :=
      let ad (k : Nat) : Nat := ((s.src a).at k + off.signExtend 32 * 4).toNat
      let after (k n : Nat) : Word := (List.range n).foldl (fun w j => if m.getLsbD j = true ∧ ad j = ad k then new j w else w)
        (BitVec.ofNat 32 (leNat (s.bufGet s.w.wg .a (ad k) 4)))
      AddrsOk m ad 4 (s.g.size .a) →
      let stored (t : State) : Prop := SameOutside s t ∧ t.w.p = s.w.p ∧ t.sp.s = s.sp.s ∧
        (∀ k < 32, m.getLsbD k = true → BitVec.ofNat 32 (leNat (t.bufGet s.w.wg .a (ad k) 4)) = after k 32) ∧
        ∀ x, (∀ k < 32, m.getLsbD k = true → x < ad k ∨ ad k + 4 ≤ x) → Mem.get t.g.a x = Mem.get s.g.a x
      (s.rowFree n.val → Runs (i (.v n)) s fun t => stored t ∧ Written m (s.vreg n.val) (t.vreg n.val) (fun k r => r = after k k)) ∧
      Runs (i .null) s fun t => stored t ∧ t.w.v = s.w.v
    does (fun d => .atomA g la d a b off op) off (fun k old => BitVec.ofNat 32 (atomNew op 32 old.toNat ((s.src b).at k).toNat)) ∧
    does (fun d => .casA g la d a b c) 0 (fun k old => if old = (s.src b).at k then (s.src c).at k else old))

/-- R174, R179: tagset and tagclr write the named bits of a run of tile tags; tagwait and waitc go on when their condition
holds and otherwise wait at their bundle. -/
def Obligations.TagsAndWaits : Prop :=
  ∀ (s : State), s.quiet → s.sound →
    (∀ (o : TagOp) (clr : Bool), (s.src o.a).isUni = true →
      let base := ((s.src o.a).at 0).toNat
      let first := (if o.space = .c then base else base / 1024) + o.off.toNat
      (o.space ≠ .c → base % 1024 = 0) → first + o.cnt.toNat + 1 ≤ (s.g.tags o.space).length →
      let run (k : Nat) : Prop := first ≤ k ∧ k ≤ first + o.cnt.toNat
      let set (i : Instr) (v : Bool) : Prop := Runs i s fun t => SameOutside s t ∧ t.w.v = s.w.v ∧ t.g.a = s.g.a ∧
        t.g.w = s.g.w ∧ t.g.c = s.g.c ∧ ∀ k,
          (run k → t.g.tag o.space k = ⟨if o.v then v else (s.g.tag o.space k).v, if o.c then v else (s.g.tag o.space k).c,
            (s.g.tag o.space k).z⟩) ∧ (¬run k → t.g.tag o.space k = s.g.tag o.space k)
      let ready : Prop := ∀ k, run k → (o.v = true → (s.closed.g.tag o.space k).v = !clr) ∧
        (o.c = true → (s.closed.g.tag o.space k).c = !clr)
      set (.tagset o) true ∧ set (.tagclr o) false ∧
      (ready → exec (.tagwait o clr) s = .next s.closed.advance) ∧
      (¬ready → exec (.tagwait o clr) s =
        .next (s.closed.wait (.tiles o.space first (o.cnt.toNat + 1) o.v o.c (!clr))))) ∧
    (∀ (a : Opnd) (p : Path), (s.src a).isUni = true →
      (s.closed.w.count p ≤ ((s.src a).at 0).toNat → exec (.waitc a p) s = .next s.closed.advance) ∧
      (((s.src a).at 0).toNat < s.closed.w.count p →
        exec (.waitc a p) s = .next (s.closed.wait (.counter p ((s.src a).at 0).toNat))))

/-- R181, R182, R188: binit and bexp: what they leave of the barrier, and where binit traps.
R182: an arrival by barr: counted; completing the phase when every arrival and byte is in; an overrun when bytes are
missing from the count; an error when it exceeds the expected count. The wave's record takes the parity. -/
def Obligations.BarrierCounts : Prop :=
  (∀ (s : State) (k : BitVec 6) (a : Opnd) (nx : Bool), s.quiet → s.sound → k.toNat < s.g.bars.length → (s.src a).isUni = true →
    let n := ((s.src a).at 0).toNat
    let b := s.g.bar k.toNat
    (n ≤ 64 → Runs (.binit k a) s fun t =>
      t.bar s.w.wg k.toNat = ⟨false, n, 0, 0, 0, false, false, 0, 0, 0, 0, false, 0, none⟩ ∧
      t.w.recValid.getLsbD k.toNat = false ∧ ∀ j, j ≠ k.toNat → t.bar s.w.wg j = s.bar s.w.wg j) ∧
    (64 < n → exec (.binit k a) s = .next (s.raise (trapI tcProtection 0))) ∧
    (b.err = false → 1 ≤ b.exp → b.arr < b.exp → b.cnt (b.named nx) + n ≤ 2147483647 → -2147483648 ≤ b.cnt (b.named nx) + n →
      Runs (.bexp k a nx) s fun t =>
        t.bar s.w.wg k.toNat = (b.setCnt (b.named nx) (b.cnt (b.named nx) + n)).setSeen (b.named nx) true)) ∧
  (∀ (s : State) (k : BitVec 6), s.quiet → s.sound → k.toNat < s.g.bars.length → k.toNat < 48 → s.owesWg = false →
    let b := s.g.bar k.toNat
    b.err = false →
    (1 ≤ b.exp → b.arr + 1 < b.exp ∨ (b.arr + 1 = b.exp ∧ 0 < b.cnt b.ph) →
      Runs (.barr k) s fun t => t.bar s.w.wg k.toNat = { b with arr := b.arr + 1 } ∧
        t.w.recValid.getLsbD k.toNat = true ∧ t.w.recPar.getLsbD k.toNat = b.ph) ∧
    (b.arr + 1 = b.exp → b.cnt b.ph = 0 → Runs (.barr k) s fun t => Flips b (t.bar s.w.wg k.toNat)) ∧
    (b.arr + 1 = b.exp → b.cnt b.ph < 0 → Runs (.barr k) s fun t =>
      (t.bar s.w.wg k.toNat).err = true ∧ (t.bar s.w.wg k.toNat).cause = 1 ∧ (t.bar s.w.wg k.toNat).ph = b.ph) ∧
    (b.exp = 0 ∨ b.arr = b.exp → Runs (.barr k) s fun t =>
      (t.bar s.w.wg k.toNat).err = true ∧ (t.bar s.w.wg k.toNat).cause = 2 ∧ (t.bar s.w.wg k.toNat).arr = b.arr)) ∧
  (∀ (s : State) (k : BitVec 6), s.quiet → k.toNat < s.g.bars.length → s.owesWg = true → exec (.barr k) s = .next s.stall)

/-- R184, R188, R183: a wait passes where PH differs from its parity, taking LWTC, parks where it does not, and traps
while ERR is set; barrw is an arrival and then the wait.
R187, R189: btest reads the state word or a count; bbind binds, unbinds and makes its checks in order. -/
def Obligations.BarrierWaitsAndTests : Prop :=
  (∀ (s : State) (k : BitVec 6) (p : Option Opnd), s.quiet → s.sound → k.toNat < s.g.bars.length → k.toNat < 48 →
    (∀ a, p = some a → (s.src a).isUni = true) → (∀ h, s.w.handler = some h → h = s.cur.split) → s.owesWg = false →
    let b := s.g.bar k.toNat
    let q : Bool := match p with
      | some a => ((s.src a).at 0).getLsbD 0
      | none => if s.w.recValid.getLsbD k.toNat then s.w.recPar.getLsbD k.toNat else b.ph
    (b.err = false → b.ph ≠ q → Runs (.bwait k p) s fun t =>
      t.sp.pc = s.sp.pc + 8 ∧ t.sp.status = s.sp.status ∧ t.w.lwt = maxD s.w.lwt (b.lwtc q) ∧ t.wgs = s.wgs) ∧
    (b.err = false → b.ph = q → Runs (.bwait k p) s fun t =>
      t.sp.pc = s.sp.pc ∧ t.sp.status = .waiting (.barrier k.toNat q) ∧ t.wgs = s.wgs) ∧
    (b.err = true → exec (.bwait k p) s = .next (s.closed.raise (trapI tcOverrun (k.toNat + b.cause * 64)))) ∧
    (s.sp.arrived = false → b.err = false → 1 ≤ b.exp → b.arr + 1 < b.exp → Runs (.barrw k) s fun t =>
      t.sp.pc = s.sp.pc ∧ t.sp.status = .waiting (.barrier k.toNat b.ph) ∧ t.sp.arrived = true ∧
      t.bar s.w.wg k.toNat = { b with arr := b.arr + 1 }) ∧
    (s.sp.arrived = false → b.err = false → s.sp.status = .running → b.arr + 1 = b.exp → b.cnt b.ph = 0 →
      Runs (.barrw k) s fun t => t.sp.pc = s.sp.pc + 8 ∧ t.sp.arrived = false ∧ Flips b (t.bar s.w.wg k.toNat))) ∧
  (∀ (s : State) (k : BitVec 6), s.quiet → s.sound → k.toNat < s.g.bars.length →
    let b := s.g.bar k.toNat
    (∀ (n : Fin 64) (nx : Bool),
      (∃ x : Word, exec (.btest k (.s n) false false) s = .next ((s.writeS n.val x).advance) ∧
        x.getLsbD 0 = b.ph ∧ x.getLsbD 1 = b.err ∧ (x.extractLsb' 2 4).toNat = b.cause % 16 ∧ x.getLsbD 6 = b.bind.isSome ∧
        (x.extractLsb' 7 7).toNat = b.arr % 128 ∧ (x.extractLsb' 14 7).toNat = b.exp % 128 ∧ x.getLsbD 21 = b.seen b.ph ∧
        x.getLsbD 22 = s.w.recValid.getLsbD k.toNat ∧ x.getLsbD 23 = s.w.recPar.getLsbD k.toNat ∧
        (x.extractLsb' 24 8).toNat = 0) ∧
      exec (.btest k (.s n) true nx) s = .next ((s.writeS n.val (BitVec.ofInt 32 (b.cnt (b.named nx)))).advance)) ∧
    (∀ a : Opnd, (s.src a).isUni = true →
      let x := ((s.src a).at 0)
      (x = 0xFFFFFFFF#32 → Runs (.bbind k a) s fun t => t.bar s.w.wg k.toNat = { b with bind := none }) ∧
      (x ≠ 0xFFFFFFFF#32 → x.toNat % 1024 ≠ 0 → exec (.bbind k a) s = .next (s.raise ⟨tcMisaligned, 0, x, 0⟩)) ∧
      (x ≠ 0xFFFFFFFF#32 → x.toNat % 1024 = 0 → s.g.size .a < x.toNat + 1024 →
        exec (.bbind k a) s = .next (s.raise ⟨tcProtection, 0, x, 0⟩)) ∧
      (x ≠ 0xFFFFFFFF#32 → x.toNat % 1024 = 0 → x.toNat + 1024 ≤ s.g.size .a →
        (∀ j < s.g.bars.length, j ≠ k.toNat → (s.g.bar j).bind ≠ some x.toNat) →
        Runs (.bbind k a) s fun t => t.bar s.w.wg k.toNat = { b with bind := some x.toNat })))

/-- R192: kick: its checks in order; a count of 0 does nothing; with the input queue full the requests wait in order and
the C counter rises by the count; with room for all of them they enter it in address order and C falls again.
That the parts of a request are moved in ascending order is the model's choice (log entry 57).
R192, R191, R193: the copy engine: it reads a waiting request as an entry frees, checks it when it takes it, and moves
it in 16-byte parts. -/
def Obligations.CopyEngine : Prop :=
  (∀ (s : State) (a b : Opnd) (off : BitVec 8), s.quiet → s.sound → (s.src a).isUni = true → (s.src b).isUni = true →
    let addr := (s.src a).at 0 + off.signExtend 32 * 32
    let n := ((s.src b).at 0).toNat
    (n = 0 → exec (.kick a b off) s = .next s.advance) ∧
    (n ≠ 0 → addr.toNat % 32 ≠ 0 → exec (.kick a b off) s = .next (s.raise ⟨tcMisaligned, 0, addr, 0⟩)) ∧
    (addr.toNat % 32 = 0 → 64 < n → exec (.kick a b off) s = .next (s.raise ⟨tcProtection, 0, addr, 0⟩)) ∧
    (n ≠ 0 → addr.toNat % 32 = 0 → n ≤ 64 → s.g.size .a < addr.toNat + n * 32 →
      exec (.kick a b off) s = .next (s.raise ⟨tcProtection, 0, addr, 0⟩)) ∧
    (addr.toNat % 32 = 0 → n ≤ 64 → addr.toNat + n * 32 ≤ s.g.size .a →
      (0 < n → s.w.count .c + n ≤ 255 → (s.core s.cur.core).copyIn.length = 64 → Runs (.kick a b off) s fun t =>
        t.w.count .c = s.w.count .c + n ∧ t.sp.pc = s.sp.pc + 8 ∧ t.wgs = s.wgs ∧
        (t.core s.cur.core).copyIn = (s.core s.cur.core).copyIn ∧
        (t.core s.cur.core).kicks =
          (s.core s.cur.core).kicks ++ [⟨s.cur.ctx, s.w.idx, s.w.wg, s.w.grid, addr.toNat, n, s.w.nextAcc⟩]) ∧
      (0 < n → s.w.count .c + n ≤ 255 → (∀ a ∈ s.w.accs, a.path ≠ .c ∧ a.id < s.w.nextAcc) → (s.core s.cur.core).kicks = [] →
        (s.core s.cur.core).copyIn.length + n ≤ 64 → Runs (.kick a b off) s fun t =>
          t.w.count .c = 0 ∧ t.sp.pc = s.sp.pc + 8 ∧ t.wgs = s.wgs ∧ (t.core s.cur.core).kicks = [] ∧
          ∃ rs, (t.core s.cur.core).copyIn = (s.core s.cur.core).copyIn ++ rs ∧ rs.length = n ∧
            ∀ (k : Nat) (r : CopyReq), rs[k]? = some r → r.wg = s.w.wg ∧ r.grid = s.w.grid ∧ r.ctx = s.cur.ctx ∧ r.words.length = 4 ∧
              ∀ j < 4, r.words.getD j 0 = BitVec.ofNat 64 (leNat (s.bufGet s.w.wg .a (addr.toNat + 32 * k + 8 * j) 8))))) ∧
  (∀ (s : State) (core : Nat),
    let c := s.core core
    (∀ k ks, c.kicks = k :: ks → c.copyIn.length < 64 → Runs (.kickQueueRefill core) s fun t =>
      ∃ r, (t.core core).copyIn = c.copyIn ++ [r] ∧ r.wg = k.wg ∧ r.grid = k.grid ∧ r.words.length = 4 ∧
        (∀ j < 4, r.words.getD j 0 = BitVec.ofNat 64 (leNat (s.bufGet k.wg .a (k.addr + 8 * j) 8))) ∧
        (t.core core).kicks = if k.left ≤ 1 then ks else { k with addr := k.addr + 32, left := k.left - 1, acc := k.acc + 1 } :: ks) ∧
    (∀ r rest g, c.copyIn = r :: rest → look s.wgs r.wg = some g →
      (g.bars.length ≤ r.nb → Runs (.copyRequestTake core) s fun t =>
        (t.core core).copyIn = rest ∧ (t.core core).copyRun = c.copyRun ∧ t.wgs = s.wgs ∧ ∃ bs, t.out = s.out ++ [.event bs]) ∧
      (r.nb < g.bars.length → r.formed = false → Runs (.copyRequestTake core) s fun t =>
        (t.core core).copyIn = rest ∧ (t.core core).copyRun = c.copyRun ∧ (t.bar r.wg r.nb).err = true ∧
        (t.bar r.wg r.nb).cause = if (g.bar r.nb).err then (g.bar r.nb).cause else 7) ∧
      (r.nb < g.bars.length → r.formed = true → r.inside g = false → Runs (.copyRequestTake core) s fun t =>
        (t.core core).copyIn = rest ∧ (t.core core).copyRun = c.copyRun ∧ (t.bar r.wg r.nb).err = true ∧
        (t.bar r.wg r.nb).cause = if (g.bar r.nb).err then (g.bar r.nb).cause else 5) ∧
      (r.nb < g.bars.length → r.formed = true → r.inside g = true → r.mode ≠ 2 → Runs (.copyRequestTake core) s fun t =>
        (t.core core).copyIn = rest ∧ (t.core core).copyRun = c.copyRun ++ [{ r with total := r.count }] ∧ t.wgs = s.wgs)) ∧
    (∀ r g, c.copyRun.find? (·.id == r.id) = some r → look s.wgs r.wg = some g → Mem.wf g.a = true → r.granted ≠ 0 →
      r.mode = 0 → r.zc = 0 → r.ssp = 1 → r.dsp = 1 → r.swait = false → g.mayBegin .a r.begun (tilesOf (r.dst + 16 * r.next) 16) = true →
      Runs (.copyPartWrite core r.id) s fun t => (s.pools.logRing = none → t.mem = s.mem) ∧ ∀ a, Mem.get (t.wg r.wg).a a =
        if r.dst + 16 * r.next ≤ a ∧ a < r.dst + 16 * r.next + 16 then Mem.get g.a (r.src + 16 * r.next + (a - (r.dst + 16 * r.next)))
        else Mem.get g.a a))

/-- R198 to R202: strdef defines a stream at position 0; run-ahead fills the next entry, or asks for it, one at a time; strq hands out the
entries it takes in thread order and moves the position; strend releases the record. -/
def Obligations.StreamInstructions : Prop :=
  ∀ (s : State), s.quiet → s.sound →
    (∀ (n : Fin 8) (k : BitVec 5) (a : Opnd) (off : BitVec 8), (s.src a).isUni = true →
      let addr := ((s.src a).at 0 + off.signExtend 32 * 32).toNat
      let bs := s.bufGet s.w.wg .a addr 32
      let x := Strm.ofDesc addr bs s.nextTag
      addr % 32 = 0 → addr + 32 ≤ s.g.size .a → descZeros bs = true → x.idx = none →
      s.w.dependants k.toNat = [] → look s.w.streams k.toNat = none →
      (s.strRecords s.cur.core < 32 → Runs (.strdef (.p n) k a off) s fun t =>
        look t.w.streams k.toNat = some x ∧ x.pos = 0 ∧ x.q = [] ∧ t.sp.pc = s.sp.pc + 8 ∧
        (n.val ≠ 7 → t.w.p.getD n.val 0 = s.w.p.getD n.val 0 ||| s.sp.mask) ∧ t.wgs = s.wgs)) ∧
    (∀ (core ctx k i : Nat) (w : Wave) (x : Strm), s.wave? core ctx = some w → look w.streams k = some x → x.idx = none →
      w.stop = .none → x.out = [] → x.nextFill = some i →
      let a := (BitVec.ofInt 64 ((x.base : Int) + i * x.stride)).toNat
      (x.global = false → Runs (.streamFill core ctx k) s fun t => ∃ w' x', t.wave? core ctx = some w' ∧
        look w'.streams k = some x' ∧ look x'.q i = some (s.localElem w.wg (2 ^ x.esz) a) ∧ x'.pos = x.pos ∧ t.wgs = s.wgs ∧ t.mem = s.mem) ∧
      (∀ e, x.global = true → a % 2 ^ x.esz = 0 → s.walkFaults = [] →
        s.lookup core (s.grid w.grid).d.asid (BitVec.ofNat 64 a) false = .page e →
        isHostPa (e.pa? a) = false → Runs (.streamFill core ctx k) s fun t => t.wgs = s.wgs ∧ t.mem = s.mem ∧
          (∃ w' x', t.wave? core ctx = some w' ∧ look w'.streams k = some x' ∧ x'.out = [(i, a, false)] ∧ x'.q = x.q) ∧
          ∃ r, (t.slice (sliceOf (e.pa? a))).q = (s.slice (sliceOf (e.pa? a))).q ++ [r] ∧ r.pa = e.pa? a ∧
            r.for_ = .stream x.sid i (2 ^ x.esz) ∧ r.src = .engine core 1)) ∧
    (∀ (g : Guard) (la : BitVec 4) (n : Fin 128) (k : BitVec 5) (z : Size) (sx : Bool) (x : Strm),
      look s.w.streams k.toNat = some x → s.w.dependants k.toNat = [] → x.esz = z.code → s.w.count .q < 255 →
      n.val + z.regs ≤ 128 → s.rowsFor n.val z.regs → s.guardMask g ≠ 0 →
      (∀ t < 32, (s.guardMask g).getLsbD t = true → x.pos + below (s.guardMask g) t < x.count →
        x.ready s.tu (x.pos + below (s.guardMask g) t) ∧ (x.entry (x.pos + below (s.guardMask g) t)).fault = none) →
      Runs (.strq g la (.v n) .null k z sx) s fun t => t.sp.pc = s.sp.pc + 8 ∧ t.wgs = s.wgs ∧ t.mem = s.mem ∧
        (∃ x', look t.w.streams k.toNat = some x' ∧ x'.pos = x.pos + below (s.guardMask g) 32) ∧
        ∀ j < z.regs, Written (s.guardMask g) (s.vreg (n.val + j)) (t.vreg (n.val + j)) fun t r =>
          r = if x.count ≤ x.pos + below (s.guardMask g) t then 0
            else loadedWord z sx (x.entry (x.pos + below (s.guardMask g) t)).bytes j) ∧
    (∀ (g : Guard) (la : BitVec 4) (d c : Opnd) (k : BitVec 5) (z : Size) (sx : Bool) (x : Strm) (j : Nat),
      look s.w.streams k.toNat = some x → s.w.dependants k.toNat = [] → x.esz = z.code → s.w.count .q < 255 →
      (threads (s.guardMask g)).head? = some j → x.pos < x.count → look x.q x.pos = none → s.sp.pfx = none →
      Runs (.strq g la d c k z sx) s fun t => t.sp.pc = s.sp.pc ∧ t.w.v = s.w.v ∧ t.w.p = s.w.p ∧ t.wgs = s.wgs ∧ t.mem = s.mem) ∧
    (∀ k : BitVec 5, (look s.w.streams k.toNat = none ∨ s.w.dependants k.toNat = []) →
      Runs (.strend k) s fun t => look t.w.streams k.toNat = none ∧ t.sp.pc = s.sp.pc + 8 ∧ t.wgs = s.wgs) ∧
    (∀ k : BitVec 5, look s.w.streams k.toNat ≠ none → s.w.dependants k.toNat ≠ [] →
      exec (.strend k) s = .next (s.raise (trapI tcProtection 0)))

/-- R239, R87: spawn makes a wave of the same workgroup, of its role, priority and stage, with the first eight V registers
copied and a seed of its own, or writes a false predicate when no context is free; the wave is ready 16 cycles later. -/
def Obligations.SpawnResult : Prop :=
  ∀ (s : State) (n : Fin 8) (a : Fin 64) (b : Fin 128) (x : DWord), s.quiet → s.sound → b.val ≤ 120 →
    Lands s (s.sp.pair a.val) x →
    let c := s.core s.cur.core
    let idxs := s.liveIdx s.w.wg
    (c.freeCtx = [] → exec (.spawn (.p n) a b) s = .next ((s.writeP n.val 0 s.sp.mask).advance)) ∧
    (∀ ctx rest, c.freeCtx = ctx :: rest → s.w.g ≤ c.freeRows → idxs.length < 16 → s.stopPending s.w.wg = false →
      Runs (.spawn (.p n) a b) s fun t => t.sp.pc = s.sp.pc + 8 ∧
        (n.val ≠ 7 → t.w.p.getD n.val 0 = s.w.p.getD n.val 0 ||| s.sp.mask) ∧
        ∃ w, t.wave? s.cur.core ctx = some w ∧ w.grid = s.w.grid ∧ w.wg = s.w.wg ∧ w.n = s.w.n ∧ w.g = s.w.g ∧
          w.role = s.w.role ∧ w.prio = s.w.prio ∧ w.stage = s.w.stage ∧ w.idx ∉ idxs ∧ w.idx < 16 ∧ (∀ j < w.idx, j ∈ idxs) ∧
          (∀ j < 8, w.v.getD j .unwritten = s.vreg (b.val + j)) ∧ (∀ j, 8 ≤ j → w.v.getD j .unwritten = .unwritten) ∧
          w.seed = s.w.seed ^^^ (BitVec.ofNat 32 (w.idx + 1) * 0x9E3779B9#32) ∧ w.startAt = c.cyc.toNat + 16 ∧
          ∃ p, w.splits = [p] ∧ p.pc = s.sp.pair a.val ∧ p.mask = fullMask) ∧
    (∀ core ctx w, s.wave? core ctx = some w → w.startAt ≠ 0 → w.startAt ≤ (s.core core).cyc.toNat →
      Runs (.spawnedWaveReady core ctx) s fun t => ∃ w', t.wave? core ctx = some w' ∧ w' = { w with startAt := 0 })

/-- R167, R169, R175, R176, R319: a global load, store or atomic whose addresses are aligned and translated by a TLB is
sent with one element for each performed thread; a missing translation makes it wait for a walk; a misaligned address and
a translation fault trap for the lowest thread; pref.g changes no register and no byte.
R322, R323, R324, R348, R347: qpush, qpop and task with an aligned, translated queue are sent with one element for
each performed thread; a push with a predicate waits for its answers; an unaligned queue or entry traps MISALIGNED. -/
def Obligations.GlobalAccessIssue : Prop :=
  (∀ (s : State) (g : Guard) (la : BitVec 4) (a b c d : Opnd) (n : Fin 128) (off : BitVec 8) (z : Size) (sx wide : Bool)
    (op : AtomOp) (sc : Scope), s.quiet → s.guardMask g ≠ 0 →
    let ts := threads (s.guardMask g)
    let ld (k : Nat) : DWord := s.globalEa a b off z.bytes k
    let bytes := if wide then 8 else 4
    let at_ (off : BitVec 8) (k : Nat) : DWord := s.globalEa a .null off bytes k
    let looks (w : Bool) (va : DWord) : Lookup := s.lookup s.cur.core s.gr.d.asid va w
    let seen (w dv : Bool) (va : Nat → DWord) : Prop := ∀ k ∈ ts, ∃ p, looks w (va k) = .page p ∧
      (dv = true → isHostPa (p.pa? (va k).toNat) = false)
    let st : Instr := .stG ⟨g, la, d, a, b, off, z, sx⟩
    let does (i : Instr) (p : Path) (eop : ElemOp) (off : BitVec 8) (new : Opnd) : Prop :=
      (∀ k ∈ ts, (at_ off k).toNat % bytes = 0) → seen true (sc != .sy) (at_ off) → s.w.count p < 255 →
      Runs i s fun t => t.sp.pc = s.sp.pc + 8 ∧ Issued s t p eop (ts.map fun k => (k, at_ off k, bytesOfReg s new wide k))
    (∀ cg, (∀ k ∈ ts, (ld k).toNat % z.bytes = 0) → seen false false ld → s.w.count .g < 255 → s.rowsFor n.val z.regs →
      Runs (.ldG ⟨g, la, .v n, a, b, off, z, sx⟩ cg) s fun t => t.sp.pc = s.sp.pc + 8 ∧
        Issued s t .g (.load (cg || s.spec s.w.grid))
          ((if (s.src a).isUni && (s.srcHi a).isUni && (s.src b).isUni then ts.take 1 else ts).map fun k => (k, ld k, []))) ∧
    (∀ (cg : Bool) (m : Fin 64) (p : TlbE), (s.src a).isUni = true → (s.srcHi a).isUni = true → (s.src b).isUni = true →
      (ld 0).toNat % z.bytes = 0 → looks false (ld 0) = .page p → s.w.count .g < 255 →
      Runs (.ldG ⟨g, la, .s m, a, b, off, z, sx⟩ cg) s fun t => t.sp.pc = s.sp.pc + 8 ∧
        Issued s t .g (.load (cg || s.spec s.w.grid)) [(0, ld 0, [])]) ∧
    ((∀ k ∈ ts, (ld k).toNat % z.bytes = 0) → s.w.count .s < 255 →
      (seen true false ld → Runs st s fun t => t.sp.pc = s.sp.pc + 8 ∧
        Issued s t .s .store (ts.map fun k => (k, ld k, s.dataBytes d z k))) ∧
      (∀ k kind, k ∈ ts → looks true (ld k) = .fault kind → (∀ j ∈ ts, j < k → ∃ p, looks true (ld j) = .page p) →
        exec st s = .next (s.raise ⟨tcTranslation, k, w32 kind, ld k⟩)) ∧
      (∀ k, k ∈ ts → looks true (ld k) = .miss → (∀ j ∈ ts, j < k → ∃ p, looks true (ld j) = .page p) →
        s.walkRoom (s.cur.core / 16) = true → Runs st s fun t => t.sp.pc = s.sp.pc ∧ t.w.v = s.w.v ∧ t.mem = s.mem ∧
          (∃ x l, t.sp.status = .waiting (.translate x l none) ∧ x.elems.map (·.va) = ts.map ld) ∧
          ∃ w ∈ t.walks, w.cluster = s.cur.core / 16 ∧ w.asid = s.gr.d.asid ∧
            (s.walks = [] → w.va = (ld k).toNat / 65536 * 65536))) ∧
    (∀ k, k ∈ ts → (ld k).toNat % z.bytes ≠ 0 → (∀ j ∈ ts, j < k → (ld j).toNat % z.bytes = 0) →
      exec st s = .next (s.raise ⟨tcMisaligned, k, (ld k).extractLsb' 0 32, ld k⟩)) ∧
    (∀ l2, (∀ k ∈ ts, looks false (s.globalEa a b off 1 k) ≠ .miss) → Runs (.prefG g a b off l2) s fun t => t.mem = s.mem ∧ t.ring = s.ring ∧ t.wgs = s.wgs ∧ t.w.v = s.w.v ∧ t.w.p = s.w.p ∧
      t.sp.s = s.sp.s ∧ t.w.accs = s.w.accs ∧ t.sp.pc = s.sp.pc + 8) ∧
    does (.atomG g la .null a b off op wide sc) .s (.atom op) off b ∧
    does (.casG g la .null a b c wide sc) .s .cas 0 c ∧
    (s.rowsFor n.val (if wide then 2 else 1) →
      does (.atomG g la (.v n) a b off op wide sc) .g (.atom op) off b ∧ does (.casG g la (.v n) a b c wide sc) .g .cas 0 c)) ∧
  (∀ (s : State) (g : Guard) (la : BitVec 4) (a b c : Opnd) (n : Fin 128) (p : Fin 8) (z : Size) (e : TlbE), s.quiet →
    (s.src a).isUni = true → (s.srcHi a).isUni = true →
    let q := s.at64 a 0
    let ts := threads (s.guardMask g)
    let entry := s.at64 b 0
    let args (k : Nat) : List Byte := (List.range 8).flatMap fun j => leBytes 4 ((s.src (Opnd.plus c j)).at k).toNat
    let push := ts.map fun k => (k, q, s.dataBytes b z k)
    let tasks := ts.map fun k => (k, q, leBytes 8 entry.toNat ++ args k)
    (∀ k, ts.head? = some k → q.toNat % 128 ≠ 0 →
      exec (.qpush g .null a b z) s = .next (s.raise ⟨tcMisaligned, k, q.extractLsb' 0 32, q⟩) ∧
      exec (.qpop g la (.v n) a c z) s = .next (s.raise ⟨tcMisaligned, k, q.extractLsb' 0 32, q⟩) ∧
      exec (.task g .null a b c) s = .next (s.raise ⟨tcMisaligned, k, q.extractLsb' 0 32, q⟩)) ∧
    (s.guardMask g = 0 →
      exec (.qpush g .null a b z) s = .next s.advance ∧ exec (.qpop g la (.v n) a c z) s = .next s.advance) ∧
    (q.toNat % 128 = 0 → s.guardMask g ≠ 0 → s.lookup s.cur.core s.gr.d.asid q true = .page e → isHostPa (e.pa? q.toNat) = false →
      s.w.count .s < 255 → s.w.count .g < 255 →
      (Runs (.qpush g .null a b z) s fun t => t.sp.pc = s.sp.pc + 8 ∧ Issued s t .s (.push z.bytes true true) push) ∧
      (Runs (.qpush g (.p p) a b z) s fun t => t.sp.pc = s.sp.pc ∧ t.sp.status = .waiting (.access s.w.nextAcc) ∧
        Issued s t .g (.push z.bytes true false) push) ∧
      (s.rowsFor n.val z.regs → Runs (.qpop g la (.v n) a c z) s fun t => t.sp.pc = s.sp.pc + 8 ∧
        Issued s t .g (.pop z.bytes) (ts.map fun k => (k, q, []))) ∧
      ((s.src b).isUni = true → (s.srcHi b).isUni = true →
        (entry.toNat % 8 = 0 → (Runs (.task g .null a b c) s fun t => t.sp.pc = s.sp.pc + 8 ∧ Issued s t .s .task tasks) ∧
          Runs (.task g (.p p) a b c) s fun t => t.sp.pc = s.sp.pc ∧ t.sp.status = .waiting (.access s.w.nextAcc) ∧
            Issued s t .g .task tasks) ∧
        (∀ k, ts.head? = some k → entry.toNat % 8 ≠ 0 → exec (.task g .null a b c) s =
          .next (s.raise ⟨tcMisaligned, k, entry.extractLsb' 0 32, entry⟩)))))

/-- R330, R331, R332: a fence goes on once the writes of its wave have left their counters, SR_LWT is reached, the host
has acknowledged (system scope), and its loads are back; else its split waits, and goes on when that holds. -/
def Obligations.Fences : Prop :=
  ∀ (s : State),
    (∀ (sc : Scope) (i : Instr) (rel acq : Bool), s.quiet → (s.w.flying.map (·.id)).Nodup →
      ((i = .fenceRel sc ∧ rel = true ∧ acq = false) ∨ (i = .fenceAcq sc ∧ rel = false ∧ acq = true) ∨
        (i = .fenceFull sc ∧ rel = true ∧ acq = true)) →
      let ready : Prop := (rel = true → (∀ a ∈ s.w.flying, a.inW = false) ∧ reached (s.now s.cur.core) s.w.lwt = true ∧
          (sc = .sy → s.hostPending s.cur.core s.cur.ctx = [])) ∧
        (acq = true → ∀ a ∈ s.w.flying, a.inLd = true → a.done = true)
      let same (t : State) : Prop := SameOutside s t ∧ t.wgs = s.wgs ∧ t.w.v = s.w.v ∧ t.w.p = s.w.p ∧ t.sp.s = s.sp.s ∧ t.w.accs = s.w.accs
      (ready → Runs i s fun t => same t ∧ t.sp.pc = s.sp.pc + 8 ∧ t.sp.status = s.sp.status) ∧
      (¬ready → Runs i s fun t => same t ∧ t.sp.pc = s.sp.pc ∧ ∃ w ld h, t.sp.status = .waiting (.fence rel acq sc w ld h) ∧
        w = (if rel then (s.w.flying.filter Acc.inW).map (·.id) else []) ∧
        ld = (if acq then (s.w.flying.filter Acc.inLd).map (·.id) else []))) ∧
    (∀ (c : Cursor) (rel acq : Bool) (sc : Scope) (w ld h : List Nat), (s.withCur c).quiet →
      (s.withCur c).sp.status = .waiting (.fence rel acq sc w ld h) →
      let e := Instr.fenceLeaseTimeReached c
      let wv := (s.withCur c).w
      let done : Prop := (rel = true → (∀ a ∈ wv.flying, a.id ∉ w) ∧
          (sc = .sy → ∀ x ∈ s.hostAccs, x.tag ∉ h ∧ ¬(x.write = true ∧ x.wave = some (wv.wg, wv.idx) ∧ x.req.acc ∈ w)) ∧
          reached (s.now c.core) (s.withCur c).w.lwt = true) ∧
        (acq = true → ∀ a ∈ (s.withCur c).w.flying, a.id ∈ ld → a.done = true)
      (done → Runs e s fun t => (t.withCur c).sp.status = .running ∧ (t.withCur c).sp.pc = (s.withCur c).sp.pc + 8 ∧
        (t.withCur c).w.v = (s.withCur c).w.v ∧ t.mem = s.mem) ∧
      (¬done → exec e s = .next s))

/-- R315 to R317, R175: a walker's result enters the cluster's and the core's TLB, or, a fault, enters none; a waiting access
whose pages are all in a TLB is sent, and one whose walk faulted traps. R175 to R178, R36, R176, R401, R402, R410: a load whose
elements are all back gives its registers and leaves its counter; a store leaves its counter and raises SR_LWT; an access a
channel cannot serve for 100 ms fails; a location marked uncorrectable stays so whatever is stored; an error that a channel
corrects changes no location and steps its saturating counter. Log entries 55 and 84: where errors are kept, and the event that
brings a corrected one. -/
def Obligations.TranslationAndResponses : Prop :=
  (∀ (s : State),
    (∀ (walker : Nat) (x : Walk), (s.quadWalks (walker % 4))[walker / 4]? = some x →
      (∀ e, s.ownWalk x.who x.asid x.root x.va = .ok (.page e) → Runs (.pageTableWalk walker) s fun t => t.walks = s.walks.erase x ∧
        e ∈ (t.cluster x.cluster).tlb ∧ (∀ k, x.core = some k → e ∈ (t.core k).tlb) ∧ t.mem = s.mem ∧ t.wgs = s.wgs) ∧
      (∀ k m, s.ownWalk x.who x.asid x.root x.va = .ok (.fault k m) → Runs (.pageTableWalk walker) s fun t => t.walks = s.walks.erase x ∧
        (∀ c, (t.cluster c).tlb = (s.cluster c).tlb) ∧ (∀ c, (t.core c).tlb = (s.core c).tlb) ∧ t.mem = s.mem) ∧
      (∀ ps, s.ownWalk x.who x.asid x.root x.va = .error (.read x.who ps) → ∀ pa ∈ ps, s.asks.any (·.covers x.who pa.1 pa.2) = false →
        Runs (.pageTableWalk walker) s fun t => t.walks = s.walks ∧ t.mem = s.mem ∧ ∃ a ∈ t.asks, a.pa = pa.1 ∧ a.len = pa.2 ∧ a.op = .read ∧
          a.src = .walker x.cluster)) ∧
    (∀ (c : Cursor) (a : Acc) (la : Nat), (s.withCur c).live = true →
      let found (w : Bool) (e : Elem) : Prop := (∃ p, s.lookup c.core (s.withCur c).gr.d.asid e.va w = .page p) ∧
        ∀ w ∈ s.walks, w.cluster = c.core / 16 → e.va.toNat / 65536 * 65536 ≠ w.va
      (s.withCur c).w.stop = .none →
      (∀ k kind, (s.withCur c).sp.status = .waiting (.translate a la (some (k, kind))) → kind ≤ 3 → a.op = .store →
        (∀ h, (s.withCur c).w.handler = some h → h = c.split) → (∀ e ∈ a.elems, e.t < k → found a.op.writes e) →
        ∀ e, a.elems.find? (fun e => e.t == k) = some e →
        exec (.globalAccessTranslated c) s = .next (((s.withCur c).modSp fun p => { p with status := .running }).raise
          ⟨tcTranslation, k, w32 kind, e.va⟩)) ∧
      ((s.withCur c).sp.status = .waiting (.translate a la none) → a.path = .s → a.op = .store →
        (∀ e ∈ a.elems, found true e) → a.genRegs = [] → (s.withCur c).w.count .s < 255 →
        Runs (.globalAccessTranslated c) s fun t => (t.withCur c).sp.pc = (s.withCur c).sp.pc + 8 ∧
          (t.withCur c).sp.status = .running ∧
          IssuedAs a.id (s.withCur c) t .s .store (a.elems.map fun e => (e.t, e.va, e.data))))) ∧
  (∀ (s : State) (core ctx : Nat) (w : Wave) (a : Acc), s.wave? core ctx = some w → w.accs = [a] → a.done = false →
    (∀ e ∈ a.elems, e.done = true ∧ e.back ≤ s.tu) → w.splits ≠ [] →
    (∀ (n : Fin 128) (cg : Bool) (p : Split) (x : Window) (z : Size), a.path = .g → a.op = .load cg → a.dst = .v n → a.uniform = false →
      a.pred = .null → a.size = z.code → a.regs = z.regs → n.val + z.regs ≤ 128 → w.v.length = 128 → 2 ≤ a.elems.length →
      a.mask ≠ 0 → (∀ e ∈ a.elems, e.err = false) → (a.elems.map (·.t)).Nodup →
      (∀ k < 32, a.mask.getLsbD k = true → ∃ e ∈ a.elems, e.t = k) →
      w.splits = [p] → p.status = .running → p.windows = [x] → x.acc = a.id → x.delivered = false → x.held = [] →
      Runs (.loadResponse core ctx a.id) s fun t => ∃ w', t.wave? core ctx = some w' ∧ w'.accs = [] ∧ t.mem = s.mem ∧
        (∀ m, m < n.val ∨ n.val + z.regs ≤ m → w'.v.getD m .unwritten = w.v.getD m .unwritten) ∧
        ∀ j < z.regs, Written a.mask (w.v.getD (n.val + j) .unwritten) (w'.v.getD (n.val + j) .unwritten) fun k r =>
          ∃ e ∈ a.elems, e.t = k ∧ r = loadedWord z a.sx e.ret j) ∧
    (a.path = .s → a.op = .store → Runs (.storeCompletion core ctx a.id) s fun t => ∃ w', t.wave? core ctx = some w' ∧
      w'.accs = [] ∧ w'.lwt = maxD w.lwt a.lastTime ∧ w'.v = w.v ∧ t.mem = s.mem) ∧
    (∀ (chan idx : Nat) (c : Chan) (h : ChanAcc) (e : Elem), look s.chans chan = some c → c.held[idx]? = some h → h.req.for_ = .elem →
      s.ready.getLsbD (8 + chan / 8) = false → h.since + 100000000 * Config.tuPerNs ≤ s.tu → h.req.core = core → h.req.ctx = ctx →
      h.req.acc = a.id → a.elems[h.req.elem]? = some e →
      Runs (.channelAccessTimeout chan idx) s fun t => Answered t h.req false (a.path == .g) [] ∧
        (t.slice (sliceOf h.req.pa)).q.contains h.req = false) ∧
    (∀ pa, (Runs (.uncorrectableError (.dram pa)) s fun t => t.bad pa 1 = true ∧ t.mem = s.mem ∧ t.wgs = s.wgs) ∧
      ∀ q bs, (s.store q bs).badMem = s.badMem) ∧
    (∀ (ch : Nat) (c : Chan), ch < 64 → look s.chans ch = some c → Runs (.uncorrectableError (.corrected ch)) s fun t =>
      t.badMem = s.badMem ∧ (look t.chans ch).map (·.corrected) =
        some (if c.corrected = BitVec.allOnes 32 then BitVec.allOnes 32 else c.corrected + 1)))

/-- R309, R312, R313, R166, R319, R172: a request at a present line is performed and leaves its queue: a load returns the
bytes, a store writes them, an atomic returns the old value and writes the new; a miss enters a free way; a fill serves
its list; a line enters the L1. R322 to R324, R347: an element of qpush, qpop or tpush is one act on the header and its slot: it
fills the slot at the tail or empties the one at the head and raises that count; a full queue fails it, and raises the drop count
where no predicate is named; an empty one gives zeros; a bad header fails it, stays as it is, and is recorded once. -/
def Obligations.SliceRequests : Prop :=
  ∀ (s : State) (r : Req) (a : Acc) (e : Elem), s.memOk → s.badMem = [] → s.acc? r.core r.ctx r.acc = some a → s.elem? r = some e →
    r.for_ = .elem → e.pa = r.pa → s.inRing r.pa = false → s.rbase = none →
    let k := sliceOf r.pa
    let line := r.pa / 128
    let old := s.physs r.pa e.len
    let chain := s.chainOf r.core r.ctx
    let before (y : Req) : Prop := y.src = r.src ∧ y.pa / 128 = line ∧ y.seq < r.seq
    (∀ (pos : Nat) (l : L2Line), (s.slice k).q[pos]? = some r → s.inOrder k pos r = true → s.outranked k r = false →
      (s.slice k).lines.find? (·.line == line) = some l → l.miss = none → l.claim = none →
      let runs (p : State → Prop) : Prop := Runs (.sliceRequest k pos) s fun t => QLeft (s.slice k).q (t.slice k).q pos ∧ p t
      (∀ cg, a.op = .load cg → runs fun t => t.mem = s.mem ∧ Answered t r true false (s.agentRead chain r.pa e.len)) ∧
      (a.op = .store → runs fun t => Stored s t r.pa e.data ∧ Answered t r true false []) ∧
      (∀ op, a.op = .atom op → runs fun t => Answered t r true false old ∧
        Stored s t r.pa (leBytes e.len (atomNew op (8 * e.len) (leNat old) (leNat e.data)))) ∧
      (a.op = .cas → runs fun t => Answered t r true false old ∧
        Stored s t r.pa (leBytes e.len (if leNat old = leNat e.cmp then leNat e.data else leNat old))) ∧
      let wd (i : Nat) := leNat (s.physs (r.pa + i) 4)
      let count := (wd 4 + 2 ^ 32 - wd 0) % 2 ^ 32
      let slot (i lg size : Nat) := r.pa + 128 + i % 2 ^ lg * size
      let pushes (lg size : Nat) (drop : Prop) (bs : List Byte) : Prop :=
        (count < 2 ^ lg → s.lineIn (slot (wd 4) lg size / 128) = true →
          runs fun t => Answered t r true false [] ∧ Pushed s t r.pa (slot (wd 4) lg size) (wd 4) bs) ∧
        (2 ^ lg ≤ count → runs fun t => Answered t r false false [] ∧
          (drop → Stored s t (r.pa + 8) (leBytes 4 ((wd 8 + 1) % 2 ^ 32))) ∧ (¬drop → t.mem = s.mem))
      (∀ size c drop lg, a.op = .push size c drop → size ∈ [4, 8, 16] → e.data.length = size →
        s.queueAt r.pa (qCode size) size lg e.room → pushes lg size (drop = true) e.data) ∧
      (∀ lg, a.op = .task → e.data.length = 40 → s.queueAt r.pa 3 64 lg e.room →
        pushes lg 64 (a.pred = .null) (e.data.take 8 ++ leBytes 4 (wd 4) ++ List.replicate 20 0 ++ e.data.drop 8)) ∧
      (∀ size lg, a.op = .pop size → size ∈ [4, 8, 16] → s.queueAt r.pa (qCode size) size lg e.room →
        (count ≠ 0 → s.lineIn (slot (wd 0) lg size / 128) = true → runs fun t =>
          Answered t r true false (s.physs (slot (wd 0) lg size) size) ∧ Stored s t r.pa (leBytes 4 ((wd 0 + 1) % 2 ^ 32))) ∧
        (count = 0 → runs fun t => Answered t r false false (List.replicate size 0) ∧ t.mem = s.mem)) ∧
      (∀ size, (∃ c drop, a.op = .push size c drop) ∨ a.op = .pop size → size ∈ [4, 8, 16] → (∀ lg, ¬s.queueAt r.pa (qCode size) size lg e.room) →
        s.pools.logRing = none → (∀ x ∈ a.elems, x.badHdr = false) → runs fun t =>
          Answered t r false false (if a.op = .pop size then List.replicate size 0 else []) ∧ t.mem = s.mem ∧
          t.out = (s.recordWave r.core r.ctx tcEncoding e.va true false 0).out)) ∧
    (∀ (pos : Nat), (s.slice k).q[pos]? = some r → s.inOrder k pos r = true → s.outranked k r = false →
      (∀ l ∈ (s.slice k).lines, l.line ≠ line) →
      (∃ w < 16, (s.slice k).lent w = false ∧ ∀ y ∈ (s.slice k).lines, l2Set y.line = l2Set line → y.way ≠ w) →
      Runs (.sliceRequest k pos) s fun t => QLeft (s.slice k).q (t.slice k).q pos ∧ t.mem = s.mem ∧
        ∃ l ∈ (t.slice k).lines, l.line = line ∧ l.miss = some [r]) ∧
    (∀ (l : L2Line) (cg : Bool), (s.slice k).lines.find? (·.line == line) = some l → l.miss = some [r] → a.op = .load cg →
      s.chanReady (line * 128) = true → s.fetchTurn line = true → Runs (.l2MissFill k line) s fun t =>
        Answered t r true false (s.agentRead chain r.pa e.len) ∧ ∀ x ∈ (t.slice k).lines, x.line = line → x.miss = none) ∧
    (∀ (core idx : Nat) (f : L1Line), (s.core core).fills[idx]? = some f → f.used ≤ s.tu → Runs (.l1Fill core idx) s fun t =>
      (∃ x ∈ (t.core core).l1, x.line = f.line ∧ x.data = f.data ∧ x.expiry = f.expiry) ∧
      (t.core core).fills = (s.core core).fills.eraseIdx idx ∧ t.mem = s.mem ∧
      ∀ x ∈ (t.core core).l1, x.line = f.line → x.data = f.data) ∧
    (∀ (cluster idx : Nat) (cl : Claim) (op : AtomOp), cluster = r.core / 16 → (s.cluster cluster).atomQ[idx]? = some r →
      r.due ≤ s.tu → (∀ y ∈ (s.cluster cluster).atomQ.take idx, ¬before y) → (∀ y ∈ (s.slice k).q, ¬before y) →
      (∀ l ∈ (s.slice k).lines, ∀ y ∈ l.miss.getD [], ¬before y) → a.op = .atom op →
      s.claimed cluster line = some cl → cl.used ≤ s.tu → Runs (.clusterAtomic cluster idx) s fun t => Answered t r true false old ∧
        Stored s t r.pa (leBytes e.len (atomNew op (8 * e.len) (leNat old) (leNat e.data))) ∧
        ∃ e', t.elem? r = some e' ∧ e'.ctime = maxD s.dtc cl.lease) ∧
    (∀ (cluster : Nat) (cl : Claim) (l : L2Line), s.claimed cluster line = some cl →
      (s.slice k).lines.find? (·.line == line) = some l → l.claim = some cluster →
      let gone (t : State) : Prop := t.claimed cluster line = none ∧ t.mem = s.mem ∧
        ∀ x ∈ (t.slice k).lines, x.line = line → x.claim = none
      (cl.used ≤ s.tu → (∃ y ∈ (s.slice k).q, y.pa / 128 = line ∧ y.due ≤ s.tu) → Runs (.clusterLineRecall cluster line) s gone) ∧
      (cl.used + 1000 * Config.tuPerNs ≤ s.tu → Runs (.clusterClaimTimeout cluster line) s gone))

/-- R204, R205, R225 to R232: each instruction of group 0xA enters the array's queue with what it read at issue; the roles that
may not issue it trap ROLE; mfence goes on; mwait goes on at its threshold and otherwise waits. Log entry 60: what an entry
holds from its issue on. -/
def Obligations.MatrixIssue : Prop :=
  ∀ (s : State) (g : Guard) (a b c : Opnd) (n : BitVec 5), s.quiet → s.sound →
    let ai := ((s.src a).at 0).toNat
    let bi := ((s.src b).at 0).toNat
    let go (i : Instr) (p : MEntry → Prop) : Prop := Runs i s fun t => Queued s t true p
    let all := s.converged g = true ∧ s.arrayRoom
    (∀ (sp : Bool) (fbr : Fin 64) (kk : BitVec 4),
      let i : Instr := if sp then .mmaSp ⟨g, fbr, a, b, c, n, kk⟩ else .mma ⟨g, fbr, a, b, c, n, kk⟩
      let fb := s.sp.pair fbr.val
      let k := 16 * (kk.toNat + 1)
      (s.w.role = .copy ∨ s.w.role = .epilogue → exec i s = .next (s.raise (trapI tcRole (if sp then 0x281 else 0x280)))) ∧
      (s.w.role = .general ∨ s.w.role = .matrix → all → (s.src a).isUni = true → (s.src b).isUni = true → (s.src c).isUni = true →
        fbValid fb k sp false = true → ai % 16 = 0 → bi % 32 = 0 → ai + bytesA fb k ≤ s.g.size .a → bi + bytesB fb k sp ≤ s.g.size .w →
        n.toNat < s.g.tc.length → s.scaleOk fb →
        go i fun e => e.kind = .mma sp ∧ e.fb = fb ∧ e.sa = ai ∧ e.sb = bi ∧ e.offs = (s.src c).at 0 ∧ e.tile = n.toNat ∧ e.k = k ∧
          e.bindA = (if fbSidA fb = 255 then none else (look s.g.scl (fbSidA fb)).map fun x => (fbSidA fb, x)) ∧
          e.bindB = (if fbSidB fb = 255 then none else (look s.g.scl (fbSidB fb)).map fun x => (fbSidB fb, x)))) ∧
    (∀ (la : BitVec 4) (d va vb : Fin 128) (fbr : Fin 64) (kk : BitVec 2) (l : List Word),
      let k := 16 * (kk.toNat + 1)
      let ad (t : Nat) : Word := (s.vreg vb.val).at t
      s.w.role = .general ∨ s.w.role = .matrix → all → fbValid (s.sp.pair fbr.val) k false true = true → s.rowsFor d.val 16 →
      l.length ≤ 4 → (∀ t < 32, ad t ≠ 0xFFFFFFFF#32 → (ad t).toNat % 1024 = 0 ∧
        (ad t).toNat + bytesB (s.sp.pair fbr.val) k false ≤ s.g.size .w ∧ ad t ∈ l) →
      go (.vmx g la d va vb fbr kk) fun e => ∃ x as, e.kind = .vmx x as ∧ e.k = k ∧ (∀ t < 32, as.getD t 0 = ad t) ∧
        ∀ i < k / 2, ∀ t < 32, (x.getD i []).getD t 0 = (s.vreg (va.val + i)).at t) ∧
    (s.w.role = .copy → exec .mfence s = .next (s.raise (trapI tcRole 0x283)) ∧
      exec (.mwait a) s = .next (s.raise (trapI tcRole 0x284))) ∧
    (s.w.role ≠ .copy →
      (Runs .mfence s fun t => SameOutside s t ∧ t.wgs = s.wgs ∧ t.w.v = s.w.v ∧ t.w.p = s.w.p ∧ t.sp.s = s.sp.s ∧ t.sp.pc = s.sp.pc + 8 ∧
        (∀ u ∈ (t.core s.cur.core).unf, u.wg = s.w.wg → u.by_ = s.w.idx ∨ s.w.idx ∈ u.known → s.w.idx ∈ u.seen) ∧
        (∀ u ∈ (s.core s.cur.core).unf, u.by_ ≠ s.w.idx → s.w.idx ∉ u.known → u ∈ (t.core s.cur.core).unf)) ∧
      ((s.src a).isUni = true → s.w.mfault = none →
        (s.w.count .m ≤ ai → exec (.mwait a) s = .next s.closed.advance) ∧
        (ai < s.w.count .m → exec (.mwait a) s = .next (s.closed.wait (.mwait ai)))) ∧
      (∀ m : BitVec 5, s.arrayRoom → n.toNat + m.toNat + 1 ≤ s.g.tc.length →
        go (.azero n m) fun e => e.kind = .azero ∧ e.tile = n.toNat ∧ e.cnt = m.toNat + 1) ∧
      (∀ (act : Act) (zc : Bool) (f : EpiFmt), all → (s.src a).isUni = true → (s.src b).isUni = true →
        (zc = true → n.toNat % epiTiles zc f = 0) → ai % 16 = 0 → bi % 32 = 0 → ai + epiBytes zc f ≤ s.g.size .a →
        bi + 160 ≤ s.g.size .a → n.toNat + epiTiles zc f ≤ s.g.tc.length →
        go (.aepi g n a b act zc f) fun e => e.kind = .aepi act zc f ∧ e.dst = ai ∧ e.sb = bi ∧ e.tile = n.toNat) ∧
      (∀ (la : BitVec 4) (d : Fin 128) (i32 : Bool), all → (s.src a).isUni = true → n.toNat < s.g.tc.length → s.rowsFor d.val 2 →
        go (.amax g la d a n i32) fun e => e.tile = n.toNat ∧ ∃ xs, e.kind = .amax i32 ((s.src a).at 0) xs ∧
          ∀ t < 32, xs.getD t (0, 0) = ((s.vreg d.val).at t, (s.vreg (d.val + 1)).at t)) ∧
      (∀ (id : BitVec 8) (r : Fin 64), ((s.core s.cur.core).mq.filter fun x => !x.started).length < 32 →
        let desc := (s.src b).at 0
        let addr := s.sp.pair r.val
        (Runs (.sclinv (some id)) s fun t => Queued s t false fun e => e.kind = .sclinv (some id.toNat)) ∧
        (Runs (.sclinv none) s fun t => Queued s t false fun e => e.kind = .sclinv none) ∧
        ((s.src b).isUni = true → (desc.extractLsb' 16 2).toNat < 2 → (desc.extractLsb' 19 13).toNat = 0 →
          addr.toNat % sclSize desc = 0 → (sclLocal desc = true → addr.toNat < s.g.size .w) →
          Runs (.scldef id r b) s fun t => Queued s t false (fun e => e.kind = .scldef id.toNat) ∧
            look t.g.scl id.toNat = some ⟨addr, desc⟩)))

/-- R94, R205, R207, R211 to R214, R216, R219, R220, R224, R227, R228, R230, R231: an i8 mma whose tags, current and place in the queue let it
start takes for each element its tile's word plus the sum of products; the float forms of mma, mma.sp and vmx take R94's sums in
their order, aepi scales, activates and converts each element, and amax keeps the greatest with the lowest index; one whose A tiles are all zero-flagged ends and
sets ZSKIP; a completing mma writes its tile, adds its flags and leaves its counter; a fault leaves the tile. -/
def Obligations.MatrixEvents : Prop :=
  ∀ (s : State) (core qid : Nat) (e : MEntry) (rest : List MEntry), (s.core core).mq = e :: rest → e.qid = qid →
    (∀ x ∈ rest, x.qid ≠ qid) →
    (∀ sp, e.kind = .mma sp → e.started = false → s.ahead core e = [] → s.tagsReady e = true →
      (s.skips e = true → Runs (.matrixStart core qid) s fun t => t.mEntry? core qid = none ∧ (∀ g, (t.wg g).c = (s.wg g).c) ∧
        ∀ w, s.wave? core e.ctx = some w → w.splits ≠ [] → ∃ w', t.wave? core e.ctx = some w' ∧ w'.mflags = w.mflags ||| 32#32) ∧
      (s.skips e = false → sp = false → e.grant = true → fbAF e.fb = 8 → fbBF e.fb = 8 → fbPrec e.fb = 0 → fbPro e.fb = false → e.k % 16 = 0 →
        e.bindA = none → e.bindB = none → e.olds = [] →
        Runs (.matrixStart core qid) s fun t => ∃ e', t.mEntry? core qid = some e' ∧ e'.started = true ∧ t.wgs = s.wgs ∧
          ∀ i < 16, ∀ j < 16, (e'.result.getD 0 []).getD (16 * i + j) 0 = BitVec.ofInt 32
            (((s.tileWords e e.tile).getD (16 * i + j) 0).toInt + ((List.range e.k).map fun k =>
              (s.byteAt e.wg .a (e.sa + i * e.k + k)).toInt * s.planeInt8 e.wg e.sb k j).sum))) ∧
    (let started (p : MEntry → Prop) : Prop := Runs (.matrixStart core qid) s fun t => ∃ e', t.mEntry? core qid = some e' ∧ e'.started = true ∧ p e'
      let af := fbAF e.fb
      let bf := fbBF e.fb
      let plain : Prop := fbBL e.fb = 0 ∧ fbPro e.fb = false ∧ fbPrec e.fb = 0 ∧ e.k % 16 = 0 ∧ e.bindA = none ∧ e.bindB = none
      let tile (i j : Nat) : Word := (s.tileWords e e.tile).getD (16 * i + j) 0
      let dot (pr : Nat → FV) (c : Nat) : Word := w32 (floatSum (2 ^ fbPI e.fb) (e.k / 16) pr c (e.k / 16)).2
      e.started = false → s.ahead core e = [] → s.tagsReady e = true → s.skips e = false → e.grant = true → e.olds = [] →
      (plain → af < 4 → bf < 4 →
        let a (i k : Nat) : FV := floatOf af (s.rowCode e.wg e.sa (fmtBits af / 8) e.k i k)
        (e.kind = .mma false → started fun e' => ∀ i < 16, ∀ j < 16, (e'.result.getD 0 []).getD (16 * i + j) 0 =
          dot (fun k => xmul (a i k) (floatOf bf (s.planeCode e.wg e.sb (fmtBits bf) k j))) (tile i j).toNat) ∧
        (e.kind = .mma true → started fun e' => ∀ i < 16, ∀ j < 16, (e'.result.getD 0 []).getD (16 * i + j) 0 =
          dot (fun k => xmul (a i k) (((s.keptCode e.wg e.sb (fmtBits bf) (2 ^ fbSPN e.fb) k j).map (floatOf bf)).getD (.fin false 0 0))) (tile i j).toNat) ∧
        (∀ x as, e.kind = .vmx x as → started fun e' => ∀ j < 16, ∀ t < 32, (e'.result.getD j []).getD t 0 =
          if as.getD t 0 = 0xFFFFFFFF#32 then 0 else dot (fun k => xmul (floatOf af (el16 ((x.getD (k / 2) []).getD t 0) (k % 2)))
            (floatOf bf (s.planeCode e.wg (as.getD t 0).toNat (fmtBits bf) k j))) 0)) ∧
      (plain → af = 8 → bf = 8 → e.kind = .mma true → started fun e' => ∀ i < 16, ∀ j < 16, (e'.result.getD 0 []).getD (16 * i + j) 0 =
        BitVec.ofInt 32 ((tile i j).toInt + ((List.range e.k).map fun k => (s.byteAt e.wg .a (e.sa + i * e.k + k)).toInt *
          ((s.keptCode e.wg e.sb 8 (2 ^ fbSPN e.fb) k j).map int8).getD 0).sum)) ∧
      (∀ act f, e.kind = .aepi act false f → e.cnt = 1 → e.bindA = none → e.bindB = none → started fun e' => ∀ i < 16, ∀ j < 16,
        let par (o : Nat) : FV := decode f32 (leNat ((List.range 4).map fun x => s.byteAt e.wg .a (e.sb + o + 4 * j + x)))
        let v : FV := if (s.byteAt e.wg .a (e.sb + 128)).getLsbD 0 then decode f32 (roundTo f32 Mods.plain 0 (XV.ofInt (tile i j).toInt))
          else decode f32 (tile i j).toNat
        let y := roundTo f32 Mods.plain 0 (xadd false (xmul v (par 0)) (par 64)).toX
        ((e'.result.getD 0 []).drop ((16 * i + j) * epiSize f)).take (epiSize f) =
          (leBytes (epiSize f) (epiStored f (activated act y))).map fun b => b.setWidth 32) ∧
      (∀ i32 base init, e.kind = .amax i32 base init → e.bindA = none → e.bindB = none → started fun e' => ∀ t < 32,
        let cands := init.getD t (0, 0) :: (List.range 16).map fun j => (tile (t % 16) j, base + BitVec.ofNat 32 j)
        let w := ((e'.result.getD 0 []).getD t 0, (e'.result.getD 1 []).getD t 0)
        w ∈ cands ∧ ∀ c ∈ cands, amaxGt i32 c.1 w.1 = false ∧ (amaxGt i32 w.1 c.1 = false → w.2.toNat ≤ c.2.toNat))) ∧
    (∀ id, e.kind = .scldef id → e.started = false → s.ahead core e = [] → Runs (.matrixStart core qid) s fun t => t.mEntry? core qid = none ∧
      (∀ l ∈ (t.core core).scl, l.id ≠ sclKey e.wg id) ∧ ∀ l ∈ (s.core core).scl, l.id ≠ sclKey e.wg id → l ∈ (t.core core).scl) ∧
    (∀ x, e.started = false → (s.sclMissing core e).find? (fun y => sclKey e.wg y.1 == sclKey e.wg x.1 && y.2.2 / 128 == x.2.2 / 128 && !s.sclOutside e y) = some x →
      sclLocal x.2.1.desc = true →
      Runs (.scaleLineFill core (sclKey e.wg x.1) (x.2.2 / 128)) s fun t => ∃ l, (t.core core).sclHit e.wg x.1 x.2.2 true = some l ∧
        ∀ i < 128, l.data.getD i 0 = s.byteAt e.wg .w (x.2.2 / 128 * 128 + i)) ∧
    (∀ sp g, e.kind = .mma sp → e.started = true → e.readDone = false → e.fault = none → look s.wgs e.wg = some g →
      Runs (.matrixReadComplete core qid) s fun t => (∃ e', t.mEntry? core qid = some e' ∧ e'.readDone = true) ∧
        (∀ i ∈ e.opTiles.1, i < g.ta.length → ((t.wg e.wg).tag .a i).c = true) ∧
        ∀ i ∈ e.opTiles.2, i < g.tw.length → ((t.wg e.wg).tag .w i).c = true) ∧
    (∀ sp g w a, e.kind = .mma sp → e.started = true → look s.wgs e.wg = some g → Mem.wf g.c = true → s.wave? core e.ctx = some w →
      w.accs = [a] → a.id = e.acc → a.path = .m → a.op = .store → w.splits ≠ [] →
      (∀ ws, e.readDone = true → e.fault = none → e.spoiled = false → e.mixed = [] → e.result = [ws] → ws.length = 256 →
        Runs (.matrixComplete core qid) s fun t => t.mEntry? core qid = none ∧ t.bufGet e.wg .c (e.tile * 1024) 1024 = ws.flatMap (fun w => leBytes 4 w.toNat) ∧
          (∀ x, (x < e.tile * 1024 ∨ e.tile * 1024 + 1024 ≤ x) → t.byteAt e.wg .c x = s.byteAt e.wg .c x) ∧
          ∃ w', t.wave? core e.ctx = some w' ∧ w'.accs = [] ∧ w'.mflags = w.mflags ||| e.flags) ∧
      (∀ code, e.fault = some code → Runs (.matrixComplete core qid) s fun t => t.mEntry? core qid = none ∧
        (t.wg e.wg).c = g.c ∧ ∃ w', t.wave? core e.ctx = some w' ∧ w'.accs = [] ∧ w'.mfault = noteFault w.mfault code e.pc)) ∧
    (∀ k mal x, e.started = false → s.ahead core e = [] → s.tagsReady e = true → s.skips e = false → e.grant = true → x ∈ e.entries →
      s.entryFault core e x = some (k, mal) →
      Runs (.matrixFault core qid k) s fun t => (∃ e', t.mEntry? core qid = some e' ∧ e'.started = true ∧ e'.fault = some (mfCode k)) ∧
        ∃ bs, t.out = s.out ++ [.event bs])

/-- R266 to R274, R160: rrot registers its arrival; a generation starts once every live member has one, reads each
neighbour's tile whole and writes it whole; xst's elements reach their target's shadow bank; xswap exchanges window and
shadow bank and cbar only meets, once every live member has arrived. -/
def Obligations.ClusterExchange : Prop :=
  ∀ (s : State),
    (∀ (a b : Opnd) (k : BitVec 6), s.quiet → s.g.xbind = true → k.toNat < s.g.bars.length → (s.src a).isUni = true → (s.src b).isUni = true →
      let d := ((s.src a).at 0).toNat
      let x := ((s.src b).at 0).toNat
      let me (t : State) : Member := (t.group (s.cur.core / 16)).member (s.cur.core % 16)
      d % 1024 = 0 → x % 1024 = 0 → d + 1024 ≤ s.g.size .a → x + 1024 ≤ s.g.size .a → (s.group (s.cur.core / 16)).members.length = 16 →
      ((me s).rrot.length < 4 → Runs (.rrot a b k) s fun t => (me t).rrot = (me s).rrot ++ [⟨d, x, k.toNat⟩] ∧ t.wgs = s.wgs ∧
        t.sp.pc = s.sp.pc + 8) ∧
      (4 ≤ (me s).rrot.length → Runs (.rrot a b k) s fun t => (me t).rrot = (me s).rrot ∧ (s.sp.pfx = none → t.sp.pc = s.sp.pc))) ∧
    (s.quiet → s.g.xbind = false → (∀ a b k, k.toNat < s.g.bars.length → exec (.rrot a b k) s = .next (s.raise (trapI tcDenied 0x2C0))) ∧
      exec .xswap s = .next (s.raise (trapI tcDenied 0x2C2)) ∧ exec .cbar s = .next (s.raise (trapI tcDenied 0x2C3))) ∧
    (∀ cl, (s.group cl).xfers = [] → s.liveMembers cl ≠ [] → (∀ m ∈ s.liveMembers cl, ((s.group cl).member m).rrot ≠ []) →
      Runs (.rrotGenerationStart cl) s fun t => (t.group cl).rrotGen = (s.group cl).rrotGen + 1 ∧ t.wgs = s.wgs ∧
        (∀ m, ((t.group cl).member m).rrot = ((s.group cl).member m).rrot.drop 1) ∧
        ∀ m wg own, s.liveMember cl m = some wg → m < 16 → ((s.group cl).member m).rrot.head? = some own →
          ∃ x ∈ (t.group cl).xfers, x.member = m ∧ x.wg = wg ∧ x.dst = own.dst ∧
            ∀ p arr, s.liveMember cl ((m + 15) % 16) = some p → ((s.group cl).member ((m + 15) % 16)).rrot.head? = some arr →
              x.data = s.bufGet p .a arr.src 1024) ∧
    (∀ cl m x g, (s.group cl).xfers.find? (·.member == m) = some x → s.liveMember cl m = some x.wg → look s.wgs x.wg = some g →
      Mem.wf g.a = true → x.err = false → x.data.length = 1024 → x.dst % 1024 = 0 → x.dst + 1024 ≤ g.size .a →
      Runs (.rrotTransferDone cl m) s fun t => t.bufGet x.wg .a x.dst 1024 = x.data ∧ (t.wg x.wg).tag .a (x.dst / 1024) = ⟨true, false, x.z⟩ ∧
        (∀ y, y < x.dst ∨ x.dst + 1024 ≤ y → t.byteAt x.wg .a y = s.byteAt x.wg .a y) ∧
        ∀ y ∈ (t.group cl).xfers, y.member ≠ m) ∧
    (∀ (g : Guard) (d a b : Opnd) (off : BitVec 8) (z : Size), s.quiet → s.g.xbind = true → (s.src b).isUni = true → s.guardMask g ≠ 0 →
      let tgt := ((s.src b).at 0).toNat % 16
      let ea (k : Nat) : Nat := ((s.src a).at k + off.signExtend 32 * BitVec.ofNat 32 z.bytes).toNat
      (s.liveMember (s.cur.core / 16) tgt).isSome = true → tgt ≠ s.cur.core % 16 → AddrsOk (s.guardMask g) ea z.bytes 0x8000 → s.w.count .x < 255 →
      Runs (.xst g d a b off z) s fun t => t.w.count .x = s.w.count .x + 1 ∧ t.sp.pc = s.sp.pc + 8 ∧ t.wgs = s.wgs ∧ t.w.v = s.w.v ∧
        ∃ es, (t.group (s.cur.core / 16)).xst = (s.group (s.cur.core / 16)).xst ++ es ∧
          es.map (fun e => (e.src, e.target, e.addr, e.data)) =
            (threads (s.guardMask g)).map fun k => (s.cur.core % 16, tgt, ea k, s.dataBytes d z k)) ∧
    (∀ cl idx e, (s.group cl).xst[idx]? = some e → (s.group cl).xfers = [] → e.gen ≤ (s.group cl).xGen → Mem.wf (s.core (16 * cl + e.target)).shadow = true →
      (∀ y ∈ (s.group cl).xst.take idx, ¬(y.src = e.src ∧ y.ctx = e.ctx ∧ y.acc = e.acc)) →
      Runs (.xstElementWrite cl idx) s fun t => (t.group cl).xst = (s.group cl).xst.eraseIdx idx ∧ (∀ g, (t.wg g).a = (s.wg g).a) ∧
        ∀ x, Mem.get (t.core (16 * cl + e.target)).shadow x =
          if e.addr ≤ x ∧ x < e.addr + e.data.length then e.data.getD (x - e.addr) 0 else Mem.get (s.core (16 * cl + e.target)).shadow x) ∧
    (∀ x : Meet, s.quiet → s.g.xbind = true → s.sp.arrived = false → s.outstanding (s.cur.core / 16) (s.cur.core % 16) x = false →
      Runs (match x with | .swap => .xswap | .bar => .cbar) s fun t => t.sp.pc = s.sp.pc ∧ t.wgs = s.wgs ∧
        t.sp.status.meeting x = some ((s.group (s.cur.core / 16)).gen x, (s.w.flying.filter Acc.inW).map (·.id))) ∧
    (∀ cl, s.liveMembers cl ≠ [] →
      ((∀ m ∈ s.liveMembers cl, s.memberHere cl m .swap = true) →
        (∀ m m' wg, s.liveMember cl m = some wg → s.liveMember cl m' = some wg → m = m') →
        Runs (.xswapExchange cl) s fun t => (t.group cl).xGen = (s.group cl).xGen + 1 ∧
          ∀ m wg, s.liveMember cl m = some wg → m < 16 →
            (∀ a < 0x8000, t.byteAt wg .a a = Mem.get (s.core (16 * cl + m)).shadow a ∧
              Mem.get (t.core (16 * cl + m)).shadow a = s.byteAt wg .a a) ∧
            (∀ a, 0x8000 ≤ a → (∀ e ∈ (s.core (16 * cl + m)).shadow, e.1 < 0x8000) → t.byteAt wg .a a = s.byteAt wg .a a)) ∧
      ((∀ m ∈ s.liveMembers cl, s.memberHere cl m .bar = true) →
        Runs (.cbarComplete cl) s fun t => (t.group cl).cGen = (s.group cl).cGen + 1 ∧ ∀ g, (t.wg g).a = (s.wg g).a))

/-- R277, R278: a request states the amount of its macro-operation; a grant never takes the cluster past CLIM but for a
draining wave or a request 4 µs old; a vector reservation lapses after 1 µs. -/
def Obligations.CurrentArbiter : Prop :=
  ∀ (s : State) (core : Nat),
    let k := core / 16
    let c := s.cluster k
    let sum (c : Cluster) : Nat := (c.held.map (·.amount)).sum
    ((s.core core).vecLeft = 0 → (s.core core).waves ≠ [] → (∀ x ∈ c.held ++ c.want, ¬(x.core = core ∧ x.req = .vector)) →
      Runs (.currentRequest core .vector) s fun t => ∃ x, (t.cluster k).want = c.want ++ [x] ∧ (t.cluster k).held = c.held ∧
        x.core = core ∧ x.req = .vector ∧ x.since = s.tu ∧ (c.scale = 0 → x.amount = 12) ∧ (c.scale = 1 → x.amount = 14) ∧
        (c.scale = 2 → x.amount = 15)) ∧
    (∀ x, c.nextGrant = some x → x ∈ c.want ∧
      Runs (.currentGrant k) s fun t => (t.cluster k).want = c.want.erase x ∧ (t.cluster k).clim = c.clim ∧
        sum (t.cluster k) = sum c + x.amount ∧ (x.drain = false → sum (t.cluster k) ≤ c.clim) ∧
        (x.req = .vector → (t.core x.core).vecLeft = 64)) ∧
    (∀ x, c.want = [x] → x.since + 4000 * Config.tuPerNs ≤ s.tu → Runs (.currentGrantTimeout k) s fun t =>
      (t.cluster k).want = [] ∧ sum (t.cluster k) = sum c + x.amount) ∧
    (∀ x, c.held = [x] → x.core = core → x.req = .vector → x.since + 1000 * Config.tuPerNs ≤ s.tu →
      Runs (.currentReservationLapse core .vector) s fun t => (t.cluster k).held = [] ∧ (t.core core).vecLeft = 0)

/-- R291 to R299, R306: the rendering instructions in a chain's general wave: grid asks for a grid; gderiv takes the f32
differences along a grid axis; tex returns the sampled texels; gemit appends a record of 32 vertices; kbres queues a block;
srate gives rates; rfbk sends a feedback record per page. Outside a chain grid, gemit, kbres, srate.cell and rfbk trap
ACCESS_DENIED. R292, R290, R383, R305 to R307: a wave's grid takes the next diced grid of its cluster; a dicer passes a draw
that has no page left; a resolved block is written row by row to its slot and counted on its barrier. Log entry 24: how a bound
is rounded, and how many blocks of kbres a cluster holds. -/
def Obligations.Rendering : Prop :=
  (∀ (s : State) (g : Guard) (la : BitVec 4) (d a b v : Fin 128) (sp : Fin 64) (p : Fin 8) (o o' : Opnd) (k : Nat) (c : Chain)
    (bar : BitVec 6), s.quiet → s.w.role = .general →
    let cfg := s.cfgOf c
    let x := (s.src o).at 0
    let y := (s.src o').at 0
    let core := s.cur.core
    let here : Prop := s.chain? = some (k, c)
    let same (t : State) : Prop := t.w.v = s.w.v ∧ t.mem = s.mem ∧ t.wgs = s.wgs ∧ t.sp.s = s.sp.s
    let sent (t : State) (acc : Acc) : Prop := t.w.accs = s.w.accs ++ [acc] ∧ t.sp.pc = s.sp.pc + 8 ∧ same t
    (here → s.converged ⟨false, 7⟩ = true → s.rowsFor d.val 2 → Runs (.grid la d (.p p)) s fun t => ∃ acc, sent t acc ∧ acc.op = .grid ∧
      acc.dst = .v d ∧ acc.pred = .p p ∧ acc.regs = 4 ∧ acc.mask = fullMask ∧ acc.done = false ∧ t.w.p = s.w.p) ∧
    (∀ ver : Bool, s.rowFree d.val → s.guardMask g ≠ 0 → (s.src o).isUni = true →
      let md := Mods.of s.pm .rne
      let w := x.toNat % 8 + 1
      let h := x.toNat / 8 % 4 + 1
      let one := if ver then h == 1 else w == 1
      let part := s.guardMask g &&& maskOf fun t => decide (t % 8 < w ∧ t / 8 < h) && !one
      let el (t : Nat) : FV := fin32 md ((s.crossV (.v a)).at t)
      let step := if ver then 8 else 1
      let lastOne (t : Nat) : Bool := if ver then t / 8 == h - 1 else t % 8 == w - 1
      let seed (t : Nat) : Word := seedAfter (below part t) s.w.seed
      ∃ r, r.isGen = true ∧ exec (.gderiv g d a o ver) s = .next (((if md.rnd = .rs then s.setSeed (seed 32) else s).putV d.val r).advance) ∧
        Written (s.guardMask g) (s.vreg d.val) r fun t z => z = if part.getLsbD t then
          let hi := if lastOne t then t else t + step
          w32 (roundTo f32 md (if md.rnd = .rs then (drawsFrom 1 (seed t)).getD 0 0 else 0)
            (xadd (decide (md.rnd = .rdn)) (el hi) (el (hi - step)).neg).toX) else 0) ∧
    (∀ (lz : Bool) (e : TlbE) (bs : List Byte), let ts := threads (s.guardMask g)
      let q := s.sp.pair sp.val
      let u := s.splitUnit 1
      let t := texOf bs
      let i : Instr := if lz then .texLz g la d a sp else .tex g la d a sp v
      let lam (i : Nat) : Word := t.lambda lz (if lz then [] else (List.range 4).map fun j => (s.readV (v.val + j)).at i)
      let sx (i : Nat) : Word := (s.readV a.val).at i
      let sy (i : Nat) : Word := (s.readV (a.val + 1)).at i
      let info (i : Nat) : List Byte := bs ++ [lam i, sx i, sy i].flatMap fun x => leBytes 4 x.toNat
      let texels (i : Nat) : List DWord := match (t.threadTaps (lam i) (sx i) (sy i)).flatMap fun l => t.taps l.1 l.2.1 l.2.2 with
        | [] => [q]
        | l => l.map (BitVec.ofNat 64)
      let want := ts.flatMap fun i => (texels i).map fun va => (i, va, info i)
      ts ≠ [] → s.w.count .g < 255 → q.toNat % 32 = 0 → s.xlate core s.w.grid q false false = .ok e →
      (∀ n, s.got u (e.pa? q.toNat) 32 = .error n → Runs i s fun s' => same s' ∧ s'.sp.pc = s.sp.pc ∧ s'.sp.status = .waiting .need ∧
        s'.w.accs.map (·.id) = s.w.accs.map (·.id)) ∧
      (s.got u (e.pa? q.toNat) 32 = .ok (some bs) → t.base % 128 = 0 → texValid bs = true → s.rowsFor d.val 4 →
        (∀ x ∈ want, ∃ p, s.lookup core s.gr.d.asid x.2.1 false = .page p ∧ isHostPa (p.pa? x.2.1.toNat) = false) →
        Runs i s fun s' => ∃ acc, sent s' acc ∧ acc.op = .tex ∧ acc.path = .g ∧ acc.dst = .v d ∧ acc.regs = 4 ∧ acc.mask = s.guardMask g ∧
          acc.elems.map (fun el => (el.t, el.va, el.data)) = want)) ∧
    (here → s.converged ⟨false, 7⟩ = true → (s.src o).isUni = true →
      (c.cfg.gsize ≤ c.recs.length → exec (.gemit (.p p) a b o) s = .next ((s.writeP p.val 0 fullMask).advance)) ∧
      (c.recs.length < c.cfg.gsize → s.w.count .s < 255 → s.w.p.length = 7 →
        let va := c.cfg.garea.toNat + 1600 * c.recs.length
        (∀ l ∈ partsAt va 1600, ∃ e, s.xlateIn core c.cfg.asid (BitVec.ofNat 64 l.1) true false = .ok e ∧ isHostPa (e.pa? l.1) = false) →
        Runs (.gemit (.p p) a b o) s fun t => ∃ (acc : Acc) (r : List Byte), sent t acc ∧ acc.path = .s ∧ t.readP p.val = fullMask ∧
          (look t.chains k).map (·.recs) = some (c.recs ++ [⟨x, core, s.cur.ctx, acc.id⟩]) ∧
          acc.elems.map (fun e => (e.va, e.data)) =
            (partsAt va 1600).map (fun l => (BitVec.ofNat 64 l.1, (r.drop l.2.2).take l.2.1)) ∧
          r.drop 64 = (List.range 32).flatMap fun t => ((List.range 8).flatMap fun j => leBytes 4 ((s.readV (a.val + j)).at t).toNat) ++
            (List.range 4).flatMap fun j => leBytes 4 ((s.readV (b.val + j)).at t).toNat)) ∧
    (here → (s.src o).isUni = true → bar.toNat < s.g.bars.length → 16 * (x.toNat % 65536) < cfg.wt → 4 * (x.toNat / 65536) < cfg.rows c.strip →
      ((s.cluster (core / 16)).kq.length < 40 → Runs (.kbres o bar) s fun t => same t ∧ t.sp.pc = s.sp.pc + 8 ∧ ∃ q : KbReq,
        (t.cluster (core / 16)).kq = (s.cluster (core / 16)).kq ++ [q] ∧ q.chain = k ∧ q.wg = s.w.wg ∧ q.bar = bar.toNat ∧
          q.bx = x.toNat % 65536 ∧ q.by_ = x.toNat / 65536 ∧
          ∀ i, i ∈ q.recs ↔ ∃ r, c.recs[i]? = some r ∧ s.acc? r.core r.ctx r.acc = none) ∧
      (40 ≤ (s.cluster (core / 16)).kq.length → exec (.kbres o bar) s = .next s.stall)) ∧
    ((s.src o).isUni = true → (s.src o').isUni = true →
      let rate (r : Rate) (e : Nat) : Word := w32 (r.1 + r.2 * 4 + e % 8 * 16)
      let gridRate := rate (x.toNat / 32 % 4, x.toNat / 128 % 4) (x.toNat / 512 % 8)
      let u := s.splitUnit 5
      let px := y.toNat % 65536
      let py := y.toNat / 65536
      (∀ n : Fin 64, exec (.srateGrid (.s n) o) s = .next ((s.writeS n.val gridRate).advance)) ∧
      (s.rowFree d.val → WritesV (.srateGrid (.v d) o) s d.val s.sp.mask fun _ r => r = gridRate) ∧
      (here → px < cfg.wt → py < cfg.ht →
        (∀ n, s.cellRateAt u (core / 16) c x px py = .error n → Runs (.srateCell (.v d) o o') s fun t => same t ∧ t.sp.pc = s.sp.pc ∧
          t.sp.status = .waiting .need) ∧
        ∀ r, s.cellRateAt u (core / 16) c x px py = .ok r →
          (∀ n : Fin 64, exec (.srateCell (.s n) o o') s = .next (((s.stepDone u).writeS n.val (rate r c.d)).advance)) ∧
          (s.rowFree d.val → s.sp.mask ≠ 0 → ∃ x, exec (.srateCell (.v d) o o') s = .next (((s.stepDone u).putV d.val x).advance) ∧
            Written s.sp.mask (s.vreg d.val) x fun _ z => z = rate r c.d))) ∧
    (here → s.guardMask g ≠ 0 →
      (c.cfg.fbr = 0 → exec (.rfbk g o o') s = .next s.advance) ∧
      (∀ e, c.cfg.fbr ≠ 0 → s.w.count .s < 255 → s.lookup core c.cfg.asid c.cfg.fbr true = .page e → isHostPa (e.pa? c.cfg.fbr.toNat) = false →
        Runs (.rfbk g o o') s fun t => t.sp.pc = s.sp.pc + 8 ∧ Issued s t .s (.ring 16)
          (((threads (s.guardMask g)).filter fun i => (threads (s.guardMask g)).all fun j => j < i → (s.src o).at j ≠ (s.src o).at i).map
            fun i => (i, c.cfg.fbr, fbRecord ((s.src o).at i).toNat c 1 ((s.src o').at i))))) ∧
    (s.chain? = none → ∀ i code, (i, code) ∈ [(Instr.grid la d (.p p), 0x300), (.gemit (.p p) a b o, 0x303), (.kbres o bar, 0x304),
      (.srateCell o o o', 0x305), (.rfbk g o o', 0x306)] → exec i s = .next (s.raise (trapI tcDenied code)))) ∧
  (∀ (s : State) (k : Nat) (c : Chain), look s.chains k = some c → c.runs = true → s.checkDue c = none →
    let cfg := s.cfgOf c
    (∀ (core ctx : Nat) (w : Wave) (a : Acc) (q : Split) (x : Window) (d : Fin 128) (p : Fin 7), s.wave? core ctx = some w → w.accs = [a] →
      a.op = .grid → a.path = .q → a.dst = .v d → a.regs = 4 → a.size = 4 → a.pred = .p ⟨p.val, by omega⟩ → a.mask = fullMask → a.done = false →
      w.splits = [q] → q.status = .running → q.windows = [x] → x.acc = a.id → x.delivered = false → x.held = [] → d.val + 4 ≤ 128 →
      w.v.length = 128 → w.p.length = 7 → (s.grid w.grid).chain = some k → cfg.clusters.getLsbD (core / 16) = true →
      let got (f : Wave → State → Prop) : Prop := Runs (.gridDelivery core ctx) s fun t => ∃ w', t.wave? core ctx = some w' ∧ w'.accs = [] ∧
        (∀ m, m < d.val ∨ d.val + 4 ≤ m → w'.v.getD m .unwritten = w.v.getD m .unwritten) ∧ f w' t
      (∀ g rest, (c.dicer (core / 16)).ready = g :: rest → got fun w' t =>
        (w'.v.getD d.val .unwritten).isGen = true ∧ (w'.v.getD (d.val + 1) .unwritten).isGen = true ∧
        (∀ i < 32, (w'.v.getD d.val .unwritten).at i = g.us.getD i 0 ∧ (w'.v.getD (d.val + 1) .unwritten).at i = g.vs.getD i 0 ∧
          (w'.p.getD p.val 0).getLsbD i = decide (i % 8 < g.word.toNat % 8 + 1 ∧ i / 8 < g.word.toNat / 8 % 4 + 1)) ∧
        w'.v.getD (d.val + 2) .unwritten = .uni g.user ∧ w'.v.getD (d.val + 3) .unwritten = .uni g.word ∧
        ∃ c', look t.chains k = some c' ∧ (c'.dicer (core / 16)).ready = rest ∧ c'.given = c.given + 1) ∧
      ((c.dicer (core / 16)).ready = [] → (c.dicer (core / 16)).doneAll = true → got fun w' _ =>
        (∀ j < 4, w'.v.getD (d.val + j) .unwritten = .uni 0) ∧ w'.p.getD p.val 0 = 0) ∧
      ((c.dicer (core / 16)).ready = [] → (c.dicer (core / 16)).doneAll = false → exec (.gridDelivery core ctx) s = .next s)) ∧
    (∀ cluster, s.chains = [(k, c)] → cfg.clusters.getLsbD cluster = true → (c.dicer cluster).doneAll = false → c.heldFb = [] →
      let d := c.dicer cluster
      let u := s.chainUnit cluster 0 k c
      let after (f : Dicer → State → Prop) : Prop := Runs (.dicePatch cluster) s fun t => t.mem = s.mem ∧ t.cores = s.cores ∧
        ∃ c', look t.chains k = some c' ∧ f (c'.dicer cluster) t
      (c.cfg.dn ≤ d.draw → after fun d' _ => d' = { d with doneAll := true }) ∧
      (∀ w ps, d.draw < c.cfg.dn → s.chainRead u cluster c (c.cfg.draws.toNat + 160 * d.draw) 160 = .error (.read w ps) →
        (∀ p ∈ ps, s.asks.any (·.covers w p.1 p.2) = false) → ps ≠ [] →
        Runs (.dicePatch cluster) s fun t => t.mem = s.mem ∧ t.chains = s.chains ∧ ∀ p ∈ ps, ∃ a ∈ t.asks, a.pa = p.1 ∧ a.len = p.2 ∧
          a.op = .read ∧ a.src = w.src ∧ a.key = w.key) ∧
      (∀ bs dr, d.draw < c.cfg.dn → s.chainRead u cluster c (c.cfg.draws.toNat + 160 * d.draw) 160 = .ok (.ok bs) → drawOfBytes bs = some dr →
        (dr.pages ≤ d.page → after fun d' _ => d' = { d with draw := d.draw + 1, page := 0, left := 0 }) ∧
        (∀ p pb gs, d.page < dr.pages → cfg.clusterList.getD (d.pair % cfg.clusterList.length) 0 = cluster → 0 < d.left →
          s.chainRead u cluster c (d.addr + d.off) (min 208 (65536 - d.off)) = .ok (.ok pb) → patchOf d.off pb = some p →
          s.patchGrids u cluster c d.draw dr p = .ok gs → after fun d' _ => d'.ready = d.ready ++ gs ∧ d'.draw = d.draw ∧
            (d.left = 1 → d'.page = d.page + 1 ∧ d'.left = 0) ∧ (1 < d.left → d'.left = d.left - 1 ∧ d'.page = d.page)))) ∧
    (∀ cluster q rest, (s.cluster cluster).kq = q :: rest → q.chain = k →
      let u := s.chainUnit cluster 2 k c
      let x0 := (q.span cfg c).1.1
      let y0 := (q.span cfg c).2.1
      let cols := (q.span cfg c).1.2 - x0
      (∀ kb, q.writing = false → (∀ i r, c.recs[i]? = some r → i ∉ q.recs → s.recPlaced r = false) →
        s.blockLayers u cluster c q ((List.range c.recs.length).filter q.recs.contains) = .ok (.ok kb) →
        let pixel (x y : Nat) : List Byte := pixelBytes cfg.fmt (composePixel c.cfg.spp c.cfg.bg
          (((kb.find? fun e => e.1 == (x, y)).map (·.2)).getD []))
        let row (y : Nat) : List Byte := (List.range cols).flatMap fun i => pixel (x0 + i) y
        Runs (.kbufBlockResolve cluster) s fun t => (t.cluster cluster).kq = { q with writing := true } :: rest ∧ t.mem = s.mem ∧
          t.ring = s.ring ∧ t.wgs = s.wgs ∧ ∀ y, y0 ≤ y → y < (q.span cfg c).2.2 → ∀ p ∈ partsAt (s.blockRow c q y0 x0 y) (row y).length,
            ∃ a ∈ t.asks, a.src = .unit cluster 2 ∧ a.chain = some k ∧ a.pa = p.1 ∧ a.for_ = .block q.wg q.bar ∧
              a.op = .write (((row y).drop p.2.2).take p.2.1)) ∧
      (q.writing = true → s.posting u = false → Runs (.kbufBlockResolve cluster) s fun t => (t.cluster cluster).kq = rest ∧ t.mem = s.mem ∧
        t.ring = s.ring ∧ t.wgs = s.wgs ∧ t.out = s.out ∧
        ∃ c', look t.chains k = some c' ∧ (q.spoiled = false → q.by_ * 2048 + q.bx ∈ c'.blocks) ∧ (q.spoiled = true → c'.blocks = c.blocks)))) ∧
  (∀ (s : State) (pos tag cluster wg bar : Nat) (r : Req) (a : Ask) (bs : List Byte),
    let k := sliceOf r.pa
    let b := s.bar wg bar
    (s.slice k).q[pos]? = some r → s.inOrder k pos r = true → s.outranked k r = false → s.inRing r.pa = true → r.for_ = .unit tag →
    s.asks.find? (·.tag == tag) = some a → a.pa = r.pa → a.op = .write bs → a.len = bs.length → a.for_ = .block wg bar →
    a.src = .unit cluster 2 → (∀ q ∈ (s.cluster cluster).kq, q.spoiled = false) → s.badMem = [] → s.mayWrite a.chain r.pa = true →
    (∃ g, look s.wgs wg = some g ∧ bar < g.bars.length) → b.err = false → b.arr < b.exp → 0 ≤ b.cnt b.ph → b.cnt b.ph ≤ 2 ^ 30 →
    s.memOk → (∀ i < bs.length, s.inRing (r.pa + i) = true) → bs.length ≤ 16 →
    Runs (.sliceRequest k pos) s fun t => Stored s t r.pa bs ∧ (t.bar wg bar).cnt b.ph = b.cnt b.ph - bs.length) ∧
  (∀ (s : State) (core ctx : Nat) (w : Wave) (a : Acc) (p : Split) (x : Window) (d : Fin 128), s.wave? core ctx = some w → w.accs = [a] →
    a.done = false → (∀ e ∈ a.elems, e.done = true ∧ e.back ≤ s.tu ∧ e.err = false) → a.path = .g → a.op = .tex → a.dst = .v d → a.regs = 4 →
    a.size = 4 → a.pred = .null → a.uniform = false → d.val + 4 ≤ 128 → w.v.length = 128 → a.mask ≠ 0 →
    (∀ k < 32, a.mask.getLsbD k = true → ∃ e ∈ a.elems, e.t = k) → w.splits = [p] → p.status = .running → p.windows = [x] →
    x.acc = a.id → x.delivered = false → x.held = [] →
    Runs (.loadResponse core ctx a.id) s fun t => ∃ w', t.wave? core ctx = some w' ∧ w'.accs = [] ∧ t.mem = s.mem ∧
      (∀ m, m < d.val ∨ d.val + 4 ≤ m → w'.v.getD m .unwritten = w.v.getD m .unwritten) ∧
      ∀ j < 4, ∀ k < 32, if a.mask.getLsbD k then ∀ e es cx cy, a.elems.filter (·.t == k) = e :: es →
          let i := texOf (e.data.take 32)
          let l := (i.level (wordAt e.data 32)).1
          (i.level (wordAt e.data 32)).2 = 0 → texCoord (wordAt e.data 36) (i.wl l) = some cx → texCoord (wordAt e.data 40) (i.hl l) = some cy →
          (w'.v.getD (d.val + j) .unwritten).at k = i.value cx cy (fun n => texelOf i.fmt (((e :: es).map (·.ret)).getD n [])) j
        else (w'.v.getD (d.val + j) .unwritten).at k = (w.v.getD (d.val + j) .unwritten).at k)

/-- R350 to R353, R360: btag.alloc takes the next sequence of its grid's pool, or 0; btag.free clears a valid tag outside the
tag block; bsend waits for the tag area's answer, which lets the operand leave or traps TAG; bstat reads and clears. R354 to
R360: an arriving operand opens an entry, joins the open entry of its tag, or is refused; the last one closes it, and a global
destination then holds the combined tile; a held delivery is made to the window and its barrier once its workgroup can take it;
an entry open for the orphan timeout is delivered as it is. Log entry 31: which pool a grid gets, and the tag bits above it. -/
def Obligations.Bridles : Prop :=
  (∀ (s : State) (la : BitVec 4) (d a c : Opnd) (b : Fin 64) (n : Fin 64) (v : Fin 128) (comb : Combine) (fromC : Bool) (r : Grid), s.quiet →
    look s.grids s.w.grid = some r →
    let x := (s.src a).at 0
    let seq := x.toNat % 2 ^ 24
    let asked (t : State) (e : Elem → Prop) : Prop := t.sp.pc = s.sp.pc + 8 ∧ t.w.v = s.w.v ∧ t.mem = s.mem ∧
      ∃ acc el, t.w.accs = s.w.accs ++ [acc] ∧ acc.op = .tagAlloc ∧ acc.dst = d ∧ acc.uniform = (d.isScalarReg || s.sp.mask == fullMask) ∧ acc.elems = [el] ∧ e el
    (d.isScalarReg = true ∨ s.sp.mask = fullMask ∨ (∀ k, d = .v k → s.rowFree k.val) → ∀ ar p, r.area = some ar → p = r.pool.getD s.freePool → r.tagNext < 2 ^ 24 → isHostPa (tagByteAt ar p r.tagNext) = false →
      Runs (.btagAlloc la d) s fun t => (∃ r', look t.grids s.w.grid = some r' ∧ r'.tagNext = r.tagNext + 1 ∧ r'.pool = some p) ∧
        asked t fun e => e.done = false ∧ e.pa = ar + (p - 1) * 2 ^ 21 + r.tagNext / 8 ∧ e.data = [1#8 <<< (r.tagNext % 8)] ∧
          e.cmp = leBytes 4 (BitVec.ofNat 32 (p * 2 ^ 24 + r.tagNext)).toNat) ∧
    (d.isScalarReg = true ∨ s.sp.mask = fullMask ∨ (∀ k, d = .v k → s.rowFree k.val) → r.area = none ∨ 2 ^ 24 ≤ r.tagNext → Runs (.btagAlloc la d) s fun t => asked t fun e => e.done = true ∧ e.ret = [0, 0, 0, 0]) ∧
    ((s.src a).isUni = true →
      let u := s.coreWho
      (∀ n, s.tagValid u s.w.grid x = .error n → Runs (.btagFree la a) s fun t => t.sp.pc = s.sp.pc ∧ t.sp.status = .waiting .need ∧
        t.w.v = s.w.v ∧ t.mem = s.mem) ∧
      (s.tagValid u s.w.grid x = .ok (some true) → r.d.tagblock ≤ seq →
        let pa := tagByteAt (r.area.getD 0) (r.pool.getD 1) seq
        Runs (.btagFree la a) s fun t => t.sp.pc = s.sp.pc + 8 ∧ t.w.v = s.w.v ∧ t.mem = s.mem ∧
          ∃ a ∈ t.asks, a.src = .core s.cur.core ∧ a.pa = pa ∧ a.len = 1 ∧ a.op = .bits [1#8 <<< (seq % 8)] false) ∧
      (∀ v, s.tagValid u s.w.grid x = .ok v → v ≠ some true ∨ seq < r.d.tagblock →
        exec (.btagFree la a) s = .next (s.raise (if v = none then ⟨tcData, 0, 0, 0⟩ else ⟨tcTag, 0, x, 0⟩)))) ∧
    (∀ cnt pa, (s.src d).isUni = true → (s.src a).isUni = true → (s.src c).isUni = true → (fromC = true → s.w.role ≠ .copy) →
      cnt = ((s.src c).at 0).toNat → 2 ≤ cnt → cnt ≤ 16 → (fromC = false → x.toNat % 1024 = 0 ∧ x.toNat + 1024 ≤ s.g.size .a) →
      (fromC = true → x.toNat < s.g.tc.length) → s.w.count .s < 255 →
      let dst := s.sp.pair b.val
      (if dst.getLsbD 63 then dst.toNat / 2 ^ 32 % 2 ^ 31 < s.gr.total ∧ pa = 0
        else dst.toNat % 1024 = 0 ∧ ∃ e, s.xlate s.cur.core s.w.grid dst true false = .ok e ∧ pa = e.pa? dst.toNat) →
      Runs (.bsend d a b c comb fromC) s fun t => t.sp.status = .waiting (.bsend
        ⟨(s.src d).at 0, comb, cnt, fromC, x.toNat, dst.getLsbD 63, dst, pa⟩) ∧ t.sp.pc = s.sp.pc ∧ t.w.v = s.w.v ∧ t.mem = s.mem) ∧
    (∀ (at_ : Cursor) (x : BridleSend), (s.withCur at_).live = true → (s.withCur at_).sp.status = .waiting (.bsend x) →
      let w := (s.withCur at_).w
      let u := (s.withCur at_).coreWho
      w.stop = .none →
      ((s.withCur at_).tagValid u w.grid x.tag = .ok (some true) → w.count .s < 255 → Runs (.bsendTagCheckAnswer at_) s fun t => (t.withCur at_).sp.pc = (s.withCur at_).sp.pc + 8 ∧
        (t.withCur at_).sp.status = .running ∧ (t.withCur at_).w.count .s = w.count .s + 1 ∧ (t.withCur at_).w.v = w.v ∧ t.mem = s.mem ∧
        ∃ o, t.operands = s.operands ++ [o] ∧ o.grid = w.grid ∧ o.send = x ∧ o.core = at_.core ∧ o.ctx = at_.ctx ∧ o.acc = w.nextAcc) ∧
      ((s.withCur at_).tagValid u w.grid x.tag = .ok (some false) → (∀ h, w.handler = some h → h = at_.split) →
        exec (.bsendTagCheckAnswer at_) s =
          .next ((((s.withCur at_).modSp fun p => { p with status := .running }).raise ⟨tcTag, 0, x.tag, 0⟩).stepDone u))) ∧
    (Runs (.bstatSnd (.s n)) s fun t => t.w.snd = 0 ∧ t.sp.s = s.sp.s.set n.val s.w.snd ∧ t.w.v = s.w.v ∧ t.sp.pc = s.sp.pc + 8) ∧
    (∀ g, look s.wgs s.w.wg = some g → Runs (.bstatRcv (.s n)) s fun t => t.g.rcv = 0 ∧ t.sp.s = s.sp.s.set n.val g.rcv ∧ t.w.v = s.w.v ∧
      t.sp.pc = s.sp.pc + 8) ∧
    (s.rowFree v.val → s.sp.mask ≠ 0 → s.w.v.length = 128 → Runs (.bstatSnd (.v v)) s fun t => t.w.snd = 0 ∧
      (Written s.sp.mask (s.vreg v.val) (t.vreg v.val) fun _ x => x = s.w.snd) ∧ ∀ m, m ≠ v.val → t.vreg m = s.vreg m)) ∧
  (∀ (s : State) (idx : Nat) (o : Operand) (w : Wave), s.operands[idx]? = some o → s.wave? o.core o.ctx = some w → w.splits ≠ [] →
    let u := unitOf o.send.tag
    let x := s.slice u
    let open_ := x.entries.find? fun e => e.tag == o.send.tag && !e.closed
    let same (e : BEntry) : Prop := e.comb = o.send.comb ∧ e.count = o.send.count ∧ e.toCore = o.send.toCore ∧ e.dst = o.send.dst
    let need := if o.send.comb = .addX then 5 else 1
    let free := ((List.range 128).filter fun i => !(x.slotsOf false).contains i).length
    s.wayBusy o = false →
    let arrives (f : State → Prop) : Prop := Runs (.bridleOperandArrival idx) s fun t => t.operands = s.operands.eraseIdx idx ∧ f t
    let snd (t : State) (full : Bool) : Prop := ∃ w', t.wave? o.core o.ctx = some w' ∧ w'.snd =
      BitVec.ofNat 32 ((w.snd.toNat % 4 ||| (if full then 1 else 2)) + min 255 (w.snd.toNat / 256 % 256 + 1) * 256)
    (open_ = none → need ≤ free → arrives fun t => t.mem = s.mem ∧ ∃ e ∈ (t.slice u).entries, e.tag = o.send.tag ∧
      e.grid = o.grid ∧ same e ∧ e.got = [o.data] ∧ e.closed = false ∧ e.opened = s.dtc ∧ e.spill = false ∧
      e.slots.length = need ∧ (∀ i ∈ e.slots, i < 128 ∧ i ∉ x.slotsOf false) ∧ ∀ l ∈ (t.slice u).lines, ∀ i ∈ e.slots, l.way ≠ 12 + i / 32) ∧
    (open_ = none → free < need → s.pools.spill = none → arrives fun t => t.mem = s.mem ∧ (t.slice u).entries = x.entries ∧ snd t true) ∧
    (∀ e, open_ = some e → ¬same e → arrives fun t => (t.slice u).entries = x.entries ∧ snd t false ∧
      ∃ bs, t.out = s.out ++ [.event bs]) ∧
    (∀ e, open_ = some e → same e → (x.entries.map (·.id)).Nodup →
      (e.got.length + 1 < e.count → arrives fun t => t.mem = s.mem ∧ ∃ e' ∈ (t.slice u).entries, e'.id = e.id ∧ e'.got = e.got ++ [o.data] ∧
        e'.closed = false) ∧
      (∀ n, e.got.length + 1 = e.count → e.toCore = false → e.spill = false →
        s.ownWalk (s.entryWho u e) (s.grid e.grid).d.asid (s.grid e.grid).d.root e.dst.toNat = .error n →
        arrives fun t => t.mem = s.mem ∧ ∃ e' ∈ (t.slice u).entries, e'.id = e.id ∧ e'.got = e.got ++ [o.data] ∧ e'.closed = true)) ∧
    (∀ (y : Nat) (e : BEntry) (r : WalkRes), (s.slice y).entries.find? (fun z => z.id == e.id && z.closed) = some e → e.toCore = false →
      e.spill = false → e.result.2 = false →
      s.ownWalk (s.entryWho y e) (s.grid e.grid).d.asid (s.grid e.grid).d.root e.dst.toNat = .ok r →
      let held (f : State → Prop) : Prop := Runs (.bridleHeldDelivery y e.id) s fun t => (∀ z ∈ (t.slice y).entries, z.id ≠ e.id) ∧ f t
      (∀ p, r = .page p → p.w = true → held fun t => t.mem = s.mem ∧ (∀ q ∈ partsAt (p.pa? e.dst.toNat) 1024, ∃ a ∈ t.asks,
          a.src = .bridle y ∧ a.pa = q.1 ∧ a.for_ = .grid e.grid ∧
          a.op = .write (((wordsBytes e.result.1).drop q.2.2).take q.2.1)) ∧
        (e.comb = .addI32 → ∀ i < 256, e.result.1.getD i 0 = (e.got.map (·.getD i 0)).sum)) ∧
      ((∃ m, r = .fault 0 m) ∨ (∃ p, r = .page p ∧ p.w = false) → held fun t =>
        ∃ bs, t.out = s.out ++ [.event bs] ∧ (bs.drop 16).take 2 = leBytes 2 tcTranslation)) ∧
    (∀ (y : Nat) (e : BEntry) (g : WGrp) (wg core k : Nat), (s.slice y).entries.find? (fun z => z.id == e.id && z.closed) = some e →
      e.toCore = true → e.spill = false → (s.coreDelivery e = .hold → exec (.bridleHeldDelivery y e.id) s = .next s) ∧
      (s.coreDelivery e = .to_ wg core k → look s.wgs wg = some g → Mem.wf g.a = true → k < g.bars.length →
        (g.bar k).err = false → (g.bar k).arr < (g.bar k).exp → 0 ≤ (g.bar k).cnt (g.bar k).ph → (g.bar k).cnt (g.bar k).ph ≤ 2 ^ 30 →
        let addr := e.dst.toNat % 2 ^ 32
        addr / 1024 < g.ta.length → e.result.2 = false →
        Runs (.bridleHeldDelivery y e.id) s fun t => t.mem = s.mem ∧ (∀ z ∈ (t.slice y).entries, z.id ≠ e.id) ∧
          t.bufGet wg .a addr 1024 = wordsBytes e.result.1 ∧ (t.wg wg).tag .a (addr / 1024) = ⟨true, false, false⟩ ∧
          (t.bar wg k).cnt (g.bar k).ph = (g.bar k).cnt (g.bar k).ph - 1024 ∧
          ∀ z, z < addr ∨ addr + 1024 ≤ z → t.byteAt wg .a z = s.byteAt wg .a z)) ∧
    (∀ (y : Nat) (e : BEntry), (s.slice y).entries.find? (fun z => z.id == e.id && !z.closed) = some e →
      (past s.dtc (e.opened + BitVec.ofNat 64 s.orphan) = false → exec (.bridleOrphanTimeout y e.id) s = .next s) ∧
      (past s.dtc (e.opened + BitVec.ofNat 64 s.orphan) = true → e.toCore = true → s.coreDelivery { e with orphan := true, closed := true } = .hold →
        s.pools.logRing = none → (s.slice y).entries = [e] → e.spill = false →
        Runs (.bridleOrphanTimeout y e.id) s fun t => (t.slice y).entries = [{ e with closed := true, orphan := true }] ∧ t.mem = s.mem ∧
          ∃ bs, t.out = s.out ++ [.event bs] ∧ (bs.drop 16).take 2 = leBytes 2 0x23))) ∧
  (∀ (s : State) (pos tag : Nat) (r : Req) (a : Ask) (l : L2Line),
    let k := sliceOf r.pa
    (s.slice k).q[pos]? = some r → s.inOrder k pos r = true → s.outranked k r = false → s.rbase = none → r.for_ = .unit tag →
    (s.slice k).lines.find? (·.line == r.pa / 128) = some l → l.miss = none → l.claim = none →
    s.asks.find? (·.tag == tag) = some a → a.pa = r.pa → s.badMem = [] → s.memOk → isHostPa r.pa = false →
    (∀ b, a.op = .bits [b] false → a.len = 1 → Runs (.sliceRequest k pos) s fun t => Stored s t r.pa [s.phys r.pa &&& ~~~b]) ∧
    (∀ bs gid g, a.op = .write bs → a.for_ = .grid gid → look s.grids gid = some g → Runs (.sliceRequest k pos) s fun t =>
      Stored s t r.pa bs ∧ (t.grid gid).sendT = maxD g.sendT (s.writeTime r.pa)))

/-- R249 to R255, R438: icinv waits for its wave's writes and then empties the instruction caches of its scope; yield makes
its split the youngest; sleep waits for its time or a wake; a counter is read as a pair; a mark goes to the trace ring. -/
def Obligations.SystemInstructions : Prop :=
  ∀ (s : State) (sc : Fin 3) (a : Opnd) (n : Fin 63) (k : Fin 8), s.quiet →
    let same (t : State) : Prop := t.w.v = s.w.v ∧ t.w.p = s.w.p ∧ t.mem = s.mem ∧ t.wgs = s.wgs
    let done : Prop := (∀ x ∈ s.w.flying, x.inW = false) ∧ reached (s.now s.cur.core) s.w.lwt = true
    let x := (s.src a).at 0
    (done → Runs (.icinv sc) s fun t => same t ∧ t.sp.pc = s.sp.pc + 8 ∧ ∀ c,
      (t.core c).ic = if (sc = 0 ∧ c = s.cur.core) ∨ (sc = 1 ∧ c / 16 = s.cur.core / 16) ∨ sc = 2 then [] else (s.core c).ic) ∧
    (¬done → Runs (.icinv sc) s fun t => same t ∧ t.sp.pc = s.sp.pc ∧
      t.sp.status = .waiting (.icinv sc.val ((s.w.flying.filter Acc.inW).map (·.id))) ∧ ∀ c, (t.core c).ic = (s.core c).ic) ∧
    (Runs .yield s fun t => same t ∧ t.sp.pc = s.sp.pc + 8 ∧ t.sp.readyAt = 0 ∧ t.sp.young = true ∧ t.w.stop = s.w.stop ∧ t.agenda = s.agenda) ∧
    (Runs .yieldP s fun t => same t ∧ t.sp.pc = s.sp.pc + 8 ∧ t.sp.readyAt = 0 ∧ t.sp.young = true ∧ t.w.stop = s.w.stop ∧
      t.agenda = (if s.youngest.wantsCore s.cur.core s.w.prio then [.preemptionRequest (.wave s.cur.core s.cur.ctx)] else []) ++ s.agenda) ∧
    ((s.src a).isUni = true → Runs (.sleep a) s fun t => same t ∧ t.sp.pc = s.sp.pc ∧ t.sp.status = .waiting (.sleep
      (if x = 0 then none else some (s.now s.cur.core + BitVec.ofNat 64 (x.toNat * 65536))))) ∧
    (s.sp.s.length = 64 → Runs (.perfRd ⟨n.val, by omega⟩ k) s fun t => same t ∧ t.sp.pc = s.sp.pc + 8 ∧
      (∀ p, (s.core s.cur.core).perf[k.val]? = some p → t.sp.pair n.val = p.value) ∧
      ∀ m, m ≠ n.val → m ≠ n.val + 1 → t.sp.s.getD m 0 = s.sp.s.getD m 0) ∧
    ((s.src a).isUni = true →
      (s.pools.traceRing = none → exec (.perfMark a) s = .next s.advance) ∧
      (∀ base size, s.pools.traceRing = some (base, size) → s.w.count .s < 255 → isHostPa base = false → Runs (.perfMark a) s fun t =>
        t.sp.pc = s.sp.pc + 8 ∧ t.w.count .s = s.w.count .s + 1 ∧ same t ∧ ∃ acc e, t.w.accs = s.w.accs ++ [acc] ∧ acc.op = .ring 32 ∧
          acc.elems = [e] ∧ e.pa = base ∧ e.data = leBytes 8 (s.now s.cur.core).toNat ++ leBytes 8 (s.core s.cur.core).cyc.toNat ++
            leBytes 4 s.w.grid ++ leBytes 4 x.toNat ++ leBytes 2 s.cur.core ++ leBytes 1 s.w.idx ++ leBytes 1 (s.w.stage % 8) ++ leBytes 4 0)) ∧
    (∀ (c : Cursor) (d : DWord), (s.withCur c).live = true → (s.withCur c).sp.status = .waiting (.sleep (some d)) → (s.withCur c).w.stop = .none →
      (past (s.now c.core) d = true → Runs (.sleepExpiry c) s fun t => (t.withCur c).sp.status = .running ∧
        (t.withCur c).sp.pc = (s.withCur c).sp.pc + 8 ∧ t.mem = s.mem) ∧
      (past (s.now c.core) d = false → exec (.sleepExpiry c) s = .next s)) ∧
    (∀ (grid wg idx core ctx : Nat) (c : Core) (w : Wave), s.cores = [(core, c)] → c.waves = [(ctx, w)] → w.grid = grid → w.idx = idx →
      (s.wg w.wg).lin = wg → s.saved = [] → Runs (.wake grid wg idx) s fun t => t.mem = s.mem ∧ ∃ w', t.wave? core ctx = some w' ∧ w'.wakePend = false ∧ w'.v = w.v ∧
        w'.splits = w.splits.map fun p => match p.status with
          | .waiting (.sleep _) => { p with pc := p.pc + 8, status := .running }
          | _ => p)

/-- R32, R235, R236: a core cycle begins when the one before has ended and lasts as its slowest class; it starts at most one
split of the core on a pipe, and leaves the open class only when nothing of that class is in execute. A class that waited 128
cycles stops the open class. R240 to R245: a request makes a wave stop; its drain ends with its counters at zero; its context is
then written to memory and freed; an evicted workgroup's reservations follow; a resumed wave holds what the save area says. Log
entry 28: the spare bits of a saved split. -/
def Obligations.CoreCycleAndPreemption : Prop :=
  (∀ (s : State) (core : Nat),
    let k := s.core core
    (s.hostReads = [] → Runs (.coreCycleIssue core) s fun t => (t.core core).cyc = k.cyc + 1 ∧ t.tu = max s.tu k.cycEnd ∧ t.mem = s.mem ∧ t.wgs = s.wgs ∧
      (t.core core).cycEnd = t.tu + Config.cycleTu (t.core core).cycCls (s.cluster (core / 16)).scale ∧
      (∃ woken picks : List Cursor, t.issueQ = s.issueQ ++ woken ++ picks ∧ (∀ c ∈ woken ++ picks, c.core = core) ∧
        (∀ c ∈ woken, (s.withCur c).sp.status = .waiting .need) ∧ (picks.map (·.ctx % 32)).Nodup) ∧
      ((t.core core).openCls ≠ k.openCls → ∀ x ∈ k.execs, x.cls = k.openCls → x.till ≤ (k.cyc + 1).toNat) ∧
      ∀ c ctx w, s.wave? c ctx = some w → ∃ w', t.wave? c ctx = some w' ∧ w'.v = w.v ∧ w'.p = w.p ∧
        w'.accs.map (·.id) = w.accs.map (·.id)) ∧
    (k.waited (s.readies core) = true → Runs (.classWaitExpiry core) s fun t => (t.core core).exhausted = true ∧ t.mem = s.mem ∧ t.wgs = s.wgs) ∧
    (k.waited (s.readies core) = false → exec (.classWaitExpiry core) s = .next s)) ∧
  (∀ (s : State) (core ctx : Nat) (w : Wave), s.wave? core ctx = some w →
    let kept (t : State) (stop : Stop) : Prop := t.mem = s.mem ∧ ∃ w', t.wave? core ctx = some w' ∧ w'.stop = stop ∧ w'.v = w.v ∧ w'.p = w.p ∧
      w'.splits.map (fun p => (p.id, p.pc, p.mask, p.s)) = w.splits.map (fun p => (p.id, p.pc, p.mask, p.s))
    (w.stop = .none → Runs (.preemptionRequest (.wave core ctx)) s (kept · .draining) ∧
      Runs (.preemptionRequest (.grid w.grid)) s (kept · .draining) ∧
      ∀ ev, Runs (.preemptionRequest (.workgroup w.wg ev)) s fun t => kept t .draining ∧
        ∀ g, look s.wgs w.wg = some g → g.xbind = true → (t.wg w.wg).evict = g.evict) ∧
    (w.stop = .draining → (w.accs = [] → (s.core core).settledCtx ctx = true → Runs (.waveDrainComplete core ctx) s fun t => kept t .drained ∧
        ∃ w', t.wave? core ctx = some w' ∧ w'.fob = [] ∧ ∀ p ∈ w'.splits, p.windows = []) ∧
      (w.accs ≠ [] ∨ (s.core core).settledCtx ctx = false → exec (.waveDrainComplete core ctx) s = .next s)) ∧
    (∀ addr, w.stop = .drained → (w.area <|> s.savePlace (saveSize w.g)) = some addr → s.memOk → s.rbase = none →
      (∀ p ∈ w.splits, ∀ x, p.status.meeting x = none) →
      Runs (.contextSave core ctx) s fun t => t.wave? core ctx = none ∧ Stored s t addr (s.saveBytes core w) ∧
        t.saved = s.saved ++ [⟨w.grid, w.wg, w.idx, w.prio, addr, w.g, w.brk, w.wakePend, w.created, w.streams.length, w.handler, w.owed, w.lwt,
          (w.splits.filter Split.sleeping).map (·.id)⟩]) ∧
    (∀ wg g addr, look s.wgs wg = some g → g.core = some core → g.evict = true → g.ended = false → g.live = 0 → s.wgBusy core wg = false →
      s.savePlace g.saveSize = some addr → s.memOk → s.rbase = none → Runs (.workgroupEvict wg) s fun t =>
        Stored s t addr g.saveBytes ∧ (t.wg wg).core = none ∧ (t.wg wg).saveAt = addr) ∧
    (∀ (i k : Nat) (x : Saved), s.saved[i]? = some x → s.mayResume x k = true → s.badMem = [] →
      let b (o n : Nat) : Nat := s.physNat (x.addr + o) n
      (b 0 4 ≠ 0x56535A51 → s.pools.logRing = none → Runs (.waveResume i k) s fun t => (t.grid x.grid).stopped = (look s.grids x.grid).isSome ∧
        t.mem = s.mem) ∧
      (b 0 4 = 0x56535A51 → b 4 2 = 1 → b 6 2 = 0 → x.wake = false → Runs (.waveResume i k) s fun t => t.mem = s.mem ∧ x ∉ t.saved ∧
        ∃ c w', (s.core k).freeCtx.head? = some c ∧ t.wave? k c = some w' ∧ w'.grid = x.grid ∧ w'.wg = x.wg ∧ w'.idx = b 8 1 ∧ w'.prio = b 9 1 ∧
          w'.stage = b 10 1 ∧ w'.n = b 12 1 ∧ w'.g = b 13 1 ∧ w'.mflags.toNat = b 0x11C 4 ∧ (b 0x120 8 ≠ 0 → w'.lwt.toNat = b 0x120 8) ∧ w'.uconf.toNat = b 0x128 8 ∧
          w'.seed.toNat = b 0x130 4 ∧ w'.trapReg.toNat = b 0x158 8 ∧ w'.snd.toNat = b 0x168 4 ∧
          (∀ j < 7, (w'.p.getD j 0).toNat = b (0x100 + 4 * j) 4) ∧
          (∀ j < 128, b (0x580 + 16 * j + 12) 4 / 2 ^ 30 = 1 → ∃ y : Word, w'.v.getD j .unwritten = .uni y ∧ y.toNat = b (0x580 + 16 * j) 4) ∧
          ∀ j < 4, b (0x40 + 16 * j + 12) 2 % 2 = 1 → ∃ p, w'.split? j = some p ∧ p.pc.toNat = b (0x40 + 16 * j) 8 / 2 * 2 ∧
            p.mask.toNat = b (0x40 + 16 * j + 8) 4 ∧ ∀ n < 64, (p.s.getD n 0).toNat = b (0x180 + 256 * j + 4 * n) 4)))

/-- R18, R279, R280, R341 to R345: a dispatched workgroup has its buffers at zero, its tags and barriers blank, and its waves at
the entry with the values of a launch; a gang goes whole or not at all; a grid ends when nothing of it is left. R349: a gatherer
pops the task at its queue's head into the bin of its entry, or discards it; a bin launches when it has waited 128 ns; a
launched bin becomes a wave whose thread t holds task t. Log entry 80: a launch's seed counts the waves of the workgroups before
it. -/
def Obligations.WorkDistribution : Prop :=
  (∀ (s : State) (gid : Nat) (r : Grid), look s.grids gid = some r →
    (∀ core p, s.waitingStage = none → s.returning = none → s.chosen = some gid → r.d.kind = 0 → r.place = none → r.chain = none →
      s.nextSpots r = some [(core, p)] → r.d.waves ≤ (s.core core).freeCtx.length → r.d.noRoles = true →
      Runs .workgroupDispatch s fun t => t.mem = s.mem ∧ t.nextWg = s.nextWg + 1 ∧
        (∃ r', look t.grids gid = some r' ∧ r'.next = r.next + 1) ∧
        (∃ g, look t.wgs s.nextWg = some g ∧ g.grid = gid ∧ g.lin = r.next ∧ g.core = some core ∧ g.a = [] ∧ g.w = [] ∧ g.c = [] ∧
          g.ta = List.replicate r.d.abuf Tag.blank ∧ g.tw = List.replicate r.d.wbuf Tag.blank ∧ g.tc = List.replicate r.d.cbuf Tag.blank ∧
          g.bars = List.replicate r.d.barriers Bar.blank ∧ g.wgr = List.replicate 16 0) ∧
        ∀ i < r.d.waves, ∃ ctx w q, (s.core core).freeCtx[i]? = some ctx ∧ t.wave? core ctx = some w ∧ w.idx = i ∧ w.grid = gid ∧
          w.wg = s.nextWg ∧ w.n = r.d.n ∧ w.prio = r.d.prio ∧ w.v = List.replicate 128 .unwritten ∧ w.p = List.replicate 7 0 ∧ w.accs = [] ∧
          w.seed = BitVec.ofNat 32 (r.next * r.d.waves + i) * 0x9E3779B9#32 + 0x6D2B79F5#32 ∧
          w.splits = [q] ∧ q.pc = r.d.entry ∧ q.mask = fullMask ∧ q.s = List.replicate 64 0 ∧ q.depth = 0) ∧
    (s.returning = none → r.d.kind = 1 → r.place = none → r.next = 0 → r.stopped = false → s.chosen = some gid →
      Runs (.gangDispatch gid) s fun t => ∃ r', look t.grids gid = some r' ∧ r'.next = r.total) ∧
    (s.tryGrid gid = none → exec (.gangDispatch gid) s = .next s) ∧
    (s.gridOver gid r = true → s.posting (tagWho gid) = false → r.area = none → r.chain = none → Runs (.gridEnd gid) s fun t => look t.grids gid = none ∧ t.mem = s.mem ∧
      (∀ e ∈ t.wgs, e.2.grid ≠ gid) ∧ (∀ e ∈ s.wgs, e.2.grid ≠ gid → e ∈ t.wgs) ∧
      ∀ k c, r.cp = some k → look s.cps k = some c → ∃ c', look t.cps k = some c' ∧ gid ∉ c'.grids ∧ c'.due = maxD c.due (maxD r.lwt r.sendT)) ∧
    (s.gridOver gid r = false → exec (.gridEnd gid) s = .next s) ∧
    (∀ temps : List Nat, temps.length = 128 → Runs (.thermalSample temps) s fun t => ∀ c < 128,
      some (t.cluster c).temp = temps[c]? ∧ (t.cluster c).clim = (s.cluster c).clim)) ∧
  (∀ (s : State) (cluster gid : Nat) (r : Grid) (e : TlbE), look s.grids gid = some r →
    let turn := ((s.cluster cluster).taskQs.filter fun g => !(s.grid g).stopped).head?
    let turned (t : State) : Prop := (t.cluster cluster).taskQs = (s.cluster cluster).taskQs.filter (· != gid) ++ [gid]
    let u := s.gatherWho cluster gid
    (turn ≠ some gid → exec (.gathererPop cluster gid) s = .next s) ∧
    (turn = some gid → s.unitXlate u cluster r.d.asid r.d.root r.d.taskq = .ok (.page e) → e.w = true →
      isHostPa (e.pa? r.d.taskq) = false →
      let pa := e.pa? r.d.taskq
      let op := AskOp.pop (e.va + e.size - r.d.taskq)
      let pops (f : State → Prop) : Prop := Runs (.gathererPop cluster gid) s f
      (∀ n, s.acted u op pa 128 = .error n → (∀ a ∈ s.asks, a.src ≠ u.src) → pops fun t => t.mem = s.mem ∧
        (t.cluster cluster).bins = (s.cluster cluster).bins ∧ ∃ a ∈ t.asks, a.src = u.src ∧ a.pa = pa ∧ a.op = op) ∧
      (s.acted u op pa 128 = .ok (some [0]) → pops fun t => turned t ∧ t.mem = s.mem ∧ (t.cluster cluster).bins = (s.cluster cluster).bins) ∧
      (∀ slot c, s.acted u op pa 128 = .ok (some (1 :: slot)) → s.entryCheck u cluster gid (dwordOf slot 0) = .ok c → s.pools.logRing = none →
        (c = .ok → (s.cluster cluster).bins = [] → pops fun t => turned t ∧ t.mem = s.mem ∧ ∃ b, (t.cluster cluster).bins = [b] ∧
          b.entry = dwordOf slot 0 ∧ b.grid = gid ∧ b.since = s.tu ∧ b.launched = false ∧ b.tasks = [(wordsOf slot 32 8, fieldAt slot 8 4)]) ∧
        (c = .bad → pops fun t => turned t ∧ t.mem = s.mem ∧ (t.cluster cluster).bins = (s.cluster cluster).bins ∧
          ∃ bs, t.out = s.out ++ [.event bs] ∧ (bs.drop 16).take 2 = leBytes 2 5))) ∧
    (∀ (pos tag room : Nat) (q : Req) (a : Ask) (l : L2Line) (h : QHdr),
      let k := sliceOf q.pa
      let at_ := q.pa + 128 + h.head % h.cap * 64
      let pops (f : State → Prop) : Prop := Runs (.sliceRequest k pos) s f
      (s.slice k).q[pos]? = some q → s.inOrder k pos q = true → s.outranked k q = false → s.rbase = none → q.for_ = .unit tag →
      (s.slice k).lines.find? (·.line == q.pa / 128) = some l → l.miss = none → l.claim = none →
      s.asks.find? (·.tag == tag) = some a → a.pa = q.pa → a.for_ = .poll → a.op = .pop room → s.badMem = [] → s.memOk →
      isHostPa q.pa = false → s.qhdr a.chain q.pa 3 64 room = some h →
      (h.count = 0 → pops fun t => t.mem = s.mem ∧ ∃ x ∈ t.asks, x.tag = tag ∧ x.got = some (some [0])) ∧
      (h.count ≠ 0 → s.lineIn (at_ / 128) = true → pops fun t => Stored s t q.pa (leBytes 4 ((h.head + 1) % 2 ^ 32)) ∧
        ∃ x ∈ t.asks, x.tag = tag ∧ x.got = some (some (1 :: s.physs at_ 64)))) ∧
    (∀ (i : Nat) (b : Bin), (s.cluster cluster).bins[i]? = some b →
      (b.launched = false → b.since + 128 * Config.tuPerNs ≤ s.tu → Runs (.gathererBinTimeout cluster i) s fun t =>
        (t.cluster cluster).bins = (s.cluster cluster).bins.set i { b with launched := true } ∧ t.mem = s.mem) ∧
      (b.launched = true ∨ s.tu < b.since + 128 * Config.tuPerNs → exec (.gathererBinTimeout cluster i) s = .next s) ∧
      (∀ core p, b.launched = true → b.grid = gid → r.stopped = false → s.posting (tagWho gid) = false → r.d.waves = 1 → (s.core core).freeCtx ≠ [] → b.tasks.length ≤ 32 →
        s.firstFit r ((List.range 16).map (16 * cluster + ·)) = some (core, p) → Runs (.taskBinLaunch cluster i) s fun t => t.mem = s.mem ∧
          (t.cluster cluster).bins = (s.cluster cluster).bins.eraseIdx i ∧
          ∃ ctx w q, (s.core core).freeCtx.head? = some ctx ∧ t.wave? core ctx = some w ∧ w.grid = gid ∧ w.wg = s.nextWg ∧ w.splits = [q] ∧
            q.pc = b.entry ∧ (q.s.getD 0 0).toNat = b.tasks.length ∧ (∀ k < 32, q.mask.getLsbD k = decide (k < b.tasks.length)) ∧
            w.exited = ~~~q.mask ∧ ∀ j < 8, (w.v.getD j .unwritten).isGen = true ∧ ∀ k x, b.tasks[k]? = some x →
              (w.v.getD j .unwritten).at k = x.1.getD j 0)))

/-- R370, R373 to R379: a due strip is admitted with its deadline and one density step less; a checkpoint that predicts a late
strip raises d; a finished chain commits; one at its deadline is late and frees its slot; an early chain is confirmed when the
scene word still stands and is otherwise squashed and begun anew. R383 to R389, R392: tether rows are copied from a finished
neighbour, or replaced with a record at Tf − UB; a consumer judges a strip at Tf; each line goes out at its time, from the ring
or the fallback; an AV1 frame's unit is written and its write offset follows when its bytes are in place. Log entries 70, 35 and
36: what the detail of a strip's record holds, which strips are neighbours, and when a slot is free. -/
def Obligations.StripPipeline : Prop :=
  (∀ (s : State) (i : Nat) (x : Stream), look s.streams i = some x → x.closing = false →
    let begun (t : State) (c : Chain) : Prop := c.stream = i ∧ c.frame = x.frame ∧ c.strip = x.next ∧ c.d = x.prevD.getD 0 - 1 ∧ c.cstage = 1 ∧
      c.tf = x.cfg.epoch + BitVec.ofNat 64 (x.frame * x.cfg.period + x.next * x.cfg.h * x.cfg.lp) - BitVec.ofNat 64 x.cfg.lead ∧
      c.slot = (x.frame * x.cfg.strips + x.next) % x.cfg.ns ∧ c.committed = none ∧
      ∃ x', look t.streams i = some x' ∧ x'.prevD = some c.d ∧
        (x.next + 1 = x.cfg.strips → x'.frame = x.frame + 1 ∧ x'.next = 0) ∧
        (x.next + 1 ≠ x.cfg.strips → x'.frame = x.frame ∧ x'.next = x.next + 1)
    let due := x.strip.isSome = true ∧ s.chains = []
    (s.admissible i x = true → due → Runs (.chainAdmission i) s fun t => ∃ c, look t.chains s.nextChain = some c ∧ begun t c ∧
      c.admitted = true ∧ c.early = false ∧ c.at_ = s.dtc) ∧
    (s.admissible i x = false → exec (.chainAdmission i) s = .next s) ∧
    (∀ w, due → x.cfg.scene ≠ 0 → (∀ k ∈ x.cores, (s.core k).waves = []) → s.atOrPast (x.ts x.frame x.next) = false →
      s.sceneWord (earlyWho i) x.cfg = .ok (some w) →
      Runs (.chainEarlyStart i) s fun t => ∃ c, look t.chains s.nextChain = some c ∧ begun t c ∧ c.admitted = false ∧ c.early = true ∧ c.scene = w) ∧
    (due → s.atOrPast (x.cfg.tf x.frame x.next) = true → Runs (.stripLate i) s fun t => ∃ c bs, look t.chains s.nextChain = some c ∧
      c.strip = x.next ∧ c.frame = x.frame ∧ c.ended = true ∧ c.committed = none ∧ t.out = s.out ++ [.event bs] ∧ (bs.drop 16).take 2 = leBytes 2 0x20) ∧
    (∀ (k : Nat) (c : Chain), s.chains = [(k, c)] → c.stream = i → c.runs = true →
      let goes (e : Instr) (p : State → Chain → Stream → Prop) : Prop := Runs e s fun t => ∃ c' x', look t.chains k = some c' ∧ look t.streams i = some x' ∧ p t c' x'
      (∀ g gp rb, s.checkDue c = some g → (x.histOf c.strip).com = some (gp, rb) →
        let since := (s.dtc - c.at_).toNat
        let late := 0 < (s.dtc + BitVec.ofNat 64 ((gp - c.given) * since / c.given + rb) - (c.tf - BitVec.ofNat 64 x.cfg.guardT)).toInt
        goes (.densityCheckpoint i) fun t c' x' => (late → c'.d = min 4 (c.d + 1)) ∧ (¬late → c'.d = c.d) ∧ c'.checks = c.checks + 1 ∧
          x'.prevD = some c'.d ∧ t.mem = s.mem) ∧
      (s.checkDue c = none → exec (.densityCheckpoint i) s = .next s) ∧
      (c.admitted = true → c.cstage = 4 → (s.dtc - c.tf).toInt ≤ 0 → goes (.chainCommit i) fun t c' x' => c'.committed = some s.dtc ∧ t.mem = s.mem ∧
        t.ring = s.ring ∧ x'.hasLast = true ∧ (x'.histOf c.strip).com = some (c.given, (s.dtc - c.stage1End).toNat) ∧
        ∀ d, c.disp = some d → (x'.histOf c.strip).bs = some (s.dtc - d).toNat) ∧
      (0 < (s.dtc - c.tf).toInt → exec (.chainCommit i) s = .next s) ∧
      (0 ≤ (s.dtc - c.tf).toInt → goes (.stripLate i) fun t c' _ => c'.ended = true ∧ c'.freed = true ∧ c'.committed = none ∧
        ∃ bs, t.out = s.out ++ [.event bs] ∧ (bs.drop 16).take 2 = leBytes 2 0x20) ∧
      (c.early = true → c.admitted = false → 0 ≤ (s.dtc - c.ts).toInt →
        (s.sceneWord (confirmWho k) x.cfg = .ok (some c.scene) → goes (.chainConfirmOrSquash i) fun _ c' x' => c'.admitted = true ∧ c'.squash = false ∧ x' = x) ∧
        (∀ w, s.sceneWord (confirmWho k) x.cfg = .ok w → w ≠ some c.scene → x.strip.isSome = true → c.squash = false → k < s.nextChain → goes (.chainConfirmOrSquash i) fun t c' x' =>
          c'.squash = true ∧ c'.ended = true ∧ x'.squashes = x.squashes + 1 ∧
          ∃ c2, look t.chains s.nextChain = some c2 ∧ c2.admitted = true ∧ c2.frame = c.frame ∧ c2.strip = c.strip)))) ∧
  (∀ (s : State) (i : Nat) (x : Stream), look s.streams i = some x →
    let cfg := x.cfg
    let now := s.dtc
    let goes (e : Instr) (p : State → Stream → Prop) : Prop := Runs e s fun t => ∃ x', look t.streams i = some x' ∧ p t x'
    (∀ (k : Nat) (c n : Chain) (low : Bool), c.stream = i → look s.chains k = some c → s.memOk →
      (s.chainsOf i).findSome? (fun e => if e.2.strip = c.strip then (s.mayCopy e.2 low).map fun n => (e.1, e.2, n) else none) = some (k, c, n) →
      let first : Int := if low then 0 else (cfg.rows n.strip : Int) - cfg.tr
      let dst (r : Nat) : Nat := s.rowAddr c (if low then ((cfg.rowH + r : Nat) : Int) else (r : Int) - cfg.tr)
      let src (r : Nat) : Nat := s.rowAddr n (first + r)
      let len := cfg.wt * cfg.bpp
      (∀ r < cfg.tr, ∀ q < cfg.tr, (dst r + len ≤ src q ∨ src q + len ≤ dst r) ∧ (r < q → dst r + len ≤ dst q)) →
      Runs (.tetherCopy i c.strip low) s fun t => (∀ r < cfg.tr, ∀ b < len, t.phys (dst r + b) = s.phys (src r + b)) ∧
        ∃ c', look t.chains k = some c' ∧ (if low then c'.lower else c'.upper) = true) ∧
    (∀ (k : Nat) (c : Chain) (low : Bool), s.chains = [(k, c)] → c.stream = i → c.admitted = true → c.runs = true → cfg.hasRender = true →
      (if low then c.lower else c.upper) = false → 0 ≤ (now - (c.tf - BitVec.ofNat 64 c.cfg.ub)).toInt → Runs (.haloSubstituted i low) s fun t =>
        (∃ c', look t.chains k = some c' ∧ (if low then c'.lower else c'.upper) = true) ∧
        ∃ bs, t.out = s.out ++ [.event bs] ∧ (bs.drop 16).take 2 = leBytes 2 0x21) ∧
    (∀ (k : Nat) (c : Chain), s.chains = [(k, c)] → c.stream = i → c.judged = false → c.squash = false → x.closing = false →
      (0 ≤ (now - c.tf).toInt → c.committed.isSome = true ∨ c.ended = true → cfg.consumer ≠ 1 → goes (.stripConsume i) fun t _ => t.mem = s.mem ∧ t.ring = s.ring ∧
        ∃ c', look t.chains k = some c' ∧ c'.judged = true ∧ c'.fall = if x.hasLast && !cfg.colourFallback then some x.lastLine else none) ∧
      (0 ≤ (now - c.tf).toInt → c.committed.isSome = true ∨ c.ended = true → cfg.consumer = 1 → x.line < cfg.strips → x.qovr.isSome = true →
        goes (.stripConsume i) fun _ x' => x'.line = x.line + 1 ∧
          (c.committed.isSome = true → c.frame = x.cframe → c.strip = x.line → 0 < cfg.h → x'.src = x.src ++ [planes420
            ((List.range (min cfg.va ((x.line + 1) * cfg.h) - x.line * cfg.h)).map fun j =>
              (cfg.fmt, s.physs (s.rbase.getD 0 + s.slotBase c + j * cfg.pf) (cfg.wo * cfg.bpp)))])) ∧
      (0 < (c.tf - now).toInt → exec (.stripConsume i) s = .next s)) ∧
    (∀ (k : Nat) (c : Chain), s.chains = [(k, c)] → c.stream = i → c.judged = true → c.frame = x.cframe → c.strip = x.line / cfg.h → x.closing = false →
      let time := cfg.epoch + BitVec.ofNat 64 (x.cframe * cfg.period + x.line * cfg.lp)
      let r := if c.committed.isSome then (cfg.fmt, s.physs (s.rbase.getD 0 + s.slotBase c + (x.line % cfg.h) * cfg.pf) (cfg.wo * cfg.bpp))
        else match c.fall with
          | some bs => (cfg.fmt, bs)
          | none => (0, (List.replicate cfg.wo (leBytes 4 cfg.colour.toNat)).flatten)
      let moved (x' : Stream) : Prop := (x.line + 1 = cfg.va → x'.line = 0 ∧ x'.cframe = x.cframe + 1) ∧
        (x.line + 1 ≠ cfg.va → x'.line = x.line + 1 ∧ x'.cframe = x.cframe)
      let sig := dpSignal cfg.recBytes
      (cfg.consumer = 0 → 0 ≤ (now - (time - BitVec.ofNat 64 cfg.lp)).toInt → goes (.displayportLine i) fun t x' => moved x' ∧ t.mem = s.mem ∧
        t.out = s.out ++ [.display cfg.unit x.line sig (List.replicate (6 * sig.hStart) 0 ++ linePixels r.1 sig.bpc r.2 ++
            List.replicate (6 * (sig.hTotal - sig.hStart - (linePixels r.1 sig.bpc r.2).length / 6)) 0)
          (if x.line + 1 = cfg.va then sig.vTotal - cfg.va else 0) time]) ∧
      (cfg.consumer = 2 → 0 ≤ (now - time).toInt → s.linkUp = true → goes (.st2110LineSend i) fun t x' => moved x' ∧ t.mem = s.mem ∧
        ∃ frames, t.out = s.out ++ [.rtp i x.line (rtpTime (cfg.epoch + BitVec.ofNat 64 (x.cframe * cfg.period))) frames time] ∧
          x'.rtpSeq = (x.rtpSeq + frames.length) % 2 ^ 32 ∧
          frames = rtpFrames cfg.recBytes x.rtpSeq (rtpTime (cfg.epoch + BitVec.ofNat 64 (x.cframe * cfg.period))) x.line
            (decide (x.line + 1 = cfg.va)) (lineOctets (fieldAt cfg.recBytes 1 1 / 2 % 4) r.1 r.2)) ∧
      (0 < (time - BitVec.ofNat 64 cfg.lp - now).toInt → exec (.displayportLine i) s = .next s) ∧
      (0 < (time - now).toInt → exec (.st2110LineSend i) s = .next s)) ∧
    (cfg.consumer = 1 → x.closing = false →
      let hdr := fieldAt cfg.recBytes 0x18 8
      let qa := fieldAt cfg.recBytes 0x20 8
      (∀ bs, x.line = 0 → qa ≠ 0 → x.qovr = none → 0 ≤ (now - cfg.tf x.cframe 0).toInt →
        s.ownRead (qovrWho i) cfg.asid cfg.root qa 4 = .ok (.ok bs) → bs.length = 4 → leNat bs < 1024 → (leNat bs / 256 % 2 = 1 → leNat bs % 256 ≠ 0) →
        goes (.av1QovrRead i) fun t x' => x'.qovr = some (BitVec.ofNat 32 (leNat bs)) ∧ t.mem = s.mem) ∧
      (∀ wr tm e, x.obu = some (wr, tm) → 0 ≤ (now - tm).toInt → (∀ a ∈ s.asks, a.for_ ≠ .obu i) → hdr % 128 = 0 →
        s.ownWalk (obuWho i) cfg.asid cfg.root hdr = .ok (.page e) → e.w = true →
        goes (.av1FrameEncode i) fun t x' => x'.obu = none ∧ t.mem = s.mem ∧
          ∃ a ∈ t.asks, a.src = .strips ∧ a.pa = e.pa? hdr ∧ a.op = .write (leBytes 4 wr)) ∧
      (∀ wr tm, x.obu = some (wr, tm) → 0 < (tm - now).toInt ∨ (∃ a ∈ s.asks, a.for_ = .obu i) → exec (.av1FrameEncode i) s = .next s) ∧
      (∀ u, x.obu = none → x.line = cfg.strips → s.writeUnit i x = .ok u → goes (.av1FrameEncode i) fun _ x' => x'.line = 0 ∧
        x'.cframe = x.cframe + 1 ∧ x'.src = [] ∧ x'.qovr = none ∧ (x.key = true → x'.keyAge = 1) ∧ (x.key = false → x'.keyAge = x.keyAge + 1) ∧
        ∀ h, s.ownRead (obuWho i) cfg.asid cfg.root hdr 64 = .ok (.ok h) →
          let bs := av1Unit s.free x.quant x.key x.src
          let unit := leBytes 4 bs.length ++ bs ++ List.replicate ((4 - bs.length % 4) % 4) 0
          let used := (leNat (h.take 4) + 2 ^ 32 - leNat ((h.drop 4).take 4)) % 2 ^ 32
          (fieldAt cfg.recBytes 0x10 4 < used + unit.length → x'.keyNext = true ∧ x'.obu = none) ∧
          (used + unit.length ≤ fieldAt cfg.recBytes 0x10 4 → x'.keyNext = false →
            x'.obu = some ((leNat (h.take 4) + unit.length) % 2 ^ 32, s.dtc)))))

/-- R421 to R426: a command processor runs the packet at its position, checks it, and stands after it; LAUNCH accepts a grid, IB
and LOOP open a stream and a body, PRED skips, WAITMEM, TIMEWAIT and FENCE wait, WRITE stores part by part and is over once
every part is performed; where a read or a walk is still to come the processor stays; a bad packet halts it. Log entry 79: its
reads and walks are its own requests to the slices. Log entries 39 and 21: where head stands, and what a recorded time of none
means. -/
def Obligations.CommandPackets : Prop :=
  ∀ (s : State) (k : Nat) (c : CP) (p : Pkt), s.cpFetch k = .packet c p →
    let size := 4 + 4 * p.len
    let addr := p.w 0 + p.w 1 * 2 ^ 32
    let bare : Prop := c.ib = [] ∧ c.loops = []
    let put : Prop := ∃ f, s.headPut k c = .ok f
    let queue : Prop := bare ∧ put
    let at_ (t : State) (n : Nat) : Prop := (t.cp k).head = c.head + n ∧ (t.cp k).ib = [] ∧ (t.cp k).loops = [] ∧ (t.cp k).wait = .none ∧
      (t.cp k).tail = c.tail ∧ (t.cp k).running = true
    let still (t : State) : Prop := (t.cp k).head = c.head ∧ (t.cp k).ib = c.ib ∧ (t.cp k).loops = c.loops ∧ t.mem = s.mem
    let quietHead (t : State) : Prop := t.mem = s.mem ∧ t.ring = s.ring ∧ (c.headWord = none → t.out = s.out)
    let good (op : Nat) : Prop := p.op = op ∧ p.formOk = true ∧ p.valuesOk = true ∧ c.wait = .none
    let word (w : Nat) : Prop := s.cpRead k c addr = .ok w
    let cmp (a b : Nat) : Prop := match p.flags with
      | 0 => a = b | 1 => a ≠ b | 2 => a < b | 3 => b ≤ a | 4 => b < a | _ => a ≤ b
    (good 0 → (queue → Runs (.cpNop k) s fun t => at_ t size ∧ quietHead t) ∧
      (∀ n, bare → s.headPut k c = .error n → Runs (.cpNop k) s still) ∧
      (∀ va e, bare → c.headWord = some va → va % 8 = 0 → s.ownWalk (cpWho k) c.asid c.root va = .ok (.page e) → e.w = true →
        Runs (.cpNop k) s fun t => at_ t size ∧
          ∃ a ∈ t.asks, a.src = .cp k ∧ a.pa = e.pa? va ∧ a.op = .write (leBytes 8 (c.head + size))) ∧
      ∀ l : LoopSt, c.ib = [] → c.loops = [l] → l.depth = 0 → c.head + size = l.stop → put → Runs (.cpNop k) s fun t =>
        (1 < l.left → (t.cp k).head = l.start ∧ (t.cp k).loops = [{ l with left := l.left - 1 }]) ∧
        (l.left ≤ 1 → (t.cp k).head = l.stop ∧ (t.cp k).loops = [])) ∧
    (good 1 → queue →
      (s.ready.getLsbD 3 = false ∨ 255 ≤ s.grids.length → Runs (.cpLaunch k) s still) ∧
      (s.ready.getLsbD 3 = true → s.grids.length < 255 →
        (∀ bs, addr % 128 = 0 → s.ownRead (launchWho k) c.asid c.root addr 128 = .ok (.ok bs) → s.descOk (descOf bs) = true →
          Runs (.cpLaunch k) s fun t => at_ t size ∧ t.nextGrid = s.nextGrid + 1 ∧ (t.cp k).grids = (s.cp k).grids ++ [s.nextGrid] ∧
            ∃ r, look t.grids s.nextGrid = some r ∧ r.d = descOf bs ∧ r.cp = some k ∧ r.chain = none ∧ r.next = 0 ∧ r.done = 0 ∧ r.stopped = false) ∧
        (∀ bs, addr % 128 ≠ 0 ∨ (s.ownRead (launchWho k) c.asid c.root addr 128 = .ok (.ok bs) ∧ s.descOk (descOf bs) = false) → c.headWord = none →
          Runs (.cpLaunch k) s fun t => at_ t size ∧ t.grids = s.grids ∧ (t.cp k).grids = (s.cp k).grids ∧
            ∃ bs, t.out = s.out ++ [.event bs] ∧ (bs.drop 16).take 2 = leBytes 2 2))) ∧
    (good 2 → c.ib.length < 4 → Runs (.cpIb k) s fun t => (t.cp k).head = c.head ∧ (t.cp k).loops = c.loops ∧ t.mem = s.mem ∧
      (t.cp k).ib = ⟨addr, addr + 4 * p.w 2⟩ :: c.ib) ∧
    (good 3 → queue → (p.w 1 = 0 → Runs (.cpLoop k) s (at_ · size)) ∧
      (0 < p.w 1 → Runs (.cpLoop k) s fun t => (t.cp k).head = c.head + size ∧
        (t.cp k).loops = [⟨c.head + size, c.head + size + 4 * p.w 1, p.w 0, 0⟩])) ∧
    (∀ w, good 4 → queue → word w → (¬cmp w (p.w 2) → Runs (.cpPred k) s fun t => at_ t size ∧ quietHead t) ∧
      ∀ q, cmp w (p.w 2) → s.skip k c (min (p.w 3) ((c.tail - (c.head + size)) / 4)) (c.head + size) = .ok q → c.head ≤ q →
        Runs (.cpPred k) s (at_ · (q - c.head))) ∧
    (∀ w, p.op = 5 → p.formOk = true → p.valuesOk = true → queue → word w →
      let e := if c.wait = .none then Instr.cpWaitmem k else .waitmemReread k
      (c.wait = .none ∨ c.wait = .mem) →
      (cmp (w &&& p.w 3) (p.w 2) → Runs e s fun t => at_ t size ∧ quietHead t) ∧
      (¬cmp (w &&& p.w 3) (p.w 2) → Runs e s fun t => still t ∧ (t.cp k).wait = .mem)) ∧
    (good 6 → queue →
      let data := (p.words.drop 2).flatMap (leBytes 4)
      let mine := s.asks.filter fun a => a.src == .cp k && a.key == 1
      (∀ ps, mine = [] → State.writeVia (s.ownWalk (cpWho k) c.asid c.root) addr data.length = .ok (.ok ps) → Runs (.cpWrite k) s fun t => still t ∧
        ∀ x ∈ ps, ∀ y ∈ partsAt x.1 x.2.1, ∃ a ∈ t.asks, a.src = .cp k ∧ a.key = 1 ∧ a.pa = y.1 ∧
          a.op = .write (((data.drop x.2.2).take x.2.1).drop y.2.2 |>.take y.2.1)) ∧
      (mine ≠ [] → (∃ a ∈ mine, a.got = none) → Runs (.cpWrite k) s still) ∧
      (mine ≠ [] → (∀ a ∈ mine, a.got.isSome = true ∧ a.back ≤ s.tu) → Runs (.cpWrite k) s fun t => at_ t size ∧ quietHead t ∧
        (t.cp k).wdue = maxD (s.cp k).wdue (mine.foldl (fun t a => maxD t a.time) 0))) ∧
    (good 7 → queue →
      let grids : Prop := (s.cp k).grids = [] ∧ ((s.cp k).due = 0 ∨ 0 ≤ (s.dtc - (s.cp k).due).toInt)
      let writes : Prop := ((s.cp k).wdue = 0 ∨ 0 ≤ (s.dtc - (s.cp k).wdue).toInt) ∧ ∀ h ∈ s.hostAccs, h.write = true → h.cp ≠ some k
      ((p.flags % 2 = 1 → grids) → (p.flags / 2 % 2 = 1 → writes) → Runs (.cpFence k) s fun t => at_ t size ∧ quietHead t) ∧
      (p.flags % 2 = 1 → (s.cp k).grids ≠ [] → Runs (.cpFence k) s fun t => still t)) ∧
    (good 8 → queue → Runs (.cpFetchfence k) s fun t => at_ t size ∧ quietHead t ∧ (t.cp k).held = []) ∧
    (good 9 → queue → c.headWord = none → (p.flags % 2 = 1 → s.gridsDone k = true) → Runs (.cpEvent k) s fun t => at_ t size ∧
      t.out = s.out ++ [.cpEvent k (BitVec.ofNat 32 (p.w 0)) (BitVec.ofNat 32 (p.w 1))]) ∧
    (p.op = 10 → p.formOk = true → queue →
      let time : DWord := BitVec.ofNat 64 addr
      (0 ≤ (s.dtc - time).toInt → (c.wait = .none → Runs (.cpTimewait k) s fun t => at_ t size ∧ quietHead t) ∧
        (c.wait = .time time → Runs (.timewaitTimeReached k) s fun t => at_ t size ∧ quietHead t)) ∧
      (0 < (time - s.dtc).toInt → (c.wait = .none → Runs (.cpTimewait k) s fun t => still t ∧ (t.cp k).wait = .time time) ∧
        (c.wait = .time time → exec (.timewaitTimeReached k) s = .next s))) ∧
    (good 11 → queue → s.ready.getLsbD 3 = true → c.headWord = none →
      let id := fieldAt p.body 0 1
      let x := stripCfgOf p.body c.asid c.root k
      let refused : Prop := Runs (.cpStripcfg k) s fun t => at_ t size ∧ t.streams = s.streams ∧ ∃ bs, t.out = s.out ++ [.event bs]
      (s.stream? id = none → refused) ∧
      (∀ y, s.stream? id = some y → stripForm p.body y.cfg x = false → refused) ∧
      (∀ y d1 d2 d3, s.stream? id = some y → fieldAt p.body 1 1 < 4 → fieldAt p.body 0x56 2 = 0 → fieldAt p.body 0x7C 4 = 0 → x.wt = y.cfg.wt → x.ht = y.cfg.ht →
        x.stab.toNat % 64 = 0 → (x.stage3 ≠ 0 ↔ y.cfg.hasRender = true) → s.stageOk (setupWho k) x x.stage1 = .ok d1 →
        s.stageOk (setupWho k) x x.stage2 = .ok d2 → (y.cfg.hasRender = true → s.stageOk (setupWho k) x x.stage3 = .ok d3) →
        let fit : Prop := d1 ≠ none ∧ d2 ≠ none ∧ (y.cfg.hasRender = true → ∃ d, d3 = some d ∧ x.ttag + 1 < d.abuf)
        (fit → Runs (.cpStripcfg k) s fun t => at_ t size ∧ t.out = s.out ∧ ∃ y', look t.streams id = some y' ∧ y'.strip = some x ∧ y'.cfg = y.cfg) ∧
        (¬ fit → refused))) ∧
    (good 12 → queue → s.ready.getLsbD 3 = true → c.headWord = none →
      let id := fieldAt p.body 0 1
      let x := streamCfgOf p.body c.asid c.root
      let refused : Prop := Runs (.cpStreamcfg k) s fun t => at_ t size ∧ t.streams = s.streams ∧ ∃ bs, t.out = s.out ++ [.event bs]
      let opened (cfg : StreamCfg) : Prop := Runs (.cpStreamcfg k) s fun t => at_ t size ∧ t.out = s.out ∧ ∃ y, look t.streams id = some y ∧
        y.cfg = cfg ∧ y.strip = none ∧ y.next = 0 ∧ y.closing = false ∧ y.frame = y.firstFrame s.dtc
      let may : Prop := id < 48 ∧ streamZeros p.body = true ∧ x.ranges = true ∧ s.stream? id = none ∧ s.roomFor x = true ∧ s.unitsReady x = true
      (fieldAt p.body 1 1 % 2 = 1 → (¬ may → refused) ∧ (may → x.consumer = 3 → opened x) ∧
        ∀ r, may → x.consumer ≠ 3 → s.ownRead (setupWho k) c.asid c.root x.recAddr.toNat 128 = .ok (.ok r) →
          (s.recordOk x r = true → opened { x with recBytes := r }) ∧ (s.recordOk x r = false → refused)) ∧
      (fieldAt p.body 1 1 % 2 = 0 → (48 ≤ id → refused) ∧
        ∀ y, id < 48 → s.stream? id = some y → y.cfg.consumer = 3 → Runs (.cpStreamcfg k) s fun t => at_ t size ∧ look t.streams id = none)) ∧
    (p.formOk = false ∨ p.valuesOk = false → s.pools.logRing = none → Runs (.cpHalt k) s fun t => (t.cp k).wait = .halted ∧ (t.cp k).head = (s.cp k).head ∧
      t.mem = s.mem ∧ ∃ bs, t.out = s.out ++ [.event bs] ∧ (bs.drop 16).take 2 = leBytes 2 2)

/-- R415 to R419, R421: a message acts in its turn, one that comes early in its own later turn. A write is sent part by part and
acknowledged once its completion time has come; a read and an atomic are answered with the bytes that come back; an answer reaches
the access that asked; a tail moves a queue; an event message goes out on a connection; connections open, close, retry and fail; a
packet the port takes is the message its header names.
Log entries 79 and 100: the port's accesses are requests at the slices; the places of a tail's and a read's operands. -/
def Obligations.IrsinMessages : Prop :=
  ∀ (s : State) (h : IrsinHdr) (c : Conn), look s.conns h.conn = some c → c.failed = false → s.ready.getLsbD 1 = true →
    let turn : Prop := h.seq = c.rxNext ∧ c.early = []
    let next (t : State) : Prop := ∃ c', look t.conns h.conn = some c' ∧ c'.rxNext = (h.seq + 1) % 2 ^ 32
    let free : Prop := s.hostAccs = [] ∧ s.hostReads = [] ∧ c.wait = []
    let sends (t : State) (op addr flags : Nat) (bs : List Byte) : Prop := ∃ c' p, look t.conns h.conn = some c' ∧ p ∈ c'.tx ∧ p.opcode = op ∧
      p.addr = addr ∧ p.flags = flags ∧ p.payload = bs ∧ p.seq = c.txNext
    let key := h.conn * 2 ^ 32 + h.seq
    let unasked : Prop := ∀ a ∈ s.asks, a.src = .port → a.key ≠ key
    let asked (t : State) (pa : Nat) (op : AskOp) (for_ : AskFor) : Prop := ∃ a ∈ t.asks, a.src = .port ∧ a.key = key ∧ a.pa = pa ∧ a.op = op ∧
      a.for_ = for_
    let noted (t : State) (cls : Nat) : Prop := ∃ bs, Out.event bs ∈ t.out ∧ (bs.drop 16).take 2 = leBytes 2 cls
    (∀ (addr : Nat) (data : List Byte), turn → free → data.length ≤ 8192 →
      (addr + data.length ≤ 2 ^ 39 → Runs (.irsinWrite h addr data) s fun t => next t ∧ t.mem = s.mem ∧
        t.hostWrites = s.hostWrites ++ [⟨h.conn, h.seq, s.dtc, (partsAt addr data.length).length⟩] ∧
        ∀ y ∈ partsAt addr data.length, asked t y.1 (.write ((data.drop y.2.2).take y.2.1)) (.hostWrite h.conn h.seq)) ∧
      (2 ^ 39 < addr + data.length → c.tx.length < 1024 → Runs (.irsinWrite h addr data) s fun t => next t ∧ sends t 3 addr 0 [] ∧
        noted t tcProtection ∧ t.hostWrites = s.hostWrites)) ∧
    (∀ (i : Nat) (w : HostWrite), s.hostWrites[i]? = some w →
      (w.left = 0 → 0 ≤ (s.dtc - w.due).toInt → Runs (.irsinWriteAckDue i) s fun t =>
        t.hostWrites = s.hostWrites.eraseIdx i ∧ t.mem = s.mem ∧ (s.linkUp = true → ∃ q a x, t.out = s.out ++ [.irsin w.conn 10 q 0 0 [] a x])) ∧
      (w.left ≠ 0 ∨ 0 < (w.due - s.dtc).toInt → exec (.irsinWriteAckDue i) s = .next s)) ∧
    (∀ addr len : Nat, turn → free → 0 < len → len ≤ 8192 →
      (addr + len ≤ 2 ^ 39 → unasked → Runs (.irsinReadRequest h addr len) s fun t => next t ∧ t.mem = s.mem ∧
        t.hostReads = [⟨h.conn, h.seq, 3, 0, addr, len⟩] ∧ ∀ y ∈ partsAt addr len, ∃ a ∈ t.asks, a.src = .port ∧ a.key = key ∧ a.pa = y.1 ∧
          a.len = y.2.1 ∧ a.op = .read ∧ a.for_ = .poll) ∧
      (2 ^ 39 < addr + len → c.tx.length < 1024 → Runs (.irsinReadRequest h addr len) s fun t => next t ∧ sends t 3 addr 0 [] ∧ noted t tcProtection)) ∧
    (∀ (addr w : Nat) (o : AtomOp) (data : List Byte), turn → free → data.length = w → (w = 4 ∨ w = 8 ∧ o.code ≠ 9) → addr + w ≤ 2 ^ 39 →
      (addr % w = 0 → Runs (.irsinAtomicRequest h addr (.op o) data) s fun t => next t ∧ t.mem = s.mem ∧
        t.hostReads = [⟨h.conn, h.seq, 5, o.code * 4096, addr, w⟩] ∧ asked t addr (.atom (.op o) data) .poll) ∧
      (addr % w ≠ 0 → c.tx.length < 1024 → Runs (.irsinAtomicRequest h addr (.op o) data) s fun t => next t ∧ noted t tcMisaligned ∧
        sends t 5 addr (o.code * 4096) [])) ∧
    (∀ x : HostRead, s.hostAccs = [] → c.wait = [] → s.hostReads = [x] → x.conn = h.conn → c.tx.length < 1024 →
      let parts := s.partsGot (portWho x.conn x.seq) (partsAt x.addr x.len)
      (∀ bs, parts = some (some bs) → Runs (.irsinAck h) s fun t => t.hostReads = [] ∧ sends t x.opcode x.addr x.flags bs ∧ t.mem = s.mem) ∧
      (parts = some none → Runs (.irsinAck h) s fun t => t.hostReads = [] ∧ sends t x.opcode x.addr x.flags [] ∧ noted t tcData) ∧
      (parts = none → Runs (.irsinAck h) s fun t => t.hostReads = [x])) ∧
    (∀ (x : HostAcc) (e : Elem) (data : List Byte), turn → s.hostReads = [] → c.wait = [] → s.hostAccs = [x] → x.sent = true → x.conn = h.conn →
      x.req.for_ = .elem → s.elem? x.req = some e → e.done = false → data.length = x.len →
      (x.write = false → Runs (.irsinReadResponse h x.seq data) s fun t => next t ∧ t.hostAccs = [] ∧ t.mem = s.mem ∧ Answered t x.req true false data) ∧
      Runs (.irsinAtomicResponse h x.seq data) s fun t => next t ∧ t.hostAccs = [] ∧ t.mem = s.mem ∧ Answered t x.req true false data ∧
        ∃ e', t.elem? x.req = some e' ∧ e'.ctime = s.dtc) ∧
    (∀ (k tail : Nat) (q : CP), turn → free → look s.cps k = some q → Runs (.irsinTailUpdate h k tail) s fun t => next t ∧ t.mem = s.mem ∧
      ∃ q', look t.cps k = some q' ∧ q'.head = q.head ∧ q'.tail = if q.tail ≤ tail ∧ tail ≤ q.head + q.size then tail else q.tail) ∧
    (∀ (k tail : Nat) (h' : IrsinHdr) (r : MgmtReq), free → c.rxNext < 2 ^ 32 →
      (c.early = [] → h.seq ≠ c.rxNext → h.seq < 2 ^ 32 → (h.seq + 2 ^ 32 - c.rxNext) % 2 ^ 32 < 1024 → Runs (.irsinTailUpdate h k tail) s fun t => t.cps = s.cps ∧
        ∃ c', look t.conns h.conn = some c' ∧ c'.rxNext = c.rxNext ∧ c'.early = [(h, .tail k tail)]) ∧
      (h.seq = c.rxNext → c.early = [(h', .mgmt r)] → h'.conn = h.conn → h'.seq = (h.seq + 1) % 2 ^ 32 → s.mgmtQ = [] → (∀ n, r ≠ .malformed n) →
        Runs (.irsinTailUpdate h k tail) s fun t => t.mgmtQ = [(h.conn, r)] ∧
          ∃ c', look t.conns h.conn = some c' ∧ c'.rxNext = (h.seq + 2) % 2 ^ 32 ∧ c'.early = [])) ∧
    (∀ (o : Out) (rest : List Out) (bs : List Byte), s.out = o :: rest → o.eventBytes = some bs → c.tx.length < 1024 → c.wait = [] →
      Runs (.irsinEvent h.conn) s fun t => sends t 7 0 1 bs ∧ t.mem = s.mem ∧ (s.linkUp = false → t.out = rest)) ∧
    (∀ r, turn → free → s.mgmtQ = [] → (∀ n, r ≠ .malformed n) → Runs (.irsinManagementRequest h r) s fun t => next t ∧ t.mem = s.mem ∧
      t.mgmtQ = [(h.conn, r)]) ∧
    (free → Runs (.irsinAck h) s fun t => ∃ c', look t.conns h.conn = some c' ∧ c'.rxNext = c.rxNext ∧ t.mem = s.mem ∧
      ∀ p, p ∈ c'.tx ↔ p ∈ c.tx ∧ hdrAcks h p.seq = false) ∧
    (h.conn < 64 → Runs (.irsinConnect h) s fun t => next t ∧ t.mem = s.mem ∧ ∃ c', look t.conns h.conn = some c' ∧ c'.tx = [] ∧ c'.failed = false) ∧
    (turn → free → Runs (.irsinClose h) s fun t => look t.conns h.conn = none ∧ t.mem = s.mem ∧ ∀ w ∈ t.hostWrites, w.conn ≠ h.conn) ∧
    (∀ p, c.tx.find? (·.seq == p.seq) = some p →
      (s.tu < p.since + retryTu p.tries → exec (.irsinRetransmitTimeout h.conn p.seq) s = .next s) ∧
      (p.since + retryTu p.tries ≤ s.tu →
        (p.tries < 16 → Runs (.irsinRetransmitTimeout h.conn p.seq) s fun t => t.mem = s.mem ∧ (∃ c', look t.conns h.conn = some c' ∧ c'.failed = false ∧
          ∃ p' ∈ c'.tx, p'.seq = p.seq ∧ p'.tries = p.tries + 1 ∧ p'.since = s.tu) ∧
          (s.linkUp = true → ∃ a x, t.out = s.out ++ [.irsin h.conn p.opcode p.seq p.addr p.flags p.payload a x])) ∧
        (16 ≤ p.tries → s.hostAccs = [] → Runs (.irsinRetransmitTimeout h.conn p.seq) s fun t =>
          (∃ c', look t.conns h.conn = some c' ∧ c'.failed = true) ∧ ∃ bs, t.out = s.out ++ [.event bs]))) ∧
    (∀ (f p : List Byte), s.linkUp = true → s.udpOf f = some (0x5A51, p) →
      let addr := fieldAt p 0x10 8
      let body := (p.drop 32).take (fieldAt p 0x18 4)
      let is (op : Nat) (i : Instr) : Prop := fieldAt p 1 1 = op → exec i s = .next (s.takeFrame f)
      (irsinOk p = false → s.takeFrame f = s) ∧
      (irsinOk p = true → is 1 (.irsinWrite (irsinHdr p) addr body) ∧
        (body.length = 4 → is 2 (.irsinReadRequest (irsinHdr p) addr (leNat body))) ∧
        (body.length = 8 → is 6 (.irsinTailUpdate (irsinHdr p) addr (leNat body))) ∧
        is 8 (.irsinManagementRequest (irsinHdr p) (mgmtOf body)) ∧ is 10 (.irsinAck (irsinHdr p)) ∧ is 11 (.irsinConnect (irsinHdr p)) ∧
        is 12 (.irsinClose (irsinHdr p))))

/-- R420 with the rules it names: a request at the head of the queue is performed and answered with status 0, or refused with
status 1 and changes nothing; each of the 17 operations does what its rule says. Log entry 38: the order of an answer's fields.
-/
def Obligations.ManagementOperations : Prop :=
  ∀ (s : State) (conn : Nat),
    let old := (look s.conns conn).getD Conn.blank
    let answered (t : State) (bs : List Byte) : Prop := t.mgmtQ = [] ∧ ∃ c p more, look t.conns conn = some c ∧ c.tx = old.tx ++ p :: more ∧
      p.opcode = 9 ∧ p.seq = old.txNext ∧ ∃ bs', p.payload = (bs ++ bs').take 8192
    let whole (t : State) (bs : List Byte) : Prop := old.tx.length ≤ 1000 → ∃ c, look t.conns conn = some c ∧
      (c.tx.drop old.tx.length).flatMap (·.payload) = bs
    let done (i : Instr) (r : MgmtReq) (eff : State → Prop) : Prop := old.room = true → s.mgmtQ = [(conn, r)] → Runs i s fun t =>
      answered t (leBytes 4 0) ∧ eff t
    let refused (i : Instr) (r : MgmtReq) : Prop := old.room = true → s.mgmtQ = [(conn, r)] → Runs i s fun t => answered t (leBytes 4 1) ∧ t.cores = s.cores ∧
      t.clusters = s.clusters ∧ t.slices = s.slices ∧ t.grids = s.grids ∧ t.saved = s.saved ∧ t.rails = s.rails ∧ t.parts = s.parts ∧
      t.rules = s.rules ∧ t.places = s.places ∧ t.cps = s.cps ∧ t.pools = s.pools ∧ t.orphan = s.orphan ∧ t.rbase = s.rbase ∧
      t.hostConn = s.hostConn ∧ t.dtc = s.dtc ∧ t.dtcFollow = s.dtcFollow ∧ t.ready = s.ready ∧ t.ptpProfile = s.ptpProfile ∧ t.ptpDomain = s.ptpDomain ∧
      (s.pools.logRing = none → t.mem = s.mem)
    let waits (i : Instr) (r : MgmtReq) : Prop := s.mgmtQ = [(conn, r)] → exec i s = .next s
    let fits (clim rail rlim : Nat → Nat) : Prop := ∀ k < 4, (((List.range 128).filter fun c => rail c == k).map clim).sum ≤ rlim k
    let now (c : Nat) : Nat := (s.cluster c).rail
    let area (a : Option (Nat × Nat)) (al n : Nat) : Prop := ∀ x, a = some x → x.1 % al = 0 ∧ x.1 + (if n = 0 then x.2 else n) ≤ 2 ^ 39
    s.rails.length = 4 →
    done .mgmtReadStatus .readStatus (fun t => answered t (leBytes 4 0 ++ leBytes 32 s.ready.toNat) ∧ t.mem = s.mem) ∧
    (∀ lg tr sp ta sv, area lg 64 0 → area tr 64 0 → area sp 1024 0 → area ta (2 ^ 21) (510 * 2 ^ 20) → area sv 128 0 →
      done .mgmtPlaceAreas (.placeAreas lg tr sp ta sv) fun t => t.pools = ⟨lg.or s.pools.logRing, tr.or s.pools.traceRing, sp.or s.pools.spill,
        ta.or s.pools.tagArea, sv.or s.pools.savePool⟩) ∧
    (∀ c v, let clim (k : Nat) : Nat := if k = c then v else s.clim k
      (c < 128 → 64 ≤ v → v ≤ 1023 → fits clim s.railOf s.rlim → fits clim now s.rlim →
        done .mgmtSetPower (.setClim c v) fun t => (t.cluster c).clim = v ∧ ∀ k, k ≠ c → t.cluster k = s.cluster k) ∧
      (128 ≤ c ∨ v < 64 ∨ 1023 < v ∨ ¬ fits clim s.railOf s.rlim ∨ ¬ fits clim now s.rlim → refused .mgmtSetPower (.setClim c v))) ∧
    (∀ k v, let rl (j : Nat) : Nat := if j = k then v else s.rlim j
      (k < 4 → v ≤ 16383 → fits s.clim s.railOf rl → fits s.clim now rl → done .mgmtSetPower (.setRlim k v) fun t => ∀ j, t.rlim j = rl j) ∧
      (4 ≤ k ∨ 16383 < v ∨ ¬ fits s.clim s.railOf rl ∨ ¬ fits s.clim now rl → refused .mgmtSetPower (.setRlim k v))) ∧
    (∀ c k, let dest (j : Nat) : Nat := if j = c then k else s.railOf j
      (c < 128 → k < 4 → fits s.clim dest s.rlim → done .mgmtSetPower (.setRail c k) fun t => (t.cluster c).rail = (s.cluster c).rail ∧ t.railOf c = k) ∧
      (128 ≤ c ∨ 4 ≤ k ∨ ¬ fits s.clim dest s.rlim → refused .mgmtSetPower (.setRail c k))) ∧
    (∀ i m lo hi, 0 < m → m < 16 → lo ≤ hi → hi < 65536 → i < 4 →
      let apart : Prop := ∀ p ∈ s.parts, p.1 = i ∨ (p.2.rails &&& BitVec.ofNat 4 m = 0 ∧ (p.2.hi < lo ∨ hi < p.2.lo))
      (apart → done .mgmtSetPower (.setPartition i m lo hi) fun t => look t.parts i = some ⟨BitVec.ofNat 4 m, lo, hi⟩) ∧
      (¬ apart → refused .mgmtSetPower (.setPartition i m lo hi))) ∧
    (∀ c on, c < 128 → done .mgmtSetPower (.setBoost c on) fun t => (t.cluster c).boost = on ∧ (t.cluster c).scale = (s.cluster c).scale) ∧
    (∀ i b, (i < 64 → ruleOk b = true → done .mgmtWriteRule (.writeRule i b) fun t => look t.rules i = some ⟨b, true⟩ ∧ t.fired = s.fired) ∧
      (ruleOk b = false → refused .mgmtWriteRule (.writeRule i b)) ∧
      (1 ≤ i → i < 256 → b.length = 2048 → done .mgmtWritePlacement (.writePlacement i b) fun t => look t.places i = some b)) ∧
    (∀ core k ev st, core < Config.cores → k < 8 → (∀ x, st = some x → x < 8) → (s.core core).perf.length = 8 →
      done .mgmtSetPerfCounter (.setPerf core k ev st) fun t => ((t.core core).perf[k]?).map (fun p => (p.event, p.stage)) = some (ev, st) ∧
        (t.core core).waves = (s.core core).waves) ∧
    (∀ raw, (1000 * 65536 ≤ raw → raw ≤ 10 ^ 9 * 65536 → done .mgmtSetOrphanTimeout (.setOrphan raw) fun t => t.orphan = raw) ∧
      (raw < 1000 * 65536 ∨ 10 ^ 9 * 65536 < raw → refused .mgmtSetOrphanTimeout (.setOrphan raw))) ∧
    (∀ pa, (pa % 2 ^ 27 = 0 → pa + 96 * 2 ^ 20 ≤ 2 ^ 39 → done .mgmtPlaceRbase (.placeRbase pa) fun t => t.rbase = some pa ∧ t.ring = s.ring) ∧
      (pa % 2 ^ 27 ≠ 0 ∨ 2 ^ 39 < pa + 96 * 2 ^ 20 → refused .mgmtPlaceRbase (.placeRbase pa))) ∧
    (∀ asid lo hi, let gone (e : TlbE) : Prop := e.asid = asid ∧ e.va ≤ hi ∧ lo < e.va + e.size
      ((∀ w ∈ s.walks, w.asid ≠ asid) → done .mgmtInvalidateTranslations (.invalidate asid lo hi) fun t =>
        ∀ k e, (e ∈ (t.core k).tlb ↔ e ∈ (s.core k).tlb ∧ ¬ gone e) ∧ (e ∈ (t.cluster k).tlb ↔ e ∈ (s.cluster k).tlb ∧ ¬ gone e)) ∧
      ((∃ w ∈ s.walks, w.asid = asid) → waits .mgmtInvalidateTranslations (.invalidate asid lo hi))) ∧
    (∀ k base lg asid root hw, k < 8 → 12 ≤ lg → lg ≤ 24 → base % 2 ^ lg = 0 → base + 2 ^ lg ≤ 2 ^ 52 → asid < 65536 → root % 65536 = 0 → hw % 8 = 0 →
      done .mgmtCommandProcessor (.cpConfig k base lg asid root hw) fun t => ∃ c, look t.cps k = some c ∧ c.base = base ∧ c.size = 2 ^ lg ∧
        c.asid = asid ∧ c.root = root ∧ c.headWord = some hw ∧ c.head = 0 ∧ c.tail = 0 ∧ c.running = false) ∧
    (∀ k addr c, look s.cps k = some c → k < 8 → 0 < c.size → c.base ≤ addr → addr < c.base + c.size → addr % 4 = 0 →
      done .mgmtCommandProcessor (.cpStart k addr) fun t => ∃ c', look t.cps k = some c' ∧ c'.running = true ∧ c'.wait = .none ∧ c'.ib = [] ∧
        c'.loops = [] ∧ c'.held = [] ∧ c'.base + c'.head % c'.size = addr ∧ c'.head ≤ c'.tail) ∧
    (∀ k tgt, (8 ≤ k → refused .mgmtPreempt (.preempt k tgt)) ∧
      (k < 8 → (s.cp k).wait = .mem ∨ (∃ x, (s.cp k).wait = .time x) → waits .mgmtPreempt (.preempt k tgt)) ∧
      (k < 8 → (s.cp k).wait = .none ∨ (s.cp k).wait = .halted → done .mgmtPreempt (.preempt k tgt) fun t =>
        t.mem = s.mem ∧ ∃ u, exec (.preemptionRequest tgt) s = .next u ∧ t.cores = u.cores ∧ t.wgs = u.wgs ∧ t.saved = u.saved)) ∧
    (∀ g wg w, done .mgmtWake (.wake g wg w) fun t => ∃ u, exec (.wake g wg w) s = .next u ∧ t.mem = u.mem ∧ t.cores = u.cores ∧ t.saved = u.saved) ∧
    (∀ g wg w core ctx rest, s.brkSaved g wg w = none →
      (s.brkWaves fun v => v.grid == g && (s.wg v.wg).lin == wg && v.idx == w) = (core, ctx) :: rest →
      done .mgmtResumeBreakpoint (.resumeBrk g wg w) fun t => t.wave? core ctx = (s.wave? core ctx).map fun v => { v with brk := false }) ∧
    (∀ g wg w, s.brkSaved g wg w = none → (s.brkWaves fun v => v.grid == g && (s.wg v.wg).lin == wg && v.idx == w) = [] →
      refused .mgmtResumeBreakpoint (.resumeBrk g wg w)) ∧
    (∀ g r, look s.grids g = some r → (s.brkWaves fun v => v.grid == g) ≠ [] → done .mgmtResumeBreakpoint (.endGrid g) fun t =>
      (t.grid g).stopped = true ∧ (∀ x ∈ t.saved, x.grid ≠ g) ∧ ∀ core ctx w, t.wave? core ctx = some w → w.grid = g → w.splits = []) ∧
    (∀ g c r, look s.grids g = some r → r.d.kind = 2 → c < 128 → done .mgmtAssignTaskQueue (.assignQueue g c) fun t =>
      g ∈ (t.cluster c).taskQs ∧ ∀ x, x ≠ g → (x ∈ (t.cluster c).taskQs ↔ x ∈ (s.cluster c).taskQs)) ∧
    (∀ p d, p < 2 → d < 128 → done .mgmtSetPtp (.setPtp p d) fun t => t.ptpProfile = p ∧ t.ptpDomain = d ∧ t.dtc = s.dtc) ∧
    (∀ x : DWord, let idle : Prop := s.grids = [] ∧ s.enabled = []
      (idle → done .mgmtSetPtp (.freeRun x) fun t => t.dtc = x ∧ t.dtcFollow = false ∧ t.ready.getLsbD 2 = false ∧ t.ready.getLsbD 3 = true ∧
        (∀ k, (t.core k).l1 = []) ∧ ∀ k, (t.slice k).horizon = 0 ∧ ∀ l ∈ (t.slice k).lines, l.expiry = 0) ∧
      (idle → s.dtcFollow = false → done .mgmtSetPtp .leaveFreeRun fun t => t.dtc = s.dtc ∧ t.dtcFollow = true ∧ t.ready.getLsbD 3 = false ∧
        t.dtcLockSet = false) ∧
      (¬ idle → refused .mgmtSetPtp (.freeRun x) ∧ refused .mgmtSetPtp .leaveFreeRun)) ∧
    (∀ nonce : BitVec 256,
      let said := (s.meas.flatMap fun m => leBytes 64 m.toNat) ++ leBytes 32 nonce.toNat ++ leBytes 8 s.dtc.toNat ++ leBytes 4 Config.fuseVersion ++
        leBytes 64 Config.identityKey.toNat
      let sig := leBytes 49856 (Config.slhSign said).toNat
      done .mgmtAttestation (.attestation nonce) fun t => answered t (leBytes 4 0 ++ said ++ sig) ∧ whole t (leBytes 4 0 ++ said ++ sig) ∧ t.meas = s.meas ∧ t.mem = s.mem) ∧
    (∀ c, c < 64 → s.hostAccs = [] → done .mgmtMapHostWindow (.mapHostWindow c) fun t => t.hostConn = some c ∧ t.hostAccs = [])

/-- R412, R413, R427, R428, R415, R279, R404 to R408: PTP sets the DTC once and then only slews it; ready bits rise and a
change sends an event; reset and the boot ROM's three checks; an interval's end pays and refills permits, and its grants within them; a rule fires once at its threshold. Log entries 40, 66 and 8: what a reset keeps, when a ready bit may rise, and how the
servo slews; log entry 99: how a measurement is extended. -/
def Obligations.TimeAndPackage : Prop :=
  ∀ (s : State),
    let bit (t : State) (i : Nat) : Bool := t.ready.getLsbD i
    let ok (i : BootImage) : Prop := i.sig.length = 29792 ∧ (Config.shake256 (leBytes 64 i.pk.toNat)).extractLsb' 0 256 = Config.fuseKeyHash ∧ Config.fuseVersion ≤ i.version ∧
      Config.slhVerify i.pk i.sig (leBytes 64 i.pk.toNat ++ leBytes 4 i.version ++ i.body) = true
    let boots (t : State) (i : BootImage) : Prop := t.image = i ∧ (ok i → t.boot = .running) ∧ (¬ ok i → t.boot = .failed) ∧
      t.meas.getD 0 0 = Config.romMeasure ∧
      (ok i → t.meas.getD 1 0 = Config.shake256 (leBytes 64 i.pk.toNat ++ leBytes 4 i.version ++ i.body))
    (∀ d : Int, s.dtcFollow = true → s.dtcLockSet = true → s.linkUp = true → bit s 2 = true → Runs (.ptpMessage d) s fun t =>
      t.dtc = s.dtc ∧ t.dtcPpb ≤ 50000 ∧ -50000 ≤ t.dtcPpb ∧ (0 < d → 0 ≤ t.dtcPpb) ∧ (d < 0 → t.dtcPpb ≤ 0) ∧ (d = 0 → t.dtcPpb = 0) ∧ t.mem = s.mem) ∧
    (∀ x : DWord, (s.boot ≠ .running ∨ s.linkUp = false → exec (.ptpLock x) s = .next s) ∧
      (s.dtcFollow = true → bit s 2 = false → s.boot = .running → s.linkUp = true →
      (s.dtcLockSet = false → Runs (.ptpLock x) s fun t => t.dtc = x ∧ t.dtcLockSet = true ∧ bit t 2 = true ∧ bit t 3 = true ∧ (∀ k, (t.core k).l1 = []) ∧
        t.mem = s.mem) ∧
      (s.dtcLockSet = true → Runs (.ptpLock x) s fun t => t.dtc = s.dtc ∧ bit t 2 = true ∧ t.cores = s.cores ∧ t.mem = s.mem))) ∧
    (bit s 2 = true → Runs .ptpLossOfLock s fun t => bit t 2 = false ∧ bit t 3 = bit s 3 ∧ t.dtcPpb = s.dtcPpb ∧ t.dtc = s.dtc ∧
      t.out = s.out ++ [.readyVector t.ready]) ∧
    (∀ up, Runs (.ethernetLinkChange up) s fun t => t.linkUp = up ∧ t.mem = s.mem ∧ t.conns = s.conns) ∧
    (∀ i, Runs (.reset i) s fun t => boots t i ∧ t.cores = [] ∧ t.clusters = [] ∧ t.slices = [] ∧ t.grids = [] ∧ t.wgs = [] ∧ t.streams = [] ∧
      t.chains = [] ∧ t.conns = [] ∧ t.ready = 0 ∧ t.dtc = 0 ∧ t.rbase = none ∧ t.orphan = 10 ^ 6 * 65536 ∧ t.mem = s.mem ∧ (∀ c, t.clim c = 453) ∧
      ∀ k < 4, t.rlim k = 14500 ∧ (t.rails[k]?).map (·.permits) = some 64) ∧
    (∀ i, (s.boot = .failed → Runs (.recoveryChannelRequest (.image i)) s fun t => boots t i ∧ t.mem = s.mem) ∧
      (s.boot = .failed → s.linkUp = true → Runs (.recoveryChannelRequest .measurement) s fun t => t.boot = .failed ∧
        t.out = s.out ++ [.recovery (leBytes 64 Config.romMeasure.toNat)]) ∧
      (s.boot ≠ .failed → ∀ r, exec (.recoveryChannelRequest r) s = .next s)) ∧
    (∀ b : Nat,
      let unit : Prop := b = 0 ∨ b = 1 ∨ b = 4 ∨ b = 5 ∨ (8 ≤ b ∧ b ≤ 31)
      let cluster : Prop := 64 ≤ b ∧ b ≤ 191 ∧ bit s (28 + (s.cluster (b - 64)).rail) = true ∧ (s.cluster (b - 64)).off = false
      (((s.boot = .running ∧ (unit ∨ cluster)) ∨ (s.boot = .failed ∧ b = 0)) → Runs (.readyBitSet b) s fun t =>
        (∀ i < 256, bit t i = (bit s i || decide (i = b))) ∧ t.mem = s.mem ∧ (bit s b = false → t.out = s.out ++ [.readyVector t.ready])) ∧
      ((s.boot = .atReset ∨ (s.boot = .failed ∧ b ≠ 0) ∨ (s.boot = .running ∧ ¬ unit ∧ ¬ cluster)) → exec (.readyBitSet b) s = .next s)) ∧
    (∀ v, Runs (.registerWrite .thot v) s (fun t => t = { s with thot := v }) ∧
      (v < 2 ^ 32 → Runs (.registerWrite .ipv4 v) s fun t => t = { s with ipv4 := v }) ∧
      (v < 2 ^ 128 → Runs (.registerWrite .ipv6 v) s fun t => t = { s with ipv6 := v }) ∧
      ∀ k, (s.boot = .running → 2 ≤ k → k < 8 → Runs (.registerWrite (.extend k) v) s fun t =>
          t = { s with meas := s.meas.set k (Config.shake256 (leBytes 64 ((s.meas.getD k 0).toNat) ++ leBytes 64 v)) }) ∧
        (s.boot ≠ .running ∨ k < 2 ∨ 8 ≤ k → exec (.registerWrite (.extend k) v) s = .next s)) ∧
    (s.dtc.toNat / (5000 * 65536) = s.interval → exec .intervalBoundary s = .next s) ∧
    (s.dtc.toNat / (5000 * 65536) ≠ s.interval → s.rails.length = 4 → Runs .intervalBoundary s fun t =>
      t.interval = (if s.interval < (2 ^ 64 - 1) / (5000 * 65536) then s.interval + 1 else 0) ∧ t.fired = [] ∧
      (∀ c < 128, (t.cluster c).rail < 4 → (t.cluster c).scale ≤ 2 ∧ ((t.cluster c).scale = 2 → (t.cluster c).boost = true ∧ (t.cluster c).capped = false) ∧
        ((t.cluster c).scale = 1 → (s.cluster c).scale = 2)) ∧
      ∀ k r, s.rails[k]? = some r →
        let on (x : State) (n : Nat) : Nat := ((List.range 128).filter fun c => (x.cluster c).rail == k && (x.cluster c).scale == n).length
        let calm : Prop := ∀ c < 128, (s.cluster c).rail = k → (s.cluster c).scale = 0
        ∃ r', t.rails[k]? = some r' ∧ on t 2 ≤ r'.permits ∧ (¬ calm → r'.permits = r.permits - on s 2 ∧ r'.calm = 0) ∧
          (calm → r.calm = 1 → r'.permits = Min.min 64 (r.permits + 1) ∧ r'.calm = 0) ∧ (calm → r.calm ≠ 1 → r'.permits = r.permits ∧ r'.calm = 1)) ∧
    (∀ ps rs : List Nat, Runs (.sensorSample ps rs) s fun t =>
      (∀ i < 16, t.pkgTemp.getD i 0 = ps.getD i (s.pkgTemp.getD i 0)) ∧ (∀ i < 4, t.regTemp.getD i 0 = rs.getD i (s.regTemp.getD i 0)) ∧
      ∀ i r, s.rules = [(i, r)] →
        let v := t.reading (fieldAt r.bytes 0 2)
        let th := fieldAt r.bytes 2 2
        (r.armed = true → th ≤ v → t.rules = [(i, { r with armed := false })] ∧ t.fired = s.fired ++ [r.bytes] ∧ ∃ bs, t.out = s.out ++ [.event bs] ∧
          fieldAt bs 16 2 = fieldAt r.bytes 8 2) ∧
        (r.armed = true → v < th → t.rules = s.rules) ∧
        (r.armed = false → fieldAt r.bytes 0 2 / 4096 = 3 → t.rules = s.rules) ∧
        (r.armed = false → fieldAt r.bytes 0 2 / 4096 < 3 → t.rules = [(i, { r with armed := decide (v + 8 ≤ th) })]))

/-- R13, R40, R60, R235: a step fetches the bundle at the PC of the split chosen to issue, decodes it and runs that
instruction, or both halves of a pair, with the windows' counts and the core's issue bookkeeping added; with no split
chosen it performs the event placed next, else takes the next frame at the port, else runs a core's next cycle; the bundle that
withFetchWord places is the one fetched. -/
def Obligations.StepRunsDecodedInstruction : Prop :=
  (∀ (s : State), s.issueQ = [] →
    (∀ e rest, s.agenda = e :: rest → encode e = none → step s = exec e { s with free := s.free + 1, agenda := rest }) ∧
    (∀ e rest, s.agenda = e :: rest → encode e ≠ none → step s = .next { s with free := s.free + 1, agenda := rest }) ∧
    (∀ f rest, s.agenda = [] → s.rx = f :: rest → step s = .next (State.takeFrame { s with free := s.free + 1, rx := rest } f)) ∧
    (s.agenda = [] → s.rx = [] → step s = exec (.coreCycleIssue (nextCore s.cores)) { s with free := s.free + 1 })) ∧
  (∀ (s : State) (c : Cursor) (rest : List Cursor), s.issueQ = c :: rest →
    let u : State := { s with free := s.free + 1, issueQ := rest, cur := c }
    u.live = true → u.w.canIssue u.sp = true → u.w.started = true → (∀ w ∈ u.sp.windows, w.err = none) → u.spec u.w.grid = false →
    ∀ (x : DWord) (e : Bool), u.fetch c.core u.w.grid u.sp.pc = .ok x →
      (∀ (i : Instr) (t : State), decodeBundle x = .ok ⟨e, .full i⟩ → (∀ n : Fin 128, .v n ∈ opnds i → n.val < u.w.n) →
        exec i (u.countIssue 1) = .next t → ∃ t', step s = .next t' ∧ Timed [i] t t') ∧
      (∀ (hi lo : Instr) (a b : State), decodeBundle x = .ok ⟨e, .pair hi lo⟩ → isPfx hi = false → isPfx lo = false → pairOk hi lo = true →
        (∀ n : Fin 128, .v n ∈ opnds hi ++ opnds lo → n.val < u.w.n) → (∀ low, ((halfAt x low).extractLsb' 13 7).toNat < u.w.n) → u.sp.windows = [] → (u.countIssue 2).pairShort hi lo = none →
        exec hi (u.countIssue 2) = .next a →
        exec lo (a.modSp fun p => { p with latch := (u.countIssue 2).latchOf lo }) = .next b →
        ∃ t', step s = .next t' ∧ Timed [hi, lo] ((b.modSp fun p => { p with latch := none }).advance) t')) ∧
  (∀ (s : State) (w : Nat), s.memOk → w < 2 ^ 64 → let p := s.withFetchWord 64 w
    p.agenda = [] ∧ p.issueQ = [⟨0, 0, 0⟩] ∧ p.live = true ∧ p.w.canIssue p.sp = true ∧ p.fetch 0 p.w.grid p.sp.pc = .ok (BitVec.ofNat 64 w))

/-- R43, R51 and the examples of their chapters: bundles that the spec prints decode to the instructions printed beside
them. -/
def Obligations.PrintedBundlesDecode : Prop :=
  let g := Guard.always
  decodeBundle 0x2021B84018202800#64 = .ok ⟨true, .full (.ffma ⟨g, .v 8, .v 3, .v 4, .v 5⟩)⟩ ∧
  decodeBundle 0x4000900808828040#64 = .ok ⟨false, .pair (.halfAdd ⟨.none, 9, .reg (.v 1)⟩) (.halfFmul ⟨.none, 10, .reg (.v 2)⟩)⟩ ∧
  decodeBundle 0x4200C06878240000#64 = .ok ⟨false, .pair (.halfFadd ⟨.none, 12, .reg (.v 13)⟩) (.pfxM ⟨.rtz, .sat, false⟩)⟩ ∧
  decodeBundle 0x000038A0AFFA3456#64 = .ok ⟨false, .full (.add ⟨g, .v 20, .v 21, .imm 0x23456#19⟩ .i32)⟩ ∧
  decodeBundle 0x002150D047AFF800#64 = .ok ⟨false, .full (.fmul ⟨⟨true, 2⟩, .v 26, .v 8, .reg (.k 5)⟩)⟩ ∧
  decodeBundle 0x00613C2047FFF808#64 = .ok ⟨false, .full (.redux ⟨g, .s 4, .v 8⟩ .fadd)⟩ ∧
  decodeBundle 0x00809007FFF80003#64 = .ok ⟨false, .full (.brD ⟨false, 2⟩ false 3#19)⟩ ∧
  decodeBundle 0x04A038401FF88002#64 = .ok ⟨false, .full (.ldA ⟨g, 2, .v 8, .v 3, .null, 0x10#8, .b32, false⟩)⟩ ∧
  decodeBundle 0x01013FFC47FFF803#64 = .ok ⟨false, .full (.bexp 3#6 (.s 8) false)⟩ ∧
  decodeBundle 0x01403C64545FF820#64 = .ok ⟨false, .full (.mma ⟨g, 12, .s 10, .s 11, .null, 0#5, 1#4⟩)⟩ ∧
  decodeBundle 0x09803807FFFE8800#64 = .ok ⟨false, .full (.grid 4 0 (.p 1))⟩ ∧
  decodeBundle 0x02E0382CA0301000#64 = .ok ⟨false, .full (.atomG g 1 (.v 5) (.s 20) (.v 6) 2#8 .add false .dv)⟩ ∧
  decodeBundle 0x01A0BC4454647001#64 = .ok ⟨false, .full (.bsend (.s 8) (.s 10) 12 (.s 14) .addX false)⟩

/-- R40 to R62: every well-formed instruction of the opcode map is what its encoding decodes to, at either value of E; so are
the two halves of every bundle of two well-formed halves. -/
def Obligations.EncodeThenDecode : Prop :=
  (∀ (i : Instr) (r : Raw), i.wf = true → encodeFull i = some r → ∀ e : Bool,
    decodeBundle (Raw.toWord { r with e := e }) = .ok ⟨e, .full i⟩) ∧
  (∀ (hi lo : Instr) (a b : BitVec 30), hi.wf = true → lo.wf = true → encodeHalf hi = some a → encodeHalf lo = some b → ∀ e : Bool,
    decodeBundle (pairWord e a b) = .ok ⟨e, .pair hi lo⟩) ∧
  (∀ (i : Instr) (x : DWord), i.wf = true → encode i = some x → decodeTableWord 64 x.toNat = some i)

/-- Log entry 1: after reset no byte of LPDDR 6 or of the strip ring is listed, and both are in canonical form. -/
def Obligations.ResetMemoryCanonical : Prop :=
  State.reset.memOk ∧ (∀ a, State.reset.phys a = 0) ∧ State.reset.out = [] ∧ State.reset.grids = [] ∧ State.reset.ready = 0

/-- Log entry 1: LPDDR 6 and the strip ring keep their canonical form in every step, from any state. -/
def Obligations.StepKeepsMemoryCanonical : Prop :=
  ∀ (s t : State), s.memOk → step s = .next t → t.memOk

/-- R100, R128 to R136, R147 to R150: shfl, rdlane, redux, scan, call, ret and callx run to their end, with no trap, wherever
rows, slots, targets, budgets, depth and places allow it: the PC that follows, the frame, the link pair and the depth. -/
def Obligations.LaneFormsAndCallsComplete : Prop :=
  (∀ (s : State) (g : Guard) (d a : Opnd) (b : Opnd) (src : SrcB) (lg : Fin 6) (mode : ShflMode) (op : RedOp) (excl : Bool), s.quiet →
    let ends (i : Instr) : Prop := Runs i s fun t => EndsAt s t (s.sp.pc + 8) ∧ t.sp.s.length = s.sp.s.length ∧ t.w.accs = s.w.accs
    let room : Prop := (∃ n : Fin 128, d = .v n ∧ s.rowFree n.val) ∨ d.isScalarReg = true
    room → (d.isScalarReg = true → (s.src a).isUni = true) → (s.srcB src false).isUni = true →
      ends (.shfl ⟨g, d, a, b⟩ mode lg) ∧ ends (.rdlane ⟨g, d, a, src⟩) ∧ ends (.redux ⟨g, d, a⟩ op) ∧ ends (.scan ⟨g, d, a⟩ op excl)) ∧
  (∀ (s : State) (d : Fin 64) (x : DWord), s.quiet → s.sp.s.length = 64 → d.val < 63 →
    (∀ t : Target, Lands s (s.targetOf t) x → BudgetOk s x → s.sp.depth < 64 → Runs (.call d t) s fun u =>
      EndsAt s u (s.targetOf t) ∧ u.sp.pair d.val = s.sp.pc + 8 ∧ u.sp.depth = s.sp.depth + 1) ∧
    (Lands s (s.sp.pair d.val) x → s.sp.depth ≠ 0 → Runs (.ret d) s fun u =>
      EndsAt s u (s.sp.pair d.val) ∧ u.sp.s = s.sp.s ∧ u.sp.depth + 1 = s.sp.depth) ∧
    (∀ (a : Fin 128) (k : Nat), k < 32 → s.sp.mask.getLsbD k = true → (∀ j < k, s.sp.mask.getLsbD j = false) → s.w.handler = none →
      s.sp.depth < 64 → s.w.splits.length + s.w.deferred.length + (threads s.sp.mask).length ≤ 13 → s.w.splits.length ≤ 4 → s.w.deferred.length ≤ 8 →
      (∀ j < 32, s.sp.mask.getLsbD j = true → ∃ y n m, Lands s (s.at64 (.v a) j) y ∧ fhdrOf y = some (n, m) ∧ BudgetOk s y) →
      Runs (.callx d a) s fun u => u.sp.pc = s.at64 (.v a) k ∧ u.sp.pair d.val = s.sp.pc + 8 ∧ u.sp.depth = s.sp.depth + 1 ∧
        u.sp.status = s.sp.status ∧ u.w.handler = none ∧ u.mem = s.mem ∧
        ∀ j < 32, u.sp.mask.getLsbD j = true ↔ (s.sp.mask.getLsbD j = true ∧ s.at64 (.v a) j = s.at64 (.v a) k)))

/-- R169, R171, R175, R176, R178, R323, R348: the loads, stores, atomics, prefetches, queue and task instructions run to their
end, with no trap, wherever addresses are aligned, inside their buffer or translated, rows are free and counters have room:
a local access leaves every counter as it was, a global one is counted on its path. -/
def Obligations.MemoryFormsComplete : Prop :=
  (∀ (s : State) (g : Guard) (la : BitVec 4) (d a b data c : Opnd) (n : Fin 128) (off : BitVec 8) (z : Size) (sx : Bool) (op : AtomOp), s.quiet →
    let m := s.guardMask g
    let at_ (x : Opnd) (bytes k : Nat) : Nat := ((s.src a).at k + (s.src x).at k + off.signExtend 32 * BitVec.ofNat 32 bytes).toNat
    let ends (i : Instr) : Prop := Runs i s fun t => EndsAt s t (s.sp.pc + 8) ∧ t.w.accs = s.w.accs ∧ ∀ p, t.w.count p = s.w.count p
    (AddrsOk m (at_ b z.bytes) z.bytes (s.g.size .a) → ends (.stA ⟨g, 0, data, a, b, off, z, false⟩) ∧
      (d = .v n → s.rowsFor n.val z.regs → ends (.ldA ⟨g, la, d, a, b, off, z, sx⟩))) ∧
    (AddrsOk m (at_ b z.bytes) z.bytes (s.g.size .w) → s.w.role = .general ∨ s.w.role = .matrix → d = .v n → s.rowsFor n.val z.regs →
      ends (.ldW ⟨g, la, d, a, b, off, z, sx⟩)) ∧
    (AddrsOk m (at_ .null z.bytes) z.bytes 1024 → s.w.role ≠ .copy → ∀ tile : BitVec 5, tile.toNat < s.g.tc.length → z.isQueue = true →
      ends (.stC ⟨g, 0, data, a, off, z, tile⟩) ∧ (d = .v n → s.rowsFor n.val z.regs → ends (.ldC ⟨g, la, d, a, off, z, tile⟩))) ∧
    (AddrsOk m (at_ .null 4) 4 (s.g.size .a) → d = .v n → s.rowFree n.val → ends (.atomA g la d a data off op) ∧
      (off = 0 → ends (.casA g la d a data c)))) ∧
  (∀ (s : State) (g : Guard) (la : BitVec 4) (d a b c x : Opnd) (n : Fin 128) (off : BitVec 8) (z : Size) (sx cg wide l2 : Bool) (op : AtomOp)
    (sc : Scope), s.quiet → s.guardMask g ≠ 0 →
    let ts := threads (s.guardMask g)
    let paged (va : DWord) : Prop := ∃ p : TlbE, s.lookup s.cur.core s.gr.d.asid va true = .page p ∧
      s.lookup s.cur.core s.gr.d.asid va false = .page p ∧ isHostPa (p.pa? va.toNat) = false
    let reach (bytes : Nat) (ea : Nat → DWord) : Prop := ∀ k ∈ ts, (ea k).toNat % bytes = 0 ∧ paged (ea k)
    let sent (i : Instr) (p : Path) : Prop := s.w.count p < 255 → Runs i s fun t => EndsAt s t (s.sp.pc + 8) ∧
      t.w.count p = s.w.count p + 1 ∧ (∀ o, o ≠ p → t.w.count o = s.w.count o) ∧ t.w.v = s.w.v ∧ t.w.p = s.w.p ∧ t.sp.s = s.sp.s
    let bytes := if wide then 8 else 4
    let qa := s.at64 a 0
    (reach z.bytes (s.globalEa a x off z.bytes) → sent (.stG ⟨g, 0, d, a, x, off, z, false⟩) .s ∧
      (s.rowsFor n.val z.regs → sent (.ldG ⟨g, la, .v n, a, x, off, z, sx⟩ cg) .g)) ∧
    ((∀ k ∈ ts, s.lookup s.cur.core s.gr.d.asid (s.globalEa a x off 1 k) false ≠ .miss) → Runs (.prefG g a x off l2) s fun t => EndsAt s t (s.sp.pc + 8) ∧ t.w.v = s.w.v ∧ t.w.accs = s.w.accs) ∧
    (reach bytes (s.globalEa a .null off bytes) → sent (.atomG g 0 .null a b off op wide sc) .s ∧
      (s.rowsFor n.val (if wide then 2 else 1) → sent (.atomG g la (.v n) a b off op wide sc) .g) ∧
      (off = 0 → sent (.casG g 0 .null a b c wide sc) .s ∧
        (s.rowsFor n.val (if wide then 2 else 1) → sent (.casG g la (.v n) a b c wide sc) .g))) ∧
    ((s.src a).isUni = true → (s.srcHi a).isUni = true → qa.toNat % 128 = 0 → paged qa → sent (.qpush g .null a b z) .s ∧
      (s.rowsFor n.val z.regs → sent (.qpop g la (.v n) a c z) .g) ∧
      ((s.src b).isUni = true → (s.srcHi b).isUni = true → (s.at64 b 0).toNat % 8 = 0 → sent (.task g .null a b c) .s)))
end

