-- ==== Sys2Proof/Laws/Alu.lean ====
section
/-! SUPPORT. What the shared shapes of groups 0x0 to 0x2 can do: one lemma per way an instruction ends, and one per
kind of destination of `State.alu`. -/

namespace Sys2Proof.Machine

/-! ### The ways an instruction ends -/

theorem isa_ok {f : State → Except TrapReq State} {s t : State} (hl : s.live = true) (h : f s = .ok t) :
    isa f s = .next t.advance := by simp [isa, hl, h]
theorem isa_error {f : State → Except TrapReq State} {s : State} {e : TrapReq} (hl : s.live = true) (h : f s = .error e) :
    isa f s = .next (s.raise e) := by simp [isa, hl, h]
theorem isaCtl_ok {f : State → Except TrapReq State} {s t : State} (hl : s.live = true) (h : f s = .ok t) :
    isaCtl f s = .next t := by simp [isaCtl, hl, h]
theorem isaCtl_error {f : State → Except TrapReq State} {s : State} {e : TrapReq} (hl : s.live = true) (h : f s = .error e) :
    isaCtl f s = .next (s.raise e) := by simp [isaCtl, hl, h]
theorem isaHalf_ok {f : State → Except TrapReq State} {s t : State} (hl : s.live = true) (h : f s = .ok t) :
    isaHalf f s = .next (t.modSp fun p => { p with pfx := none }) := by simp [isaHalf, hl, h]
theorem isaHalf_error {f : State → Except TrapReq State} {s : State} {e : TrapReq} (hl : s.live = true) (h : f s = .error e) :
    isaHalf f s = .next (s.raise e) := by simp [isaHalf, hl, h]
theorem event_some {f : State → Option State} {s t : State} (h : f s = some t) : event f s = .next t := by simp [event, h]
theorem event_none {f : State → Option State} {s : State} (h : f s = none) : event f s = .next s := by simp [event, h]

/-! ### Reading with no window open -/

theorem heldV_nil {p : Split} (h : p.windows = []) (n : Nat) : p.heldV n = none := by simp [Split.heldV, h]
theorem heldS_nil {p : Split} (h : p.windows = []) (n : Nat) : p.heldS n = none := by simp [Split.heldS, h]
theorem heldWg_nil {p : Split} (h : p.windows = []) (n : Nat) : p.heldWg n = none := by simp [Split.heldWg, h]
theorem heldP_nil {p : Split} (h : p.windows = []) (n : Nat) : p.heldP n = none := by simp [Split.heldP, h]

theorem readV_quiet {s : State} (h : s.quiet) (n : Nat) : s.readV n = s.vreg n := by
  simp [State.readV, heldV_nil h.2, State.vreg]
theorem readS_quiet {s : State} (h : s.quiet) (n : Nat) : s.readS n = s.sp.s.getD n 0 := by
  simp [State.readS, heldS_nil h.2]
theorem readP_quiet {s : State} (h : s.quiet) {n : Nat} (hn : n ≠ 7) : s.readP n = s.w.p.getD n 0 := by
  simp [State.readP, heldP_nil h.2, hn]
@[simp] theorem readP_seven (s : State) : s.readP 7 = fullMask := by simp [State.readP]

/-! ### Values and rows -/

theorem VReg.at_gen {f : Nat → Word} {t : Nat} (h : t < 32) : (VReg.gen ((List.range 32).map f)).at t = f t := by
  simp [VReg.at, h]
@[simp] theorem VReg.at_uni (x : Word) (t : Nat) : (VReg.uni x).at t = x := rfl
@[simp] theorem VReg.at_aff (b st : Word) (t : Nat) : (VReg.aff b st).at t = b + st * BitVec.ofNat 32 t := rfl
theorem VReg.at_isUni {v : VReg} (h : v.isUni = true) (t : Nat) : v.at t = v.at 0 := by
  cases v <;> simp_all [VReg.isUni, VReg.at]
theorem fullMask_bit {t : Nat} (h : t < 32) : fullMask.getLsbD t = true := by
  simp only [fullMask]; interval_cases t <;> rfl

/-- What `VReg.written` leaves in each thread (R24). -/
theorem VReg.written_at {mask : Mask} {new old : VReg} {t : Nat} (ht : t < 32) (hm : mask ≠ 0) :
    (VReg.written mask new old).at t = if mask.getLsbD t then new.at t else old.at t := by
  unfold VReg.written
  rw [if_neg hm]
  split
  · next h => rw [h, fullMask_bit ht]; simp
  · exact VReg.at_gen ht

theorem rowShort_free {s : State} {n : Nat} (h : s.rowFree n) (new : VReg) : s.w.rowShort n new = false := by
  unfold Wave.rowShort
  rcases h with h | h
  · simp [h]
  · simp [Nat.not_le.mpr h]

/-- A V register written under a mask with a row to be had. -/
theorem writeV_quiet {s : State} (h : s.quiet) {n : Nat} (hr : s.rowFree n) (val : VReg) {mask : Mask} (hm : mask ≠ 0) :
    s.writeV n val mask = .ok (s.putV n (VReg.written mask val (s.vreg n)) mask) := by
  unfold State.writeV; rw [if_neg hm]; simp [rowShort_free hr, heldV_nil h.2, State.vreg]
@[simp] theorem writeV_none (s : State) (n : Nat) (val : VReg) : s.writeV n val 0 = .ok s := by simp [State.writeV]

/-! ### State.alu -/

/-- A V destination without stochastic rounding. -/
theorem alu_vec {s : State} (h : s.quiet) {n : Fin 128} (hr : s.rowFree n.val) {g : Guard} {srcs : List VReg} {slots : List Opnd}
    {k : Nat} {aff : Option VReg} {f : List Word → List Nat → Word}
    (ha : ∀ a, aff = some a → ∀ t < 32, a.at t = f (srcs.map fun v => v.at t) []) :
    (s.guardMask g = 0 ∧ s.alu g (.v n) srcs slots false k aff f = .ok s) ∨
    (s.guardMask g ≠ 0 ∧ ∃ r, s.alu g (.v n) srcs slots false k aff f = .ok (s.putV n.val r (s.guardMask g)) ∧
      Written (s.guardMask g) (s.vreg n.val) r fun t x => x = f (srcs.map fun v => v.at t) []) := by
  by_cases hm : s.guardMask g = 0
  · left; simp [State.alu, hm]
  · right
    refine ⟨hm, ?_⟩
    have key : ∀ v : VReg, (∀ t < 32, v.at t = f (srcs.map fun v => v.at t) []) →
        Written (s.guardMask g) (s.vreg n.val) (VReg.written (s.guardMask g) v (s.vreg n.val)) fun t x => x = f (srcs.map fun v => v.at t) [] := by
      intro v hv t ht
      rw [VReg.written_at ht hm]
      split <;> simp_all
    simp only [State.alu, hm, ↓reduceIte, Bool.false_eq_true]
    cases aff with
    | some a => exact ⟨_, writeV_quiet h hr _ hm, key a (ha a rfl)⟩
    | none =>
      by_cases hu : (srcs.all VReg.isUni) = true
      · simp only [hu, ↓reduceIte]
        refine ⟨_, writeV_quiet h hr _ hm, key _ fun t ht => ?_⟩
        rw [VReg.at_uni]
        congr 1
        apply List.map_congr_left
        intro v hv
        exact (VReg.at_isUni (List.all_eq_true.mp hu v hv) t).symm
      · simp only [hu, Bool.false_eq_true, ↓reduceIte]
        exact ⟨_, writeV_quiet h hr _ hm, key _ fun t ht => VReg.at_gen ht⟩

end Sys2Proof.Machine
end

