-- ==== Sys2Proof/Laws/State.lean ====
section
/-! SUPPORT. What each update of the state leaves alone, field by field: no proof has to unfold a record update. -/

namespace Sys2Proof.Machine

@[simp] theorem State.setCore_agenda (s : State) (k : Nat) (c : Core) : (s.setCore k c).agenda = s.agenda := rfl
@[simp] theorem State.setCore_rx (s : State) (k : Nat) (c : Core) : (s.setCore k c).rx = s.rx := rfl
@[simp] theorem State.setCore_issueQ (s : State) (k : Nat) (c : Core) : (s.setCore k c).issueQ = s.issueQ := rfl
@[simp] theorem State.setCore_cur (s : State) (k : Nat) (c : Core) : (s.setCore k c).cur = s.cur := rfl
@[simp] theorem State.setCore_free (s : State) (k : Nat) (c : Core) : (s.setCore k c).free = s.free := rfl
@[simp] theorem State.setCore_tu (s : State) (k : Nat) (c : Core) : (s.setCore k c).tu = s.tu := rfl
@[simp] theorem State.setCore_dtc (s : State) (k : Nat) (c : Core) : (s.setCore k c).dtc = s.dtc := rfl
@[simp] theorem State.setCore_dtcFrac (s : State) (k : Nat) (c : Core) : (s.setCore k c).dtcFrac = s.dtcFrac := rfl
@[simp] theorem State.setCore_dtcPpb (s : State) (k : Nat) (c : Core) : (s.setCore k c).dtcPpb = s.dtcPpb := rfl
@[simp] theorem State.setCore_dtcFollow (s : State) (k : Nat) (c : Core) : (s.setCore k c).dtcFollow = s.dtcFollow := rfl
@[simp] theorem State.setCore_dtcLockSet (s : State) (k : Nat) (c : Core) : (s.setCore k c).dtcLockSet = s.dtcLockSet := rfl
@[simp] theorem State.setCore_interval (s : State) (k : Nat) (c : Core) : (s.setCore k c).interval = s.interval := rfl
@[simp] theorem State.setCore_clusters (s : State) (k : Nat) (c : Core) : (s.setCore k c).clusters = s.clusters := rfl
@[simp] theorem State.setCore_slices (s : State) (k : Nat) (c : Core) : (s.setCore k c).slices = s.slices := rfl
@[simp] theorem State.setCore_walks (s : State) (k : Nat) (c : Core) : (s.setCore k c).walks = s.walks := rfl
@[simp] theorem State.setCore_walkFaults (s : State) (k : Nat) (c : Core) : (s.setCore k c).walkFaults = s.walkFaults := rfl
@[simp] theorem State.setCore_asks (s : State) (k : Nat) (c : Core) : (s.setCore k c).asks = s.asks := rfl
@[simp] theorem State.setCore_wgs (s : State) (k : Nat) (c : Core) : (s.setCore k c).wgs = s.wgs := rfl
@[simp] theorem State.setCore_nextWg (s : State) (k : Nat) (c : Core) : (s.setCore k c).nextWg = s.nextWg := rfl
@[simp] theorem State.setCore_operands (s : State) (k : Nat) (c : Core) : (s.setCore k c).operands = s.operands := rfl
@[simp] theorem State.setCore_mem (s : State) (k : Nat) (c : Core) : (s.setCore k c).mem = s.mem := rfl
@[simp] theorem State.setCore_ring (s : State) (k : Nat) (c : Core) : (s.setCore k c).ring = s.ring := rfl
@[simp] theorem State.setCore_rbase (s : State) (k : Nat) (c : Core) : (s.setCore k c).rbase = s.rbase := rfl
@[simp] theorem State.setCore_badMem (s : State) (k : Nat) (c : Core) : (s.setCore k c).badMem = s.badMem := rfl
@[simp] theorem State.setCore_chans (s : State) (k : Nat) (c : Core) : (s.setCore k c).chans = s.chans := rfl
@[simp] theorem State.setCore_grids (s : State) (k : Nat) (c : Core) : (s.setCore k c).grids = s.grids := rfl
@[simp] theorem State.setCore_nextGrid (s : State) (k : Nat) (c : Core) : (s.setCore k c).nextGrid = s.nextGrid := rfl
@[simp] theorem State.setCore_rr (s : State) (k : Nat) (c : Core) : (s.setCore k c).rr = s.rr := rfl
@[simp] theorem State.setCore_saved (s : State) (k : Nat) (c : Core) : (s.setCore k c).saved = s.saved := rfl
@[simp] theorem State.setCore_places (s : State) (k : Nat) (c : Core) : (s.setCore k c).places = s.places := rfl
@[simp] theorem State.setCore_streams (s : State) (k : Nat) (c : Core) : (s.setCore k c).streams = s.streams := rfl
@[simp] theorem State.setCore_chains (s : State) (k : Nat) (c : Core) : (s.setCore k c).chains = s.chains := rfl
@[simp] theorem State.setCore_nextChain (s : State) (k : Nat) (c : Core) : (s.setCore k c).nextChain = s.nextChain := rfl
@[simp] theorem State.setCore_cps (s : State) (k : Nat) (c : Core) : (s.setCore k c).cps = s.cps := rfl
@[simp] theorem State.setCore_conns (s : State) (k : Nat) (c : Core) : (s.setCore k c).conns = s.conns := rfl
@[simp] theorem State.setCore_hostConn (s : State) (k : Nat) (c : Core) : (s.setCore k c).hostConn = s.hostConn := rfl
@[simp] theorem State.setCore_hostAccs (s : State) (k : Nat) (c : Core) : (s.setCore k c).hostAccs = s.hostAccs := rfl
@[simp] theorem State.setCore_nextTag (s : State) (k : Nat) (c : Core) : (s.setCore k c).nextTag = s.nextTag := rfl
@[simp] theorem State.setCore_hostWrites (s : State) (k : Nat) (c : Core) : (s.setCore k c).hostWrites = s.hostWrites := rfl
@[simp] theorem State.setCore_hostReads (s : State) (k : Nat) (c : Core) : (s.setCore k c).hostReads = s.hostReads := rfl
@[simp] theorem State.setCore_mgmtQ (s : State) (k : Nat) (c : Core) : (s.setCore k c).mgmtQ = s.mgmtQ := rfl
@[simp] theorem State.setCore_out (s : State) (k : Nat) (c : Core) : (s.setCore k c).out = s.out := rfl
@[simp] theorem State.setCore_pools (s : State) (k : Nat) (c : Core) : (s.setCore k c).pools = s.pools := rfl
@[simp] theorem State.setCore_orphan (s : State) (k : Nat) (c : Core) : (s.setCore k c).orphan = s.orphan := rfl
@[simp] theorem State.setCore_ready (s : State) (k : Nat) (c : Core) : (s.setCore k c).ready = s.ready := rfl
@[simp] theorem State.setCore_linkUp (s : State) (k : Nat) (c : Core) : (s.setCore k c).linkUp = s.linkUp := rfl
@[simp] theorem State.setCore_rails (s : State) (k : Nat) (c : Core) : (s.setCore k c).rails = s.rails := rfl
@[simp] theorem State.setCore_parts (s : State) (k : Nat) (c : Core) : (s.setCore k c).parts = s.parts := rfl
@[simp] theorem State.setCore_rules (s : State) (k : Nat) (c : Core) : (s.setCore k c).rules = s.rules := rfl
@[simp] theorem State.setCore_fired (s : State) (k : Nat) (c : Core) : (s.setCore k c).fired = s.fired := rfl
@[simp] theorem State.setCore_pkgTemp (s : State) (k : Nat) (c : Core) : (s.setCore k c).pkgTemp = s.pkgTemp := rfl
@[simp] theorem State.setCore_regTemp (s : State) (k : Nat) (c : Core) : (s.setCore k c).regTemp = s.regTemp := rfl
@[simp] theorem State.setCore_thot (s : State) (k : Nat) (c : Core) : (s.setCore k c).thot = s.thot := rfl
@[simp] theorem State.setCore_ipv4 (s : State) (k : Nat) (c : Core) : (s.setCore k c).ipv4 = s.ipv4 := rfl
@[simp] theorem State.setCore_ipv6 (s : State) (k : Nat) (c : Core) : (s.setCore k c).ipv6 = s.ipv6 := rfl
@[simp] theorem State.setCore_ptpProfile (s : State) (k : Nat) (c : Core) : (s.setCore k c).ptpProfile = s.ptpProfile := rfl
@[simp] theorem State.setCore_ptpDomain (s : State) (k : Nat) (c : Core) : (s.setCore k c).ptpDomain = s.ptpDomain := rfl
@[simp] theorem State.setCore_ptp (s : State) (k : Nat) (c : Core) : (s.setCore k c).ptp = s.ptp := rfl
@[simp] theorem State.setCore_boot (s : State) (k : Nat) (c : Core) : (s.setCore k c).boot = s.boot := rfl
@[simp] theorem State.setCore_image (s : State) (k : Nat) (c : Core) : (s.setCore k c).image = s.image := rfl
@[simp] theorem State.setCore_meas (s : State) (k : Nat) (c : Core) : (s.setCore k c).meas = s.meas := rfl

@[simp] theorem State.modCore_agenda (s : State) (k : Nat) (f : Core → Core) : (s.modCore k f).agenda = s.agenda := rfl
@[simp] theorem State.modCore_rx (s : State) (k : Nat) (f : Core → Core) : (s.modCore k f).rx = s.rx := rfl
@[simp] theorem State.modCore_issueQ (s : State) (k : Nat) (f : Core → Core) : (s.modCore k f).issueQ = s.issueQ := rfl
@[simp] theorem State.modCore_cur (s : State) (k : Nat) (f : Core → Core) : (s.modCore k f).cur = s.cur := rfl
@[simp] theorem State.modCore_free (s : State) (k : Nat) (f : Core → Core) : (s.modCore k f).free = s.free := rfl
@[simp] theorem State.modCore_tu (s : State) (k : Nat) (f : Core → Core) : (s.modCore k f).tu = s.tu := rfl
@[simp] theorem State.modCore_dtc (s : State) (k : Nat) (f : Core → Core) : (s.modCore k f).dtc = s.dtc := rfl
@[simp] theorem State.modCore_dtcFrac (s : State) (k : Nat) (f : Core → Core) : (s.modCore k f).dtcFrac = s.dtcFrac := rfl
@[simp] theorem State.modCore_dtcPpb (s : State) (k : Nat) (f : Core → Core) : (s.modCore k f).dtcPpb = s.dtcPpb := rfl
@[simp] theorem State.modCore_dtcFollow (s : State) (k : Nat) (f : Core → Core) : (s.modCore k f).dtcFollow = s.dtcFollow := rfl
@[simp] theorem State.modCore_dtcLockSet (s : State) (k : Nat) (f : Core → Core) : (s.modCore k f).dtcLockSet = s.dtcLockSet := rfl
@[simp] theorem State.modCore_interval (s : State) (k : Nat) (f : Core → Core) : (s.modCore k f).interval = s.interval := rfl
@[simp] theorem State.modCore_clusters (s : State) (k : Nat) (f : Core → Core) : (s.modCore k f).clusters = s.clusters := rfl
@[simp] theorem State.modCore_slices (s : State) (k : Nat) (f : Core → Core) : (s.modCore k f).slices = s.slices := rfl
@[simp] theorem State.modCore_walks (s : State) (k : Nat) (f : Core → Core) : (s.modCore k f).walks = s.walks := rfl
@[simp] theorem State.modCore_walkFaults (s : State) (k : Nat) (f : Core → Core) : (s.modCore k f).walkFaults = s.walkFaults := rfl
@[simp] theorem State.modCore_asks (s : State) (k : Nat) (f : Core → Core) : (s.modCore k f).asks = s.asks := rfl
@[simp] theorem State.modCore_wgs (s : State) (k : Nat) (f : Core → Core) : (s.modCore k f).wgs = s.wgs := rfl
@[simp] theorem State.modCore_nextWg (s : State) (k : Nat) (f : Core → Core) : (s.modCore k f).nextWg = s.nextWg := rfl
@[simp] theorem State.modCore_operands (s : State) (k : Nat) (f : Core → Core) : (s.modCore k f).operands = s.operands := rfl
@[simp] theorem State.modCore_mem (s : State) (k : Nat) (f : Core → Core) : (s.modCore k f).mem = s.mem := rfl
@[simp] theorem State.modCore_ring (s : State) (k : Nat) (f : Core → Core) : (s.modCore k f).ring = s.ring := rfl
@[simp] theorem State.modCore_rbase (s : State) (k : Nat) (f : Core → Core) : (s.modCore k f).rbase = s.rbase := rfl
@[simp] theorem State.modCore_badMem (s : State) (k : Nat) (f : Core → Core) : (s.modCore k f).badMem = s.badMem := rfl
@[simp] theorem State.modCore_chans (s : State) (k : Nat) (f : Core → Core) : (s.modCore k f).chans = s.chans := rfl
@[simp] theorem State.modCore_grids (s : State) (k : Nat) (f : Core → Core) : (s.modCore k f).grids = s.grids := rfl
@[simp] theorem State.modCore_nextGrid (s : State) (k : Nat) (f : Core → Core) : (s.modCore k f).nextGrid = s.nextGrid := rfl
@[simp] theorem State.modCore_rr (s : State) (k : Nat) (f : Core → Core) : (s.modCore k f).rr = s.rr := rfl
@[simp] theorem State.modCore_saved (s : State) (k : Nat) (f : Core → Core) : (s.modCore k f).saved = s.saved := rfl
@[simp] theorem State.modCore_places (s : State) (k : Nat) (f : Core → Core) : (s.modCore k f).places = s.places := rfl
@[simp] theorem State.modCore_streams (s : State) (k : Nat) (f : Core → Core) : (s.modCore k f).streams = s.streams := rfl
@[simp] theorem State.modCore_chains (s : State) (k : Nat) (f : Core → Core) : (s.modCore k f).chains = s.chains := rfl
@[simp] theorem State.modCore_nextChain (s : State) (k : Nat) (f : Core → Core) : (s.modCore k f).nextChain = s.nextChain := rfl
@[simp] theorem State.modCore_cps (s : State) (k : Nat) (f : Core → Core) : (s.modCore k f).cps = s.cps := rfl
@[simp] theorem State.modCore_conns (s : State) (k : Nat) (f : Core → Core) : (s.modCore k f).conns = s.conns := rfl
@[simp] theorem State.modCore_hostConn (s : State) (k : Nat) (f : Core → Core) : (s.modCore k f).hostConn = s.hostConn := rfl
@[simp] theorem State.modCore_hostAccs (s : State) (k : Nat) (f : Core → Core) : (s.modCore k f).hostAccs = s.hostAccs := rfl
@[simp] theorem State.modCore_nextTag (s : State) (k : Nat) (f : Core → Core) : (s.modCore k f).nextTag = s.nextTag := rfl
@[simp] theorem State.modCore_hostWrites (s : State) (k : Nat) (f : Core → Core) : (s.modCore k f).hostWrites = s.hostWrites := rfl
@[simp] theorem State.modCore_hostReads (s : State) (k : Nat) (f : Core → Core) : (s.modCore k f).hostReads = s.hostReads := rfl
@[simp] theorem State.modCore_mgmtQ (s : State) (k : Nat) (f : Core → Core) : (s.modCore k f).mgmtQ = s.mgmtQ := rfl
@[simp] theorem State.modCore_out (s : State) (k : Nat) (f : Core → Core) : (s.modCore k f).out = s.out := rfl
@[simp] theorem State.modCore_pools (s : State) (k : Nat) (f : Core → Core) : (s.modCore k f).pools = s.pools := rfl
@[simp] theorem State.modCore_orphan (s : State) (k : Nat) (f : Core → Core) : (s.modCore k f).orphan = s.orphan := rfl
@[simp] theorem State.modCore_ready (s : State) (k : Nat) (f : Core → Core) : (s.modCore k f).ready = s.ready := rfl
@[simp] theorem State.modCore_linkUp (s : State) (k : Nat) (f : Core → Core) : (s.modCore k f).linkUp = s.linkUp := rfl
@[simp] theorem State.modCore_rails (s : State) (k : Nat) (f : Core → Core) : (s.modCore k f).rails = s.rails := rfl
@[simp] theorem State.modCore_parts (s : State) (k : Nat) (f : Core → Core) : (s.modCore k f).parts = s.parts := rfl
@[simp] theorem State.modCore_rules (s : State) (k : Nat) (f : Core → Core) : (s.modCore k f).rules = s.rules := rfl
@[simp] theorem State.modCore_fired (s : State) (k : Nat) (f : Core → Core) : (s.modCore k f).fired = s.fired := rfl
@[simp] theorem State.modCore_pkgTemp (s : State) (k : Nat) (f : Core → Core) : (s.modCore k f).pkgTemp = s.pkgTemp := rfl
@[simp] theorem State.modCore_regTemp (s : State) (k : Nat) (f : Core → Core) : (s.modCore k f).regTemp = s.regTemp := rfl
@[simp] theorem State.modCore_thot (s : State) (k : Nat) (f : Core → Core) : (s.modCore k f).thot = s.thot := rfl
@[simp] theorem State.modCore_ipv4 (s : State) (k : Nat) (f : Core → Core) : (s.modCore k f).ipv4 = s.ipv4 := rfl
@[simp] theorem State.modCore_ipv6 (s : State) (k : Nat) (f : Core → Core) : (s.modCore k f).ipv6 = s.ipv6 := rfl
@[simp] theorem State.modCore_ptpProfile (s : State) (k : Nat) (f : Core → Core) : (s.modCore k f).ptpProfile = s.ptpProfile := rfl
@[simp] theorem State.modCore_ptpDomain (s : State) (k : Nat) (f : Core → Core) : (s.modCore k f).ptpDomain = s.ptpDomain := rfl
@[simp] theorem State.modCore_ptp (s : State) (k : Nat) (f : Core → Core) : (s.modCore k f).ptp = s.ptp := rfl
@[simp] theorem State.modCore_boot (s : State) (k : Nat) (f : Core → Core) : (s.modCore k f).boot = s.boot := rfl
@[simp] theorem State.modCore_image (s : State) (k : Nat) (f : Core → Core) : (s.modCore k f).image = s.image := rfl
@[simp] theorem State.modCore_meas (s : State) (k : Nat) (f : Core → Core) : (s.modCore k f).meas = s.meas := rfl

@[simp] theorem State.modCluster_agenda (s : State) (k : Nat) (f : Cluster → Cluster) : (s.modCluster k f).agenda = s.agenda := rfl
@[simp] theorem State.modCluster_rx (s : State) (k : Nat) (f : Cluster → Cluster) : (s.modCluster k f).rx = s.rx := rfl
@[simp] theorem State.modCluster_issueQ (s : State) (k : Nat) (f : Cluster → Cluster) : (s.modCluster k f).issueQ = s.issueQ := rfl
@[simp] theorem State.modCluster_cur (s : State) (k : Nat) (f : Cluster → Cluster) : (s.modCluster k f).cur = s.cur := rfl
@[simp] theorem State.modCluster_free (s : State) (k : Nat) (f : Cluster → Cluster) : (s.modCluster k f).free = s.free := rfl
@[simp] theorem State.modCluster_tu (s : State) (k : Nat) (f : Cluster → Cluster) : (s.modCluster k f).tu = s.tu := rfl
@[simp] theorem State.modCluster_dtc (s : State) (k : Nat) (f : Cluster → Cluster) : (s.modCluster k f).dtc = s.dtc := rfl
@[simp] theorem State.modCluster_dtcFrac (s : State) (k : Nat) (f : Cluster → Cluster) : (s.modCluster k f).dtcFrac = s.dtcFrac := rfl
@[simp] theorem State.modCluster_dtcPpb (s : State) (k : Nat) (f : Cluster → Cluster) : (s.modCluster k f).dtcPpb = s.dtcPpb := rfl
@[simp] theorem State.modCluster_dtcFollow (s : State) (k : Nat) (f : Cluster → Cluster) : (s.modCluster k f).dtcFollow = s.dtcFollow := rfl
@[simp] theorem State.modCluster_dtcLockSet (s : State) (k : Nat) (f : Cluster → Cluster) : (s.modCluster k f).dtcLockSet = s.dtcLockSet := rfl
@[simp] theorem State.modCluster_interval (s : State) (k : Nat) (f : Cluster → Cluster) : (s.modCluster k f).interval = s.interval := rfl
@[simp] theorem State.modCluster_cores (s : State) (k : Nat) (f : Cluster → Cluster) : (s.modCluster k f).cores = s.cores := rfl
@[simp] theorem State.modCluster_slices (s : State) (k : Nat) (f : Cluster → Cluster) : (s.modCluster k f).slices = s.slices := rfl
@[simp] theorem State.modCluster_walks (s : State) (k : Nat) (f : Cluster → Cluster) : (s.modCluster k f).walks = s.walks := rfl
@[simp] theorem State.modCluster_walkFaults (s : State) (k : Nat) (f : Cluster → Cluster) : (s.modCluster k f).walkFaults = s.walkFaults := rfl
@[simp] theorem State.modCluster_asks (s : State) (k : Nat) (f : Cluster → Cluster) : (s.modCluster k f).asks = s.asks := rfl
@[simp] theorem State.modCluster_wgs (s : State) (k : Nat) (f : Cluster → Cluster) : (s.modCluster k f).wgs = s.wgs := rfl
@[simp] theorem State.modCluster_nextWg (s : State) (k : Nat) (f : Cluster → Cluster) : (s.modCluster k f).nextWg = s.nextWg := rfl
@[simp] theorem State.modCluster_operands (s : State) (k : Nat) (f : Cluster → Cluster) : (s.modCluster k f).operands = s.operands := rfl
@[simp] theorem State.modCluster_mem (s : State) (k : Nat) (f : Cluster → Cluster) : (s.modCluster k f).mem = s.mem := rfl
@[simp] theorem State.modCluster_ring (s : State) (k : Nat) (f : Cluster → Cluster) : (s.modCluster k f).ring = s.ring := rfl
@[simp] theorem State.modCluster_rbase (s : State) (k : Nat) (f : Cluster → Cluster) : (s.modCluster k f).rbase = s.rbase := rfl
@[simp] theorem State.modCluster_badMem (s : State) (k : Nat) (f : Cluster → Cluster) : (s.modCluster k f).badMem = s.badMem := rfl
@[simp] theorem State.modCluster_chans (s : State) (k : Nat) (f : Cluster → Cluster) : (s.modCluster k f).chans = s.chans := rfl
@[simp] theorem State.modCluster_grids (s : State) (k : Nat) (f : Cluster → Cluster) : (s.modCluster k f).grids = s.grids := rfl
@[simp] theorem State.modCluster_nextGrid (s : State) (k : Nat) (f : Cluster → Cluster) : (s.modCluster k f).nextGrid = s.nextGrid := rfl
@[simp] theorem State.modCluster_rr (s : State) (k : Nat) (f : Cluster → Cluster) : (s.modCluster k f).rr = s.rr := rfl
@[simp] theorem State.modCluster_saved (s : State) (k : Nat) (f : Cluster → Cluster) : (s.modCluster k f).saved = s.saved := rfl
@[simp] theorem State.modCluster_places (s : State) (k : Nat) (f : Cluster → Cluster) : (s.modCluster k f).places = s.places := rfl
@[simp] theorem State.modCluster_streams (s : State) (k : Nat) (f : Cluster → Cluster) : (s.modCluster k f).streams = s.streams := rfl
@[simp] theorem State.modCluster_chains (s : State) (k : Nat) (f : Cluster → Cluster) : (s.modCluster k f).chains = s.chains := rfl
@[simp] theorem State.modCluster_nextChain (s : State) (k : Nat) (f : Cluster → Cluster) : (s.modCluster k f).nextChain = s.nextChain := rfl
@[simp] theorem State.modCluster_cps (s : State) (k : Nat) (f : Cluster → Cluster) : (s.modCluster k f).cps = s.cps := rfl
@[simp] theorem State.modCluster_conns (s : State) (k : Nat) (f : Cluster → Cluster) : (s.modCluster k f).conns = s.conns := rfl
@[simp] theorem State.modCluster_hostConn (s : State) (k : Nat) (f : Cluster → Cluster) : (s.modCluster k f).hostConn = s.hostConn := rfl
@[simp] theorem State.modCluster_hostAccs (s : State) (k : Nat) (f : Cluster → Cluster) : (s.modCluster k f).hostAccs = s.hostAccs := rfl
@[simp] theorem State.modCluster_nextTag (s : State) (k : Nat) (f : Cluster → Cluster) : (s.modCluster k f).nextTag = s.nextTag := rfl
@[simp] theorem State.modCluster_hostWrites (s : State) (k : Nat) (f : Cluster → Cluster) : (s.modCluster k f).hostWrites = s.hostWrites := rfl
@[simp] theorem State.modCluster_hostReads (s : State) (k : Nat) (f : Cluster → Cluster) : (s.modCluster k f).hostReads = s.hostReads := rfl
@[simp] theorem State.modCluster_mgmtQ (s : State) (k : Nat) (f : Cluster → Cluster) : (s.modCluster k f).mgmtQ = s.mgmtQ := rfl
@[simp] theorem State.modCluster_out (s : State) (k : Nat) (f : Cluster → Cluster) : (s.modCluster k f).out = s.out := rfl
@[simp] theorem State.modCluster_pools (s : State) (k : Nat) (f : Cluster → Cluster) : (s.modCluster k f).pools = s.pools := rfl
@[simp] theorem State.modCluster_orphan (s : State) (k : Nat) (f : Cluster → Cluster) : (s.modCluster k f).orphan = s.orphan := rfl
@[simp] theorem State.modCluster_ready (s : State) (k : Nat) (f : Cluster → Cluster) : (s.modCluster k f).ready = s.ready := rfl
@[simp] theorem State.modCluster_linkUp (s : State) (k : Nat) (f : Cluster → Cluster) : (s.modCluster k f).linkUp = s.linkUp := rfl
@[simp] theorem State.modCluster_rails (s : State) (k : Nat) (f : Cluster → Cluster) : (s.modCluster k f).rails = s.rails := rfl
@[simp] theorem State.modCluster_parts (s : State) (k : Nat) (f : Cluster → Cluster) : (s.modCluster k f).parts = s.parts := rfl
@[simp] theorem State.modCluster_rules (s : State) (k : Nat) (f : Cluster → Cluster) : (s.modCluster k f).rules = s.rules := rfl
@[simp] theorem State.modCluster_fired (s : State) (k : Nat) (f : Cluster → Cluster) : (s.modCluster k f).fired = s.fired := rfl
@[simp] theorem State.modCluster_pkgTemp (s : State) (k : Nat) (f : Cluster → Cluster) : (s.modCluster k f).pkgTemp = s.pkgTemp := rfl
@[simp] theorem State.modCluster_regTemp (s : State) (k : Nat) (f : Cluster → Cluster) : (s.modCluster k f).regTemp = s.regTemp := rfl
@[simp] theorem State.modCluster_thot (s : State) (k : Nat) (f : Cluster → Cluster) : (s.modCluster k f).thot = s.thot := rfl
@[simp] theorem State.modCluster_ipv4 (s : State) (k : Nat) (f : Cluster → Cluster) : (s.modCluster k f).ipv4 = s.ipv4 := rfl
@[simp] theorem State.modCluster_ipv6 (s : State) (k : Nat) (f : Cluster → Cluster) : (s.modCluster k f).ipv6 = s.ipv6 := rfl
@[simp] theorem State.modCluster_ptpProfile (s : State) (k : Nat) (f : Cluster → Cluster) : (s.modCluster k f).ptpProfile = s.ptpProfile := rfl
@[simp] theorem State.modCluster_ptpDomain (s : State) (k : Nat) (f : Cluster → Cluster) : (s.modCluster k f).ptpDomain = s.ptpDomain := rfl
@[simp] theorem State.modCluster_ptp (s : State) (k : Nat) (f : Cluster → Cluster) : (s.modCluster k f).ptp = s.ptp := rfl
@[simp] theorem State.modCluster_boot (s : State) (k : Nat) (f : Cluster → Cluster) : (s.modCluster k f).boot = s.boot := rfl
@[simp] theorem State.modCluster_image (s : State) (k : Nat) (f : Cluster → Cluster) : (s.modCluster k f).image = s.image := rfl
@[simp] theorem State.modCluster_meas (s : State) (k : Nat) (f : Cluster → Cluster) : (s.modCluster k f).meas = s.meas := rfl

@[simp] theorem State.modSlice_agenda (s : State) (k : Nat) (f : Slice → Slice) : (s.modSlice k f).agenda = s.agenda := rfl
@[simp] theorem State.modSlice_rx (s : State) (k : Nat) (f : Slice → Slice) : (s.modSlice k f).rx = s.rx := rfl
@[simp] theorem State.modSlice_issueQ (s : State) (k : Nat) (f : Slice → Slice) : (s.modSlice k f).issueQ = s.issueQ := rfl
@[simp] theorem State.modSlice_cur (s : State) (k : Nat) (f : Slice → Slice) : (s.modSlice k f).cur = s.cur := rfl
@[simp] theorem State.modSlice_free (s : State) (k : Nat) (f : Slice → Slice) : (s.modSlice k f).free = s.free := rfl
@[simp] theorem State.modSlice_tu (s : State) (k : Nat) (f : Slice → Slice) : (s.modSlice k f).tu = s.tu := rfl
@[simp] theorem State.modSlice_dtc (s : State) (k : Nat) (f : Slice → Slice) : (s.modSlice k f).dtc = s.dtc := rfl
@[simp] theorem State.modSlice_dtcFrac (s : State) (k : Nat) (f : Slice → Slice) : (s.modSlice k f).dtcFrac = s.dtcFrac := rfl
@[simp] theorem State.modSlice_dtcPpb (s : State) (k : Nat) (f : Slice → Slice) : (s.modSlice k f).dtcPpb = s.dtcPpb := rfl
@[simp] theorem State.modSlice_dtcFollow (s : State) (k : Nat) (f : Slice → Slice) : (s.modSlice k f).dtcFollow = s.dtcFollow := rfl
@[simp] theorem State.modSlice_dtcLockSet (s : State) (k : Nat) (f : Slice → Slice) : (s.modSlice k f).dtcLockSet = s.dtcLockSet := rfl
@[simp] theorem State.modSlice_interval (s : State) (k : Nat) (f : Slice → Slice) : (s.modSlice k f).interval = s.interval := rfl
@[simp] theorem State.modSlice_cores (s : State) (k : Nat) (f : Slice → Slice) : (s.modSlice k f).cores = s.cores := rfl
@[simp] theorem State.modSlice_clusters (s : State) (k : Nat) (f : Slice → Slice) : (s.modSlice k f).clusters = s.clusters := rfl
@[simp] theorem State.modSlice_walks (s : State) (k : Nat) (f : Slice → Slice) : (s.modSlice k f).walks = s.walks := rfl
@[simp] theorem State.modSlice_walkFaults (s : State) (k : Nat) (f : Slice → Slice) : (s.modSlice k f).walkFaults = s.walkFaults := rfl
@[simp] theorem State.modSlice_asks (s : State) (k : Nat) (f : Slice → Slice) : (s.modSlice k f).asks = s.asks := rfl
@[simp] theorem State.modSlice_wgs (s : State) (k : Nat) (f : Slice → Slice) : (s.modSlice k f).wgs = s.wgs := rfl
@[simp] theorem State.modSlice_nextWg (s : State) (k : Nat) (f : Slice → Slice) : (s.modSlice k f).nextWg = s.nextWg := rfl
@[simp] theorem State.modSlice_operands (s : State) (k : Nat) (f : Slice → Slice) : (s.modSlice k f).operands = s.operands := rfl
@[simp] theorem State.modSlice_mem (s : State) (k : Nat) (f : Slice → Slice) : (s.modSlice k f).mem = s.mem := rfl
@[simp] theorem State.modSlice_ring (s : State) (k : Nat) (f : Slice → Slice) : (s.modSlice k f).ring = s.ring := rfl
@[simp] theorem State.modSlice_rbase (s : State) (k : Nat) (f : Slice → Slice) : (s.modSlice k f).rbase = s.rbase := rfl
@[simp] theorem State.modSlice_badMem (s : State) (k : Nat) (f : Slice → Slice) : (s.modSlice k f).badMem = s.badMem := rfl
@[simp] theorem State.modSlice_chans (s : State) (k : Nat) (f : Slice → Slice) : (s.modSlice k f).chans = s.chans := rfl
@[simp] theorem State.modSlice_grids (s : State) (k : Nat) (f : Slice → Slice) : (s.modSlice k f).grids = s.grids := rfl
@[simp] theorem State.modSlice_nextGrid (s : State) (k : Nat) (f : Slice → Slice) : (s.modSlice k f).nextGrid = s.nextGrid := rfl
@[simp] theorem State.modSlice_rr (s : State) (k : Nat) (f : Slice → Slice) : (s.modSlice k f).rr = s.rr := rfl
@[simp] theorem State.modSlice_saved (s : State) (k : Nat) (f : Slice → Slice) : (s.modSlice k f).saved = s.saved := rfl
@[simp] theorem State.modSlice_places (s : State) (k : Nat) (f : Slice → Slice) : (s.modSlice k f).places = s.places := rfl
@[simp] theorem State.modSlice_streams (s : State) (k : Nat) (f : Slice → Slice) : (s.modSlice k f).streams = s.streams := rfl
@[simp] theorem State.modSlice_chains (s : State) (k : Nat) (f : Slice → Slice) : (s.modSlice k f).chains = s.chains := rfl
@[simp] theorem State.modSlice_nextChain (s : State) (k : Nat) (f : Slice → Slice) : (s.modSlice k f).nextChain = s.nextChain := rfl
@[simp] theorem State.modSlice_cps (s : State) (k : Nat) (f : Slice → Slice) : (s.modSlice k f).cps = s.cps := rfl
@[simp] theorem State.modSlice_conns (s : State) (k : Nat) (f : Slice → Slice) : (s.modSlice k f).conns = s.conns := rfl
@[simp] theorem State.modSlice_hostConn (s : State) (k : Nat) (f : Slice → Slice) : (s.modSlice k f).hostConn = s.hostConn := rfl
@[simp] theorem State.modSlice_hostAccs (s : State) (k : Nat) (f : Slice → Slice) : (s.modSlice k f).hostAccs = s.hostAccs := rfl
@[simp] theorem State.modSlice_nextTag (s : State) (k : Nat) (f : Slice → Slice) : (s.modSlice k f).nextTag = s.nextTag := rfl
@[simp] theorem State.modSlice_hostWrites (s : State) (k : Nat) (f : Slice → Slice) : (s.modSlice k f).hostWrites = s.hostWrites := rfl
@[simp] theorem State.modSlice_hostReads (s : State) (k : Nat) (f : Slice → Slice) : (s.modSlice k f).hostReads = s.hostReads := rfl
@[simp] theorem State.modSlice_mgmtQ (s : State) (k : Nat) (f : Slice → Slice) : (s.modSlice k f).mgmtQ = s.mgmtQ := rfl
@[simp] theorem State.modSlice_out (s : State) (k : Nat) (f : Slice → Slice) : (s.modSlice k f).out = s.out := rfl
@[simp] theorem State.modSlice_pools (s : State) (k : Nat) (f : Slice → Slice) : (s.modSlice k f).pools = s.pools := rfl
@[simp] theorem State.modSlice_orphan (s : State) (k : Nat) (f : Slice → Slice) : (s.modSlice k f).orphan = s.orphan := rfl
@[simp] theorem State.modSlice_ready (s : State) (k : Nat) (f : Slice → Slice) : (s.modSlice k f).ready = s.ready := rfl
@[simp] theorem State.modSlice_linkUp (s : State) (k : Nat) (f : Slice → Slice) : (s.modSlice k f).linkUp = s.linkUp := rfl
@[simp] theorem State.modSlice_rails (s : State) (k : Nat) (f : Slice → Slice) : (s.modSlice k f).rails = s.rails := rfl
@[simp] theorem State.modSlice_parts (s : State) (k : Nat) (f : Slice → Slice) : (s.modSlice k f).parts = s.parts := rfl
@[simp] theorem State.modSlice_rules (s : State) (k : Nat) (f : Slice → Slice) : (s.modSlice k f).rules = s.rules := rfl
@[simp] theorem State.modSlice_fired (s : State) (k : Nat) (f : Slice → Slice) : (s.modSlice k f).fired = s.fired := rfl
@[simp] theorem State.modSlice_pkgTemp (s : State) (k : Nat) (f : Slice → Slice) : (s.modSlice k f).pkgTemp = s.pkgTemp := rfl
@[simp] theorem State.modSlice_regTemp (s : State) (k : Nat) (f : Slice → Slice) : (s.modSlice k f).regTemp = s.regTemp := rfl
@[simp] theorem State.modSlice_thot (s : State) (k : Nat) (f : Slice → Slice) : (s.modSlice k f).thot = s.thot := rfl
@[simp] theorem State.modSlice_ipv4 (s : State) (k : Nat) (f : Slice → Slice) : (s.modSlice k f).ipv4 = s.ipv4 := rfl
@[simp] theorem State.modSlice_ipv6 (s : State) (k : Nat) (f : Slice → Slice) : (s.modSlice k f).ipv6 = s.ipv6 := rfl
@[simp] theorem State.modSlice_ptpProfile (s : State) (k : Nat) (f : Slice → Slice) : (s.modSlice k f).ptpProfile = s.ptpProfile := rfl
@[simp] theorem State.modSlice_ptpDomain (s : State) (k : Nat) (f : Slice → Slice) : (s.modSlice k f).ptpDomain = s.ptpDomain := rfl
@[simp] theorem State.modSlice_ptp (s : State) (k : Nat) (f : Slice → Slice) : (s.modSlice k f).ptp = s.ptp := rfl
@[simp] theorem State.modSlice_boot (s : State) (k : Nat) (f : Slice → Slice) : (s.modSlice k f).boot = s.boot := rfl
@[simp] theorem State.modSlice_image (s : State) (k : Nat) (f : Slice → Slice) : (s.modSlice k f).image = s.image := rfl
@[simp] theorem State.modSlice_meas (s : State) (k : Nat) (f : Slice → Slice) : (s.modSlice k f).meas = s.meas := rfl

@[simp] theorem State.modWg_agenda (s : State) (k : Nat) (f : WGrp → WGrp) : (s.modWg k f).agenda = s.agenda := rfl
@[simp] theorem State.modWg_rx (s : State) (k : Nat) (f : WGrp → WGrp) : (s.modWg k f).rx = s.rx := rfl
@[simp] theorem State.modWg_issueQ (s : State) (k : Nat) (f : WGrp → WGrp) : (s.modWg k f).issueQ = s.issueQ := rfl
@[simp] theorem State.modWg_cur (s : State) (k : Nat) (f : WGrp → WGrp) : (s.modWg k f).cur = s.cur := rfl
@[simp] theorem State.modWg_free (s : State) (k : Nat) (f : WGrp → WGrp) : (s.modWg k f).free = s.free := rfl
@[simp] theorem State.modWg_tu (s : State) (k : Nat) (f : WGrp → WGrp) : (s.modWg k f).tu = s.tu := rfl
@[simp] theorem State.modWg_dtc (s : State) (k : Nat) (f : WGrp → WGrp) : (s.modWg k f).dtc = s.dtc := rfl
@[simp] theorem State.modWg_dtcFrac (s : State) (k : Nat) (f : WGrp → WGrp) : (s.modWg k f).dtcFrac = s.dtcFrac := rfl
@[simp] theorem State.modWg_dtcPpb (s : State) (k : Nat) (f : WGrp → WGrp) : (s.modWg k f).dtcPpb = s.dtcPpb := rfl
@[simp] theorem State.modWg_dtcFollow (s : State) (k : Nat) (f : WGrp → WGrp) : (s.modWg k f).dtcFollow = s.dtcFollow := rfl
@[simp] theorem State.modWg_dtcLockSet (s : State) (k : Nat) (f : WGrp → WGrp) : (s.modWg k f).dtcLockSet = s.dtcLockSet := rfl
@[simp] theorem State.modWg_interval (s : State) (k : Nat) (f : WGrp → WGrp) : (s.modWg k f).interval = s.interval := rfl
@[simp] theorem State.modWg_cores (s : State) (k : Nat) (f : WGrp → WGrp) : (s.modWg k f).cores = s.cores := rfl
@[simp] theorem State.modWg_clusters (s : State) (k : Nat) (f : WGrp → WGrp) : (s.modWg k f).clusters = s.clusters := rfl
@[simp] theorem State.modWg_slices (s : State) (k : Nat) (f : WGrp → WGrp) : (s.modWg k f).slices = s.slices := rfl
@[simp] theorem State.modWg_walks (s : State) (k : Nat) (f : WGrp → WGrp) : (s.modWg k f).walks = s.walks := rfl
@[simp] theorem State.modWg_walkFaults (s : State) (k : Nat) (f : WGrp → WGrp) : (s.modWg k f).walkFaults = s.walkFaults := rfl
@[simp] theorem State.modWg_asks (s : State) (k : Nat) (f : WGrp → WGrp) : (s.modWg k f).asks = s.asks := rfl
@[simp] theorem State.modWg_nextWg (s : State) (k : Nat) (f : WGrp → WGrp) : (s.modWg k f).nextWg = s.nextWg := rfl
@[simp] theorem State.modWg_operands (s : State) (k : Nat) (f : WGrp → WGrp) : (s.modWg k f).operands = s.operands := rfl
@[simp] theorem State.modWg_mem (s : State) (k : Nat) (f : WGrp → WGrp) : (s.modWg k f).mem = s.mem := rfl
@[simp] theorem State.modWg_ring (s : State) (k : Nat) (f : WGrp → WGrp) : (s.modWg k f).ring = s.ring := rfl
@[simp] theorem State.modWg_rbase (s : State) (k : Nat) (f : WGrp → WGrp) : (s.modWg k f).rbase = s.rbase := rfl
@[simp] theorem State.modWg_badMem (s : State) (k : Nat) (f : WGrp → WGrp) : (s.modWg k f).badMem = s.badMem := rfl
@[simp] theorem State.modWg_chans (s : State) (k : Nat) (f : WGrp → WGrp) : (s.modWg k f).chans = s.chans := rfl
@[simp] theorem State.modWg_grids (s : State) (k : Nat) (f : WGrp → WGrp) : (s.modWg k f).grids = s.grids := rfl
@[simp] theorem State.modWg_nextGrid (s : State) (k : Nat) (f : WGrp → WGrp) : (s.modWg k f).nextGrid = s.nextGrid := rfl
@[simp] theorem State.modWg_rr (s : State) (k : Nat) (f : WGrp → WGrp) : (s.modWg k f).rr = s.rr := rfl
@[simp] theorem State.modWg_saved (s : State) (k : Nat) (f : WGrp → WGrp) : (s.modWg k f).saved = s.saved := rfl
@[simp] theorem State.modWg_places (s : State) (k : Nat) (f : WGrp → WGrp) : (s.modWg k f).places = s.places := rfl
@[simp] theorem State.modWg_streams (s : State) (k : Nat) (f : WGrp → WGrp) : (s.modWg k f).streams = s.streams := rfl
@[simp] theorem State.modWg_chains (s : State) (k : Nat) (f : WGrp → WGrp) : (s.modWg k f).chains = s.chains := rfl
@[simp] theorem State.modWg_nextChain (s : State) (k : Nat) (f : WGrp → WGrp) : (s.modWg k f).nextChain = s.nextChain := rfl
@[simp] theorem State.modWg_cps (s : State) (k : Nat) (f : WGrp → WGrp) : (s.modWg k f).cps = s.cps := rfl
@[simp] theorem State.modWg_conns (s : State) (k : Nat) (f : WGrp → WGrp) : (s.modWg k f).conns = s.conns := rfl
@[simp] theorem State.modWg_hostConn (s : State) (k : Nat) (f : WGrp → WGrp) : (s.modWg k f).hostConn = s.hostConn := rfl
@[simp] theorem State.modWg_hostAccs (s : State) (k : Nat) (f : WGrp → WGrp) : (s.modWg k f).hostAccs = s.hostAccs := rfl
@[simp] theorem State.modWg_nextTag (s : State) (k : Nat) (f : WGrp → WGrp) : (s.modWg k f).nextTag = s.nextTag := rfl
@[simp] theorem State.modWg_hostWrites (s : State) (k : Nat) (f : WGrp → WGrp) : (s.modWg k f).hostWrites = s.hostWrites := rfl
@[simp] theorem State.modWg_hostReads (s : State) (k : Nat) (f : WGrp → WGrp) : (s.modWg k f).hostReads = s.hostReads := rfl
@[simp] theorem State.modWg_mgmtQ (s : State) (k : Nat) (f : WGrp → WGrp) : (s.modWg k f).mgmtQ = s.mgmtQ := rfl
@[simp] theorem State.modWg_out (s : State) (k : Nat) (f : WGrp → WGrp) : (s.modWg k f).out = s.out := rfl
@[simp] theorem State.modWg_pools (s : State) (k : Nat) (f : WGrp → WGrp) : (s.modWg k f).pools = s.pools := rfl
@[simp] theorem State.modWg_orphan (s : State) (k : Nat) (f : WGrp → WGrp) : (s.modWg k f).orphan = s.orphan := rfl
@[simp] theorem State.modWg_ready (s : State) (k : Nat) (f : WGrp → WGrp) : (s.modWg k f).ready = s.ready := rfl
@[simp] theorem State.modWg_linkUp (s : State) (k : Nat) (f : WGrp → WGrp) : (s.modWg k f).linkUp = s.linkUp := rfl
@[simp] theorem State.modWg_rails (s : State) (k : Nat) (f : WGrp → WGrp) : (s.modWg k f).rails = s.rails := rfl
@[simp] theorem State.modWg_parts (s : State) (k : Nat) (f : WGrp → WGrp) : (s.modWg k f).parts = s.parts := rfl
@[simp] theorem State.modWg_rules (s : State) (k : Nat) (f : WGrp → WGrp) : (s.modWg k f).rules = s.rules := rfl
@[simp] theorem State.modWg_fired (s : State) (k : Nat) (f : WGrp → WGrp) : (s.modWg k f).fired = s.fired := rfl
@[simp] theorem State.modWg_pkgTemp (s : State) (k : Nat) (f : WGrp → WGrp) : (s.modWg k f).pkgTemp = s.pkgTemp := rfl
@[simp] theorem State.modWg_regTemp (s : State) (k : Nat) (f : WGrp → WGrp) : (s.modWg k f).regTemp = s.regTemp := rfl
@[simp] theorem State.modWg_thot (s : State) (k : Nat) (f : WGrp → WGrp) : (s.modWg k f).thot = s.thot := rfl
@[simp] theorem State.modWg_ipv4 (s : State) (k : Nat) (f : WGrp → WGrp) : (s.modWg k f).ipv4 = s.ipv4 := rfl
@[simp] theorem State.modWg_ipv6 (s : State) (k : Nat) (f : WGrp → WGrp) : (s.modWg k f).ipv6 = s.ipv6 := rfl
@[simp] theorem State.modWg_ptpProfile (s : State) (k : Nat) (f : WGrp → WGrp) : (s.modWg k f).ptpProfile = s.ptpProfile := rfl
@[simp] theorem State.modWg_ptpDomain (s : State) (k : Nat) (f : WGrp → WGrp) : (s.modWg k f).ptpDomain = s.ptpDomain := rfl
@[simp] theorem State.modWg_ptp (s : State) (k : Nat) (f : WGrp → WGrp) : (s.modWg k f).ptp = s.ptp := rfl
@[simp] theorem State.modWg_boot (s : State) (k : Nat) (f : WGrp → WGrp) : (s.modWg k f).boot = s.boot := rfl
@[simp] theorem State.modWg_image (s : State) (k : Nat) (f : WGrp → WGrp) : (s.modWg k f).image = s.image := rfl
@[simp] theorem State.modWg_meas (s : State) (k : Nat) (f : WGrp → WGrp) : (s.modWg k f).meas = s.meas := rfl

@[simp] theorem State.modGrid_agenda (s : State) (k : Nat) (f : Grid → Grid) : (s.modGrid k f).agenda = s.agenda := rfl
@[simp] theorem State.modGrid_rx (s : State) (k : Nat) (f : Grid → Grid) : (s.modGrid k f).rx = s.rx := rfl
@[simp] theorem State.modGrid_issueQ (s : State) (k : Nat) (f : Grid → Grid) : (s.modGrid k f).issueQ = s.issueQ := rfl
@[simp] theorem State.modGrid_cur (s : State) (k : Nat) (f : Grid → Grid) : (s.modGrid k f).cur = s.cur := rfl
@[simp] theorem State.modGrid_free (s : State) (k : Nat) (f : Grid → Grid) : (s.modGrid k f).free = s.free := rfl
@[simp] theorem State.modGrid_tu (s : State) (k : Nat) (f : Grid → Grid) : (s.modGrid k f).tu = s.tu := rfl
@[simp] theorem State.modGrid_dtc (s : State) (k : Nat) (f : Grid → Grid) : (s.modGrid k f).dtc = s.dtc := rfl
@[simp] theorem State.modGrid_dtcFrac (s : State) (k : Nat) (f : Grid → Grid) : (s.modGrid k f).dtcFrac = s.dtcFrac := rfl
@[simp] theorem State.modGrid_dtcPpb (s : State) (k : Nat) (f : Grid → Grid) : (s.modGrid k f).dtcPpb = s.dtcPpb := rfl
@[simp] theorem State.modGrid_dtcFollow (s : State) (k : Nat) (f : Grid → Grid) : (s.modGrid k f).dtcFollow = s.dtcFollow := rfl
@[simp] theorem State.modGrid_dtcLockSet (s : State) (k : Nat) (f : Grid → Grid) : (s.modGrid k f).dtcLockSet = s.dtcLockSet := rfl
@[simp] theorem State.modGrid_interval (s : State) (k : Nat) (f : Grid → Grid) : (s.modGrid k f).interval = s.interval := rfl
@[simp] theorem State.modGrid_cores (s : State) (k : Nat) (f : Grid → Grid) : (s.modGrid k f).cores = s.cores := rfl
@[simp] theorem State.modGrid_clusters (s : State) (k : Nat) (f : Grid → Grid) : (s.modGrid k f).clusters = s.clusters := rfl
@[simp] theorem State.modGrid_slices (s : State) (k : Nat) (f : Grid → Grid) : (s.modGrid k f).slices = s.slices := rfl
@[simp] theorem State.modGrid_walks (s : State) (k : Nat) (f : Grid → Grid) : (s.modGrid k f).walks = s.walks := rfl
@[simp] theorem State.modGrid_walkFaults (s : State) (k : Nat) (f : Grid → Grid) : (s.modGrid k f).walkFaults = s.walkFaults := rfl
@[simp] theorem State.modGrid_asks (s : State) (k : Nat) (f : Grid → Grid) : (s.modGrid k f).asks = s.asks := rfl
@[simp] theorem State.modGrid_wgs (s : State) (k : Nat) (f : Grid → Grid) : (s.modGrid k f).wgs = s.wgs := rfl
@[simp] theorem State.modGrid_nextWg (s : State) (k : Nat) (f : Grid → Grid) : (s.modGrid k f).nextWg = s.nextWg := rfl
@[simp] theorem State.modGrid_operands (s : State) (k : Nat) (f : Grid → Grid) : (s.modGrid k f).operands = s.operands := rfl
@[simp] theorem State.modGrid_mem (s : State) (k : Nat) (f : Grid → Grid) : (s.modGrid k f).mem = s.mem := rfl
@[simp] theorem State.modGrid_ring (s : State) (k : Nat) (f : Grid → Grid) : (s.modGrid k f).ring = s.ring := rfl
@[simp] theorem State.modGrid_rbase (s : State) (k : Nat) (f : Grid → Grid) : (s.modGrid k f).rbase = s.rbase := rfl
@[simp] theorem State.modGrid_badMem (s : State) (k : Nat) (f : Grid → Grid) : (s.modGrid k f).badMem = s.badMem := rfl
@[simp] theorem State.modGrid_chans (s : State) (k : Nat) (f : Grid → Grid) : (s.modGrid k f).chans = s.chans := rfl
@[simp] theorem State.modGrid_nextGrid (s : State) (k : Nat) (f : Grid → Grid) : (s.modGrid k f).nextGrid = s.nextGrid := rfl
@[simp] theorem State.modGrid_rr (s : State) (k : Nat) (f : Grid → Grid) : (s.modGrid k f).rr = s.rr := rfl
@[simp] theorem State.modGrid_saved (s : State) (k : Nat) (f : Grid → Grid) : (s.modGrid k f).saved = s.saved := rfl
@[simp] theorem State.modGrid_places (s : State) (k : Nat) (f : Grid → Grid) : (s.modGrid k f).places = s.places := rfl
@[simp] theorem State.modGrid_streams (s : State) (k : Nat) (f : Grid → Grid) : (s.modGrid k f).streams = s.streams := rfl
@[simp] theorem State.modGrid_chains (s : State) (k : Nat) (f : Grid → Grid) : (s.modGrid k f).chains = s.chains := rfl
@[simp] theorem State.modGrid_nextChain (s : State) (k : Nat) (f : Grid → Grid) : (s.modGrid k f).nextChain = s.nextChain := rfl
@[simp] theorem State.modGrid_cps (s : State) (k : Nat) (f : Grid → Grid) : (s.modGrid k f).cps = s.cps := rfl
@[simp] theorem State.modGrid_conns (s : State) (k : Nat) (f : Grid → Grid) : (s.modGrid k f).conns = s.conns := rfl
@[simp] theorem State.modGrid_hostConn (s : State) (k : Nat) (f : Grid → Grid) : (s.modGrid k f).hostConn = s.hostConn := rfl
@[simp] theorem State.modGrid_hostAccs (s : State) (k : Nat) (f : Grid → Grid) : (s.modGrid k f).hostAccs = s.hostAccs := rfl
@[simp] theorem State.modGrid_nextTag (s : State) (k : Nat) (f : Grid → Grid) : (s.modGrid k f).nextTag = s.nextTag := rfl
@[simp] theorem State.modGrid_hostWrites (s : State) (k : Nat) (f : Grid → Grid) : (s.modGrid k f).hostWrites = s.hostWrites := rfl
@[simp] theorem State.modGrid_hostReads (s : State) (k : Nat) (f : Grid → Grid) : (s.modGrid k f).hostReads = s.hostReads := rfl
@[simp] theorem State.modGrid_mgmtQ (s : State) (k : Nat) (f : Grid → Grid) : (s.modGrid k f).mgmtQ = s.mgmtQ := rfl
@[simp] theorem State.modGrid_out (s : State) (k : Nat) (f : Grid → Grid) : (s.modGrid k f).out = s.out := rfl
@[simp] theorem State.modGrid_pools (s : State) (k : Nat) (f : Grid → Grid) : (s.modGrid k f).pools = s.pools := rfl
@[simp] theorem State.modGrid_orphan (s : State) (k : Nat) (f : Grid → Grid) : (s.modGrid k f).orphan = s.orphan := rfl
@[simp] theorem State.modGrid_ready (s : State) (k : Nat) (f : Grid → Grid) : (s.modGrid k f).ready = s.ready := rfl
@[simp] theorem State.modGrid_linkUp (s : State) (k : Nat) (f : Grid → Grid) : (s.modGrid k f).linkUp = s.linkUp := rfl
@[simp] theorem State.modGrid_rails (s : State) (k : Nat) (f : Grid → Grid) : (s.modGrid k f).rails = s.rails := rfl
@[simp] theorem State.modGrid_parts (s : State) (k : Nat) (f : Grid → Grid) : (s.modGrid k f).parts = s.parts := rfl
@[simp] theorem State.modGrid_rules (s : State) (k : Nat) (f : Grid → Grid) : (s.modGrid k f).rules = s.rules := rfl
@[simp] theorem State.modGrid_fired (s : State) (k : Nat) (f : Grid → Grid) : (s.modGrid k f).fired = s.fired := rfl
@[simp] theorem State.modGrid_pkgTemp (s : State) (k : Nat) (f : Grid → Grid) : (s.modGrid k f).pkgTemp = s.pkgTemp := rfl
@[simp] theorem State.modGrid_regTemp (s : State) (k : Nat) (f : Grid → Grid) : (s.modGrid k f).regTemp = s.regTemp := rfl
@[simp] theorem State.modGrid_thot (s : State) (k : Nat) (f : Grid → Grid) : (s.modGrid k f).thot = s.thot := rfl
@[simp] theorem State.modGrid_ipv4 (s : State) (k : Nat) (f : Grid → Grid) : (s.modGrid k f).ipv4 = s.ipv4 := rfl
@[simp] theorem State.modGrid_ipv6 (s : State) (k : Nat) (f : Grid → Grid) : (s.modGrid k f).ipv6 = s.ipv6 := rfl
@[simp] theorem State.modGrid_ptpProfile (s : State) (k : Nat) (f : Grid → Grid) : (s.modGrid k f).ptpProfile = s.ptpProfile := rfl
@[simp] theorem State.modGrid_ptpDomain (s : State) (k : Nat) (f : Grid → Grid) : (s.modGrid k f).ptpDomain = s.ptpDomain := rfl
@[simp] theorem State.modGrid_ptp (s : State) (k : Nat) (f : Grid → Grid) : (s.modGrid k f).ptp = s.ptp := rfl
@[simp] theorem State.modGrid_boot (s : State) (k : Nat) (f : Grid → Grid) : (s.modGrid k f).boot = s.boot := rfl
@[simp] theorem State.modGrid_image (s : State) (k : Nat) (f : Grid → Grid) : (s.modGrid k f).image = s.image := rfl
@[simp] theorem State.modGrid_meas (s : State) (k : Nat) (f : Grid → Grid) : (s.modGrid k f).meas = s.meas := rfl

@[simp] theorem State.modWave_agenda (s : State) (core ctx : Nat) (f : Wave → Wave) : (s.modWave core ctx f).agenda = s.agenda := rfl
@[simp] theorem State.modWave_rx (s : State) (core ctx : Nat) (f : Wave → Wave) : (s.modWave core ctx f).rx = s.rx := rfl
@[simp] theorem State.modWave_issueQ (s : State) (core ctx : Nat) (f : Wave → Wave) : (s.modWave core ctx f).issueQ = s.issueQ := rfl
@[simp] theorem State.modWave_cur (s : State) (core ctx : Nat) (f : Wave → Wave) : (s.modWave core ctx f).cur = s.cur := rfl
@[simp] theorem State.modWave_free (s : State) (core ctx : Nat) (f : Wave → Wave) : (s.modWave core ctx f).free = s.free := rfl
@[simp] theorem State.modWave_tu (s : State) (core ctx : Nat) (f : Wave → Wave) : (s.modWave core ctx f).tu = s.tu := rfl
@[simp] theorem State.modWave_dtc (s : State) (core ctx : Nat) (f : Wave → Wave) : (s.modWave core ctx f).dtc = s.dtc := rfl
@[simp] theorem State.modWave_dtcFrac (s : State) (core ctx : Nat) (f : Wave → Wave) : (s.modWave core ctx f).dtcFrac = s.dtcFrac := rfl
@[simp] theorem State.modWave_dtcPpb (s : State) (core ctx : Nat) (f : Wave → Wave) : (s.modWave core ctx f).dtcPpb = s.dtcPpb := rfl
@[simp] theorem State.modWave_dtcFollow (s : State) (core ctx : Nat) (f : Wave → Wave) : (s.modWave core ctx f).dtcFollow = s.dtcFollow := rfl
@[simp] theorem State.modWave_dtcLockSet (s : State) (core ctx : Nat) (f : Wave → Wave) : (s.modWave core ctx f).dtcLockSet = s.dtcLockSet := rfl
@[simp] theorem State.modWave_interval (s : State) (core ctx : Nat) (f : Wave → Wave) : (s.modWave core ctx f).interval = s.interval := rfl
@[simp] theorem State.modWave_clusters (s : State) (core ctx : Nat) (f : Wave → Wave) : (s.modWave core ctx f).clusters = s.clusters := rfl
@[simp] theorem State.modWave_slices (s : State) (core ctx : Nat) (f : Wave → Wave) : (s.modWave core ctx f).slices = s.slices := rfl
@[simp] theorem State.modWave_walks (s : State) (core ctx : Nat) (f : Wave → Wave) : (s.modWave core ctx f).walks = s.walks := rfl
@[simp] theorem State.modWave_walkFaults (s : State) (core ctx : Nat) (f : Wave → Wave) : (s.modWave core ctx f).walkFaults = s.walkFaults := rfl
@[simp] theorem State.modWave_asks (s : State) (core ctx : Nat) (f : Wave → Wave) : (s.modWave core ctx f).asks = s.asks := rfl
@[simp] theorem State.modWave_wgs (s : State) (core ctx : Nat) (f : Wave → Wave) : (s.modWave core ctx f).wgs = s.wgs := rfl
@[simp] theorem State.modWave_nextWg (s : State) (core ctx : Nat) (f : Wave → Wave) : (s.modWave core ctx f).nextWg = s.nextWg := rfl
@[simp] theorem State.modWave_operands (s : State) (core ctx : Nat) (f : Wave → Wave) : (s.modWave core ctx f).operands = s.operands := rfl
@[simp] theorem State.modWave_mem (s : State) (core ctx : Nat) (f : Wave → Wave) : (s.modWave core ctx f).mem = s.mem := rfl
@[simp] theorem State.modWave_ring (s : State) (core ctx : Nat) (f : Wave → Wave) : (s.modWave core ctx f).ring = s.ring := rfl
@[simp] theorem State.modWave_rbase (s : State) (core ctx : Nat) (f : Wave → Wave) : (s.modWave core ctx f).rbase = s.rbase := rfl
@[simp] theorem State.modWave_badMem (s : State) (core ctx : Nat) (f : Wave → Wave) : (s.modWave core ctx f).badMem = s.badMem := rfl
@[simp] theorem State.modWave_chans (s : State) (core ctx : Nat) (f : Wave → Wave) : (s.modWave core ctx f).chans = s.chans := rfl
@[simp] theorem State.modWave_grids (s : State) (core ctx : Nat) (f : Wave → Wave) : (s.modWave core ctx f).grids = s.grids := rfl
@[simp] theorem State.modWave_nextGrid (s : State) (core ctx : Nat) (f : Wave → Wave) : (s.modWave core ctx f).nextGrid = s.nextGrid := rfl
@[simp] theorem State.modWave_rr (s : State) (core ctx : Nat) (f : Wave → Wave) : (s.modWave core ctx f).rr = s.rr := rfl
@[simp] theorem State.modWave_saved (s : State) (core ctx : Nat) (f : Wave → Wave) : (s.modWave core ctx f).saved = s.saved := rfl
@[simp] theorem State.modWave_places (s : State) (core ctx : Nat) (f : Wave → Wave) : (s.modWave core ctx f).places = s.places := rfl
@[simp] theorem State.modWave_streams (s : State) (core ctx : Nat) (f : Wave → Wave) : (s.modWave core ctx f).streams = s.streams := rfl
@[simp] theorem State.modWave_chains (s : State) (core ctx : Nat) (f : Wave → Wave) : (s.modWave core ctx f).chains = s.chains := rfl
@[simp] theorem State.modWave_nextChain (s : State) (core ctx : Nat) (f : Wave → Wave) : (s.modWave core ctx f).nextChain = s.nextChain := rfl
@[simp] theorem State.modWave_cps (s : State) (core ctx : Nat) (f : Wave → Wave) : (s.modWave core ctx f).cps = s.cps := rfl
@[simp] theorem State.modWave_conns (s : State) (core ctx : Nat) (f : Wave → Wave) : (s.modWave core ctx f).conns = s.conns := rfl
@[simp] theorem State.modWave_hostConn (s : State) (core ctx : Nat) (f : Wave → Wave) : (s.modWave core ctx f).hostConn = s.hostConn := rfl
@[simp] theorem State.modWave_hostAccs (s : State) (core ctx : Nat) (f : Wave → Wave) : (s.modWave core ctx f).hostAccs = s.hostAccs := rfl
@[simp] theorem State.modWave_nextTag (s : State) (core ctx : Nat) (f : Wave → Wave) : (s.modWave core ctx f).nextTag = s.nextTag := rfl
@[simp] theorem State.modWave_hostWrites (s : State) (core ctx : Nat) (f : Wave → Wave) : (s.modWave core ctx f).hostWrites = s.hostWrites := rfl
@[simp] theorem State.modWave_hostReads (s : State) (core ctx : Nat) (f : Wave → Wave) : (s.modWave core ctx f).hostReads = s.hostReads := rfl
@[simp] theorem State.modWave_mgmtQ (s : State) (core ctx : Nat) (f : Wave → Wave) : (s.modWave core ctx f).mgmtQ = s.mgmtQ := rfl
@[simp] theorem State.modWave_out (s : State) (core ctx : Nat) (f : Wave → Wave) : (s.modWave core ctx f).out = s.out := rfl
@[simp] theorem State.modWave_pools (s : State) (core ctx : Nat) (f : Wave → Wave) : (s.modWave core ctx f).pools = s.pools := rfl
@[simp] theorem State.modWave_orphan (s : State) (core ctx : Nat) (f : Wave → Wave) : (s.modWave core ctx f).orphan = s.orphan := rfl
@[simp] theorem State.modWave_ready (s : State) (core ctx : Nat) (f : Wave → Wave) : (s.modWave core ctx f).ready = s.ready := rfl
@[simp] theorem State.modWave_linkUp (s : State) (core ctx : Nat) (f : Wave → Wave) : (s.modWave core ctx f).linkUp = s.linkUp := rfl
@[simp] theorem State.modWave_rails (s : State) (core ctx : Nat) (f : Wave → Wave) : (s.modWave core ctx f).rails = s.rails := rfl
@[simp] theorem State.modWave_parts (s : State) (core ctx : Nat) (f : Wave → Wave) : (s.modWave core ctx f).parts = s.parts := rfl
@[simp] theorem State.modWave_rules (s : State) (core ctx : Nat) (f : Wave → Wave) : (s.modWave core ctx f).rules = s.rules := rfl
@[simp] theorem State.modWave_fired (s : State) (core ctx : Nat) (f : Wave → Wave) : (s.modWave core ctx f).fired = s.fired := rfl
@[simp] theorem State.modWave_pkgTemp (s : State) (core ctx : Nat) (f : Wave → Wave) : (s.modWave core ctx f).pkgTemp = s.pkgTemp := rfl
@[simp] theorem State.modWave_regTemp (s : State) (core ctx : Nat) (f : Wave → Wave) : (s.modWave core ctx f).regTemp = s.regTemp := rfl
@[simp] theorem State.modWave_thot (s : State) (core ctx : Nat) (f : Wave → Wave) : (s.modWave core ctx f).thot = s.thot := rfl
@[simp] theorem State.modWave_ipv4 (s : State) (core ctx : Nat) (f : Wave → Wave) : (s.modWave core ctx f).ipv4 = s.ipv4 := rfl
@[simp] theorem State.modWave_ipv6 (s : State) (core ctx : Nat) (f : Wave → Wave) : (s.modWave core ctx f).ipv6 = s.ipv6 := rfl
@[simp] theorem State.modWave_ptpProfile (s : State) (core ctx : Nat) (f : Wave → Wave) : (s.modWave core ctx f).ptpProfile = s.ptpProfile := rfl
@[simp] theorem State.modWave_ptpDomain (s : State) (core ctx : Nat) (f : Wave → Wave) : (s.modWave core ctx f).ptpDomain = s.ptpDomain := rfl
@[simp] theorem State.modWave_ptp (s : State) (core ctx : Nat) (f : Wave → Wave) : (s.modWave core ctx f).ptp = s.ptp := rfl
@[simp] theorem State.modWave_boot (s : State) (core ctx : Nat) (f : Wave → Wave) : (s.modWave core ctx f).boot = s.boot := rfl
@[simp] theorem State.modWave_image (s : State) (core ctx : Nat) (f : Wave → Wave) : (s.modWave core ctx f).image = s.image := rfl
@[simp] theorem State.modWave_meas (s : State) (core ctx : Nat) (f : Wave → Wave) : (s.modWave core ctx f).meas = s.meas := rfl

@[simp] theorem State.modW_agenda (s : State) (f : Wave → Wave) : (s.modW f).agenda = s.agenda := rfl
@[simp] theorem State.modW_rx (s : State) (f : Wave → Wave) : (s.modW f).rx = s.rx := rfl
@[simp] theorem State.modW_issueQ (s : State) (f : Wave → Wave) : (s.modW f).issueQ = s.issueQ := rfl
@[simp] theorem State.modW_cur (s : State) (f : Wave → Wave) : (s.modW f).cur = s.cur := rfl
@[simp] theorem State.modW_free (s : State) (f : Wave → Wave) : (s.modW f).free = s.free := rfl
@[simp] theorem State.modW_tu (s : State) (f : Wave → Wave) : (s.modW f).tu = s.tu := rfl
@[simp] theorem State.modW_dtc (s : State) (f : Wave → Wave) : (s.modW f).dtc = s.dtc := rfl
@[simp] theorem State.modW_dtcFrac (s : State) (f : Wave → Wave) : (s.modW f).dtcFrac = s.dtcFrac := rfl
@[simp] theorem State.modW_dtcPpb (s : State) (f : Wave → Wave) : (s.modW f).dtcPpb = s.dtcPpb := rfl
@[simp] theorem State.modW_dtcFollow (s : State) (f : Wave → Wave) : (s.modW f).dtcFollow = s.dtcFollow := rfl
@[simp] theorem State.modW_dtcLockSet (s : State) (f : Wave → Wave) : (s.modW f).dtcLockSet = s.dtcLockSet := rfl
@[simp] theorem State.modW_interval (s : State) (f : Wave → Wave) : (s.modW f).interval = s.interval := rfl
@[simp] theorem State.modW_clusters (s : State) (f : Wave → Wave) : (s.modW f).clusters = s.clusters := rfl
@[simp] theorem State.modW_slices (s : State) (f : Wave → Wave) : (s.modW f).slices = s.slices := rfl
@[simp] theorem State.modW_walks (s : State) (f : Wave → Wave) : (s.modW f).walks = s.walks := rfl
@[simp] theorem State.modW_walkFaults (s : State) (f : Wave → Wave) : (s.modW f).walkFaults = s.walkFaults := rfl
@[simp] theorem State.modW_asks (s : State) (f : Wave → Wave) : (s.modW f).asks = s.asks := rfl
@[simp] theorem State.modW_wgs (s : State) (f : Wave → Wave) : (s.modW f).wgs = s.wgs := rfl
@[simp] theorem State.modW_nextWg (s : State) (f : Wave → Wave) : (s.modW f).nextWg = s.nextWg := rfl
@[simp] theorem State.modW_operands (s : State) (f : Wave → Wave) : (s.modW f).operands = s.operands := rfl
@[simp] theorem State.modW_mem (s : State) (f : Wave → Wave) : (s.modW f).mem = s.mem := rfl
@[simp] theorem State.modW_ring (s : State) (f : Wave → Wave) : (s.modW f).ring = s.ring := rfl
@[simp] theorem State.modW_rbase (s : State) (f : Wave → Wave) : (s.modW f).rbase = s.rbase := rfl
@[simp] theorem State.modW_badMem (s : State) (f : Wave → Wave) : (s.modW f).badMem = s.badMem := rfl
@[simp] theorem State.modW_chans (s : State) (f : Wave → Wave) : (s.modW f).chans = s.chans := rfl
@[simp] theorem State.modW_grids (s : State) (f : Wave → Wave) : (s.modW f).grids = s.grids := rfl
@[simp] theorem State.modW_nextGrid (s : State) (f : Wave → Wave) : (s.modW f).nextGrid = s.nextGrid := rfl
@[simp] theorem State.modW_rr (s : State) (f : Wave → Wave) : (s.modW f).rr = s.rr := rfl
@[simp] theorem State.modW_saved (s : State) (f : Wave → Wave) : (s.modW f).saved = s.saved := rfl
@[simp] theorem State.modW_places (s : State) (f : Wave → Wave) : (s.modW f).places = s.places := rfl
@[simp] theorem State.modW_streams (s : State) (f : Wave → Wave) : (s.modW f).streams = s.streams := rfl
@[simp] theorem State.modW_chains (s : State) (f : Wave → Wave) : (s.modW f).chains = s.chains := rfl
@[simp] theorem State.modW_nextChain (s : State) (f : Wave → Wave) : (s.modW f).nextChain = s.nextChain := rfl
@[simp] theorem State.modW_cps (s : State) (f : Wave → Wave) : (s.modW f).cps = s.cps := rfl
@[simp] theorem State.modW_conns (s : State) (f : Wave → Wave) : (s.modW f).conns = s.conns := rfl
@[simp] theorem State.modW_hostConn (s : State) (f : Wave → Wave) : (s.modW f).hostConn = s.hostConn := rfl
@[simp] theorem State.modW_hostAccs (s : State) (f : Wave → Wave) : (s.modW f).hostAccs = s.hostAccs := rfl
@[simp] theorem State.modW_nextTag (s : State) (f : Wave → Wave) : (s.modW f).nextTag = s.nextTag := rfl
@[simp] theorem State.modW_hostWrites (s : State) (f : Wave → Wave) : (s.modW f).hostWrites = s.hostWrites := rfl
@[simp] theorem State.modW_hostReads (s : State) (f : Wave → Wave) : (s.modW f).hostReads = s.hostReads := rfl
@[simp] theorem State.modW_mgmtQ (s : State) (f : Wave → Wave) : (s.modW f).mgmtQ = s.mgmtQ := rfl
@[simp] theorem State.modW_out (s : State) (f : Wave → Wave) : (s.modW f).out = s.out := rfl
@[simp] theorem State.modW_pools (s : State) (f : Wave → Wave) : (s.modW f).pools = s.pools := rfl
@[simp] theorem State.modW_orphan (s : State) (f : Wave → Wave) : (s.modW f).orphan = s.orphan := rfl
@[simp] theorem State.modW_ready (s : State) (f : Wave → Wave) : (s.modW f).ready = s.ready := rfl
@[simp] theorem State.modW_linkUp (s : State) (f : Wave → Wave) : (s.modW f).linkUp = s.linkUp := rfl
@[simp] theorem State.modW_rails (s : State) (f : Wave → Wave) : (s.modW f).rails = s.rails := rfl
@[simp] theorem State.modW_parts (s : State) (f : Wave → Wave) : (s.modW f).parts = s.parts := rfl
@[simp] theorem State.modW_rules (s : State) (f : Wave → Wave) : (s.modW f).rules = s.rules := rfl
@[simp] theorem State.modW_fired (s : State) (f : Wave → Wave) : (s.modW f).fired = s.fired := rfl
@[simp] theorem State.modW_pkgTemp (s : State) (f : Wave → Wave) : (s.modW f).pkgTemp = s.pkgTemp := rfl
@[simp] theorem State.modW_regTemp (s : State) (f : Wave → Wave) : (s.modW f).regTemp = s.regTemp := rfl
@[simp] theorem State.modW_thot (s : State) (f : Wave → Wave) : (s.modW f).thot = s.thot := rfl
@[simp] theorem State.modW_ipv4 (s : State) (f : Wave → Wave) : (s.modW f).ipv4 = s.ipv4 := rfl
@[simp] theorem State.modW_ipv6 (s : State) (f : Wave → Wave) : (s.modW f).ipv6 = s.ipv6 := rfl
@[simp] theorem State.modW_ptpProfile (s : State) (f : Wave → Wave) : (s.modW f).ptpProfile = s.ptpProfile := rfl
@[simp] theorem State.modW_ptpDomain (s : State) (f : Wave → Wave) : (s.modW f).ptpDomain = s.ptpDomain := rfl
@[simp] theorem State.modW_ptp (s : State) (f : Wave → Wave) : (s.modW f).ptp = s.ptp := rfl
@[simp] theorem State.modW_boot (s : State) (f : Wave → Wave) : (s.modW f).boot = s.boot := rfl
@[simp] theorem State.modW_image (s : State) (f : Wave → Wave) : (s.modW f).image = s.image := rfl
@[simp] theorem State.modW_meas (s : State) (f : Wave → Wave) : (s.modW f).meas = s.meas := rfl

@[simp] theorem State.modSp_agenda (s : State) (f : Split → Split) : (s.modSp f).agenda = s.agenda := rfl
@[simp] theorem State.modSp_rx (s : State) (f : Split → Split) : (s.modSp f).rx = s.rx := rfl
@[simp] theorem State.modSp_issueQ (s : State) (f : Split → Split) : (s.modSp f).issueQ = s.issueQ := rfl
@[simp] theorem State.modSp_cur (s : State) (f : Split → Split) : (s.modSp f).cur = s.cur := rfl
@[simp] theorem State.modSp_free (s : State) (f : Split → Split) : (s.modSp f).free = s.free := rfl
@[simp] theorem State.modSp_tu (s : State) (f : Split → Split) : (s.modSp f).tu = s.tu := rfl
@[simp] theorem State.modSp_dtc (s : State) (f : Split → Split) : (s.modSp f).dtc = s.dtc := rfl
@[simp] theorem State.modSp_dtcFrac (s : State) (f : Split → Split) : (s.modSp f).dtcFrac = s.dtcFrac := rfl
@[simp] theorem State.modSp_dtcPpb (s : State) (f : Split → Split) : (s.modSp f).dtcPpb = s.dtcPpb := rfl
@[simp] theorem State.modSp_dtcFollow (s : State) (f : Split → Split) : (s.modSp f).dtcFollow = s.dtcFollow := rfl
@[simp] theorem State.modSp_dtcLockSet (s : State) (f : Split → Split) : (s.modSp f).dtcLockSet = s.dtcLockSet := rfl
@[simp] theorem State.modSp_interval (s : State) (f : Split → Split) : (s.modSp f).interval = s.interval := rfl
@[simp] theorem State.modSp_clusters (s : State) (f : Split → Split) : (s.modSp f).clusters = s.clusters := rfl
@[simp] theorem State.modSp_slices (s : State) (f : Split → Split) : (s.modSp f).slices = s.slices := rfl
@[simp] theorem State.modSp_walks (s : State) (f : Split → Split) : (s.modSp f).walks = s.walks := rfl
@[simp] theorem State.modSp_walkFaults (s : State) (f : Split → Split) : (s.modSp f).walkFaults = s.walkFaults := rfl
@[simp] theorem State.modSp_asks (s : State) (f : Split → Split) : (s.modSp f).asks = s.asks := rfl
@[simp] theorem State.modSp_wgs (s : State) (f : Split → Split) : (s.modSp f).wgs = s.wgs := rfl
@[simp] theorem State.modSp_nextWg (s : State) (f : Split → Split) : (s.modSp f).nextWg = s.nextWg := rfl
@[simp] theorem State.modSp_operands (s : State) (f : Split → Split) : (s.modSp f).operands = s.operands := rfl
@[simp] theorem State.modSp_mem (s : State) (f : Split → Split) : (s.modSp f).mem = s.mem := rfl
@[simp] theorem State.modSp_ring (s : State) (f : Split → Split) : (s.modSp f).ring = s.ring := rfl
@[simp] theorem State.modSp_rbase (s : State) (f : Split → Split) : (s.modSp f).rbase = s.rbase := rfl
@[simp] theorem State.modSp_badMem (s : State) (f : Split → Split) : (s.modSp f).badMem = s.badMem := rfl
@[simp] theorem State.modSp_chans (s : State) (f : Split → Split) : (s.modSp f).chans = s.chans := rfl
@[simp] theorem State.modSp_grids (s : State) (f : Split → Split) : (s.modSp f).grids = s.grids := rfl
@[simp] theorem State.modSp_nextGrid (s : State) (f : Split → Split) : (s.modSp f).nextGrid = s.nextGrid := rfl
@[simp] theorem State.modSp_rr (s : State) (f : Split → Split) : (s.modSp f).rr = s.rr := rfl
@[simp] theorem State.modSp_saved (s : State) (f : Split → Split) : (s.modSp f).saved = s.saved := rfl
@[simp] theorem State.modSp_places (s : State) (f : Split → Split) : (s.modSp f).places = s.places := rfl
@[simp] theorem State.modSp_streams (s : State) (f : Split → Split) : (s.modSp f).streams = s.streams := rfl
@[simp] theorem State.modSp_chains (s : State) (f : Split → Split) : (s.modSp f).chains = s.chains := rfl
@[simp] theorem State.modSp_nextChain (s : State) (f : Split → Split) : (s.modSp f).nextChain = s.nextChain := rfl
@[simp] theorem State.modSp_cps (s : State) (f : Split → Split) : (s.modSp f).cps = s.cps := rfl
@[simp] theorem State.modSp_conns (s : State) (f : Split → Split) : (s.modSp f).conns = s.conns := rfl
@[simp] theorem State.modSp_hostConn (s : State) (f : Split → Split) : (s.modSp f).hostConn = s.hostConn := rfl
@[simp] theorem State.modSp_hostAccs (s : State) (f : Split → Split) : (s.modSp f).hostAccs = s.hostAccs := rfl
@[simp] theorem State.modSp_nextTag (s : State) (f : Split → Split) : (s.modSp f).nextTag = s.nextTag := rfl
@[simp] theorem State.modSp_hostWrites (s : State) (f : Split → Split) : (s.modSp f).hostWrites = s.hostWrites := rfl
@[simp] theorem State.modSp_hostReads (s : State) (f : Split → Split) : (s.modSp f).hostReads = s.hostReads := rfl
@[simp] theorem State.modSp_mgmtQ (s : State) (f : Split → Split) : (s.modSp f).mgmtQ = s.mgmtQ := rfl
@[simp] theorem State.modSp_out (s : State) (f : Split → Split) : (s.modSp f).out = s.out := rfl
@[simp] theorem State.modSp_pools (s : State) (f : Split → Split) : (s.modSp f).pools = s.pools := rfl
@[simp] theorem State.modSp_orphan (s : State) (f : Split → Split) : (s.modSp f).orphan = s.orphan := rfl
@[simp] theorem State.modSp_ready (s : State) (f : Split → Split) : (s.modSp f).ready = s.ready := rfl
@[simp] theorem State.modSp_linkUp (s : State) (f : Split → Split) : (s.modSp f).linkUp = s.linkUp := rfl
@[simp] theorem State.modSp_rails (s : State) (f : Split → Split) : (s.modSp f).rails = s.rails := rfl
@[simp] theorem State.modSp_parts (s : State) (f : Split → Split) : (s.modSp f).parts = s.parts := rfl
@[simp] theorem State.modSp_rules (s : State) (f : Split → Split) : (s.modSp f).rules = s.rules := rfl
@[simp] theorem State.modSp_fired (s : State) (f : Split → Split) : (s.modSp f).fired = s.fired := rfl
@[simp] theorem State.modSp_pkgTemp (s : State) (f : Split → Split) : (s.modSp f).pkgTemp = s.pkgTemp := rfl
@[simp] theorem State.modSp_regTemp (s : State) (f : Split → Split) : (s.modSp f).regTemp = s.regTemp := rfl
@[simp] theorem State.modSp_thot (s : State) (f : Split → Split) : (s.modSp f).thot = s.thot := rfl
@[simp] theorem State.modSp_ipv4 (s : State) (f : Split → Split) : (s.modSp f).ipv4 = s.ipv4 := rfl
@[simp] theorem State.modSp_ipv6 (s : State) (f : Split → Split) : (s.modSp f).ipv6 = s.ipv6 := rfl
@[simp] theorem State.modSp_ptpProfile (s : State) (f : Split → Split) : (s.modSp f).ptpProfile = s.ptpProfile := rfl
@[simp] theorem State.modSp_ptpDomain (s : State) (f : Split → Split) : (s.modSp f).ptpDomain = s.ptpDomain := rfl
@[simp] theorem State.modSp_ptp (s : State) (f : Split → Split) : (s.modSp f).ptp = s.ptp := rfl
@[simp] theorem State.modSp_boot (s : State) (f : Split → Split) : (s.modSp f).boot = s.boot := rfl
@[simp] theorem State.modSp_image (s : State) (f : Split → Split) : (s.modSp f).image = s.image := rfl
@[simp] theorem State.modSp_meas (s : State) (f : Split → Split) : (s.modSp f).meas = s.meas := rfl

@[simp] theorem State.modG_agenda (s : State) (f : WGrp → WGrp) : (s.modG f).agenda = s.agenda := rfl
@[simp] theorem State.modG_rx (s : State) (f : WGrp → WGrp) : (s.modG f).rx = s.rx := rfl
@[simp] theorem State.modG_issueQ (s : State) (f : WGrp → WGrp) : (s.modG f).issueQ = s.issueQ := rfl
@[simp] theorem State.modG_cur (s : State) (f : WGrp → WGrp) : (s.modG f).cur = s.cur := rfl
@[simp] theorem State.modG_free (s : State) (f : WGrp → WGrp) : (s.modG f).free = s.free := rfl
@[simp] theorem State.modG_tu (s : State) (f : WGrp → WGrp) : (s.modG f).tu = s.tu := rfl
@[simp] theorem State.modG_dtc (s : State) (f : WGrp → WGrp) : (s.modG f).dtc = s.dtc := rfl
@[simp] theorem State.modG_dtcFrac (s : State) (f : WGrp → WGrp) : (s.modG f).dtcFrac = s.dtcFrac := rfl
@[simp] theorem State.modG_dtcPpb (s : State) (f : WGrp → WGrp) : (s.modG f).dtcPpb = s.dtcPpb := rfl
@[simp] theorem State.modG_dtcFollow (s : State) (f : WGrp → WGrp) : (s.modG f).dtcFollow = s.dtcFollow := rfl
@[simp] theorem State.modG_dtcLockSet (s : State) (f : WGrp → WGrp) : (s.modG f).dtcLockSet = s.dtcLockSet := rfl
@[simp] theorem State.modG_interval (s : State) (f : WGrp → WGrp) : (s.modG f).interval = s.interval := rfl
@[simp] theorem State.modG_cores (s : State) (f : WGrp → WGrp) : (s.modG f).cores = s.cores := rfl
@[simp] theorem State.modG_clusters (s : State) (f : WGrp → WGrp) : (s.modG f).clusters = s.clusters := rfl
@[simp] theorem State.modG_slices (s : State) (f : WGrp → WGrp) : (s.modG f).slices = s.slices := rfl
@[simp] theorem State.modG_walks (s : State) (f : WGrp → WGrp) : (s.modG f).walks = s.walks := rfl
@[simp] theorem State.modG_walkFaults (s : State) (f : WGrp → WGrp) : (s.modG f).walkFaults = s.walkFaults := rfl
@[simp] theorem State.modG_asks (s : State) (f : WGrp → WGrp) : (s.modG f).asks = s.asks := rfl
@[simp] theorem State.modG_nextWg (s : State) (f : WGrp → WGrp) : (s.modG f).nextWg = s.nextWg := rfl
@[simp] theorem State.modG_operands (s : State) (f : WGrp → WGrp) : (s.modG f).operands = s.operands := rfl
@[simp] theorem State.modG_mem (s : State) (f : WGrp → WGrp) : (s.modG f).mem = s.mem := rfl
@[simp] theorem State.modG_ring (s : State) (f : WGrp → WGrp) : (s.modG f).ring = s.ring := rfl
@[simp] theorem State.modG_rbase (s : State) (f : WGrp → WGrp) : (s.modG f).rbase = s.rbase := rfl
@[simp] theorem State.modG_badMem (s : State) (f : WGrp → WGrp) : (s.modG f).badMem = s.badMem := rfl
@[simp] theorem State.modG_chans (s : State) (f : WGrp → WGrp) : (s.modG f).chans = s.chans := rfl
@[simp] theorem State.modG_grids (s : State) (f : WGrp → WGrp) : (s.modG f).grids = s.grids := rfl
@[simp] theorem State.modG_nextGrid (s : State) (f : WGrp → WGrp) : (s.modG f).nextGrid = s.nextGrid := rfl
@[simp] theorem State.modG_rr (s : State) (f : WGrp → WGrp) : (s.modG f).rr = s.rr := rfl
@[simp] theorem State.modG_saved (s : State) (f : WGrp → WGrp) : (s.modG f).saved = s.saved := rfl
@[simp] theorem State.modG_places (s : State) (f : WGrp → WGrp) : (s.modG f).places = s.places := rfl
@[simp] theorem State.modG_streams (s : State) (f : WGrp → WGrp) : (s.modG f).streams = s.streams := rfl
@[simp] theorem State.modG_chains (s : State) (f : WGrp → WGrp) : (s.modG f).chains = s.chains := rfl
@[simp] theorem State.modG_nextChain (s : State) (f : WGrp → WGrp) : (s.modG f).nextChain = s.nextChain := rfl
@[simp] theorem State.modG_cps (s : State) (f : WGrp → WGrp) : (s.modG f).cps = s.cps := rfl
@[simp] theorem State.modG_conns (s : State) (f : WGrp → WGrp) : (s.modG f).conns = s.conns := rfl
@[simp] theorem State.modG_hostConn (s : State) (f : WGrp → WGrp) : (s.modG f).hostConn = s.hostConn := rfl
@[simp] theorem State.modG_hostAccs (s : State) (f : WGrp → WGrp) : (s.modG f).hostAccs = s.hostAccs := rfl
@[simp] theorem State.modG_nextTag (s : State) (f : WGrp → WGrp) : (s.modG f).nextTag = s.nextTag := rfl
@[simp] theorem State.modG_hostWrites (s : State) (f : WGrp → WGrp) : (s.modG f).hostWrites = s.hostWrites := rfl
@[simp] theorem State.modG_hostReads (s : State) (f : WGrp → WGrp) : (s.modG f).hostReads = s.hostReads := rfl
@[simp] theorem State.modG_mgmtQ (s : State) (f : WGrp → WGrp) : (s.modG f).mgmtQ = s.mgmtQ := rfl
@[simp] theorem State.modG_out (s : State) (f : WGrp → WGrp) : (s.modG f).out = s.out := rfl
@[simp] theorem State.modG_pools (s : State) (f : WGrp → WGrp) : (s.modG f).pools = s.pools := rfl
@[simp] theorem State.modG_orphan (s : State) (f : WGrp → WGrp) : (s.modG f).orphan = s.orphan := rfl
@[simp] theorem State.modG_ready (s : State) (f : WGrp → WGrp) : (s.modG f).ready = s.ready := rfl
@[simp] theorem State.modG_linkUp (s : State) (f : WGrp → WGrp) : (s.modG f).linkUp = s.linkUp := rfl
@[simp] theorem State.modG_rails (s : State) (f : WGrp → WGrp) : (s.modG f).rails = s.rails := rfl
@[simp] theorem State.modG_parts (s : State) (f : WGrp → WGrp) : (s.modG f).parts = s.parts := rfl
@[simp] theorem State.modG_rules (s : State) (f : WGrp → WGrp) : (s.modG f).rules = s.rules := rfl
@[simp] theorem State.modG_fired (s : State) (f : WGrp → WGrp) : (s.modG f).fired = s.fired := rfl
@[simp] theorem State.modG_pkgTemp (s : State) (f : WGrp → WGrp) : (s.modG f).pkgTemp = s.pkgTemp := rfl
@[simp] theorem State.modG_regTemp (s : State) (f : WGrp → WGrp) : (s.modG f).regTemp = s.regTemp := rfl
@[simp] theorem State.modG_thot (s : State) (f : WGrp → WGrp) : (s.modG f).thot = s.thot := rfl
@[simp] theorem State.modG_ipv4 (s : State) (f : WGrp → WGrp) : (s.modG f).ipv4 = s.ipv4 := rfl
@[simp] theorem State.modG_ipv6 (s : State) (f : WGrp → WGrp) : (s.modG f).ipv6 = s.ipv6 := rfl
@[simp] theorem State.modG_ptpProfile (s : State) (f : WGrp → WGrp) : (s.modG f).ptpProfile = s.ptpProfile := rfl
@[simp] theorem State.modG_ptpDomain (s : State) (f : WGrp → WGrp) : (s.modG f).ptpDomain = s.ptpDomain := rfl
@[simp] theorem State.modG_ptp (s : State) (f : WGrp → WGrp) : (s.modG f).ptp = s.ptp := rfl
@[simp] theorem State.modG_boot (s : State) (f : WGrp → WGrp) : (s.modG f).boot = s.boot := rfl
@[simp] theorem State.modG_image (s : State) (f : WGrp → WGrp) : (s.modG f).image = s.image := rfl
@[simp] theorem State.modG_meas (s : State) (f : WGrp → WGrp) : (s.modG f).meas = s.meas := rfl

@[simp] theorem State.withCur_agenda (s : State) (c : Cursor) : (s.withCur c).agenda = s.agenda := rfl
@[simp] theorem State.withCur_rx (s : State) (c : Cursor) : (s.withCur c).rx = s.rx := rfl
@[simp] theorem State.withCur_issueQ (s : State) (c : Cursor) : (s.withCur c).issueQ = s.issueQ := rfl
@[simp] theorem State.withCur_free (s : State) (c : Cursor) : (s.withCur c).free = s.free := rfl
@[simp] theorem State.withCur_tu (s : State) (c : Cursor) : (s.withCur c).tu = s.tu := rfl
@[simp] theorem State.withCur_dtc (s : State) (c : Cursor) : (s.withCur c).dtc = s.dtc := rfl
@[simp] theorem State.withCur_dtcFrac (s : State) (c : Cursor) : (s.withCur c).dtcFrac = s.dtcFrac := rfl
@[simp] theorem State.withCur_dtcPpb (s : State) (c : Cursor) : (s.withCur c).dtcPpb = s.dtcPpb := rfl
@[simp] theorem State.withCur_dtcFollow (s : State) (c : Cursor) : (s.withCur c).dtcFollow = s.dtcFollow := rfl
@[simp] theorem State.withCur_dtcLockSet (s : State) (c : Cursor) : (s.withCur c).dtcLockSet = s.dtcLockSet := rfl
@[simp] theorem State.withCur_interval (s : State) (c : Cursor) : (s.withCur c).interval = s.interval := rfl
@[simp] theorem State.withCur_cores (s : State) (c : Cursor) : (s.withCur c).cores = s.cores := rfl
@[simp] theorem State.withCur_clusters (s : State) (c : Cursor) : (s.withCur c).clusters = s.clusters := rfl
@[simp] theorem State.withCur_slices (s : State) (c : Cursor) : (s.withCur c).slices = s.slices := rfl
@[simp] theorem State.withCur_walks (s : State) (c : Cursor) : (s.withCur c).walks = s.walks := rfl
@[simp] theorem State.withCur_walkFaults (s : State) (c : Cursor) : (s.withCur c).walkFaults = s.walkFaults := rfl
@[simp] theorem State.withCur_asks (s : State) (c : Cursor) : (s.withCur c).asks = s.asks := rfl
@[simp] theorem State.withCur_wgs (s : State) (c : Cursor) : (s.withCur c).wgs = s.wgs := rfl
@[simp] theorem State.withCur_nextWg (s : State) (c : Cursor) : (s.withCur c).nextWg = s.nextWg := rfl
@[simp] theorem State.withCur_operands (s : State) (c : Cursor) : (s.withCur c).operands = s.operands := rfl
@[simp] theorem State.withCur_mem (s : State) (c : Cursor) : (s.withCur c).mem = s.mem := rfl
@[simp] theorem State.withCur_ring (s : State) (c : Cursor) : (s.withCur c).ring = s.ring := rfl
@[simp] theorem State.withCur_rbase (s : State) (c : Cursor) : (s.withCur c).rbase = s.rbase := rfl
@[simp] theorem State.withCur_badMem (s : State) (c : Cursor) : (s.withCur c).badMem = s.badMem := rfl
@[simp] theorem State.withCur_chans (s : State) (c : Cursor) : (s.withCur c).chans = s.chans := rfl
@[simp] theorem State.withCur_grids (s : State) (c : Cursor) : (s.withCur c).grids = s.grids := rfl
@[simp] theorem State.withCur_nextGrid (s : State) (c : Cursor) : (s.withCur c).nextGrid = s.nextGrid := rfl
@[simp] theorem State.withCur_rr (s : State) (c : Cursor) : (s.withCur c).rr = s.rr := rfl
@[simp] theorem State.withCur_saved (s : State) (c : Cursor) : (s.withCur c).saved = s.saved := rfl
@[simp] theorem State.withCur_places (s : State) (c : Cursor) : (s.withCur c).places = s.places := rfl
@[simp] theorem State.withCur_streams (s : State) (c : Cursor) : (s.withCur c).streams = s.streams := rfl
@[simp] theorem State.withCur_chains (s : State) (c : Cursor) : (s.withCur c).chains = s.chains := rfl
@[simp] theorem State.withCur_nextChain (s : State) (c : Cursor) : (s.withCur c).nextChain = s.nextChain := rfl
@[simp] theorem State.withCur_cps (s : State) (c : Cursor) : (s.withCur c).cps = s.cps := rfl
@[simp] theorem State.withCur_conns (s : State) (c : Cursor) : (s.withCur c).conns = s.conns := rfl
@[simp] theorem State.withCur_hostConn (s : State) (c : Cursor) : (s.withCur c).hostConn = s.hostConn := rfl
@[simp] theorem State.withCur_hostAccs (s : State) (c : Cursor) : (s.withCur c).hostAccs = s.hostAccs := rfl
@[simp] theorem State.withCur_nextTag (s : State) (c : Cursor) : (s.withCur c).nextTag = s.nextTag := rfl
@[simp] theorem State.withCur_hostWrites (s : State) (c : Cursor) : (s.withCur c).hostWrites = s.hostWrites := rfl
@[simp] theorem State.withCur_hostReads (s : State) (c : Cursor) : (s.withCur c).hostReads = s.hostReads := rfl
@[simp] theorem State.withCur_mgmtQ (s : State) (c : Cursor) : (s.withCur c).mgmtQ = s.mgmtQ := rfl
@[simp] theorem State.withCur_out (s : State) (c : Cursor) : (s.withCur c).out = s.out := rfl
@[simp] theorem State.withCur_pools (s : State) (c : Cursor) : (s.withCur c).pools = s.pools := rfl
@[simp] theorem State.withCur_orphan (s : State) (c : Cursor) : (s.withCur c).orphan = s.orphan := rfl
@[simp] theorem State.withCur_ready (s : State) (c : Cursor) : (s.withCur c).ready = s.ready := rfl
@[simp] theorem State.withCur_linkUp (s : State) (c : Cursor) : (s.withCur c).linkUp = s.linkUp := rfl
@[simp] theorem State.withCur_rails (s : State) (c : Cursor) : (s.withCur c).rails = s.rails := rfl
@[simp] theorem State.withCur_parts (s : State) (c : Cursor) : (s.withCur c).parts = s.parts := rfl
@[simp] theorem State.withCur_rules (s : State) (c : Cursor) : (s.withCur c).rules = s.rules := rfl
@[simp] theorem State.withCur_fired (s : State) (c : Cursor) : (s.withCur c).fired = s.fired := rfl
@[simp] theorem State.withCur_pkgTemp (s : State) (c : Cursor) : (s.withCur c).pkgTemp = s.pkgTemp := rfl
@[simp] theorem State.withCur_regTemp (s : State) (c : Cursor) : (s.withCur c).regTemp = s.regTemp := rfl
@[simp] theorem State.withCur_thot (s : State) (c : Cursor) : (s.withCur c).thot = s.thot := rfl
@[simp] theorem State.withCur_ipv4 (s : State) (c : Cursor) : (s.withCur c).ipv4 = s.ipv4 := rfl
@[simp] theorem State.withCur_ipv6 (s : State) (c : Cursor) : (s.withCur c).ipv6 = s.ipv6 := rfl
@[simp] theorem State.withCur_ptpProfile (s : State) (c : Cursor) : (s.withCur c).ptpProfile = s.ptpProfile := rfl
@[simp] theorem State.withCur_ptpDomain (s : State) (c : Cursor) : (s.withCur c).ptpDomain = s.ptpDomain := rfl
@[simp] theorem State.withCur_ptp (s : State) (c : Cursor) : (s.withCur c).ptp = s.ptp := rfl
@[simp] theorem State.withCur_boot (s : State) (c : Cursor) : (s.withCur c).boot = s.boot := rfl
@[simp] theorem State.withCur_image (s : State) (c : Cursor) : (s.withCur c).image = s.image := rfl
@[simp] theorem State.withCur_meas (s : State) (c : Cursor) : (s.withCur c).meas = s.meas := rfl

@[simp] theorem State.advance_agenda (s : State) : (s.advance).agenda = s.agenda := rfl
@[simp] theorem State.advance_rx (s : State) : (s.advance).rx = s.rx := rfl
@[simp] theorem State.advance_issueQ (s : State) : (s.advance).issueQ = s.issueQ := rfl
@[simp] theorem State.advance_cur (s : State) : (s.advance).cur = s.cur := rfl
@[simp] theorem State.advance_free (s : State) : (s.advance).free = s.free := rfl
@[simp] theorem State.advance_tu (s : State) : (s.advance).tu = s.tu := rfl
@[simp] theorem State.advance_dtc (s : State) : (s.advance).dtc = s.dtc := rfl
@[simp] theorem State.advance_dtcFrac (s : State) : (s.advance).dtcFrac = s.dtcFrac := rfl
@[simp] theorem State.advance_dtcPpb (s : State) : (s.advance).dtcPpb = s.dtcPpb := rfl
@[simp] theorem State.advance_dtcFollow (s : State) : (s.advance).dtcFollow = s.dtcFollow := rfl
@[simp] theorem State.advance_dtcLockSet (s : State) : (s.advance).dtcLockSet = s.dtcLockSet := rfl
@[simp] theorem State.advance_interval (s : State) : (s.advance).interval = s.interval := rfl
@[simp] theorem State.advance_clusters (s : State) : (s.advance).clusters = s.clusters := rfl
@[simp] theorem State.advance_slices (s : State) : (s.advance).slices = s.slices := rfl
@[simp] theorem State.advance_walks (s : State) : (s.advance).walks = s.walks := rfl
@[simp] theorem State.advance_walkFaults (s : State) : (s.advance).walkFaults = s.walkFaults := rfl
@[simp] theorem State.advance_asks (s : State) : (s.advance).asks = s.asks := rfl
@[simp] theorem State.advance_wgs (s : State) : (s.advance).wgs = s.wgs := rfl
@[simp] theorem State.advance_nextWg (s : State) : (s.advance).nextWg = s.nextWg := rfl
@[simp] theorem State.advance_operands (s : State) : (s.advance).operands = s.operands := rfl
@[simp] theorem State.advance_mem (s : State) : (s.advance).mem = s.mem := rfl
@[simp] theorem State.advance_ring (s : State) : (s.advance).ring = s.ring := rfl
@[simp] theorem State.advance_rbase (s : State) : (s.advance).rbase = s.rbase := rfl
@[simp] theorem State.advance_badMem (s : State) : (s.advance).badMem = s.badMem := rfl
@[simp] theorem State.advance_chans (s : State) : (s.advance).chans = s.chans := rfl
@[simp] theorem State.advance_grids (s : State) : (s.advance).grids = s.grids := rfl
@[simp] theorem State.advance_nextGrid (s : State) : (s.advance).nextGrid = s.nextGrid := rfl
@[simp] theorem State.advance_rr (s : State) : (s.advance).rr = s.rr := rfl
@[simp] theorem State.advance_saved (s : State) : (s.advance).saved = s.saved := rfl
@[simp] theorem State.advance_places (s : State) : (s.advance).places = s.places := rfl
@[simp] theorem State.advance_streams (s : State) : (s.advance).streams = s.streams := rfl
@[simp] theorem State.advance_chains (s : State) : (s.advance).chains = s.chains := rfl
@[simp] theorem State.advance_nextChain (s : State) : (s.advance).nextChain = s.nextChain := rfl
@[simp] theorem State.advance_cps (s : State) : (s.advance).cps = s.cps := rfl
@[simp] theorem State.advance_conns (s : State) : (s.advance).conns = s.conns := rfl
@[simp] theorem State.advance_hostConn (s : State) : (s.advance).hostConn = s.hostConn := rfl
@[simp] theorem State.advance_hostAccs (s : State) : (s.advance).hostAccs = s.hostAccs := rfl
@[simp] theorem State.advance_nextTag (s : State) : (s.advance).nextTag = s.nextTag := rfl
@[simp] theorem State.advance_hostWrites (s : State) : (s.advance).hostWrites = s.hostWrites := rfl
@[simp] theorem State.advance_hostReads (s : State) : (s.advance).hostReads = s.hostReads := rfl
@[simp] theorem State.advance_mgmtQ (s : State) : (s.advance).mgmtQ = s.mgmtQ := rfl
@[simp] theorem State.advance_out (s : State) : (s.advance).out = s.out := rfl
@[simp] theorem State.advance_pools (s : State) : (s.advance).pools = s.pools := rfl
@[simp] theorem State.advance_orphan (s : State) : (s.advance).orphan = s.orphan := rfl
@[simp] theorem State.advance_ready (s : State) : (s.advance).ready = s.ready := rfl
@[simp] theorem State.advance_linkUp (s : State) : (s.advance).linkUp = s.linkUp := rfl
@[simp] theorem State.advance_rails (s : State) : (s.advance).rails = s.rails := rfl
@[simp] theorem State.advance_parts (s : State) : (s.advance).parts = s.parts := rfl
@[simp] theorem State.advance_rules (s : State) : (s.advance).rules = s.rules := rfl
@[simp] theorem State.advance_fired (s : State) : (s.advance).fired = s.fired := rfl
@[simp] theorem State.advance_pkgTemp (s : State) : (s.advance).pkgTemp = s.pkgTemp := rfl
@[simp] theorem State.advance_regTemp (s : State) : (s.advance).regTemp = s.regTemp := rfl
@[simp] theorem State.advance_thot (s : State) : (s.advance).thot = s.thot := rfl
@[simp] theorem State.advance_ipv4 (s : State) : (s.advance).ipv4 = s.ipv4 := rfl
@[simp] theorem State.advance_ipv6 (s : State) : (s.advance).ipv6 = s.ipv6 := rfl
@[simp] theorem State.advance_ptpProfile (s : State) : (s.advance).ptpProfile = s.ptpProfile := rfl
@[simp] theorem State.advance_ptpDomain (s : State) : (s.advance).ptpDomain = s.ptpDomain := rfl
@[simp] theorem State.advance_ptp (s : State) : (s.advance).ptp = s.ptp := rfl
@[simp] theorem State.advance_boot (s : State) : (s.advance).boot = s.boot := rfl
@[simp] theorem State.advance_image (s : State) : (s.advance).image = s.image := rfl
@[simp] theorem State.advance_meas (s : State) : (s.advance).meas = s.meas := rfl

@[simp] theorem State.pass_agenda (s : State) (d : Nat) : (s.pass d).agenda = s.agenda := rfl
@[simp] theorem State.pass_rx (s : State) (d : Nat) : (s.pass d).rx = s.rx := rfl
@[simp] theorem State.pass_issueQ (s : State) (d : Nat) : (s.pass d).issueQ = s.issueQ := rfl
@[simp] theorem State.pass_cur (s : State) (d : Nat) : (s.pass d).cur = s.cur := rfl
@[simp] theorem State.pass_free (s : State) (d : Nat) : (s.pass d).free = s.free := rfl
@[simp] theorem State.pass_dtcPpb (s : State) (d : Nat) : (s.pass d).dtcPpb = s.dtcPpb := rfl
@[simp] theorem State.pass_dtcFollow (s : State) (d : Nat) : (s.pass d).dtcFollow = s.dtcFollow := rfl
@[simp] theorem State.pass_dtcLockSet (s : State) (d : Nat) : (s.pass d).dtcLockSet = s.dtcLockSet := rfl
@[simp] theorem State.pass_interval (s : State) (d : Nat) : (s.pass d).interval = s.interval := rfl
@[simp] theorem State.pass_cores (s : State) (d : Nat) : (s.pass d).cores = s.cores := rfl
@[simp] theorem State.pass_clusters (s : State) (d : Nat) : (s.pass d).clusters = s.clusters := rfl
@[simp] theorem State.pass_slices (s : State) (d : Nat) : (s.pass d).slices = s.slices := rfl
@[simp] theorem State.pass_walks (s : State) (d : Nat) : (s.pass d).walks = s.walks := rfl
@[simp] theorem State.pass_walkFaults (s : State) (d : Nat) : (s.pass d).walkFaults = s.walkFaults := rfl
@[simp] theorem State.pass_asks (s : State) (d : Nat) : (s.pass d).asks = s.asks := rfl
@[simp] theorem State.pass_wgs (s : State) (d : Nat) : (s.pass d).wgs = s.wgs := rfl
@[simp] theorem State.pass_nextWg (s : State) (d : Nat) : (s.pass d).nextWg = s.nextWg := rfl
@[simp] theorem State.pass_operands (s : State) (d : Nat) : (s.pass d).operands = s.operands := rfl
@[simp] theorem State.pass_mem (s : State) (d : Nat) : (s.pass d).mem = s.mem := rfl
@[simp] theorem State.pass_ring (s : State) (d : Nat) : (s.pass d).ring = s.ring := rfl
@[simp] theorem State.pass_rbase (s : State) (d : Nat) : (s.pass d).rbase = s.rbase := rfl
@[simp] theorem State.pass_badMem (s : State) (d : Nat) : (s.pass d).badMem = s.badMem := rfl
@[simp] theorem State.pass_chans (s : State) (d : Nat) : (s.pass d).chans = s.chans := rfl
@[simp] theorem State.pass_grids (s : State) (d : Nat) : (s.pass d).grids = s.grids := rfl
@[simp] theorem State.pass_nextGrid (s : State) (d : Nat) : (s.pass d).nextGrid = s.nextGrid := rfl
@[simp] theorem State.pass_rr (s : State) (d : Nat) : (s.pass d).rr = s.rr := rfl
@[simp] theorem State.pass_saved (s : State) (d : Nat) : (s.pass d).saved = s.saved := rfl
@[simp] theorem State.pass_places (s : State) (d : Nat) : (s.pass d).places = s.places := rfl
@[simp] theorem State.pass_streams (s : State) (d : Nat) : (s.pass d).streams = s.streams := rfl
@[simp] theorem State.pass_chains (s : State) (d : Nat) : (s.pass d).chains = s.chains := rfl
@[simp] theorem State.pass_nextChain (s : State) (d : Nat) : (s.pass d).nextChain = s.nextChain := rfl
@[simp] theorem State.pass_cps (s : State) (d : Nat) : (s.pass d).cps = s.cps := rfl
@[simp] theorem State.pass_conns (s : State) (d : Nat) : (s.pass d).conns = s.conns := rfl
@[simp] theorem State.pass_hostConn (s : State) (d : Nat) : (s.pass d).hostConn = s.hostConn := rfl
@[simp] theorem State.pass_hostAccs (s : State) (d : Nat) : (s.pass d).hostAccs = s.hostAccs := rfl
@[simp] theorem State.pass_nextTag (s : State) (d : Nat) : (s.pass d).nextTag = s.nextTag := rfl
@[simp] theorem State.pass_hostWrites (s : State) (d : Nat) : (s.pass d).hostWrites = s.hostWrites := rfl
@[simp] theorem State.pass_hostReads (s : State) (d : Nat) : (s.pass d).hostReads = s.hostReads := rfl
@[simp] theorem State.pass_mgmtQ (s : State) (d : Nat) : (s.pass d).mgmtQ = s.mgmtQ := rfl
@[simp] theorem State.pass_out (s : State) (d : Nat) : (s.pass d).out = s.out := rfl
@[simp] theorem State.pass_pools (s : State) (d : Nat) : (s.pass d).pools = s.pools := rfl
@[simp] theorem State.pass_orphan (s : State) (d : Nat) : (s.pass d).orphan = s.orphan := rfl
@[simp] theorem State.pass_ready (s : State) (d : Nat) : (s.pass d).ready = s.ready := rfl
@[simp] theorem State.pass_linkUp (s : State) (d : Nat) : (s.pass d).linkUp = s.linkUp := rfl
@[simp] theorem State.pass_rails (s : State) (d : Nat) : (s.pass d).rails = s.rails := rfl
@[simp] theorem State.pass_parts (s : State) (d : Nat) : (s.pass d).parts = s.parts := rfl
@[simp] theorem State.pass_rules (s : State) (d : Nat) : (s.pass d).rules = s.rules := rfl
@[simp] theorem State.pass_fired (s : State) (d : Nat) : (s.pass d).fired = s.fired := rfl
@[simp] theorem State.pass_pkgTemp (s : State) (d : Nat) : (s.pass d).pkgTemp = s.pkgTemp := rfl
@[simp] theorem State.pass_regTemp (s : State) (d : Nat) : (s.pass d).regTemp = s.regTemp := rfl
@[simp] theorem State.pass_thot (s : State) (d : Nat) : (s.pass d).thot = s.thot := rfl
@[simp] theorem State.pass_ipv4 (s : State) (d : Nat) : (s.pass d).ipv4 = s.ipv4 := rfl
@[simp] theorem State.pass_ipv6 (s : State) (d : Nat) : (s.pass d).ipv6 = s.ipv6 := rfl
@[simp] theorem State.pass_ptpProfile (s : State) (d : Nat) : (s.pass d).ptpProfile = s.ptpProfile := rfl
@[simp] theorem State.pass_ptpDomain (s : State) (d : Nat) : (s.pass d).ptpDomain = s.ptpDomain := rfl
@[simp] theorem State.pass_ptp (s : State) (d : Nat) : (s.pass d).ptp = s.ptp := rfl
@[simp] theorem State.pass_boot (s : State) (d : Nat) : (s.pass d).boot = s.boot := rfl
@[simp] theorem State.pass_image (s : State) (d : Nat) : (s.pass d).image = s.image := rfl
@[simp] theorem State.pass_meas (s : State) (d : Nat) : (s.pass d).meas = s.meas := rfl

end Sys2Proof.Machine
end

