-- ==== Sys2Proof/Laws/Maps.lean ====
section
/-! SUPPORT. Sparse maps: what look gives after put, change and erase, and the parts of the state kept in them. -/

namespace Sys2Proof.Machine

@[simp] theorem look_nil {α : Type} (j : Nat) : look ([] : AMap α) j = none := rfl

@[simp] theorem look_put_self {α : Type} (m : AMap α) (j : Nat) (x : α) : look (put m j x) j = some x := by
  induction m with
  | nil => simp [put, look]
  | cons e m ih =>
    obtain ⟨k, v⟩ := e
    unfold put
    split
    · simp [look]
    · split
      · simp [look]
      · rename_i h
        simp [look, Ne.symm h, ih]

theorem look_put_ne {α : Type} (m : AMap α) {j i : Nat} (x : α) (h : i ≠ j) : look (put m j x) i = look m i := by
  induction m with
  | nil => simp [put, look, Ne.symm h]
  | cons e m ih =>
    obtain ⟨k, v⟩ := e
    unfold put
    split
    · simp [look, Ne.symm h]
    · split
      · rename_i hk
        subst hk
        simp [look, Ne.symm h]
      · simp [look, ih]

@[simp] theorem look_change_self {α : Type} (m : AMap α) (j : Nat) (f : α → α) : look (change m j f) j = (look m j).map f := by
  induction m with
  | nil => rfl
  | cons e m ih =>
    obtain ⟨k, v⟩ := e
    simp only [change] at ih
    by_cases h : k = j
    · simp [change, look, h]
    · simp [change, look, h, ih]

theorem look_change_ne {α : Type} (m : AMap α) {j i : Nat} (f : α → α) (h : i ≠ j) : look (change m j f) i = look m i := by
  induction m with
  | nil => rfl
  | cons e m ih =>
    obtain ⟨k, v⟩ := e
    simp only [change] at ih
    by_cases hk : k = j
    · subst hk
      simp [change, look, Ne.symm h, ih]
    · simp [change, look, hk, ih]

@[simp] theorem look_erase_self {α : Type} (m : AMap α) (j : Nat) : look (erase m j) j = none := by
  induction m with
  | nil => rfl
  | cons e m ih =>
    obtain ⟨k, v⟩ := e
    simp only [erase] at ih
    by_cases h : k = j
    · simp [erase, h, ih]
    · simp [erase, h, look, ih]

theorem look_erase_ne {α : Type} (m : AMap α) {j i : Nat} (h : i ≠ j) : look (erase m j) i = look m i := by
  induction m with
  | nil => rfl
  | cons e m ih =>
    obtain ⟨k, v⟩ := e
    simp only [erase] at ih
    by_cases hk : k = j
    · subst hk
      simp [erase, look, Ne.symm h, ih]
    · simp [erase, hk, look, ih]

/-! ### Cores, clusters, slices, workgroups, grids, waves -/

@[simp] theorem State.core_modCore (s : State) (k : Nat) (f : Core → Core) : (s.modCore k f).core k = f (s.core k) := by
  simp [State.modCore, State.setCore, State.core]
theorem State.core_modCore_ne (s : State) {k j : Nat} (f : Core → Core) (h : j ≠ k) : (s.modCore k f).core j = s.core j := by
  simp only [State.modCore, State.setCore, State.core, look_put_ne _ _ h]
  rfl
@[simp] theorem State.cluster_modCluster (s : State) (k : Nat) (f : Cluster → Cluster) :
    (s.modCluster k f).cluster k = f (s.cluster k) := by
  simp [State.modCluster, State.cluster]
theorem State.cluster_modCluster_ne (s : State) {k j : Nat} (f : Cluster → Cluster) (h : j ≠ k) :
    (s.modCluster k f).cluster j = s.cluster j := by
  simp [State.modCluster, State.cluster, look_put_ne _ _ h]
@[simp] theorem State.slice_modSlice (s : State) (k : Nat) (f : Slice → Slice) : (s.modSlice k f).slice k = f (s.slice k) := by
  simp [State.modSlice, State.slice]
theorem State.slice_modSlice_ne (s : State) {k j : Nat} (f : Slice → Slice) (h : j ≠ k) : (s.modSlice k f).slice j = s.slice j := by
  simp [State.modSlice, State.slice, look_put_ne _ _ h]
theorem State.look_modWg (s : State) (k : Nat) (f : WGrp → WGrp) : look (s.modWg k f).wgs k = (look s.wgs k).map f := by
  simp [State.modWg]
theorem State.wg_modWg (s : State) {k : Nat} {g : WGrp} (f : WGrp → WGrp) (h : look s.wgs k = some g) : (s.modWg k f).wg k = f g := by
  simp [State.modWg, State.wg, h]
theorem State.wg_modWg_ne (s : State) {k j : Nat} (f : WGrp → WGrp) (h : j ≠ k) : (s.modWg k f).wg j = s.wg j := by
  simp [State.modWg, State.wg, look_change_ne _ _ h]
theorem State.grid_modGrid (s : State) {k : Nat} {g : Grid} (f : Grid → Grid) (h : look s.grids k = some g) : (s.modGrid k f).grid k = f g := by
  simp [State.modGrid, State.grid, h]
theorem State.grid_modGrid_ne (s : State) {k j : Nat} (f : Grid → Grid) (h : j ≠ k) : (s.modGrid k f).grid j = s.grid j := by
  simp [State.modGrid, State.grid, look_change_ne _ _ h]

@[simp] theorem State.wave?_modWave (s : State) (core ctx : Nat) (f : Wave → Wave) :
    (s.modWave core ctx f).wave? core ctx = (s.wave? core ctx).map f := by
  simp [State.modWave, State.wave?]
theorem State.wave?_modWave_ne (s : State) {core ctx core' ctx' : Nat} (f : Wave → Wave) (h : (core', ctx') ≠ (core, ctx)) :
    (s.modWave core ctx f).wave? core' ctx' = s.wave? core' ctx' := by
  by_cases hc : core' = core
  · subst hc
    have : ctx' ≠ ctx := fun e => h (by rw [e])
    simp [State.modWave, State.wave?, look_change_ne _ _ this]
  · simp [State.modWave, State.wave?, State.core_modCore_ne _ _ hc]
theorem State.wave?_modWg (s : State) (k core ctx : Nat) (f : WGrp → WGrp) : (s.modWg k f).wave? core ctx = s.wave? core ctx := rfl

/-! ### The executing wave and split -/

theorem Wave.split?_modSplit (w : Wave) (id : Nat) (f : Split → Split) (hf : ∀ p : Split, p.id = id → (f p).id = id) :
    (w.modSplit id f).split? id = (w.split? id).map f := by
  simp only [Wave.modSplit, Wave.split?]
  induction w.splits with
  | nil => rfl
  | cons p l ih =>
    by_cases h : p.id = id
    · simp [h, hf p h]
    · simp [h, ih]

theorem Wave.split?_modSplit_ne (w : Wave) {id j : Nat} (f : Split → Split) (hf : ∀ p : Split, p.id = id → (f p).id = id)
    (h : j ≠ id) : (w.modSplit id f).split? j = w.split? j := by
  simp only [Wave.modSplit, Wave.split?]
  induction w.splits with
  | nil => rfl
  | cons p l ih =>
    by_cases hp : p.id = id
    · simp [hp, hf p hp, Ne.symm h, ih]
    · by_cases hj : p.id = j
      · simp [hj, h]
      · simp [hp, hj, ih]

/-- A live state's executing wave and split. -/
theorem State.live_iff (s : State) : s.live = true ↔ ∃ w, s.wave? s.cur.core s.cur.ctx = some w ∧ ∃ p, w.split? s.cur.split = some p := by
  unfold State.live
  cases h : s.wave? s.cur.core s.cur.ctx with
  | none => simp
  | some w => simp [Option.isSome_iff_exists]

theorem State.w_modW (s : State) (f : Wave → Wave) (h : s.live = true) : (s.modW f).w = f s.w := by
  obtain ⟨w, hw, -⟩ := (s.live_iff).1 h
  have : (s.modW f).wave? s.cur.core s.cur.ctx = some (f w) := by simp [State.modW, hw]
  simp [State.w, State.wave, hw, this]

theorem State.live_modW (s : State) (f : Wave → Wave) (hf : ∀ w, ((f w).split? s.cur.split).isSome = (w.split? s.cur.split).isSome) :
    (s.modW f).live = s.live := by
  have h : (s.modW f).wave? s.cur.core s.cur.ctx = (s.wave? s.cur.core s.cur.ctx).map f := by simp [State.modW]
  simp only [State.live, State.modW_cur, h]
  cases s.wave? s.cur.core s.cur.ctx with
  | none => rfl
  | some w => simpa using hf w

end Sys2Proof.Machine
end

