-- ==== Sys2Proof/Laws/Memory.lean ====
section
/-! SUPPORT. Memory: reading after writing, and that every memory operation keeps the canonical form. -/

namespace Sys2Proof.Machine

/-! ### The canonical form -/

/-- Every listed address lies above a bound. -/
def Mem.above (m : Mem) (a : Nat) : Prop := ∀ e ∈ m, a < e.1

theorem Mem.wf_cons {k : Nat} {v : Byte} {m : Mem} : Mem.wf ((k, v) :: m) = true ↔ v ≠ 0 ∧ Mem.above m k ∧ Mem.wf m = true := by
  induction m generalizing k v with
  | nil => simp [Mem.wf, Mem.above]
  | cons e m ih =>
    obtain ⟨k', v'⟩ := e
    constructor
    · intro h
      simp only [Mem.wf, Bool.and_eq_true, bne_iff_ne, decide_eq_true_eq] at h
      refine ⟨h.1.1, ?_, h.2⟩
      intro e he
      rcases List.mem_cons.1 he with rfl | he
      · exact h.1.2
      · have := (ih.1 h.2).2.1 e he
        omega
    · rintro ⟨hv, ha, hm⟩
      simp only [Mem.wf, Bool.and_eq_true, bne_iff_ne, decide_eq_true_eq]
      exact ⟨⟨hv, ha (k', v') (by simp)⟩, hm⟩

theorem Mem.get_of_above {m : Mem} {a : Nat} (h : Mem.above m a) : m.get a = 0 := by
  induction m with
  | nil => rfl
  | cons e m ih =>
    obtain ⟨k, v⟩ := e
    have hk : a < k := h (k, v) (by simp)
    simp only [Mem.get, if_neg (by omega : ¬ k = a)]
    exact ih fun e he => h e (by simp [he])

theorem Mem.above_set {m : Mem} {a b : Nat} {v : Byte} (h : Mem.above m a) (hb : a < b) : Mem.above (m.set b v) a := by
  induction m with
  | nil =>
    intro e he
    unfold Mem.set at he
    split at he
    · simp at he
    · simp at he; subst he; exact hb
  | cons e m ih =>
    obtain ⟨k, w⟩ := e
    have hk : a < k := h (k, w) (by simp)
    have hm : Mem.above m a := fun e he => h e (by simp [he])
    have key : ∀ e, e ∈ Mem.set ((k, w) :: m) b v → e = (k, w) ∨ e = (b, v) ∨ e ∈ m ∨ e ∈ Mem.set m b v := by
      intro e he
      unfold Mem.set at he
      split at he
      · split at he
        · simp at he; tauto
        · simp at he; tauto
      · split at he
        · split at he
          · tauto
          · simp at he; tauto
        · simp at he; tauto
    intro e he
    rcases key e he with rfl | rfl | he | he
    · exact hk
    · exact hb
    · exact hm e he
    · exact ih hm e he

/-- A write keeps the canonical form. -/
theorem Mem.wf_set {m : Mem} (a : Nat) (v : Byte) (h : Mem.wf m = true) : Mem.wf (m.set a v) = true := by
  induction m with
  | nil =>
    unfold Mem.set
    split
    · rfl
    · rename_i hv; simpa [Mem.wf] using hv
  | cons e m ih =>
    obtain ⟨k, w⟩ := e
    obtain ⟨hw, ha, hm⟩ := Mem.wf_cons.1 h
    unfold Mem.set
    split
    · rename_i hk
      split
      · exact h
      · rename_i hv
        refine Mem.wf_cons.2 ⟨hv, ?_, h⟩
        intro e he
        rcases List.mem_cons.1 he with rfl | he
        · exact hk
        · have := ha e he; omega
    · split
      · rename_i hk
        subst hk
        split
        · exact hm
        · rename_i hv; exact Mem.wf_cons.2 ⟨hv, ha, hm⟩
      · rename_i h1 h2
        exact Mem.wf_cons.2 ⟨hw, Mem.above_set ha (by omega), ih hm⟩

theorem Mem.wf_puts {m : Mem} (bs : List Byte) (a : Nat) (h : Mem.wf m = true) : Mem.wf (m.puts a bs) = true := by
  induction bs generalizing m a with
  | nil => exact h
  | cons b bs ih => exact ih (a + 1) (Mem.wf_set a b h)

theorem Mem.wf_filter {m : Mem} (p : Host.Cell → Bool) (h : Mem.wf m = true) : Mem.wf (m.filter p) = true := by
  induction m with
  | nil => exact h
  | cons e m ih =>
    obtain ⟨k, w⟩ := e
    obtain ⟨hw, ha, hm⟩ := Mem.wf_cons.1 h
    by_cases hp : p (k, w) = true
    · rw [List.filter_cons_of_pos hp]
      exact Mem.wf_cons.2 ⟨hw, fun e he => ha e (List.mem_filter.1 he).1, ih hm⟩
    · rw [List.filter_cons_of_neg hp]
      exact ih hm

/-! ### Reading after writing -/

theorem Mem.get_set_self {m : Mem} (a : Nat) (v : Byte) (h : Mem.wf m = true) : (m.set a v).get a = v := by
  induction m with
  | nil =>
    unfold Mem.set
    split
    · rename_i hv; simp [Mem.get, hv]
    · simp [Mem.get]
  | cons e m ih =>
    obtain ⟨k, w⟩ := e
    obtain ⟨hw, ha, hm⟩ := Mem.wf_cons.1 h
    unfold Mem.set
    split
    · rename_i hk
      split
      · rename_i hv
        subst hv
        refine Mem.get_of_above ?_
        intro e he
        rcases List.mem_cons.1 he with rfl | he
        · exact hk
        · have := ha e he; omega
      · simp [Mem.get]
    · split
      · rename_i hk
        subst hk
        split
        · rename_i hv; rw [hv]; exact Mem.get_of_above ha
        · simp [Mem.get]
      · rename_i h1 h2
        simp only [Mem.get, if_neg (by omega : ¬ k = a)]
        exact ih hm

theorem Mem.get_set_ne {m : Mem} {a b : Nat} (v : Byte) (h : b ≠ a) : (m.set a v).get b = m.get b := by
  induction m with
  | nil =>
    unfold Mem.set
    split
    · rfl
    · simp [Mem.get, Ne.symm h]
  | cons e m ih =>
    obtain ⟨k, w⟩ := e
    unfold Mem.set
    split
    · split
      · rfl
      · simp [Mem.get, Ne.symm h]
    · split
      · rename_i hk
        subst hk
        split
        · simp [Mem.get, Ne.symm h]
        · simp [Mem.get, Ne.symm h]
      · simp only [Mem.get]
        split
        · rfl
        · exact ih

/-- What an address holds after n bytes were written. -/
theorem Mem.get_puts {m : Mem} (bs : List Byte) (a x : Nat) (h : Mem.wf m = true) :
    (m.puts a bs).get x = if a ≤ x ∧ x < a + bs.length then bs.getD (x - a) 0 else m.get x := by
  induction bs generalizing m a with
  | nil => simp [Mem.puts]
  | cons b bs ih =>
    simp only [Mem.puts]
    rw [ih (a + 1) (Mem.wf_set a b h)]
    by_cases hx : x = a
    · subst hx
      simp [Mem.get_set_self x b h]
    · rw [Mem.get_set_ne b hx]
      by_cases h1 : a + 1 ≤ x ∧ x < a + 1 + bs.length
      · have h2 : a ≤ x ∧ x < a + (b :: bs).length := by simp; omega
        rw [if_pos h1, if_pos h2]
        obtain ⟨k, hk⟩ : ∃ k, x - a = k + 1 := ⟨x - a - 1, by omega⟩
        have : x - (a + 1) = k := by omega
        rw [hk, this]
        simp
      · have h2 : ¬(a ≤ x ∧ x < a + (b :: bs).length) := by simp; omega
        rw [if_neg h1, if_neg h2]

/-! ### Physical memory -/

theorem State.memOk_physPut {s : State} (pa : Nat) (b : Byte) (h : s.memOk) : (s.physPut pa b).memOk := by
  unfold State.physPut
  split
  · exact ⟨h.1, Mem.wf_set _ _ h.2⟩
  · exact ⟨Mem.wf_set _ _ h.1, h.2⟩

theorem State.memOk_physPuts {s : State} (bs : List Byte) (pa : Nat) (h : s.memOk) : (s.physPuts pa bs).memOk := by
  induction bs generalizing s pa with
  | nil => exact h
  | cons b bs ih => exact ih (pa + 1) (State.memOk_physPut pa b h)

@[simp] theorem State.physPut_rbase (s : State) (pa : Nat) (b : Byte) : (s.physPut pa b).rbase = s.rbase := by
  unfold State.physPut; split <;> rfl

@[simp] theorem State.physPut_inRing (s : State) (pa a : Nat) (b : Byte) : (s.physPut pa b).inRing a = s.inRing a := by
  simp [State.inRing]

theorem State.phys_physPut_self {s : State} (pa : Nat) (b : Byte) (h : s.memOk) : (s.physPut pa b).phys pa = b := by
  unfold State.phys
  rw [State.physPut_inRing, State.physPut_rbase]
  unfold State.physPut
  split
  · exact Mem.get_set_self _ _ h.2
  · exact Mem.get_set_self _ _ h.1

theorem State.phys_physPut_ne {s : State} {pa a : Nat} (b : Byte) (h : a ≠ pa) : (s.physPut pa b).phys a = s.phys a := by
  unfold State.phys
  rw [State.physPut_inRing, State.physPut_rbase]
  unfold State.physPut
  by_cases hp : s.inRing pa = true
  · rw [if_pos hp]
    by_cases ha : s.inRing a = true
    · rw [if_pos ha, if_pos ha]
      refine Mem.get_set_ne b ?_
      cases hr : s.rbase with
      | none => simp [State.inRing, hr] at hp
      | some r =>
        simp [State.inRing, hr] at hp ha
        simp
        omega
    · rw [if_neg ha, if_neg ha]
  · rw [if_neg hp]
    by_cases ha : s.inRing a = true
    · rw [if_pos ha, if_pos ha]
    · rw [if_neg ha, if_neg ha]
      exact Mem.get_set_ne b h

/-- What an address holds after n bytes were written to physical memory. -/
theorem State.phys_physPuts {s : State} (bs : List Byte) (pa x : Nat) (h : s.memOk) :
    (s.physPuts pa bs).phys x = if pa ≤ x ∧ x < pa + bs.length then bs.getD (x - pa) 0 else s.phys x := by
  induction bs generalizing s pa with
  | nil => simp [State.physPuts]
  | cons b bs ih =>
    simp only [State.physPuts]
    rw [ih (pa + 1) (State.memOk_physPut pa b h)]
    by_cases hx : x = pa
    · subst hx
      simp [State.phys_physPut_self x b h]
    · rw [State.phys_physPut_ne b hx]
      by_cases h1 : pa + 1 ≤ x ∧ x < pa + 1 + bs.length
      · have h2 : pa ≤ x ∧ x < pa + (b :: bs).length := by simp; omega
        rw [if_pos h1, if_pos h2]
        obtain ⟨k, hk⟩ : ∃ k, x - pa = k + 1 := ⟨x - pa - 1, by omega⟩
        have : x - (pa + 1) = k := by omega
        rw [hk, this]
        simp
      · have h2 : ¬(pa ≤ x ∧ x < pa + (b :: bs).length) := by simp; omega
        rw [if_neg h1, if_neg h2]

/-! ### Records (R284, R409) -/

theorem State.memOk_ite {c : Bool} {a b : State} (ha : a.memOk) (hb : b.memOk) : (if c then a else b).memOk := by
  cases c
  · exact hb
  · exact ha

theorem State.memOk_ringPut {s : State} (pa : Nat) (r : List Byte) (h : s.memOk) : (s.ringPut pa r).memOk :=
  State.memOk_ite (c := s.ringRoom pa) (State.memOk_physPuts _ _ (State.memOk_physPuts _ _ h)) (State.memOk_physPuts _ _ h)

theorem State.memOk_ringWrite {s : State} (pa : Nat) (r : List Byte) (h : s.memOk) : (s.ringWrite pa r).1.memOk :=
  State.memOk_ringPut pa r h

theorem State.memOk_out {u : State} (o : List Out) (h : u.memOk) : ({ u with out := o } : State).memOk := ⟨h.1, h.2⟩

theorem State.memOk_record {s : State} (cls : Nat) (r : RecInfo) (h : s.memOk) : (s.record cls r).memOk := by
  unfold State.record
  cases s.pools.logRing with
  | none => exact State.memOk_out _ h
  | some x => exact State.memOk_out _ (State.memOk_ringPut x.1 _ h)

/-! ### Buffers of a workgroup -/

theorem WGrp.buf_setBuf (g : WGrp) (sp : Space) (m : Mem) : (g.setBuf sp m).buf sp = m := by cases sp <;> rfl
theorem WGrp.buf_setBuf_ne (g : WGrp) {sp sp' : Space} (m : Mem) (h : sp' ≠ sp) : (g.setBuf sp m).buf sp' = g.buf sp' := by
  cases sp <;> cases sp' <;> first | rfl | exact absurd rfl h
theorem WGrp.buf_modTag (g : WGrp) (sp sp' : Space) (t : Nat) (f : Tag → Tag) : (g.modTag sp t f).buf sp' = g.buf sp' := by
  cases sp <;> cases sp' <;> rfl
theorem WGrp.buf_modTags (g : WGrp) (sp sp' : Space) (ts : List Nat) (f : Tag → Tag) : (g.modTags sp ts f).buf sp' = g.buf sp' := by
  unfold WGrp.modTags
  induction ts generalizing g with
  | nil => rfl
  | cons t ts ih => rw [List.foldl_cons, ih, WGrp.buf_modTag]

theorem State.wgs_noteOld (s : State) (core wg idx : Nat) (sp : Space) (lo n : Nat) : (s.noteOld core wg idx sp lo n).wgs = s.wgs := by
  simp only [State.noteOld]
  split <;> rfl
theorem State.wgs_dropOld (s : State) (core wg : Nat) (sp : Space) (lo n : Nat) : (s.dropOld core wg sp lo n).wgs = s.wgs := rfl

/-- What a write to a buffer does to the workgroups, apart from what it does to its core. -/
theorem State.bufPut_eq (s : State) (core wg : Nat) (sp : Space) (lo : Nat) (bs : List Byte) (by_ : Writer) :
    ∃ s' : State, s'.wgs = s.wgs ∧ s.bufPut core wg sp lo bs by_ = s'.modWg wg fun g =>
      (g.setBuf sp ((g.buf sp).puts lo bs)).modTags sp (tilesOf lo bs.length) fun t => { t with z := false } := by
  refine ⟨_, ?_, rfl⟩
  rw [State.touch, State.modCore_wgs]
  cases by_ with
  | wave idx => exact State.wgs_noteOld s core wg idx sp lo bs.length
  | engine => rfl
  | ring => rfl

/-- A write to a buffer leaves that buffer's bytes as Mem.puts does, and every other buffer of every workgroup alone. -/
theorem State.buf_bufPut {s : State} {core wg lo : Nat} {sp : Space} {bs : List Byte} {by_ : Writer} {g : WGrp} (h : look s.wgs wg = some g)
    (sp' : Space) : ((s.bufPut core wg sp lo bs by_).wg wg).buf sp' = if sp' = sp then (g.buf sp).puts lo bs else g.buf sp' := by
  obtain ⟨s', hs, he⟩ := s.bufPut_eq core wg sp lo bs by_
  rw [he, State.wg_modWg _ _ (hs ▸ h), WGrp.buf_modTags]
  by_cases hs : sp' = sp
  · subst hs; rw [WGrp.buf_setBuf, if_pos rfl]
  · rw [WGrp.buf_setBuf_ne _ _ hs, if_neg hs]

theorem State.wg_bufPut_ne {s : State} {core wg j lo : Nat} {sp : Space} {bs : List Byte} {by_ : Writer} (h : j ≠ wg) :
    (s.bufPut core wg sp lo bs by_).wg j = s.wg j := by
  obtain ⟨s', hs, he⟩ := s.bufPut_eq core wg sp lo bs by_
  rw [he, State.wg_modWg_ne _ _ h, State.wg, State.wg, hs]

end Sys2Proof.Machine
end

