-- ==== Sys2Proof/Laws/PerInstr.lean ====
section
/-! SUPPORT. The family EZero: every bundle the encoder gives for an instruction has K's upper bit and E clear
(R40, R41, R51), one lemma per constructor of `Instr`. -/

namespace Sys2Proof

theorem Raw.toWord_bit63 (r : Raw) : r.toWord.getLsbD 63 = false := by
  simp only [Raw.toWord, BitVec.getLsbD_append]; simp
theorem Raw.toWord_bit62 (r : Raw) : r.toWord.getLsbD 62 = false := by
  simp only [Raw.toWord, BitVec.getLsbD_append]; simp
theorem Raw.toWord_bit61 (r : Raw) : r.toWord.getLsbD 61 = r.e := by
  simp only [Raw.toWord, BitVec.getLsbD_append]; simp
theorem pairWord_bit63 (e : Bool) (h l : BitVec 30) : (pairWord e h l).getLsbD 63 = false := by
  simp only [pairWord, BitVec.getLsbD_append]; simp
theorem pairWord_bit62 (e : Bool) (h l : BitVec 30) : (pairWord e h l).getLsbD 62 = true := by
  simp only [pairWord, BitVec.getLsbD_append]; simp
theorem pairWord_bit61 (e : Bool) (h l : BitVec 30) : (pairWord e h l).getLsbD 61 = e := by
  simp only [pairWord, BitVec.getLsbD_append]; simp

@[simp] theorem rawOf_e (l op g d a b c8 m) : (rawOf l op g d a b c8 m).e = false := rfl
@[simp] theorem rawC_e (op g d a b c) : (rawC op g d a b c).e = false := rfl
@[simp] theorem enc1_e (op o m) : (enc1 op o m).e = false := rfl
@[simp] theorem enc2_e (op o m) : (enc2 op o m).e = false := by unfold enc2; split <;> rfl
@[simp] theorem encAB_e (op o m) : (encAB op o m).e = false := rfl
@[simp] theorem enc3_e (op o m) : (enc3 op o m).e = false := rfl
@[simp] theorem encMem_e (op o m) : (encMem op o m).e = false := rfl
@[simp] theorem encTile_e (op o) : (encTile op o).e = false := rfl
@[simp] theorem encTag_e (op o c) : (encTag op o c).e = false := rfl
@[simp] theorem encMma_e (op o) : (encMma op o).e = false := rfl
@[simp] theorem encTarget_e (op d t) : (encTarget op d t).e = false := by cases t <;> rfl
@[simp] theorem encSys_e (op d a b m) : (encSys op d a b m).e = false := rfl
@[simp] theorem encBar_e (op k d a m) : (encBar op k d a m).e = false := rfl

namespace Laws.EZero

/-- Every bundle the encoder gives for i has K[1] and E clear. -/
def Statement (i : Instr) : Prop := ∀ w, encode i = some w → w.getLsbD 63 = false ∧ w.getLsbD 61 = false

theorem of_full {i : Instr} {r : Raw} (h : encodeFull i = some r) (he : r.e = false) : Statement i := by
  intro w hw
  unfold encode at hw; rw [h] at hw
  obtain rfl := Option.some.inj hw
  exact ⟨r.toWord_bit63, by rw [r.toWord_bit61, he]⟩

theorem of_pair {i : Instr} (h : ∀ w, encode i = some w → ∃ x y, w = pairWord false x y) : Statement i := by
  intro w hw
  obtain ⟨x, y, rfl⟩ := h w hw
  exact ⟨pairWord_bit63 .., pairWord_bit61 ..⟩

theorem of_none {i : Instr} (h : encode i = none) : Statement i := by
  intro w hw; rw [h] at hw; cases hw

theorem add (o : Op2) (ty : IntTy) : Statement (.add o ty) := of_full rfl (by simp)
theorem sub (o : Op2) (ty : IntTy) : Statement (.sub o ty) := of_full rfl (by simp)
theorem mulLo (o : Op2) (ty : IntTy) : Statement (.mulLo o ty) := of_full rfl (by simp)
theorem mulHi (o : Op2) (ty : IntTy) : Statement (.mulHi o ty) := of_full rfl (by simp)
theorem mad (o : Op3) (ty : IntTy) : Statement (.mad o ty) := of_full rfl (by simp)
theorem min (o : Op2) (ty : IntTy) : Statement (.min o ty) := of_full rfl (by simp)
theorem max (o : Op2) (ty : IntTy) : Statement (.max o ty) := of_full rfl (by simp)
theorem abs (o : Op1) : Statement (.abs o) := of_full rfl (by simp)
theorem and (o : Op2) : Statement (.and o) := of_full rfl (by simp)
theorem or (o : Op2) : Statement (.or o) := of_full rfl (by simp)
theorem xor (o : Op2) : Statement (.xor o) := of_full rfl (by simp)
theorem lop3 (o : Op3) (tbl : BitVec 8) : Statement (.lop3 o tbl) := of_full rfl (by simp)
theorem shl (o : Op2) : Statement (.shl o) := of_full rfl (by simp)
theorem shr (o : Op2) : Statement (.shr o) := of_full rfl (by simp)
theorem sar (o : Op2) : Statement (.sar o) := of_full rfl (by simp)
theorem rot (o : Op2) : Statement (.rot o) := of_full rfl (by simp)
theorem bfe (o : Op2) (sx : Bool) : Statement (.bfe o sx) := of_full rfl (by simp)
theorem bfi (o : Op2) : Statement (.bfi o) := of_full rfl (by simp)
theorem popc (o : Op1) : Statement (.popc o) := of_full rfl (by simp)
theorem clz (o : Op1) : Statement (.clz o) := of_full rfl (by simp)
theorem brev (o : Op1) : Statement (.brev o) := of_full rfl (by simp)
theorem addW (o : Op2) : Statement (.addW o) := of_full rfl (by simp)
theorem lea (o : Op2) (sh : Fin 5) (z : Bool) : Statement (.lea o sh z) := of_full rfl (by simp)
theorem cmp (o : OpAB) (c : Cond) (ty : IntTy) (comb : Comb) : Statement (.cmp o c ty comb) := of_full rfl (by simp)
theorem sel (o : Op3) : Statement (.sel o) := of_full rfl (by simp)
theorem mov (o : Op1) : Statement (.mov o) := of_full rfl (by simp)
theorem movi (g : Guard) (d : Opnd) (imm : BitVec 19) : Statement (.movi g d imm) := of_full rfl (by simp)
theorem plop (o : Op3) (tbl : BitVec 8) : Statement (.plop o tbl) := of_full rfl (by simp)
theorem dp4 (o : Op3) (ua : Bool) (ub : Bool) : Statement (.dp4 o ua ub) := of_full rfl (by simp)
theorem fadd (o : Op2) : Statement (.fadd o) := of_full rfl (by simp)
theorem fsub (o : Op2) : Statement (.fsub o) := of_full rfl (by simp)
theorem fmul (o : Op2) : Statement (.fmul o) := of_full rfl (by simp)
theorem ffma (o : Op3) : Statement (.ffma o) := of_full rfl (by simp)
theorem fmin (o : Op2) (nan : Bool) : Statement (.fmin o nan) := of_full rfl (by simp)
theorem fmax (o : Op2) (nan : Bool) : Statement (.fmax o nan) := of_full rfl (by simp)
theorem fcmp (o : OpAB) (c : FCond) (u : Bool) (comb : Comb) : Statement (.fcmp o c u comb) := of_full rfl (by simp)
theorem fclass (o : Op1) (m : BitVec 9) : Statement (.fclass o m) := of_full rfl (by simp)
theorem frnd (o : Op1) : Statement (.frnd o) := of_full rfl (by simp)
theorem ffrac (o : Op1) : Statement (.ffrac o) := of_full rfl (by simp)
theorem frcp (o : Op1) : Statement (.frcp o) := of_full rfl (by simp)
theorem frsq (o : Op1) : Statement (.frsq o) := of_full rfl (by simp)
theorem fsqrt (o : Op1) : Statement (.fsqrt o) := of_full rfl (by simp)
theorem fexp2 (o : Op1) : Statement (.fexp2 o) := of_full rfl (by simp)
theorem flog2 (o : Op1) : Statement (.flog2 o) := of_full rfl (by simp)
theorem fsin (o : Op1) : Statement (.fsin o) := of_full rfl (by simp)
theorem fcos (o : Op1) : Statement (.fcos o) := of_full rfl (by simp)
theorem ftanh (o : Op1) : Statement (.ftanh o) := of_full rfl (by simp)
theorem fdiv (o : OpAB) : Statement (.fdiv o) := of_full rfl (by simp)
theorem hadd2 (o : OpAB) (bf : Bool) : Statement (.hadd2 o bf) := of_full rfl (by simp)
theorem hmul2 (o : OpAB) (bf : Bool) : Statement (.hmul2 o bf) := of_full rfl (by simp)
theorem hfma2 (o : Op3) (bf : Bool) : Statement (.hfma2 o bf) := of_full rfl (by simp)
theorem fdot2 (o : Op3) (bf : Bool) : Statement (.fdot2 o bf) := of_full rfl (by simp)
theorem cvt (o : Op1) (dst src : CvtTy) : Statement (.cvt o dst src) := of_full rfl (by simp)
theorem pack2 (o : OpAB) (ty : Pack2Ty) : Statement (.pack2 o ty) := of_full rfl (by simp)
theorem pack4 (o : Op3) (ty : Pack4Ty) : Statement (.pack4 o ty) := of_full rfl (by simp)
theorem unpack (o : Op1) (ty : UnpackTy) (e : Fin 4) : Statement (.unpack o ty e) := of_full rfl (by simp)
theorem qblk (o : Op1) (b32 : Bool) : Statement (.qblk o b32) := of_full rfl (by simp)
theorem dqblk (o : Op1) : Statement (.dqblk o) := of_full rfl (by simp)
theorem i4g (o : OpAB) (h : Fin 8) : Statement (.i4g o h) := of_full rfl (by simp)
theorem vote (o : Op1) (op : VoteOp) : Statement (.vote o op) := of_full rfl (by simp)
theorem shfl (o : OpAB) (mode : ShflMode) (lg : Fin 6) : Statement (.shfl o mode lg) := of_full rfl (by simp)
theorem redux (o : Op1) (op : RedOp) : Statement (.redux o op) := of_full rfl (by simp)
theorem scan (o : Op1) (op : RedOp) (excl : Bool) : Statement (.scan o op excl) := of_full rfl (by simp)
theorem tagof (o : Op1) : Statement (.tagof o) := of_full rfl (by simp)
theorem mkaff (o : Op2) : Statement (.mkaff o) := of_full rfl (by simp)
theorem movs (g : Guard) (d : Opnd) (r : SReg) : Statement (.movs g d r) := of_full rfl (by simp)
theorem setsr (r : SReg) (a : Opnd) : Statement (.setsr r a) := of_full rfl (by simp)
theorem rpf (vc vb : Option (Fin 128)) (mask : BitVec 16) : Statement (.rpf vc vb mask) := of_full rfl (by simp)
theorem rdlane (o : Op2) : Statement (.rdlane o) := of_full rfl (by simp)
theorem br (g : Guard) (a : Opnd) (disp : BitVec 19) : Statement (.br g a disp) := of_full rfl (by simp)
theorem brD (g : Guard) (h : Bool) (disp : BitVec 19) : Statement (.brD g h disp) := of_full rfl (by simp)
theorem jmp (t : Target) : Statement (.jmp t) := of_full rfl (by simp)
theorem call (d : Fin 64) (t : Target) : Statement (.call d t) := of_full rfl (by simp)
theorem callx (d : Fin 64) (a : Fin 128) : Statement (.callx d a) := of_full rfl (by simp)
theorem ret (a : Fin 64) : Statement (.ret a) := of_full rfl (by simp)
theorem join : Statement .join := of_full rfl (by simp)
theorem conv : Statement .conv := of_full rfl (by simp)
theorem exit (g : Guard) : Statement (.exit g) := of_full rfl (by simp)
theorem trap (g : Guard) (code : BitVec 16) : Statement (.trap g code) := of_full rfl (by simp)
theorem nop : Statement .nop := of_full rfl (by simp)
theorem loop (d : Fin 64) (disp : BitVec 19) : Statement (.loop d disp) := of_full rfl (by simp)
theorem fhdr (n g : BitVec 8) : Statement (.fhdr n g) := of_full rfl (by simp)
theorem ldA (o : LocalOp) : Statement (.ldA o) := of_full rfl (by simp)
theorem stA (o : LocalOp) : Statement (.stA o) := of_full rfl (by simp)
theorem ldW (o : LocalOp) : Statement (.ldW o) := of_full rfl (by simp)
theorem ldC (o : TileOp) : Statement (.ldC o) := of_full rfl (by simp)
theorem stC (o : TileOp) : Statement (.stC o) := of_full rfl (by simp)
theorem atomA (g : Guard) (la : BitVec 4) (d a b : Opnd) (off : BitVec 8) (op : AtomOp) : Statement (.atomA g la d a b off op) := of_full rfl (by simp)
theorem casA (g : Guard) (la : BitVec 4) (d a b c : Opnd) : Statement (.casA g la d a b c) := of_full rfl (by simp)
theorem tagset (o : TagOp) : Statement (.tagset o) := of_full rfl (by simp)
theorem tagclr (o : TagOp) : Statement (.tagclr o) := of_full rfl (by simp)
theorem tagwait (o : TagOp) (clr : Bool) : Statement (.tagwait o clr) := of_full rfl (by simp)
theorem ldG (o : LocalOp) (cg : Bool) : Statement (.ldG o cg) := of_full rfl (by simp)
theorem stG (o : LocalOp) : Statement (.stG o) := of_full rfl (by simp)
theorem prefG (g : Guard) (a b : Opnd) (off : BitVec 8) (l2 : Bool) : Statement (.prefG g a b off l2) := of_full rfl (by simp)
theorem fenceRel (sc : Scope) : Statement (.fenceRel sc) := of_full rfl (by simp)
theorem fenceAcq (sc : Scope) : Statement (.fenceAcq sc) := of_full rfl (by simp)
theorem fenceFull (sc : Scope) : Statement (.fenceFull sc) := of_full rfl (by simp)
theorem fenceLeaseTimeReached (at_ : Cursor) : Statement (.fenceLeaseTimeReached at_) := of_none rfl
theorem waitc (a : Opnd) (path : Path) : Statement (.waitc a path) := of_full rfl (by simp)
theorem atomG (g : Guard) (la : BitVec 4) (d a b : Opnd) (off : BitVec 8) (op : AtomOp) (wide : Bool) (sc : Scope) : Statement (.atomG g la d a b off op wide sc) := of_full rfl (by simp)
theorem casG (g : Guard) (la : BitVec 4) (d a b c : Opnd) (wide : Bool) (sc : Scope) : Statement (.casG g la d a b c wide sc) := of_full rfl (by simp)
theorem qpush (g : Guard) (d a b : Opnd) (size : Size) : Statement (.qpush g d a b size) := of_full rfl (by simp)
theorem qpop (g : Guard) (la : BitVec 4) (d a c : Opnd) (size : Size) : Statement (.qpop g la d a c size) := of_full rfl (by simp)
theorem binit (k : BitVec 6) (a : Opnd) : Statement (.binit k a) := of_full rfl (by simp)
theorem barr (k : BitVec 6) : Statement (.barr k) := of_full rfl (by simp)
theorem bexp (k : BitVec 6) (a : Opnd) (nx : Bool) : Statement (.bexp k a nx) := of_full rfl (by simp)
theorem bwait (k : BitVec 6) (p : Option Opnd) : Statement (.bwait k p) := of_full rfl (by simp)
theorem barrw (k : BitVec 6) : Statement (.barrw k) := of_full rfl (by simp)
theorem btest (k : BitVec 6) (d : Opnd) (cnt nx : Bool) : Statement (.btest k d cnt nx) := of_full rfl (by simp)
theorem bbind (k : BitVec 6) (a : Opnd) : Statement (.bbind k a) := of_full rfl (by simp)
theorem kick (a b : Opnd) (off : BitVec 8) : Statement (.kick a b off) := of_full rfl (by simp)
theorem kickQueueRefill (core : Nat) : Statement (.kickQueueRefill core) := of_none rfl
theorem copyRequestTake (core : Nat) : Statement (.copyRequestTake core) := of_none rfl
theorem copyPartWrite (core req : Nat) : Statement (.copyPartWrite core req) := of_none rfl
theorem strdef (d : Opnd) (k : BitVec 5) (a : Opnd) (off : BitVec 8) : Statement (.strdef d k a off) := of_full rfl (by simp)
theorem streamFill (core ctx k : Nat) : Statement (.streamFill core ctx k) := of_none rfl
theorem strq (g : Guard) (la : BitVec 4) (d c : Opnd) (k : BitVec 5) (size : Size) (sx : Bool) : Statement (.strq g la d c k size sx) := of_full rfl (by simp)
theorem strend (k : BitVec 5) : Statement (.strend k) := of_full rfl (by simp)
theorem spawn (d : Opnd) (a : Fin 64) (b : Fin 128) : Statement (.spawn d a b) := of_full rfl (by simp)
theorem spawnedWaveReady (core ctx : Nat) : Statement (.spawnedWaveReady core ctx) := of_none rfl
theorem task (g : Guard) (d a b c : Opnd) : Statement (.task g d a b c) := of_full rfl (by simp)
theorem mma (o : MmaOp) : Statement (.mma o) := of_full rfl (by simp)
theorem mmaSp (o : MmaOp) : Statement (.mmaSp o) := of_full rfl (by simp)
theorem vmx (g : Guard) (la : BitVec 4) (d a b : Fin 128) (fb : Fin 64) (kk : BitVec 2) : Statement (.vmx g la d a b fb kk) := of_full rfl (by simp)
theorem mfence : Statement .mfence := of_full rfl (by simp)
theorem mwait (a : Opnd) : Statement (.mwait a) := of_full rfl (by simp)
theorem azero (n c : BitVec 5) : Statement (.azero n c) := of_full rfl (by simp)
theorem aepi (g : Guard) (n : BitVec 5) (a b : Opnd) (act : Act) (zc : Bool) (fmt : EpiFmt) : Statement (.aepi g n a b act zc fmt) := of_full rfl (by simp)
theorem amax (g : Guard) (la : BitVec 4) (d : Fin 128) (a : Opnd) (n : BitVec 5) (i32 : Bool) : Statement (.amax g la d a n i32) := of_full rfl (by simp)
theorem scldef (id : BitVec 8) (a : Fin 64) (b : Opnd) : Statement (.scldef id a b) := of_full rfl (by simp)
theorem sclinv (id : Option (BitVec 8)) : Statement (.sclinv id) := of_full rfl (by simp)
theorem matrixStart (core qid : Nat) : Statement (.matrixStart core qid) := of_none rfl
theorem scaleLineFill (core id line : Nat) : Statement (.scaleLineFill core id line) := of_none rfl
theorem matrixComplete (core qid : Nat) : Statement (.matrixComplete core qid) := of_none rfl
theorem matrixFault (core qid : Nat) (k : MFaultKind) : Statement (.matrixFault core qid k) := of_none rfl
theorem rrot (a b : Opnd) (k : BitVec 6) : Statement (.rrot a b k) := of_full rfl (by simp)
theorem rrotGenerationStart (cluster : Nat) : Statement (.rrotGenerationStart cluster) := of_none rfl
theorem rrotTransferDone (cluster member : Nat) : Statement (.rrotTransferDone cluster member) := of_none rfl
theorem xst (g : Guard) (d a b : Opnd) (off : BitVec 8) (size : Size) : Statement (.xst g d a b off size) := of_full rfl (by simp)
theorem xstElementWrite (cluster idx : Nat) : Statement (.xstElementWrite cluster idx) := of_none rfl
theorem xswap : Statement .xswap := of_full rfl (by simp)
theorem xswapExchange (cluster : Nat) : Statement (.xswapExchange cluster) := of_none rfl
theorem cbar : Statement .cbar := of_full rfl (by simp)
theorem cbarComplete (cluster : Nat) : Statement (.cbarComplete cluster) := of_none rfl
theorem clusterAtomic (cluster idx : Nat) : Statement (.clusterAtomic cluster idx) := of_none rfl
theorem clusterLineRecall (cluster line : Nat) : Statement (.clusterLineRecall cluster line) := of_none rfl
theorem clusterClaimTimeout (cluster line : Nat) : Statement (.clusterClaimTimeout cluster line) := of_none rfl
theorem currentRequest (core : Nat) (r : Requester) : Statement (.currentRequest core r) := of_none rfl
theorem currentGrant (cluster : Nat) : Statement (.currentGrant cluster) := of_none rfl
theorem currentGrantTimeout (cluster : Nat) : Statement (.currentGrantTimeout cluster) := of_none rfl
theorem currentReservationLapse (core : Nat) (r : Requester) : Statement (.currentReservationLapse core r) := of_none rfl
theorem grid (la : BitVec 4) (d : Fin 128) (c : Opnd) : Statement (.grid la d c) := of_full rfl (by simp)
theorem gridDelivery (core ctx : Nat) : Statement (.gridDelivery core ctx) := of_none rfl
theorem gderiv (g : Guard) (d a : Fin 128) (b : Opnd) (v : Bool) : Statement (.gderiv g d a b v) := of_full rfl (by simp)
theorem tex (g : Guard) (la : BitVec 4) (d a : Fin 128) (b : Fin 64) (c : Fin 128) : Statement (.tex g la d a b c) := of_full rfl (by simp)
theorem texLz (g : Guard) (la : BitVec 4) (d a : Fin 128) (b : Fin 64) : Statement (.texLz g la d a b) := of_full rfl (by simp)
theorem gemit (d : Opnd) (a b : Fin 128) (c : Opnd) : Statement (.gemit d a b c) := of_full rfl (by simp)
theorem kbres (a : Opnd) (k : BitVec 6) : Statement (.kbres a k) := of_full rfl (by simp)
theorem kbufBlockResolve (cluster : Nat) : Statement (.kbufBlockResolve cluster) := of_none rfl
theorem srateGrid (d a : Opnd) : Statement (.srateGrid d a) := of_full rfl (by simp)
theorem srateCell (d a b : Opnd) : Statement (.srateCell d a b) := of_full rfl (by simp)
theorem rfbk (g : Guard) (a b : Opnd) : Statement (.rfbk g a b) := of_full rfl (by simp)
theorem dicePatch (cluster : Nat) : Statement (.dicePatch cluster) := of_none rfl
theorem btagAlloc (la : BitVec 4) (d : Opnd) : Statement (.btagAlloc la d) := of_full rfl (by simp)
theorem btagFree (la : BitVec 4) (a : Opnd) : Statement (.btagFree la a) := of_full rfl (by simp)
theorem bsend (d a : Opnd) (b : Fin 64) (c : Opnd) (comb : Combine) (fromC : Bool) : Statement (.bsend d a b c comb fromC) := of_full rfl (by simp)
theorem bsendTagCheckAnswer (at_ : Cursor) : Statement (.bsendTagCheckAnswer at_) := of_none rfl
theorem bstatSnd (d : Opnd) : Statement (.bstatSnd d) := of_full rfl (by simp)
theorem bstatRcv (d : Opnd) : Statement (.bstatRcv d) := of_full rfl (by simp)
theorem bridleOperandArrival (idx : Nat) : Statement (.bridleOperandArrival idx) := of_none rfl
theorem bridleHeldDelivery (unit entry : Nat) : Statement (.bridleHeldDelivery unit entry) := of_none rfl
theorem bridleOrphanTimeout (unit entry : Nat) : Statement (.bridleOrphanTimeout unit entry) := of_none rfl
theorem icinv (sc : Fin 3) : Statement (.icinv sc) := of_full rfl (by simp)
theorem trapret : Statement .trapret := of_full rfl (by simp)
theorem trapretRetry : Statement .trapretRetry := of_full rfl (by simp)
theorem yield : Statement .yield := of_full rfl (by simp)
theorem yieldP : Statement .yieldP := of_full rfl (by simp)
theorem sleep (a : Opnd) : Statement (.sleep a) := of_full rfl (by simp)
theorem sleepExpiry (at_ : Cursor) : Statement (.sleepExpiry at_) := of_none rfl
theorem wake (grid wg wave : Nat) : Statement (.wake grid wg wave) := of_none rfl
theorem brk (g : Guard) (code : BitVec 16) : Statement (.brk g code) := of_full rfl (by simp)
theorem perfRd (d : Fin 64) (k : Fin 8) : Statement (.perfRd d k) := of_full rfl (by simp)
theorem perfMark (a : Opnd) : Statement (.perfMark a) := of_full rfl (by simp)
theorem halfAdd (h : Half) : Statement (.halfAdd h) := of_pair fun _ h => ⟨_, _, (Option.some.inj h).symm⟩
theorem halfSub (h : Half) : Statement (.halfSub h) := of_pair fun _ h => ⟨_, _, (Option.some.inj h).symm⟩
theorem halfAnd (h : Half) : Statement (.halfAnd h) := of_pair fun _ h => ⟨_, _, (Option.some.inj h).symm⟩
theorem halfOr (h : Half) : Statement (.halfOr h) := of_pair fun _ h => ⟨_, _, (Option.some.inj h).symm⟩
theorem halfXor (h : Half) : Statement (.halfXor h) := of_pair fun _ h => ⟨_, _, (Option.some.inj h).symm⟩
theorem halfShl (h : Half) : Statement (.halfShl h) := of_pair fun _ h => ⟨_, _, (Option.some.inj h).symm⟩
theorem halfShr (h : Half) : Statement (.halfShr h) := of_pair fun _ h => ⟨_, _, (Option.some.inj h).symm⟩
theorem halfSar (h : Half) : Statement (.halfSar h) := of_pair fun _ h => ⟨_, _, (Option.some.inj h).symm⟩
theorem halfMin (h : Half) : Statement (.halfMin h) := of_pair fun _ h => ⟨_, _, (Option.some.inj h).symm⟩
theorem halfMax (h : Half) : Statement (.halfMax h) := of_pair fun _ h => ⟨_, _, (Option.some.inj h).symm⟩
theorem halfMov (h : Half) : Statement (.halfMov h) := of_pair fun _ h => ⟨_, _, (Option.some.inj h).symm⟩
theorem hnop : Statement .hnop := of_pair fun _ h => ⟨_, _, (Option.some.inj h).symm⟩
theorem halfFadd (h : Half) : Statement (.halfFadd h) := of_pair fun _ h => ⟨_, _, (Option.some.inj h).symm⟩
theorem halfFmul (h : Half) : Statement (.halfFmul h) := of_pair fun _ h => ⟨_, _, (Option.some.inj h).symm⟩
theorem halfFmin (h : Half) : Statement (.halfFmin h) := of_pair fun _ h => ⟨_, _, (Option.some.inj h).symm⟩
theorem halfFmax (h : Half) : Statement (.halfFmax h) := of_pair fun _ h => ⟨_, _, (Option.some.inj h).symm⟩
theorem halfFsub (h : Half) : Statement (.halfFsub h) := of_pair fun _ h => ⟨_, _, (Option.some.inj h).symm⟩
theorem pfxM (m : PfxM) : Statement (.pfxM m) := of_pair fun _ h => ⟨_, _, (Option.some.inj h).symm⟩
theorem pfxI (hi : BitVec 13) : Statement (.pfxI hi) := of_pair fun _ h => ⟨_, _, (Option.some.inj h).symm⟩
theorem coreCycleIssue (core : Nat) : Statement (.coreCycleIssue core) := of_none rfl
theorem classWaitExpiry (core : Nat) : Statement (.classWaitExpiry core) := of_none rfl
theorem preemptionRequest (t : PreTarget) : Statement (.preemptionRequest t) := of_none rfl
theorem waveDrainComplete (core ctx : Nat) : Statement (.waveDrainComplete core ctx) := of_none rfl
theorem contextSave (core ctx : Nat) : Statement (.contextSave core ctx) := of_none rfl
theorem workgroupEvict (wg : Nat) : Statement (.workgroupEvict wg) := of_none rfl
theorem waveResume (saved : Nat) (core : Nat) : Statement (.waveResume saved core) := of_none rfl
theorem globalAccessTranslated (at_ : Cursor) : Statement (.globalAccessTranslated at_) := of_none rfl
theorem pageTableWalk (walker : Nat) : Statement (.pageTableWalk walker) := of_none rfl
theorem sliceRequest (slice pos : Nat) : Statement (.sliceRequest slice pos) := of_none rfl
theorem l2MissFill (slice line : Nat) : Statement (.l2MissFill slice line) := of_none rfl
theorem l1Fill (core idx : Nat) : Statement (.l1Fill core idx) := of_none rfl
theorem loadResponse (core ctx acc : Nat) : Statement (.loadResponse core ctx acc) := of_none rfl
theorem storeCompletion (core ctx acc : Nat) : Statement (.storeCompletion core ctx acc) := of_none rfl
theorem channelAccessTimeout (chan idx : Nat) : Statement (.channelAccessTimeout chan idx) := of_none rfl
theorem uncorrectableError (e : ErrSite) : Statement (.uncorrectableError e) := of_none rfl
theorem workgroupDispatch : Statement .workgroupDispatch := of_none rfl
theorem gangDispatch (grid : Nat) : Statement (.gangDispatch grid) := of_none rfl
theorem gridEnd (grid : Nat) : Statement (.gridEnd grid) := of_none rfl
theorem thermalSample (temps : List Nat) : Statement (.thermalSample temps) := of_none rfl
theorem gathererPop (cluster grid : Nat) : Statement (.gathererPop cluster grid) := of_none rfl
theorem gathererBinTimeout (cluster bin : Nat) : Statement (.gathererBinTimeout cluster bin) := of_none rfl
theorem taskBinLaunch (cluster bin : Nat) : Statement (.taskBinLaunch cluster bin) := of_none rfl
theorem chainAdmission (stream : Nat) : Statement (.chainAdmission stream) := of_none rfl
theorem densityCheckpoint (stream : Nat) : Statement (.densityCheckpoint stream) := of_none rfl
theorem chainCommit (stream : Nat) : Statement (.chainCommit stream) := of_none rfl
theorem stripLate (stream : Nat) : Statement (.stripLate stream) := of_none rfl
theorem chainEarlyStart (stream : Nat) : Statement (.chainEarlyStart stream) := of_none rfl
theorem chainConfirmOrSquash (stream : Nat) : Statement (.chainConfirmOrSquash stream) := of_none rfl
theorem tetherCopy (stream strip : Nat) (lower : Bool) : Statement (.tetherCopy stream strip lower) := of_none rfl
theorem haloSubstituted (stream : Nat) (lower : Bool) : Statement (.haloSubstituted stream lower) := of_none rfl
theorem stripConsume (stream : Nat) : Statement (.stripConsume stream) := of_none rfl
theorem displayportLine (stream : Nat) : Statement (.displayportLine stream) := of_none rfl
theorem av1FrameEncode (stream : Nat) : Statement (.av1FrameEncode stream) := of_none rfl
theorem av1QovrRead (stream : Nat) : Statement (.av1QovrRead stream) := of_none rfl
theorem st2110LineSend (stream : Nat) : Statement (.st2110LineSend stream) := of_none rfl
theorem cpNop (cp : Nat) : Statement (.cpNop cp) := of_none rfl
theorem cpLaunch (cp : Nat) : Statement (.cpLaunch cp) := of_none rfl
theorem cpIb (cp : Nat) : Statement (.cpIb cp) := of_none rfl
theorem cpLoop (cp : Nat) : Statement (.cpLoop cp) := of_none rfl
theorem cpPred (cp : Nat) : Statement (.cpPred cp) := of_none rfl
theorem cpWaitmem (cp : Nat) : Statement (.cpWaitmem cp) := of_none rfl
theorem cpWrite (cp : Nat) : Statement (.cpWrite cp) := of_none rfl
theorem cpFence (cp : Nat) : Statement (.cpFence cp) := of_none rfl
theorem cpFetchfence (cp : Nat) : Statement (.cpFetchfence cp) := of_none rfl
theorem cpEvent (cp : Nat) : Statement (.cpEvent cp) := of_none rfl
theorem cpTimewait (cp : Nat) : Statement (.cpTimewait cp) := of_none rfl
theorem cpStripcfg (cp : Nat) : Statement (.cpStripcfg cp) := of_none rfl
theorem cpStreamcfg (cp : Nat) : Statement (.cpStreamcfg cp) := of_none rfl
theorem cpHalt (cp : Nat) : Statement (.cpHalt cp) := of_none rfl
theorem irsinWrite (h : IrsinHdr) (addr : Nat) (data : List Byte) : Statement (.irsinWrite h addr data) := of_none rfl
theorem irsinReadRequest (h : IrsinHdr) (addr len : Nat) : Statement (.irsinReadRequest h addr len) := of_none rfl
theorem irsinReadResponse (h : IrsinHdr) (tag : Nat) (data : List Byte) : Statement (.irsinReadResponse h tag data) := of_none rfl
theorem irsinAtomicRequest (h : IrsinHdr) (addr : Nat) (op : HostAtomic) (data : List Byte) : Statement (.irsinAtomicRequest h addr op data) := of_none rfl
theorem irsinAtomicResponse (h : IrsinHdr) (tag : Nat) (old : List Byte) : Statement (.irsinAtomicResponse h tag old) := of_none rfl
theorem irsinTailUpdate (h : IrsinHdr) (cp tail : Nat) : Statement (.irsinTailUpdate h cp tail) := of_none rfl
theorem irsinEvent (conn : Nat) : Statement (.irsinEvent conn) := of_none rfl
theorem irsinManagementRequest (h : IrsinHdr) (r : MgmtReq) : Statement (.irsinManagementRequest h r) := of_none rfl
theorem irsinAck (h : IrsinHdr) : Statement (.irsinAck h) := of_none rfl
theorem irsinConnect (h : IrsinHdr) : Statement (.irsinConnect h) := of_none rfl
theorem irsinClose (h : IrsinHdr) : Statement (.irsinClose h) := of_none rfl
theorem irsinRetransmitTimeout (conn seq : Nat) : Statement (.irsinRetransmitTimeout conn seq) := of_none rfl
theorem mgmtReadStatus : Statement .mgmtReadStatus := of_none rfl
theorem mgmtPlaceAreas : Statement .mgmtPlaceAreas := of_none rfl
theorem mgmtSetPower : Statement .mgmtSetPower := of_none rfl
theorem mgmtWriteRule : Statement .mgmtWriteRule := of_none rfl
theorem mgmtWritePlacement : Statement .mgmtWritePlacement := of_none rfl
theorem mgmtSetPerfCounter : Statement .mgmtSetPerfCounter := of_none rfl
theorem mgmtSetOrphanTimeout : Statement .mgmtSetOrphanTimeout := of_none rfl
theorem mgmtPlaceRbase : Statement .mgmtPlaceRbase := of_none rfl
theorem mgmtInvalidateTranslations : Statement .mgmtInvalidateTranslations := of_none rfl
theorem mgmtCommandProcessor : Statement .mgmtCommandProcessor := of_none rfl
theorem mgmtPreempt : Statement .mgmtPreempt := of_none rfl
theorem mgmtWake : Statement .mgmtWake := of_none rfl
theorem mgmtResumeBreakpoint : Statement .mgmtResumeBreakpoint := of_none rfl
theorem mgmtAssignTaskQueue : Statement .mgmtAssignTaskQueue := of_none rfl
theorem mgmtSetPtp : Statement .mgmtSetPtp := of_none rfl
theorem mgmtAttestation : Statement .mgmtAttestation := of_none rfl
theorem mgmtMapHostWindow : Statement .mgmtMapHostWindow := of_none rfl
theorem ptpMessage (offset : Int) : Statement (.ptpMessage offset) := of_none rfl
theorem ptpLock (time : BitVec 64) : Statement (.ptpLock time) := of_none rfl
theorem ptpLossOfLock : Statement .ptpLossOfLock := of_none rfl
theorem ethernetLinkChange (up : Bool) : Statement (.ethernetLinkChange up) := of_none rfl
theorem intervalBoundary : Statement .intervalBoundary := of_none rfl
theorem sensorSample (packages regulators : List Nat) : Statement (.sensorSample packages regulators) := of_none rfl
theorem reset (img : BootImage) : Statement (.reset img) := of_none rfl
theorem readyBitSet (bit : Nat) : Statement (.readyBitSet bit) := of_none rfl
theorem registerWrite (r : CfgReg) (value : Nat) : Statement (.registerWrite r value) := of_none rfl
theorem matrixReadComplete (core qid : Nat) : Statement (.matrixReadComplete core qid) := of_none rfl
theorem timewaitTimeReached (cp : Nat) : Statement (.timewaitTimeReached cp) := of_none rfl
theorem waitmemReread (cp : Nat) : Statement (.waitmemReread cp) := of_none rfl
theorem irsinWriteAckDue (idx : Nat) : Statement (.irsinWriteAckDue idx) := of_none rfl
theorem recoveryChannelRequest (r : RecoveryReq) : Statement (.recoveryChannelRequest r) := of_none rfl

end Laws.EZero

end Sys2Proof
end

