-- ==== Sys2Proof/Laws/Units.lean ====
section
/-! SUPPORT. What a step of a unit can do, and what its accesses leave alone while they are on their way: one lemma per shared
operation of HostPort and Units. -/

namespace Sys2Proof.Machine

/-! ### Sending: no byte of memory changes, and no register of a wave -/

theorem State.emit_frame (s : State) (o : Out) :
    (s.emit o).mem = s.mem ∧ (s.emit o).ring = s.ring ∧ (s.emit o).cores = s.cores ∧ (s.emit o).asks = s.asks := by
  unfold State.emit; split <;> exact ⟨rfl, rfl, rfl, rfl⟩

theorem State.sendPkt_frame (s : State) (conn opcode addr flags : Nat) (bs : List Byte) :
    (s.sendPkt conn opcode addr flags bs).mem = s.mem ∧ (s.sendPkt conn opcode addr flags bs).cores = s.cores := by
  unfold State.sendPkt
  simp only []
  split
  · unfold State.sendNow
    exact ⟨(State.emit_frame _ _).1, (State.emit_frame _ _).2.2.1⟩
  · split <;> exact ⟨rfl, rfl⟩

theorem State.engSend_frame (s : State) (r : Req) (w : Bool) (n : Nat) (bs : List Byte) :
    (s.engSend r w n bs).mem = s.mem ∧ (s.engSend r w n bs).ring = s.ring ∧ (s.engSend r w n bs).cores = s.cores
      ∧ (s.engSend r w n bs).asks = s.asks := by
  unfold State.engSend; split <;> exact ⟨rfl, rfl, rfl, rfl⟩

/-- An access that a unit sends stands among its asks, under a new tag, and nothing has been done yet. -/
theorem State.post_spec (s : State) (w : Who) (op : AskOp) (f : AskFor) (pa n : Nat) :
    (s.post w op f pa n).mem = s.mem ∧ (s.post w op f pa n).ring = s.ring ∧ (s.post w op f pa n).cores = s.cores
      ∧ (s.post w op f pa n).asks = s.asks ++ [⟨s.nextTag, w.src, w.key, pa, n, op, w.chain, f, none, 0, 0⟩] := by
  unfold State.post
  simp only []
  exact ⟨(State.engSend_frame _ _ _ _ _).1, (State.engSend_frame _ _ _ _ _).2.1, (State.engSend_frame _ _ _ _ _).2.2.1,
    (State.engSend_frame _ _ _ _ _).2.2.2⟩

/-- A run of sends, each a post, changes no byte of memory and no core. -/
theorem State.foldl_post_frame {α : Type} (f : State → α → State)
    (hf : ∀ (s : State) (x : α), (f s x).mem = s.mem ∧ (f s x).ring = s.ring ∧ (f s x).cores = s.cores) (xs : List α) (s : State) :
    (xs.foldl f s).mem = s.mem ∧ (xs.foldl f s).ring = s.ring ∧ (xs.foldl f s).cores = s.cores := by
  induction xs generalizing s with
  | nil => exact ⟨rfl, rfl, rfl⟩
  | cons x xs ih =>
    obtain ⟨h1, h2, h3⟩ := ih (f s x)
    obtain ⟨g1, g2, g3⟩ := hf s x
    exact ⟨h1.trans g1, h2.trans g2, h3.trans g3⟩

theorem State.postParts_frame (s : State) (w : Who) (f : AskFor) (pa : Nat) (bs : List Byte) :
    (s.postParts w f pa bs).mem = s.mem ∧ (s.postParts w f pa bs).ring = s.ring ∧ (s.postParts w f pa bs).cores = s.cores := by
  unfold State.postParts
  exact State.foldl_post_frame _ (fun s (p : Nat × Nat × Nat) =>
    let h := State.post_spec s w (.write ((bs.drop p.2.2).take p.2.1)) f p.1 p.2.1
    ⟨h.1, h.2.1, h.2.2.1⟩) _ s

/-! ### Walks -/

/-- A walk that is asked for is joined, started or left to wait, and nothing else happens (R317). -/
theorem State.queueWalk_frame (s : State) (cluster : Nat) (core : Option Nat) (asid root va : Nat) (eng : List (Source × Nat)) :
    (s.queueWalk cluster core asid root va eng).mem = s.mem ∧ (s.queueWalk cluster core asid root va eng).cores = s.cores
      ∧ (s.queueWalk cluster core asid root va eng).asks = s.asks := by
  unfold State.queueWalk
  simp only []
  split
  · exact ⟨rfl, rfl, rfl⟩
  · split <;> exact ⟨rfl, rfl, rfl⟩

/-! ### A step of a unit -/

@[simp] theorem State.stepDone_mem (s : State) (w : Who) : (s.stepDone w).mem = s.mem := rfl
@[simp] theorem State.stepDone_ring (s : State) (w : Who) : (s.stepDone w).ring = s.ring := rfl
@[simp] theorem State.stepDone_cores (s : State) (w : Who) : (s.stepDone w).cores = s.cores := rfl
@[simp] theorem State.stepDone_clusters (s : State) (w : Who) : (s.stepDone w).clusters = s.clusters := rfl
@[simp] theorem State.stepDone_slices (s : State) (w : Who) : (s.stepDone w).slices = s.slices := rfl
@[simp] theorem State.stepDone_wgs (s : State) (w : Who) : (s.stepDone w).wgs = s.wgs := rfl
@[simp] theorem State.stepDone_grids (s : State) (w : Who) : (s.stepDone w).grids = s.grids := rfl
@[simp] theorem State.stepDone_cps (s : State) (w : Who) : (s.stepDone w).cps = s.cps := rfl
@[simp] theorem State.stepDone_streams (s : State) (w : Who) : (s.stepDone w).streams = s.streams := rfl
@[simp] theorem State.stepDone_chains (s : State) (w : Who) : (s.stepDone w).chains = s.chains := rfl
@[simp] theorem State.stepDone_out (s : State) (w : Who) : (s.stepDone w).out = s.out := rfl

/-- What a step of a unit can come to: it asks for what it needs, or it is done with its answers used up. -/
theorem State.unitStep_cases {s t : State} {w : Who} {r : Rd (Option State)} (h : s.unitStep w r = some t) :
    (∃ n, r = .error n ∧ s.demand n = some t) ∨ (∃ u, r = .ok (some u) ∧ t = u.stepDone w) := by
  match r, h with
  | .error n, h => exact .inl ⟨n, rfl, h⟩
  | .ok (some u), h => exact .inr ⟨u, rfl, (Option.some.inj h).symm⟩

/-- What an instruction that needs a unit can come to: it waits at its PC, or it goes on. -/
theorem State.unitWait_cases {α : Type} {s t : State} {w : Who} {r : Rd α} {f : State → α → Except TrapReq State}
    (h : s.unitWait w r f = .ok t) :
    (∃ n, r = .error n ∧ t = ((s.demand n).getD s).needWait) ∨ (∃ x, r = .ok x ∧ f (s.stepDone w) x = .ok t) := by
  match r, h with
  | .error n, h => exact .inl ⟨n, rfl, (Except.ok.inj h).symm⟩
  | .ok x, h => exact .inr ⟨x, rfl, h⟩

end Sys2Proof.Machine
end

