-- ==== Sys2Proof/Tests/Slice0.lean ====
section
/-! SUPPORT. The model's own tests: decoding written out from the spec's encoding tables (R62 to R65 and the instruction tables), an
ill-formed term for every check of WellFormed, the spec's worked examples, and a witness for the hypotheses of every statement. -/
namespace Sys2Proof.Tests
open Sys2Proof.Machine
set_option Elab.async false

theorem test_reset_memory : State.reset.mem = [] := rfl

/-! ### Decoding (R43, R51): each word is written from the fields its entry gives -/

/-- A full form by the fields of R43, the entry mark clear. -/
def full (l op g d a b c8 m : Nat) : Nat :=
  l * 2 ^ 57 + op * 2 ^ 47 + g * 2 ^ 43 + d * 2 ^ 35 + a * 2 ^ 27 + b * 2 ^ 19 + c8 * 2 ^ 11 + m

/-- A full form whose C is one field of 19 bits. -/
def fullC (op g d a b c : Nat) : Nat := full 0 op g d a b 0 0 + c

/-- A half by the fields of R51, in the high slot above a half no-op (R53). -/
def high (oph guard d s : Nat) : Nat :=
  2 ^ 62 + (oph * 2 ^ 22 + guard * 2 ^ 20 + d * 2 ^ 13 + s * 2 ^ 4) * 2 ^ 31 + 0x0A * 2 ^ 22 * 2

def reads (l : List (Nat × Instr)) : Bool := l.all fun p => decodeTableWord 64 p.1 == some p.2

/-- R103 to R111. -/
theorem test_decode_integer : reads [
    (0x000038A0AFFA3456, .add ⟨⟨false, 7⟩, .v 20, .v 21, .imm 0x23456#19⟩ .i32),
    (full 0 0x001 7 0x18 0x19 0x85 0xFF 1, .sub ⟨⟨false, 7⟩, .v 24, .v 25, .reg (.s 5)⟩ .n32),
    (full 0 0x002 0xA 0x01 0x02 0xF3 0xFF 0, .mulLo ⟨⟨true, 2⟩, .v 1, .v 2, .reg (.k 3)⟩ .i32),
    (full 0 0x003 7 0x01 0x02 0x03 0xFF 1, .mulHi ⟨⟨false, 7⟩, .v 1, .v 2, .reg (.v 3)⟩ .n32),
    (full 0 0x004 7 0x01 0x02 0x03 0x04 1, .mad ⟨⟨false, 7⟩, .v 1, .v 2, .v 3, .v 4⟩ .n32),
    (fullC 0x005 7 0x01 0x02 0xFF 0x7FFFF, .min ⟨⟨false, 7⟩, .v 1, .v 2, .imm 0x7FFFF#19⟩ .i32),
    (full 0 0x006 7 0xC1 0x82 0xC3 0xFF 0, .max ⟨⟨false, 7⟩, .wg 1, .s 2, .reg (.wg 3)⟩ .i32),
    (full 0 0x007 7 0x01 0x02 0xFF 0xFF 0, .abs ⟨⟨false, 7⟩, .v 1, .v 2⟩),
    (full 0 0x008 7 0x01 0x02 0x03 0xFF 0, .and ⟨⟨false, 7⟩, .v 1, .v 2, .reg (.v 3)⟩),
    (full 0 0x009 7 0x01 0x02 0x03 0xFF 0, .or ⟨⟨false, 7⟩, .v 1, .v 2, .reg (.v 3)⟩),
    (0x000538D8A427F800, .xor ⟨⟨false, 7⟩, .v 27, .v 20, .reg (.s 4)⟩),
    (full 0 0x00B 7 0x01 0x02 0x03 0x04 0x96, .lop3 ⟨⟨false, 7⟩, .v 1, .v 2, .v 3, .v 4⟩ 0x96#8),
    (fullC 0x00C 7 0x01 0x02 0xFF 3, .shl ⟨⟨false, 7⟩, .v 1, .v 2, .imm 3#19⟩),
    (full 0 0x00D 7 0x01 0x02 0x03 0xFF 0, .shr ⟨⟨false, 7⟩, .v 1, .v 2, .reg (.v 3)⟩),
    (full 0 0x00E 7 0x01 0x02 0x03 0xFF 0, .sar ⟨⟨false, 7⟩, .v 1, .v 2, .reg (.v 3)⟩),
    (full 0 0x00F 7 0x01 0x02 0x03 0xFF 0, .rot ⟨⟨false, 7⟩, .v 1, .v 2, .reg (.v 3)⟩),
    (full 0 0x010 7 0x01 0x02 0x03 0xFF 1, .bfe ⟨⟨false, 7⟩, .v 1, .v 2, .reg (.v 3)⟩ true),
    (full 0 0x011 7 0x01 0x02 0x03 0xFF 0, .bfi ⟨⟨false, 7⟩, .v 1, .v 2, .reg (.v 3)⟩),
    (full 0 0x012 7 0x01 0x02 0xFF 0xFF 0, .popc ⟨⟨false, 7⟩, .v 1, .v 2⟩),
    (full 0 0x013 7 0x01 0x02 0xFF 0xFF 0, .clz ⟨⟨false, 7⟩, .v 1, .v 2⟩),
    (full 0 0x014 7 0x01 0x02 0xFF 0xFF 0, .brev ⟨⟨false, 7⟩, .v 1, .v 2⟩),
    (full 0 0x015 7 0x01 0x02 0x84 0xFF 0, .addW ⟨⟨false, 7⟩, .v 1, .v 2, .reg (.s 4)⟩),
    (full 0 0x016 7 0x01 0x02 0x03 0xFF 0xA, .lea ⟨⟨false, 7⟩, .v 1, .v 2, .reg (.v 3)⟩ 2 true),
    (full 0 0x017 7 0xD1 0x02 0x03 0xFF 0x2A, .cmp ⟨⟨false, 7⟩, .p 1, .v 2, .v 3⟩ .lt .n32 .or),
    (full 0 0x018 7 0x01 0x02 0x03 0xD4 0, .sel ⟨⟨false, 7⟩, .v 1, .v 2, .v 3, .p 4⟩),
    (full 0 0x019 7 0x01 0xFA 0xFF 0xFF 0, .mov ⟨⟨false, 7⟩, .v 1, .k 10⟩),
    (fullC 0x01A 7 0x84 0xFF 0xFF 0x40000, .movi ⟨false, 7⟩ (.s 4) 0x40000#19),
    (full 0 0x01B 7 0xD1 0xD2 0xD3 0xD7 0xA8, .plop ⟨⟨false, 7⟩, .p 1, .p 2, .p 3, .p 7⟩ 0xA8#8),
    (full 0 0x01C 7 0x01 0x02 0x03 0x04 1, .dp4 ⟨⟨false, 7⟩, .v 1, .v 2, .v 3, .v 4⟩ true false)] = true := by decide +kernel

/-- R113 to R127. -/
theorem test_decode_float : reads [
    (0x202038F0F0FFF800, .fadd ⟨⟨false, 7⟩, .v 30, .v 30, .reg (.v 31)⟩),
    (full 0 0x041 7 0x01 0x02 0x03 0xFF 0, .fsub ⟨⟨false, 7⟩, .v 1, .v 2, .reg (.v 3)⟩),
    (0x002150D047AFF800, .fmul ⟨⟨true, 2⟩, .v 26, .v 8, .reg (.k 5)⟩),
    (0x2021B84018202800, .ffma ⟨⟨false, 7⟩, .v 8, .v 3, .v 4, .v 5⟩),
    (full 0 0x044 7 0x01 0x02 0x03 0xFF 1, .fmin ⟨⟨false, 7⟩, .v 1, .v 2, .reg (.v 3)⟩ true),
    (full 0 0x045 7 0x01 0x02 0x03 0xFF 0, .fmax ⟨⟨false, 7⟩, .v 1, .v 2, .reg (.v 3)⟩ false),
    (full 0 0x046 7 0xD1 0x02 0x03 0xFF 0x1A, .fcmp ⟨⟨false, 7⟩, .p 1, .v 2, .v 3⟩ .lt true .and),
    (full 0 0x047 7 0xD1 0x02 0xFF 0xFF 0x101, .fclass ⟨⟨false, 7⟩, .p 1, .v 2⟩ 0x101#9),
    (full 0 0x048 7 0x01 0x02 0xFF 0xFF 0, .frnd ⟨⟨false, 7⟩, .v 1, .v 2⟩),
    (full 0 0x049 7 0x01 0x02 0xFF 0xFF 0, .ffrac ⟨⟨false, 7⟩, .v 1, .v 2⟩),
    (full 0 0x04A 7 0x01 0x02 0xFF 0xFF 0, .frcp ⟨⟨false, 7⟩, .v 1, .v 2⟩),
    (full 0 0x04B 7 0x01 0x02 0xFF 0xFF 0, .frsq ⟨⟨false, 7⟩, .v 1, .v 2⟩),
    (full 0 0x04C 7 0x01 0x02 0xFF 0xFF 0, .fsqrt ⟨⟨false, 7⟩, .v 1, .v 2⟩),
    (full 0 0x04D 7 0x01 0x02 0xFF 0xFF 0, .fexp2 ⟨⟨false, 7⟩, .v 1, .v 2⟩),
    (full 0 0x04E 7 0x01 0x02 0xFF 0xFF 0, .flog2 ⟨⟨false, 7⟩, .v 1, .v 2⟩),
    (full 0 0x04F 7 0x01 0x02 0xFF 0xFF 0, .fsin ⟨⟨false, 7⟩, .v 1, .v 2⟩),
    (full 0 0x050 7 0x01 0x02 0xFF 0xFF 0, .fcos ⟨⟨false, 7⟩, .v 1, .v 2⟩),
    (full 0 0x051 7 0x01 0x02 0xFF 0xFF 0, .ftanh ⟨⟨false, 7⟩, .v 1, .v 2⟩),
    (full 0 0x052 7 0x01 0x02 0x03 0xFF 1, .hadd2 ⟨⟨false, 7⟩, .v 1, .v 2, .v 3⟩ true),
    (full 0 0x053 7 0x01 0x02 0x03 0xFF 0, .hmul2 ⟨⟨false, 7⟩, .v 1, .v 2, .v 3⟩ false),
    (full 0 0x054 7 0x01 0x02 0x03 0x04 1, .hfma2 ⟨⟨false, 7⟩, .v 1, .v 2, .v 3, .v 4⟩ true),
    (full 0 0x055 7 0x01 0x02 0x03 0x04 0, .fdot2 ⟨⟨false, 7⟩, .v 1, .v 2, .v 3, .v 4⟩ false),
    (full 0 0x056 7 0x01 0x02 0x03 0xFF 0, .fdiv ⟨⟨false, 7⟩, .v 1, .v 2, .v 3⟩),
    (full 0 0x080 7 0x01 0x02 0xFF 0xFF 0x69, .cvt ⟨⟨false, 7⟩, .v 1, .v 2⟩ .e4m3 .f32),
    (full 0 0x081 7 0x01 0x02 0x03 0xFF 2, .pack2 ⟨⟨false, 7⟩, .v 1, .v 2, .v 3⟩ .i16),
    (full 0 0x082 7 0x01 0x02 0x03 0x04 1, .pack4 ⟨⟨false, 7⟩, .v 1, .v 2, .v 3, .v 4⟩ .e5m2),
    (full 0 0x083 7 0x01 0x02 0xFF 0xFF 0x12, .unpack ⟨⟨false, 7⟩, .v 1, .v 2⟩ .e4m3 2),
    (full 0 0x084 7 0x01 0x02 0xFF 0xFF 1, .qblk ⟨⟨false, 7⟩, .v 1, .v 2⟩ true),
    (full 0 0x085 7 0x01 0x02 0xFF 0xFF 0, .dqblk ⟨⟨false, 7⟩, .v 1, .v 2⟩),
    (full 0 0x086 7 0x01 0x02 0x03 0xFF 3, .i4g ⟨⟨false, 7⟩, .v 1, .v 2, .v 3⟩ 3)] = true := by decide +kernel

/-- R129 to R136, R139. -/
theorem test_decode_wave_and_control : reads [
    (full 0 0x0C0 7 0xD1 0xD2 0xFF 0xFF 3, .vote ⟨⟨false, 7⟩, .p 1, .p 2⟩ .agree),
    (full 0 0x0C1 7 0x01 0x02 0x03 0xFF (3 * 4 + 1), .shfl ⟨⟨false, 7⟩, .v 1, .v 2, .v 3⟩ .mir 3),
    (0x00613C2047FFF808, .redux ⟨⟨false, 7⟩, .s 4, .v 8⟩ .fadd),
    (full 0 0x0C3 7 0x01 0x02 0xFF 0xFF 0x10, .scan ⟨⟨false, 7⟩, .v 1, .v 2⟩ .addI32 true),
    (full 0 0x0C4 7 0x01 0x02 0xFF 0xFF 0, .tagof ⟨⟨false, 7⟩, .v 1, .v 2⟩),
    (full 0 0x0C5 7 0x01 0x82 0x83 0xFF 0, .mkaff ⟨⟨false, 7⟩, .v 1, .s 2, .reg (.s 3)⟩),
    (fullC 0x0C6 7 0x84 0xFF 0xFF 0x0F, .movs ⟨false, 7⟩ (.s 4) .class),
    (fullC 0x0C7 7 0xFF 0x84 0xFF 0x0B, .setsr .uconf (.s 4)),
    (0x006439401FF80105, .rpf (some 40) (some 3) 0x0105#16),
    (full 0 0x0C9 7 0x01 0x02 0x83 0xFF 0, .rdlane ⟨⟨false, 7⟩, .v 1, .v 2, .reg (.s 3)⟩),
    (fullC 0x100 0xA 0xFF 0x84 0xFF 0x7FFFE, .br ⟨true, 2⟩ (.s 4) 0x7FFFE#19),
    (0x00809007FFF80003, .brD ⟨false, 2⟩ false 3#19),
    (full 0 0x102 7 0xFF 0xFF 0x84 0xFF 0, .jmp (.reg 4)),
    (fullC 0x103 7 0x84 0xFF 0xFF 5, .call 4 (.disp 5#19)),
    (full 0 0x104 7 0x84 0x08 0xFF 0xFF 0, .callx 4 8),
    (full 0 0x105 7 0xFF 0x84 0xFF 0xFF 0, .ret 4),
    (0x20833FFFFFFFF800, .join),
    (full 0 0x107 7 0xFF 0xFF 0xFF 0xFF 0, .conv),
    (full 0 0x108 1 0xFF 0xFF 0xFF 0xFF 0, .exit ⟨false, 1⟩),
    (fullC 0x109 7 0xFF 0xFF 0xFF 0x1234, .trap ⟨false, 7⟩ 0x1234#16),
    (full 0 0x10A 7 0xFF 0xFF 0xFF 0xFF 0, .nop),
    (fullC 0x10B 7 0x84 0xFF 0xFF 0x7FFF0, .loop 4 0x7FFF0#19),
    (fullC 0x10C 7 0xFF 0xFF 0xFF (8 * 256 + 24), .fhdr 24#8 8#8)] = true := by decide +kernel

/-- R167 to R179, R319 to R324, R330. -/
theorem test_decode_memory : reads [
    (0x04A038401FF88002, .ldA ⟨⟨false, 7⟩, 2, .v 8, .v 3, .null, 0x10#8, .b32, false⟩),
    (full 0 0x141 7 0xF0 0x83 0x04 0xFF 3, .stA ⟨⟨false, 7⟩, 0, .k 0, .s 3, .v 4, 0xFF#8, .b64, false⟩),
    (full 15 0x142 7 0x08 0x03 0xFF 0 4, .ldW ⟨⟨false, 7⟩, 15, .v 8, .v 3, .null, 0, .b128, false⟩),
    (full 1 0x143 7 0x08 0x03 0xFF 2 (5 * 64 + 2), .ldC ⟨⟨false, 7⟩, 1, .v 8, .v 3, 2, .b32, 5⟩),
    (full 0 0x144 7 0x08 0xFF 0xFF 2 (31 * 64 + 4), .stC ⟨⟨false, 7⟩, 0, .v 8, .null, 2, .b128, 31⟩),
    (full 1 0x145 7 0xFF 0x03 0x04 1 9, .atomA ⟨false, 7⟩ 1 .null (.v 3) (.v 4) 1 .addF),
    (full 1 0x146 7 0x08 0x03 0x04 0x05 0, .casA ⟨false, 7⟩ 1 (.v 8) (.v 3) (.v 4) (.v 5)),
    (full 0 0x147 7 0xFF 0x84 0xFF 3 (2 * 32 + 4), .tagset ⟨.s 4, 3, .a, true, false, 2⟩),
    (full 0 0x148 7 0xFF 0x84 0xFF 3 (8 + 1), .tagclr ⟨.s 4, 3, .w, false, true, 0⟩),
    (full 0 0x149 7 0xFF 0xFF 0xFF 3 (7 * 32 + 16 + 12 + 2), .tagwait ⟨.null, 3, .c, true, true, 7⟩ true),
    (full 3 0x180 7 0x08 0x94 0xFF 1 (16 + 8 + 1), .ldG ⟨⟨false, 7⟩, 3, .v 8, .s 20, .null, 1, .b16, true⟩ true),
    (full 0 0x181 7 0x08 0x14 0x05 1 2, .stG ⟨⟨false, 7⟩, 0, .v 8, .v 20, .v 5, 1, .b32, false⟩),
    (full 0 0x182 7 0xFF 0x94 0xFF 1 16, .prefG ⟨false, 7⟩ (.s 20) .null 1 true),
    (0x00C1BFFFFFFFF801, .fenceRel .dv), (0x00C1BFFFFFFFF802, .fenceAcq .dv),
    (0x00C1BFFFFFFFF807, .fenceFull .cl), (0x00C1BFFFFFFFF80B, .fenceFull .sy),
    (0x00C23FFF87FFF801, .waitc (.k 0) .s),
    (0x02E0382CA0301000, .atomG ⟨false, 7⟩ 1 (.v 5) (.s 20) (.v 6) 2 .add false .dv),
    (full 0 0x1C1 7 0x84 0x94 0x86 0x88 (2 * 32 + 16), .casG ⟨false, 7⟩ 0 (.s 4) (.s 20) (.s 6) (.s 8) true .sy),
    (full 0 0x1C2 7 0xD1 0x94 0x08 0xFF 2, .qpush ⟨false, 7⟩ (.p 1) (.s 20) (.v 8) .b128),
    (0x04E1B854A7FE9800, .qpop ⟨false, 7⟩ 2 (.v 10) (.s 20) (.p 3) .b32)] = true := by decide +kernel

/-- R188, R192, R199 to R202, R225, R239, R348. -/
theorem test_decode_engines : reads [
    (full 0 0x200 7 0xFF 0x84 0xFF 0xFF 47, .binit 47 (.s 4)), (full 0 0x201 7 0xFF 0xFF 0xFF 0xFF 3, .barr 3),
    (0x01013FFC47FFF803, .bexp 3#6 (.s 8) false),
    (full 0 0x203 7 0xFF 0x84 0xFF 0xFF (64 + 3), .bwait 3 (some (.s 4))), (full 0 0x203 7 0xFF 0xFF 0xFF 0xFF 3, .bwait 3 none),
    (full 0 0x204 7 0xFF 0xFF 0xFF 0xFF 3, .barrw 3), (full 0 0x205 7 0x84 0xFF 0xFF 0xFF (128 + 64 + 3), .btest 3 (.s 4) true true),
    (full 0 0x206 7 0xFF 0x84 0xFF 0xFF 3, .bbind 3 (.s 4)), (full 0 0x240 7 0xFF 0x84 0x85 0xFE 0, .kick (.s 4) (.s 5) 0xFE#8),
    (full 0 0x241 7 0xD1 0x84 0xFF 2 31, .strdef (.p 1) 31#5 (.s 4) 2#8),
    (full 6 0x242 7 0x08 0xFF 0xFF 0xD2 (256 + 1 * 32 + 4), .strq ⟨false, 7⟩ 6 (.v 8) (.p 2) 4 .b16 true),
    (full 0 0x243 7 0xFF 0xFF 0xFF 0xFF 4, .strend 4), (0x01223E9CA087F800, .spawn (.p 3) 20 16),
    (0x0122BE8CA4B00000, .task ⟨false, 7⟩ (.p 1) (.s 20) (.s 22) (.v 0)),
    (0x01403C64545FF820, .mma ⟨⟨false, 7⟩, 12, .s 10, .s 11, .null, 0, 1⟩),
    (full 0 0x281 7 0x8C 0x8A 0x8B 0x84 (15 * 32 + 31), .mmaSp ⟨⟨false, 7⟩, 12, .s 10, .s 11, .s 4, 31, 15⟩),
    (full 2 0x282 7 0x10 0x40 0x08 0x8C 3, .vmx ⟨false, 7⟩ 2 16 64 8 12 3),
    (full 0 0x283 7 0xFF 0xFF 0xFF 0xFF 0, .mfence), (full 0 0x284 7 0xFF 0xF0 0xFF 0xFF 0, .mwait (.k 0)),
    (full 0 0x285 7 0xFF 0xFF 0xFF 0xFF (7 * 32 + 3), .azero 3 7), (0x01433FFCC4F7F9A0, .aepi ⟨false, 7⟩ 0 (.s 24) (.s 30) .relu true .f16),
    (full 1 0x287 7 0x08 0x84 0xFF 0xFF 32, .amax ⟨false, 7⟩ 1 8 (.s 4) 0 true),
    (full 0 0x288 7 0xFF 0x84 0x86 0xFF 254, .scldef 254 4 (.s 6)), (full 0 0x289 7 0xFF 0xFF 0xFF 0xFF 7, .sclinv (some 7)),
    (full 0 0x289 7 0xFF 0xFF 0xFF 0xFF 256, .sclinv none)] = true := by decide +kernel

/-- R250, R251, R269 to R272, R291 to R299, R306, R351 to R360. -/
theorem test_decode_cluster_and_system : reads [
    (0x01603FFC242FF802, .rrot (.s 4) (.s 5) 2), (0x0160B8204C282002, .xst ⟨false, 7⟩ (.v 4) (.v 9) (.s 5) 4 .b32),
    (0x01613FFFFFFFF800, .xswap), (0x0161BFFFFFFFF800, .cbar), (0x09803807FFFE8800, .grid 4 0 (.p 1)),
    (full 0 0x301 7 0x08 0x09 0x84 0xFF 1, .gderiv ⟨false, 7⟩ 8 9 (.s 4) true),
    (full 1 0x302 7 0x08 0x10 0x84 0x18 0, .tex ⟨false, 7⟩ 1 8 16 4 24), (full 1 0x302 7 0x08 0x10 0x84 0xFF 1, .texLz ⟨false, 7⟩ 1 8 16 4),
    (0x0181BE9040842000, .gemit (.p 2) 8 16 (.s 4)), (0x01823FFC17FFF800, .kbres (.s 2) 0),
    (full 0 0x305 7 0x84 0x85 0xFF 0xFF 0, .srateGrid (.s 4) (.s 5)), (full 0 0x305 7 0x84 0x85 0x86 0xFF 1, .srateCell (.s 4) (.s 5) (.s 6)),
    (full 0 0x306 7 0xFF 0x08 0x09 0xFF 0, .rfbk ⟨false, 7⟩ (.v 8) (.v 9)), (0x01A03C47FFFFF800, .btagAlloc 0 (.s 8)),
    (full 0 0x340 7 0xFF 0x84 0xFF 0xFF 1, .btagFree 0 (.s 4)), (0x01A0BC4454647001, .bsend (.s 8) (.s 10) 12 (.s 14) .addX false),
    (0x01A13C4FFFFFF800, .bstatSnd (.s 9)), (full 0 0x342 7 0x84 0xFF 0xFF 0xFF 1, .bstatRcv (.s 4)),
    (full 0 0x380 7 0xFF 0xFF 0xFF 0xFF 2, .icinv 2), (full 0 0x381 7 0xFF 0xFF 0xFF 0xFF 0, .trapret), (0x01C0BFFFFFFFF801, .trapretRetry),
    (full 0 0x382 7 0xFF 0xFF 0xFF 0xFF 0, .yield), (full 0 0x382 7 0xFF 0xFF 0xFF 0xFF 1, .yieldP), (0x01C1BFFC37FFF800, .sleep (.s 6)),
    (fullC 0x384 7 0xFF 0xFF 0xFF 0xBEEF, .brk ⟨false, 7⟩ 0xBEEF#16), (full 0 0x385 7 0x84 0xFF 0xFF 0xFF (5 * 2), .perfRd 4 5),
    (full 0 0x385 7 0xFF 0x84 0xFF 0xFF 1, .perfMark (.s 4))] = true := by decide +kernel

/-- R52, R53, R56, R57. -/
theorem test_decode_halves : reads [
    (high 0x00 0 9 0x001, .halfAdd ⟨.none, 9, .reg (.v 1)⟩), (high 0x01 1 24 0x103, .halfSub ⟨.p0, 24, .imm 3#8⟩),
    (high 0x02 2 9 0x084, .halfAnd ⟨.np0, 9, .reg (.s 4)⟩), (high 0x03 3 9 0x0C4, .halfOr ⟨.p1, 9, .reg (.wg 4)⟩),
    (high 0x04 0 9 0x0F1, .halfXor ⟨.none, 9, .reg (.k 1)⟩), (high 0x05 0 9 0x102, .halfShl ⟨.none, 9, .imm 2#8⟩),
    (high 0x06 0 9 0x1FF, .halfShr ⟨.none, 9, .imm 0xFF#8⟩), (high 0x07 0 9 0x001, .halfSar ⟨.none, 9, .reg (.v 1)⟩),
    (high 0x08 0 9 0x001, .halfMin ⟨.none, 9, .reg (.v 1)⟩), (high 0x09 0 9 0x001, .halfMax ⟨.none, 9, .reg (.v 1)⟩),
    (high 0x0A 0 9 0x0FF, .halfMov ⟨.none, 9, .reg .null⟩), (high 0x0A 1 9 0x009, .hnop), (high 0x10 0 9 0x001, .halfFadd ⟨.none, 9, .reg (.v 1)⟩),
    (high 0x11 0 9 0x001, .halfFmul ⟨.none, 9, .reg (.v 1)⟩), (high 0x12 0 9 0x001, .halfFmin ⟨.none, 9, .reg (.v 1)⟩),
    (high 0x13 0 9 0x001, .halfFmax ⟨.none, 9, .reg (.v 1)⟩), (high 0x14 0 9 0x001, .halfFsub ⟨.none, 9, .reg (.v 1)⟩),
    (0x4140000078800004, .pfxI 2#13)] = true := by decide +kernel

/-- The pairs of the hand disassembly of R43 to R62. -/
theorem test_decode_pairs :
    decodeBundle 0x4000900808828040 = .ok ⟨false, .pair (.halfAdd ⟨.none, 9, .reg (.v 1)⟩) (.halfFmul ⟨.none, 10, .reg (.v 2)⟩)⟩ ∧
    decodeBundle 0x4200C06878240000 = .ok ⟨false, .pair (.halfFadd ⟨.none, 12, .reg (.v 13)⟩) (.pfxM ⟨.rtz, .sat, false⟩)⟩ ∧
    decodeBundle 0x5E10000008040220 = .ok ⟨false, .pair (.pfxM ⟨.rdn, .none, false⟩) (.halfFadd ⟨.none, 16, .reg (.v 17)⟩)⟩ ∧
    decodeBundle 0x4021881802866040 = .ok ⟨false, .pair (.halfSub ⟨.none, 24, .imm 3#8⟩) (.halfShl ⟨.none, 25, .imm 2#8⟩)⟩ := by decide +kernel

/-- R60: the checks of decode orders 1 to 3, the illegal variant of the spec's hand disassembly among them. -/
theorem test_decode_refuses :
    decodeBundle 0x8021B84018202800 = .error (.encoding 1) ∧ decodeBundle 0xC021B84018202800 = .error (.encoding 1) ∧
    decodeBundle 0x2221B84018202800 = .error (.encoding 3) ∧ decodeBundle 0x2021F84018202800 = .error (.encoding 3) ∧
    decodeBundle (BitVec.ofNat 64 (full 0 0x01D 7 0xFF 0xFF 0xFF 0xFF 0)) = .error (.opcode 0x01D) ∧
    decodeBundle (BitVec.ofNat 64 (full 0 0x3C0 7 0xFF 0xFF 0xFF 0xFF 0)) = .error (.opcode 0x3C0) ∧
    decodeBundle (BitVec.ofNat 64 (high 0x0B 0 9 1)) = .error (.opcode 0x0B) ∧
    decodeBundle (BitVec.ofNat 64 (high 0x00 0 9 1 + 1)) = .error (.encoding 3) ∧
    decodeBundle (BitVec.ofNat 64 (full 0 0x019 7 0x01 0xD8 0xFF 0xFF 0)) = .error (.encoding 3) ∧
    decodeBundle (BitVec.ofNat 64 (full 0 0x017 7 0xD1 0x02 0x03 0xFF 6)) = .error (.encoding 3) ∧
    decodeBundle (BitVec.ofNat 64 (full 0 0x016 7 0x01 0x02 0x03 0xFF 5)) = .error (.encoding 3) ∧
    decodeBundle (BitVec.ofNat 64 (full 0 0x201 7 0xFF 0xFF 0xFF 0xFF 48)) = .error (.encoding 3) := by decide +kernel

/-! ### Well-formedness: for each check a term that breaks it, beside one that keeps it -/

def refuses (l : List Instr) : Bool := l.all fun i => !i.wf
def accepts (l : List Instr) : Bool := l.all Instr.wf

/-- Guards, destinations, sources, groups (R46, R96, R98, R103 to R111). -/
theorem test_wf_values : refuses [
    .mov ⟨⟨true, 7⟩, .v 0, .v 1⟩, .mov ⟨⟨false, 0⟩, .s 0, .v 1⟩, .mov ⟨.always, .k 0, .v 1⟩, .mov ⟨.always, .v 0, .p 1⟩,
    .add ⟨.always, .v 0, .v 1, .reg .null⟩ .i32, .add ⟨.always, .v 0, .v 1, .imm 0⟩ .n32, .bfe ⟨.always, .v 0, .v 1, .imm 0⟩ true,
    .fmin ⟨.always, .v 0, .v 1, .imm 0⟩ true, .addW ⟨.always, .v 127, .v 0, .reg (.v 2)⟩, .addW ⟨.always, .v 0, .s 63, .reg (.v 2)⟩,
    .addW ⟨.always, .v 0, .v 2, .reg (.k 5)⟩, .addW ⟨.always, .wg 15, .v 2, .imm 0⟩, .lea ⟨.always, .v 0, .v 2, .imm 0⟩ 1 false,
    .lea ⟨.always, .v 0, .v 2, .imm 0⟩ 0 true, .lea ⟨.always, .v 127, .v 2, .imm 0⟩ 0 false, .cmp ⟨.always, .v 0, .v 1, .v 2⟩ .eq .i32 .set,
    .fcmp ⟨.always, .p 0, .v 1, .v 2⟩ .ord true .set, .fclass ⟨.always, .v 0, .v 1⟩ 1, .sel ⟨.always, .v 0, .v 1, .v 2, .v 3⟩,
    .movi ⟨false, 0⟩ (.s 0) 1, .movi .always (.p 0) 1, .plop ⟨.always, .p 0, .v 1, .p 2, .p 3⟩ 0, .unpack ⟨.always, .v 0, .v 1⟩ .f16 2,
    .vote ⟨.always, .wg 0, .p 1⟩ .mask, .vote ⟨.always, .v 0, .p 1⟩ .or, .vote ⟨.always, .p 0, .v 1⟩ .or, .tagof ⟨.always, .v 0, .s 1⟩,
    .mkaff ⟨.always, .s 0, .s 1, .imm 0⟩, .movs .always (.s 0) .tid, .movs .always (.v 0) .dtc, .movs .always (.s 63) .dtc,
    .movs .always (.wg 0) .wave, .setsr .uconf (.v 0), .setsr .trap (.s 63), .setsr .seed (.p 0), .rpf none (some 0) 0x100#16,
    .rpf none (some 127) 0x2#16, .scan ⟨⟨false, 0⟩, .s 0, .v 1⟩ .fadd false] = true ∧
  accepts [.mov ⟨.always, .s 0, .v 1⟩, .addW ⟨.always, .v 126, .v 0, .imm 0⟩, .lea ⟨.always, .v 126, .v 2, .reg (.v 1)⟩ 4 true,
    .redux ⟨⟨false, 0⟩, .s 0, .v 1⟩ .fadd, .movs .always (.v 0) .tid, .movs .always (.s 62) .dtc, .rpf (some 120) (some 0) 0xFFFF#16] = true := by
  decide +kernel

/-- Targets, memory operands, barriers, engines (R139, R167 to R174, R180, R188 to R201, R239, R348). -/
theorem test_wf_memory_and_control : refuses [
    .br ⟨true, 7⟩ .null 0, .br .always (.p 0) 0, .brD ⟨true, 7⟩ false 0, .jmp (.reg 63), .call 63 (.disp 0), .call 0 (.reg 63), .callx 63 0,
    .callx 0 127, .ret 63, .exit ⟨true, 7⟩, .trap ⟨true, 7⟩ 0, .brk ⟨true, 7⟩ 0, .fhdr 0 0, .fhdr 129 0, .fhdr 8 9,
    .ldA ⟨.always, 0, .v 0, .null, .null, 0, .b32, false⟩, .ldA ⟨.always, 0, .v 127, .v 0, .null, 0, .b64, false⟩,
    .ldA ⟨.always, 0, .k 0, .v 0, .null, 0, .b32, false⟩, .ldA ⟨.always, 0, .v 0, .v 0, .p 0, 0, .b32, false⟩,
    .ldA ⟨.always, 0, .v 0, .v 0, .null, 0, .b32, true⟩, .stA ⟨.always, 1, .v 0, .v 0, .null, 0, .b32, false⟩,
    .stA ⟨.always, 0, .v 0, .v 0, .null, 0, .b8, true⟩, .stA ⟨.always, 0, .null, .v 0, .null, 0, .b32, false⟩,
    .stA ⟨.always, 0, .k 5, .v 0, .null, 0, .b64, false⟩, .ldC ⟨.always, 0, .v 0, .v 0, 0, .b16, 0⟩, .ldC ⟨.always, 0, .v 0, .k 0, 0, .b32, 0⟩,
    .stC ⟨.always, 1, .v 0, .v 0, 0, .b32, 0⟩, .atomA ⟨false, 0⟩ 0 (.s 0) (.s 0) (.s 0) 0 .add, .atomA .always 0 (.v 0) .null (.v 0) 0 .add,
    .casA .always 0 (.v 0) (.v 0) (.p 0) (.v 0), .tagset ⟨.s 0, 0, .a, false, false, 0⟩, .tagset ⟨.null, 0, .a, true, false, 0⟩,
    .ldG ⟨.always, 0, .v 0, .v 127, .null, 0, .b32, false⟩ false, .stG ⟨.always, 0, .v 0, .wg 0, .null, 0, .b32, false⟩,
    .prefG .always (.k 0) .null 0 false, .waitc .null .g, .atomG .always 0 (.v 0) (.s 0) (.v 0) 0 .addF true .dv,
    .atomG .always 0 (.v 127) (.s 0) (.v 0) 0 .add true .dv, .casG .always 0 (.v 0) (.s 0) (.v 127) (.v 0) true .dv, .qpush .always (.v 0) (.s 0) (.v 0) .b32,
    .qpush .always .null (.s 0) (.v 0) .b16, .qpop .always 0 (.s 0) (.s 0) .null .b32, .binit 48 (.s 0), .bexp 0 (.p 0) false, .barr 48, .barrw 63,
    .bwait 48 none, .bwait 0 (some (.p 0)), .btest 0 (.s 0) false true, .btest 0 (.p 0) true true, .bbind 48 (.s 0), .kick (.p 0) (.s 0) 0,
    .strdef (.v 0) 0 (.s 0) 0, .strq .always 0 (.s 0) .null 0 .b32 false, .strq .always 0 (.v 0) (.v 1) 0 .b32 false,
    .strq .always 0 (.v 0) .null 0 .b32 true, .spawn (.v 0) 0 0, .spawn (.p 0) 63 0, .spawn (.p 0) 0 121, .task .always .null (.s 0) (.s 0) (.v 121),
    .task .always .null (.k 0) (.s 0) (.v 0)] = true ∧
  accepts [.ldA ⟨.always, 15, .v 124, .v 0, .null, 0x80, .b128, false⟩, .stA ⟨.always, 0, .k 4, .s 0, .null, 0, .b64, false⟩, .fhdr 128 128,
    .spawn (.p 7) 62 120, .binit 47 (.s 0), .tagset ⟨.null, 0, .c, true, false, 0⟩] = true := by decide +kernel

/-- Matrix, cluster, rendering, bridles, system, halves (R225, R232, R250, R269, R271, R291, R351, R352, R52). -/
theorem test_wf_engines : refuses [
    .mma ⟨.always, 63, .s 0, .s 0, .null, 0, 0⟩, .mmaSp ⟨.always, 0, .p 0, .s 0, .null, 0, 0⟩, .vmx .always 0 113 0 0 0 0, .vmx .always 0 0 97 0 0 3,
    .vmx .always 0 0 0 0 63 0, .mwait (.p 0), .aepi ⟨true, 7⟩ 0 (.s 0) (.s 0) .none false .f32, .aepi .always 0 (.p 0) (.s 0) .none false .f32,
    .amax .always 0 127 (.s 0) 0 true, .scldef 255 0 (.s 0), .scldef 0 63 (.s 0), .rrot (.s 0) (.s 0) 48, .rrot (.p 0) (.s 0) 0,
    .xst .always .null (.v 0) (.s 0) 0 .b32, .xst .always (.v 0) .null (.s 0) 0 .b32, .grid 0 125 (.p 0), .grid 0 0 (.v 0), .gderiv .always 0 0 (.p 0) false,
    .tex .always 0 125 0 0 0, .tex .always 0 0 127 0 0, .tex .always 0 0 0 63 0, .tex .always 0 0 0 0 125, .texLz .always 0 0 0 63,
    .gemit (.v 0) 0 0 (.s 0), .gemit (.p 0) 121 0 (.s 0), .gemit (.p 0) 0 125 (.s 0), .kbres (.s 0) 48, .srateGrid (.p 0) (.s 0), .srateCell (.s 0) (.s 0) (.p 0),
    .rfbk .always (.p 0) (.s 0), .btagAlloc 0 .null, .btagFree 0 (.p 0), .bsend (.s 0) (.s 0) 63 (.s 0) .addX false, .bsend (.p 0) (.s 0) 0 (.s 0) .addX false,
    .bstatSnd (.k 0), .bstatRcv .null, .sleep (.p 0), .perfMark (.p 0), .perfRd 63 0, .halfAdd ⟨.none, 0, .reg (.p 0)⟩, .halfMov ⟨.none, 9, .reg (.v 9)⟩] = true ∧
  accepts [.mma ⟨⟨true, 0⟩, 62, .s 0, .s 0, .null, 31, 15⟩, .vmx .always 0 112 96 0 62 3, .amax .always 0 126 (.s 0) 0 true, .grid 0 124 (.p 7),
    .halfMov ⟨.none, 9, .reg (.v 8)⟩, .halfAdd ⟨.none, 9, .reg (.v 9)⟩] = true := by decide +kernel

/-! ### States that meet what the statements ask -/

/-- The loader's wave on core 0, its general registers distinct: V1 UNI, V2 and V3 AFF, V4 GEN. -/
def gen4 : VReg := .gen ((List.range 32).map fun t => BitVec.ofNat 32 (7 * t))
def base : State := (State.reset.place 0 0).modW fun w =>
  { w with v := (((w.v.set 1 (.uni 5)).set 2 (.aff 1 4)).set 3 (.aff 0 1)).set 4 gen4, p := (List.replicate 7 0).set 0 0xFFFF#32 }


theorem wit_quiet : base.quiet ∧ base.sound ∧ base.memOk := by
  refine ⟨by decide +kernel, ⟨?_, ?_, ?_, ?_, ⟨_, rfl⟩, ?_, ?_, ?_⟩, by decide +kernel⟩ <;> decide +kernel

def op2 (d a : Opnd) (b : Opnd) : Op2 := ⟨.always, d, a, .reg b⟩
def op3 (d a b c : Opnd) : Op3 := ⟨.always, d, a, b, c⟩

/-- IntegerResults: a V destination with a GEN source, a WG destination with UNI sources, and one whose B is AFF. -/
theorem wit_IntegerResults : base.quiet ∧
    ((intOp base (.add (op2 (.v 127) (.v 4) (.v 2)) .i32)).map (·.d) = some (.v 127) ∧ base.rowFree 127 ∧ base.guardMask .always ≠ 0) ∧
    ((intOp base (.add (op2 (.wg 15) (.v 1) (.k 3)) .i32)).map fun o => (o.d.isScalarReg, o.srcs.all (·.isUni))) = some (true, true) ∧
    ((intOp base (.add (op2 (.s 63) (.v 1) (.v 2)) .i32)).map fun o => (o.d.isScalarReg, o.srcs.map (·.isUni))) = some (true, [true, false]) := by
  decide +kernel

/-- WidePairResult: the last pair V126, V127, and a scalar pair. -/
theorem wit_WidePairResult : base.quiet ∧ base.rowsFree2 126 ∧ (Opnd.v 126).fits 2 = true ∧ (Opnd.s 62).fits 2 = true ∧
    (wideOp base (.addW (op2 (.v 126) (.v 2) (.v 3)))).isSome = true ∧
    (wideOp base (.addW (op2 (.s 62) (.s 0) (.s 2)))).any (fun o => o.srcs.all fun p => p.1.isUni && p.2.isUni) = true ∧
    (wideOp base (.addW (op2 (.s 62) (.v 2) (.s 2)))).any (fun o => o.srcs.any fun p => !p.1.isUni) = true := by decide +kernel

theorem wit_PredicateAndSelectResults : base.live = true ∧ base.quiet ∧ base.rowFree 127 ∧
    (predOp base (.cmp ⟨.always, .p 6, .v 4, .v 2⟩ .lt .n32 .or)).map (·.d) = some (.p 6) ∧
    (base.src (.v 1)).isUni = true ∧ (base.src (.k 2)).isUni = true ∧ (Opnd.wg 0).isScalarReg = true := by decide +kernel

/-- ShapeTagOfResult: a full and a partial write, the AFF rows of R25, and a wave with every row held. -/
def rowless : State := base.modW fun w => { w with g := 1 }
def satOn : State := base.modSp fun p => { p with pfx := some ⟨some ⟨.rne, .satf, false⟩, none, 0, false⟩ }
theorem wit_ShapeTagOfResult : base.quiet ∧ base.guardMask .always = fullMask ∧ base.guardMask ⟨false, 0⟩ = 0xFFFF#32 ∧ base.rowFree 9 ∧
    base.satf = false ∧ base.src (.v 2) = .aff 1 4 ∧ base.src (.v 3) = .aff 0 1 ∧ base.src (.v 1) = .uni 5 ∧
    (intOp base (.sub (op2 (.v 9) (.v 2) (.v 1)) .i32)).map (fun o => (o.srcs, o.d)) = some ([.aff 1 4, .uni 5], .v 9) ∧
    (intOp base (.sub (op2 (.v 9) (.v 1) (.v 3)) .i32)).map (fun o => o.srcs) = some [.uni 5, .aff 0 1] ∧
    (intOp base (.mulLo (op2 (.v 9) (.v 2) (.v 3)) .i32)).map (fun o => o.srcs.map (·.isUni)) = some [false, false] ∧
    (intOp base (.add (op2 (.v 9) (.v 2) (.v 4)) .i32)).any (fun o => o.srcs.any (·.isGen)) = true ∧
    (intOp base (.and (op2 (.v 9) (.v 2) (.v 1)))).any (fun o => o.srcs.any fun v => !v.isUni) = true ∧
    satOn.quiet ∧ satOn.satf = true ∧ satOn.guardMask .always = fullMask ∧ satOn.rowFree 9 ∧
    rowless.quiet ∧ rowless.guardMask ⟨false, 0⟩ ≠ 0 ∧ rowless.w.rowed 9 = false ∧ rowless.w.g ≤ rowless.w.rows := by decide +kernel

/-- A stochastic modifier in force, and what it leaves of the others. -/
def rsOn : State := base.modSp fun p => { p with pfx := some ⟨some ⟨.rs, .none, false⟩, none, 0, false⟩ }
theorem wit_RoundedResults : base.quiet ∧ base.rowFree 9 ∧
    (roundOp base (.ffma (op3 (.v 9) (.v 4) (.v 2) (.v 3)))).map (fun o => (o.rs, o.d)) = some (false, .v 9) ∧
    (roundOp base (.ffma (op3 (.s 63) (.v 1) (.k 5) (.s 3)))).map (fun o => (o.rs, o.d.isScalarReg, o.srcs.all (·.isUni))) = some (false, true, true) ∧
    (roundOp base (.ffma (op3 (.s 63) (.v 1) (.v 4) (.s 3)))).map (fun o => o.srcs.map (·.isUni)) = some [true, false, true] := by decide +kernel

theorem wit_StochasticDraws : rsOn.quiet ∧ rsOn.rowFree 9 ∧ rsOn.guardMask .always ≠ 0 ∧
    (roundOp rsOn (.pack4 (op3 (.v 9) (.v 4) (.v 2) (.v 3)) .e5m2)).map (fun o => (o.rs, o.d, o.k)) = some (true, .v 9, 4) := by decide +kernel

theorem wit_BlockQuantise : base.quiet ∧ base.rowFree 127 ∧ (Mods.of base.pm .rne).rnd ≠ .rs ∧ rsOn.quiet ∧ rsOn.rowFree 127 ∧
    (Mods.of rsOn.pm .rne).rnd = .rs ∧ rsOn.guardMask ⟨false, 0⟩ ≠ 0 ∧ rsOn.guardMask ⟨false, 1⟩ = 0 ∧ (Opnd.wg 15).isScalarReg = true ∧
    (rsOn.src (.v 1)).isUni = true ∧ (rsOn.src (.v 4)).isUni = false := by decide +kernel

theorem wit_HalvesAndModifiers : base.quiet ∧ base.rowFree 127 ∧ base.live = true ∧ base.sp.pfx = none ∧
    (halfSpec (Mods.of base.pm .rne) (.halfFadd ⟨.np0, 127, .reg (.v 4)⟩)).map (fun h => h.2.1) = some true := by decide +kernel

theorem wit_VoteResult : base.quiet ∧ base.rowFree 127 ∧ base.sp.mask ≠ 0 := by decide +kernel

theorem wit_LaneReadsAndReductions : base.quiet ∧ base.rowFree 9 ∧ (base.src (.v 1)).isUni = true ∧ (base.srcB (.reg (.k 10)) false).isUni = true ∧
    base.guardMask ⟨false, 0⟩ ≠ 0 ∧ (base.crossV (.v 4)).isUni = false ∧ (base.crossV (.v 1)).isUni = true ∧ base.guardMask .always = fullMask ∧
    base.guardMask ⟨false, 1⟩ = 0 ∧ (Mods.of base.pm .rne).rnd ≠ .rs := by decide +kernel

theorem wit_TagsAndOperandBuffer : base.quiet ∧ base.rowFree 9 ∧ (base.src (.s 3)).isUni = true ∧ (base.srcB (.imm 4) false).isUni = true ∧
    base.live = true ∧ rpfOk (some 120) (some 0) 0x80FF#16 = true := by decide +kernel

def inHandler : State := base.modW fun w => { w with handler := some 0, heldS := 0x1234#64 }
theorem wit_SpecialRegisters : base.quiet ∧ base.rowFree 9 ∧ base.w.handler = none ∧ inHandler.quiet ∧ inHandler.w.handler ≠ none ∧
    (base.src (.v 1)).isUni = true ∧ SReg.wide .dtc = true ∧ 0 < base.gr.d.x ∧ 0 < base.gr.d.y ∧ base.g.lin < base.gr.d.x * base.gr.d.y * base.gr.d.z := by
  decide +kernel

/-- SpecialRegisterTraps: SR_CLASS written, SR_TRAP outside a handler, and a movs with the first index past the table. -/
theorem wit_SpecialRegisterTraps : base.quiet ∧ SReg.class ≠ .uconf ∧ base.w.handler = none ∧
    (BitVec.ofNat 64 (fullC 0x0C6 7 0x84 0xFF 0xFF 0x13)).getLsbD 62 = false ∧
    (BitVec.ofNat 64 (fullC 0x0C6 7 0x84 0xFF 0xFF 0x13)).extractLsb' 47 10 = 0x0C6#10 ∧
    decodeTableWord 64 (fullC 0x0C6 7 0x84 0xFF 0xFF 0x13) = none ∧ decodeTableWord 64 (fullC 0x0C7 7 0xFF 0x84 0xFF 0x3F) = none := by decide +kernel

def nexts (i : Instr) (s : State) (p : State → Bool) : Bool := match exec i s with | .next t => p t | _ => false

/-- ValueInstructionFrame: an instruction that writes and one that traps. -/
theorem wit_ValueInstructionFrame : base.quiet ∧ valueDst base (.add (op2 (.v 9) (.v 1) (.k 1)) .i32) = some (.v 9, 1) ∧
    nexts (.add (op2 (.v 9) (.v 1) (.k 1)) .i32) base (fun t => t.vreg 9 == .uni 6) = true ∧
    valueDst base (.add (op2 (.s 9) (.v 4) (.k 1)) .i32) = some (.s 9, 1) ∧ nexts (.add (op2 (.s 9) (.v 4) (.k 1)) .i32) base (fun _ => true) = true := by
  decide +kernel

/-! Control: a bundle with an entry mark at address 8, and one without at 16. -/
def ctl : State := (State.reset.place 0 0x2085000000000000).modW fun w => { w with p := (List.replicate 7 0).set 0 0xFFFF#32 }
def jumpy : State := ctl.modSp fun p => { p with s := ((p.s.set 2 8).set 4 5).set 6 1 }

theorem wit_BranchesAndTargets : jumpy.quiet ∧ Lands jumpy.closed 8 0x2085000000000000 ∧ Transfers (.jmp (.reg 2)) jumpy 8 ∧
    Transfers (.jmp (.reg 4)) jumpy 5 ∧ (5 : DWord).toNat % 8 ≠ 0 ∧ Transfers (.jmp (.disp 2)) jumpy 16 ∧
    jumpy.closed.fetch 0 jumpy.closed.w.grid 16 = .ok 0 ∧ (0 : DWord).getLsbD 61 = false ∧
    (∃ e, jumpy.closed.fetch 0 jumpy.closed.w.grid 0x10000 = .error e) ∧
    (jumpy.src (.v 0)).isUni = true ∧ jumpy.guardMask ⟨false, 0⟩ ≠ 0 ∧ jumpy.guardMask ⟨false, 0⟩ ≠ jumpy.sp.mask ∧ (base.src (.v 4)).isUni = false ∧
    jumpy.readS 6 = 1 ∧ jumpy.readS 4 ≠ 1 := by
  refine ⟨by decide +kernel, by decide +kernel, ?_, ?_, by decide +kernel, ?_, by decide +kernel, by decide +kernel, ⟨_, rfl⟩, ?_⟩
  · show (8 : DWord) = jumpy.closed.targetOf (.reg 2); decide +kernel
  · show (5 : DWord) = jumpy.closed.targetOf (.reg 4); decide +kernel
  · show (16 : DWord) = jumpy.closed.targetOf (.disp 2); decide +kernel
  · decide +kernel

/-- LoopCounts: counts 1, 0 and 5, to a target that is taken. -/
theorem wit_LoopCounts : jumpy.quiet ∧ jumpy.sp.s.length = 64 ∧ jumpy.sp.s.getD 6 0 - 1 = 0 ∧ jumpy.sp.s.getD 0 0 = 0 ∧ jumpy.sp.s.getD 4 0 - 1 ≠ 0 ∧
    Lands jumpy.closed (jumpy.closed.dispTo 1) 0x2085000000000000 ∧ (jumpy.closed.dispTo 2).toNat % 8 = 0 := by decide +kernel

/-- DivergentBranch: room for the other path, and none. -/
def deep : State := jumpy.modW fun w =>
  { w with splits := (List.range 4).map fun i => { (w.splits.getD 0 Split.blank) with id := i, uid := i }, hint := [0, 1, 2, 3],
           deferred := List.replicate 8 ⟨0, 1, List.replicate 64 0, 0, 9, 9⟩ }
theorem wit_DivergentBranch : jumpy.quiet ∧ jumpy.w.handler = none ∧ jumpy.guardMask ⟨false, 0⟩ ≠ 0 ∧
    jumpy.sp.mask &&& ~~~jumpy.guardMask ⟨false, 0⟩ ≠ 0 ∧ jumpy.guardMask ⟨false, 1⟩ = 0 ∧ jumpy.sp.mask &&& ~~~jumpy.guardMask .always = 0 ∧
    Lands jumpy.closed (jumpy.closed.dispTo 1) 0x2085000000000000 ∧ jumpy.w.freeId = some 1 ∧
    deep.quiet ∧ deep.w.freeId = none ∧ 8 ≤ deep.w.deferred.length ∧ Lands deep.closed (deep.closed.dispTo 1) 0x2085000000000000 := by decide +kernel

/-- CallsAndReturns: a target that is no fhdr, an fhdr within the budget and one past it, depths 0, 63 and 64. -/
def header (n g : Nat) : State := (State.reset.place 0 (2 ^ 61 + fullC 0x10C 7 0xFF 0xFF 0xFF (g * 256 + n))).modW fun w =>
  { w with n := 24, g := 4, v := (w.v.set 8 (.uni 8)).set 9 (.uni 0) }
/-- Two fhdr targets, at 8 and 16, and V8 naming both; then with no place for the second path. -/
def twoWay : State := { header 24 4 with mem := (header 24 4).mem.puts 16 (leBytes 8 (2 ^ 61 + fullC 0x10C 7 0xFF 0xFF 0xFF (4 * 256 + 24))) }.modW fun w =>
  { w with v := w.v.set 8 (.gen ((List.range 32).map fun t => if t < 16 then 8 else 16)) }
def jammed : State := twoWay.modW fun w => { w with
  splits := (List.range 4).map fun i => { (w.splits.getD 0 Split.blank) with id := i, uid := i }, hint := [0, 1, 2, 3],
  deferred := List.replicate 8 ⟨0, 1, List.replicate 64 0, 0, 9, 9⟩ }
theorem wit_CallsAndReturns_paths :
    twoWay.quiet ∧ twoWay.w.handler = none ∧ distinct ((threads twoWay.closed.sp.mask).map fun t => (t, twoWay.closed.at64 (.v 8) t)) = [(8, 0xFFFF#32), (16, 0xFFFF0000#32)] ∧
    Lands twoWay.closed 16 (BitVec.ofNat 64 (2 ^ 61 + fullC 0x10C 7 0xFF 0xFF 0xFF (4 * 256 + 24))) ∧
    2 - 1 ≤ (4 - twoWay.closed.w.splits.length) + (8 - twoWay.closed.w.deferred.length) ∧ twoWay.closed.sp.depth < 64 ∧
    jammed.quiet ∧ (4 - jammed.closed.w.splits.length) + (8 - jammed.closed.w.deferred.length) < 2 - 1 ∧
    64 ≤ (twoWay.modSp fun p => { p with depth := 64 }).closed.sp.depth ∧
    distinct ((threads (header 25 8).closed.sp.mask).map fun t => (t, (header 25 8).closed.at64 (.v 8) t)) = [] ++ (8, fullMask) :: [] := by decide +kernel
theorem wit_CallsAndReturns : jumpy.quiet ∧ Lands jumpy.closed (jumpy.closed.targetOf (.disp 1)) 0x2085000000000000 ∧
    fhdrOf 0x2085000000000000 = none ∧ jumpy.closed.sp.depth < 64 ∧
    64 ≤ (jumpy.modSp fun p => { p with depth := 64 }).closed.sp.depth ∧
    Lands jumpy.closed (jumpy.closed.sp.pair 2) 0x2085000000000000 ∧ jumpy.closed.sp.depth = 0 ∧
    fhdrOf (BitVec.ofNat 64 (2 ^ 61 + fullC 0x10C 7 0xFF 0xFF 0xFF (8 * 256 + 25))) = some (25, 8) ∧ (header 25 8).closed.w.n < 25 ∧
    (header 24 4).quiet ∧ (header 24 4).w.handler = none ∧ (header 24 4).sp.mask ≠ 0 ∧
    distinct ((threads (header 24 4).closed.sp.mask).map fun t => (t, (header 24 4).closed.at64 (.v 8) t)) = [(8, fullMask)] ∧
    fhdrOf (BitVec.ofNat 64 (2 ^ 61 + fullC 0x10C 7 0xFF 0xFF 0xFF (4 * 256 + 24))) = some (24, 4) ∧
    Lands (header 24 4).closed 8 (BitVec.ofNat 64 (2 ^ 61 + fullC 0x10C 7 0xFF 0xFF 0xFF (4 * 256 + 24))) := by decide +kernel

def parked : State := jumpy.modW fun w => { w with
  splits := [{ Split.blank with mask := 0xFF#32 }, { Split.blank with id := 1, uid := 1, mask := 0xFF00#32, status := .parkedJoin }],
  hint := [0, 1], created := 2 }
theorem wit_JoinAndConv : jumpy.quiet ∧ jumpy.closed.w.splits.length = 1 ∧ jumpy.closed.w.deferred = [] ∧ parked.quiet ∧
    (parked.closed.w.splits.find? fun q => q.id != parked.closed.sp.id && q.parked && q.pc == parked.closed.sp.pc).map (·.id) = some 1 ∧
    deep.quiet ∧ deep.closed.w.splits.find? (fun q => q.id != deep.closed.sp.id && q.parked && q.pc == deep.closed.sp.pc) = none := by decide +kernel

theorem wit_MergeOfTwoSplits : ∃ p q, p ∈ parked.w.splits ∧ q ∈ parked.w.splits ∧ p.id ≠ q.id ∧ p.uid ≠ q.uid ∧ p.uid ∈ parked.w.hint ∧
    q.uid ∈ parked.w.hint ∧ parked.w.hint.Nodup :=
  ⟨_, _, List.mem_cons_self .., List.mem_cons_of_mem _ (List.mem_cons_self ..), by decide +kernel⟩

/-- DeferredAndParkedSplits: an entry that waits beside a free slot, and a wave whose every split is parked. -/
def waitsForSlot : Wave := { (deep.w) with splits := deep.w.splits.take 3 }
def allParked : Wave := { parked.w with splits := parked.w.splits.map fun p => { p with status := if p.id = 0 then .parkedConv else .parkedJoin } }
theorem wit_DeferredAndParkedSplits : (waitsForSlot.splits.map (·.id)).Nodup ∧ (∀ p ∈ waitsForSlot.splits, p.id < 4) ∧ waitsForSlot.freeId = some 3 ∧
    waitsForSlot.deferred ≠ [] ∧ (parked.w.splits.map (·.id)).Nodup ∧ (∃ q ∈ parked.w.splits, q.parked = false) ∧
    (allParked.splits.map (·.uid)).Nodup ∧ (∀ q ∈ allParked.splits, q.parked = true ∧ q.uid ∈ allParked.hint) ∧
    (∃ p ∈ allParked.splits, p.status = .parkedJoin ∧ ∀ q ∈ allParked.splits, q.status = .parkedJoin → allParked.pos p.uid ≤ allParked.pos q.uid) := by
  decide +kernel

def lastOf : State := jumpy.modW fun w => { w with deferred := [⟨0, 1, List.replicate 64 0, 0, 9, 9⟩] }
def lastAcc : State := jumpy.modW fun w => { w with
  accs := [⟨0, .s, 0, .store, .dv, .null, .null, 1, 2, false, false, 1#32, 0, [], false⟩], nextAcc := 1 }
theorem wit_ExitTrapAndHeader : jumpy.live = true ∧ jumpy.sp.mask &&& ~~~jumpy.guardMask ⟨false, 0⟩ ≠ 0 ∧ jumpy.sp.mask &&& ~~~jumpy.guardMask .always = 0 ∧
    (∀ q ∈ jumpy.w.splits, q.id = jumpy.cur.split) ∧ jumpy.w.deferred = [] ∧ jumpy.w.accs = [] ∧
    lastOf.live = true ∧ (∀ q ∈ lastOf.w.splits, q.id = lastOf.cur.split) ∧ lastOf.w.deferred.head? = some ⟨0, 1, List.replicate 64 0, 0, 9, 9⟩ ∧
    lastAcc.live = true ∧ (∀ q ∈ lastAcc.w.splits, q.id = lastAcc.cur.split) ∧ lastAcc.w.deferred = [] ∧ lastAcc.w.accs ≠ [] ∧
    (∃ q ∈ parked.w.splits, q.id ≠ parked.cur.split) ∧ jumpy.guardMask ⟨false, 1⟩ = 0 := by decide +kernel

def handled : State := { base with grids := put base.grids 1 { (base.grid 1) with d := { (base.grid 1).d with handler := 0x40 } } }
theorem wit_TrapEntry : handled.live = true ∧ handled.spec handled.w.grid = false ∧ handled.w.handler = none ∧ (handled.grid handled.w.grid).d.handler ≠ 0 ∧
    handled.pools.logRing = none ∧ tcSoftware < 256 := by decide +kernel

theorem wit_TrapWithoutHandler : base.live = true ∧ base.spec base.w.grid = false ∧ (look base.grids base.w.grid).isSome = true ∧
    (base.grid 1).d.handler = 0 ∧ base.w.handler = none ∧ (base.cores.map (·.1)).Nodup ∧ (∀ c ∈ base.cores, (c.2.waves.map (·.1)).Nodup) ∧
    tcSoftware % 256 ≠ tcBreak ∧ tcBreak % 256 = tcBreak := by decide +kernel

/-- HandlerReturn: a saved place in a high and in a low slot. -/
def saved62 (x : DWord) : State := inHandler.modSp fun p => p.setPair 62 x
theorem wit_HandlerReturn : (saved62 0x40).live = true ∧ (saved62 0x40).sp.s.length = 64 ∧ (saved62 0x40).sp.pair 62 = 0x40 ∧
    (saved62 0x41).sp.pair 62 = 0x41 ∧ (0x41 : DWord).extractLsb' 1 2 = 0#2 ∧ (0x41 : DWord).extractLsb' 52 12 = 0#12 ∧
    (saved62 0x41).w.handler ≠ none ∧ base.w.handler = none ∧ base.sp.s.length = 64 := by decide +kernel

/-! ### The spec's worked examples: expected values are the spec's own -/

/-- The field a next state leaves, none where there is no next state. -/
def after {α : Type} (r : Res) (f : State → α) : Option α := match r with
  | .next t => some (f t)
  | _ => none

/-- spec/05, the example under R136: 2^24 and thirty-one ones, by the tree of R131. -/
def sums : State := (State.reset.place 0 0).modW fun w =>
  { w with v := w.v.set 8 (.gen (0x4B800000#32 :: List.replicate 31 0x3F800000#32)) }
theorem test_redux_fadd : after (exec (.redux ⟨.always, .s 4, .v 8⟩ .fadd) sums) (fun t => t.sp.s.getD 4 0) = some 0x4B80000F#32 := by decide +kernel
/-- spec/05, the example under R107: f96 is A XOR B XOR C, f22 is A AND NOT B. -/
theorem test_lop3 : after (exec (.lop3 (op3 (.v 9) (.s 1) (.s 2) (.s 3)) 0x96) ((State.reset.place 0 0).modSp fun p => { p with s := ((p.s.set 1 0xFF00FF00).set 2 0xF0F0F0F0).set 3 0xCCCCCCCC }))
      (fun t => t.vreg 9) = some (.uni (0xFF00FF00#32 ^^^ 0xF0F0F0F0#32 ^^^ 0xCCCCCCCC#32)) ∧
    after (exec (.lop3 (op3 (.v 9) (.s 1) (.s 2) (.s 3)) 0x22) ((State.reset.place 0 0).modSp fun p => { p with s := ((p.s.set 1 0xFF00FF00).set 2 0xF0F0F0F0).set 3 0xCCCCCCCC }))
      (fun t => t.vreg 9) = some (.uni 0x0F000F00#32) := by decide +kernel
/-- spec/01, the example under R28: mul.lo V2, V1, 4 of the thread index is AFF; add of S5 shifts its base. -/
theorem test_aff_rows : after (exec (.mulLo ⟨.always, .v 2, .v 3, .imm 4⟩ .n32) base) (fun t => t.vreg 2) = some (.aff 0 4) ∧
    after (exec (.add ⟨.always, .v 3, .v 2, .reg (.s 5)⟩ .i32) (base.modSp fun p => { p with s := p.s.set 5 0x1000 })) (fun t => t.vreg 3) = some (.aff 0x1001 4) := by decide +kernel
/-- spec/04, the example under R91. -/
def blockEx : List Word := [0x3F400000, 0xBFA00000, 0x3F000000, 0x4039999A, 0x42200000] ++ List.replicate 11 0
theorem test_block_quantise : qblkEncode .rne (List.replicate 16 0) (blockEx.map fun w => decode f32 w.toNat) =
    ([0x3, 0xC, 0x2, 0x7, 0x8] ++ List.replicate 11 0, 0x6A7E) := by decide +kernel
/-- spec/04, the example under R94: K = 64, P = 2, each k-step 1.0 and then 2^-16; C ends 4.0. -/
theorem test_fa24_loss : (dotFloat (BitVec.ofNat 64 0x000000010000FFFF00) 64 (fun k => if k % 16 < 2 then decode bf16 0x3F80 else .fin false 0 0)
    (fun k => if k % 16 = 0 then decode bf16 0x3F80 else if k % 16 = 1 then decode bf16 0x3780 else .fin false 0 0) (fun _ => none) (fun _ => none) 0).c =
    0x40800000 := by decide +kernel
/-- spec/09, the examples under R213 and R230. -/
theorem test_declared_precision : fmtInt 8 4 0x5B = 80 ∧ fmtInt 8 4 0xA7 = -96 := by decide +kernel
def amaxEx (n : List Nat) (f : Nat) : List Word := (List.range 16).map fun j => if n.contains j then 0x7FC00000 else if j = 3 ∨ j = 9 then BitVec.ofNat 32 f else 0x3F800000
theorem test_amax : amaxRow false 32 (amaxEx [12, 14] 0x40A00000) (0x40E00000, 5) = (0x7FC00000, 44) ∧
    amaxRow false 48 (amaxEx [0] 0x40A00000) (0x7FC00000, 44) = (0x7FC00000, 44) ∧
    amaxRow false 32 (amaxEx [] 0x40A00000) (0x40A00000, 20) = (0x40A00000, 20) := by decide +kernel
/-- spec/14, the examples under R286, R290 and R303. -/
theorem test_rates : combineRate 2 (combineRate 4 (1, 0) (0, 1)) (1, 1) = (1, 1) ∧ stepRate 1 (1, 1) = (2, 1) := by decide +kernel
theorem test_dice_columns : edgeCount 2 2 [some (0, 0), some (0x41BC0000, 0x40800000)] = 16 ∧
    (cutPatch (16, 16, 1, 1)).map (·.1) = [6, 6, 7] := by decide +kernel
theorem test_merge_layers : mergeLayers 16 ⟨0x3F400000, [0x3400, 0, 0, 0x3800], 0x00FF, false⟩ ⟨0x3F4CCCCD, [0x3800, 0x3800, 0, 0x3C00], 0x0F0F, false⟩ =
    ⟨0x3F400000, [0x3800, 0x3400, 0, 0x3C00], 0x0FFF, false⟩ := by decide +kernel
/-- spec/15, the example under R311. -/
theorem test_home : sliceOf 0x001234567880 = 8 ∧ chanOf 0x001234567880 = 0x3E ∧ sliceOf 0x001234567800 = 8 ∧ chanOf 0x001234567800 = 62 := by decide +kernel
/-- spec/17, the example under R346: I = 12, ipt = 4, R = 5, pool 0x03, a tag block of 3; workgroup 3. -/
theorem test_split_k : Grid.pfix { Grid.blank with pool := some 3, d := { Desc.blank with kind := 1, x := 5, iters := 12, ipt := 4, tagblock := 3 } } 3 = 0x0000010B03000001#64 := by
  decide +kernel
/-- spec/01, the example under R28: the row of a partial write. -/
theorem test_partial_add : after (exec (.add ⟨⟨true, 1⟩, .v 3, .v 3, .imm 64⟩ .i32)
    ((State.reset.place 0 0).modW fun w => { w with v := w.v.set 3 (.aff 0x1000 4), p := (List.replicate 7 0).set 1 0x20 })) (fun t => ((t.vreg 3).at 5, (t.vreg 3).at 6, (t.vreg 3).isGen)) =
    some (0x1014, 0x1058, true) := by decide +kernel

/-- V5 addresses the last 128 bytes of the A-buffer, one word a thread; V6 the first of a tile; V7 one 16-byte part a thread. -/
def loc : State := base.modW fun w => { w with v := ((w.v.set 5 (.aff 0x1FF80 4)).set 6 (.aff 0 4)).set 7 (.aff 0 16) }
def lop (d a : Opnd) (z : Size) : LocalOp := ⟨.always, 0, d, a, .null, 0, z, false⟩

theorem loc_sound : loc.sound := by
  refine ⟨?_, ?_, ?_, ?_, ⟨_, rfl⟩, ?_, ?_, ?_⟩ <;> decide +kernel

/-- LocalLoadsAndStores: the last words of the buffer by a V destination, by S63 and by WG15, and a 16-byte group at V124. -/
theorem wit_LocalLoadsAndStores : loc.quiet ∧ (Instr.ldA (lop (.v 9) (.v 5) .b32)).wf = true ∧ loc.rowsFor 9 1 ∧
    AddrsOk (loc.guardMask .always) (loc.localAddr (lop (.v 9) (.v 5) .b32)) 4 (loc.g.size .a) ∧
    (Instr.ldW (lop (.v 124) (.v 7) .b128)).wf = true ∧ loc.w.role = .general ∧ loc.rowsFor 124 4 ∧
    AddrsOk (loc.guardMask .always) (loc.localAddr (lop (.v 124) (.v 7) .b128)) 16 (loc.g.size .w) ∧
    (Instr.ldA (lop (.s 63) (.s 0) .b32)).wf = true ∧ (Instr.ldA (lop (.wg 15) (.s 0) .b32)).wf = true ∧ loc.g.wgPrev = [] ∧
    (loc.src (.s 0)).isUni = true ∧ (loc.src .null).isUni = true ∧ loc.localAddr (lop (.wg 15) (.s 0) .b32) 0 = 0 ∧
    (Instr.stA (lop (.k 5) (.v 5) .b32)).wf = true := by decide +kernel

theorem wit_TileAccess : loc.quiet ∧ loc.w.role ≠ .copy ∧ (31#5).toNat < loc.g.tc.length ∧
    AddrsOk (loc.guardMask .always) (fun k => ((loc.src (.v 6)).at k + (0 : BitVec 8).signExtend 32 * BitVec.ofNat 32 4).toNat) 4 1024 ∧
    (Instr.ldC ⟨.always, 0, .v 9, .v 6, 0, .b32, 31⟩).wf = true ∧ loc.rowsFor 9 1 ∧ loc.busyDst 0 0 31 = false ∧
    (Instr.stC ⟨.always, 0, .v 9, .v 6, 0, .b32, 31⟩).wf = true := by decide +kernel

/-- LocalAccessTraps: a copy wave; the first misaligned thread; the first thread past the end. -/
theorem wit_LocalAccessTraps : loc.live = true ∧ (loc.modW fun w => { w with role := .copy }).w.role = .copy ∧
    loc.localAddr (lop (.v 9) (.v 2) .b32) 0 % 4 ≠ 0 ∧ (loc.guardMask .always).getLsbD 0 = true ∧
    (∀ j < 32, loc.localAddr ⟨.always, 0, .v 9, .v 5, .null, 1, .b32, false⟩ j % 4 = 0) ∧
    loc.g.size .a < loc.localAddr ⟨.always, 0, .v 9, .v 5, .null, 1, .b32, false⟩ 31 + 4 ∧
    (∀ j < 31, ¬loc.g.size .a < loc.localAddr ⟨.always, 0, .v 9, .v 5, .null, 1, .b32, false⟩ j + 4) := by decide +kernel

theorem wit_LocalAtomics : loc.quiet ∧ (loc.src (.k 10)).isUni = true ∧ ((loc.src (.s 0)).at 0 + (0 : BitVec 8).signExtend 32 * 4).toNat % 4 = 0 ∧
    loc.rowFree 9 ∧ AddrsOk (loc.guardMask .always) (fun k => ((loc.src (.v 5)).at k + (0 : BitVec 8).signExtend 32 * 4).toNat) 4 (loc.g.size .a) ∧
    AddrsOk (loc.guardMask .always) (fun k => ((loc.src (.s 0)).at k + (0 : BitVec 8).signExtend 32 * 4).toNat) 4 (loc.g.size .a) ∧
    (loc.src (.s 0)).at 0 = (loc.src (.s 0)).at 31 ∧ loc.g.wgPrev = [] ∧ loc.guardMask .always ≠ 0 := by decide +kernel

/-- TagsAndWaits: the last eight tiles of the A space, clear at launch; a counter at its threshold and above. -/
theorem wit_TagsAndWaits : loc.quiet ∧ (loc.src (.s 0)).isUni = true ∧ ((loc.src (.s 0)).at 0).toNat % 1024 = 0 ∧
    ((loc.src (.s 0)).at 0).toNat / 1024 + (120#8).toNat + (7#3).toNat + 1 ≤ (loc.g.tags .a).length ∧
    (∀ k < 128, (loc.closed.g.tag .a k).v = false) ∧ loc.closed.w.count .s ≤ ((loc.src (.k 0)).at 0).toNat := by decide +kernel

/-! Barriers: NB1 at its last arrival, NB2 owed bytes, NB3 overrun, NB4 in error, NB5 bound to tile 127. -/
def barred : State := loc.modG fun g =>
  { g with bars := (((((g.bars.set 1 { Bar.blank with exp := 2, arr := 1 }).set 2 { Bar.blank with exp := 2, arr := 1, cnt0 := 16 }).set 3
      { Bar.blank with exp := 64, arr := 63, cnt0 := -8 }).set 4 { Bar.blank with exp := 1, err := true, cause := 1 }).set 5
      { Bar.blank with exp := 3, arr := 1, bind := some 0x1FC00 }).set 6 { Bar.blank with exp := 2, arr := 2 } }
theorem wit_BarrierCounts : barred.quiet ∧ (47#6).toNat < barred.g.bars.length ∧ (barred.src (.v 1)).isUni = true ∧ ((barred.src (.v 1)).at 0).toNat ≤ 64 ∧
    64 < ((barred.src (.k 10)).at 0).toNat ∧ (barred.g.bar 1).err = false ∧ 1 ≤ (barred.g.bar 1).exp ∧ (barred.g.bar 1).arr < (barred.g.bar 1).exp ∧
    (barred.g.bar 1).cnt false + 5 ≤ 2147483647 ∧ (barred.g.bar 1).arr + 1 = (barred.g.bar 1).exp ∧ (barred.g.bar 1).cnt (barred.g.bar 1).ph = 0 ∧
    0 < (barred.g.bar 2).cnt (barred.g.bar 2).ph ∧ (barred.g.bar 3).arr + 1 = (barred.g.bar 3).exp ∧ (barred.g.bar 3).cnt (barred.g.bar 3).ph < 0 ∧
    (barred.g.bar 0).exp = 0 ∧ (barred.g.bar 6).arr = (barred.g.bar 6).exp ∧ (barred.g.bar 5).arr + 1 < (barred.g.bar 5).exp := by decide +kernel

theorem wit_BarrierWaitsAndTests : barred.quiet ∧ (barred.src (.v 1)).isUni = true ∧ ((barred.src (.v 1)).at 0).getLsbD 0 = true ∧
    (barred.g.bar 1).ph = false ∧ (barred.g.bar 1).err = false ∧ (barred.g.bar 4).err = true ∧ barred.sp.arrived = false ∧ barred.sp.status = .running ∧
    (barred.g.bar 5).arr + 1 < (barred.g.bar 5).exp ∧ (barred.g.bar 1).cnt false = 0 ∧
    ((barred.src (.k 9)).at 0) ≠ 0xFFFFFFFF#32 ∧ (barred.src (.s 0)).at 0 = 0 ∧ 0 + 1024 ≤ barred.g.size .a ∧
    (∀ j < barred.g.bars.length, j ≠ 1 → (barred.g.bar j).bind ≠ some 0) := by decide +kernel

/-! The copy engine: a plain copy of 32 bytes from tile 0 to tile 1 on NB1; one on a barrier past the last; one with a
reserved bit; one past the end of the buffer. -/
def copyReq (w0 w1 : DWord) : CopyReq := ⟨3, 0, 0, 0, 1, 0, [w0, w1, 32, 0], [], 0, 2, [], 0, 0, 5, [], 0, none⟩
def copyW0 : DWord := BitVec.ofNat 64 (2 ^ 52 + 2 ^ 54)
def plainCopy : CopyReq := copyReq copyW0 (BitVec.ofNat 64 (2 ^ 52 + 1024))
def copying : State := (loc.modG fun g => { g with ta := List.replicate 128 ⟨true, true, false⟩ }).modCore 0 fun c =>
  { c with kicks := [⟨0, 0, 0, 1, 0, 2, 7⟩], copyIn := [plainCopy], copyRun := [plainCopy] }
theorem wit_CopyEngine : loc.quiet ∧ (loc.src (.v 1)).isUni = true ∧ ((loc.src (.v 1)).at 0).toNat % 32 ≠ 0 ∧
    ((loc.src (.s 0)).at 0).toNat % 32 = 0 ∧ 64 < ((loc.src (.k 10)).at 0).toNat ∧ ((loc.src (.k 0)).at 0).toNat = 0 ∧
    0 < ((loc.src (.v 1)).at 0).toNat ∧ ((loc.src (.s 0)).at 0).toNat + 5 * 32 ≤ loc.g.size .a ∧ loc.w.count .c + 5 ≤ 255 ∧
    ((loc.modCore 0 fun c => { c with copyIn := List.replicate 64 plainCopy }).core 0).copyIn.length = 64 ∧
    (copying.core 0).kicks ≠ [] ∧ (copying.core 0).copyIn.length < 64 ∧ (copying.core 0).copyIn = [plainCopy] ∧
    plainCopy.nb < copying.g.bars.length ∧ plainCopy.formed = true ∧ plainCopy.inside copying.g = true ∧ plainCopy.mode ≠ 2 ∧
    copying.g.bars.length ≤ (copyReq copyW0 (BitVec.ofNat 64 (48 * 2 ^ 52 + 1024))).nb ∧
    (copyReq (copyW0 ||| BitVec.ofNat 64 (2 ^ 63)) (BitVec.ofNat 64 (2 ^ 52 + 1024))).formed = false ∧
    (copyReq copyW0 (BitVec.ofNat 64 (2 ^ 52 + 0x1FFF0))).formed = true ∧
    (copyReq copyW0 (BitVec.ofNat 64 (2 ^ 52 + 0x1FFF0))).inside copying.g = false := by decide +kernel

theorem wit_CopyEngine_room : loc.w.accs = [] ∧ (loc.core 0).kicks = [] ∧ (loc.core 0).copyIn.length + 5 ≤ 64 := by decide +kernel
theorem wit_CopyEngine_part : (copying.core 0).copyRun.find? (·.id == plainCopy.id) = some plainCopy ∧ look copying.wgs plainCopy.wg = some copying.g ∧
    Mem.wf copying.g.a = true ∧ plainCopy.granted ≠ 0 ∧ plainCopy.mode = 0 ∧ plainCopy.zc = 0 ∧ plainCopy.ssp = 1 ∧ plainCopy.dsp = 1 ∧
    plainCopy.swait = false ∧ copying.g.mayBegin .a plainCopy.begun (tilesOf (plainCopy.dst + 16 * plainCopy.next) 16) = true := by decide +kernel

/-! Streams: an empty A-buffer descriptor, one stream defined, one that another indexes. -/
def flowing : State := loc.modW fun w => { w with streams := [(0, ⟨0, 0, 4, 40, false, 2, none, false, 8, (List.range 32).map fun i => (8 + i, ⟨[0, 0, 0, 0], none, 0, false, 0⟩), 0, []⟩),
  (1, ⟨0, 0, 4, 8, false, 2, some 2, false, 0, [], 1, []⟩), (2, ⟨0, 0, 4, 8, false, 2, none, false, 0, [], 2, []⟩),
  (3, ⟨0, 0, 4, 40, false, 2, none, false, 8, [], 3, []⟩)] }
theorem wit_StreamInstructions : loc.quiet ∧ (loc.src (.s 0)).isUni = true ∧ descZeros (loc.bufGet 0 .a 0 32) = true ∧
    loc.w.dependants 31 = [] ∧ look loc.w.streams 31 = none ∧
    loc.strRecords loc.cur.core < 32 ∧ flowing.walkFaults = [] ∧ flowing.sp.pfx = none ∧
    ((look flowing.w.streams 3).any fun x => look x.q x.pos == none && x.idx == none && x.nextFill == some 8 && x.out == [] && x.esz == Size.code .b32) = true ∧
    flowing.w.dependants 0 = [] ∧ flowing.w.count .q < 255 ∧ flowing.rowsFor 9 1 ∧ flowing.guardMask .always ≠ 0 ∧
    ((look flowing.w.streams 0).any fun x => (List.range 32).all fun t => (look x.q (x.pos + t)).any fun e => !e.stale && e.fault == none) = true ∧
    look flowing.w.streams 2 ≠ none ∧ flowing.w.dependants 2 ≠ [] := by decide +kernel

/-- A stream in global memory whose next element lies in a page that the core's TLB holds. -/
def flowingG : State := { (State.reset.place 0 0).modW fun w => { w with streams := [(4, ⟨0, 0x200, 4, 8, true, 2, none, false, 0, [], 4, []⟩)] } with agenda := [] }
theorem wit_StreamInstructions_global : ((look flowingG.w.streams 4).any fun x => x.global && x.nextFill == some 0 && x.out == [] && x.idx == none) = true ∧
    flowingG.w.stop = .none ∧ 0x200 % 2 ^ 2 = 0 ∧ flowingG.walkFaults = [] ∧ isHostPa 0x200 = false ∧
    flowingG.lookup 0 (flowingG.grid flowingG.w.grid).d.asid 0x200 false = .page ⟨0, 0, 65536, 0, 0, true, true⟩ := by decide +kernel
def spawned : State := jumpy.modW fun w => { w with startAt := 1 }
theorem wit_SpawnResult_ready : ((({ spawned with cores := [(0, { (spawned.core 0) with cyc := 1 })] } : State).wave? 0 0).any fun w =>
    w.startAt != 0 && decide (w.startAt ≤ (({ spawned with cores := [(0, { (spawned.core 0) with cyc := 1 })] } : State).core 0).cyc.toNat)) = true := by decide +kernel
def crowded : Core := { Core.blank with waves := (List.range 64).map fun k => (k, Wave.blank) }
theorem wit_SpawnResult : jumpy.quiet ∧ Lands jumpy (jumpy.sp.pair 2) 0x2085000000000000 ∧ (jumpy.core 0).freeCtx.head? = some 1 ∧
    jumpy.w.g ≤ (jumpy.core 0).freeRows ∧ (jumpy.liveIdx 0).length < 16 ∧ jumpy.stopPending 0 = false ∧ crowded.freeCtx = [] := by decide +kernel

/-! Global memory: the page at 0 is mapped; thread 0 alone has P0. -/
def glo : State := (State.reset.place 0 0).modW fun w =>
  { w with
    p := (List.replicate 7 0).set 0 1
    v := (((w.v.set 2 (.uni 0x100)).set 3 (.uni 0)).set 4 (.uni 0x101)).set 5 (.uni 0) }
theorem glo_page : threads (glo.guardMask ⟨false, 0⟩) = [0] ∧
    glo.lookup glo.cur.core glo.gr.d.asid 0x100 true = .page ⟨0, 0, 65536, 0, 0, true, true⟩ := by decide +kernel
theorem wit_GlobalAccessIssue : glo.quiet ∧ glo.guardMask ⟨false, 0⟩ ≠ 0 ∧ (glo.globalEa (.v 2) .null 0 4 0).toNat % 4 = 0 ∧
    (∀ k ∈ threads (glo.guardMask ⟨false, 0⟩), glo.globalEa (.v 2) .null 0 8 k = 0x100) ∧ isHostPa 0x100 = false ∧
    glo.w.count .g < 255 ∧ glo.w.count .s < 255 ∧ glo.rowsFor 126 2 ∧ (glo.src (.v 2)).isUni = true ∧ (glo.srcHi (.v 2)).isUni = true ∧
    (glo.globalEa (.v 4) .null 0 4 0).toNat % 4 ≠ 0 ∧
    glo.lookup 0 0 0x10000 true = .miss ∧ glo.lookup 0 0 (BitVec.ofNat 64 (2 ^ 52)) true = .fault 3 ∧
    (glo.at64 (.v 2) 0).toNat % 128 = 0 ∧ (glo.at64 (.v 4) 0).toNat % 128 ≠ 0 ∧ glo.guardMask ⟨false, 1⟩ = 0 ∧ (glo.at64 (.v 4) 0).toNat % 8 ≠ 0 := by
  decide +kernel

/-! An access in flight: one element, of a store and of a load. -/
def elem0 : Elem := ⟨0, 0x100, 0x100, 0, 0xFF00, 4, [1, 2, 3, 4], [], false, false, false, false, [], 0, 0⟩
def acc0 (p : Path) (op : ElemOp) : Acc := ⟨0, p, 0, op, .dv, .null, .null, 1, 2, false, false, 1#32, 0, [elem0], false⟩
def flying (p : Path) (op : ElemOp) : State := glo.modW fun w => { w with accs := [acc0 p op], nextAcc := 1 }
def fenced : State := (flying .s .store).modSp fun p => { p with status := .waiting (.fence true false .dv [0] [] []) }
theorem wit_Fences : glo.quiet ∧ (glo.w.accs.map (·.id)).Nodup ∧ (∀ a ∈ glo.w.accs, a.inW = false) ∧ reached (glo.now 0) glo.w.lwt = true ∧
    (flying .s .store).quiet ∧ ((flying .s .store).w.accs.map (·.id)).Nodup ∧ (∃ a ∈ (flying .s .store).w.accs, a.inW = true) ∧
    (fenced.withCur ⟨0, 0, 0⟩).live = true ∧ (fenced.withCur ⟨0, 0, 0⟩).sp.status = .waiting (.fence true false .dv [0] [] []) ∧
    ∃ a ∈ (fenced.withCur ⟨0, 0, 0⟩).w.accs, a.id ∈ [0] := by decide +kernel

/-! A walk that finds a page and one that does not; an access that waits for each; a finished store; a load of two threads
in a window; a channel that held an access for 100 ms. -/
def pte (pa : Nat) : List Byte := leBytes 8 (pa + 1)
def mappedWalk : State := { glo with ready := BitVec.allOnes 256, walks := [⟨0, 0, none, 5, 0, 0, []⟩], mem := Mem.puts (Mem.puts (Mem.puts (Mem.puts [] 0 (pte 0x10000)) 0x10000 (pte 0x20000)) 0x20000 (pte 0x30000)) 0x30000 (pte 0x4000E) }
/-- A read of a unit's task that has come back. -/
def read0 (src : Source) (key pa : Nat) (bs : List Byte) : Ask := ⟨0, src, key, pa, bs.length, .read, none, .poll, some (some bs), 0, 0⟩
def walkedBack : State := { mappedWalk with asks := [read0 (.walker 0) 0 0 (pte 0x10000), read0 (.walker 0) 0 0x10000 (pte 0x20000),
  read0 (.walker 0) 0 0x20000 (pte 0x30000), read0 (.walker 0) 0 0x30000 (pte 0x4000E), read0 (.walker 0) 0 16 (List.replicate 8 0)] }
def awaiting (f : Option (Nat × Nat)) : State := glo.modSp fun p => { p with status := .waiting (.translate (acc0 .s .store) 0 f) }
def finished (p : Path) (op : ElemOp) (es : List Elem) (d : Opnd) : State := glo.modW fun w =>
  { w with accs := [{ (acc0 p op) with elems := es, dst := d, mask := BitVec.ofNat 32 (2 ^ es.length - 1) }], nextAcc := 1 }
def loaded : State := (finished .g (.load false) [{ elem0 with done := true, ok := true, ret := [1, 0, 0, 0] },
  { elem0 with t := 1, done := true, ok := true, ret := [2, 0, 0, 0] }] (.v 9)).modSp fun p => { p with windows := [⟨0, 1, [.v 9], [], false, none, 0⟩] }
def heldReq : Req := ⟨0, 0, 0, 0, 0x100, false, false, .core 0, 0, 0, 0, .elem⟩
def stuck : State := { (flying .g (.load false)) with tu := 10 ^ 8 * Config.tuPerNs, chans := [(0, ⟨0, [⟨heldReq, 0⟩], []⟩)] }
theorem wit_TranslationAndResponses :
    (mappedWalk.quadWalks (0 % 4))[0 / 4]? = some ⟨0, 0, none, 5, 0, 0, []⟩ ∧
    (match walkedBack.ownWalk (Who.of (.walker 0) 0) 5 0 0 with | .ok (.page _) => true | _ => false) = true ∧
    (match walkedBack.ownWalk (Who.of (.walker 0) 0) 5 0 (2 ^ 40) with | .ok (.fault _ _) => true | _ => false) = true ∧
    (match mappedWalk.ownWalk (Who.of (.walker 0) 0) 5 0 0 with | .error (.read _ ps) => ps.all fun pa => !mappedWalk.asks.any (·.covers (Who.of (.walker 0) 0) pa.1 pa.2) | _ => false) = true ∧
    glo.lookup 0 0 0x100 true = .page ⟨0, 0, 65536, 0, 0, true, true⟩ ∧ (awaiting none).walks = [] ∧ (3 : Nat) ≠ kindBad ∧
    ((awaiting none).withCur ⟨0, 0, 0⟩).live = true ∧ ((awaiting (some (0, 3))).withCur ⟨0, 0, 0⟩).sp.status = .waiting (.translate (acc0 .s .store) 0 (some (0, 3))) ∧
    ((acc0 .s .store).elems.find? fun e => e.t == 0).isSome = true ∧ (∀ w ∈ (awaiting none).walks, w.cluster ≠ 0) ∧
    ((loaded.wave? 0 0).any fun w => w.accs.all (fun a => !a.done && a.elems.all (·.done) && a.mask != 0) && w.splits.length == 1) = true ∧
    ((loaded.wave? 0 0).any fun w => w.splits.all fun p => p.status == .running && p.windows.all fun x => x.acc == 0 && !x.delivered && x.held == []) = true ∧
    (look stuck.chans 0).isSome = true ∧ stuck.ready.getLsbD 8 = false ∧ 0 + 100000000 * Config.tuPerNs ≤ stuck.tu := by decide +kernel

/-! The slice of line 2: the line present, absent, filling; a claim of its cluster. -/
def r0 : Req := heldReq
def sliced (op : ElemOp) (ls : List L2Line) (q : List Req) : State :=
  { (flying .s op) with mem := [], slices := [(sliceOf 0x100, { Slice.blank with lines := ls, q := q })], ready := 2 ^ 8 }
def claimed : State := { (sliced (.atom .add) [⟨2, 0, 0, none, some 0, 0⟩] [r0]) with clusters := [(0, { Cluster.blank with claims := [⟨2, 0, 0⟩], atomQ := [r0] })] }
/-- A present line 2 that holds a queue of 4-byte slots with capacity 2, with its slots in line 3. -/
def queueBytes (head tail lg code : Nat) : List Byte :=
  leBytes 4 head ++ leBytes 4 tail ++ leBytes 4 0 ++ [BitVec.ofNat 8 (lg + 16 * code)] ++ List.replicate 115 0
def lines23 : List L2Line := [⟨2, 0, 0, none, none, 0⟩]
def queueAt0 (op : ElemOp) (data : List Byte) (bs : List Byte) : State :=
  let at_ := sliceOf 0x180
  let s := (sliced op lines23 [r0]).modW fun w => { w with accs := [{ (acc0 .s op) with elems := [{ elem0 with len := data.length, data := data }] }] }
  let s := { s with mem := (s.mem.puts 0x100 bs).puts 0x180 [9, 8, 7, 6] }
  s.modSlice at_ fun x => { x with lines := x.lines ++ [⟨3, 0, 0, none, none, 1⟩] }
def goesFirst (s : State) : Bool := (s.slice (sliceOf 0x100)).q[0]? == some r0 && s.inOrder (sliceOf 0x100) 0 r0 && !s.outranked (sliceOf 0x100) r0 &&
  (s.slice (sliceOf 0x100)).lines.find? (·.line == 2) == some ⟨2, 0, 0, none, none, 0⟩
theorem wit_SliceRequests_queue :
    goesFirst (queueAt0 (.push 4 true true) [1, 2, 3, 4] (queueBytes 0 1 1 0)) = true ∧
    (queueAt0 (.push 4 true true) [1, 2, 3, 4] (queueBytes 0 1 1 0)).queueAt 0x100 (qCode 4) 4 1 elem0.room ∧
    (queueAt0 (.push 4 true true) [1, 2, 3, 4] (queueBytes 0 2 1 0)).queueAt 0x100 (qCode 4) 4 1 elem0.room ∧
    (queueAt0 (.push 4 true true) [1, 2, 3, 4] (queueBytes 0 1 1 0)).lineIn ((0x100 + 128 + 1 % 2 ^ 1 * 4) / 128) = true ∧
    (queueAt0 (.push 4 true true) [1, 2, 3, 4] (queueBytes 0 1 1 0)).memOk ∧ (queueAt0 (.push 4 true true) [1, 2, 3, 4] (queueBytes 0 1 1 0)).badMem = [] ∧
    (queueAt0 .task (List.replicate 40 1) (queueBytes 0 1 1 3)).queueAt 0x100 3 64 1 elem0.room ∧
    (queueAt0 .task (List.replicate 40 1) (queueBytes 0 1 1 3)).lineIn ((0x100 + 128 + 1 % 2 ^ 1 * 64) / 128) = true ∧
    goesFirst (queueAt0 .task (List.replicate 40 1) (queueBytes 0 1 1 3)) = true ∧
    goesFirst (queueAt0 (.pop 4) [] (queueBytes 0 1 1 0)) = true ∧ (queueAt0 (.pop 4) [] (queueBytes 0 1 1 0)).queueAt 0x100 (qCode 4) 4 1 elem0.room ∧
    (queueAt0 (.pop 4) [] (queueBytes 1 1 1 0)).queueAt 0x100 (qCode 4) 4 1 elem0.room ∧
    (queueAt0 (.pop 4) [] (queueBytes 0 1 1 0)).lineIn ((0x100 + 128 + 0 % 2 ^ 1 * 4) / 128) = true ∧
    (∀ lg < 16, ¬(queueAt0 (.pop 4) [] (queueBytes 0 1 1 2)).queueAt 0x100 (qCode 4) 4 lg elem0.room) ∧
    (queueAt0 (.pop 4) [] (queueBytes 0 1 1 2)).pools.logRing = none ∧
    ((queueAt0 (.pop 4) [] (queueBytes 0 1 1 2)).acc? 0 0 0).any (fun a => a.elems.all fun x => !x.badHdr) = true := by
  unfold State.queueAt; decide +kernel

theorem wit_SliceRequests : (sliced .store [⟨2, 0, 0, none, none, 0⟩] [r0]).memOk ∧ (sliced .store [] [r0]).badMem = [] ∧
    (sliced .store [] [r0]).acc? 0 0 0 = some (acc0 .s .store) ∧ (sliced .store [] [r0]).elem? r0 = some elem0 ∧ elem0.pa = r0.pa ∧
    (sliced .store [] [r0]).inRing 0x100 = false ∧ (sliced .store [] [r0]).rbase = none ∧
    ((sliced .store [⟨2, 0, 0, none, none, 0⟩] [r0]).slice (sliceOf 0x100)).q[0]? = some r0 ∧
    (sliced .store [⟨2, 0, 0, none, none, 0⟩] [r0]).inOrder (sliceOf 0x100) 0 r0 = true ∧ (sliced .store [⟨2, 0, 0, none, none, 0⟩] [r0]).outranked (sliceOf 0x100) r0 = false ∧
    ((sliced .store [⟨2, 0, 0, none, none, 0⟩] [r0]).slice (sliceOf 0x100)).lines.find? (·.line == 0x100 / 128) = some ⟨2, 0, 0, none, none, 0⟩ ∧
    (sliced .store [] [r0]).inOrder (sliceOf 0x100) 0 r0 = true ∧ (sliced .store [] [r0]).outranked (sliceOf 0x100) r0 = false ∧
    ((sliced .store [] [r0]).slice (sliceOf 0x100)).lent 0 = false ∧
    ((sliced (.load false) [⟨2, 0, 0, some [r0], none, 0⟩] []).slice (sliceOf 0x100)).lines.find? (·.line == 2) = some ⟨2, 0, 0, some [r0], none, 0⟩ ∧
    (sliced (.load false) [⟨2, 0, 0, some [r0], none, 0⟩] []).chanReady (2 * 128) = true ∧
    (sliced (.load false) [⟨2, 0, 0, some [r0], none, 0⟩] []).fetchTurn 2 = true ∧ r0.for_ = .elem ∧ r0.due ≤ claimed.tu ∧
    claimed.claimed 0 2 = some ⟨2, 0, 0⟩ ∧ (claimed.cluster 0).atomQ[0]? = some r0 ∧ claimed.acc? 0 0 0 = some (acc0 .s (.atom .add)) ∧
    (∃ y ∈ (claimed.slice (sliceOf 0x100)).q, y.pa / 128 = 2) ∧ 0 + 1000 * Config.tuPerNs ≤ ({ claimed with tu := 1000 * Config.tuPerNs } : State).tu := by
  decide +kernel

def loadedS : State := (finished .s (.load false) [{ elem0 with done := true, ok := true, ret := [1, 0, 0, 0] }] (.s 9)).modSp fun p =>
  { p with windows := [⟨0, 1, [.s 9], [], false, none, 0⟩] }
/-- R36, R160: a load into S9 brings the loaded word when nothing wrote S9 in the window. -/
theorem test_deliver_s : (loadedS.w.accs.head?.map fun a => ((loadedS.withCur ⟨0, 0, 0⟩).deliver a).sp.s.getD 9 0) = some 1 := by decide +kernel

/-- LaneFormsAndCallsComplete: a V and a WG destination; a call, a return and a callx that land. -/
def eight : State := (header 24 4).modSp fun p => { p with mask := 0xFF0#32 }
theorem wit_LaneFormsAndCallsComplete : base.quiet ∧ base.rowFree 9 ∧ (Opnd.wg 15).isScalarReg = true ∧ (base.src (.v 1)).isUni = true ∧
    (base.srcB (.reg (.k 10)) false).isUni = true ∧ jumpy.quiet ∧ jumpy.sp.s.length = 64 ∧ Lands jumpy (jumpy.targetOf (.disp 1)) 0x2085000000000000 ∧
    fhdrOf 0x2085000000000000 = none ∧ jumpy.sp.depth < 64 ∧ Lands jumpy (jumpy.sp.pair 2) 0x2085000000000000 ∧
    (jumpy.modSp fun p => { p with depth := 1 }).sp.depth ≠ 0 ∧ (header 24 4).quiet ∧ (header 24 4).sp.s.length = 64 ∧ (header 24 4).sp.mask.getLsbD 0 = true ∧
    (header 24 4).w.handler = none ∧
    eight.w.splits.length + eight.w.deferred.length + (threads eight.sp.mask).length ≤ 13 ∧ eight.sp.mask.getLsbD 4 = true ∧
    (∀ j < 4, eight.sp.mask.getLsbD j = false) ∧
    (∀ j < 32, Lands eight (eight.at64 (.v 8) j) (BitVec.ofNat 64 (2 ^ 61 + fullC 0x10C 7 0xFF 0xFF 0xFF (4 * 256 + 24)))) ∧
    fhdrOf (BitVec.ofNat 64 (2 ^ 61 + fullC 0x10C 7 0xFF 0xFF 0xFF (4 * 256 + 24))) = some (24, 4) ∧ (header 24 4).w.n = 24 ∧ (header 24 4).w.g = 4 := by
  decide +kernel

/-- MemoryFormsComplete: the last words of the A-buffer, of a W-buffer tile and of a C tile; a page; an aligned queue. -/
theorem wit_MemoryFormsComplete : loc.quiet ∧ loc.rowsFor 9 1 ∧ loc.rowsFor 124 4 ∧ loc.rowFree 9 ∧ loc.w.role = .general ∧
    AddrsOk (loc.guardMask .always) (fun k => ((loc.src (.v 5)).at k + (loc.src .null).at k + (0 : BitVec 8).signExtend 32 * BitVec.ofNat 32 4).toNat) 4 (loc.g.size .a) ∧
    AddrsOk (loc.guardMask .always) (fun k => ((loc.src (.v 7)).at k + (loc.src .null).at k + (0 : BitVec 8).signExtend 32 * BitVec.ofNat 32 16).toNat) 16 (loc.g.size .w) ∧
    AddrsOk (loc.guardMask .always) (fun k => ((loc.src (.v 6)).at k + (loc.src .null).at k + (0 : BitVec 8).signExtend 32 * BitVec.ofNat 32 4).toNat) 4 1024 ∧
    (31#5).toNat < loc.g.tc.length ∧ glo.quiet ∧ threads (glo.guardMask ⟨false, 0⟩) = [0] ∧ (glo.globalEa (.v 2) .null 0 8 0) = 0x100 ∧
    glo.lookup 0 0 0x100 true = .page ⟨0, 0, 65536, 0, 0, true, true⟩ ∧ glo.lookup 0 0 0x100 false = .page ⟨0, 0, 65536, 0, 0, true, true⟩ ∧
    isHostPa ((⟨0, 0, 65536, 0, 0, true, true⟩ : TlbE).pa? 0x100) = false ∧ glo.w.count .g < 255 ∧ glo.w.count .s < 255 ∧ glo.rowsFor 126 2 ∧
    (glo.src (.v 2)).isUni = true ∧ (glo.srcHi (.v 2)).isUni = true ∧ (glo.at64 (.v 2) 0).toNat % 128 = 0 ∧ glo.rowsFor 124 4 := by decide +kernel

def unitReq (src : Source) (tag pa : Nat) : Req := ⟨0, 0, 0, 0, pa, false, false, src, 0, 0, 0, .unit tag⟩
/-! ### The matrix array: int8 by int8, K = 32, and a bound scale -/
def fbInt8 : DWord := BitVec.ofNat 64 (8 + 8 * 16 + 255 * 2 ^ 8 + 255 * 2 ^ 16)
def mat : State := (State.reset.place 0 0).modSp fun p => { p with s := (p.s.set 12 (fbInt8.extractLsb' 0 32)).set 13 (fbInt8.extractLsb' 32 32) }
def mat2 : State := mat.modG fun g => { g with scl := [(7, ⟨0, 0x10010⟩)] }
theorem wit_MatrixIssue : mat.quiet ∧ mat.w.role = .general ∧ mat.converged .always = true ∧ mat.arrayRoom ∧ (mat.src (.s 0)).isUni = true ∧
    (mat.src .null).isUni = true ∧ fbValid (mat.sp.pair 12) 32 false false = true ∧ (0 : Nat) + bytesA (mat.sp.pair 12) 32 ≤ mat.g.size .a ∧
    0 + bytesB (mat.sp.pair 12) 32 false ≤ mat.g.size .w ∧ (31#5).toNat < mat.g.tc.length ∧ fbSidA (mat.sp.pair 12) = 255 ∧ fbSidB (mat.sp.pair 12) = 255 ∧
    mat.rowsFor 112 16 ∧ mat.w.mfault = none ∧ mat.w.count .m ≤ 0 ∧ (31#5).toNat + (0#5).toNat + 1 ≤ mat.g.tc.length ∧
    (0#5).toNat % epiTiles true .bf16 = 0 ∧ 0 + epiBytes true .bf16 ≤ mat.g.size .a ∧ mat.rowsFor 126 2 ∧ (0 : Word).extractLsb' 16 2 = 0 ∧
    (mat.modW fun w => { w with role := .copy }).w.role = .copy ∧ (mat.modW fun w => { w with role := .epilogue }).w.role ≠ .copy := by decide +kernel

/-- MatrixEvents: an mma at the head, its tiles valid; every A tile zero; started, read, complete, faulted; a scldef. -/
def mmaEntry : MEntry := { (MEntry.blank (.mma false)) with qid := 4, fb := fbInt8, grant := true }
def queued (e : MEntry) : State := ((mat2.modG fun g => { g with ta := List.replicate 128 ⟨true, false, false⟩, tw := List.replicate 192 ⟨true, false, false⟩ }).modW fun w =>
  { w with accs := [{ (acc0 .m .store) with elems := [] }], nextAcc := 1 }).modCore 0 fun c => { c with mq := [e] }
def fbScaled : DWord := BitVec.ofNat 64 (2 + 2 * 16 + 7 * 2 ^ 8 + 255 * 2 ^ 16 + 2 ^ 24)
def zeroTiles (s : State) : State := s.modG fun g => { g with ta := List.replicate 128 ⟨true, false, true⟩ }
theorem wit_MatrixEvents : ((queued mmaEntry).core 0).mq = [mmaEntry] ∧ mmaEntry.started = false ∧ (queued mmaEntry).tagsReady mmaEntry = true ∧
    (queued mmaEntry).skips mmaEntry = false ∧ (zeroTiles (queued mmaEntry)).skips mmaEntry = true ∧ mmaEntry.grant = true ∧ fbAF mmaEntry.fb = 8 ∧
    fbBF mmaEntry.fb = 8 ∧ fbPrec mmaEntry.fb = 0 ∧ fbPro mmaEntry.fb = false ∧ mmaEntry.k % 16 = 0 ∧ mmaEntry.bindA = none ∧ mmaEntry.olds = [] ∧ mmaEntry.mixed = [] ∧ (queued mmaEntry).ahead 0 mmaEntry = [] ∧
    (look (queued mmaEntry).wgs mmaEntry.wg).isSome = true ∧ ((queued mmaEntry).wave? 0 0).any (fun w => w.accs.length == 1 && w.splits != []) = true ∧
    Mem.wf (queued mmaEntry).g.c = true ∧ (MEntry.blank (.scldef 7)).started = false ∧
    ((queued { mmaEntry with fb := fbScaled, bindA := some (7, ⟨0, 0x10010⟩) }).sclMissing 0 { mmaEntry with fb := fbScaled, bindA := some (7, ⟨0, 0x10010⟩) }).length > 0 ∧
    sclLocal 0x10010 = true ∧
    (queued mmaEntry).entryFault 0 mmaEntry (7, ⟨BitVec.ofNat 64 (192 * 1024), 0x10010⟩, 192 * 1024) = some (.protection, false) := by decide +kernel

/-- The float forms, an i8 mma.sp, an aepi and an amax, each with its tags valid and nothing before it. -/
def fbFloat : DWord := BitVec.ofNat 64 (255 * 2 ^ 8 + 255 * 2 ^ 16)
def fbSparse8 : DWord := BitVec.ofNat 64 (8 + 8 * 16 + 255 * 2 ^ 8 + 255 * 2 ^ 16 + 2 ^ 26)
def entryOf (k : MKind) (fb : DWord) : MEntry := { (MEntry.blank k) with qid := 4, fb := fb, grant := true, k := 16, cnt := 1 }
def startsIn (s : State) (e : MEntry) : Bool := !e.started && s.ahead 0 e == [] && s.tagsReady e && !s.skips e && e.grant && e.olds == []
def startsNow (e : MEntry) : Bool := startsIn (queued e) e
def plainFb (e : MEntry) : Bool := fbBL e.fb == 0 && !fbPro e.fb && fbPrec e.fb == 0 && e.k % 16 == 0 && e.bindA == none && e.bindB == none
theorem wit_MatrixEvents_kinds :
    ([.mma false, .mma true, .vmx (List.replicate 16 (List.replicate 32 0)) (List.replicate 31 0 ++ [0xFFFFFFFF#32])].all fun k =>
      startsNow (entryOf k fbFloat) && plainFb (entryOf k fbFloat) && fbAF fbFloat == 0 && fbBF fbFloat == 0) = true ∧
    startsNow (entryOf (.mma true) fbSparse8) = true ∧ plainFb (entryOf (.mma true) fbSparse8) = true ∧ fbAF fbSparse8 = 8 ∧ fbBF fbSparse8 = 8 ∧
    startsIn ((queued (entryOf (.aepi .none false .f32) 0)).modG fun g => { g with ta := List.replicate 128 ⟨true, true, false⟩ }) (entryOf (.aepi .none false .f32) 0) = true ∧ (entryOf (.aepi .none false .f32) 0).cnt = 1 ∧ (entryOf (.aepi .none false .f32) 0).bindA = none ∧
    startsNow (entryOf (.amax false 0 (List.replicate 32 (0, 0))) 0) = true := by decide +kernel

/-! ### A cluster's exchange group: core 0 is member 0, core 1 member 1 -/
def exch (f : Group → Group) : State := { (loc.modG fun g => { g with xbind := true }) with
  wgs := [(0, { loc.g with xbind := true }), (1, { loc.g with xbind := true, core := some 1 })]
  clusters := [(0, { Cluster.blank with group := f { Group.blank with members := [⟨some 0, [], 0, 0, []⟩, ⟨some 1, [], 0, 0, []⟩] ++ List.replicate 14 Member.blank } })] }
def rotating : State := exch fun g => { g with members := [⟨some 0, [⟨0, 1024, 2⟩], 0, 0, []⟩, ⟨some 1, [⟨0, 1024, 2⟩], 0, 0, []⟩] ++ List.replicate 14 Member.blank }
def full4 : State := exch fun g => { g with members := [⟨some 0, List.replicate 4 ⟨0, 1024, 2⟩, 0, 0, []⟩] ++ List.replicate 15 Member.blank }
def moving : State := exch fun g => { g with xfers := [⟨0, 0, 1024, 2, List.replicate 1024 7, false, false⟩], xst := [⟨0, 0, 0, 1, 16, [1, 2, 3, 4], 0, true⟩] }
def writing : State := exch fun g => { g with xst := [⟨0, 0, 0, 1, 16, [1, 2, 3, 4], 0, true⟩] }
def met : State := exch fun g => { g with members := [⟨some 0, [], 1, 1, []⟩, ⟨some 1, [], 1, 1, []⟩] ++ List.replicate 14 Member.blank }
theorem wit_ClusterExchange : rotating.quiet ∧ rotating.g.xbind = true ∧ (47#6).toNat < rotating.g.bars.length ∧ (rotating.src (.s 0)).isUni = true ∧
    (0 : Nat) + 1024 ≤ rotating.g.size .a ∧ (rotating.group 0).members.length = 16 ∧ ((rotating.group 0).member 0).rrot.length < 4 ∧
    4 ≤ ((full4.group 0).member 0).rrot.length ∧ loc.g.xbind = false ∧ (rotating.group 0).xfers = [] ∧ rotating.liveMembers 0 = [0, 1] ∧
    (∀ m ∈ rotating.liveMembers 0, ((rotating.group 0).member m).rrot ≠ []) ∧
    (moving.group 0).xfers.find? (·.member == 0) = some ⟨0, 0, 1024, 2, List.replicate 1024 7, false, false⟩ ∧ moving.liveMember 0 0 = some 0 ∧
    (rotating.liveMember 0 1).isSome = true ∧ 1 ≠ rotating.cur.core % 16 ∧
    AddrsOk (rotating.guardMask .always) (fun k => ((rotating.src (.v 6)).at k + (0 : BitVec 8).signExtend 32 * BitVec.ofNat 32 4).toNat) 4 0x8000 ∧
    rotating.w.count .x < 255 ∧ (writing.group 0).xfers = [] ∧ (writing.group 0).xst.length = 1 ∧ Mem.wf (writing.core 1).shadow = true ∧
    rotating.sp.arrived = false ∧ rotating.outstanding 0 0 .swap = false ∧
    (∀ m ∈ met.liveMembers 0, met.memberHere 0 m .swap = true ∧ met.memberHere 0 m .bar = true) := by decide +kernel

def wanting (since : Nat) : CurRes := ⟨0, .vector, 12, 0, since, false, 0⟩
def cur1 (c : Cluster) (tu : Nat) : State := { base with tu := tu, clusters := [(0, c)] }
theorem wit_CurrentArbiter : (base.core 0).vecLeft = 0 ∧ (base.core 0).waves ≠ [] ∧ (base.cluster 0).held ++ (base.cluster 0).want = [] ∧
    ({ Cluster.blank with want := [wanting 0] } : Cluster).nextGrant = some (wanting 0) ∧ (cur1 { Cluster.blank with want := [wanting 0] } 0).cluster 0 = { Cluster.blank with want := [wanting 0] } ∧
    (wanting 0).since + 4000 * Config.tuPerNs ≤ (cur1 { Cluster.blank with want := [wanting 0] } (4000 * Config.tuPerNs)).tu := by decide +kernel

/-! ### A strip chain: stream 0 with one strip, core 0's cluster reserved, the loader's grid as its stage -/
def cfg0 : StreamCfg := { StreamCfg.blank with wo := 64, clusters := 1, lp := 1000, period := 8000, binit := 500 }
def strip0 : StripCfg := { StripCfg.blank with wt := 64, ht := 8, spp := 1, gsize := 4, garea := 0x4000, fbr := 0x2000, draws := 0x6000 }
def chain0 : Chain where
  stream := 0
  frame := 0
  strip := 0
  tf := 1000
  ts := 0
  admitted := true
  early := false
  at_ := 0
  d := 1
  cfg := strip0
  gridId := 1
  cstage := 4
  recs := []
  dice := [(0, { Dicer.blank with ready := [⟨0x1F, 3, List.replicate 32 1, List.replicate 32 2⟩] })]
  seen := []
  heldFb := []
  heldErr := []
  given := 2
  checks := 0
  stage1End := 0
  slot := 0
  blocks := []
  upper := false
  lower := false
  scene := 0
  squash := false
  committed := none
  freed := false
  ended := false
  waits := false
  before := none
  disp := some 0
  judged := false
  fall := none
  took := []
  old := []
def stream0 : Stream where
  cfg := cfg0
  strip := some strip0
  frame := 0
  next := 0
  prevD := some 2
  hist := [(0, ⟨some 500, some (16, 100)⟩)]
  rr := 0
  squashes := 0
  line := 0
  cframe := 0
  lastLine := []
  hasLast := false
  src := []
  closing := false
  keyAge := 0
  keyNext := true
  qovr := none
  obu := none
  rtpSeq := 0
def strips (x : Stream) (cs : AMap Chain) (dtc : DWord) : State := { (State.reset.place 0 0) with
  streams := [(0, x)], chains := cs, nextChain := 1, dtc := dtc, rbase := some (2 ^ 27), grids := [(1, { loaderGrid with chain := some 0, cstage := 3 })] }
def rend : State := (strips { stream0 with hist := [] } [(0, chain0)] 0).modW fun w => { w with p := (List.replicate 7 0).set 0 1 }
theorem wit_Rendering : rend.quiet ∧ rend.w.role = .general ∧ (rend.chain?).map (·.1) = some 0 ∧ rend.converged ⟨false, 7⟩ = true ∧ rend.rowsFor 124 2 ∧
    rend.rowFree 9 ∧ rend.guardMask ⟨false, 0⟩ ≠ 0 ∧ (rend.src (.k 10)).isUni = true ∧ chain0.recs.length < chain0.cfg.gsize ∧ rend.w.count .s < 255 ∧
    rend.w.p.length = 7 ∧ (∀ l ∈ partsAt 0x4000 1600, isHostPa l.1 = false) ∧ (47#6).toNat < rend.g.bars.length ∧ 16 * (3 % 65536) < cfg0.wt ∧
    4 * 1 < cfg0.rows 0 ∧ (rend.cluster 0).kq.length < 40 ∧ 63 < cfg0.wt ∧ 7 < cfg0.ht ∧ chain0.cfg.fbr ≠ 0 ∧
    rend.lookup 0 0 0x2000 true = .page ⟨0, 0, 65536, 0, 0, true, true⟩ ∧ (base.chain?) = none := by decide +kernel

/-- The texture descriptor at 0x800 of a 1 × 1 texture at 0, back for the texture unit; and what the units of stream 0's chain read:
a rate cell, a draw of one page, a patch, a sample table. -/
def texing : State := let s := rend.modSp fun p => { p with s := (p.s.set 8 0x800).set 9 0 }
  { s with asks := [read0 (.unit 0 1) (splitKey 0 0 0) 0x800 (List.replicate 32 0)] }
def drawBytes : List Byte := List.replicate 136 0 ++ leBytes 4 1 ++ List.replicate 20 0
def page2 (s : State) : State := { s with
  chains := [(0, { chain0 with cfg := { strip0 with dn := 1, sri := 0x7000, stab := 0x7800 }, dice := [(0, { Dicer.blank with left := 1, addr := 0x8000 })] })],
  clusters := [(0, { Cluster.blank with tlb := [⟨0, 0, 65536, 0, 0, true, true⟩], kq := [⟨0, 0, 0, 0, 2, [], false, false⟩] })] }
def cells : State := { page2 rend with asks := [read0 (.unit 0 5) (splitKey 0 0 0) 0x7000 (List.replicate 128 0),
  read0 (.unit 0 5) (splitKey 0 0 0) 0x6000 drawBytes] }
def chain1 : Chain := { chain0 with cfg := { strip0 with dn := 1, sri := 0x7000, stab := 0x7800 }, dice := [(0, { Dicer.blank with left := 1, addr := 0x8000 })] }
def dicing (as : List Ask) : State := { page2 rend with asks := as }
def unitReads : List Ask := [read0 (.unit 0 0) 0 0x6000 drawBytes, read0 (.unit 0 0) 0 0x8000 (List.replicate 208 0), read0 (.unit 0 0) 0 0x7000 (List.replicate 128 0),
  read0 (.unit 0 2) 0 0x7800 (List.replicate 2048 0)]
theorem wit_Rendering_reads :
    threads (texing.guardMask ⟨false, 0⟩) ≠ [] ∧ (texing.sp.pair 8).toNat % 32 = 0 ∧ (texing.sp.pair 8) = 0x800 ∧
    (match texing.xlate 0 1 0x800 false false with | .ok e => e.pa? 0x800 == 0x800 | _ => false) = true ∧
    texing.got (texing.splitUnit 1) 0x800 32 = .ok (some (List.replicate 32 0)) ∧ (texOf (List.replicate 32 0)).base % 128 = 0 ∧ texValid (List.replicate 32 0) = true ∧
    (match rend.got (rend.splitUnit 1) 0x800 32 with | .error _ => true | _ => false) = true ∧ texing.rowsFor 124 4 ∧
    texing.lookup 0 0 0 false = .page ⟨0, 0, 65536, 0, 0, true, true⟩ ∧
    (cells.chain?).map (·.2.cfg.dn) = some 1 ∧ (match cells.cellRateAt (cells.splitUnit 5) 0 chain1 0 0 0 with | .ok _ => true | _ => false) = true ∧
    (match (dicing []).cellRateAt (cells.splitUnit 5) 0 chain1 0 0 0 with | .error _ => true | _ => false) = true ∧
    (dicing unitReads).chains = [(0, chain1)] ∧ chain1.runs = true ∧ (dicing unitReads).checkDue chain1 = none ∧ chain1.heldFb = [] ∧ (chain1.dicer 0).doneAll = false ∧
    (chain1.dicer 0).draw < chain1.cfg.dn ∧
    (match (dicing []).chainRead ((dicing []).chainUnit 0 0 0 chain1) 0 chain1 0x6000 160 with | .error (.read _ ps) => ps != [] | _ => false) = true ∧
    (dicing unitReads).chainRead ((dicing []).chainUnit 0 0 0 chain1) 0 chain1 0x6000 160 = .ok (.ok drawBytes) ∧ (drawOfBytes drawBytes).map (·.pages) = some 1 ∧
    (chain1.dicer 0).page < 1 ∧ (dicing unitReads).chainRead ((dicing []).chainUnit 0 0 0 chain1) 0 chain1 0x8000 208 = .ok (.ok (List.replicate 208 0)) ∧
    (patchOf 0 (List.replicate 208 0)).isSome = true ∧
    ((dicing unitReads).cluster 0).kq = [⟨0, 0, 0, 0, 2, [], false, false⟩] ∧
    (match (dicing unitReads).blockLayers ((dicing unitReads).chainUnit 0 2 0 chain1) 0 chain1 ⟨0, 0, 0, 0, 2, [], false, false⟩ [] with | .ok (.ok _) => true | _ => false) = true := by
  decide +kernel
def diced : State := rend.modW fun w => { w with
  accs := [{ (acc0 .q .grid) with dst := .v 124, pred := .p 6, regs := 4, size := 4, mask := fullMask, elems := [] }], nextAcc := 1,
  splits := [{ Split.blank with windows := [⟨0, 1, [.v 124], [], false, none, 0⟩] }] }
theorem wit_Rendering_units : chain0.runs = true ∧ diced.checkDue chain0 = none ∧
    ((diced.wave? 0 0).any fun w => w.accs.all (fun a => a.op == .grid && a.path == .q && !a.done && a.mask == fullMask) && w.v.length == 128 && w.p.length == 7
      && w.splits.all (fun p => p.status == .running && p.windows.all fun x => x.acc == 0 && !x.delivered && x.held == [])) = true ∧
    (diced.grid 1).chain = some 0 ∧ (diced.cfgOf chain0).clusters.getLsbD 0 = true ∧ (chain0.dicer 0).ready ≠ [] ∧
    ({ chain0 with dice := [] } : Chain).dicer 0 = Dicer.blank ∧ (chain0.dicer 0).doneAll = false ∧ chain0.cfg.dn ≤ (chain0.dicer 0).draw := by decide +kernel

/-! ### Bridles: a grid with an area and pool 1, sequence 0 valid and sequence 1 of the tag block; an operand at its unit -/
def send0 : BridleSend := ⟨0x01000000, .addI32, 2, false, 0, false, 0, 0⟩
def tagged : State := { (State.reset.place 0 0) with
  asks := [read0 (.core 0) (2 ^ 20) 0x200000 [3]], grids := [(1, { loaderGrid with area := some 0x200000, pool := some 1, tagNext := 2, d := { Desc.blank with tagblock := 1 } })] }
def sender (x : DWord) : State := tagged.modSp fun p => { p with s := ((p.s.set 8 (x.extractLsb' 0 32)).set 9 2), status := .running }
def asking : State := tagged.modSp fun p => { p with status := .waiting (.bsend send0) }
def operand0 : Operand := ⟨0, 0, 0, 1, send0, List.replicate 256 5⟩
def bent : BEntry := ⟨9, 0x01000000, 1, .addI32, 2, false, 0, 0, [List.replicate 256 1], [0], false, false, false⟩
def unit0 (es : List BEntry) : State := { tagged with operands := [operand0], slices := [(unitOf 0x01000000, { Slice.blank with entries := es })] }
theorem wit_Bridles : tagged.quiet ∧ (look tagged.grids 1).isSome = true ∧ (2 : Nat) < 2 ^ 24 ∧ isHostPa (tagByteAt 0x200000 1 2) = false ∧
    (look base.grids 1).any (fun r => r.area == none) = true ∧ tagged.memOk ∧ tagged.tagValid tagged.coreWho 1 0x01000001 = .ok (some true) ∧ (1 : Nat) ≤ 0x01000001 % 2 ^ 24 ∧
    tagged.tagValid tagged.coreWho 1 0x01000005 = .ok (some false) ∧ (0 : Nat) < 1 ∧ (sender 0x01000001).quiet ∧ ((sender 0x01000001).src (.s 9)).at 0 = 2 ∧
    (sender 0x01000001).w.count .s < 255 ∧ (asking.withCur ⟨0, 0, 0⟩).live = true ∧ (asking.withCur ⟨0, 0, 0⟩).sp.status = .waiting (.bsend send0) ∧
    (asking.withCur ⟨0, 0, 0⟩).tagValid (asking.withCur ⟨0, 0, 0⟩).coreWho 1 send0.tag = .ok (some true) ∧
    ({ tagged with asks := [] } : State).tagValid tagged.coreWho 1 0x01000001 ≠ .ok (some true) ∧ tagged.rowFree 9 ∧ tagged.sp.mask ≠ 0 ∧ tagged.w.v.length = 128 := by decide +kernel
theorem wit_Bridles_units : (unit0 []).operands[0]? = some operand0 ∧ ((unit0 []).wave? 0 0).any (fun w => w.splits != []) = true ∧
    ((unit0 []).slice (unitOf 0x01000000)).entries.find? (fun e => e.tag == operand0.send.tag && !e.closed) = none ∧ 0 + 1 ≤ 128 ∧
    ((unit0 [bent]).slice (unitOf 0x01000000)).entries.find? (fun e => e.tag == operand0.send.tag && !e.closed) = some bent ∧
    (bent.comb = operand0.send.comb ∧ bent.count = operand0.send.count ∧ bent.toCore = operand0.send.toCore ∧ bent.dst = operand0.send.dst) ∧
    bent.got.length + 1 = bent.count ∧ (unit0 [bent]).badMem = [] ∧ (unit0 [bent]).memOk ∧ (unit0 [bent]).pools.logRing = none ∧
    ({ bent with comb := .addX } : BEntry).comb ≠ operand0.send.comb ∧ (unit0 []).wayBusy operand0 = false ∧
    ((List.range 128).filter fun i => !(((unit0 [{ bent with slots := List.range 128 }]).slice (unitOf 0x01000000)).slotsOf false).contains i).length < 1 ∧
    ({ unit0 [] with pools := ⟨none, none, none, none, none⟩ } : State).pools.spill = none ∧
    past 0 (0 + BitVec.ofNat 64 (unit0 [bent]).orphan) = false ∧ past 65536000000 (0 + BitVec.ofNat 64 (unit0 [bent]).orphan) = true := by decide +kernel

/-- A btag.free's bit, and a result's part, at a present line 2 of their home; the part of a resolved block in the ring. -/
def unitWrite (op : AskOp) (for_ : AskFor) (len : Nat) : State := { (sliced .store lines23 []) with
  grids := [(1, loaderGrid)], asks := [⟨3, .bridle 0, 5, 0x100, len, op, none, for_, none, 0, 0⟩] }.modSlice (sliceOf 0x100) fun x => { x with q := [unitReq (.bridle 0) 3 0x100] }
theorem wit_Bridles_slice : ((unitWrite (.bits [1] false) .none 1).slice (sliceOf 0x100)).q[0]? = some (unitReq (.bridle 0) 3 0x100) ∧
    (unitWrite (.bits [1] false) .none 1).inOrder (sliceOf 0x100) 0 (unitReq (.bridle 0) 3 0x100) = true ∧
    (unitWrite (.bits [1] false) .none 1).outranked (sliceOf 0x100) (unitReq (.bridle 0) 3 0x100) = false ∧
    ((unitWrite (.bits [1] false) .none 1).slice (sliceOf 0x100)).lines.find? (·.line == 2) = some ⟨2, 0, 0, none, none, 0⟩ ∧
    (unitWrite (.bits [1] false) .none 1).rbase = none ∧ (unitWrite (.bits [1] false) .none 1).badMem = [] ∧ (unitWrite (.bits [1] false) .none 1).memOk ∧
    (unitWrite (.write [1, 2]) (.grid 1) 2).asks.find? (·.tag == 3) = some ⟨3, .bridle 0, 5, 0x100, 2, .write [1, 2], none, .grid 1, none, 0, 0⟩ ∧
    (look (unitWrite (.write [1, 2]) (.grid 1) 2).grids 1).isSome = true ∧ isHostPa 0x100 = false := by decide +kernel
def blockPart : State := { (strips { stream0 with hist := [] } [(0, chain0)] 0) with
  asks := [⟨3, .unit 0 2, 0, 2 ^ 27, 2, .write [1, 2], some 0, .block 0 2, none, 0, 0⟩], wgs := [(0, { barred.g with grid := 1 })],
  slices := [(sliceOf (2 ^ 27), { Slice.blank with q := [unitReq (.unit 0 2) 3 (2 ^ 27)] })] }
theorem wit_Rendering_slice : (blockPart.slice (sliceOf (2 ^ 27))).q[0]? = some (unitReq (.unit 0 2) 3 (2 ^ 27)) ∧
    blockPart.inOrder (sliceOf (2 ^ 27)) 0 (unitReq (.unit 0 2) 3 (2 ^ 27)) = true ∧ blockPart.outranked (sliceOf (2 ^ 27)) (unitReq (.unit 0 2) 3 (2 ^ 27)) = false ∧
    (∀ i < 2, blockPart.inRing (2 ^ 27 + i) = true) ∧ blockPart.mayWrite (some 0) (2 ^ 27) = true ∧ blockPart.badMem = [] ∧ blockPart.memOk ∧
    (look blockPart.wgs 0).any (fun g => decide (2 < g.bars.length)) = true ∧ (blockPart.bar 0 2).err = false ∧ (blockPart.bar 0 2).arr < (blockPart.bar 0 2).exp ∧
    0 ≤ (blockPart.bar 0 2).cnt (blockPart.bar 0 2).ph ∧ (blockPart.bar 0 2).cnt (blockPart.bar 0 2).ph ≤ 2 ^ 30 ∧
    (∀ q ∈ (blockPart.cluster 0).kq, q.spoiled = false) := by decide +kernel
/-- A tex whose one texel is back. -/
def texBack : State := (finished .g .tex [{ elem0 with done := true, ok := true, ret := [1, 2, 3, 4], data := List.replicate 44 0 }] (.v 9)).modW fun w =>
  { w with accs := w.accs.map fun a => { a with regs := 4, size := 4 }, splits := w.splits.map fun p => { p with windows := [⟨0, 1, [.v 9], [], false, none, 0⟩] } }
theorem wit_Rendering_tex : ((texBack.wave? 0 0).any fun w => w.accs.all (fun a => a.path == .g && a.op == .tex && a.regs == 4 && a.size == 4 && a.pred == .null &&
      !a.uniform && !a.done && a.mask == 1 && a.elems.all (fun e => e.done && !e.err && decide (e.back ≤ texBack.tu))) && w.v.length == 128 &&
      w.splits.all (fun p => p.status == .running && p.windows.all fun x => x.acc == 0 && !x.delivered && x.held == [])) = true ∧
    (((texOf (List.replicate 32 0)).level 0).2 = 0) ∧ (texCoord 0 ((texOf (List.replicate 32 0)).wl 0)).isSome = true := by decide +kernel

/-! ### System instructions, cores, pre-emption -/
def asleep : State := base.modSp fun p => { p with status := .waiting (.sleep (some 0x10000)) }
theorem wit_SystemInstructions : base.quiet ∧ (∀ x ∈ base.w.flying, x.inW = false) ∧ reached (base.now 0) base.w.lwt = true ∧
    (∃ x ∈ (flying .s .store).w.flying, x.inW = true) ∧ (flying .s .store).quiet ∧ base.saved = [] ∧ (base.src (.k 10)).isUni = true ∧ (base.src (.k 0)).at 0 = 0 ∧ base.sp.s.length = 64 ∧
    base.pools.traceRing = none ∧ base.w.count .s < 255 ∧ (asleep.withCur ⟨0, 0, 0⟩).live = true ∧
    (asleep.withCur ⟨0, 0, 0⟩).sp.status = .waiting (.sleep (some 0x10000)) ∧ (asleep.withCur ⟨0, 0, 0⟩).w.stop = .none ∧ base.cores.length = 1 ∧
    (base.core 0).waves.length = 1 ∧ (base.wg 0).lin = 0 := by decide +kernel

def stopping (x : Stop) : State := { (base.modW fun w => { w with stop := x }) with pools := ⟨none, none, none, none, some (0x100000, 0x100000)⟩ }
def saves : State := { (State.reset.place 0 0) with
  mem := ((State.reset.place 0 0).mem.puts 0x100000 (leBytes 4 0x56535A51 ++ leBytes 2 1)),
  cores := [], saved := [⟨1, 0, 0, 0, 0x100000, 16, false, false, 0, 0, none, [], 0, []⟩] }
theorem wit_CoreCycleAndPreemption : (base.core 0).waited (base.readies 0) = false ∧ (base.wave? 0 0).any (fun w => w.stop == .none) = true ∧
    ((stopping .draining).wave? 0 0).any (fun w => w.stop == .draining && w.accs == []) = true ∧ ((stopping .draining).core 0).settledCtx 0 = true ∧
    ((stopping .drained).wave? 0 0).any (fun w => w.stop == .drained) = true ∧ ((stopping .drained).w.area <|> (stopping .drained).savePlace (saveSize 16)) = some 0x100000 ∧
    (stopping .drained).memOk ∧ (stopping .drained).rbase = none ∧ saves.saved[0]? = some ⟨1, 0, 0, 0, 0x100000, 16, false, false, 0, 0, none, [], 0, []⟩ ∧
    saves.mayResume ⟨1, 0, 0, 0, 0x100000, 16, false, false, 0, 0, none, [], 0, []⟩ 0 = true ∧ saves.physNat 0x100000 4 = 0x56535A51 ∧ saves.physNat 0x100004 2 = 1 ∧
    saves.physNat 0x100006 2 = 0 := by decide +kernel

/-! ### Work distribution: a grid of four workgroups of one wave, and a task bin -/
def grid5 (kind : Nat) : Grid := { Grid.blank with total := 4, d := { Desc.blank with x := 4, abuf := 8, barriers := 4, entry := 0x40, kind := kind } }
def launch (g : Grid) : State := { State.reset with grids := [(5, g)], ready := 2 ^ 64, tu := 128 * Config.tuPerNs }
theorem wit_WorkDistribution : look (launch (grid5 0)).grids 5 = some (grid5 0) ∧ (launch (grid5 0)).waitingStage = none ∧ (launch (grid5 0)).returning = none ∧
    (launch (grid5 0)).chosen = some 5 ∧ ((launch (grid5 0)).nextSpots (grid5 0)).any (fun l => l.length == 1) = true ∧ (grid5 0).d.waves ≤ ((launch (grid5 0)).core 0).freeCtx.length ∧
    (grid5 0).d.noRoles = true ∧ (launch (grid5 1)).chosen = some 5 ∧ (grid5 1).d.kind = 1 ∧
    ({ (launch (grid5 0)) with ready := 0 } : State).tryGrid 5 = none ∧
    (launch { (grid5 0) with next := 4 }).gridOver 5 { (grid5 0) with next := 4 } = true ∧ (launch (grid5 0)).gridOver 5 (grid5 0) = false ∧
    (List.replicate 128 100).length = 128 := by decide +kernel

def binned (b : Bin) : State := { (launch { (grid5 2) with total := 0 }) with
  clusters := [(0, { Cluster.blank with bins := [b], taskQs := [5], tlb := [⟨0, 0, 65536, 0, 0, true, true⟩] })],
  mem := Mem.puts [] 0 (leBytes 4 0 ++ leBytes 4 1 ++ leBytes 4 0 ++ leBytes 4 (2 + 3 * 16)) }
def bin0 (l : Bool) : Bin := ⟨0x40, 5, 0, l, [(List.replicate 8 1, 0)]⟩
/-- What the queue's home answers a pop: an empty queue, or a task whose entry holds an fhdr or does not. -/
def popped (r : List Byte) : State :=
  { binned (bin0 false) with asks := [⟨0, .unit 0 3, 5, 0, 128, .pop 65536, none, .poll, some (some r), 0, 0⟩,
    read0 (.unit 0 3) 5 0x1000 (leBytes 8 (2 ^ 61 + fullC 0x10C 7 0xFF 0xFF 0xFF (4 * 256 + 24)) ++ List.replicate 56 0), read0 (.unit 0 3) 5 0x800 (List.replicate 64 0)] }
def taskSlot (entry : Nat) : List Byte := 1 :: (leBytes 8 entry ++ List.replicate 56 0)
def polled (head tail : Nat) : State := { (queueAt0 (.pop 4) [] (queueBytes head tail 1 3)) with
  asks := [⟨3, .unit 0 3, 5, 0x100, 128, .pop 65536, none, .poll, none, 0, 0⟩] }.modSlice (sliceOf 0x100) fun x => { x with q := [unitReq (.unit 0 3) 3 0x100] }
theorem wit_WorkDistribution_tasks : 5 ∈ ((binned (bin0 false)).cluster 0).taskQs ∧
    (((binned (bin0 false)).cluster 0).taskQs.filter fun g => !((binned (bin0 false)).grid g).stopped).head? = some 5 ∧
    (binned (bin0 false)).unitXlate ((binned (bin0 false)).gatherWho 0 5) 0 0 0 0 = .ok (.page ⟨0, 0, 65536, 0, 0, true, true⟩) ∧
    (match (binned (bin0 false)).acted ((binned (bin0 false)).gatherWho 0 5) (.pop 65536) 0 128 with | .error _ => true | _ => false) = true ∧
    (popped [0]).acted ((popped [0]).gatherWho 0 5) (.pop 65536) 0 128 = .ok (some [0]) ∧
    (popped (taskSlot 0x1000)).acted ((popped [0]).gatherWho 0 5) (.pop 65536) 0 128 = .ok (some (taskSlot 0x1000)) ∧
    (popped (taskSlot 0x1000)).entryCheck ((popped [0]).gatherWho 0 5) 0 5 0x1000 = .ok .ok ∧ (popped (taskSlot 0x800)).entryCheck ((popped [0]).gatherWho 0 5) 0 5 0x800 = .ok .bad ∧
    ({ popped (taskSlot 0x1000) with clusters := [(0, { Cluster.blank with taskQs := [5], tlb := [⟨0, 0, 65536, 0, 0, true, true⟩] })] } : State).pools.logRing = none ∧
    ((polled 0 1).slice (sliceOf 0x100)).q[0]? = some (unitReq (.unit 0 3) 3 0x100) ∧ (polled 0 1).inOrder (sliceOf 0x100) 0 (unitReq (.unit 0 3) 3 0x100) = true ∧
    (polled 0 1).outranked (sliceOf 0x100) (unitReq (.unit 0 3) 3 0x100) = false ∧ (polled 0 1).rbase = none ∧ (polled 0 1).memOk ∧ (polled 0 1).badMem = [] ∧
    (polled 0 1).qhdr none 0x100 3 64 65536 = some ⟨0, 1, 0, 2⟩ ∧ (polled 1 1).qhdr none 0x100 3 64 65536 = some ⟨1, 1, 0, 2⟩ ∧
    (polled 0 1).lineIn ((0x100 + 128 + 0 % 2 * 64) / 128) = true ∧ ((binned (bin0 false)).cluster 0).bins[0]? = some (bin0 false) ∧
    0 + 128 * Config.tuPerNs ≤ (binned (bin0 false)).tu ∧ ((binned (bin0 true)).core 0).freeCtx ≠ [] ∧
    ((binned (bin0 true)).firstFit { (grid5 2) with total := 0 } ((List.range 16).map (16 * 0 + ·))).isSome = true := by decide +kernel

/-! ### The strip pipeline: one due strip; a chain at its commit, past its deadline, early; lines and records -/
theorem wit_StripPipeline : (strips stream0 [] 0xFFFFFFFFFFFFFED4).admissible 0 stream0 = true ∧ stream0.closing = false ∧ (strips stream0 [] 0xFFFFFFFFFFFFFED4).chains = [] ∧
    (strips stream0 [] 0xFFFFFFFFFFFFFC00).admissible 0 stream0 = false ∧ stream0.strip.isSome = true ∧ (strips stream0 [] 0).atOrPast (stream0.cfg.tf 0 0) = true ∧
    chain0.runs = true ∧ (strips stream0 [(0, { chain0 with given := 4 })] 500).checkDue { chain0 with given := 4 } = some 2 ∧
    (stream0.histOf 0).com = some (16, 100) ∧ (strips { stream0 with hist := [] } [(0, chain0)] 500).checkDue chain0 = none ∧
    ((1000 : DWord) - chain0.tf).toInt ≤ 0 ∧ 0 < ((1001 : DWord) - chain0.tf).toInt ∧ 0 ≤ ((1000 : DWord) - chain0.tf).toInt := by decide +kernel

def disp0 (k : Nat) : Stream := { stream0 with cfg := { cfg0 with consumer := k, recBytes := List.replicate 64 0 } }
theorem wit_StripPipeline_lines : (disp0 0).cfg.consumer = 0 ∧ 0 ≤ ((0 : DWord) - (disp0 0).cfg.epoch).toInt ∧ (disp0 0).line / (disp0 0).cfg.h = chain0.strip ∧
    (disp0 2).cfg.consumer = 2 ∧ (disp0 1).cfg.consumer = 1 ∧ ({ disp0 1 with obu := some (8, 0) } : Stream).obu = some (8, 0) ∧ (disp0 1).qovr = none ∧
    ({ disp0 1 with line := 1 } : Stream).line = (disp0 1).cfg.strips ∧ ({ cfg0 with uf := 2 } : StreamCfg).hasRender = true := by decide +kernel

/-- A scene word at 0x200, read early and to confirm; two strips of which the first is complete; an encoder's words. -/
def seen (as : List Ask) (x : Stream) (cs : AMap Chain) (dtc : DWord) : State := { strips x cs dtc with cores := [], asks := as }
def cfgS : StreamCfg := { cfg0 with scene := 0x200, root := 0x10000 }
def streamS : Stream := { stream0 with cfg := cfgS }
def sceneAt (key : Nat) (w : List Byte) : List Ask := [read0 .strips key 0x10000 (pte 0x20000), read0 .strips key 0x20000 (pte 0x30000), read0 .strips key 0x30000 (pte 0x40000),
  read0 .strips key 0x40000 (pte 0xE), read0 .strips key 0x200 w, read0 .strips key 0x240 (List.replicate 64 0)]
def earlyC : Chain := { chain0 with early := true, admitted := false, scene := 5 }
def cfgT : StreamCfg := { cfg0 with h := 8, va := 16, tr := 1, uf := 1, ns := 2 }
def streamT : Stream := { stream0 with cfg := cfgT }
def lowC : Chain := { chain0 with strip := 1, slot := 1, tf := 10000 }
def doneC : Chain := { chain0 with blocks := [2048, 2049, 2050, 2051], cstage := 4 }
def tethering (dtc : DWord) : State := strips streamT [(0, lowC), (1, doneC)] dtc
def cfgV : StreamCfg := { cfgS with consumer := 1, h := 64, va := 64, recBytes := List.replicate 0x18 0 ++ leBytes 8 0x280 ++ leBytes 8 0x200 ++ List.replicate 0x58 0 }
def streamV : Stream := { stream0 with cfg := cfgV }
theorem wit_StripPipeline_reads :
    (seen [] streamS [] 0).chains = [] ∧ streamS.strip.isSome = true ∧ streamS.cfg.scene ≠ 0 ∧ (∀ k ∈ streamS.cores, ((seen [] streamS [] 0).core k).waves = []) ∧
    (seen (sceneAt 0 [5, 0, 0, 0, 0, 0, 0, 0]) streamS [] 0xFFFFFFFFFFFF0000).atOrPast (streamS.ts 0 0) = false ∧
    (seen (sceneAt 0 [5, 0, 0, 0, 0, 0, 0, 0]) streamS [] 0).sceneWord (earlyWho 0) cfgS = .ok (some 5) ∧ earlyC.runs = true ∧ (0 : Int) ≤ ((0 : DWord) - earlyC.ts).toInt ∧
    (seen (sceneAt 256 [5, 0, 0, 0, 0, 0, 0, 0]) streamS [(0, earlyC)] 0).sceneWord (confirmWho 0) cfgS = .ok (some earlyC.scene) ∧
    (seen (sceneAt 256 [6, 0, 0, 0, 0, 0, 0, 0]) streamS [(0, earlyC)] 0).sceneWord (confirmWho 0) cfgS = .ok (some 6) ∧
    (seen (sceneAt 64 [6, 0, 0, 0]) streamV [] 0).ownRead (qovrWho 0) 0 0x10000 0x200 4 = .ok (.ok [6, 0, 0, 0]) ∧ streamV.line = 0 ∧ streamV.qovr = none ∧
    0 ≤ ((0 : DWord) - cfgV.tf 0 0).toInt ∧ fieldAt cfgV.recBytes 0x20 8 = 0x200 ∧ fieldAt cfgV.recBytes 0x18 8 % 128 = 0 ∧
    (match (seen (sceneAt 128 [0]) { streamV with obu := some (8, 0) } [] 0).ownWalk (obuWho 0) 0 0x10000 0x280 with | .ok (.page e) => e.w | _ => false) = true ∧
    (match ({ seen [] streamV [] 0 with asks := [⟨1, .strips, 128, 0x300, 16, .write [], none, .obu 0, none, 0, 0⟩] } : State).asks.find? (·.for_ == .obu 0) with | some _ => true | none => false) = true := by
  decide +kernel
theorem wit_StripPipeline_rows :
    ((tethering 0).mayCopy lowC false).isSome = true ∧ (tethering 0).memOk ∧ cfgT.hasRender = true ∧ lowC.stream = 0 ∧
    ((tethering 0).chainsOf 0).findSome? (fun e => if e.2.strip = 1 then ((tethering 0).mayCopy e.2 false).map fun n => (e.1, e.2, n) else none) = some (0, lowC, doneC) ∧
    (tethering 0).rowAddr doneC 7 + 256 ≤ (tethering 0).rowAddr lowC (-1) ∧ lowC.admitted = true ∧ lowC.runs = true ∧ lowC.upper = false ∧
    0 ≤ ((10000 : DWord) - (lowC.tf - BitVec.ofNat 64 lowC.cfg.ub)).toInt ∧ 0 < ((10000 : DWord) - 0).toInt ∧
    ({ chain0 with committed := some 0 } : Chain).judged = false ∧ 0 ≤ ((1000 : DWord) - chain0.tf).toInt ∧
    0 ≤ ((0 : DWord) - (cfg0.epoch + BitVec.ofNat 64 0 - BitVec.ofNat 64 cfg0.lp)).toInt ∧
    0 < ((0 : DWord) - BitVec.ofNat 64 cfg0.lp - 0xFFFFFFFFFFFF0000).toInt := by decide +kernel

/-! ### Command packets: a queue at 0 with one packet, read through the part's own translation of space 0 -/
def page0 : Mem := Mem.puts (Mem.puts (Mem.puts (Mem.puts [] 0x10000 (pte 0x20000)) 0x20000 (pte 0x30000)) 0x30000 (pte 0x40000)) 0x40000 (pte 0xE)
def cp0 (n : Nat) : CP := { CP.blank with size := 4096, root := 0x10000, tail := n, running := true }
def desc0 : List Byte := leBytes 8 0x40 ++ leBytes 8 0 ++ leBytes 4 1 ++ leBytes 2 1 ++ leBytes 2 1 ++ [1, 24, 4, 0] ++ List.replicate 100 0
def walkReads (src : Source) (key : Nat) : List Ask :=
  [read0 src key 0x10000 (pte 0x20000), read0 src key 0x20000 (pte 0x30000), read0 src key 0x30000 (pte 0x40000), read0 src key 0x40000 (pte 0xE)]
def packet (op flags : Nat) (ws : List Nat) : State :=
  let bs := leBytes 4 (op + ws.length * 256 + flags * 2 ^ 24) ++ ws.flatMap (leBytes 4)
  { State.reset with
    ready := 8 + 2 ^ 4 + 2 ^ 64, mem := page0.puts 0 bs, rbase := some (2 ^ 27),
    asks := walkReads (.cp 0) 0 ++ [read0 (.cp 0) 0 0 (bs ++ List.replicate (0x400 - bs.length) 0)] ++ walkReads .launch 0 ++ [read0 .launch 0 0x200 desc0] ++
      walkReads .launch 8 ++ [read0 .launch 8 0x200 desc0],
    cps := [(0, cp0 (4 + 4 * ws.length))] }
def fetched (s : State) (op : Nat) : Bool := match s.cpFetch 0 with
  | .packet c p => p.op == op && p.formOk && p.valuesOk && c.wait == .none && c.ib == [] && c.loops == []
  | _ => false
def badForm (s : State) : Bool := match s.cpFetch 0 with
  | .packet _ p => !p.formOk
  | _ => false
/-- A WRITE's part on its way, and back; a head word at 0x300; a body of STREAMCFG without a consumer; stage descriptors. -/
def written (got : Option (Option (List Byte))) : State := let s := packet 6 0 [0x200, 0, 7]
  { s with asks := s.asks ++ [⟨9, .cp 0, 1, 0x200, 4, .write [7, 0, 0, 0], none, .poll, got, 0, 0⟩] }
def streamBody : List Nat := [0x08000700, 8 + 64 * 65536, 1 + 2 * 65536, 1, 0, 0, 8, 0, 0, 0, 0, 0, 0, 0, 0, 0, 0, 0, 0, 0, 1, 0, 0, 0, 0, 0, 0, 0, 0, 0, 0, 0]
def stripBody : List Nat := [0, 64 + 8 * 65536, 0x200, 0, 0x200, 0] ++ List.replicate 26 0
theorem wit_CommandPackets_parts :
    State.writeVia ((packet 6 0 [0x200, 0, 7]).ownWalk (cpWho 0) 0 0x10000) 0x200 4 = .ok (.ok [(0x200, 4, 0)]) ∧
    ((packet 6 0 [0x200, 0, 7]).asks.filter fun a => a.src == .cp 0 && a.key == 1) = [] ∧
    fetched (written none) 6 = true ∧ (written none).asks.any (fun a => a.src == .cp 0 && a.key == 1 && a.got.isNone) = true ∧
    fetched (written (some (some []))) 6 = true ∧ ((written (some (some []))).asks.filter fun a => a.src == .cp 0 && a.key == 1).all (fun a => a.got.isSome && a.back == 0) = true ∧
    (∃ f, (packet 0 0 []).headPut 0 (cp0 4) = .ok f) ∧
    (match ({ (packet 0 0 []) with asks := [] } : State).headPut 0 { cp0 4 with headWord := some 0x300 } with | .error _ => true | _ => false) = true ∧
    (match (packet 0 0 []).ownWalk (cpWho 0) 0 0x10000 0x300 with | .ok (.page e) => e.w | _ => false) = true ∧
    (streamCfgOf (streamBody.flatMap (leBytes 4)) 0 0x10000).consumer = 3 ∧ streamZeros (streamBody.flatMap (leBytes 4)) = true ∧
    (streamCfgOf (streamBody.flatMap (leBytes 4)) 0 0x10000).ranges = true ∧ (packet 12 0 streamBody).stream? 0 = none ∧
    (packet 12 0 streamBody).roomFor (streamCfgOf (streamBody.flatMap (leBytes 4)) 0 0x10000) = true ∧ fetched (packet 12 0 streamBody) 12 = true ∧
    (packet 12 0 streamBody).unitsReady (streamCfgOf (streamBody.flatMap (leBytes 4)) 0 0x10000) = true ∧
    fetched { packet 11 0 stripBody with streams := [(0, stream0)] } 11 = true ∧ ({ packet 11 0 stripBody with streams := [(0, stream0)] } : State).stream? 0 = some stream0 ∧
    (stripCfgOf (stripBody.flatMap (leBytes 4)) 0 0x10000 0).wt = stream0.cfg.wt ∧ (stripCfgOf (stripBody.flatMap (leBytes 4)) 0 0x10000 0).ht = stream0.cfg.ht ∧
    stream0.cfg.hasRender = false ∧ (stripCfgOf (stripBody.flatMap (leBytes 4)) 0 0x10000 0).stage3 = 0 ∧
    (match (packet 11 0 stripBody).stageOk (setupWho 0) (stripCfgOf (stripBody.flatMap (leBytes 4)) 0 0x10000 0) 0x200 with | .ok (some _) => true | _ => false) = true := by
  refine ⟨by decide +kernel, by decide +kernel, by decide +kernel, by decide +kernel, by decide +kernel, by decide +kernel, ⟨_, rfl⟩, ?_⟩; decide +kernel
theorem wit_CommandPackets : fetched (packet 0 0 []) 0 = true ∧ fetched (packet 1 0 [0x200, 0]) 1 = true ∧ fetched (packet 2 0 [0x200, 0, 1]) 2 = true ∧
    fetched (packet 3 0 [1, 0]) 3 = true ∧ fetched (packet 4 5 [0x200, 0, 0, 2]) 4 = true ∧ fetched (packet 5 0 [0x200, 0, 0, 1]) 5 = true ∧
    fetched (packet 6 0 [0x200, 0, 7]) 6 = true ∧ fetched (packet 7 3 []) 7 = true ∧ fetched (packet 8 0 []) 8 = true ∧ fetched (packet 9 0 [1, 2]) 9 = true ∧
    fetched (packet 10 0 [0, 0]) 10 = true ∧ fetched (packet 12 0 (List.replicate 32 0)) 12 = true ∧ badForm (packet 1 0 [0]) = true ∧ (packet 0 0 []).descOk (descOf desc0) = true ∧
    (packet 1 0 [0x200, 0]).ownRead (launchWho 0) 0 0x10000 0x200 128 = .ok (.ok desc0) ∧ (packet 4 5 [0x200, 0, 0, 2]).cpRead 0 (cp0 20) 0x200 = .ok 0 ∧
    (packet 0 0 []).grids.length < 255 ∧ (packet 0 0 []).ready.getLsbD 3 = true := by decide +kernel

/-! ### The fabric port -/
def conn0 : Conn := ⟨5, [], 9, [⟨8, 3, 0, 0, [1], 0, 0⟩], [], false⟩
def hdr (seq : Nat) : IrsinHdr := ⟨0, seq, false, 0, 0⟩
def port : State := { (flying .g (.load false)) with
  conns := [(0, conn0)], ready := 0xF02, linkUp := true, hostConn := some 0, hostWrites := [⟨0, 4, 0, 0⟩],
  cps := [(0, cp0 0)], ipv4 := 0x0A000001 }
def answering : State := { port with hostAccs := [⟨1, r0, none, false, 4, [], 0, 8, true, none, 0⟩] }
/-- A read of the host of 4 bytes, not asked, answered, and met by an error; a later message held; a packet as the port takes it. -/
def hostRead0 : HostRead := ⟨0, 4, 3, 0, 0x100, 4⟩
def reading (got : Option (Option (List Byte))) : State :=
  { port with hostReads := [hostRead0], asks := [⟨2, .port, 4, 0x100, 4, .read, none, .poll, got, 0, 0⟩] }
def heldMsg : State := { port with conns := [(0, { conn0 with early := [(hdr 6, .mgmt .readStatus)] })] }
def irsinPkt (op : Nat) (body : List Byte) : List Byte :=
  [1, BitVec.ofNat 8 op] ++ leBytes 2 0 ++ leBytes 4 0 ++ leBytes 4 5 ++ leBytes 4 0 ++ leBytes 8 0x100 ++ leBytes 4 body.length ++ leBytes 4 0 ++ body
/-- An Ethernet frame to the multicast address, with an IPv4 and a UDP header to a port. -/
def frameTo (port : Nat) (p : List Byte) : List Byte :=
  [1, 0, 0x5E, 0, 1, 0x81] ++ List.replicate 6 2 ++ [8, 0] ++ ([0x45] ++ List.replicate 8 0 ++ [17] ++ List.replicate 6 0 ++ [0xE0, 0, 1, 0x81]) ++
    [0, 1, BitVec.ofNat 8 (port / 256), BitVec.ofNat 8 port, 0, BitVec.ofNat 8 (8 + p.length), 0, 0] ++ p
theorem wit_IrsinMessages_frame : port.udpOf (frameTo 0x5A51 (irsinPkt 2 (leBytes 4 16))) = some (0x5A51, irsinPkt 2 (leBytes 4 16)) ∧ port.linkUp = true ∧
    ((irsinPkt 2 (leBytes 4 16)).drop 32).length = 4 ∧ fieldAt (irsinPkt 2 (leBytes 4 16)) 1 1 = 2 := by
  refine ⟨?_, by decide +kernel, by decide +kernel, by decide +kernel⟩
  have hd : (beAt (frameTo 0x5A51 (irsinPkt 2 (leBytes 4 16))) 0 6 == 0x01005E000181) = true := by decide +kernel
  simp only [State.udpOf, hd, Bool.or_true, Bool.true_or, Bool.not_true, Bool.or_false]
  decide +kernel
theorem wit_IrsinMessages : look port.conns 0 = some conn0 ∧ conn0.failed = false ∧ port.ready.getLsbD 1 = true ∧ (hdr 5).seq = conn0.rxNext ∧ port.hostAccs = [] ∧
    conn0.early = [] ∧ conn0.wait = [] ∧ port.hostReads = [] ∧ port.asks.all (fun a => a.src != .port) = true ∧ r0.for_ = .elem ∧
    port.hostWrites[0]? = some ⟨0, 4, 0, 0⟩ ∧ 0 ≤ (port.dtc - 0).toInt ∧ ({ port with hostWrites := [⟨0, 4, 0, 2⟩] } : State).hostWrites[0]? = some ⟨0, 4, 0, 2⟩ ∧
    answering.hostAccs = [⟨1, r0, none, false, 4, [], 0, 8, true, none, 0⟩] ∧ (answering.elem? r0).any (fun e => !e.done) = true ∧
    (reading none).hostReads = [hostRead0] ∧ (reading (some (some [1, 2, 3, 4]))).partsGot (portWho 0 4) (partsAt 0x100 4) = some (some [1, 2, 3, 4]) ∧
    (reading (some none)).partsGot (portWho 0 4) (partsAt 0x100 4) = some none ∧ (reading none).partsGot (portWho 0 4) (partsAt 0x100 4) = none ∧
    (hdr 7).seq ≠ conn0.rxNext ∧ ((hdr 7).seq + 2 ^ 32 - conn0.rxNext) % 2 ^ 32 < 1024 ∧
    (look heldMsg.conns 0).map (·.early) = some [(hdr 6, .mgmt .readStatus)] ∧ (hdr 6).seq = ((hdr 5).seq + 1) % 2 ^ 32 ∧
    (look port.cps 0).isSome = true ∧ conn0.tx.length < 1024 ∧ port.mgmtQ = [] ∧ (conn0.tx.find? (·.seq == 8)).isSome = true ∧
    ({ port with out := [.event [1]] } : State).out = [.event [1]] ∧ (Out.event [1]).eventBytes = some [1] ∧ 0 + retryTu 0 ≤ ({ port with tu := retryTu 0 } : State).tu ∧
    irsinOk (irsinPkt 2 (leBytes 4 16)) = true ∧ irsinOk (irsinPkt 1 [1, 2]) = true ∧ irsinOk ((irsinPkt 1 [1, 2]).set 0 2) = false := by
  decide +kernel

/-! ### Management: the rails' default sums, areas, a breakpoint, a task grid, an idle part -/
def broken : State := base.modW fun w => { w with brk := true }
theorem wit_ManagementOperations : State.reset.rails.length = 4 ∧ (0x100000 : Nat) % 2 ^ 20 = 0 ∧ ruleOk (List.replicate 32 0) = false ∧
    State.reset.grids = [] ∧ State.reset.enabled = [] ∧ State.reset.dtcFollow = true ∧ (broken.brkWaves fun v => v.grid == 1).length = 1 ∧ broken.brkSaved 1 0 0 = none ∧
    (look (packet 0 0 []).cps 0).any (fun c => decide (0 < c.size ∧ c.base ≤ 4 ∧ 4 < c.base + c.size)) = true ∧ (State.reset.core 0).perf.length = 8 ∧
    ((packet 0 0 []).cp 0).wait = .none ∧ (look (launch (grid5 2)).grids 5).any (fun r => r.d.kind == 2) = true ∧
    (∀ k < 4, (((List.range 128).filter fun c => State.reset.railOf c == k).map State.reset.clim).sum ≤ State.reset.rlim k) := by decide +kernel

theorem wit_TimeAndPackage : State.reset.dtcFollow = true ∧ ({ State.reset with ready := 4, dtcLockSet := true, linkUp := true } : State).ready.getLsbD 2 = true ∧
    State.reset.ready.getLsbD 2 = false ∧ State.reset.dtcLockSet = false ∧ ({ State.reset with boot := .failed } : State).boot = .failed ∧ State.reset.boot = .atReset ∧
    State.reset.dtc.toNat / (5000 * 65536) = State.reset.interval ∧
    ({ State.reset with dtc := BitVec.ofNat 64 (5000 * 65536) } : State).dtc.toNat / (5000 * 65536) ≠ State.reset.interval ∧ State.reset.rails.length = 4 := by decide +kernel

/-- A booted part with its link up; a failed boot; rules at, below and far below their threshold. -/
def booted : State := { State.reset with boot := .running, linkUp := true, dtcFollow := true, meas := List.replicate 8 0 }
def ruleBytes (th : Nat) : List Byte := leBytes 2 0x3000 ++ leBytes 2 th ++ List.replicate 4 0 ++ leBytes 2 0x8000 ++ List.replicate 6 0
theorem wit_TimeAndPackage_boot : booted.boot = .running ∧ booted.linkUp = true ∧ booted.ready.getLsbD 2 = false ∧ booted.dtcLockSet = false ∧
    ({ booted with ready := 4, dtcLockSet := true } : State).ready.getLsbD 2 = true ∧ State.reset.boot ≠ .running ∧
    ({ booted with ready := 2 ^ 28 } : State).ready.getLsbD (28 + (booted.cluster 0).rail) = true ∧ (booted.cluster 0).off = false ∧
    fieldAt (ruleBytes 4) 2 2 = 4 ∧ fieldAt (ruleBytes 4) 0 2 / 4096 = 3 ∧ fieldAt (List.replicate 32 0) 0 2 / 4096 < 3 ∧
    booted.reading (fieldAt (List.replicate 32 0) 0 2) < 2 ^ 16 := by decide +kernel
theorem wit_ManagementOperations_more : (Conn.blank).room = true ∧ ruleOk (ruleBytes 4) = true ∧ State.reset.parts = [] ∧ State.reset.walks = [] ∧
    State.reset.hostAccs = [] ∧ ({ booted with mgmtQ := [(0, .readStatus)] } : State).mgmtQ = [(0, .readStatus)] ∧
    ((List.range 4).all fun k => decide ((((List.range 128).filter fun c => (State.reset.cluster c).rail == k).map State.reset.clim).sum ≤ State.reset.rlim k)) = true ∧
    ((List.range 4).any fun k => decide (State.reset.rlim k < (((List.range 128).filter fun c => State.reset.railOf c == k).map fun _ => 1023).sum)) = true := by decide +kernel
/-- A frame at the port, with nothing to issue and nothing placed. -/
theorem wit_StepRunsDecodedInstruction_frame : ({ State.reset with rx := [[1]] } : State).issueQ = [] ∧ ({ State.reset with rx := [[1]] } : State).agenda = [] := by
  decide +kernel

/-- StepRunsDecodedInstruction: the loader's wave has issued nothing yet; the same wave started fetches `movi V1, 7`. -/
def stepping : State := let s := (State.reset.place (fullC 0x01A 7 0x01 0xFF 0xFF 7) 0).modW fun w => { w with started := true }
  { s with issueQ := [⟨0, 0, 0⟩] }
theorem wit_StepRunsDecodedInstruction : stepping.agenda = [] ∧ stepping.issueQ = [⟨0, 0, 0⟩] ∧ stepping.live = true ∧ stepping.w.canIssue stepping.sp = true ∧
    stepping.w.started = true ∧ stepping.sp.windows = [] ∧ stepping.spec stepping.w.grid = false ∧
    stepping.fetch 0 1 0 = .ok (BitVec.ofNat 64 (fullC 0x01A 7 0x01 0xFF 0xFF 7)) ∧ encode (.xswapExchange 0) = none := by decide +kernel

theorem wit_EncodeThenDecode : (Instr.mov ⟨.always, .v 1, .k 3⟩).wf = true ∧ (encodeFull (.mov ⟨.always, .v 1, .k 3⟩)).isSome = true ∧
    (Instr.halfAdd ⟨.none, 9, .reg (.v 1)⟩).wf = true ∧ (encodeHalf (.halfAdd ⟨.none, 9, .reg (.v 1)⟩)).isSome = true := by decide +kernel

theorem wit_StepKeepsMemoryCanonical : stepping.memOk ∧ (match step stepping with | .next t => t.vreg 1 == .uni 7 | _ => false) = true := by decide +kernel

end Sys2Proof.Tests
end

section
/-! Refutations by one state. `State.quiet` speaks of the split that `State.sp` finds, which is the first of its identifier, while a
write (`State.modSp`) reaches every split of that identifier. Where a second split of the same identifier has a window open on the
destination, the write leaves in that window the threads it wrote in, and `State.putV` without a mask names all 32 there. -/

namespace Sys2Proof.Proofs
open Sys2Proof Sys2Proof.Machine

/-- Thread 0 runs in one split; a second split of the same identifier has a window open on V1. -/
def twinWave (p : Option Pfx) : Wave :=
  { Wave.blank with splits :=
      [{ Split.blank with mask := 1, pfx := p }, { Split.blank with windows := [⟨0, 2, [.v 1], [], false, none, 0⟩] }] }
def twins (p : Option Pfx) : State := { State.reset with cores := [(0, { Core.blank with waves := [(0, twinWave p)] })] }

/-- The prefix of a stochastic rounding in force. -/
def rsPfx : Pfx := ⟨some ⟨.rs, .none, false⟩, none, 0, false⟩

/-- What the windows of the executing wave's splits hold. -/
def heldMarks (s : State) : List Held := s.w.splits.flatMap fun p => p.windows.flatMap (·.held)
def marksAfter (r : Res) : List Held :=
  match r with
  | .next t => heldMarks t
  | _ => []

theorem twins_quiet (p : Option Pfx) : (twins p).quiet := ⟨rfl, rfl⟩
theorem twins_rowFree (p : Option Pfx) : (twins p).rowFree 1 := by
  right
  show ((List.range 128).filter (twinWave none).rowed).length < 16
  decide +kernel
theorem twins_guardMask (p : Option Pfx) : (twins p).guardMask .always = 1 := by
  have h : (twins p).guardMask .always = 1#32 &&& fullMask := rfl
  rw [h]; decide

/-- A write that names no mask marks all threads in the second split's window. -/
theorem heldMarks_putV (p : Option Pfx) (seed : Word) (r : VReg) :
    heldMarks ((((twins p).modW fun w => { w with seed := seed }).putV 1 r).advance) = [.wrote (.v 1) fullMask] := rfl
theorem heldMarks_putV_plain (p : Option Pfx) (r : VReg) : heldMarks (((twins p).putV 1 r).advance) = [.wrote (.v 1) fullMask] := rfl

/-- An instruction that wrote thread 0 alone left another mark than `State.putV` with no mask. -/
theorem exec_ne_putV {p : Option Pfx} {i : Instr} (h : marksAfter (exec i (twins p)) = [.wrote (.v 1) 1]) (r : VReg) :
    exec i (twins p) ≠ .next (((twins p).putV 1 r).advance) := by
  intro he
  rw [he] at h
  exact absurd ((heldMarks_putV_plain p r).symm.trans h) (by decide)

theorem not_writesV_twins {p : Option Pfx} {i : Instr} {rel : Nat → Word → Prop}
    (h : marksAfter (exec i (twins p)) = [.wrote (.v 1) 1]) : ¬ WritesV i (twins p) 1 1 rel := by
  intro hw
  rw [WritesV, if_neg (by decide)] at hw
  obtain ⟨r, hr, -⟩ := hw
  exact exec_ne_putV h r hr

theorem marks_movi : marksAfter (exec (.movi .always (.v 1) 7) (twins none)) = [.wrote (.v 1) 1] := by decide +kernel
theorem marks_fadd : marksAfter (exec (.fadd ⟨.always, .v 1, .k 1, .reg (.k 1)⟩) (twins (some rsPfx))) = [.wrote (.v 1) 1] := by decide +kernel
theorem marks_tagof : marksAfter (exec (.tagof ⟨.always, .v 1, .v 2⟩) (twins none)) = [.wrote (.v 1) 1] := by decide +kernel
theorem marks_movs : marksAfter (exec (.movs .always (.v 1) .stage) (twins none)) = [.wrote (.v 1) 1] := by decide +kernel

/-- Refutes O1: `movi` in thread 0, with a second split of the executing split's identifier. -/
theorem not_integerResults : ¬ Obligations.IntegerResults := by
  unfold Obligations.IntegerResults
  rintro ⟨hv, -⟩
  exact not_writesV_twins marks_movi (hv (.movi .always (.v 1) 7) (twins none) _ 1 rfl rfl (twins_quiet none) (twins_rowFree none))

/-- Refutes O4: the partial write of `movi` leaves a GEN register, but not the rest of the claimed state. -/
theorem not_shapeTagOfResult : ¬ Obligations.ShapeTagOfResult := by
  unfold Obligations.ShapeTagOfResult
  intro h
  have hm : (twins none).guardMask .always ≠ 0 := by rw [twins_guardMask]; decide
  obtain ⟨hpart, -⟩ := h (.movi .always (.v 1) 7) (twins none) _ 1 rfl rfl (twins_quiet none) hm
  obtain ⟨hfree, -⟩ := hpart (by rw [show (twins none).guardMask _ = 1 from rfl]; decide)
  obtain ⟨r, hr, -⟩ := hfree (twins_rowFree none)
  exact exec_ne_putV marks_movi r hr

/-- Refutes O6: `fadd` under .rs in thread 0. -/
theorem not_stochasticDraws : ¬ Obligations.StochasticDraws := by
  unfold Obligations.StochasticDraws
  intro h
  have hm : (twins (some rsPfx)).guardMask .always ≠ 0 := by rw [twins_guardMask]; decide
  obtain ⟨r, -, hr, -⟩ := h (.fadd ⟨.always, .v 1, .k 1, .reg (.k 1)⟩) (twins (some rsPfx)) _ 1 rfl rfl rfl (twins_quiet _)
    (twins_rowFree _) hm
  have hmarks := marks_fadd
  rw [hr] at hmarks
  exact absurd ((heldMarks_putV (some rsPfx) _ r).symm.trans hmarks) (by decide)

/-- Refutes O11: `tagof` in thread 0. -/
theorem not_tagsAndOperandBuffer : ¬ Obligations.TagsAndOperandBuffer := by
  unfold Obligations.TagsAndOperandBuffer
  rintro ⟨h, -⟩
  obtain ⟨htag, -⟩ := h (twins none) (twins_quiet none)
  obtain ⟨hv, -⟩ := htag ⟨.always, .v 1, .v 2⟩ 2 rfl
  exact not_writesV_twins marks_tagof (hv 1 rfl (twins_rowFree none))

/-- Refutes O12: `movs` of SR_STAGE in thread 0. -/
theorem not_specialRegisters : ¬ Obligations.SpecialRegisters := by
  unfold Obligations.SpecialRegisters
  rintro ⟨h, -⟩
  obtain ⟨hv, -⟩ := h (twins none) (twins_quiet none)
  exact not_writesV_twins marks_movs (hv .always 1 .stage (twins_rowFree none))

end Sys2Proof.Proofs
end

section
/-! Refutations by one tag. The fabric port (`State.pumpHost`) completes a write that a unit made to the host window by the unit's
tag: it asks whether some access of that tag waits for its maker, and then answers the first access of that tag
(`State.giveAsk`). Where two accesses share a tag, the answer goes to the wrong one. -/

namespace Sys2Proof.Proofs
open Sys2Proof Sys2Proof.Machine

/-- An access of a unit, not yet answered. -/
def askOf (tag : Nat) (src : Source) (f : AskFor) : Ask := ⟨tag, src, 0, 0, 1, .write [], none, f, none, 0, 0⟩

/-- A write to the host window on behalf of the unit's access with tag 0 has reached the port, and a connection is mapped. -/
def hostReady : State :=
  { State.reset with
    hostConn := some 0, conns := [(0, Conn.blank)]
    hostAccs := [⟨0, Req.of 0 0 0 0 (2 ^ 47) 0 (.unit 0 2) (.unit 0), none, true, 1, [], 0, 0, false, none, 0⟩] }

/-! ### A core cycle -/

/-- The first access with tag 0 counts for a barrier of workgroup 0, the second waits for its maker. -/
def sharedTag : State :=
  { hostReady with
    wgs := [(0, { WGrp.blank with bars := [Bar.blank] })]
    asks := [askOf 0 (.unit 0 2) (.block 0 0), askOf 0 (.unit 0 2) .poll] }

def wgsAfter (r : Res) : AMap WGrp :=
  match r with
  | .next t => t.wgs
  | _ => []

/-- The port's turn in the cycle counts a byte at the barrier. -/
theorem coreCycle_sharedTag : wgsAfter (exec (.coreCycleIssue 0) sharedTag) ≠ sharedTag.wgs := by decide +kernel

/-- Refutes O47: in this core cycle a workgroup changes. -/
theorem not_coreCycleAndPreemption : ¬ Obligations.CoreCycleAndPreemption := by
  unfold Obligations.CoreCycleAndPreemption
  rintro ⟨hcycle, -⟩
  obtain ⟨hrun, -⟩ := hcycle sharedTag 0
  obtain ⟨t, ht, -, -, -, hwgs, -⟩ := hrun rfl
  have h := coreCycle_sharedTag
  rw [ht] at h
  exact h hwgs

/-! ### A gatherer's pop -/

def gathered : Grid := { Grid.blank with d := { Desc.blank with kind := 2 } }
def queuePage : TlbE := ⟨0, 0, 65536, 0, 0, true, true⟩

/-- Cluster 0 gathers from the queue of grid 1, and the launch unit has an access with the tag that the next access takes. -/
def staleTag : State :=
  { hostReady with
    grids := [(1, gathered)]
    clusters := [(0, { Cluster.atReset 0 with taskQs := [1], tlb := [queuePage] })]
    asks := [askOf 0 .launch .none] }

def asksAfter (r : Res) : List Ask :=
  match r with
  | .next t => t.asks
  | _ => []

/-- The pop is asked for and its access lost in the same turn. -/
theorem gathererPop_staleTag : asksAfter (exec (.gathererPop 0 1) staleTag) = [] := by decide +kernel

/-- Refutes O48: the gatherer's pop is not under way after its turn. -/
theorem not_workDistribution : ¬ Obligations.WorkDistribution := by
  unfold Obligations.WorkDistribution
  rintro ⟨-, hgather⟩
  obtain ⟨-, hturn, -⟩ := hgather staleTag 0 1 gathered queuePage rfl
  obtain ⟨hask, -⟩ := hturn rfl rfl rfl (by decide)
  obtain ⟨t, ht, -, -, a, ha, -⟩ := hask _ rfl (by decide)
  have h := gathererPop_staleTag
  rw [ht] at h
  have hnone : t.asks = [] := h
  exact List.not_mem_nil (hnone ▸ ha)

end Sys2Proof.Proofs
end

section
/-! Special registers: what `setsr` traps on, and the reserved indices (R21). -/

namespace Sys2Proof.Proofs
open Sys2Proof Sys2Proof.Machine

/-! ### setsr -/

/-- A scalar slot of two scalar registers is always UNI (R27). -/
theorem scalar64_s (s : State) (n : Fin 64) : s.scalar64 (.s n) = .ok (s.at64 (.s n) 0) := by
  have hhi : (s.srcHi (.s n)).isUni = true := by
    simp only [State.srcHi, Opnd.plus]
    split <;> rfl
  have hlo : s.scalar (.s n) = .ok ((s.src (.s n)).at 0) := rfl
  simp only [State.scalar64, hlo, hhi, check]
  rfl

/-- Outside the handler SR_TRAP is refused. -/
theorem setsr_trap_error {s : State} (hl : s.live = true) (hw : s.w.handler = none) (n : Fin 64) :
    exec (.setsr .trap (.s n)) s = .next (s.raise (trapI tcProtection 0)) := by
  change execSetsr .trap (.s n) s = _
  refine isa_error hl ?_
  simp only [scalar64_s, hw, check]
  rfl

/-- A register that `setsr` may not write at all is refused. -/
theorem setsr_readOnly_error {s : State} (hl : s.live = true) {r : SReg} (hu : r ≠ .uconf) (ht : r ≠ .trap) (hm : r ≠ .mflags)
    (hs : r ≠ .seed) (a : Opnd) : exec (.setsr r a) s = .next (s.raise (trapI tcProtection 0)) := by
  change execSetsr r a s = _
  refine isa_error hl ?_
  cases r <;> simp_all

/-! ### Reserved indices -/

theorem SReg.ofCode_reserved {n : Nat} (h : 0x13 ≤ n) : SReg.ofCode n = none := by
  unfold SReg.ofCode
  split <;> simp_all

theorem parseFull_movs {r : Raw} (h : r.op = 0x0C6#10) : parseFull r = some (do
    ff r.a; ff r.b; need ((r.c.extractLsb' 6 13) == 0)
    some (.movs r.gd (← Opnd.ofByte r.d) (← SReg.ofCode (r.c.extractLsb' 0 6).toNat))) := by
  obtain ⟨e, l, op, g, d, a, b, c⟩ := r
  subst h
  rfl

theorem parseFull_setsr {r : Raw} (h : r.op = 0x0C7#10) : parseFull r = some (do
    r.plainG; ff r.d; ff r.b; need ((r.c.extractLsb' 6 13) == 0)
    some (.setsr (← SReg.ofCode (r.c.extractLsb' 0 6).toNat) (← Opnd.ofByte r.a))) := by
  obtain ⟨e, l, op, g, d, a, b, c⟩ := r
  subst h
  rfl

/-- A movs or setsr whose index names no register fails at decode order 3. -/
theorem decodeFull_reserved {r : Raw} (hop : r.op = 0x0C6#10 ∨ r.op = 0x0C7#10) (hc : 0x13 ≤ (r.c.extractLsb' 0 6).toNat) :
    decodeFull r = .error (.encoding 3) := by
  have hr := SReg.ofCode_reserved hc
  have hp : parseFull r = some none := by
    rcases hop with h | h
    · rw [parseFull_movs h, hr]; simp
    · rw [parseFull_setsr h, hr]; simp
  simp [decodeFull, hp]

theorem decodeBundle_reserved {x : DWord} (hk : x.getLsbD 62 = false) (hop : x.extractLsb' 47 10 = 0x0C6#10 ∨ x.extractLsb' 47 10 = 0x0C7#10)
    (hc : 0x13 ≤ (x.extractLsb' 0 6).toNat) : ∃ k, decodeBundle x = .error (.encoding k) := by
  have hfull : decodeFull (Raw.ofWord x) = .error (.encoding 3) := by
    refine decodeFull_reserved hop ?_
    have hfield : (Raw.ofWord x).c.extractLsb' 0 6 = x.extractLsb' 0 6 := by
      ext i hi
      simp only [Raw.ofWord, field, BitVec.getElem_extractLsb', BitVec.getLsbD_extractLsb']
      simp [show i < 19 by omega]
    rw [hfield]; exact hc
  cases h63 : x.getLsbD 63 with
  | true => exact ⟨1, by simp only [decodeBundle, h63, ↓reduceIte]⟩
  | false => exact ⟨3, by simp only [decodeBundle, h63, hk, hfull, Bool.false_eq_true, Bool.not_false, ↓reduceIte]⟩

/-- Settles O13: `setsr` by the register it names, the reserved indices by the decoder's table. -/
theorem specialRegisterTraps : Obligations.SpecialRegisterTraps := by
  unfold Obligations.SpecialRegisterTraps
  refine ⟨?_, ?_⟩
  · intro s r a hq hu hm hs htrap
    by_cases ht : r = .trap
    · obtain ⟨hw, n, rfl⟩ := htrap ht
      subst ht
      exact setsr_trap_error hq.1 hw n
    · exact setsr_readOnly_error hq.1 hu ht hm hs a
  · intro x hk hop hc
    obtain ⟨k, hd⟩ := decodeBundle_reserved hk hop hc
    exact ⟨k, hd, rfl⟩

end Sys2Proof.Proofs
end

section
/-! What a step adds to an instruction's own effect (R13, R29, R31, R235, R255), and the bundle a placed word fetches. -/

namespace Sys2Proof.Proofs
open Sys2Proof Sys2Proof.Machine

/-! ### Changes that are bookkeeping only -/

theorem timed_refl (is : List Instr) (t : State) : Timed is t t :=
  ⟨rfl, rfl, rfl, rfl, rfl, rfl, rfl, rfl, rfl, rfl, rfl, fun _ _ => rfl, rfl, fun _ => rfl⟩

theorem timed_trans {is : List Instr} {t u v : State} (h : Timed is t u) (k : Timed is u v) : Timed is t v := by
  obtain ⟨hmem, hring, hgrids, hclusters, hslices, hout, hasks, hcur, hqueue, hagenda, hfree, hwaves, hwgs, hwg⟩ := h
  obtain ⟨kmem, kring, kgrids, kclusters, kslices, kout, kasks, kcur, kqueue, kagenda, kfree, kwaves, kwgs, kwg⟩ := k
  exact ⟨kmem.trans hmem, kring.trans hring, kgrids.trans hgrids, kclusters.trans hclusters, kslices.trans hslices,
    kout.trans hout, kasks.trans hasks, kcur.trans hcur, kqueue.trans hqueue, kagenda.trans hagenda, kfree.trans hfree,
    fun core ctx => (kwaves core ctx).trans (hwaves core ctx), kwgs.trans hwgs, fun no => (kwg no).trans (hwg no)⟩

/-- A core's own books, its waves apart. -/
theorem timed_modCore (is : List Instr) (t : State) (k : Nat) {f : Core → Core} (hf : ∀ c, (f c).waves = c.waves) :
    Timed is t (t.modCore k f) := by
  refine ⟨rfl, rfl, rfl, rfl, rfl, rfl, rfl, rfl, rfl, rfl, rfl, fun core ctx => ?_, rfl, fun _ => rfl⟩
  by_cases hk : core = k
  · subst hk
    simp [State.wave?, hf]
  · simp [State.wave?, State.core_modCore_ne t f hk]

/-- When a load's value is due. -/
theorem timed_modWave (is : List Instr) (t : State) (core ctx : Nat) {f : Wave → Wave} (hf : ∀ w, (f w).untimed = w.untimed) :
    Timed is t (t.modWave core ctx f) := by
  refine ⟨rfl, rfl, rfl, rfl, rfl, rfl, rfl, rfl, rfl, rfl, rfl, fun core' ctx' => ?_, rfl, fun _ => rfl⟩
  by_cases hk : (core', ctx') = (core, ctx)
  · cases hk
    rw [State.wave?_modWave, Option.map_map]
    exact congrArg (Option.map · _) (funext hf)
  · rw [State.wave?_modWave_ne t f hk]

/-- The order of a workgroup register's writes, where an instruction writes one. -/
theorem timed_modWg {is : List Instr} (t : State) (k : Nat) {f : WGrp → WGrp} (hf : ∀ g, (f g).untimed = g.untimed)
    (hw : ∃ i ∈ is, ∃ n, Opnd.wg n ∈ destsOf i) : Timed is t (t.modWg k f) := by
  refine ⟨rfl, rfl, rfl, rfl, rfl, rfl, rfl, rfl, rfl, rfl, rfl, fun _ _ => rfl, ?_, fun no => ?_⟩
  · simp only [State.modWg, change, List.map_map]
    refine List.map_congr_left fun x _ => ?_
    by_cases hx : x.1 = k <;> simp [hx, hf]
  · obtain ⟨i, hi, n, hn⟩ := hw
    exact absurd hn (no i hi n)

/-- Bookkeeping entry by entry of a list. -/
theorem timed_foldl {is : List Instr} {α : Type} {f : State → α → State} :
    ∀ (xs : List α), (∀ t, ∀ x ∈ xs, Timed is t (f t x)) → ∀ t, Timed is t (xs.foldl f t)
  | [], _, t => timed_refl is t
  | x :: xs, hf, t =>
    timed_trans (hf t x List.mem_cons_self) (timed_foldl xs (fun u y hy => hf u y (List.mem_cons_of_mem x hy)) (f t x))

theorem untimed_dueTill (w : Wave) (j till : Nat) : (w.modSplit j fun p => p.dueTill till).untimed = w.untimed := by
  simp only [Wave.modSplit, Wave.untimed, List.map_map]
  congr 1
  refine List.map_congr_left fun p _ => ?_
  by_cases hp : p.id = j
  · simp only [Function.comp_apply, hp, ↓reduceIte, Split.dueTill]
    split <;> simp_all
  · simp [hp]

theorem untimed_wgLate (g : WGrp) (cyc idx done reg : Nat) : (g.wgLate cyc idx done reg).untimed = g.untimed := by
  unfold WGrp.wgLate
  split <;> rfl

/-! ### The books a core keeps of an issue leave its waves alone -/

theorem waves_takePort (k : Core) (ctx uid : Nat) (x : Nat × Nat × Option (BitVec 4)) : (k.takePort ctx uid x).waves = k.waves := by
  unfold Core.takePort
  split <;> rfl

theorem waves_takePorts (ctx uid : Nat) (xs : List (Nat × Nat × Option (BitVec 4))) (k : Core) :
    (xs.foldl (fun k x => k.takePort ctx uid x) k).waves = k.waves := by
  induction xs generalizing k with
  | nil => rfl
  | cons x xs ih => exact (ih _).trans (waves_takePort k ctx uid x)

theorem waves_merged (k : Core) (ctx : Nat) (before after : Wave) : (k.merged ctx before after).waves = k.waves := by
  unfold Core.merged
  split <;> rfl

theorem timed_account (s t : State) (j : Job) : Timed j.instrs t (s.account t j) := by
  unfold State.account
  refine timed_trans (timed_trans (timed_trans (timed_foldl _ (fun u x _ => ?_) t) (timed_foldl _ (fun u d hd => ?_) _))
    (timed_modCore _ _ _ fun k => ?_)) (timed_modCore _ _ _ fun k => ?_)
  · exact timed_modWave _ _ _ _ fun w => untimed_dueTill w _ _
  · obtain ⟨i, hi, o, ho, rfl⟩ : ∃ i ∈ j.instrs, ∃ o ∈ destsOf i, d.reg = o := by
      simp only [List.mem_filter, List.mem_flatMap, List.mem_map] at hd
      obtain ⟨⟨i, ⟨hi, _⟩, o, ho, rfl⟩, _⟩ := hd
      exact ⟨i, hi, o, ho, rfl⟩
    split
    next n hn => exact timed_modWg _ _ (fun g => untimed_wgLate g _ _ _ _) ⟨i, hi, n, hn ▸ ho⟩
    next => exact timed_refl _ _
  · exact (waves_merged _ _ _ _).trans (waves_takePorts _ _ _ _)
  · rfl

theorem timed_noteIssue {s t : State} {j : Job} (hlive : s.live = true) (hissue : s.w.canIssue s.sp = true)
    (hj : s.prepare = .ok j) : Timed j.instrs t (noteIssue s t) := by
  simp only [noteIssue, hlive, hissue, hj, Bool.and_self]
  have hforget (u : State) := timed_modCore j.instrs u s.cur.core
    (f := fun k => { k with begun := k.begun.filter fun x => !(x.ctx == s.cur.ctx && x.uid == s.sp.uid) }) fun _ => rfl
  have hbegin (u : State) := timed_modCore j.instrs u s.cur.core (f := fun k => { k with begun := s.begunKey :: k.begun }) fun _ => rfl
  by_cases hw : (heldBack s t j && t.unstarted s.cur) = true
  · simp only [hw, ↓reduceIte]
    exact timed_refl _ t
  · simp only [hw, Bool.false_eq_true, ↓reduceIte]
    by_cases hh : heldBack s t j = true <;> by_cases hb : (s.core s.cur.core).begun.contains s.begunKey = true <;>
      simp only [hh, hb, Bool.false_eq_true, ↓reduceIte]
    · exact timed_trans (hforget t) (hbegin _)
    · exact timed_trans (timed_trans (hforget t) (hbegin _)) (timed_account s _ j)
    · exact hforget t
    · exact timed_trans (hforget t) (timed_account s _ j)

/-! ### What a ready split issues (R60) -/

/-- The hypotheses of an issue that neither waits nor traps before its checks. -/
structure Ready (s : State) : Prop where
  live : s.live = true
  may : s.w.canIssue s.sp = true
  started : s.w.started = true
  clean : ∀ w ∈ s.sp.windows, w.err = none
  firm : s.spec s.w.grid = false

theorem issue_of_prepare {s : State} (h : Ready s) {j : Job} (hj : s.prepare = .ok j) (run : Run) :
    issue run s = perform run j s := by
  have hclean : (s.sp.windows.find? fun w => w.err.isSome && w.left ≤ 1) = none := by
    rw [List.find?_eq_none]
    intro w hw
    simp [h.clean w hw]
  simp only [issue, h.live, h.may, h.started, Bool.and_self, ↓reduceIte, hclean, hj]
  cases j <;> simp [h.firm]

theorem issueTimed_of_prepare {s t : State} (h : Ready s) {j : Job} (hj : s.prepare = .ok j) {run : Run}
    (ht : perform run j s = .next t) : ∃ t', issueTimed run s = .next t' ∧ Timed j.instrs t t' := by
  refine ⟨noteIssue s t, ?_, timed_noteIssue h.live h.may hj⟩
  rw [issueTimed, issue_of_prepare h hj, ht, andThen]

theorem budgetCheck_ok {n : Nat} {i : Instr} (h : ∀ k : Fin 128, .v k ∈ opnds i → k.val < n) (at_ : TrapAt) :
    budgetCheck n i at_ = .ok () := by
  have hnone : ((opnds i).filterMap opndV).filter (fun k => n ≤ k) = [] := by
    rw [List.filter_eq_nil_iff]
    intro k hk
    obtain ⟨o, ho, hok⟩ := List.mem_filterMap.1 hk
    cases o <;> simp only [opndV, Option.some.injEq, reduceCtorEq] at hok
    case v m =>
      subst hok
      simpa using h m ho
  simp [budgetCheck, overBudget, hnone]

theorem halfBudget_ok {n : Nat} {x : DWord} {low : Bool} {i : Instr} (h : ∀ k : Fin 128, .v k ∈ opnds i → k.val < n)
    (hd : ((halfAt x low).extractLsb' 13 7).toNat < n) (at_ : TrapAt) : halfBudget n x low i at_ = .ok () := by
  unfold halfBudget
  split
  · exact if_neg (Nat.not_le.2 hd)
  · exact budgetCheck_ok h at_

theorem prepare_full {s : State} {x : DWord} {e : Bool} {i : Instr} (hx : s.fetch s.cur.core s.w.grid s.sp.pc = .ok x)
    (hd : decodeBundle x = .ok ⟨e, .full i⟩) (h : ∀ k : Fin 128, .v k ∈ opnds i → k.val < s.w.n) :
    s.prepare = .ok (.full i) := by
  simp only [State.prepare, hx, hd, budgetCheck_ok h, bind, Except.bind]

theorem prepare_pair {s : State} {x : DWord} {e : Bool} {hi lo : Instr} (hx : s.fetch s.cur.core s.w.grid s.sp.pc = .ok x)
    (hd : decodeBundle x = .ok ⟨e, .pair hi lo⟩) (hh : isPfx hi = false) (hl : isPfx lo = false) (hok : pairOk hi lo = true)
    (h : ∀ k : Fin 128, .v k ∈ opnds hi ++ opnds lo → k.val < s.w.n)
    (hD : ∀ low, ((halfAt x low).extractLsb' 13 7).toNat < s.w.n) : s.prepare = .ok (.pair hi lo) := by
  have hhi := fun at_ => halfBudget_ok (low := false) (fun k hk => h k (List.mem_append_left _ hk)) (hD false) at_
  have hlo := fun at_ => halfBudget_ok (low := true) (fun k hk => h k (List.mem_append_right _ hk)) (hD true) at_
  simp only [State.prepare, hx, hd, State.bundleChecks, hh, hl, pairChecks, hok, hhi, hlo, bind, Except.bind,
    Bool.false_eq_true, Bool.false_and, ↓reduceIte]

theorem perform_full (run : Run) (i : Instr) (s : State) : perform run (.full i) s = run i (s.countIssue 1) := by
  simp [perform, Job.instrs]

theorem perform_pair {run : Run} {hi lo : Instr} {s a b : State} (hw : s.sp.windows = [])
    (hs : (s.countIssue 2).pairShort hi lo = none) (ha : run hi (s.countIssue 2) = .next a)
    (hb : run lo (a.modSp fun p => { p with latch := (s.countIssue 2).latchOf lo }) = .next b) :
    perform run (.pair hi lo) s = .next ((b.modSp fun p => { p with latch := none }).advance) := by
  have hroom : s.sp.roomForPair = true := by simp [Split.roomForPair, hw]
  simp only [perform, Job.instrs, List.length_cons, List.length_nil, hroom, Bool.not_true, Bool.and_false, Bool.false_eq_true,
    ↓reduceIte, runPair, hs, ha, hb, andThen]

/-! ### The bundle that is placed (log entry 4) -/

theorem leNat_leBytes (n v : Nat) : leNat (leBytes n v) = v % 256 ^ n := by
  induction n generalizing v with
  | zero => simp [leBytes, leNat, Nat.mod_one]
  | succ n ih =>
    rw [leBytes, leNat, ih, BitVec.toNat_ofNat, pow_succ' 256 n, Nat.mod_mul]

theorem length_leBytes (n v : Nat) : (leBytes n v).length = n := by
  induction n generalizing v with
  | zero => rfl
  | succ n ih => simp [leBytes, ih]

theorem gets_putNat {m : Mem} (h : Mem.wf m = true) (n v : Nat) : (List.range n).map (fun i => (m.putNat 0 n v).get (0 + i)) = leBytes n v := by
  refine List.ext_getElem (by simp [length_leBytes]) fun i hi _ => ?_
  have hn : i < n := by simpa using hi
  simp [Mem.putNat, Mem.get_puts _ _ _ h, length_leBytes, hn]

theorem phys_place (s : State) (bundle next pa : Nat) :
    (s.place bundle next).phys pa = ((s.mem.putNat 0 8 bundle).putNat 8 8 next).get pa := by
  unfold State.phys State.inRing State.place
  rfl

theorem physs_place {s : State} (h : s.memOk) (bundle next : Nat) : (s.place bundle next).physs 0 8 = leBytes 8 bundle := by
  rw [← gets_putNat h.1 8 bundle, State.physs]
  refine List.map_congr_left fun i hi => ?_
  have hi8 : i < 8 := List.mem_range.1 hi
  have hwf : Mem.wf (s.mem.putNat 0 8 bundle) = true := Mem.wf_puts _ _ h.1
  rw [phys_place, Mem.putNat, Mem.get_puts _ _ _ hwf, if_neg (by omega)]

theorem core_place (s : State) (bundle next : Nat) : (s.place bundle next).core 0 =
    { Core.blank with waves := [(0, loaderWave)], tlb := [⟨0, 0, 65536, 0, 0, true, true⟩], il := [(0, true)] } := by
  simp [State.core, State.place]

theorem w_place (s : State) (bundle next : Nat) : (s.place bundle next).w = loaderWave := by
  change (((look ((s.place bundle next).core 0).waves 0)).getD Wave.blank) = _
  rw [core_place]
  rfl

theorem fetch_place {s : State} (h : s.memOk) (bundle next : Nat) :
    (s.place bundle next).fetch 0 (s.place bundle next).w.grid (s.place bundle next).sp.pc = .ok (BitVec.ofNat 64 (bundle % 2 ^ 64)) := by
  have hbytes := physs_place h bundle next
  have hgrid : (s.place bundle next).grid 1 = loaderGrid := by simp [State.grid, State.place]
  have hread : (s.place bundle next).agentRead none 0 8 = leBytes 8 bundle := by
    rw [State.agentRead, hbytes]; rfl
  have hpage : (s.place bundle next).xlate 0 1 0#64 false true = .ok ⟨0, 0, 65536, 0, 0, true, true⟩ := by
    simp only [State.xlate, State.xlateIn, hgrid, core_place]
    rfl
  have hpc : (s.place bundle next).sp.pc = 0 := by
    rw [State.sp, w_place]; rfl
  rw [w_place, hpc]
  change (s.place bundle next).fetch 0 1 0 = _
  have hbad : (s.place bundle next).bad 0 8 = false := rfl
  simp [State.fetch, hpage, core_place, hgrid, TlbE.pa?, hread, leNat_leBytes, loaderGrid, Grid.blank, isHostPa, Core.blank, hbad]

/-! ### The step -/

theorem isIsa_false {e : Instr} (h : encode e = none) : isIsa e = false := by simp [isIsa, h]

theorem isIsa_true {e : Instr} (h : encode e ≠ none) : isIsa e = true := Option.isSome_iff_ne_none.2 h

/-- Settles O54: the split chosen first, then the agenda, the port and the cores; an issue's bookkeeping is `timed_noteIssue`. -/
theorem stepRunsDecodedInstruction : Obligations.StepRunsDecodedInstruction := by
  unfold Obligations.StepRunsDecodedInstruction
  refine ⟨fun s hq => ⟨fun e rest ha he => ?_, fun e rest ha he => ?_, fun f rest ha hf => ?_, fun ha hf => ?_⟩, ?_, ?_⟩
  · simp only [step, hq, ha, isIsa_false he, Bool.false_eq_true, ↓reduceIte]
  · simp only [step, hq, ha, isIsa_true he, ↓reduceIte]
  · simp only [step, hq, ha, hf]
  · simp only [step, hq, ha, hf]
  · intro s c rest hq u hlive hissue hstarted hclean hfirm x e hx
    have hready : Ready u := ⟨hlive, hissue, hstarted, hclean, hfirm⟩
    have hstep : step s = issueTimed exec u := by simp only [step, hq, u]
    rw [hstep]
    refine ⟨fun i t hd hbudget ht => ?_, fun hi lo a b hd hh hl hok hbudget hD hw hs ha hb => ?_⟩
    · exact issueTimed_of_prepare hready (prepare_full hx hd hbudget) ((perform_full exec i u).trans ht)
    · exact issueTimed_of_prepare hready (prepare_pair hx hd hh hl hok hbudget hD) (perform_pair hw hs ha hb)
  · intro s w hm hw
    refine ⟨rfl, rfl, ?_, ?_, ?_⟩
    · change (look ((s.withFetchWord 64 w).core 0).waves 0).any _ = true
      rw [State.withFetchWord, core_place]
      rfl
    · rw [State.withFetchWord, State.sp, w_place]
      rfl
    · rw [State.withFetchWord, fetch_place hm, Nat.mod_mod, Nat.mod_eq_of_lt hw]

end Sys2Proof.Proofs
end

section
/-! What a value instruction may change, as a relation that each write meets and that runs on from write to write (R24, R96, R97, R100). -/

namespace Sys2Proof.Proofs
open Sys2Proof Sys2Proof.Machine

/-! ### The relation -/

/-- The registers that a destination of w registers names. -/
def Names (d : Opnd) (w : Nat) (o : Opnd) : Prop := ∃ j < w, Opnd.plus d j = o

/-- A wave without what a value instruction may change of it: registers, splits, SR_SEED and the operand buffer's books. -/
def waveRest (w : Wave) : Wave := { w with v := [], p := [], splits := [], seed := 0, dirty := [] }

/-- A split without its scalar registers. -/
def splitRest (p : Split) : Split := { p with s := [] }

/-- From s to u only registers that `named` holds were written, in the executing wave and its workgroup, and SR_SEED only
where `seeds` holds. -/
structure ValueFrame (named : Opnd → Prop) (seeds : Prop) (s u : State) : Prop where
  state : u = { s with cores := u.cores, wgs := u.wgs }
  live : u.live = true
  otherWaves : ∀ core ctx, (core, ctx) ≠ (s.cur.core, s.cur.ctx) → u.wave? core ctx = s.wave? core ctx
  cores : ∀ k, { u.core k with waves := [] } = { s.core k with waves := [] }
  wave : waveRest u.w = waveRest s.w
  vregs : ∀ n h, ¬ named (.v ⟨n, h⟩) → u.w.v.getD n .unwritten = s.w.v.getD n .unwritten
  pregs : ∀ n h, ¬ named (.p ⟨n, h⟩) → u.w.p.getD n 0 = s.w.p.getD n 0
  seed : ¬ seeds → u.w.seed = s.w.seed
  otherSplits : ∀ j, j ≠ s.cur.split → u.w.split? j = s.w.split? j
  split : splitRest u.sp = splitRest s.sp
  sregs : ∀ n h, ¬ named (.s ⟨n, h⟩) → u.sp.s.getD n 0 = s.sp.s.getD n 0
  otherGroups : ∀ j, j ≠ s.w.wg → look u.wgs j = look s.wgs j
  group : u.g.untimed = s.g.untimed
  wgregs : ∀ n h, ¬ named (.wg ⟨n, h⟩) → u.g.wgr.getD n 0 = s.g.wgr.getD n 0

section
variable {named : Opnd → Prop} {seeds : Prop} {s u t : State}

theorem ValueFrame.refl (hl : s.live = true) : ValueFrame named seeds s s :=
  ⟨rfl, hl, fun _ _ _ => rfl, fun _ => rfl, rfl, fun _ _ _ => rfl, fun _ _ _ => rfl, fun _ => rfl, fun _ _ => rfl, rfl,
    fun _ _ _ => rfl, fun _ _ => rfl, rfl, fun _ _ _ => rfl⟩

theorem ValueFrame.cur (h : ValueFrame named seeds s u) : u.cur = s.cur := by rw [h.state]

theorem ValueFrame.wgOf (h : ValueFrame named seeds s u) : u.w.wg = s.w.wg := (congrArg Wave.wg h.wave :)

theorem ValueFrame.trans (h : ValueFrame named seeds s u) (k : ValueFrame named seeds u t) : ValueFrame named seeds s t where
  state := by rw [k.state, h.state]
  live := k.live
  otherWaves core ctx hne := (k.otherWaves core ctx (h.cur ▸ hne)).trans (h.otherWaves core ctx hne)
  cores j := (k.cores j).trans (h.cores j)
  wave := k.wave.trans h.wave
  vregs n hn no := (k.vregs n hn no).trans (h.vregs n hn no)
  pregs n hn no := (k.pregs n hn no).trans (h.pregs n hn no)
  seed no := (k.seed no).trans (h.seed no)
  otherSplits j hj := (k.otherSplits j (h.cur ▸ hj)).trans (h.otherSplits j hj)
  split := k.split.trans h.split
  sregs n hn no := (k.sregs n hn no).trans (h.sregs n hn no)
  otherGroups j hj := (k.otherGroups j (h.wgOf ▸ hj)).trans (h.otherGroups j hj)
  group := k.group.trans h.group
  wgregs n hn no := (k.wgregs n hn no).trans (h.wgregs n hn no)

/-- No window of the split opens. -/
theorem ValueFrame.quiet (h : ValueFrame named seeds s u) (hq : s.quiet) : u.quiet :=
  ⟨h.live, (congrArg Split.windows h.split :).trans hq.2⟩

/-! ### The primitive updates -/

theorem split?_of_live (hl : s.live = true) : s.w.split? s.cur.split = some s.sp := by
  obtain ⟨w, hw, p, hp⟩ := s.live_iff.1 hl
  have hsw : s.w = w := by simp [State.w, State.wave, hw]
  simp [State.sp, hsw, hp]

theorem wave?_of_live (hl : s.live = true) : s.wave? s.cur.core s.cur.ctx = some s.w := by
  obtain ⟨w, hw, -⟩ := s.live_iff.1 hl
  simp [State.w, State.wave, hw]

theorem cores_modWave (s : State) (core ctx : Nat) (f : Wave → Wave) (k : Nat) :
    { (s.modWave core ctx f).core k with waves := [] } = { s.core k with waves := [] } := by
  by_cases hk : k = core
  · subst hk
    simp [State.modWave]
  · simp only [State.modWave, State.core_modCore_ne _ _ hk]

/-- An update of the executing wave whose split keeps all but its scalar registers. -/
theorem frame_modW (hl : s.live = true) {f : Wave → Wave} {q : Split} (hrest : waveRest (f s.w) = waveRest s.w)
    (hv : ∀ n h, ¬ named (.v ⟨n, h⟩) → (f s.w).v.getD n .unwritten = s.w.v.getD n .unwritten)
    (hp : ∀ n h, ¬ named (.p ⟨n, h⟩) → (f s.w).p.getD n 0 = s.w.p.getD n 0)
    (hseed : ¬ seeds → (f s.w).seed = s.w.seed)
    (hothers : ∀ j, j ≠ s.cur.split → (f s.w).split? j = s.w.split? j)
    (hown : (f s.w).split? s.cur.split = some q) (hq : splitRest q = splitRest s.sp)
    (hs : ∀ n h, ¬ named (.s ⟨n, h⟩) → q.s.getD n 0 = s.sp.s.getD n 0) : ValueFrame named seeds s (s.modW f) := by
  have hw : (s.modW f).w = f s.w := s.w_modW f hl
  have hsp : (s.modW f).sp = q := by simp [State.sp, hw, hown]
  have hwg : (f s.w).wg = s.w.wg := (congrArg Wave.wg hrest :)
  have hg : (s.modW f).g = s.g := by rw [State.g, hw, hwg]; rfl
  refine ⟨rfl, ?_, fun core ctx hne => s.wave?_modWave_ne f hne, cores_modWave s _ _ f, by rw [hw, hrest], ?_, ?_, ?_, ?_, by rw [hsp, hq], ?_,
    fun _ _ => rfl, by rw [hg], fun _ _ _ => by rw [hg]⟩
  · exact (State.live_iff _).2 ⟨f s.w, by simp [State.modW, wave?_of_live hl], q, hown⟩
  · rw [hw]; exact hv
  · rw [hw]; exact hp
  · rw [hw]; exact hseed
  · rw [hw]; exact hothers
  · rw [hsp]; exact hs

/-- An update of the executing wave that leaves its splits alone. -/
theorem frame_modW_regs (hl : s.live = true) {f : Wave → Wave} (hrest : waveRest (f s.w) = waveRest s.w)
    (hsplits : (f s.w).splits = s.w.splits)
    (hv : ∀ n h, ¬ named (.v ⟨n, h⟩) → (f s.w).v.getD n .unwritten = s.w.v.getD n .unwritten)
    (hp : ∀ n h, ¬ named (.p ⟨n, h⟩) → (f s.w).p.getD n 0 = s.w.p.getD n 0)
    (hseed : ¬ seeds → (f s.w).seed = s.w.seed) : ValueFrame named seeds s (s.modW f) := by
  have hsplit (j : Nat) : (f s.w).split? j = s.w.split? j := by simp only [Wave.split?, hsplits]
  exact frame_modW hl hrest hv hp hseed (fun j _ => hsplit j) ((hsplit _).trans (split?_of_live hl)) rfl fun _ _ _ => rfl

/-- An update of the executing split's scalar registers. -/
theorem frame_modSp (hl : s.live = true) {f : Split → Split} (hid : ∀ p : Split, (f p).id = p.id)
    (hrest : splitRest (f s.sp) = splitRest s.sp)
    (hs : ∀ n h, ¬ named (.s ⟨n, h⟩) → (f s.sp).s.getD n 0 = s.sp.s.getD n 0) : ValueFrame named seeds s (s.modSp f) := by
  have hkeep (p : Split) (hp : p.id = s.cur.split) : (f p).id = s.cur.split := (hid p).trans hp
  refine frame_modW hl rfl (fun _ _ _ => rfl) (fun _ _ _ => rfl) (fun _ => rfl)
    (fun j hj => s.w.split?_modSplit_ne f hkeep hj) (q := f s.sp) ?_ hrest hs
  rw [Wave.split?_modSplit _ _ _ hkeep, split?_of_live hl]
  rfl

/-- The executing split's windows, of which a quiet state has none. -/
theorem frame_windows (hq : s.quiet) (f : Window → Window) :
    ValueFrame named seeds s (s.modSp fun p => { p with windows := p.windows.map f }) :=
  frame_modSp hq.1 (fun _ => rfl) (by simp only [splitRest, hq.2, List.map_nil]) fun _ _ _ => rfl

/-- An update of the wave's workgroup that changes only its registers. -/
theorem frame_modG (hl : s.live = true) {f : WGrp → WGrp} (hrest : ∀ g, (f g).untimed = g.untimed)
    (hwg : ∀ g n h, ¬ named (.wg ⟨n, h⟩) → (f g).wgr.getD n 0 = g.wgr.getD n 0) : ValueFrame named seeds s (s.modG f) := by
  have hg : (s.modG f).g = s.g ∨ (s.modG f).g = f s.g := by
    have hlook : (s.modG f).g = ((look s.wgs s.w.wg).map f).getD WGrp.blank := by
      rw [← State.look_modWg]; rfl
    have hs : s.g = (look s.wgs s.w.wg).getD WGrp.blank := rfl
    rw [hlook, hs]
    cases look s.wgs s.w.wg with
    | none => exact .inl rfl
    | some g => exact .inr rfl
  refine ⟨rfl, hl, fun _ _ _ => rfl, fun _ => rfl, rfl, fun _ _ _ => rfl, fun _ _ _ => rfl, fun _ => rfl, fun _ _ => rfl, rfl,
    fun _ _ _ => rfl, fun j hj => look_change_ne _ f hj, ?_, fun n h no => ?_⟩
  · rcases hg with hg | hg <;> rw [hg]
    exact hrest _
  · rcases hg with hg | hg <;> rw [hg]
    exact hwg _ n h no

/-! ### The writes of the operand layer -/

theorem getD_set_of_ne {α : Type} (l : List α) {n m : Nat} (x d : α) (h : m ≠ n) : (l.set n x).getD m d = l.getD m d := by
  simp [List.getElem?_set_ne (Ne.symm h)]

theorem frame_seed (hl : s.live = true) {x : Word} (hx : ¬ seeds → x = s.w.seed) :
    ValueFrame named seeds s (s.modW fun w => { w with seed := x }) :=
  frame_modW_regs hl rfl rfl (fun _ _ _ => rfl) (fun _ _ _ => rfl) hx

theorem frame_putV (hq : s.quiet) {n : Nat} (hn : ∀ h, named (.v ⟨n, h⟩)) (x : VReg) (m : Mask) :
    ValueFrame named seeds s (s.putV n x m) := by
  have hset : ValueFrame named seeds s (s.modW fun w => { w with
      v := w.v.set n x
      dirty := if w.fob.contains n && !w.dirty.contains n then n :: w.dirty else w.dirty }) :=
    frame_modW_regs hq.1 rfl rfl (fun k hk no => getD_set_of_ne _ _ _ fun e => no (by subst e; exact hn hk)) (fun _ _ _ => rfl) fun _ => rfl
  exact hset.trans (frame_windows (hset.quiet hq) _)

theorem frame_writeV (hq : s.quiet) {n : Nat} (hn : ∀ h, named (.v ⟨n, h⟩)) {x : VReg} {m : Mask}
    (h : s.writeV n x m = .ok u) : ValueFrame named seeds s u := by
  simp only [State.writeV, heldV_nil hq.2] at h
  split at h
  · cases h; exact .refl hq.1
  · split at h
    · cases h
    · cases h; exact frame_putV hq hn _ _

theorem frame_writeS (hq : s.quiet) {n : Nat} (hn : ∀ h, named (.s ⟨n, h⟩)) (x : Word) :
    ValueFrame named seeds s (s.writeS n x) := by
  simp only [State.writeS, heldS_nil hq.2, State.putS]
  refine frame_modSp hq.1 (fun _ => rfl) (by simp only [splitRest, hq.2, List.map_nil]) fun k hk no => ?_
  exact getD_set_of_ne _ _ _ fun e => no (by subst e; exact hn hk)

theorem frame_writeWg (hq : s.quiet) {n : Nat} (hn : ∀ h, named (.wg ⟨n, h⟩)) (x : Word) :
    ValueFrame named seeds s (s.writeWg n x) := by
  simp only [State.writeWg, heldWg_nil hq.2]
  have hset : ValueFrame named seeds s (s.modG fun g => g.wgNote (s.core s.cur.core).cyc.toNat ⟨n, x, (s.core s.cur.core).cyc.toNat, some s.w.idx⟩) :=
    frame_modG hq.1 (fun _ => rfl) fun g k hk no => getD_set_of_ne _ _ _ fun e => no (by subst e; exact hn hk)
  exact hset.trans (frame_windows (hset.quiet hq) _)

theorem frame_writeP (hq : s.quiet) {n : Nat} (hn : ∀ h, named (.p ⟨n, h⟩)) (x m : Mask) :
    ValueFrame named seeds s (s.writeP n x m) := by
  simp only [State.writeP, heldP_nil hq.2]
  split
  · exact .refl hq.1
  · have hset : ValueFrame named seeds s (s.modW fun w => { w with p := w.p.set n ((x &&& m) ||| (s.w.p.getD n 0 &&& ~~~m)) }) :=
      frame_modW_regs hq.1 rfl rfl (fun _ _ _ => rfl) (fun k hk no => getD_set_of_ne _ _ _ fun e => no (by subst e; exact hn hk)) fun _ => rfl
    exact hset.trans (frame_windows (hset.quiet hq) _)

theorem frame_writeD (hq : s.quiet) {d : Opnd} (hd : named d) {x : VReg} {m : Mask} (h : s.writeD d x m = .ok u) :
    ValueFrame named seeds s u := by
  cases d with
  | v n => exact frame_writeV hq (fun _ => hd) h
  | s n => cases h; exact frame_writeS hq (fun _ => hd) _
  | wg n => cases h; exact frame_writeWg hq (fun _ => hd) _
  | k n => cases h; exact .refl hq.1
  | p n => cases h; exact .refl hq.1
  | null => cases h; exact .refl hq.1

theorem frame_setP (hq : s.quiet) {d : Opnd} (hd : named d) (x m : Mask) : ValueFrame named seeds s (s.setP d x m) := by
  cases d with
  | p n => exact frame_writeP hq (fun _ => hd) x m
  | _ => exact .refl hq.1

/-! ### The shared shapes -/

theorem bind_eq_ok {ε α β : Type} {x : Except ε α} {f : α → Except ε β} {b : β} (h : x >>= f = .ok b) : ∃ a, x = .ok a ∧ f a = .ok b := by
  cases x with
  | error e => cases h
  | ok a => exact ⟨a, rfl, h⟩

theorem frame_alu (hq : s.quiet) {g : Guard} {d : Opnd} {srcs : List VReg} {slots : List Opnd} {rs : Bool} {k : Nat}
    {aff : Option VReg} {f : List Word → List Nat → Word} (hd : named d) (h : s.alu g d srcs slots rs k aff f = .ok u)
    (hrs : rs = true → seeds) : ValueFrame named seeds s u := by
  have hseed (hr : rs = true) (x : Word) : ValueFrame named seeds s (s.modW fun w => { w with seed := x }) :=
    frame_seed hq.1 fun no => absurd (hrs hr) no
  unfold State.alu at h
  dsimp only at h
  split at h
  next n =>
    have hvec {x : VReg} {m : Mask} : s.writeV n.val x m = .ok u → ValueFrame named seeds s u := frame_writeV hq fun _ => hd
    split at h
    · cases h; exact .refl hq.1
    · split at h
      next hr => exact (hseed hr _).trans (frame_writeV ((hseed hr _).quiet hq) (fun _ => hd) h)
      next =>
        split at h
        · exact hvec h
        · split at h <;> exact hvec h
  next =>
    split at h
    · cases h
    · obtain ⟨_, _, h⟩ := bind_eq_ok h
      split at h
      next hr => exact (hseed hr _).trans (frame_writeD ((hseed hr _).quiet hq) hd h)
      next => exact frame_writeD hq hd h

theorem frame_alu64 (hq : s.quiet) {g : Guard} {d : Opnd} {srcs : List (VReg × VReg)} {slots : List Opnd} {f : List DWord → DWord}
    (hd : named d) (hd1 : named (Opnd.plus d 1)) (h : s.alu64 g d srcs slots f = .ok u) : ValueFrame named seeds s u := by
  unfold State.alu64 at h
  dsimp only at h
  split at h
  next n =>
    obtain ⟨t, ht, hu⟩ := bind_eq_ok h
    have hlow : ValueFrame named seeds s t := frame_writeV hq (fun _ => hd) ht
    refine hlow.trans (frame_writeV (hlow.quiet hq) (fun hn => ?_) hu)
    simpa only [Opnd.plus, hn, ↓reduceDIte] using hd1
  next =>
    split at h
    · cases h
    · obtain ⟨_, _, h⟩ := bind_eq_ok h
      obtain ⟨t, ht, hu⟩ := bind_eq_ok h
      have hlow : ValueFrame named seeds s t := frame_writeD hq hd ht
      exact hlow.trans (frame_writeD (hlow.quiet hq) hd1 hu)

end

/-! ### The instructions -/

theorem names_self (d : Opnd) {w : Nat} (hw : 0 < w) : Names d w d :=
  ⟨0, hw, by cases d <;> simp [Opnd.plus]⟩

theorem names_next (d : Opnd) : Names d 2 (Opnd.plus d 1) := ⟨1, Nat.one_lt_two, rfl⟩

/-- Stochastic rounding is in force. -/
def Draws (s : State) : Prop := (Mods.of s.pm .rne).rnd = .rs ∨ s.rsOn = true

/-- An instruction that, before its split moves on, changes no more than a destination of w registers. -/
def Frames (s : State) (i : Instr) (d : Opnd) (w : Nat) : Prop :=
  ∃ F : State → Except TrapReq State, exec i = isa F ∧ ∀ u, F s = .ok u → ValueFrame (Names d w) (Draws s) s u

/-! Each table's instructions are one shape; the row gives its operands. -/

theorem frames_intOp {s : State} (hq : s.quiet) {i : Instr} {o : ValueOp} (h : intOp s i = some o) : Frames s i o.d 1 := by
  unfold intOp at h
  split at h <;> cases h
  all_goals
    refine ⟨_, rfl, fun u hu => ?_⟩
    dsimp only [State.int1, State.int2, State.int3] at hu ⊢
    exact frame_alu hq (names_self _ Nat.one_pos) hu nofun

theorem frames_roundOp {s : State} (hq : s.quiet) {i : Instr} {o : RoundOp} (h : roundOp s i = some o) : Frames s i o.d 1 := by
  unfold roundOp at h
  split at h <;> cases h
  all_goals
    refine ⟨_, rfl, fun u hu => ?_⟩
    dsimp only [State.int1, State.int2, State.flt, State.flt1, State.flt2, State.fltH2] at hu ⊢
    exact frame_alu hq (names_self _ Nat.one_pos) hu fun hr => by simp_all [Draws]

theorem frames_wideOp {s : State} (hq : s.quiet) {i : Instr} {o : WideOp} (h : wideOp s i = some o) : Frames s i o.d 2 := by
  unfold wideOp at h
  split at h <;> cases h
  all_goals exact ⟨_, rfl, fun _ hu => frame_alu64 hq (names_self _ Nat.two_pos) (names_next _) hu⟩

theorem frame_ok_setP {s : State} (hq : s.quiet) (d : Opnd) (x m : Mask) (u : State) (hu : Except.ok (ε := TrapReq) (s.setP d x m) = .ok u) :
    ValueFrame (Names d 1) (Draws s) s u :=
  Except.ok.inj hu ▸ frame_setP hq (names_self d Nat.one_pos) x m

theorem frames_predOp {s : State} (hq : s.quiet) {i : Instr} {o : PredOp} (h : predOp s i = some o) : Frames s i o.d 1 := by
  unfold predOp at h
  split at h <;> cases h
  · exact ⟨_, (rfl : execCmp _ _ _ _ = _), frame_ok_setP hq _ _ _⟩
  · exact ⟨_, (rfl : execFcmp _ _ _ _ = _), frame_ok_setP hq _ _ _⟩
  · exact ⟨_, (rfl : execFclass _ _ = _), frame_ok_setP hq _ _ _⟩
  · exact ⟨_, (rfl : execPlop _ _ = _), frame_ok_setP hq _ _ _⟩

/-! ### The instructions across threads and the special registers (R111, R125, R128 to R133) -/

theorem redDraw_seed {op : RedOp} {md : Mods} (h : md.rnd ≠ .rs) (x a b : Word) : (redDraw op md x a b).2 = x := by
  simp [redDraw, h]

theorem redLevel_seed {op : RedOp} {md : Mods} (h : md.rnd ≠ .rs) : ∀ (xs : List Word) (x : Word), (redLevel op md xs x).2 = x
  | [], _ => rfl
  | [_], _ => rfl
  | a :: b :: xs, x => by
    rw [redLevel, redLevel_seed h xs, redDraw_seed h]

theorem redTree_seed {op : RedOp} {md : Mods} (h : md.rnd ≠ .rs) (n : Nat) (xs : List Word) (x : Word) : (redTree op md n xs x).2 = x := by
  induction n generalizing xs x with
  | zero => rfl
  | succ n ih => rw [redTree, ih, redLevel_seed h]

theorem foldl_seed {α β : Type} {f : α × Word → β → α × Word} (hf : ∀ a b, (f a b).2 = a.2) (xs : List β) (a : α × Word) :
    (xs.foldl f a).2 = a.2 := by
  induction xs generalizing a with
  | nil => rfl
  | cons b xs ih => rw [List.foldl_cons, ih, hf]

theorem scanStep_seed {op : RedOp} {md : Mods} (h : md.rnd ≠ .rs) (d : Nat) (y : List Word) (x : Word) : (scanStep op md d y x).2 = x := by
  refine foldl_seed (fun acc t => ?_) _ _
  dsimp only
  split
  · exact redDraw_seed h _ _ _
  · rfl

theorem scanAll_seed {op : RedOp} {md : Mods} (h : md.rnd ≠ .rs) (xs : List Word) (x : Word) : (scanAll op md xs x).2 = x :=
  foldl_seed (fun acc d => scanStep_seed h d acc.1 acc.2) _ _

section
variable {s u : State} {d : Opnd} {x : VReg} {m : Mask} {w : Nat} {seeds : Prop}

/-- A vector destination of the form that the destination field names. -/
theorem frame_writeV_of_eq (hq : s.quiet) {n : Fin 128} (hd : d = .v n) (hw : 0 < w) (h : s.writeV n.val x m = .ok u) :
    ValueFrame (Names d w) seeds s u :=
  frame_writeV hq (fun _ => hd ▸ names_self d hw) h

theorem frame_writeD_dst (hq : s.quiet) (hw : 0 < w) (h : s.writeD d x m = .ok u) : ValueFrame (Names d w) seeds s u :=
  frame_writeD hq (names_self d hw) h

end

theorem frames_sel {s : State} (hq : s.quiet) (o : Op3) : Frames s (.sel o) o.d 1 := by
  refine ⟨_, (rfl : execSel o = _), fun u hu => ?_⟩
  dsimp only [State.int1] at hu
  split at hu
  · exact frame_alu hq (names_self _ Nat.one_pos) hu nofun
  · split at hu
    next n hn => exact frame_writeV_of_eq hq hn Nat.one_pos hu
    next =>
      obtain ⟨x, _, hu⟩ := bind_eq_ok hu
      obtain ⟨y, _, hu⟩ := bind_eq_ok hu
      exact frame_writeD_dst hq Nat.one_pos hu

theorem frames_vote {s : State} (hq : s.quiet) (o : Op1) (op : VoteOp) : Frames s (.vote o op) o.d 1 := by
  refine ⟨_, (rfl : execVote o op = _), fun u hu => ?_⟩
  dsimp only at hu
  split at hu
  · split at hu
    next n hn => exact frame_writeV_of_eq hq hn Nat.one_pos hu
    next => exact frame_writeD_dst hq Nat.one_pos hu
  · exact frame_ok_setP hq _ _ _ u hu

theorem frames_shfl {s : State} (hq : s.quiet) (o : OpAB) (mode : ShflMode) (lg : Fin 6) : Frames s (.shfl o mode lg) o.d 1 := by
  refine ⟨_, (rfl : execShfl o mode lg = _), fun u hu => ?_⟩
  dsimp only at hu
  split at hu
  next n hn => exact frame_writeV_of_eq hq hn Nat.one_pos hu
  next =>
    obtain ⟨x, _, hu⟩ := bind_eq_ok hu
    exact frame_writeD_dst hq Nat.one_pos hu

theorem frames_rdlane {s : State} (hq : s.quiet) (o : Op2) : Frames s (.rdlane o) o.d 1 := by
  refine ⟨_, (rfl : execRdlane o = _), fun u hu => ?_⟩
  dsimp only at hu
  split at hu
  all_goals
    obtain ⟨lane, _, hu⟩ := bind_eq_ok hu
    split at hu
    next n hn => exact frame_writeV_of_eq hq hn Nat.one_pos hu
    next => exact frame_writeD_dst hq Nat.one_pos hu

theorem frames_mkaff {s : State} (hq : s.quiet) (o : Op2) : Frames s (.mkaff o) o.d 1 := by
  refine ⟨_, (rfl : execMkaff o = _), fun u hu => ?_⟩
  obtain ⟨base, _, hu⟩ := bind_eq_ok hu
  dsimp only at hu
  split at hu
  all_goals
    obtain ⟨stride, _, hu⟩ := bind_eq_ok hu
    split at hu
    next n hn => exact frame_writeV_of_eq hq hn Nat.one_pos hu
    next => cases hu; exact .refl hq.1

theorem frames_tagof {s : State} (hq : s.quiet) (o : Op1) : Frames s (.tagof o) o.d 1 := by
  refine ⟨_, (rfl : execTagof o = _), fun u hu => ?_⟩
  dsimp only at hu
  split at hu
  next n hn => exact frame_writeV_of_eq hq hn Nat.one_pos hu
  next => exact frame_writeD_dst hq Nat.one_pos hu

theorem frames_redux {s : State} (hq : s.quiet) (o : Op1) (op : RedOp) : Frames s (.redux o op) o.d 1 := by
  refine ⟨_, (rfl : execRedux o op = _), fun u hu => ?_⟩
  dsimp only at hu
  have hseed : ValueFrame (Names o.d 1) (Draws s) s (s.modW fun w => { w with
      seed := (redTree op (Mods.of s.pm .rne) 5 (s.redParts o.g o.a op) s.w.seed).2 }) :=
    frame_seed hq.1 fun no => redTree_seed (fun h => no (.inl h)) _ _ _
  split at hu
  next n hn => exact hseed.trans (frame_writeV_of_eq (hseed.quiet hq) hn Nat.one_pos hu)
  next => exact hseed.trans (frame_writeD_dst (hseed.quiet hq) Nat.one_pos hu)

theorem frames_scan {s : State} (hq : s.quiet) (o : Op1) (op : RedOp) (excl : Bool) : Frames s (.scan o op excl) o.d 1 := by
  refine ⟨_, (rfl : execScan o op excl = _), fun u hu => ?_⟩
  dsimp only at hu
  have hseed : ValueFrame (Names o.d 1) (Draws s) s (s.modW fun w => { w with
      seed := (scanAll op (Mods.of s.pm .rne) (s.redParts o.g o.a op) s.w.seed).2 }) :=
    frame_seed hq.1 fun no => scanAll_seed (fun h => no (.inl h)) _ _
  split at hu
  next n hn => exact hseed.trans (frame_writeV_of_eq (hseed.quiet hq) hn Nat.one_pos hu)
  next => exact hseed.trans (frame_writeD_dst (hseed.quiet hq) Nat.one_pos hu)

theorem frames_qblk {s : State} (hq : s.quiet) (o : Op1) (b32 : Bool) : Frames s (.qblk o b32) o.d 1 := by
  refine ⟨_, (rfl : execQblk o b32 = _), fun u hu => ?_⟩
  dsimp only at hu
  split at hu
  next n hn =>
    split at hu
    next hr =>
      have hseed (x : Word) : ValueFrame (Names o.d 1) (Draws s) s (s.modW fun w => { w with seed := x }) :=
        frame_seed hq.1 fun no => absurd (.inl hr) no
      exact (hseed _).trans (frame_writeV_of_eq ((hseed _).quiet hq) hn Nat.one_pos hu)
    next => exact frame_writeV_of_eq hq hn Nat.one_pos hu
  next =>
    obtain ⟨x, _, hu⟩ := bind_eq_ok hu
    have hseed : ValueFrame (Names o.d 1) (Draws s) s (s.modW fun w => { w with
        seed := (draws (if (Mods.of s.pm .rne).rnd = .rs then 1 else 0) s.w.seed).2 }) :=
      frame_seed hq.1 fun no => by rw [if_neg fun h => no (.inl h)]; rfl
    exact hseed.trans (frame_writeD_dst (hseed.quiet hq) Nat.one_pos hu)

theorem frames_movs {s : State} (hq : s.quiet) (g : Guard) (d : Opnd) (r : SReg) :
    Frames s (.movs g d r) d (if r.wide then 2 else 1) := by
  have hpos : 0 < if r.wide then 2 else 1 := by split <;> decide
  refine ⟨_, (rfl : execMovs g d r = _), fun u hu => ?_⟩
  dsimp only at hu
  split at hu
  next n => exact frame_writeV_of_eq hq rfl hpos hu
  next n _ => exact frame_writeV_of_eq hq rfl hpos hu
  next =>
    obtain ⟨t, ht, hu⟩ := bind_eq_ok hu
    have hlow : ValueFrame (Names d (if r.wide then 2 else 1)) (Draws s) s t := frame_writeD_dst hq hpos ht
    split at hu
    next hr => exact hlow.trans (frame_writeD (hlow.quiet hq) (by rw [if_pos hr]; exact names_next d) hu)
    next => cases hu; exact hlow

theorem frames_valueDst {s : State} (hq : s.quiet) {i : Instr} {d : Opnd} {w : Nat} (h : valueDst s i = some (d, w)) :
    Frames s i d w := by
  unfold valueDst at h
  split at h
  · cases h; exact frames_sel hq _
  · cases h; exact frames_qblk hq _ _
  · cases h; exact frames_vote hq _ _
  · cases h; exact frames_redux hq _ _
  · cases h; exact frames_scan hq _ _ _
  · cases h; exact frames_tagof hq _
  · cases h; exact frames_shfl hq _ _ _
  · cases h; exact frames_rdlane hq _
  · cases h; exact frames_mkaff hq _
  · cases h; exact frames_movs hq _ _ _
  · simp only [Option.or_eq_some_iff, Option.map_eq_some_iff, Prod.mk.injEq] at h
    rcases h with ⟨o, ho, rfl, rfl⟩ | ⟨-, ⟨o, ho, rfl, rfl⟩ | ⟨-, ⟨o, ho, rfl, rfl⟩ | ⟨-, o, ho, rfl, rfl⟩⟩⟩
    · exact frames_intOp hq ho
    · exact frames_roundOp hq ho
    · exact frames_wideOp hq ho
    · exact frames_predOp hq ho

/-! ### The whole instruction -/

theorem isa_cases {f : State → Except TrapReq State} {s t : State} (hl : s.live = true) (h : isa f s = .next t) :
    (∃ tr, t = s.raise tr) ∨ ∃ u, f s = .ok u ∧ t = u.advance := by
  cases hf : f s with
  | error e =>
    rw [isa_error hl hf] at h
    cases h
    exact .inl ⟨e, rfl⟩
  | ok u =>
    rw [isa_ok hl hf] at h
    cases h
    exact .inr ⟨u, rfl, rfl⟩

theorem w_advance {u : State} (hl : u.live = true) : u.advance.w =
    u.w.modSplit u.cur.split fun p => { p with pc := p.pc + 8, low := false, pfx := none } :=
  u.w_modW _ hl

theorem sp_advance {u : State} (hl : u.live = true) : u.advance.sp = { u.sp with pc := u.sp.pc + 8, low := false, pfx := none } := by
  change (u.advance.w.split? u.cur.split).getD Split.blank = _
  rw [w_advance hl, Wave.split?_modSplit, split?_of_live hl]
  · rfl
  · exact fun _ hp => hp

theorem split?_advance_ne {u : State} (hl : u.live = true) {j : Nat} (hj : j ≠ u.cur.split) : u.advance.w.split? j = u.w.split? j := by
  rw [w_advance hl]
  exact u.w.split?_modSplit_ne _ (fun _ hp => hp) hj

theorem onlyValue_advance {s u : State} {d : Opnd} {w : Nat} (h : ValueFrame (Names d w) (Draws s) s u) : OnlyValue s u.advance d w := by
  have hw := w_advance h.live
  have hsp := sp_advance h.live
  have hrest : waveRest u.advance.w = waveRest s.w := by rw [hw]; exact h.wave
  have hpc : u.sp.pc = s.sp.pc := (congrArg Split.pc h.split :)
  have hg : u.advance.g = u.g := by rw [State.g, hw]; rfl
  have hgroup : u.advance.g.untimed = s.g.untimed := by rw [hg, h.group]
  refine ⟨(congrArg State.mem h.state :), (congrArg State.ring h.state :), (congrArg State.out h.state :), (congrArg State.clusters h.state :),
    (congrArg State.slices h.state :), (congrArg State.grids h.state :), (congrArg State.dtc h.state :), fun core ctx hne => ?_, fun k => ?_,
    fun n hn no => ?_, fun n hn no => ?_, fun n hn no => ?_, fun j hj => ?_, by rw [hsp, hpc], ?_, ?_, ?_,
    (congrArg Wave.deferred hrest :), (congrArg Wave.hint hrest :), (congrArg Wave.exited hrest :), (congrArg Wave.accs hrest :),
    (congrArg Wave.lwt hrest :), (congrArg Wave.mflags hrest :), (congrArg Wave.uconf hrest :), (congrArg Wave.trapReg hrest :),
    (congrArg Wave.handler hrest :), (congrArg Wave.streams hrest :), (congrArg Wave.snd hrest :), fun hr ho => ?_,
    fun j hj => h.otherGroups j hj, fun n hn no => ?_, (congrArg WGrp.a hgroup :), (congrArg WGrp.w hgroup :),
    (congrArg WGrp.c hgroup :), (congrArg WGrp.bars hgroup :), (congrArg WGrp.ta hgroup :), (congrArg WGrp.tw hgroup :),
    (congrArg WGrp.tc hgroup :)⟩
  · exact (u.wave?_modWave_ne _ (h.cur ▸ hne)).trans (h.otherWaves core ctx hne)
  · exact (cores_modWave u _ _ _ k).trans (h.cores k)
  · rw [State.vreg, hw]; exact h.vregs n hn (no hn)
  · rw [hw]; exact h.pregs n hn (no hn)
  · rw [hsp]; exact h.sregs n hn (no hn)
  · exact (split?_advance_ne h.live (h.cur ▸ hj)).trans (h.otherSplits j hj)
  · rw [hsp]; exact (congrArg Split.mask h.split :)
  · rw [hsp]; exact (congrArg Split.status h.split :)
  · rw [hsp]; exact (congrArg Split.depth h.split :)
  · rw [hw]; exact h.seed fun hd => hd.elim hr (by simp [ho])
  · rw [hg]; exact h.wgregs n hn (no hn)

/-- Settles O14: every value instruction writes within the frame of its destination, and its split then moves on. -/
theorem valueInstructionFrame : Obligations.ValueInstructionFrame := by
  unfold Obligations.ValueInstructionFrame
  intro i s t d w hq hd ht
  obtain ⟨F, hF, hframe⟩ := frames_valueDst hq hd
  rw [hF] at ht
  rcases isa_cases hq.1 ht with htrap | ⟨u, hu, rfl⟩
  · exact .inl htrap
  · exact .inr (onlyValue_advance (hframe u hu))

end Sys2Proof.Proofs
end

section
/-! The fields of an encoding read back (R43 to R49, R62): the operand bytes, the codes and places of the modifier field M, the
moulds that the encoder shares, and then the arm of every opcode. -/

namespace Sys2Proof.Proofs
open Sys2Proof

/-! ### Bytes of the operand index space and guards (R46, R48) -/

@[simp] theorem ofByte_toByte (o : Opnd) : Opnd.ofByte o.toByte = some o := by
  cases o with
  | null => rfl
  | v n | s n | wg n | p n | k n => revert n; decide

@[simp] theorem toByte_beq_ff (o : Opnd) : (o.toByte == 0xFF#8) = (o == .null) := by
  cases o with
  | null => rfl
  | v n | s n | wg n | p n | k n => revert n; decide

@[simp] theorem vOf_vByte (n : Fin 128) : vOf (vByte n) = some n := by revert n; decide
@[simp] theorem sOf_sByte (n : Fin 64) : sOf (sByte n) = some n := by revert n; decide
@[simp] theorem vByte_beq_ff (n : Fin 128) : (vByte n == 0xFF#8) = false := by revert n; decide
@[simp] theorem sByte_beq_ff (n : Fin 64) : (sByte n == 0xFF#8) = false := by revert n; decide

@[simp] theorem guard_ofBits_toBits (g : Guard) : Guard.ofBits g.toBits = g := by
  obtain ⟨neg, p⟩ := g
  revert neg p; decide

/-! ### Codes of the modifier fields -/

@[simp] theorem intTy_ofM_code (t : IntTy) : IntTy.ofM t.code = some t := by cases t <;> rfl
@[simp] theorem cond_ofCode_code (x : Cond) : Cond.ofCode x.code = some x := by cases x <;> rfl
@[simp] theorem fcond_ofCode_code (x : FCond) : FCond.ofCode x.code = some x := by cases x <;> rfl
@[simp] theorem comb_ofCode_code (x : Comb) : Comb.ofCode x.code = some x := by cases x <;> rfl
@[simp] theorem cvtTy_ofCode_code (x : CvtTy) : CvtTy.ofCode x.code = some x := by cases x <;> rfl
@[simp] theorem pack2Ty_ofCode_code (x : Pack2Ty) : Pack2Ty.ofCode x.code = some x := by cases x <;> rfl
@[simp] theorem pack4Ty_ofCode_code (x : Pack4Ty) : Pack4Ty.ofCode x.code = some x := by cases x <;> rfl
@[simp] theorem unpackTy_ofCode_code (x : UnpackTy) : UnpackTy.ofCode x.code = some x := by cases x <;> rfl
@[simp] theorem voteOp_ofCode_code (x : VoteOp) : VoteOp.ofCode x.code = some x := by cases x <;> rfl
@[simp] theorem shflMode_ofCode_code (x : ShflMode) : ShflMode.ofCode x.code = some x := by cases x <;> rfl
@[simp] theorem redOp_ofCode_code (x : RedOp) : RedOp.ofCode x.code = some x := by cases x <;> rfl
@[simp] theorem sreg_ofCode_code (x : SReg) : SReg.ofCode x.code = some x := by cases x <;> rfl
@[simp] theorem size_ofCode_code (x : Size) : Size.ofCode x.code = some x := by cases x <;> rfl
@[simp] theorem path_ofCode_code (p : Path) : Path.ofCode p.code = some p := by cases p <;> rfl
@[simp] theorem atomOp_ofCode_code (x : AtomOp) : AtomOp.ofCode x.code = some x := by cases x <;> rfl
@[simp] theorem scope_ofCode_code (x : Scope) : Scope.ofCode x.code = some x := by cases x <;> rfl
@[simp] theorem space_ofCode_code (x : Space) : Space.ofCode x.code = some x := by cases x <;> rfl
@[simp] theorem act_ofCode_code (x : Act) : Act.ofCode x.code = some x := by cases x <;> rfl
@[simp] theorem epiFmt_ofCode_code (x : EpiFmt) : EpiFmt.ofCode x.code = some x := by cases x <;> rfl
@[simp] theorem combine_ofCode_code (x : Combine) : Combine.ofCode x.code = some x := by cases x <;> rfl
@[simp] theorem rnd_ofCode_code (x : Rnd) : Rnd.ofCode x.code = some x := by cases x <;> rfl
@[simp] theorem sat_ofCode_code (x : Sat) : Sat.ofCode x.code = some x := by cases x <;> rfl
@[simp] theorem hguard_ofCode_code (x : HGuard) : HGuard.ofCode x.code = some x := by cases x <;> rfl
@[simp] theorem size_ofQueue_qcode (z : Size) (h : z.isQueue = true) : Size.ofQueue z.qcode = some z := by
  cases z with
  | b8 | b16 => cases h
  | b32 | b64 | b128 => rfl

section
variable {n : Nat}

@[simp] theorem cond_code_lt (x : Cond) (h : 6 ≤ n) : x.code < n := lt_of_lt_of_le (by cases x <;> decide) h
@[simp] theorem fcond_code_lt (x : FCond) (h : 8 ≤ n) : x.code < n := lt_of_lt_of_le (by cases x <;> decide) h
@[simp] theorem comb_code_lt (x : Comb) (h : 3 ≤ n) : x.code < n := lt_of_lt_of_le (by cases x <;> decide) h
@[simp] theorem cvtTy_code_lt (x : CvtTy) (h : 11 ≤ n) : x.code < n := lt_of_lt_of_le (by cases x <;> decide) h
@[simp] theorem pack2Ty_code_lt (x : Pack2Ty) (h : 4 ≤ n) : x.code < n := lt_of_lt_of_le (by cases x <;> decide) h
@[simp] theorem pack4Ty_code_lt (x : Pack4Ty) (h : 4 ≤ n) : x.code < n := lt_of_lt_of_le (by cases x <;> decide) h
@[simp] theorem unpackTy_code_lt (x : UnpackTy) (h : 8 ≤ n) : x.code < n := lt_of_lt_of_le (by cases x <;> decide) h
@[simp] theorem voteOp_code_lt (x : VoteOp) (h : 4 ≤ n) : x.code < n := lt_of_lt_of_le (by cases x <;> decide) h
@[simp] theorem shflMode_code_lt (x : ShflMode) (h : 4 ≤ n) : x.code < n := lt_of_lt_of_le (by cases x <;> decide) h
@[simp] theorem redOp_code_lt (x : RedOp) (h : 11 ≤ n) : x.code < n := lt_of_lt_of_le (by cases x <;> decide) h
@[simp] theorem sreg_code_lt (x : SReg) (h : 19 ≤ n) : x.code < n := lt_of_lt_of_le (by cases x <;> decide) h
@[simp] theorem size_code_lt (x : Size) (h : 5 ≤ n) : x.code < n := lt_of_lt_of_le (by cases x <;> decide) h
@[simp] theorem path_code_lt (p : Path) (h : 6 ≤ n) : p.code < n := lt_of_lt_of_le (by cases p <;> decide) h
@[simp] theorem atomOp_code_lt (x : AtomOp) (h : 10 ≤ n) : x.code < n := lt_of_lt_of_le (by cases x <;> decide) h
@[simp] theorem scope_code_lt (x : Scope) (h : 3 ≤ n) : x.code < n := lt_of_lt_of_le (by cases x <;> decide) h
@[simp] theorem space_code_lt (x : Space) (h : 3 ≤ n) : x.code < n := lt_of_lt_of_le (by cases x <;> decide) h
@[simp] theorem act_code_lt (x : Act) (h : 4 ≤ n) : x.code < n := lt_of_lt_of_le (by cases x <;> decide) h
@[simp] theorem epiFmt_code_lt (x : EpiFmt) (h : 7 ≤ n) : x.code < n := lt_of_lt_of_le (by cases x <;> decide) h
@[simp] theorem combine_code_lt (x : Combine) (h : 5 ≤ n) : x.code < n := lt_of_lt_of_le (by cases x <;> decide) h
@[simp] theorem rnd_code_lt (x : Rnd) (h : 7 ≤ n) : x.code < n := lt_of_lt_of_le (by cases x <;> decide) h
@[simp] theorem sat_code_lt (x : Sat) (h : 4 ≤ n) : x.code < n := lt_of_lt_of_le (by cases x <;> decide) h
@[simp] theorem hguard_code_lt (x : HGuard) (h : 4 ≤ n) : x.code < n := lt_of_lt_of_le (by cases x <;> decide) h
@[simp] theorem size_qcode_lt (z : Size) (h : 3 ≤ n) : z.qcode < n := lt_of_lt_of_le (by cases z <;> decide) h
/-- The form in which `simp` writes `b.toNat < 2`. -/
@[simp] theorem bool_toNat_le_one (b : Bool) : b.toNat ≤ 1 := b.toNat_le
@[simp] theorem bool_toNat_lt (b : Bool) (h : 2 ≤ n) : b.toNat < n := lt_of_lt_of_le b.toNat_lt h
@[simp] theorem bitVec_toNat_lt {w : Nat} (x : BitVec w) (h : 2 ^ w ≤ n) : x.toNat < n := lt_of_lt_of_le x.isLt h

end

/-! ### Fields of M -/

section
variable {v k lo w : Nat}

@[simp] theorem mf_or (a b : BitVec 11) : mf (a ||| b) lo w = mf a lo w ||| mf b lo w := by
  simp [mf, BitVec.extractLsb'_or]

@[simp] theorem mf_zero : mf 0#11 lo w = 0 := by simp [mf]

theorem mf_eq (m : BitVec 11) : mf m lo w = m.toNat / 2 ^ lo % 2 ^ w := by
  simp [mf, BitVec.extractLsb'_toNat, Nat.shiftRight_eq_div_pow]

theorem toNat_mp (hv : v < 2 ^ (11 - k)) (hk : k ≤ 11) : (mp v k).toNat = v * 2 ^ k := by
  rw [mp, BitVec.toNat_ofNat]
  refine Nat.mod_eq_of_lt ?_
  calc v * 2 ^ k < 2 ^ (11 - k) * 2 ^ k := Nat.mul_lt_mul_of_pos_right hv (by positivity)
    _ = 2 ^ 11 := by rw [← pow_add, Nat.sub_add_cancel hk]

@[simp] theorem mf_mp_same (hv : v < 2 ^ w) (hk : k + w ≤ 11) : mf (mp v k) k w = v := by
  have hv' : v < 2 ^ (11 - k) := lt_of_lt_of_le hv (Nat.pow_le_pow_right (by decide) (by omega))
  rw [mf_eq, toNat_mp hv' (by omega), Nat.mul_div_cancel _ (by positivity), Nat.mod_eq_of_lt hv]

@[simp] theorem mp_zero : mp 0 k = 0#11 := by simp [mp]

/-- A field above the value. -/
@[simp] theorem mf_mp_above (hk : k ≤ lo) (hlo : lo ≤ 11) (hv : v < 2 ^ (lo - k)) : mf (mp v k) lo w = 0 := by
  have hv' : v < 2 ^ (11 - k) := lt_of_lt_of_le hv (Nat.pow_le_pow_right (by decide) (by omega))
  have hlt : v * 2 ^ k < 2 ^ lo := by
    calc v * 2 ^ k < 2 ^ (lo - k) * 2 ^ k := Nat.mul_lt_mul_of_pos_right hv (by positivity)
      _ = 2 ^ lo := by rw [← pow_add, Nat.sub_add_cancel hk]
  rw [mf_eq, toNat_mp hv' (by omega), Nat.div_eq_of_lt hlt, Nat.zero_mod]

/-- A field below the value. -/
@[simp] theorem mf_mp_below (hk : lo + w ≤ k) (hk' : k ≤ 11) (hv : v < 2 ^ (11 - k)) : mf (mp v k) lo w = 0 := by
  obtain ⟨j, rfl⟩ := Nat.exists_eq_add_of_le hk
  rw [mf_eq, toNat_mp hv hk', pow_add, pow_add, mul_assoc, mul_left_comm, Nat.mul_div_cancel_left _ (by positivity),
    mul_left_comm, Nat.mul_mod_right]

theorem getLsbD_eq_mf (m : BitVec 11) (i : Nat) : m.getLsbD i = decide (mf m i 1 = 1) := by
  rw [mf_eq, BitVec.getLsbD, Nat.testBit_eq_decide_div_mod_eq, pow_one]

theorem extractLsb'_eq_mf (m : BitVec 11) : m.extractLsb' lo w = BitVec.ofNat w (mf m lo w) := by
  rw [mf, BitVec.ofNat_toNat, BitVec.setWidth_eq]

@[simp] theorem getElem_mp_same (hk : k < 11) (hv : v < 2) : (mp v k)[k] = decide (v = 1) := by
  rw [← BitVec.getLsbD_eq_getElem, getLsbD_eq_mf, mf_mp_same (by simpa using hv) hk]

@[simp] theorem getElem_mp_above (hlo : lo < 11) (hk : k ≤ lo) (hv : v < 2 ^ (lo - k)) : (mp v k)[lo] = false := by
  rw [← BitVec.getLsbD_eq_getElem, getLsbD_eq_mf, mf_mp_above hk hlo.le hv]; rfl

@[simp] theorem getElem_mp_below (hlo : lo < 11) (hk : lo + 1 ≤ k) (hk' : k ≤ 11) (hv : v < 2 ^ (11 - k)) :
    (mp v k)[lo] = false := by
  rw [← BitVec.getLsbD_eq_getElem, getLsbD_eq_mf, mf_mp_below hk hk' hv]; rfl

@[simp] theorem extractLsb'_mp_same (hv : v < 2 ^ w) (hk : k + w ≤ 11) : (mp v k).extractLsb' k w = BitVec.ofNat w v := by
  rw [extractLsb'_eq_mf, mf_mp_same hv hk]

@[simp] theorem extractLsb'_mp_above (hk : k ≤ lo) (hlo : lo ≤ 11) (hv : v < 2 ^ (lo - k)) : (mp v k).extractLsb' lo w = 0#w := by
  rw [extractLsb'_eq_mf, mf_mp_above hk hlo hv]

@[simp] theorem extractLsb'_mp_below (hk : lo + w ≤ k) (hk' : k ≤ 11) (hv : v < 2 ^ (11 - k)) : (mp v k).extractLsb' lo w = 0#w := by
  rw [extractLsb'_eq_mf, mf_mp_below hk hk' hv]

@[simp] theorem mb_eq_mp (b : Bool) : mb b k = mp b.toNat k := by cases b <;> simp [mb, mp]

end

/-! ### The moulds of the full form (R43 to R49) -/

@[simp] theorem need_true : need true = some () := rfl
@[simp] theorem ff_ff : ff 0xFF#8 = some () := rfl

section
variable {e : Bool} {l : BitVec 4} {op : Nat} {g : Guard} {d a b c8 : BitVec 8} {m : BitVec 11} {c : BitVec 19}

@[simp] theorem cReg_low : (cReg c8 m).extractLsb' 0 11 = m := BitVec.extractLsb'_append_eq_right
@[simp] theorem cReg_high : (cReg c8 m).extractLsb' 11 8 = c8 := BitVec.extractLsb'_append_eq_left

@[simp] theorem rawOf_l : (rawOf l op g d a b c8 m).l = l := rfl
@[simp] theorem rawOf_d : (rawOf l op g d a b c8 m).d = d := rfl
@[simp] theorem rawOf_a : (rawOf l op g d a b c8 m).a = a := rfl
@[simp] theorem rawOf_b : (rawOf l op g d a b c8 m).b = b := rfl
@[simp] theorem rawOf_c : (rawOf l op g d a b c8 m).c = cReg c8 m := rfl
@[simp] theorem rawOf_c8 : (rawOf l op g d a b c8 m).c8 = c8 := cReg_high
@[simp] theorem rawOf_m : (rawOf l op g d a b c8 m).m = m := cReg_low
@[simp] theorem rawOf_gd : (rawOf l op g d a b c8 m).gd = g := guard_ofBits_toBits g
@[simp] theorem rawOf_plainG : (rawOf l op .always d a b c8 m).plainG = some () := rfl
@[simp] theorem rawOf_bare : (rawOf l op g 0xFF#8 0xFF#8 0xFF#8 0xFF#8 m).bare = some () := by simp [Raw.bare]

@[simp] theorem rawC_l : (rawC op g d a b c).l = 0 := rfl
@[simp] theorem rawC_d : (rawC op g d a b c).d = d := rfl
@[simp] theorem rawC_a : (rawC op g d a b c).a = a := rfl
@[simp] theorem rawC_b : (rawC op g d a b c).b = b := rfl
@[simp] theorem rawC_c : (rawC op g d a b c).c = c := rfl
@[simp] theorem rawC_gd : (rawC op g d a b c).gd = g := guard_ofBits_toBits g
@[simp] theorem rawC_plainG : (rawC op .always d a b c).plainG = some () := rfl

end

section
variable (op : Nat) (m : BitVec 11)

@[simp] theorem op1_enc1 (o : Op1) : (enc1 op o m).op1 = some o := by simp [enc1, Raw.op1]
@[simp] theorem m_enc1 (o : Op1) : (enc1 op o m).m = m := rawOf_m
@[simp] theorem opAB_encAB (o : OpAB) : (encAB op o m).opAB = some o := by simp [encAB, Raw.opAB]
@[simp] theorem m_encAB (o : OpAB) : (encAB op o m).m = m := rawOf_m
@[simp] theorem op3_enc3 (o : Op3) : (enc3 op o m).op3 = some o := by simp [enc3, Raw.op3]
@[simp] theorem m_enc3 (o : Op3) : (enc3 op o m).m = m := rawOf_m

/-- The immediate form has no M, which then reads as zero (R44). -/
theorem op2_enc2 {o : Op2} (h : o.b.isSrc = true) (hm : o.b.isImm = true → m = 0) : (enc2 op o m).op2 = some (o, m) := by
  obtain ⟨g, d, a, b | v⟩ := o
  · simp only [SrcB.isSrc, Bool.and_eq_true, bne_iff_ne] at h
    simp [enc2, Raw.op2, h.2]
  · simp [enc2, Raw.op2, hm rfl]

theorem op_enc2 (o : Op2) : (enc2 op o m).op = BitVec.ofNat 10 op := by
  obtain ⟨g, d, a, b | v⟩ := o <;> rfl

theorem l_enc2 (o : Op2) : (enc2 op o m).l = 0 := by
  obtain ⟨g, d, a, b | v⟩ := o <;> rfl

theorem mem_encMem (o : LocalOp) (hz : mf m 0 3 = 0) (hs : m[3] = false) : (encMem op o m).mem = some o := by
  simp [encMem, Raw.mem, hz, hs]

@[simp] theorem mem_encMem_zero (o : LocalOp) : (encMem op o 0#11).mem = some o := mem_encMem op _ o (by simp) (by simp)
@[simp] theorem mem_encMem_bit4 (o : LocalOp) (b : Bool) : (encMem op o (mp b.toNat 4)).mem = some o :=
  mem_encMem op _ o (by simp) (by simp)

@[simp] theorem m_encMem (o : LocalOp) : (encMem op o m).m = mp o.size.code 0 ||| mb o.sx 3 ||| m := rawOf_m

@[simp] theorem tile_encTile (o : TileOp) : (encTile op o).tile = some o := by
  simp [encTile, Raw.tile, BitVec.extractLsb'_or]

@[simp] theorem tag_encTag (o : TagOp) (clr : Bool) : (encTag op o clr).tag = some (o, clr) := by
  simp [encTag, Raw.tag, BitVec.extractLsb'_or]

end

/-! ### C of the forms with a constant (R43) -/

@[simp] theorem cImm_low (x : BitVec 16) : (cImm x).extractLsb' 0 16 = x := BitVec.extractLsb'_append_eq_right
@[simp] theorem cImm_high (x : BitVec 16) : (cImm x).extractLsb' 16 3 = 0#3 := BitVec.extractLsb'_append_eq_left

@[simp] theorem cImm_low_byte (g n : BitVec 8) : (cImm (g ++ n)).extractLsb' 0 8 = n := by
  rw [cImm, BitVec.extractLsb'_append_eq_of_add_le (by decide)]
  exact BitVec.extractLsb'_append_eq_right

@[simp] theorem cImm_high_byte (g n : BitVec 8) : (cImm (g ++ n)).extractLsb' 8 8 = g := by
  rw [cImm, BitVec.extractLsb'_append_eq_of_add_le (by decide)]
  exact BitVec.extractLsb'_append_eq_left

@[simp] theorem sreg_code_mod (r : SReg) : r.code % 64 = r.code := Nat.mod_eq_of_lt (sreg_code_lt r (by decide))
@[simp] theorem sreg_high (r : SReg) : (BitVec.ofNat 19 r.code).extractLsb' 6 13 = 0#13 := by cases r <;> rfl

/-! ### The opcode map reads an encoding back (R62) -/

theorem isSrc_of_op2_wf {o : Op2} (h : o.wf = true) : o.b.isSrc = true := by
  simp only [Op2.wf, Bool.and_eq_true] at h
  exact h.2

/-- An opcode whose arm reads an `Op2` first. -/
theorem parseFull_enc2 {op : Nat} {o : Op2} {m : BitVec 11} {arm : Op2 × BitVec 11 → Option Instr} {i : Instr} (hw : o.wf = true)
    (hm : o.b.isImm = true → m = 0) (harm : ∀ r : Raw, r.op = BitVec.ofNat 10 op → parseFull r = some (r.op2 >>= arm))
    (hi : arm (o, m) = some i) : parseFull (enc2 op o m) = some (some i) := by
  rw [harm _ (op_enc2 op m o), op2_enc2 op m (isSrc_of_op2_wf hw) hm]
  exact congrArg some hi

/-- The arm of each opcode reads back what the encoder wrote. Where the mould is an `Op2`, its B tells the immediate form, in which
the instruction has no modifier; every other arm reads fields that the lemmas above give. -/
theorem parseFull_encodeFull {i : Instr} {r : Raw} (hw : i.wf = true) (h : encodeFull i = some r) :
    parseFull r = some (some i) := by
  cases i <;> cases h
  case and o | or o | xor o | shl o | shr o | sar o | rot o | bfi o | fadd o | fsub o | fmul o | rdlane o =>
    exact parseFull_enc2 hw (fun _ => rfl) (by rintro ⟨⟩ rfl; rfl) (by simp)
  case addW o =>
    obtain ⟨hw, -⟩ := Bool.and_eq_true_iff.1 hw
    obtain ⟨hw, -⟩ := Bool.and_eq_true_iff.1 hw
    obtain ⟨hw, -⟩ := Bool.and_eq_true_iff.1 hw
    exact parseFull_enc2 hw (fun _ => rfl) (by rintro ⟨⟩ rfl; rfl) (by simp)
  case mkaff o =>
    obtain ⟨hw, -⟩ := Bool.and_eq_true_iff.1 hw
    exact parseFull_enc2 hw (fun _ => rfl) (by rintro ⟨⟩ rfl; rfl) (by simp)
  case add o ty | sub o ty | mulLo o ty | mulHi o ty | min o ty | max o ty =>
    obtain ⟨hw, hty⟩ := Bool.and_eq_true_iff.1 hw
    refine parseFull_enc2 hw (fun hb => ?_) (by rintro ⟨⟩ rfl; rfl) (by simp)
    simp only [hb, Bool.not_true, Bool.false_or, beq_iff_eq] at hty
    rw [hty]; rfl
  case bfe o b | fmin o b | fmax o b =>
    obtain ⟨hw, hb⟩ := Bool.and_eq_true_iff.1 hw
    refine parseFull_enc2 hw (fun him => ?_) (by rintro ⟨⟩ rfl; rfl) (by simp)
    have hb : b = false := by simpa [him] using hb
    rw [hb]; rfl
  case lea o sh z =>
    obtain ⟨hw, hm⟩ := Bool.and_eq_true_iff.1 hw
    obtain ⟨hw, -⟩ := Bool.and_eq_true_iff.1 hw
    obtain ⟨hw, -⟩ := Bool.and_eq_true_iff.1 hw
    refine parseFull_enc2 hw (fun him => ?_) (by rintro ⟨⟩ rfl; rfl) (by simp [Fin.val_lt_of_le])
    obtain ⟨rfl, rfl⟩ : sh = 0 ∧ z = false := by simpa [him] using hm
    rfl
  case jmp t | call d t =>
    cases t with
    | disp c | reg n =>
      refine congrArg some ?_
      simp [encTarget, Raw.target]
  case cmp o c ty k =>
    refine congrArg some ?_
    cases ty <;> simp
  case brD g h c =>
    cases h <;> exact congrArg some (by simp)
  case rpf vc vb mask =>
    refine congrArg some ?_
    cases vc <;> cases vb <;> simp
  case bwait k p =>
    refine congrArg some ?_
    cases p <;> simp [encBar, encSys, BitVec.extractLsb'_or]
  case sclinv id =>
    refine congrArg some ?_
    cases id <;> simp [encSys]
  case qpush g d a b z | qpop g la d a c z =>
    obtain ⟨-, hz⟩ := Bool.and_eq_true_iff.1 hw
    refine congrArg some ?_
    simp [hz]
  all_goals
    refine congrArg some ?_
    simp [encMma, encSys, encBar, BitVec.extractLsb'_or, Fin.val_lt_of_le]

theorem la_of_store_wf {o : LocalOp} (h : o.wf false = true) : o.la = 0 := by
  simp only [LocalOp.wf, Bool.and_eq_true, Bool.false_or, beq_iff_eq] at h
  obtain ⟨⟨⟨-, hla, -⟩, -⟩, -⟩ := h
  exact hla

theorem la_of_tile_store_wf {o : TileOp} (h : o.wf false = true) : o.la = 0 := by
  simp only [TileOp.wf, Bool.and_eq_true, Bool.false_or, beq_iff_eq] at h
  obtain ⟨⟨⟨-, hla⟩, -⟩, -⟩ := h
  exact hla

/-- L is zero, or the opcode is of a long-latency instruction (R47). -/
theorem long_latency_of_encodeFull {i : Instr} {r : Raw} (hw : i.wf = true) (h : encodeFull i = some r) :
    (r.l == 0 || longLatency r.op.toNat) = true := by
  cases i <;> cases h
  case stA o | stG o =>
    obtain ⟨-, hw⟩ := Bool.and_eq_true_iff.1 hw
    exact Bool.or_eq_true_iff.2 (.inl (beq_iff_eq.2 (la_of_store_wf hw)))
  case stC o => exact Bool.or_eq_true_iff.2 (.inl (beq_iff_eq.2 (la_of_tile_store_wf hw)))
  case jmp t | call d t => cases t <;> rfl
  case ldA | ldW | ldC | ldG | atomA | casA | atomG | casG | qpop | strq | vmx | amax | grid | tex | texLz | btagAlloc | btagFree =>
    exact Bool.or_true _
  case add | sub | mulLo | mulHi | min | max | and | or | xor | shl | shr | sar | rot | bfe | bfi | addW | lea | fadd | fsub | fmul
      | fmin | fmax | mkaff | rdlane =>
    rw [l_enc2]; rfl
  all_goals rfl

end Sys2Proof.Proofs
end

section
/-! Bundles read back (R40, R43, R51 to R60): the words of both forms, the half map, and the whole bundle. -/

namespace Sys2Proof.Proofs
open Sys2Proof

/-! ### Bundles as words (R43, R51) -/

theorem ofWord_toWord (r : Raw) : Raw.ofWord r.toWord = r := by
  obtain ⟨e, l, op, g, d, a, b, c⟩ := r
  rw [Raw.ofWord, Raw.mk.injEq]
  refine ⟨Raw.toWord_bit61 _, ?_, ?_, ?_, ?_, ?_, ?_, ?_⟩
  all_goals
    unfold field Raw.toWord
    repeat rw [BitVec.extractLsb'_append_eq_of_le (by decide)]
    exact BitVec.extractLsb'_append_eq_right

theorem pairWord_bit0 (e : Bool) (a b : BitVec 30) : (pairWord e a b).getLsbD 0 = false := by
  unfold pairWord
  rw [BitVec.getLsbD_append]
  rfl

theorem hiHalf_pairWord (e : Bool) (a b : BitVec 30) : hiHalf (pairWord e a b) = a := by
  unfold hiHalf field pairWord
  repeat rw [BitVec.extractLsb'_append_eq_of_le (by decide)]
  exact BitVec.extractLsb'_append_eq_right

theorem loHalf_pairWord (e : Bool) (a b : BitVec 30) : loHalf (pairWord e a b) = b := by
  unfold loHalf field pairWord
  rw [BitVec.extractLsb'_append_eq_of_le (by decide)]
  exact BitVec.extractLsb'_append_eq_right

/-! ### Halves (R51 to R57) -/

@[simp] theorem hsrc_ofBits_toBits (s : HSrc) : HSrc.ofBits s.toBits = some s := by
  cases s with
  | reg o =>
    have hlow : (0#1 ++ o.toByte).extractLsb' 0 8 = o.toByte := BitVec.extractLsb'_append_eq_right
    have hbit : (0#1 ++ o.toByte)[8] = false := by rw [BitVec.getElem_append]; rfl
    simp [HSrc.ofBits, HSrc.toBits, hlow, hbit]
  | imm v =>
    have hlow : (1#1 ++ v).extractLsb' 0 8 = v := BitVec.extractLsb'_append_eq_right
    have hbit : (1#1 ++ v)[8] = true := by rw [BitVec.getElem_append]; rfl
    simp [HSrc.ofBits, HSrc.toBits, hlow, hbit]

section
variable (oph : Nat) (h : Half)

theorem halfBits_oph : (halfBits oph h).extractLsb' 22 8 = BitVec.ofNat 8 oph := by
  unfold halfBits
  repeat rw [BitVec.extractLsb'_append_eq_of_le (by decide)]
  exact BitVec.extractLsb'_eq_self

theorem halfBits_guard : ((halfBits oph h).extractLsb' 20 2).toNat = h.g.code := by
  have : (halfBits oph h).extractLsb' 20 2 = BitVec.ofNat 2 h.g.code := by
    unfold halfBits
    repeat rw [BitVec.extractLsb'_append_eq_of_le (by decide)]
    exact BitVec.extractLsb'_append_eq_right
  rw [this, BitVec.toNat_ofNat, Nat.mod_eq_of_lt (hguard_code_lt _ (by decide))]

theorem halfBits_dst : ((halfBits oph h).extractLsb' 13 7).toFin = h.d := by
  have : (halfBits oph h).extractLsb' 13 7 = BitVec.ofNat 7 h.d.val := by
    unfold halfBits
    repeat rw [BitVec.extractLsb'_append_eq_of_le (by decide)]
    exact BitVec.extractLsb'_append_eq_right
  rw [this]
  exact Fin.ext (Nat.mod_eq_of_lt h.d.isLt)

theorem halfBits_src : (halfBits oph h).extractLsb' 4 9 = h.s.toBits := by
  unfold halfBits
  rw [BitVec.extractLsb'_append_eq_of_le (by decide)]
  exact BitVec.extractLsb'_append_eq_right

theorem halfBits_low : (halfBits oph h).extractLsb' 0 4 = 0#4 := BitVec.extractLsb'_append_eq_right

end

/-- The fields of a half (R51), as `parseHalf` reads them. -/
def halfFields (x : BitVec 30) : Option Half := do
  need (x.extractLsb' 0 4 == 0)
  some ⟨← HGuard.ofCode (x.extractLsb' 20 2).toNat, (x.extractLsb' 13 7).toFin, ← HSrc.ofBits (x.extractLsb' 4 9)⟩

theorem halfFields_halfBits (oph : Nat) (h : Half) : halfFields (halfBits oph h) = some h := by
  rw [halfFields, halfBits_low, halfBits_guard, halfBits_dst, halfBits_src, hsrc_ofBits_toBits, hguard_ofCode_code]
  rfl

/-- An opcode of the half map whose arm reads the fields of a half. -/
theorem parseHalf_halfBits {oph : Nat} {h : Half} {arm : Half → Instr}
    (harm : ∀ x : BitVec 30, x.extractLsb' 22 8 = BitVec.ofNat 8 oph → parseHalf x = some ((halfFields x).map arm)) :
    parseHalf (halfBits oph h) = some (some (arm h)) := by
  rw [harm _ (halfBits_oph oph h), halfFields_halfBits, Option.map_some]

theorem parseHalf_pfxI (hi : BitVec 13) : parseHalf (0xF1#8 ++ 0#9 ++ hi) = some (some (.pfxI hi)) := by
  have hoph : (0xF1#8 ++ 0#9 ++ hi).extractLsb' 22 8 = 0xF1#8 := by
    rw [BitVec.extractLsb'_append_eq_of_le (by decide)]
    rfl
  have hzero : (0xF1#8 ++ 0#9 ++ hi).extractLsb' 13 9 = 0#9 := by
    rw [BitVec.extractLsb'_append_eq_of_le (by decide)]
    rfl
  have hlow : (0xF1#8 ++ 0#9 ++ hi).extractLsb' 0 13 = hi := BitVec.extractLsb'_append_eq_right
  simp only [parseHalf]
  rw [hoph, hzero, hlow]
  rfl

theorem parseHalf_encodeHalf {i : Instr} {x : BitVec 30} (hw : i.wf = true) (h : encodeHalf i = some x) :
    parseHalf x = some (some i) := by
  cases i <;> cases h
  case pfxM m =>
    obtain ⟨r, s, z⟩ := m
    cases r <;> cases s <;> cases z <;> rfl
  case pfxI hi => exact parseHalf_pfxI hi
  case halfMov h =>
    obtain ⟨-, hn⟩ := Bool.and_eq_true_iff.1 hw
    have hmov : (if h.names then Instr.hnop else .halfMov h) = .halfMov h := if_neg (by simpa using hn)
    rw [← hmov]
    exact parseHalf_halfBits (arm := fun h => if h.names then .hnop else .halfMov h) fun x hx => by simp only [parseHalf, hx]; rfl
  case hnop =>
    exact parseHalf_halfBits (arm := fun h => if h.names then .hnop else .halfMov h) fun x hx => by simp only [parseHalf, hx]; rfl
  all_goals exact parseHalf_halfBits fun x hx => by simp only [parseHalf, hx]; rfl

/-! ### Bundles (R43, R51, R60) -/

theorem parseFull_withE (r : Raw) (e : Bool) : parseFull { r with e := e } = parseFull r := by
  cases r
  delta parseFull
  rfl

theorem decodeFull_encodeFull {i : Instr} {r : Raw} (hw : i.wf = true) (h : encodeFull i = some r) (e : Bool) :
    decodeFull { r with e := e } = .ok i := by
  rw [decodeFull, parseFull_withE, parseFull_encodeFull hw h]
  simp only [hw, long_latency_of_encodeFull hw h, Bool.and_self, ↓reduceIte]

theorem decodeBundle_toWord {i : Instr} {r : Raw} (h : decodeFull r = .ok i) : decodeBundle r.toWord = .ok ⟨r.e, .full i⟩ := by
  simp only [decodeBundle, Raw.toWord_bit63, Raw.toWord_bit62, Raw.toWord_bit61, ofWord_toWord, h, Bool.false_eq_true, Bool.not_false,
    ↓reduceIte]

theorem decodeBundle_encodeFull {i : Instr} {r : Raw} (hw : i.wf = true) (h : encodeFull i = some r) (e : Bool) :
    decodeBundle (Raw.toWord { r with e := e }) = .ok ⟨e, .full i⟩ :=
  decodeBundle_toWord (decodeFull_encodeFull hw h e)

theorem decodeBundle_pairWord {hi lo : Instr} {a b : BitVec 30} (hh : hi.wf = true) (hl : lo.wf = true) (ha : encodeHalf hi = some a)
    (hb : encodeHalf lo = some b) (e : Bool) : decodeBundle (pairWord e a b) = .ok ⟨e, .pair hi lo⟩ := by
  simp only [decodeBundle, pairWord_bit63, pairWord_bit62, pairWord_bit61, pairWord_bit0, hiHalf_pairWord, loHalf_pairWord,
    parseHalf_encodeHalf hh ha, parseHalf_encodeHalf hl hb, hh, hl, Bool.false_eq_true, Bool.not_true, Bool.not_false, Bool.and_self, ↓reduceIte]

theorem decodeTableWord_of_full {i : Instr} {x : DWord} {e : Bool} (h : decodeBundle x = .ok ⟨e, .full i⟩) :
    decodeTableWord 64 x.toNat = some i := by
  rw [decodeTableWord, Nat.mod_eq_of_lt x.isLt, BitVec.ofNat_toNat, BitVec.setWidth_eq, h]

theorem decodeTableWord_of_pair {hi lo : Instr} {x : DWord} {e : Bool} (h : decodeBundle x = .ok ⟨e, .pair hi lo⟩) :
    decodeTableWord 64 x.toNat = some (if hi = .hnop then lo else hi) := by
  rw [decodeTableWord, Nat.mod_eq_of_lt x.isLt, BitVec.ofNat_toNat, BitVec.setWidth_eq, h]
  cases hi <;> rfl

/-- A half stands in the high slot beside a hnop; a fetched modifier stands in the low slot after a hnop (R69, R71). -/
theorem encode_of_half {i : Instr} {x : DWord} (hf : encodeFull i = none) (h : encode i = some x) :
    ∃ a, encodeHalf i = some a ∧ (x = pairWord false hnopBits a ∨ x = pairWord false a hnopBits) := by
  simp only [encode, hf] at h
  split at h
  all_goals obtain ⟨a, ha, hx⟩ := Option.map_eq_some_iff.1 h
  · exact ⟨a, ha, .inl hx.symm⟩
  · exact ⟨a, ha, .inl hx.symm⟩
  · exact ⟨a, ha, .inr hx.symm⟩

theorem decodeTableWord_encode {i : Instr} {x : DWord} (hw : i.wf = true) (h : encode i = some x) :
    decodeTableWord 64 x.toNat = some i := by
  cases hf : encodeFull i with
  | some r =>
    simp only [encode, hf, Option.some.injEq] at h
    rw [← h]
    exact decodeTableWord_of_full (decodeBundle_encodeFull hw hf r.e)
  | none =>
    have hnop : encodeHalf .hnop = some hnopBits := rfl
    obtain ⟨a, ha, rfl | rfl⟩ := encode_of_half hf h
    · rw [decodeTableWord_of_pair (decodeBundle_pairWord rfl hw hnop ha false), if_pos rfl]
    · rw [decodeTableWord_of_pair (decodeBundle_pairWord hw rfl ha hnop false), ite_eq_right_iff.2 Eq.symm]

/-- Settles O56: the arm of each opcode reads the fields of its encoding back, and a bundle's word gives its fields back. -/
theorem encodeThenDecode : Obligations.EncodeThenDecode := by
  unfold Obligations.EncodeThenDecode
  exact ⟨fun _ _ hw h e => decodeBundle_encodeFull hw h e, fun _ _ _ _ hh hl ha hb e => decodeBundle_pairWord hh hl ha hb e,
    fun _ _ hw h => decodeTableWord_encode hw h⟩

end Sys2Proof.Proofs
end

section
/-! The printed bundles, and a refutation of the halves' frame by the state of two splits with one identifier. -/

namespace Sys2Proof.Proofs
open Sys2Proof Sys2Proof.Machine

/-! ### The bundles that the spec prints -/

/-- A bundle that is the encoding of an instruction. -/
theorem decodeBundle_of_encoding {i : Instr} {x : DWord} {e : Bool} (hw : i.wf = true)
    (hx : (encodeFull i).map (fun r => Raw.toWord { r with e := e }) = some x) : decodeBundle x = .ok ⟨e, .full i⟩ := by
  obtain ⟨r, hr, rfl⟩ := Option.map_eq_some_iff.1 hx
  exact decodeBundle_encodeFull hw hr e

/-- A bundle that is the encoding of two halves. -/
theorem decodeBundle_of_halves {hi lo : Instr} {x : DWord} {e : Bool} (hh : hi.wf = true) (hl : lo.wf = true)
    (hx : ((encodeHalf hi).bind fun a => (encodeHalf lo).map (pairWord e a)) = some x) : decodeBundle x = .ok ⟨e, .pair hi lo⟩ := by
  obtain ⟨a, ha, hx⟩ := Option.bind_eq_some_iff.1 hx
  obtain ⟨b, hb, rfl⟩ := Option.map_eq_some_iff.1 hx
  exact decodeBundle_pairWord hh hl ha hb e

/-- Settles O55: each printed word is the encoding of the instructions beside it, which O56's lemmas read back. -/
theorem printedBundlesDecode : Obligations.PrintedBundlesDecode := by
  unfold Obligations.PrintedBundlesDecode
  refine ⟨decodeBundle_of_encoding rfl rfl, decodeBundle_of_halves rfl rfl rfl, decodeBundle_of_halves rfl rfl rfl,
    decodeBundle_of_encoding rfl rfl, decodeBundle_of_encoding rfl rfl, decodeBundle_of_encoding rfl rfl,
    decodeBundle_of_encoding rfl rfl, decodeBundle_of_encoding rfl rfl, decodeBundle_of_encoding rfl rfl,
    decodeBundle_of_encoding rfl rfl, decodeBundle_of_encoding rfl rfl, decodeBundle_of_encoding rfl rfl,
    decodeBundle_of_encoding rfl rfl⟩

/-! ### A half in thread 0 -/

/-- The half writes in thread 0 alone, and so leaves thread 0 in the second split's window. -/
theorem marks_halfMov : marksAfter (exec (.halfMov ⟨.none, 1, .imm 7⟩) (twins none)) = [.wrote (.v 1) 1] := by decide +kernel

/-- The claimed write names no mask, and marks all threads there. -/
theorem heldMarks_half (seed : Word) (r : VReg) :
    heldMarks ((((twins none).setSeed seed).putV 1 r).modSp fun p => { p with pfx := none }) = [.wrote (.v 1) fullMask] := rfl

/-- Refutes O8: the half `mov` in thread 0, with a second split of the executing split's identifier. -/
theorem not_halvesAndModifiers : ¬ Obligations.HalvesAndModifiers := by
  unfold Obligations.HalvesAndModifiers
  rintro ⟨hhalf, -⟩
  obtain ⟨hwrites, -⟩ := hhalf (.halfMov ⟨.none, 1, .imm 7⟩) (twins none) (twins_quiet none)
  have hmask : (twins none).halfMask .none ≠ 0 := by decide
  have h := hwrites _ _ _ rfl (twins_rowFree none)
  rw [if_neg hmask] at h
  obtain ⟨r, hr, -⟩ := h
  have hmarks := marks_halfMov
  rw [hr] at hmarks
  exact absurd ((heldMarks_half _ r).symm.trans hmarks) (by decide)

end Sys2Proof.Proofs
end

section
/-! Three more refutations by the state of two splits with one identifier: a write in thread 0 leaves thread 0 in the second split's
window, where the claimed write names no mask. -/

namespace Sys2Proof.Proofs
open Sys2Proof Sys2Proof.Machine

theorem marks_addW : marksAfter (exec (.addW ⟨.always, .v 1, .null, .reg .null⟩) (twins none)) = [.wrote (.v 1) 1] := by decide +kernel
theorem marks_fadd_plain : marksAfter (exec (.fadd ⟨.always, .v 1, .k 1, .reg (.k 1)⟩) (twins none)) = [.wrote (.v 1) 1] := by decide +kernel
theorem marks_qblk : marksAfter (exec (.qblk ⟨.always, .v 1, .k 1⟩ false) (twins none)) = [.wrote (.v 1) 1] := by decide +kernel

theorem twins_rowsFree2 (p : Option Pfx) : (twins p).rowsFree2 1 := by
  right
  show ((List.range 128).filter (twinWave none).rowed).length + 2 ≤ 16
  decide +kernel

/-- The claimed write of a pair names no mask, and marks all threads in the second split's window. -/
theorem heldMarks_putV_pair (p : Option Pfx) (lo hi : VReg) :
    heldMarks ((((twins p).putV 1 lo).putV 2 hi).advance) = [.wrote (.v 1) fullMask] := rfl

/-- Refutes O2: `add.w` in thread 0, with a second split of the executing split's identifier. -/
theorem not_widePairResult : ¬ Obligations.WidePairResult := by
  unfold Obligations.WidePairResult
  intro h
  have hm : (twins none).guardMask .always ≠ 0 := by rw [twins_guardMask]; decide
  obtain ⟨hv, -⟩ := h (.addW ⟨.always, .v 1, .null, .reg .null⟩) (twins none) _ rfl rfl (twins_quiet none)
  have hpair := hv 1 rfl (twins_rowsFree2 none)
  rw [if_neg hm] at hpair
  obtain ⟨lo, hi, hexec, -⟩ := hpair
  have hmarks := marks_addW
  rw [hexec] at hmarks
  exact absurd ((heldMarks_putV_pair none lo hi).symm.trans hmarks) (by decide)

/-- Refutes O5: `fadd` in thread 0, without stochastic rounding. -/
theorem not_roundedResults : ¬ Obligations.RoundedResults := by
  unfold Obligations.RoundedResults
  rintro ⟨hv, -⟩
  exact not_writesV_twins marks_fadd_plain
    (hv (.fadd ⟨.always, .v 1, .k 1, .reg (.k 1)⟩) (twins none) _ 1 rfl rfl rfl (twins_quiet none) (twins_rowFree none))

/-- Refutes O7: `qblk` in thread 0. -/
theorem not_blockQuantise : ¬ Obligations.BlockQuantise := by
  unfold Obligations.BlockQuantise
  intro h
  have hm : (twins none).guardMask .always ≠ 0 := by rw [twins_guardMask]; decide
  obtain ⟨hv, -⟩ := h ⟨.always, .v 1, .k 1⟩ false (twins none) (twins_quiet none)
  have hblock := hv 1 rfl (twins_rowFree none)
  rw [if_neg hm] at hblock
  obtain ⟨r, -, hexec, -⟩ := hblock
  exact exec_ne_putV marks_qblk r hexec

end Sys2Proof.Proofs
end

section
/-! The operands of the array: elements of A and B, dense and compressed, as the bytes of their buffers hold them (R211 to R214). -/

namespace Sys2Proof.Proofs
open Sys2Proof Sys2Proof.Machine

/-! ### Fields and bits of a run of bytes -/

theorem leNat_drop (bs : List Byte) (a : Nat) : leNat (bs.drop a) = leNat bs / 256 ^ a := by
  induction a generalizing bs with
  | zero => simp
  | succ a ih =>
    cases bs with
    | nil => simp [leNat]
    | cons b bs =>
      have hb : (b.toNat + 256 * leNat bs) / 256 = leNat bs := by have := b.isLt; omega
      rw [List.drop_succ_cons, ih, leNat, pow_succ', ← Nat.div_div_eq_div_mul, hb]

theorem leNat_take (bs : List Byte) (n : Nat) : leNat (bs.take n) = leNat bs % 256 ^ n := by
  induction n generalizing bs with
  | zero => simp [leNat, Nat.mod_one]
  | succ n ih =>
    cases bs with
    | nil => simp [leNat]
    | cons b bs =>
      have hdiv : (b.toNat + 256 * leNat bs) / 256 = leNat bs := by have := b.isLt; omega
      have hmod : (b.toNat + 256 * leNat bs) % 256 = b.toNat := by have := b.isLt; omega
      rw [List.take_succ_cons, leNat, leNat, ih, pow_succ', Nat.mod_mul, hdiv, hmod]

/-- A field of whole bytes of the number that a run of bytes makes. -/
theorem bitsOf_leNat (bs : List Byte) (a n : Nat) : bitsOf (leNat bs) (8 * a) (8 * n) = leNat ((bs.drop a).take n) := by
  rw [leNat_take, leNat_drop, bitsOf, pow_mul, pow_mul]
  rfl

theorem testBit_leNat (bs : List Byte) (a b : Nat) (hb : b < 8) : (leNat bs).testBit (8 * a + b) = (bs.getD a 0).getLsbD b := by
  have hbyte : leNat ((bs.drop a).take 1) = (bs.getD a 0).toNat := by
    rcases lt_or_ge a bs.length with h | h
    · rw [List.drop_eq_getElem_cons h, List.take_succ_cons]
      simp [leNat, h]
    · simp [List.drop_eq_nil_of_le h, leNat, h]
  have hshift : (leNat bs).testBit (8 * a + b) = (leNat ((bs.drop a).take 1)).testBit b := by
    rw [leNat_take, leNat_drop, show (256 : Nat) ^ a = 2 ^ (8 * a) by rw [pow_mul]; rfl, show (256 : Nat) ^ 1 = 2 ^ 8 by rfl,
      Nat.testBit_mod_two_pow, Nat.testBit_div_two_pow]
    simp [hb, Nat.add_comm]
  rw [hshift, hbyte]
  rfl

theorem bitsOf_one (v i : Nat) : bitsOf v i 1 = (v.testBit i).toNat := by
  rw [bitsOf, pow_one, Nat.testBit_eq_decide_div_mod_eq]
  rcases Nat.mod_two_eq_zero_or_one (v / 2 ^ i) with h | h <;> simp [h]

/-! ### What the array reads of a buffer -/

theorem byteAt_eq (s : State) (wg : Nat) (sp : Space) (a : Nat) : s.byteAt wg sp a = ((s.wg wg).buf sp).get a := rfl

theorem getD_bufGet {s : State} {wg lo n i : Nat} {sp : Space} (h : i < n) : (s.bufGet wg sp lo n).getD i 0 = s.byteAt wg sp (lo + i) := by
  simp [State.bufGet, Mem.gets, byteAt_eq, h]

theorem drop_take_bufGet {s : State} {wg lo n a m : Nat} {sp : Space} (h : a + m ≤ n) :
    ((s.bufGet wg sp lo n).drop a).take m = (List.range m).map fun x => s.byteAt wg sp (lo + a + x) := by
  refine List.ext_getElem (by simp [State.bufGet, Mem.gets]; omega) fun i h1 h2 => ?_
  simp [State.bufGet, Mem.gets, byteAt_eq, Nat.add_assoc]

/-- Bit i of a run of bytes of the W-buffer, in the number that the array has read. -/
theorem testBit_bufGet {s : State} {wg lo n a i : Nat} (h : a + i / 8 < n) :
    (leNat (s.bufGet wg .w lo n)).testBit (8 * a + i) = decide (s.bitW wg (lo + a) i = 1) := by
  have hi : 8 * a + i = 8 * (a + i / 8) + i % 8 := by omega
  have hlt : i % 8 < 8 := Nat.mod_lt _ (by decide)
  have hlt' : i % 8 < 32 := by omega
  rw [hi, testBit_leNat _ _ _ hlt, getD_bufGet h, State.bitW, bitAt, BitVec.getLsbD_setWidth, Nat.add_assoc]
  cases (s.byteAt wg Space.w (lo + (a + i / 8))).getLsbD (i % 8) <;> simp [hlt']

theorem bitW_le_one (s : State) (wg a i : Nat) : s.bitW wg a i ≤ 1 := by
  rw [State.bitW, bitAt]; exact Bool.toNat_le _

theorem bitsOf_bufGet {s : State} {wg lo n a i : Nat} (h : a + i / 8 < n) :
    bitsOf (leNat (s.bufGet wg .w lo n)) (8 * a + i) 1 = s.bitW wg (lo + a) i := by
  rw [bitsOf_one, testBit_bufGet h]
  have := bitW_le_one s wg (lo + a) i
  by_cases hb : s.bitW wg (lo + a) i = 1
  · simp [hb]
  · simp [hb]; omega

/-! ### Elements of the operands (R211 to R214) -/

theorem foldl_add_eq_sum {α : Type} (l : List α) (f : α → Nat) : l.foldl (fun a q => a + f q) 0 = (l.map f).sum := by
  rw [List.sum_eq_foldl, List.foldl_map]

/-- A[i][k] of a format of n bytes. -/
theorem codeA_eq {s : State} {wg sa k i kk n : Nat} {fb : DWord} (hn : fmtBits (fbAF fb) = 8 * n) (hi : i < 16) (hk : kk < k) :
    codeA fb k (leNat (s.bufGet wg .a sa (bytesA fb k))) i kk = s.rowCode wg sa n k i kk := by
  have hfit : (i * k + kk) * n + n ≤ bytesA fb k := by
    have hrow : i * k + kk + 1 ≤ 16 * k := by nlinarith
    have hbytes : bytesA fb k = 16 * k * n := by
      rw [bytesA, hn, show 16 * k * (8 * n) = 8 * (16 * k * n) by ring, Nat.mul_div_cancel_left _ (by decide)]
    calc (i * k + kk) * n + n = (i * k + kk + 1) * n := by ring
      _ ≤ 16 * k * n := Nat.mul_le_mul_right _ hrow
      _ = bytesA fb k := hbytes.symm
  simp only [codeA, hn]
  rw [show (i * k + kk) * (8 * n) = 8 * ((i * k + kk) * n) by ring, bitsOf_leNat, drop_take_bufGet hfit]
  rfl

/-- B[k][j] as stored in planes. -/
theorem codeB_eq {s : State} {wg sb k kk j : Nat} {fb : DWord} (hpro : fbPro fb = false) (hk16 : k % 16 = 0) (hk : kk < k) (hj : j < 16) :
    codeB fb (leNat (s.bufGet wg .w sb (bytesB fb k false))) kk j = s.planeCode wg sb (fmtBits (fbBF fb)) kk j := by
  have hplanes : planesB fb = fmtBits (fbBF fb) := by simp [planesB, hpro]
  simp only [codeB, hplanes, State.planeCode, foldl_add_eq_sum]
  congr 1
  refine List.map_congr_left fun q hq => ?_
  have hq : q < fmtBits (fbBF fb) := List.mem_range.1 hq
  generalize fmtBits (fbBF fb) = p at hplanes hq ⊢
  have hfit : (kk / 16 * p + q) * 32 + (16 * j + kk % 16) / 8 < bytesB fb k false := by
    have hstep : kk / 16 + 1 ≤ k / 16 := by omega
    have hplane : kk / 16 * p + q + 1 ≤ k / 16 * p := by
      calc kk / 16 * p + q + 1 ≤ kk / 16 * p + p := by omega
        _ = (kk / 16 + 1) * p := by ring
        _ ≤ k / 16 * p := Nat.mul_le_mul_right _ hstep
    simp only [bytesB, hplanes, Bool.false_eq_true, ↓reduceIte]
    omega
  rw [show (kk / 16 * p + q) * 32 * 8 + 16 * j + kk % 16 = 8 * ((kk / 16 * p + q) * 32) + (16 * j + kk % 16) by ring, bitsOf_bufGet hfit]

/-- The bit of element x in the bitmap of column j of a k-step. -/
theorem testBit_spMap {s : State} {wg sb k step j x : Nat} {fb : DWord} (hstep : step < k / 16) (hj : j < 16) (hx : x < 16) :
    (spMap fb (leNat (s.bufGet wg .w sb (bytesB fb k true))) step j).testBit x
      = decide (s.bitW wg (sb + step * sparseBlock fb) (16 * j + x) = 1) := by
  have hfit : step * sparseBlock fb + (16 * j + x) / 8 < bytesB fb k true := by
    have hblock : 32 ≤ sparseBlock fb := Nat.le_add_right _ _
    have hsteps : (step + 1) * sparseBlock fb ≤ k / 16 * sparseBlock fb := Nat.mul_le_mul_right _ hstep
    simp only [bytesB, ↓reduceIte]
    have : (step + 1) * sparseBlock fb = step * sparseBlock fb + sparseBlock fb := by ring
    omega
  rw [spMap, bitsOf, Nat.testBit_mod_two_pow, Nat.testBit_div_two_pow, ← testBit_bufGet hfit]
  simp only [hx, decide_true, Bool.true_and]
  congr 1
  ring

/-- B[k][j] of a compressed operand. -/
theorem codeSp_eq {s : State} {wg sb k kk j : Nat} {fb : DWord} (hpro : fbPro fb = false) (hk16 : k % 16 = 0) (hk : kk < k) (hj : j < 16) :
    codeSp fb (leNat (s.bufGet wg .w sb (bytesB fb k true))) kk j = s.keptCode wg sb (fmtBits (fbBF fb)) (2 ^ fbSPN fb) kk j := by
  have hplanes : planesB fb = fmtBits (fbBF fb) := by simp [planesB, hpro]
  have hstep : kk / 16 < k / 16 := by omega
  have hblock : 32 + (fmtBits (fbBF fb) * 2 * 2 ^ fbSPN fb + 31) / 32 * 32 = sparseBlock fb := by
    rw [sparseBlock, hplanes, spN]
  have hmark (x : Nat) (hx : x < 16) := testBit_spMap (s := s) (wg := wg) (sb := sb) (fb := fb) hstep hj hx
  have hmod : kk % 16 < 16 := Nat.mod_lt _ (by decide)
  have hrank : spRank (spMap fb (leNat (s.bufGet wg .w sb (bytesB fb k true))) (kk / 16) j) (kk % 16)
      = ((List.range (kk % 16)).filter fun x => decide (s.bitW wg (sb + kk / 16 * sparseBlock fb) (16 * j + x) = 1)).length := by
    rw [spRank]
    congr 1
    refine List.filter_congr fun x hx => hmark x ?_
    have := List.mem_range.1 hx
    omega
  simp only [codeSp, State.keptCode, hblock, hmark _ hmod, hrank, spN]
  generalize ((List.range (kk % 16)).filter fun x =>
    decide (s.bitW wg (sb + kk / 16 * sparseBlock fb) (16 * j + x) = 1)).length = r
  by_cases hkept : (decide (s.bitW wg (sb + kk / 16 * sparseBlock fb) (16 * j + kk % 16) = 1) && decide (r < 2 ^ fbSPN fb)) = true
  · rw [if_pos hkept, if_pos hkept, foldl_add_eq_sum, hplanes]
    have hr : r < 2 ^ fbSPN fb := by simp_all
    congr 2
    refine List.map_congr_left fun q hq => ?_
    have hq : q < fmtBits (fbBF fb) := List.mem_range.1 hq
    have hfit : kk / 16 * sparseBlock fb + 32 + q * (2 * 2 ^ fbSPN fb) + (2 ^ fbSPN fb * j + r) / 8 < bytesB fb k true := by
      have hrow : 2 ^ fbSPN fb * j + r < 8 * (2 * 2 ^ fbSPN fb) := by nlinarith
      have hbyte : (2 ^ fbSPN fb * j + r) / 8 < 2 * 2 ^ fbSPN fb := Nat.div_lt_of_lt_mul hrow
      have hplane : (q + 1) * (2 * 2 ^ fbSPN fb) ≤ fmtBits (fbBF fb) * (2 * 2 ^ fbSPN fb) := Nat.mul_le_mul_right _ hq
      have hsteps : (kk / 16 + 1) * sparseBlock fb ≤ k / 16 * sparseBlock fb := Nat.mul_le_mul_right _ hstep
      have hq1 : (q + 1) * (2 * 2 ^ fbSPN fb) = q * (2 * 2 ^ fbSPN fb) + 2 * 2 ^ fbSPN fb := by ring
      have hk1 : (kk / 16 + 1) * sparseBlock fb = kk / 16 * sparseBlock fb + sparseBlock fb := by ring
      rw [Nat.mul_assoc] at hblock
      simp only [bytesB, ↓reduceIte]
      omega
    rw [show (kk / 16 * sparseBlock fb + 32 + q * 2 * 2 ^ fbSPN fb) * 8 + 2 ^ fbSPN fb * j + r
      = 8 * (kk / 16 * sparseBlock fb + 32 + q * (2 * 2 ^ fbSPN fb)) + (2 ^ fbSPN fb * j + r) by ring, bitsOf_bufGet hfit]
    simp only [Nat.add_assoc]
  · rw [if_neg hkept, if_neg hkept]

end Sys2Proof.Proofs
end

section
/-! The sums of the array (R94, R213, R227, R228): one element of an mma or a vmx as R94 gives it. -/

namespace Sys2Proof.Proofs
open Sys2Proof Sys2Proof.Machine

/-! ### The integer sum (R94, R213) -/

theorem dotInt_word (k : Nat) (a b : Nat → Int) (c : Word) :
    (dotInt k a b c).1 = BitVec.ofInt 32 (c.toInt + ((List.range k).map fun i => a i * b i).sum) := by
  rw [List.sum_eq_foldl, List.foldl_map]
  rfl

theorem intOf_byte {x : Nat} (h : x < 256) : intOf 8 true x = int8 x := by
  have hbit : x.testBit 7 = decide (128 ≤ x) := by
    have := Nat.testBit_eq_decide_div_mod_eq (x := x) (i := 7)
    rw [this, decide_eq_decide]
    omega
  simp only [intOf, Nat.mod_eq_of_lt (show x < 2 ^ 8 from h), hbit, int8]
  by_cases hx : x < 128
  · simp [hx]
  · simp [hx, Nat.not_lt.1 hx]

theorem intOf_byte_toNat (b : Byte) : intOf 8 true b.toNat = b.toInt := by
  rw [intOf_byte b.isLt, int8, BitVec.toInt]
  have := b.isLt
  split <;> split <;> omega

theorem fmtInt_i8 (code : Nat) : fmtInt 8 0 code = intOf 8 true code := rfl

theorem rowCode_byte (s : State) (wg a len i k : Nat) : s.rowCode wg a 1 len i k = (s.byteAt wg .a (a + i * len + k)).toNat := by
  simp [State.rowCode, leNat, Nat.add_assoc]

theorem sum_bits_lt (f : Nat → Nat) (hf : ∀ q, f q ≤ 1) (n : Nat) : ((List.range n).map fun q => f q * 2 ^ q).sum < 2 ^ n := by
  induction n with
  | zero => simp
  | succ n ih =>
    have hn : f n * 2 ^ n ≤ 2 ^ n := by have := Nat.mul_le_mul_right (2 ^ n) (hf n); omega
    simp only [List.range_succ, List.map_append, List.map_cons, List.map_nil, List.sum_append, List.sum_cons, List.sum_nil]
    omega

/-- An element of eight planes as a signed byte. -/
theorem planeInt8_eq (s : State) (wg b k j : Nat) : s.planeInt8 wg b k j = int8 (s.planeCode wg b 8 k j) := by
  have hbit (q : Nat) : (if (s.byteAt wg .w (b + (k / 16 * 8 + q) * 32 + 2 * j + k % 16 / 8)).getLsbD (k % 8) then (1 : Int) else 0)
      = (s.bitW wg (b + (k / 16 * 8 + q) * 32) (16 * j + k % 16) : Nat) := by
    have hbyte : b + (k / 16 * 8 + q) * 32 + (16 * j + k % 16) / 8 = b + (k / 16 * 8 + q) * 32 + 2 * j + k % 16 / 8 := by omega
    have hpos : (16 * j + k % 16) % 8 = k % 8 := by omega
    have hlt : k % 8 < 32 := by omega
    rw [State.bitW, bitAt, hbyte, hpos, BitVec.getLsbD_setWidth]
    cases (s.byteAt wg .w (b + (k / 16 * 8 + q) * 32 + 2 * j + k % 16 / 8)).getLsbD (k % 8) <;> simp [hlt]
  have hle (q : Nat) := bitW_le_one s wg (b + (k / 16 * 8 + q) * 32) (16 * j + k % 16)
  simp only [State.planeInt8, State.planeCode, int8, hbit]
  generalize hf : (fun q => s.bitW wg (b + (k / 16 * 8 + q) * 32) (16 * j + k % 16)) = f
  have hf' (q : Nat) : s.bitW wg (b + (k / 16 * 8 + q) * 32) (16 * j + k % 16) = f q := congrFun hf q
  simp only [hf'] at hle ⊢
  have h7 := hle 7
  have hlow : ((List.range 7).map fun q => f q * 2 ^ q).sum < 128 := sum_bits_lt f hle 7
  have hlow' : ((List.range 7).map fun q => (f q : Int) * 2 ^ q).sum = (((List.range 7).map fun q => f q * 2 ^ q).sum : Nat) := by
    simp [List.range_succ]
  rw [hlow', show List.range 8 = List.range 7 ++ [7] from rfl, List.map_append, List.sum_append]
  generalize ((List.range 7).map fun q => f q * 2 ^ q).sum = low at hlow ⊢
  simp only [List.map_cons, List.map_nil, List.sum_cons, List.sum_nil]
  split <;> omega

/-! ### The float sum (R94) -/

/-- One product of a dot product without block scales: FA24, and the tile's element. -/
def plainStep (p k : Nat) (pr : Nat → FV) (x : Nat × Nat) (i : Nat) : Nat × Nat :=
  let fa := fa24Add x.1 (pr i)
  if (i + 1) % 16 = 0 && ((i + 1) / 16 % p = 0 || i + 1 = k) then (0, promoted x.2 fa) else (fa, x.2)

/-- Flags aside, a dot product without block scales is a run of its steps. -/
theorem dotFloat_eq_foldl {fb : DWord} (hbl : fbBL fb = 0) (k : Nat) (a b : Nat → FV) (sa sb : Nat → Option Int) (c : Nat) :
    (dotFloat fb k a b sa sb c).c = ((List.range k).foldl (plainStep (2 ^ fbPI fb) k fun i => xmul (a i) (b i)) (0, c)).2 := by
  have hblock : fbBlock fb = 0 := by simp [fbBlock, hbl]
  have hA : fbScaledA fb = false := by simp [fbScaledA, hbl]
  have hB : fbScaledB fb = false := by simp [fbScaledB, hbl]
  simp only [dotFloat, hA, hB, hblock, Bool.or_self, Bool.false_eq_true, ↓reduceIte, Bool.false_and,
    OfNat.zero_ne_ofNat, decide_false]
  refine congrArg Prod.snd (List.foldl_hom (fun x : Machine.Sum => (x.fa, x.c)) (fun x i => ?_)).symm
  simp only [plainStep, Bool.and_eq_true, Bool.or_eq_true, decide_eq_true_eq]
  by_cases hp : (i + 1) % 16 = 0 ∧ ((i + 1) / 16 % 2 ^ fbPI fb = 0 ∨ i + 1 = k)
  · rw [if_pos hp, if_pos hp]
    split <;> rfl
  · rw [if_neg hp, if_neg hp]
    split <;> rfl

/-- Inside a k-step nothing is promoted. -/
theorem foldl_plainStep_inside (p k : Nat) (pr : Nat → FV) (n m : Nat) (hm : m ≤ 15) (x : Nat × Nat) :
    ((List.range m).map (16 * n + ·)).foldl (plainStep p k pr) x
      = ((List.range m).foldl (fun fa i => fa24Add fa (pr (16 * n + i))) x.1, x.2) := by
  induction m with
  | zero => rfl
  | succ m ih =>
    have hin : ¬ (16 * n + m + 1) % 16 = 0 := by omega
    rw [List.range_succ, List.map_append, List.foldl_append, ih (by omega), List.foldl_append]
    simp [plainStep, hin]

/-- A k-step: its products in ascending k, and the promotion after it. -/
theorem foldl_plainStep_step (p steps : Nat) (pr : Nat → FV) (n : Nat) (x : Nat × Nat) :
    ((List.range 16).map (16 * n + ·)).foldl (plainStep p (16 * steps) pr) x =
      if (n + 1) % p = 0 ∨ n + 1 = steps then (0, promoted x.2 (stepSum pr x.1 n)) else (stepSum pr x.1 n, x.2) := by
  have hend : (16 * n + 15 + 1) % 16 = 0 := by omega
  have hstep : (16 * n + 15 + 1) / 16 = n + 1 := by omega
  have hlast : 16 * n + 15 + 1 = 16 * steps ↔ n + 1 = steps := by omega
  have hsum : stepSum pr x.1 n
      = fa24Add ((List.range 15).foldl (fun fa i => fa24Add fa (pr (16 * n + i))) x.1) (pr (16 * n + 15)) := rfl
  rw [show List.range 16 = List.range 15 ++ [15] from rfl, List.map_append, List.foldl_append,
    foldl_plainStep_inside _ _ _ _ _ (le_refl 15), hsum]
  simp [plainStep, hend, hstep, hlast]

theorem foldl_plainStep (p steps : Nat) (pr : Nat → FV) (c n : Nat) :
    (List.range (16 * n)).foldl (plainStep p (16 * steps) pr) (0, c) = floatSum p steps pr c n := by
  induction n with
  | zero => rfl
  | succ n ih =>
    rw [Nat.mul_succ, List.range_add, List.foldl_append, ih, foldl_plainStep_step]
    rfl

theorem floatSum_congr {p steps c : Nat} {pr pr' : Nat → FV} (n : Nat) (h : ∀ i < 16 * n, pr i = pr' i) :
    floatSum p steps pr c n = floatSum p steps pr' c n := by
  induction n with
  | zero => rfl
  | succ n ih =>
    have hstep (fa : Nat) : stepSum pr fa n = stepSum pr' fa n := by
      rw [stepSum, stepSum]
      refine List.foldl_ext _ _ _ fun fa i hi => ?_
      have := List.mem_range.1 hi
      rw [h (16 * n + i) (by omega)]
    simp only [floatSum, ih fun i hi => h i (by omega), hstep]

/-- A dot product without block scales over whole k-steps is the sum of R94. -/
theorem dotFloat_eq_floatSum {fb : DWord} (hbl : fbBL fb = 0) {k : Nat} (hk : k % 16 = 0) {a b : Nat → FV} {pr : Nat → FV}
    (hpr : ∀ i < k, xmul (a i) (b i) = pr i) (sa sb : Nat → Option Int) (c : Nat) :
    (dotFloat fb k a b sa sb c).c = (floatSum (2 ^ fbPI fb) (k / 16) pr c (k / 16)).2 := by
  have hk16 : 16 * (k / 16) = k := by omega
  have hsum := foldl_plainStep (2 ^ fbPI fb) (k / 16) (fun i => xmul (a i) (b i)) c (k / 16)
  rw [hk16] at hsum
  rw [dotFloat_eq_foldl hbl, hsum, floatSum_congr (k / 16) fun i hi => hpr i (by omega)]

/-! ### Operands without old bytes -/

theorem opGet_of_no_olds {s : State} {e : MEntry} (h : e.olds = []) (sp : Space) (lo n : Nat) : s.opGet e sp lo n = s.bufGet e.wg sp lo n := by
  simp [State.opGet, h]

@[simp] theorem length_tileWords (s : State) (e : MEntry) (t : Nat) : (s.tileWords e t).length = 256 := by simp [State.tileWords]

theorem fmtVal_float {fmt : Nat} (h : fmt < 4) (code x : Nat) : fmtVal fmt code x = floatOf fmt code := by
  interval_cases fmt <;> rfl

theorem fmtBits_float {fmt : Nat} (h : fmt < 4) : fmtBits fmt = 8 * (fmtBits fmt / 8) := by
  interval_cases fmt <;> rfl

theorem not_fbIsInt_float {fmt : Nat} (h : fmt < 4) : fbIsInt fmt = false := by
  interval_cases fmt <;> rfl

/-- A compressed byte is one: eight planes. -/
theorem keptCode_lt {s : State} {wg b n k j c : Nat} (h : s.keptCode wg b 8 n k j = some c) : c < 256 := by
  simp only [State.keptCode] at h
  split at h
  · obtain rfl := Option.some.inj h
    exact sum_bits_lt _ (fun _ => bitW_le_one _ _ _ _) 8
  · cases h

/-! ### One element of an mma (R213, R214, R227) -/

theorem getD_mmaTile (e : MEntry) (o : MOps) (sp : Bool) (c : List Word) {i j : Nat} (hi : i < 16) (hj : j < 16) :
    (e.mmaTile o sp c).1.getD (16 * i + j) 0 = (e.mmaEl o sp i j (c.getD (16 * i + j) 0)).1 := by
  have hlt : 16 * i + j < 256 := by omega
  have hrow : (16 * i + j) / 16 = i := by omega
  have hcol : (16 * i + j) % 16 = j := by omega
  simp [MEntry.mmaTile, hlt, hrow, hcol]

section
variable {s : State} {core : Nat} {e : MEntry} {i j : Nat}

/-- A signed byte of A. -/
theorem fmtInt_codeA (holds : e.olds = []) (haf : fbAF e.fb = 8) (hi : i < 16) {kk : Nat} (hkk : kk < e.k) (sp : Bool) :
    fmtInt (fbAF e.fb) 0 (codeA e.fb e.k (s.mOps core e sp).a i kk) = (s.byteAt e.wg .a (e.sa + i * e.k + kk)).toInt := by
  rw [State.mOps, opGet_of_no_olds holds, codeA_eq (n := 1) (by rw [haf]; rfl) hi hkk, rowCode_byte, haf, fmtInt_i8, intOf_byte_toNat]

theorem mmaEl_i8 (holds : e.olds = []) (haf : fbAF e.fb = 8) (hbf : fbBF e.fb = 8) (hprec : fbPrec e.fb = 0) (hpro : fbPro e.fb = false)
    (hk : e.k % 16 = 0) (hi : i < 16) (hj : j < 16) (c : Word) :
    (e.mmaEl (s.mOps core e false) false i j c).1 = BitVec.ofInt 32 (c.toInt + ((List.range e.k).map fun k =>
      (s.byteAt e.wg .a (e.sa + i * e.k + k)).toInt * s.planeInt8 e.wg e.sb k j).sum) := by
  have hint : fbIsInt (fbAF e.fb) = true := by rw [haf]; rfl
  rw [MEntry.mmaEl, if_pos hint, dotInt_word]
  congr 3
  refine List.map_congr_left fun k hk' => ?_
  have hk' : k < e.k := List.mem_range.1 hk'
  have hB : e.intB (s.mOps core e false) false k j = s.planeInt8 e.wg e.sb k j := by
    have hcode : s.planeCode e.wg e.sb 8 k j < 256 := sum_bits_lt _ (fun _ => bitW_le_one _ _ _ _) 8
    have hbits : fmtBits 8 = 8 := rfl
    simp only [MEntry.intB, State.mOps, Bool.false_eq_true, ↓reduceIte]
    rw [codeB_eq hpro hk hk' hj, hprec, hbf, hbits, fmtInt_i8, intOf_byte hcode, planeInt8_eq]
  rw [fmtInt_codeA holds haf hi hk', hB]

theorem mmaEl_i8_sparse (holds : e.olds = []) (haf : fbAF e.fb = 8) (hbf : fbBF e.fb = 8) (hpro : fbPro e.fb = false)
    (hk : e.k % 16 = 0) (hi : i < 16) (hj : j < 16) (c : Word) :
    (e.mmaEl (s.mOps core e true) true i j c).1 = BitVec.ofInt 32 (c.toInt + ((List.range e.k).map fun k =>
      (s.byteAt e.wg .a (e.sa + i * e.k + k)).toInt * ((s.keptCode e.wg e.sb 8 (2 ^ fbSPN e.fb) k j).map int8).getD 0).sum) := by
  have hint : fbIsInt (fbAF e.fb) = true := by rw [haf]; rfl
  rw [MEntry.mmaEl, if_pos hint, dotInt_word]
  congr 3
  refine List.map_congr_left fun k hk' => ?_
  have hk' : k < e.k := List.mem_range.1 hk'
  have hbits : fmtBits (fbBF e.fb) = 8 := by rw [hbf]; rfl
  have hcode : codeSp e.fb (s.mOps core e true).b k j = s.keptCode e.wg e.sb 8 (2 ^ fbSPN e.fb) k j := by
    rw [State.mOps, codeSp_eq hpro hk hk' hj, hbits]
  have hB : e.intB (s.mOps core e true) true k j = ((s.keptCode e.wg e.sb 8 (2 ^ fbSPN e.fb) k j).map int8).getD 0 := by
    rw [MEntry.intB, if_pos rfl, hcode, hbf]
    cases hc : s.keptCode e.wg e.sb 8 (2 ^ fbSPN e.fb) k j with
    | none => rfl
    | some c => exact intOf_byte (keptCode_lt hc)
  rw [fmtInt_codeA holds haf hi hk', hB]

/-- A float element of A without a block scale. -/
theorem elA_float (holds : e.olds = []) (haf : fbAF e.fb < 4) (hi : i < 16) {kk : Nat} (hkk : kk < e.k) (sp : Bool) :
    e.elA (s.mOps core e sp) i kk = floatOf (fbAF e.fb) (s.rowCode e.wg e.sa (fmtBits (fbAF e.fb) / 8) e.k i kk) := by
  rw [MEntry.elA, fmtVal_float haf, State.mOps, opGet_of_no_olds holds, codeA_eq (fmtBits_float haf) hi hkk]

theorem elB_float (hbf : fbBF e.fb < 4) (hpro : fbPro e.fb = false) (hk : e.k % 16 = 0) (hj : j < 16) {kk : Nat} (hkk : kk < e.k) :
    e.elB (s.mOps core e false) false kk j = floatOf (fbBF e.fb) (s.planeCode e.wg e.sb (fmtBits (fbBF e.fb)) kk j) := by
  simp only [MEntry.elB, hpro, Bool.false_eq_true, ↓reduceIte, State.mOps, fmtVal_float hbf]
  rw [codeB_eq hpro hk hkk hj]

theorem elB_float_sparse (hbf : fbBF e.fb < 4) (hpro : fbPro e.fb = false) (hk : e.k % 16 = 0) (hj : j < 16) {kk : Nat} (hkk : kk < e.k) :
    e.elB (s.mOps core e true) true kk j
      = ((s.keptCode e.wg e.sb (fmtBits (fbBF e.fb)) (2 ^ fbSPN e.fb) kk j).map (floatOf (fbBF e.fb))).getD (.fin false 0 0) := by
  simp only [MEntry.elB, hpro, Bool.false_eq_true, ↓reduceIte, State.mOps, fmtVal_float hbf]
  rw [codeSp_eq hpro hk hkk hj]
  cases s.keptCode e.wg e.sb (fmtBits (fbBF e.fb)) (2 ^ fbSPN e.fb) kk j <;> rfl

/-- A float element of the tile: R94's sum of the products of its row of A and its column of B. -/
theorem mmaEl_float (haf : fbAF e.fb < 4) (hbl : fbBL e.fb = 0) (hk : e.k % 16 = 0) {o : MOps} {sp : Bool} {pr : Nat → FV}
    (hpr : ∀ k < e.k, xmul (e.elA o i k) (e.elB o sp k j) = pr k) (c : Word) :
    (e.mmaEl o sp i j c).1 = w32 (floatSum (2 ^ fbPI e.fb) (e.k / 16) pr c.toNat (e.k / 16)).2 := by
  rw [MEntry.mmaEl, if_neg (by simp [not_fbIsInt_float haf])]
  exact congrArg w32 (dotFloat_eq_floatSum hbl hk hpr _ _ _)

/-! ### One element of a vmx (R228) -/

theorem getD_vmxRow (haf : fbAF e.fb < 4) (hbf : fbBF e.fb < 4) (hbl : fbBL e.fb = 0) (hpro : fbPro e.fb = false) (hk : e.k % 16 = 0)
    (x : List (List Word)) (t a : Nat) (hj : j < 16) :
    (e.vmxRow x t (leNat (s.bufGet e.wg .w a (bytesB e.fb e.k false)))).1.getD j 0 =
      w32 (floatSum (2 ^ fbPI e.fb) (e.k / 16) (fun k => xmul (floatOf (fbAF e.fb) (el16 ((x.getD (k / 2) []).getD t 0) (k % 2)))
        (floatOf (fbBF e.fb) (s.planeCode e.wg a (fmtBits (fbBF e.fb)) k j))) 0 (e.k / 16)).2 := by
  simp only [MEntry.vmxRow, List.map_map, List.getD_eq_getElem?_getD, List.getElem?_map, List.getElem?_range hj, Option.map_some,
    Option.getD_some, Function.comp_apply]
  congr 1
  refine dotFloat_eq_floatSum hbl hk (fun k hk' => ?_) _ _ _
  rw [fmtVal_float haf, fmtVal_float hbf, codeB_eq hpro hk hk' hj]
  rfl

end

end Sys2Proof.Proofs
end

section
/-! The order of amax (R231): a rank of each value, and the running argmax as the greatest of its candidates. -/

namespace Sys2Proof.Proofs
open Sys2Proof Sys2Proof.Machine

/-! ### The order of float values (R114, R231) -/

/-- ±(m × 2^e) as a rational number. -/
def finValue (neg : Bool) (m : Nat) (e : Int) : ℚ := (if neg then -1 else 1) * m * (2 : ℚ) ^ e

/-- The place of a value in the order of amax: -∞, the numbers, +∞, and NaN above them all. -/
def rankOf : FV → ℕ ×ₗ ℚ
  | .inf true => toLex (0, 0)
  | .fin n m e => toLex (1, finValue n m e)
  | .inf false => toLex (2, 0)
  | .nan _ => toLex (3, 0)

theorem cast_scaled (n : Bool) (m : Nat) {e q : Int} (h : q ≤ e) : (scaled n m e q : ℚ) = finValue n m e * (2 : ℚ) ^ (-q) := by
  have hpow : ((2 ^ (e - q).toNat : Nat) : ℚ) = (2 : ℚ) ^ e * (2 : ℚ) ^ (-q) := by
    rw [← zpow_add₀ (by norm_num), Nat.cast_pow, ← zpow_natCast, Int.toNat_of_nonneg (by omega)]
    rfl
  cases n <;> simp only [scaled, finValue, Bool.false_eq_true, ↓reduceIte, Int.cast_neg, Int.cast_natCast, Nat.cast_mul,
    Int.cast_mul, hpow] <;> ring

theorem scaled_lt_iff {n k : Bool} {m l : Nat} {e g q : Int} (he : q ≤ e) (hg : q ≤ g) :
    scaled n m e q < scaled k l g q ↔ finValue n m e < finValue k l g := by
  rw [← Int.cast_lt (R := ℚ), cast_scaled n m he, cast_scaled k l hg, mul_lt_mul_iff_left₀ (zpow_pos (by norm_num) _)]

theorem minI_le_left (a b : Int) : minI a b ≤ a := by unfold minI; split <;> omega
theorem minI_le_right (a b : Int) : minI a b ≤ b := by unfold minI; split <;> omega

/-- The order of two values of which none is NaN. -/
theorem fltZ_iff {a b : FV} (ha : a.isNan = false) (hb : b.isNan = false) : fltZ false a b = true ↔ rankOf a < rankOf b := by
  match a, b, ha, hb with
  | .inf n, .inf k, _, _ => cases n <;> cases k <;> simp [fltZ, rankOf, Prod.Lex.toLex_lt_toLex]
  | .inf n, .fin k l g, _, _ => cases n <;> simp [fltZ, rankOf, Prod.Lex.toLex_lt_toLex]
  | .fin n m e, .inf k, _, _ => cases k <;> simp [fltZ, rankOf, Prod.Lex.toLex_lt_toLex]
  | .fin n m e, .fin k l g, _, _ =>
    have hlt := scaled_lt_iff (n := n) (k := k) (m := m) (l := l) (minI_le_left e g) (minI_le_right e g)
    simp only [fltZ, rankOf, Prod.Lex.toLex_lt_toLex, lt_irrefl, true_and, false_or, ← hlt, Bool.false_and]
    split
    · rename_i hz
      simp only [Bool.and_eq_true, decide_eq_true_eq] at hz
      simp [hz.1, hz.2]
    · simp

theorem fltZ_nan (a : FV) (n : Bool) : fltZ false a (.nan n) = false := by cases a <;> rfl

/-- A bound of the same rank bounds the same values. -/
theorem fltZ_congr {a a' : FV} (ha : a.isNan = false) (ha' : a'.isNan = false) (h : rankOf a = rankOf a') (v : FV) :
    fltZ false a v = fltZ false a' v := by
  match v with
  | .nan n => rw [fltZ_nan, fltZ_nan]
  | .inf n => rw [Bool.eq_iff_iff, fltZ_iff ha rfl, fltZ_iff ha' rfl, h]
  | .fin n m e => rw [Bool.eq_iff_iff, fltZ_iff ha rfl, fltZ_iff ha' rfl, h]

/-! ### The running argmax (R231) -/

/-- The place of a word in the order of amax. -/
def amaxRank (i32 : Bool) (v : Word) : ℕ ×ₗ ℚ := if i32 then toLex (1, (v.toInt : ℚ)) else rankOf (decode f32 v.toNat)

theorem isNan_iff_rank (v : FV) : v.isNan = true ↔ rankOf v = toLex (3, 0) := by
  match v with
  | .nan _ => simp [FV.isNan, rankOf]
  | .inf true => simp [FV.isNan, rankOf]
  | .inf false => simp [FV.isNan, rankOf]
  | .fin _ _ _ => simp [FV.isNan, rankOf]

theorem rank_le_nan (v : FV) : rankOf v ≤ toLex (3, 0) := by
  match v with
  | .nan _ => simp [rankOf]
  | .inf true => simp [rankOf, Prod.Lex.toLex_le_toLex]
  | .inf false => simp [rankOf, Prod.Lex.toLex_le_toLex]
  | .fin _ _ _ => simp [rankOf, Prod.Lex.toLex_le_toLex]

theorem amaxGt_iff (i32 : Bool) (v w : Word) : amaxGt i32 v w = true ↔ amaxRank i32 w < amaxRank i32 v := by
  cases i32 with
  | true => simp [amaxGt, amaxRank, Prod.Lex.toLex_lt_toLex]
  | false =>
    simp only [amaxGt, amaxRank, Bool.false_eq_true, ↓reduceIte]
    generalize decode f32 v.toNat = a
    generalize decode f32 w.toNat = b
    cases ha : a.isNan with
    | true =>
      rw [if_pos rfl, (isNan_iff_rank a).1 ha, lt_iff_le_and_ne, Bool.not_eq_true', ← Bool.not_eq_true, isNan_iff_rank]
      simp [rank_le_nan]
    | false =>
      rw [if_neg (by simp)]
      cases hb : b.isNan with
      | true => simpa [(isNan_iff_rank b).1 hb] using rank_le_nan a
      | false => rw [if_neg (by simp), fltZ_iff hb ha]

theorem amaxEq_iff (i32 : Bool) (v w : Word) : amaxEq i32 v w = true ↔ amaxRank i32 v = amaxRank i32 w := by
  simp only [amaxEq, Bool.and_eq_true, Bool.not_eq_true', ← Bool.not_eq_true, amaxGt_iff, not_lt]
  exact ⟨fun h => le_antisymm h.1 h.2, fun h => ⟨h.le, h.ge⟩⟩

/-- w is the greatest of some pairs, with the lowest index among equals. -/
def Best (i32 : Bool) (l : List (Word × Word)) (w : Word × Word) : Prop :=
  w ∈ l ∧ ∀ c ∈ l, amaxGt i32 c.1 w.1 = false ∧ (amaxGt i32 w.1 c.1 = false → w.2.toNat ≤ c.2.toNat)

/-- What one candidate makes of the pair so far. -/
def amaxStep (i32 : Bool) (b c : Word × Word) : Word × Word :=
  if amaxGt i32 c.1 b.1 || (amaxEq i32 c.1 b.1 && decide (c.2.toNat < b.2.toNat)) then c else b

theorem best_iff {i32 : Bool} {l : List (Word × Word)} {w : Word × Word} : Best i32 l w ↔ w ∈ l ∧ ∀ c ∈ l,
    amaxRank i32 c.1 ≤ amaxRank i32 w.1 ∧ (amaxRank i32 c.1 = amaxRank i32 w.1 → w.2.toNat ≤ c.2.toNat) := by
  simp only [Best, ← Bool.not_eq_true, amaxGt_iff, not_lt]
  refine and_congr_right fun _ => forall₂_congr fun c _ => and_congr_right fun hle => ?_
  exact ⟨fun h he => h he.ge, fun h hge => h (le_antisymm hle hge)⟩

theorem best_amaxStep {i32 : Bool} {l : List (Word × Word)} {b : Word × Word} (h : Best i32 l b) (c : Word × Word) :
    Best i32 (l ++ [c]) (amaxStep i32 b c) := by
  rw [best_iff] at h ⊢
  obtain ⟨hmem, hmax⟩ := h
  simp only [amaxStep, Bool.or_eq_true, Bool.and_eq_true, amaxGt_iff, amaxEq_iff, decide_eq_true_eq, List.mem_append, List.mem_singleton]
  split
  · rename_i hbetter
    refine ⟨.inr rfl, ?_⟩
    rintro x (hx | rfl)
    · obtain ⟨hle, hix⟩ := hmax x hx
      rcases hbetter with hgt | ⟨heq, hlt⟩
      · exact ⟨hle.trans hgt.le, fun he => absurd (he ▸ hle) (not_le.2 hgt)⟩
      · refine ⟨heq ▸ hle, fun he => ?_⟩
        have := hix (he.trans heq)
        omega
    · exact ⟨le_rfl, fun _ => le_rfl⟩
  · rename_i hworse
    obtain ⟨hle, hix⟩ := not_or.1 hworse
    refine ⟨.inl hmem, ?_⟩
    rintro x (hx | rfl)
    · exact hmax x hx
    · exact ⟨not_lt.1 hle, fun he => not_lt.1 fun hlt => hix ⟨he, hlt⟩⟩

theorem best_foldl (i32 : Bool) (init : Word × Word) (cs : List (Word × Word)) : Best i32 (init :: cs) (cs.foldl (amaxStep i32) init) := by
  suffices h : ∀ (l : List (Word × Word)) (b : Word × Word), Best i32 l b → Best i32 (l ++ cs) (cs.foldl (amaxStep i32) b) by
    exact h [init] init (best_iff.2 ⟨by simp, by simp⟩)
  induction cs with
  | nil => intro l b h; simpa using h
  | cons c cs ih =>
    intro l b h
    simpa using ih _ _ (best_amaxStep h c)

/-- The pair of one thread after a row: the greatest of its own pair and the row's, with the lowest index. -/
theorem best_amaxRow (i32 : Bool) (base : Word) (row : List Word) (init : Word × Word) :
    Best i32 (init :: (List.range 16).map fun j => (row.getD j 0, base + BitVec.ofNat 32 j)) (amaxRow i32 base row init) := by
  have h := best_foldl i32 init ((List.range 16).map fun j => (row.getD j 0, base + BitVec.ofNat 32 j))
  rwa [List.foldl_map] at h

end Sys2Proof.Proofs
end

section
/-! The epilogue and amax on a whole tile (R230, R231). -/

namespace Sys2Proof.Proofs
open Sys2Proof Sys2Proof.Machine

/-! ### The epilogue (R230) -/

/-- Decoding looks at the sign bit and the bits below it. -/
theorem decode_mod (n : Nat) : decode f32 (n % 2 ^ 32) = decode f32 n := by
  have hsign : (n % 2 ^ 32).testBit f32.sbit = n.testBit f32.sbit := by
    rw [Nat.testBit_mod_two_pow, decide_eq_true (by decide), Bool.true_and]
  have hmag : n % 2 ^ 32 % 2 ^ f32.sbit = n % 2 ^ f32.sbit := Nat.mod_mod_of_dvd n (pow_dvd_pow 2 (by decide))
  simp only [decode, hsign, hmag]

@[simp] theorem decode_w32 (n : Nat) : decode f32 (w32 n).toNat = decode f32 n := by
  rw [w32, BitVec.toNat_ofNat, decode_mod]

theorem w32_toNat (x : Word) : w32 x.toNat = x := by simp [w32]

theorem rankOf_zero : rankOf (decode f32 0) = rankOf (.fin false 0 0) := by
  rw [show decode f32 0 = .fin false 0 (-149) by decide]
  simp [rankOf, finValue]

theorem rankOf_six : rankOf (decode f32 0x40C00000) = rankOf (.fin false 6 0) := by
  rw [show decode f32 0x40C00000 = .fin false 0xC00000 (-21) by decide]
  norm_num [rankOf, finValue]

theorem actOf_w32 (a : Act) (y : Nat) : actOf a (w32 y) = w32 (activated a y) := by
  have hzero (v : FV) : fltZ false (.fin false 0 0) v = fltZ false (decode f32 0) v := fltZ_congr rfl (by decide) rankOf_zero.symm v
  have hsix (v : FV) : fltZ false (.fin false 6 0) v = fltZ false (decode f32 0x40C00000) v := fltZ_congr rfl (by decide) rankOf_six.symm v
  cases a with
  | none => rfl
  | relu =>
    simp only [actOf, activated, decode_w32, hzero]
    split <;> rfl
  | clamp6 =>
    simp only [actOf, activated, decode_w32, hzero, hsix]
    split
    · split <;> rfl
    · rfl
  | tanh => exact (w32_toNat _).symm

theorem leBytes_mod (n v : Nat) : leBytes n (v % 256 ^ n) = leBytes n v := by
  induction n generalizing v with
  | zero => rfl
  | succ n ih =>
    have hlow : v % (256 * 256 ^ n) % 256 = v % 256 := Nat.mod_mod_of_dvd v (dvd_mul_right 256 _)
    have hbyte : BitVec.ofNat 8 (v % (256 * 256 ^ n)) = BitVec.ofNat 8 v := by
      apply BitVec.eq_of_toNat_eq
      simp
    rw [leBytes, leBytes, pow_succ', hbyte, Nat.mod_mul_right_div_self, ih]

/-- The bytes of a stored element. -/
theorem leBytes_epiCode (f : EpiFmt) (y : Nat) : leBytes (epiSize f) (epiCode f (w32 y)).1 = leBytes (epiSize f) (epiStored f y) := by
  cases f with
  | f32 => exact leBytes_mod 4 y
  | f16 | bf16 | e4m3 | e5m2 | i8 | n8 => simp [epiCode, epiStored]

theorem drop_take_flatMap {α β : Type} {g : α → List β} {n : Nat} (hg : ∀ x, (g x).length = n) (l : List α) (i : Nat) (h : i < l.length) :
    ((l.flatMap g).drop (i * n)).take n = g l[i] := by
  induction l generalizing i with
  | nil => simp at h
  | cons x l ih =>
    cases i with
    | zero => simp [← hg x]
    | succ i =>
      have hdrop : (i + 1) * n = (g x).length + i * n := by rw [hg]; ring
      rw [List.flatMap_cons, hdrop, List.drop_length_add_append]
      exact ih i (by simpa using h)

theorem length_epiEl (f : EpiFmt) (x : Nat × Nat) : (leBytes (epiSize f) x.1).length = epiSize f := length_leBytes _ _

/-- A word of the parameters. -/
theorem decode_fieldAt {s : State} {wg lo n o : Nat} (h : o + 4 ≤ n) : decode f32 (w32 (fieldAt (s.bufGet wg .a lo n) o 4)).toNat =
    decode f32 (leNat ((List.range 4).map fun x => s.byteAt wg .a (lo + o + x))) := by
  rw [decode_w32, fieldAt, drop_take_bufGet h]

/-- The epilogue's f32 value before its conversion: converted, scaled and biased with one rounding (R230). -/
def epiValue (i32 : Bool) (x : Word) (sc bi : FV) : Nat :=
  roundTo f32 Mods.plain 0
    (xadd false (xmul (if i32 then decode f32 (roundTo f32 Mods.plain 0 (XV.ofInt x.toInt)) else decode f32 x.toNat) sc) bi).toX

theorem leBytes_epiEl (i32 : Bool) (act : Act) (f : EpiFmt) (x sc bi : Word) : leBytes (epiSize f) (epiEl i32 act f x sc bi).1 =
    leBytes (epiSize f) (epiStored f (activated act (epiValue i32 x (decode f32 sc.toNat) (decode f32 bi.toNat)))) := by
  rw [← leBytes_epiCode, ← actOf_w32, epiValue]
  cases i32 <;> rfl

/-- The bytes of one element of the epilogue of a tile. -/
theorem drop_take_epiBytesOf (i32 : Bool) (act : Act) (f : EpiFmt) (tiles : List Word) (prm : List Byte) {i j : Nat} (hj : j < 16)
    (h : 16 * i + j < tiles.length) : ((epiBytesOf i32 act f tiles prm).1.drop ((16 * i + j) * epiSize f)).take (epiSize f) =
      leBytes (epiSize f) (epiEl i32 act f (tiles.getD (16 * i + j) 0) (w32 (fieldAt prm (4 * j) 4)) (w32 (fieldAt prm (64 + 4 * j) 4))).1 := by
  have hcol : (16 * i + j) % 16 * 4 = 4 * j := by omega
  rw [epiBytesOf, drop_take_flatMap (length_epiEl f) _ _ (by simpa using h)]
  simp only [List.getElem_map, List.getElem_range, hcol]

theorem mResult_aepi {s : State} {core : Nat} {e : MEntry} {act : Act} {f : EpiFmt} {i j : Nat} (hkind : e.kind = .aepi act false f)
    (hcnt : e.cnt = 1) (holds : e.olds = []) (hi : i < 16) (hj : j < 16) :
    (((s.mResult core e).1.getD 0 []).drop ((16 * i + j) * epiSize f)).take (epiSize f) =
      (leBytes (epiSize f) (epiStored f (activated act (epiValue ((s.byteAt e.wg .a (e.sb + 128)).getLsbD 0) ((s.tileWords e e.tile).getD (16 * i + j) 0)
        (decode f32 (leNat ((List.range 4).map fun x => s.byteAt e.wg .a (e.sb + 4 * j + x))))
        (decode f32 (leNat ((List.range 4).map fun x => s.byteAt e.wg .a (e.sb + 64 + 4 * j + x)))))))).map fun b => b.setWidth 32 := by
  have hflag : (s.bufGet e.wg .a e.sb 160).getD 128 0 = s.byteAt e.wg .a (e.sb + 128) := getD_bufGet (by decide)
  simp only [State.mResult, hkind, hcnt, opGet_of_no_olds holds, hflag, List.range_one, List.flatMap_cons, List.flatMap_nil, List.append_nil,
    Nat.add_zero, Bool.false_eq_true, ↓reduceIte, List.getD_cons_zero, ← List.map_drop, ← List.map_take]
  rw [drop_take_epiBytesOf _ _ _ _ _ hj (by rw [length_tileWords]; omega), leBytes_epiEl, decode_fieldAt (by omega), decode_fieldAt (by omega), Nat.add_assoc e.sb 64]

theorem mResult_amax {s : State} {core : Nat} {e : MEntry} {i32 : Bool} {base : Word} {init : List (Word × Word)} {t : Nat}
    (hkind : e.kind = .amax i32 base init) (ht : t < 32) :
    Best i32 (init.getD t (0, 0) :: (List.range 16).map fun j => ((s.tileWords e e.tile).getD (16 * (t % 16) + j) 0, base + BitVec.ofNat 32 j))
      (((s.mResult core e).1.getD 0 []).getD t 0, ((s.mResult core e).1.getD 1 []).getD t 0) := by
  have hrow (j : Nat) : ((s.tileWords e e.tile).drop (t % 16 * 16)).getD j 0 = (s.tileWords e e.tile).getD (16 * (t % 16) + j) 0 := by
    simp [List.getD_eq_getElem?_getD, Nat.mul_comm]
  have h := best_amaxRow i32 base ((s.tileWords e e.tile).drop (t % 16 * 16)) (init.getD t (0, 0))
  simp only [hrow] at h
  simpa [State.mResult, hkind, ht] using h

end Sys2Proof.Proofs
end

section
/-! What the operations on the array's queue do and leave alone: its entries, the waves, the workgroups (R205, R207). -/

namespace Sys2Proof.Proofs
open Sys2Proof Sys2Proof.Machine

/-! ### What the array's operations leave alone -/

theorem mq_modCore_keep (s : State) (k j : Nat) {f : Core → Core} (hf : ∀ c, (f c).mq = c.mq) : ((s.modCore k f).core j).mq = (s.core j).mq := by
  by_cases h : j = k
  · subst h; rw [State.core_modCore, hf]
  · rw [State.core_modCore_ne _ _ h]

theorem waves_modCore_keep (s : State) (k j : Nat) {f : Core → Core} (hf : ∀ c, (f c).waves = c.waves) :
    ((s.modCore k f).core j).waves = (s.core j).waves := by
  by_cases h : j = k
  · subst h; rw [State.core_modCore, hf]
  · rw [State.core_modCore_ne _ _ h]

theorem wave?_of_waves {s t : State} {k : Nat} (h : (t.core k).waves = (s.core k).waves) (ctx : Nat) : t.wave? k ctx = s.wave? k ctx := by
  rw [State.wave?, h, State.wave?]

theorem wg_of_wgs {s t : State} (h : t.wgs = s.wgs) (k : Nat) : t.wg k = s.wg k := by rw [State.wg, h, State.wg]

theorem mEntry?_of_mq {s t : State} {k : Nat} (h : (t.core k).mq = (s.core k).mq) (qid : Nat) : t.mEntry? k qid = s.mEntry? k qid := by
  rw [State.mEntry?, h, State.mEntry?]

@[simp] theorem mq_modCluster (s : State) (k j : Nat) (f : Cluster → Cluster) : ((s.modCluster k f).core j).mq = (s.core j).mq := by
  simp only [State.core, State.modCluster_cores]
  cases look s.cores j <;> rfl
@[simp] theorem waves_modCluster (s : State) (k j : Nat) (f : Cluster → Cluster) : ((s.modCluster k f).core j).waves = (s.core j).waves := by
  simp only [State.core, State.modCluster_cores]
  cases look s.cores j <;> rfl

@[simp] theorem mq_modWave (s : State) (k j ctx : Nat) (f : Wave → Wave) : ((s.modWave k ctx f).core j).mq = (s.core j).mq :=
  mq_modCore_keep s k j fun _ => rfl
@[simp] theorem core_modWg (s : State) (k j : Nat) (f : WGrp → WGrp) : (s.modWg k f).core j = s.core j := rfl
@[simp] theorem core_modGrid (s : State) (k j : Nat) (f : Grid → Grid) : (s.modGrid k f).core j = s.core j := rfl

@[simp] theorem mq_tally (s : State) (k j ctx ev n : Nat) : ((s.tally k ctx ev n).core j).mq = (s.core j).mq :=
  mq_modCore_keep s k j fun _ => rfl
@[simp] theorem waves_tally (s : State) (k j ctx ev n : Nat) : ((s.tally k ctx ev n).core j).waves = (s.core j).waves :=
  waves_modCore_keep s k j fun _ => rfl
@[simp] theorem waves_freeCurrent (s : State) (k j : Nat) (r : Requester) (qid : Nat) :
    ((s.freeCurrent k r qid).core j).waves = (s.core j).waves := waves_modCluster _ _ _ _
@[simp] theorem waves_dropEntry (s : State) (k j qid : Nat) : ((s.dropEntry k qid).core j).waves = (s.core j).waves :=
  waves_modCore_keep s k j fun _ => rfl

@[simp] theorem wg_modGrid (s : State) (k j : Nat) (f : Grid → Grid) : (s.modGrid k f).wg j = s.wg j := rfl

theorem wave?_consumed (s : State) (e : MEntry) (j ctx : Nat) : (s.consumed e).wave? j ctx = s.wave? j ctx := rfl
theorem mq_discard (s : State) (k j wg : Nat) (id : Option Nat) : ((s.discard k wg id).core j).mq = (s.core j).mq :=
  mq_modCore_keep s k j fun _ => rfl

/-! ### A workgroup's accumulator tiles -/

theorem c_modWg (s : State) (k j : Nat) {f : WGrp → WGrp} (hf : ∀ g, (f g).c = g.c) : ((s.modWg k f).wg j).c = (s.wg j).c := by
  by_cases h : j = k
  · subst h
    simp only [State.wg, State.look_modWg]
    cases look s.wgs j with
    | none => rfl
    | some g => exact hf g
  · rw [State.wg_modWg_ne _ _ h]

theorem c_modTags (g : WGrp) (sp : Space) (ts : List Nat) (f : Tag → Tag) : (g.modTags sp ts f).c = g.c := WGrp.buf_modTags g sp .c ts f

theorem c_consumed (s : State) (e : MEntry) (j : Nat) : ((s.consumed e).wg j).c = (s.wg j).c :=
  c_modWg s e.wg j fun g => by rw [c_modTags, c_modTags]

theorem waves_dropOld (s : State) (k j wg : Nat) (sp : Space) (lo n : Nat) : ((s.dropOld k wg sp lo n).core j).waves = (s.core j).waves :=
  waves_modCore_keep s k j fun _ => rfl
theorem waves_putTile (s : State) (k j wg t : Nat) (ws : List Word) : ((s.putTile k wg t ws).core j).waves = (s.core j).waves :=
  waves_dropOld s k j wg .c (t * 1024) 1024
theorem wg_putTile {s : State} {wg : Nat} {g : WGrp} (k t : Nat) (ws : List Word) (h : look s.wgs wg = some g) : (s.putTile k wg t ws).wg wg =
    { g with c := g.c.puts (t * 1024) (ws.flatMap fun w => leBytes 4 w.toNat) } :=
  State.wg_modWg (s.dropOld k wg .c (t * 1024) 1024) _ h

/-! ### The end of an access -/

theorem reap_of_splits {s : State} {core ctx : Nat} {w : Wave} (hw : s.wave? core ctx = some w) (hs : w.splits ≠ []) : s.reap core ctx = s := by
  simp [State.reap, hw, List.isEmpty_iff, hs]

theorem mq_reap (s : State) (core ctx j : Nat) : ((s.reap core ctx).core j).mq = (s.core j).mq := by
  have herase (u : State) (w : Wave) : (((u.modCore core fun c => { c with waves := erase c.waves ctx }).noteLeft core w.prio).core j).mq
      = (u.core j).mq := by
    rw [State.noteLeft, mq_modCluster]
    exact mq_modCore_keep u core j fun _ => rfl
  unfold State.reap
  split
  · rfl
  · rename_i w _
    split
    · simp only
      split <;> simp [herase]
    · rfl

theorem c_reap (s : State) (core ctx j : Nat) : ((s.reap core ctx).wg j).c = (s.wg j).c := by
  have hleft (u : State) (w : Wave) : ((((u.modCore core fun c => { c with waves := erase c.waves ctx }).noteLeft core w.prio).modWg w.wg
      fun g => { g with live := g.live - 1 }).wg j).c = (u.wg j).c := c_modWg _ _ _ fun _ => rfl
  unfold State.reap
  split
  · rfl
  · rename_i w _
    split
    · simp only
      split
      · rw [wg_modGrid, c_modWg, hleft]
        exact fun _ => rfl
      · exact hleft s w
    · rfl

@[simp] theorem mq_completeAcc (s : State) (core ctx id j : Nat) (p : Path) : ((s.completeAcc core ctx id p).core j).mq = (s.core j).mq := by
  rw [State.completeAcc, mq_reap, mq_modWave]

theorem c_completeAcc (s : State) (core ctx id j : Nat) (p : Path) : ((s.completeAcc core ctx id p).wg j).c = (s.wg j).c := by
  rw [State.completeAcc, c_reap]
  rfl

/-- A wave with splits left loses the completed access, and stays. -/
theorem completeAcc_of_splits {s : State} {core ctx : Nat} {w : Wave} (hw : s.wave? core ctx = some w) (hs : w.splits ≠ []) (id : Nat) (p : Path) :
    (s.completeAcc core ctx id p).wave? core ctx = some ((w.modAcc id fun a => { a with done := true }).retire p) ∧
      (s.completeAcc core ctx id p).wgs = s.wgs := by
  have hw' : (s.modWave core ctx fun w => (w.modAcc id fun a => { a with done := true }).retire p).wave? core ctx
      = some ((w.modAcc id fun a => { a with done := true }).retire p) := by rw [State.wave?_modWave, hw]; rfl
  rw [State.completeAcc, reap_of_splits hw' hs]
  exact ⟨hw', rfl⟩

/-- The one access of a wave, completed. -/
theorem accs_retire_one {w : Wave} {a : Acc} (ha : w.accs = [a]) :
    ((w.modAcc a.id fun a => { a with done := true }).retire a.path).accs = [] := by
  simp [Wave.modAcc, Wave.retire, ha, retireList]

/-! ### Entries of the queue -/

theorem mEntry?_setEntry {s : State} {core : Nat} {e e' : MEntry} (h : s.mEntry? core e'.qid = some e) :
    (s.setEntry core e').mEntry? core e'.qid = some e' := by
  have hqid : e.qid = e'.qid := by simpa using List.find?_some h
  have hsame : ((fun x : MEntry => x.qid == e'.qid) ∘ fun x => if x.qid = e'.qid then e' else x) = fun x => x.qid == e'.qid := by
    funext x
    by_cases hx : x.qid = e'.qid <;> simp [hx]
  rw [State.mEntry?] at h
  rw [State.mEntry?, State.setEntry, State.core_modCore, List.find?_map, hsame, h]
  simp [hqid]

theorem mEntry?_dropEntry (s : State) (core qid : Nat) : (s.dropEntry core qid).mEntry? core qid = none := by
  simp [State.mEntry?, State.dropEntry]

theorem qid_ite {c : Prop} [Decidable c] {a b : MEntry} {q : Nat} (ha : a.qid = q) (hb : b.qid = q) : (if c then a else b).qid = q := by
  split
  · exact ha
  · exact hb

theorem qid_touched (e : MEntry) (wg : Nat) (sp : Space) (lo n : Nat) (by_ : Writer) (valid : Nat → Bool) :
    (e.touched wg sp lo n by_ valid).qid = e.qid := by
  refine qid_ite rfl ?_
  cases sp with
  | a => exact qid_ite rfl rfl
  | w => exact qid_ite rfl rfl
  | c => exact qid_ite (qid_ite rfl rfl) (qid_ite rfl rfl)

theorem mEntry?_touch (s : State) (core qid wg : Nat) (sp : Space) (lo n : Nat) (by_ : Writer) :
    (s.touch core wg sp lo n by_).mEntry? core qid = (s.mEntry? core qid).map fun e => e.touched wg sp lo n by_ fun t => ((s.wg wg).tag sp t).v := by
  simp only [State.mEntry?, State.touch, State.core_modCore, List.find?_map]
  congr 2
  funext e
  simp [qid_touched]

end Sys2Proof.Proofs
end

section
/-! The array's events on the instruction at the head of the queue (R205, R207, R216, R219, R224). -/

namespace Sys2Proof.Proofs
open Sys2Proof Sys2Proof.Machine

/-! ### The start of an instruction (R205, R219) -/

section
variable {s : State} {core : Nat} {e : MEntry} {rest : List MEntry}

theorem mEntry?_head (hq : (s.core core).mq = e :: rest) : s.mEntry? core e.qid = some e := by simp [State.mEntry?, hq]

theorem mayStart_of_ahead (h : s.ahead core e = []) : s.mayStart core e = true := by simp [State.mayStart, h]

theorem entries_of_unbound (hA : e.bindA = none) (hB : e.bindB = none) : e.entries = [] := by simp [MEntry.entries, hA, hB]

/-- The conditions of an instruction without scales, of which the current is granted. -/
theorem condsMet_of_unbound (htags : s.tagsReady e = true) (hgrant : e.grant = true) (hA : e.bindA = none) (hB : e.bindB = none) :
    s.condsMet core e = true := by
  simp [State.condsMet, htags, hgrant, State.sclMissing, entries_of_unbound hA hB]

/-- An entry that has started, with what it will write. -/
def begun (s : State) (core : Nat) (e : MEntry) : MEntry :=
  { e with started := true, result := (s.mResult core e).1, flags := w32 (s.mResult core e).2 }

/-- What an aepi that starts disturbs among the operands of others (R223). -/
def claimed (s : State) (core : Nat) (e : MEntry) : State :=
  match e.kind with
  | .aepi _ zc f => s.touch core e.wg .a e.dst (epiBytes zc f) .engine
  | _ => s

theorem claimed_mEntry? (hq : (s.core core).mq = e :: rest) : ∃ e', (claimed s core e).mEntry? core e.qid = some e' := by
  have hhead := mEntry?_head hq
  unfold claimed
  split
  · exact ⟨_, by rw [mEntry?_touch, hhead]; rfl⟩
  · exact ⟨e, hhead⟩

theorem claimed_wgs : (claimed s core e).wgs = s.wgs := by
  unfold claimed
  split <;> rfl

theorem wgs_modWg_fixed (s : State) (k : Nat) {f : WGrp → WGrp} (hf : ∀ g, f g = g) : (s.modWg k f).wgs = s.wgs := by
  refine (List.map_congr_left fun x _ => ?_).trans (List.map_id s.wgs)
  obtain ⟨j, g⟩ := x
  by_cases h : j = k <;> simp [h, hf]

/-- An instruction that starts and is not skipped. -/
theorem exec_matrixStart (hq : (s.core core).mq = e :: rest) (hns : e.started = false) (hahead : s.ahead core e = [])
    (hskip : s.skips e = false) (hquiet : e.quiet = false) (hconds : s.condsMet core e = true) :
    exec (.matrixStart core e.qid) s = .next (((((claimed s core e).modWg e.wg fun g =>
      g.modTags .a e.outTiles fun t => { t with v := false }).setEntry core (begun s core e)).tally core e.ctx 0x06 e.cycles)) := by
  change execMatrixStart core e.qid s = _
  refine event_some ?_
  simp only [mEntry?_head hq, hns, mayStart_of_ahead hahead, hconds, hskip, Bool.not_true, Bool.or_self, Bool.false_eq_true, ↓reduceIte]
  unfold MEntry.quiet at hquiet
  cases hk : e.kind <;> simp_all [claimed, begun]

/-- An instruction without scales starts with what `State.mResult` says it will write. -/
theorem runs_matrixStart (hq : (s.core core).mq = e :: rest) (hns : e.started = false) (hahead : s.ahead core e = [])
    (htags : s.tagsReady e = true) (hskip : s.skips e = false) (hgrant : e.grant = true) (hquiet : e.quiet = false)
    (hA : e.bindA = none) (hB : e.bindB = none) : Runs (.matrixStart core e.qid) s fun t =>
      t.mEntry? core e.qid = some (begun s core e) ∧ (e.outTiles = [] → t.wgs = s.wgs) := by
  refine ⟨_, exec_matrixStart hq hns hahead hskip hquiet (condsMet_of_unbound htags hgrant hA hB), ?_, fun hout => ?_⟩
  · obtain ⟨e', he'⟩ := claimed_mEntry? hq
    have hset := mEntry?_setEntry (s := (claimed s core e).modWg e.wg fun g => g.modTags .a e.outTiles fun t => { t with v := false })
      (e' := begun s core e) he'
    exact (mEntry?_of_mq (mq_tally _ _ _ _ _ _) _).trans hset
  · have hfix (g : WGrp) : (g.modTags .a e.outTiles fun t => { t with v := false }) = g := by rw [hout]; rfl
    exact (wgs_modWg_fixed _ _ hfix).trans claimed_wgs

/-- An mma whose A tiles are all zero-flagged ends at once (R219). -/
theorem exec_matrixStart_skip (hq : (s.core core).mq = e :: rest) {sp : Bool} (hkind : e.kind = .mma sp) (hns : e.started = false)
    (hahead : s.ahead core e = []) (htags : s.tagsReady e = true) (hskip : s.skips e = true) :
    exec (.matrixStart core e.qid) s = .next ((((((s.consumed e).orFlags core e.ctx flZskip).tally core e.ctx 0x07 1).freeCurrent core .matrix e.qid)
      |>.dropEntry core e.qid).completeAcc core e.ctx e.acc .m) := by
  have hconds : s.condsMet core e = true := by simp [State.condsMet, htags, hskip]
  change execMatrixStart core e.qid s = _
  refine event_some ?_
  simp only [mEntry?_head hq, hns, mayStart_of_ahead hahead, hconds, hskip, hkind, Bool.not_true, Bool.or_self, Bool.false_eq_true, ↓reduceIte]

theorem runs_matrixStart_skip (hq : (s.core core).mq = e :: rest) {sp : Bool} (hkind : e.kind = .mma sp) (hns : e.started = false)
    (hahead : s.ahead core e = []) (htags : s.tagsReady e = true) (hskip : s.skips e = true) :
    Runs (.matrixStart core e.qid) s fun t => t.mEntry? core e.qid = none ∧ (∀ g, (t.wg g).c = (s.wg g).c) ∧
      ∀ w, s.wave? core e.ctx = some w → w.splits ≠ [] → ∃ w', t.wave? core e.ctx = some w' ∧ w'.mflags = w.mflags ||| 32#32 := by
  refine ⟨_, exec_matrixStart_skip hq hkind hns hahead htags hskip, ?_, fun g => ?_, fun w hw hs => ?_⟩
  · rw [mEntry?_of_mq (mq_completeAcc _ _ _ _ _ _), mEntry?_dropEntry]
  · rw [c_completeAcc]
    refine (congrArg WGrp.c (wg_of_wgs (s := s.consumed e) ?_ g)).trans (c_consumed s e g)
    rfl
  · have hflags : ((s.consumed e).orFlags core e.ctx flZskip).wave? core e.ctx = some { w with mflags := w.mflags ||| w32 flZskip } := by
      rw [State.orFlags, State.wave?_modWave, wave?_consumed, hw]
      rfl
    have hlast : (((((s.consumed e).orFlags core e.ctx flZskip).tally core e.ctx 0x07 1).freeCurrent core .matrix e.qid).dropEntry core e.qid).wave?
        core e.ctx = some { w with mflags := w.mflags ||| w32 flZskip } := by
      rw [← hflags]
      exact wave?_of_waves (by simp) _
    exact ⟨_, (completeAcc_of_splits hlast hs e.acc .m).1, rfl⟩

/-! ### The scale cache (R216, R232) -/

/-- A scldef discards the cached lines of its identifier, and leaves the queue. -/
theorem runs_matrixStart_scldef (hq : (s.core core).mq = e :: rest) {id : Nat} (hkind : e.kind = .scldef id) (hns : e.started = false)
    (hahead : s.ahead core e = []) : Runs (.matrixStart core e.qid) s fun t => t.mEntry? core e.qid = none ∧
      (∀ l ∈ (t.core core).scl, l.id ≠ sclKey e.wg id) ∧ ∀ l ∈ (s.core core).scl, l.id ≠ sclKey e.wg id → l ∈ (t.core core).scl := by
  have hconds : s.condsMet core e = true := by simp [State.condsMet, MEntry.quiet, hkind]
  have hexec : exec (.matrixStart core e.qid) s = .next ((s.dropEntry core e.qid).discard core e.wg (some id)) := by
    change execMatrixStart core e.qid s = _
    refine event_some ?_
    simp only [mEntry?_head hq, hns, mayStart_of_ahead hahead, hconds, hkind, Bool.not_true, Bool.or_self, Bool.false_eq_true, ↓reduceIte]
  have hscl : (((s.dropEntry core e.qid).discard core e.wg (some id)).core core).scl
      = (s.core core).scl.filter fun x => x.id != sclKey e.wg id := by
    simp [State.discard, State.dropEntry]
  refine ⟨_, hexec, ?_, fun l hl => ?_, fun l hl hid => ?_⟩
  · rw [mEntry?_of_mq (mq_discard _ _ _ _ _), mEntry?_dropEntry]
  · rw [hscl] at hl
    simpa using (List.mem_filter.1 hl).2
  · rw [hscl]
    exact List.mem_filter.2 ⟨hl, by simpa using hid⟩

/-- A line that the first entry misses is read through the W port. -/
theorem runs_scaleLineFill (hq : (s.core core).mq = e :: rest) (hns : e.started = false) {x : Nat × SclBind × Nat}
    (hx : (s.sclMissing core e).find? (fun y => sclKey e.wg y.1 == sclKey e.wg x.1 && y.2.2 / 128 == x.2.2 / 128 && !s.sclOutside e y) = some x)
    (hloc : sclLocal x.2.1.desc = true) :
    Runs (.scaleLineFill core (sclKey e.wg x.1) (x.2.2 / 128)) s fun t => ∃ l, (t.core core).sclHit e.wg x.1 x.2.2 true = some l ∧
      ∀ i < 128, l.data.getD i 0 = s.byteAt e.wg .w (x.2.2 / 128 * 128 + i) := by
  have hexec : exec (.scaleLineFill core (sclKey e.wg x.1) (x.2.2 / 128)) s = .next (s.modCore core fun c => { c with
      scl := (⟨sclKey e.wg x.1, true, x.2.2 / 128, s.bufGet e.wg .w (x.2.2 / 128 * 128) 128, s.tu⟩ :: c.scl).take 64 }) := by
    change execScaleLineFill core (sclKey e.wg x.1) (x.2.2 / 128) s = _
    refine event_some ?_
    simp only [hq, List.findSome?_cons, hns, Bool.false_eq_true, ↓reduceIte, hx, Option.map_some, hloc]
  refine ⟨_, hexec, ⟨sclKey e.wg x.1, true, x.2.2 / 128, s.bufGet e.wg .w (x.2.2 / 128 * 128) 128, s.tu⟩, ?_, fun i hi => getD_bufGet hi⟩
  simp [Core.sclHit]

/-! ### Operands read, and the completion (R164, R207, R224) -/

theorem tags_setTags (g : WGrp) (sp : Space) (l : List Tag) : (g.setTags sp l).tags sp = l := by cases sp <;> rfl
theorem tags_setTags_ne (g : WGrp) {sp sp' : Space} (l : List Tag) (h : sp' ≠ sp) : (g.setTags sp l).tags sp' = g.tags sp' := by
  cases sp <;> cases sp' <;> simp_all <;> rfl

theorem tags_modTag (g : WGrp) (sp : Space) (t : Nat) (f : Tag → Tag) : (g.modTag sp t f).tags sp = (g.tags sp).set t (f (g.tag sp t)) :=
  tags_setTags _ _ _

theorem tags_modTags_ne (g : WGrp) {sp sp' : Space} (ts : List Nat) (f : Tag → Tag) (h : sp' ≠ sp) :
    (g.modTags sp ts f).tags sp' = g.tags sp' := by
  unfold WGrp.modTags
  induction ts generalizing g with
  | nil => rfl
  | cons t ts ih => rw [List.foldl_cons, ih, WGrp.modTag, tags_setTags_ne _ _ h]

/-- A tile that is marked read, or was, is read. -/
theorem tag_c_modTags (g : WGrp) (sp : Space) (ts : List Nat) (i : Nat) (hlen : i < (g.tags sp).length) (h : i ∈ ts ∨ (g.tag sp i).c = true) :
    ((g.modTags sp ts fun x => { x with c := true }).tag sp i).c = true := by
  unfold WGrp.modTags
  induction ts generalizing g with
  | nil => simpa using h
  | cons t ts ih =>
    rw [List.foldl_cons]
    refine ih _ (by rw [tags_modTag, List.length_set]; exact hlen) ?_
    by_cases ht : t = i
    · subst ht
      right
      rw [WGrp.tag, tags_modTag, List.getD_eq_getElem?_getD, List.getElem?_set_self hlen]
      rfl
    · have hsame : (g.modTag sp t fun x => { x with c := true }).tag sp i = g.tag sp i := by
        rw [WGrp.tag, tags_modTag, List.getD_eq_getElem?_getD, List.getElem?_set_ne ht, WGrp.tag, List.getD_eq_getElem?_getD]
      rw [hsame]
      rcases h with h | h
      · exact .inl ((List.mem_cons.1 h).resolve_left (Ne.symm ht))
      · exact .inr h

theorem runs_matrixReadComplete (hq : (s.core core).mq = e :: rest) {sp : Bool} {g : WGrp} (hkind : e.kind = .mma sp) (hst : e.started = true)
    (hrd : e.readDone = false) (hfault : e.fault = none) (hg : look s.wgs e.wg = some g) :
    Runs (.matrixReadComplete core e.qid) s fun t => (∃ e', t.mEntry? core e.qid = some e' ∧ e'.readDone = true) ∧
      (∀ i ∈ e.opTiles.1, i < g.ta.length → ((t.wg e.wg).tag .a i).c = true) ∧
      ∀ i ∈ e.opTiles.2, i < g.tw.length → ((t.wg e.wg).tag .w i).c = true := by
  have hexec : exec (.matrixReadComplete core e.qid) s = .next ((s.consumed e).setEntry core { e with readDone := true }) := by
    change execMatrixReadComplete core e.qid s = _
    refine event_some ?_
    simp only [mEntry?_head hq, hkind, hst, hrd, hfault, Bool.not_false, Option.isNone_none, Bool.and_self, ↓reduceIte]
  have hwg : (s.consumed e).wg e.wg =
      (g.modTags .a e.opTiles.1 fun x => { x with c := true }).modTags .w e.opTiles.2 fun x => { x with c := true } :=
    State.wg_modWg s _ hg
  have hhead : (s.consumed e).mEntry? core e.qid = some e := mEntry?_head (s := s) hq
  refine ⟨_, hexec, ⟨_, mEntry?_setEntry (e' := { e with readDone := true }) hhead, rfl⟩, fun i hi hlen => ?_, fun i hi hlen => ?_⟩
  · change (((s.consumed e).wg e.wg).tag .a i).c = true
    rw [hwg, WGrp.tag, tags_modTags_ne _ _ _ (by decide)]
    exact tag_c_modTags g .a _ i hlen (.inl hi)
  · change (((s.consumed e).wg e.wg).tag .w i).c = true
    rw [hwg]
    refine tag_c_modTags _ .w _ i ?_ (.inl hi)
    rw [tags_modTags_ne _ _ _ (by decide)]
    exact hlen

/-- An instruction at the head of the queue leaves it after its own effect, and its wave's count of the array (R207). -/
def completed (s : State) (core : Nat) (e : MEntry) : State :=
  ((s.freeCurrent core .matrix e.qid).dropEntry core e.qid).completeAcc core e.ctx e.acc .m

theorem mEntry?_completed (s : State) (core : Nat) (e : MEntry) : (completed s core e).mEntry? core e.qid = none := by
  rw [completed, mEntry?_of_mq (mq_completeAcc _ _ _ _ _ _), mEntry?_dropEntry]

/-- The wave's one access is gone, and its workgroups are as the instruction left them. -/
theorem completed_spec {w : Wave} {a : Acc} (hw : s.wave? core e.ctx = some w) (hs : w.splits ≠ []) (haccs : w.accs = [a])
    (hid : a.id = e.acc) (hpath : a.path = .m) : (completed s core e).wgs = s.wgs ∧
      ∃ w', (completed s core e).wave? core e.ctx = some w' ∧ w'.accs = [] ∧ w'.mflags = w.mflags ∧ w'.mfault = w.mfault := by
  have hw' : ((s.freeCurrent core .matrix e.qid).dropEntry core e.qid).wave? core e.ctx = some w := by
    rw [← hw]
    exact wave?_of_waves (by simp) _
  obtain ⟨hwave, hwgs⟩ := completeAcc_of_splits hw' hs e.acc .m
  exact ⟨hwgs, _, hwave, by rw [← hid, ← hpath]; exact accs_retire_one haccs, rfl, rfl⟩

theorem exec_matrixComplete (hq : (s.core core).mq = e :: rest) {sp : Bool} (hkind : e.kind = .mma sp) (hst : e.started = true)
    (hrd : e.readDone = true) (hfault : e.fault = none) :
    exec (.matrixComplete core e.qid) s = .next (completed ((s.mWrite core e).orFlags core e.ctx e.flags.toNat) core e) := by
  change execMatrixComplete core e.qid s = _
  refine event_some ?_
  simp [mEntry?_head hq, hkind, hst, hrd, hfault, hq, completed]

theorem exec_matrixComplete_fault (hq : (s.core core).mq = e :: rest) {sp : Bool} (hkind : e.kind = .mma sp) (hst : e.started = true)
    {code : Nat} (hfault : e.fault = some code) :
    exec (.matrixComplete core e.qid) s = .next (completed (((s.consumed e).mNoDeliver core e).modWave core e.ctx fun w =>
      { w with mfault := noteFault w.mfault code e.pc }) core e) := by
  change execMatrixComplete core e.qid s = _
  refine event_some ?_
  simp [mEntry?_head hq, hkind, hst, hfault, hq, completed]

/-- A mma that no write has disturbed writes its tile. -/
theorem mWrite_mma {sp : Bool} (hkind : e.kind = .mma sp) (hspoiled : e.spoiled = false) (hmixed : e.mixed = []) {ws : List Word}
    (hres : e.result = [ws]) : s.mWrite core e = s.putTile core e.wg e.tile ws := by
  simp [State.mWrite, hkind, hspoiled, hmixed, hres, State.orFree]

theorem length_flatMap_leBytes (n : Nat) (ws : List Word) : (ws.flatMap fun w => leBytes n w.toNat).length = ws.length * n := by
  simp [List.length_flatMap, length_leBytes]

/-- What a buffer holds where bytes were just put. -/
theorem gets_puts {m : Mem} (h : Mem.wf m = true) (a : Nat) (bs : List Byte) : (m.puts a bs).gets a bs.length = bs := by
  refine List.ext_getElem (by simp [Mem.gets]) fun i h1 h2 => ?_
  simp [Mem.gets, Mem.get_puts bs a _ h, h2]

theorem runs_matrixComplete (hq : (s.core core).mq = e :: rest) {sp : Bool} {g : WGrp} {w : Wave} {a : Acc} {ws : List Word}
    (hkind : e.kind = .mma sp) (hst : e.started = true) (hg : look s.wgs e.wg = some g) (hwf : Mem.wf g.c = true)
    (hw : s.wave? core e.ctx = some w) (haccs : w.accs = [a]) (hid : a.id = e.acc) (hpath : a.path = .m) (hs : w.splits ≠ [])
    (hrd : e.readDone = true) (hfault : e.fault = none) (hspoiled : e.spoiled = false) (hmixed : e.mixed = []) (hres : e.result = [ws])
    (hlen : ws.length = 256) : Runs (.matrixComplete core e.qid) s fun t => t.mEntry? core e.qid = none ∧
      t.bufGet e.wg .c (e.tile * 1024) 1024 = ws.flatMap (fun w => leBytes 4 w.toNat) ∧
      (∀ x, (x < e.tile * 1024 ∨ e.tile * 1024 + 1024 ≤ x) → t.byteAt e.wg .c x = s.byteAt e.wg .c x) ∧
      ∃ w', t.wave? core e.ctx = some w' ∧ w'.accs = [] ∧ w'.mflags = w.mflags ||| e.flags := by
  generalize hu : (s.mWrite core e).orFlags core e.ctx e.flags.toNat = u
  have huw : u.wave? core e.ctx = some { w with mflags := w.mflags ||| e.flags } := by
    have hput : (s.mWrite core e).wave? core e.ctx = some w := by
      rw [← hw, mWrite_mma hkind hspoiled hmixed hres]
      exact wave?_of_waves (waves_putTile _ _ _ _ _ _) _
    rw [← hu, State.orFlags, State.wave?_modWave, hput, w32_toNat]
    rfl
  obtain ⟨hwgs, w', hw', hdone, hflags, -⟩ := completed_spec (e := e) huw hs haccs hid hpath
  have hbytes : (ws.flatMap fun w => leBytes 4 w.toNat).length = 1024 := by rw [length_flatMap_leBytes, hlen]
  have hc : ((completed u core e).wg e.wg).c = g.c.puts (e.tile * 1024) (ws.flatMap fun w => leBytes 4 w.toNat) := by
    have hput : (u.wg e.wg) = { g with c := g.c.puts (e.tile * 1024) (ws.flatMap fun w => leBytes 4 w.toNat) } := by
      rw [← hu, mWrite_mma hkind hspoiled hmixed hres]
      exact wg_putTile core e.tile ws hg
    rw [wg_of_wgs hwgs, hput]
  refine ⟨_, exec_matrixComplete hq hkind hst hrd hfault, ?_⟩
  rw [hu]
  refine ⟨mEntry?_completed u core e, ?_, fun x hx => ?_, w', hw', hdone, hflags⟩
  · have h := gets_puts hwf (e.tile * 1024) (ws.flatMap fun w => leBytes 4 w.toNat)
    rw [hbytes, ← hc] at h
    exact h
  · change ((completed u core e).wg e.wg).c.get x = (s.wg e.wg).c.get x
    rw [hc, Mem.get_puts _ _ _ hwf, hbytes, if_neg (by omega), State.wg, hg]
    rfl

theorem runs_matrixComplete_fault (hq : (s.core core).mq = e :: rest) {sp : Bool} {g : WGrp} {w : Wave} {a : Acc} {code : Nat}
    (hkind : e.kind = .mma sp) (hst : e.started = true) (hg : look s.wgs e.wg = some g)
    (hw : s.wave? core e.ctx = some w) (haccs : w.accs = [a]) (hid : a.id = e.acc) (hpath : a.path = .m) (hs : w.splits ≠ [])
    (hfault : e.fault = some code) : Runs (.matrixComplete core e.qid) s fun t => t.mEntry? core e.qid = none ∧
      (t.wg e.wg).c = g.c ∧ ∃ w', t.wave? core e.ctx = some w' ∧ w'.accs = [] ∧ w'.mfault = noteFault w.mfault code e.pc := by
  generalize hu : (((s.consumed e).mNoDeliver core e).modWave core e.ctx fun w => { w with mfault := noteFault w.mfault code e.pc }) = u
  obtain ⟨v, hv, hsplits, hvaccs, hvfault⟩ : ∃ v, u.wave? core e.ctx = some v ∧ v.splits ≠ [] ∧ v.accs = [a] ∧
      v.mfault = noteFault w.mfault code e.pc := by
    rw [← hu, State.wave?_modWave, State.mNoDeliver, State.wave?_modWave, wave?_consumed, hw]
    exact ⟨_, rfl, by simpa using hs, haccs, rfl⟩
  obtain ⟨hwgs, w', hw', hdone, -, hmf⟩ := completed_spec (e := e) hv hsplits hvaccs hid hpath
  refine ⟨_, exec_matrixComplete_fault hq hkind hst hfault, ?_⟩
  rw [hu]
  refine ⟨mEntry?_completed u core e, ?_, w', hw', hdone, hmf.trans hvfault⟩
  have hc : ((s.consumed e).wg e.wg).c = g.c := by rw [c_consumed, State.wg, hg]; rfl
  rw [wg_of_wgs hwgs, ← hu]
  refine (congrArg WGrp.c (wg_of_wgs (s := s.consumed e) ?_ e.wg)).trans hc
  rfl

end

/-! ### A fault of the array (R224) -/

theorem physPuts_frame (s : State) (pa : Nat) (bs : List Byte) : (s.physPuts pa bs).out = s.out ∧ (s.physPuts pa bs).cores = s.cores ∧
    (s.physPuts pa bs).clusters = s.clusters ∧ (s.physPuts pa bs).tu = s.tu := by
  induction bs generalizing s pa with
  | nil => exact ⟨rfl, rfl, rfl, rfl⟩
  | cons b bs ih =>
    rw [State.physPuts]
    have hput : (s.physPut pa b).out = s.out ∧ (s.physPut pa b).cores = s.cores ∧ (s.physPut pa b).clusters = s.clusters ∧
        (s.physPut pa b).tu = s.tu := by
      unfold State.physPut
      split <;> exact ⟨rfl, rfl, rfl, rfl⟩
    simpa only [hput] using ih (s.physPut pa b) (pa + 1)

theorem ringPut_frame (s : State) (pa : Nat) (r : List Byte) : (s.ringPut pa r).out = s.out ∧ (s.ringPut pa r).cores = s.cores ∧
    (s.ringPut pa r).clusters = s.clusters ∧ (s.ringPut pa r).tu = s.tu := by
  simp only [State.ringPut]
  split <;> simp only [physPuts_frame, and_self]

/-- The log ring after a record, where the host has placed one (R409). -/
def logged (s : State) (bs : List Byte) : State :=
  match s.pools.logRing with
  | some (b, _) => (s.ringWrite b bs).1
  | none => s

theorem logged_frame (s : State) (bs : List Byte) : (logged s bs).out = s.out ∧ (logged s bs).cores = s.cores ∧
    (logged s bs).clusters = s.clusters ∧ (logged s bs).tu = s.tu := by
  unfold logged
  split
  · exact ringPut_frame s _ bs
  · exact ⟨rfl, rfl, rfl, rfl⟩

theorem record_eq (s : State) (cls : Nat) (r : RecInfo) : s.record cls r =
    { logged s (recordBytes s.dtc cls r) with out := (logged s (recordBytes s.dtc cls r)).out ++ [.event (recordBytes s.dtc cls r)] } := rfl

theorem out_record (s : State) (cls : Nat) (r : RecInfo) : (s.record cls r).out = s.out ++ [.event (recordBytes s.dtc cls r)] := by
  rw [record_eq, (logged_frame s _).1]

theorem core_congr {s t : State} (hcores : t.cores = s.cores) (hclusters : t.clusters = s.clusters) (htu : t.tu = s.tu) (k : Nat) :
    t.core k = s.core k := by
  rw [State.core, State.core, State.cluster, State.cluster, hcores, hclusters, htu]

theorem core_record (s : State) (cls : Nat) (r : RecInfo) (k : Nat) : (s.record cls r).core k = s.core k := by
  obtain ⟨-, hcores, hclusters, htu⟩ := logged_frame s (recordBytes s.dtc cls r)
  rw [record_eq]
  exact core_congr hcores hclusters htu k

/-- The fault of its walk leaves with an instruction that has met it. -/
def walkTaken (s : State) (core qid : Nat) : State :=
  { s with walkFaults := s.walkFaults.filter fun f => !(f.src == .engine core 2 && f.key == qid) }

/-- The record of a fault, the walk's fault taken and the empty lines dropped. -/
def faulted (s : State) (core : Nat) (e : MEntry) (k : MFaultKind) (detail : Nat) : State :=
  (walkTaken (s.recordWave core e.ctx (mfCode k) e.pc true (k == .dataError) detail) core e.qid).modCore core fun c =>
    { c with scl := c.scl.filter fun l => !l.data.isEmpty }

theorem out_faulted (s : State) (core : Nat) (e : MEntry) (k : MFaultKind) (detail : Nat) :
    ∃ bs, (faulted s core e k detail).out = s.out ++ [.event bs] := ⟨_, out_record s _ _⟩

theorem core_walkTaken (s : State) (core qid k : Nat) : (walkTaken s core qid).core k = s.core k := rfl

theorem mEntry?_faulted (s : State) (core : Nat) (e : MEntry) (k : MFaultKind) (detail qid : Nat) :
    (faulted s core e k detail).mEntry? core qid = s.mEntry? core qid := by
  refine mEntry?_of_mq ?_ qid
  rw [faulted, State.core_modCore, core_walkTaken, State.recordWave, core_record]

section
variable {s : State} {core : Nat} {e : MEntry} {rest : List MEntry}

theorem arrayFault_of_entry {x : Nat × SclBind × Nat} {k : MFaultKind} {mal : Bool} (hx : x ∈ e.entries) (hf : s.entryFault core e x = some (k, mal)) :
    ∃ f, s.arrayFault core e k = some f := by
  have hsome : (e.entries.findSome? fun x => (s.entryFault core e x).bind fun f => if f.1 = k then some f else none).isSome = true :=
    List.findSome?_isSome_iff.2 ⟨x, hx, by simp [hf]⟩
  obtain ⟨f, hfind⟩ := Option.isSome_iff_exists.1 hsome
  exact ⟨f, by rw [State.arrayFault, hfind]⟩

theorem runs_matrixFault (hq : (s.core core).mq = e :: rest) (hns : e.started = false) (hahead : s.ahead core e = [])
    (htags : s.tagsReady e = true) (hskip : s.skips e = false) (hgrant : e.grant = true) {x : Nat × SclBind × Nat} {k : MFaultKind} {mal : Bool}
    (hx : x ∈ e.entries) (hf : s.entryFault core e x = some (k, mal)) :
    Runs (.matrixFault core e.qid k) s fun t => (∃ e', t.mEntry? core e.qid = some e' ∧ e'.started = true ∧ e'.fault = some (mfCode k)) ∧
      ∃ bs, t.out = s.out ++ [.event bs] := by
  obtain ⟨f, harray⟩ := arrayFault_of_entry hx hf
  have hexec : ∃ detail, exec (.matrixFault core e.qid k) s =
      .next ((faulted s core e k detail).setEntry core { e with started := true, fault := some (mfCode k) }) := by
    change ∃ detail, execMatrixFault core e.qid k s = _
    refine ⟨match k with | .translation n => markOf n f.2 | _ => 0, event_some ?_⟩
    simp only [mEntry?_head hq, hns, mayStart_of_ahead hahead, htags, hskip, hgrant, harray, Bool.not_true, Bool.or_self, Bool.false_eq_true, ↓reduceIte]
    cases k <;> rfl
  obtain ⟨detail, hexec⟩ := hexec
  have hhead : (faulted s core e k detail).mEntry? core e.qid = some e := (mEntry?_faulted _ _ _ _ _ _).trans (mEntry?_head hq)
  exact ⟨_, hexec, ⟨_, mEntry?_setEntry (e' := { e with started := true, fault := some (mfCode k) }) hhead, rfl, rfl⟩, out_faulted _ _ _ _ _⟩

end

end Sys2Proof.Proofs
end

section
/-! The results of the instructions that start, and the statement on the array's events. -/

namespace Sys2Proof.Proofs
open Sys2Proof Sys2Proof.Machine

/-! ### What an entry that has started will write -/

section
variable {s : State} {core : Nat} {e : MEntry} {i j : Nat}

theorem result_mma {sp : Bool} (hkind : e.kind = .mma sp) (hi : i < 16) (hj : j < 16) : ((begun s core e).result.getD 0 []).getD (16 * i + j) 0 =
    (e.mmaEl (s.mOps core e sp) sp i j ((s.tileWords e e.tile).getD (16 * i + j) 0)).1 := by
  rw [← getD_mmaTile _ _ _ _ hi hj]
  simp only [begun, State.mResult, hkind, List.getD_cons_zero]

theorem result_float (hkind : e.kind = .mma false) (holds : e.olds = []) (haf : fbAF e.fb < 4) (hbf : fbBF e.fb < 4) (hbl : fbBL e.fb = 0)
    (hpro : fbPro e.fb = false) (hk : e.k % 16 = 0) (hi : i < 16) (hj : j < 16) : ((begun s core e).result.getD 0 []).getD (16 * i + j) 0 =
      w32 (floatSum (2 ^ fbPI e.fb) (e.k / 16) (fun k => xmul (floatOf (fbAF e.fb) (s.rowCode e.wg e.sa (fmtBits (fbAF e.fb) / 8) e.k i k))
        (floatOf (fbBF e.fb) (s.planeCode e.wg e.sb (fmtBits (fbBF e.fb)) k j))) ((s.tileWords e e.tile).getD (16 * i + j) 0).toNat (e.k / 16)).2 := by
  rw [result_mma hkind hi hj, mmaEl_float haf hbl hk fun k hk' => ?_]
  rw [elA_float holds haf hi hk', elB_float hbf hpro hk hj hk']

theorem result_float_sparse (hkind : e.kind = .mma true) (holds : e.olds = []) (haf : fbAF e.fb < 4) (hbf : fbBF e.fb < 4) (hbl : fbBL e.fb = 0)
    (hpro : fbPro e.fb = false) (hk : e.k % 16 = 0) (hi : i < 16) (hj : j < 16) : ((begun s core e).result.getD 0 []).getD (16 * i + j) 0 =
      w32 (floatSum (2 ^ fbPI e.fb) (e.k / 16) (fun k => xmul (floatOf (fbAF e.fb) (s.rowCode e.wg e.sa (fmtBits (fbAF e.fb) / 8) e.k i k))
        (((s.keptCode e.wg e.sb (fmtBits (fbBF e.fb)) (2 ^ fbSPN e.fb) k j).map (floatOf (fbBF e.fb))).getD (.fin false 0 0)))
        ((s.tileWords e e.tile).getD (16 * i + j) 0).toNat (e.k / 16)).2 := by
  rw [result_mma hkind hi hj, mmaEl_float haf hbl hk fun k hk' => ?_]
  rw [elA_float holds haf hi hk', elB_float_sparse hbf hpro hk hj hk']

theorem result_vmx {x : List (List Word)} {as : List Word} (hkind : e.kind = .vmx x as) (haf : fbAF e.fb < 4) (hbf : fbBF e.fb < 4)
    (hbl : fbBL e.fb = 0) (hpro : fbPro e.fb = false) (hk : e.k % 16 = 0) (hj : j < 16) {t : Nat} (ht : t < 32) :
    ((begun s core e).result.getD j []).getD t 0 = if as.getD t 0 = 0xFFFFFFFF#32 then 0 else
      w32 (floatSum (2 ^ fbPI e.fb) (e.k / 16) (fun k => xmul (floatOf (fbAF e.fb) (el16 ((x.getD (k / 2) []).getD t 0) (k % 2)))
        (floatOf (fbBF e.fb) (s.planeCode e.wg (as.getD t 0).toNat (fmtBits (fbBF e.fb)) k j))) 0 (e.k / 16)).2 := by
  have hrow := getD_vmxRow (s := s) haf hbf hbl hpro hk x t (as.getD t 0).toNat hj
  have hcell : ((begun s core e).result.getD j []).getD t 0 = (if as.getD t 0 = 0xFFFFFFFF#32 then (List.replicate 16 (0 : Word), flVnull)
      else e.vmxRow x t (leNat (s.bufGet e.wg .w (as.getD t 0).toNat (bytesB e.fb e.k false)))).1.getD j 0 := by
    simp [begun, State.mResult, hkind, hj, ht]
  rw [hcell]
  split
  · exact List.getD_replicate _ hj
  · exact hrow

end

/-- Settles O41: each event of the array by its own lemma above; the results by what `State.mResult` holds for each kind. -/
theorem matrixEvents : Obligations.MatrixEvents := by
  unfold Obligations.MatrixEvents
  intro s core qid e rest hq hqid _
  subst hqid
  refine ⟨fun sp hkind hns hahead htags => ⟨runs_matrixStart_skip hq hkind hns hahead htags, ?_⟩, ?_,
    fun id hkind hns hahead => runs_matrixStart_scldef hq hkind hns hahead,
    fun x hns hx hloc => runs_scaleLineFill hq hns hx hloc,
    fun sp g hkind hst hrd hfault hg => runs_matrixReadComplete hq hkind hst hrd hfault hg,
    fun sp g w a hkind hst hg hwf hw haccs hid hpath _ hs =>
      ⟨fun ws hrd hfault hspoiled hmixed hres hlen =>
        runs_matrixComplete hq hkind hst hg hwf hw haccs hid hpath hs hrd hfault hspoiled hmixed hres hlen,
      fun code hfault => runs_matrixComplete_fault hq hkind hst hg hw haccs hid hpath hs hfault⟩,
    fun k mal x hns hahead htags hskip hgrant hx hf => runs_matrixFault hq hns hahead htags hskip hgrant hx hf⟩
  · intro hskip hsp hgrant haf hbf hprec hpro hk hA hB holds
    subst hsp
    obtain ⟨t, hexec, hentry, hwgs⟩ := runs_matrixStart hq hns hahead htags hskip hgrant (by simp [MEntry.quiet, hkind]) hA hB
    refine ⟨t, hexec, _, hentry, rfl, hwgs (by simp [MEntry.outTiles, hkind]), fun i hi j hj => ?_⟩
    rw [result_mma hkind hi hj, mmaEl_i8 holds haf hbf hprec hpro hk hi hj]
  · intro started af bf plain tile dot hns hahead htags hskip hgrant holds
    have hstart (p : MEntry → Prop) (hquiet : e.quiet = false) (hA : e.bindA = none) (hB : e.bindB = none) (hp : p (begun s core e)) : started p := by
      obtain ⟨t, hexec, hentry, -⟩ := runs_matrixStart hq hns hahead htags hskip hgrant hquiet hA hB
      exact ⟨t, hexec, _, hentry, rfl, hp⟩
    refine ⟨?_, ?_, ?_, ?_⟩
    · rintro ⟨hbl, hpro, -, hk, hA, hB⟩ haf hbf
      refine ⟨fun hkind => ?_, fun hkind => ?_, fun x as hkind => ?_⟩
      · exact hstart _ (by simp [MEntry.quiet, hkind]) hA hB fun i hi j hj => result_float hkind holds haf hbf hbl hpro hk hi hj
      · exact hstart _ (by simp [MEntry.quiet, hkind]) hA hB fun i hi j hj => result_float_sparse hkind holds haf hbf hbl hpro hk hi hj
      · exact hstart _ (by simp [MEntry.quiet, hkind]) hA hB fun j hj t ht => result_vmx hkind haf hbf hbl hpro hk hj ht
    · rintro ⟨-, hpro, -, hk, hA, hB⟩ haf hbf hkind
      refine hstart _ (by simp [MEntry.quiet, hkind]) hA hB fun i hi j hj => ?_
      rw [result_mma hkind hi hj, mmaEl_i8_sparse holds haf hbf hpro hk hi hj]
    · intro act f hkind hcnt hA hB
      refine hstart _ (by simp [MEntry.quiet, hkind]) hA hB fun i hi j hj => ?_
      exact mResult_aepi hkind hcnt holds hi hj
    · intro i32 base init hkind hA hB
      exact hstart _ (by simp [MEntry.quiet, hkind]) hA hB fun t ht => mResult_amax hkind ht

end Sys2Proof.Proofs
end

section
/-! The state of two splits with one identifier once more: a select, a vote and a shuffle that write in thread 0 alone. -/

namespace Sys2Proof.Proofs
open Sys2Proof Sys2Proof.Machine

theorem marks_sel : marksAfter (exec (.sel ⟨.always, .v 1, .k 1, .null, .p 0⟩) (twins none)) = [.wrote (.v 1) 1] := by decide +kernel
theorem marks_voteMask : marksAfter (exec (.vote ⟨.always, .v 1, .p 7⟩ .mask) (twins none)) = [.wrote (.v 1) 1] := by decide +kernel
theorem marks_shfl : marksAfter (exec (.shfl ⟨.always, .v 1, .k 1, .null⟩ .at 0) (twins none)) = [.wrote (.v 1) 1] := by decide +kernel

/-- Refutes O3: `sel` in thread 0, with a second split of the executing split's identifier. -/
theorem not_predicateAndSelectResults : ¬ Obligations.PredicateAndSelectResults := by
  unfold Obligations.PredicateAndSelectResults
  rintro ⟨-, hsel⟩
  obtain ⟨hv, -⟩ := hsel ⟨.always, .v 1, .k 1, .null, .p 0⟩ (twins none) 0 rfl (twins_quiet none)
  exact not_writesV_twins marks_sel (hv 1 rfl (twins_rowFree none))

/-- Refutes O9: `vote.mask` to V1 with thread 0 alone active, with a second split of the executing split's identifier. -/
theorem not_voteResult : ¬ Obligations.VoteResult := by
  unfold Obligations.VoteResult
  intro h
  obtain ⟨-, -, hv⟩ := h ⟨.always, .v 1, .p 7⟩ (twins none) (twins_quiet none)
  exact not_writesV_twins marks_voteMask (hv 1 rfl (twins_rowFree none))

/-- Refutes O10: `shfl` in thread 0, with a second split of the executing split's identifier. -/
theorem not_laneReadsAndReductions : ¬ Obligations.LaneReadsAndReductions := by
  unfold Obligations.LaneReadsAndReductions
  rintro ⟨hread, -⟩
  obtain ⟨hshfl, -⟩ := hread (twins none) (twins_quiet none)
  exact not_writesV_twins marks_shfl (hshfl ⟨.always, .v 1, .k 1, .null⟩ .at 0 1 rfl (twins_rowFree none))

end Sys2Proof.Proofs
end

section
/-! The lane forms run to their end: a write with a row to be had succeeds, and what a value instruction may change (R24, R96,
R100) leaves the split where an instruction without a trap leaves it. -/

namespace Sys2Proof.Proofs
open Sys2Proof Sys2Proof.Machine

/-! ### The executing split after an update -/

section
variable {s u : State}

theorem sp_modSp (hl : s.live = true) {f : Split → Split} (hid : ∀ p : Split, (f p).id = p.id) : (s.modSp f).sp = f s.sp := by
  have hw : (s.modSp f).w = s.w.modSplit s.cur.split f := s.w_modW _ hl
  rw [State.sp, State.modSp_cur, hw, Wave.split?_modSplit _ _ _ fun p hp => (hid p).trans hp, split?_of_live hl]
  rfl

theorem sp_modW (hl : s.live = true) {f : Wave → Wave} (hsplits : (f s.w).splits = s.w.splits) : (s.modW f).sp = s.sp := by
  simp only [State.sp, State.modW_cur, s.w_modW f hl, Wave.split?, hsplits]

theorem live_modSp (hl : s.live = true) {f : Split → Split} (hid : ∀ p : Split, (f p).id = p.id) : (s.modSp f).live = true := by
  rw [State.modSp, s.live_modW _ fun w => ?_, hl]
  rw [Wave.split?_modSplit _ _ _ fun p hp => (hid p).trans hp, Option.isSome_map]

/-! ### Writes that succeed -/

/-- The destination of a value instruction has room: a V register that has or gets a row, or a scalar register (R26, R96). -/
def Room (s : State) (d : Opnd) : Prop := (∃ n : Fin 128, d = .v n ∧ s.rowFree n.val) ∨ d.isScalarReg = true

/-- What an instruction does before its split moves on: nothing but what a value instruction may change, and no trap. -/
def Succeeds (s : State) (r : Except TrapReq State) : Prop :=
  ∃ u, r = .ok u ∧ ValueFrame (fun _ => True) True s u ∧ u.sp.s.length = s.sp.s.length

theorem succeeds_of_ok {r : Except TrapReq State} (h : ∃ u, r = .ok u ∧ u.sp.s.length = s.sp.s.length)
    (hframe : ∀ u, r = .ok u → ValueFrame (fun _ => True) True s u) : Succeeds s r := by
  obtain ⟨u, hu, hlen⟩ := h
  exact ⟨u, hu, hframe u hu, hlen⟩

theorem length_putV (hl : s.live = true) (n : Nat) (x : VReg) (m : Mask) : (s.putV n x m).sp.s.length = s.sp.s.length := by
  rw [State.putV, sp_modSp, sp_modW hl rfl]
  · rw [s.live_modW, hl]
    exact fun _ => rfl
  · exact fun _ => rfl

theorem succeeds_writeV (hq : s.quiet) {n : Nat} (hr : s.rowFree n) (x : VReg) (m : Mask) : Succeeds s (s.writeV n x m) := by
  refine succeeds_of_ok ?_ fun u => frame_writeV hq fun _ => trivial
  by_cases hm : m = 0
  · subst hm
    exact ⟨s, writeV_none s n x, rfl⟩
  · exact ⟨_, writeV_quiet hq hr x hm, length_putV hq.1 _ _ _⟩

theorem succeeds_writeD (hq : s.quiet) {d : Opnd} (hd : d.isScalarReg = true) (x : VReg) (m : Mask) : Succeeds s (s.writeD d x m) := by
  refine succeeds_of_ok ?_ fun u => frame_writeD hq trivial
  cases d with
  | s n =>
    refine ⟨_, rfl, ?_⟩
    simp only [State.writeS, heldS_nil hq.2, State.putS]
    rw [sp_modSp hq.1, List.length_set]
    exact fun _ => rfl
  | wg n =>
    refine ⟨_, rfl, ?_⟩
    simp only [State.writeWg, heldWg_nil hq.2]
    rw [sp_modSp]
    · rfl
    · exact hq.1
    · exact fun _ => rfl
  | _ => cases hd

/-- The write that a destination with room takes: of a vector in the threads of a mask, or of a scalar. -/
theorem succeeds_write (hq : s.quiet) {d : Opnd} (hd : Room s d) (x y : VReg) (m : Mask) :
    Succeeds s (match (generalizing := false) d with
      | .v n => s.writeV n.val x m
      | d => s.writeD d y fullMask) := by
  rcases hd with ⟨n, rfl, hr⟩ | hs
  · exact succeeds_writeV hq hr x m
  · cases d with
    | s n | wg n => exact succeeds_writeD hq hs y fullMask
    | _ => cases hs

/-- A new SR_SEED before the write changes neither what has room nor what succeeds. -/
theorem succeeds_of_seed (hq : s.quiet) {d : Opnd} (hd : Room s d) (x : Word) {r : Except TrapReq State}
    (h : (s.setSeed x).quiet → Room (s.setSeed x) d → Succeeds (s.setSeed x) r) : Succeeds s r := by
  have hframe : ValueFrame (fun _ => True) True s (s.setSeed x) := frame_seed hq.1 fun no => absurd trivial no
  have hw : (s.setSeed x).w = { s.w with seed := x } := s.w_modW _ hq.1
  have hroom : Room (s.setSeed x) d := hd.imp_left fun ⟨n, hn, hr⟩ => ⟨n, hn, by rw [State.rowFree, hw]; exact hr⟩
  obtain ⟨u, hu, hlate, hlen⟩ := h (hframe.quiet hq) hroom
  exact ⟨u, hu, hframe.trans hlate, hlen.trans (congrArg (fun p => p.s.length) (sp_modW hq.1 rfl))⟩

/-! ### The instruction's end -/

theorem endsAt_advance {named : Opnd → Prop} {seeds : Prop} (h : ValueFrame named seeds s u) : EndsAt s u.advance (s.sp.pc + 8) := by
  have hsp := sp_advance h.live
  have hrest : waveRest u.advance.w = waveRest s.w := by rw [w_advance h.live]; exact h.wave
  have hpc : u.sp.pc = s.sp.pc := (congrArg Split.pc h.split :)
  refine ⟨by rw [hsp, ← hpc], ?_, ?_, (congrArg Wave.handler hrest :), (congrArg Wave.trapReg hrest :),
    (congrArg State.grids h.state :), (congrArg State.mem h.state :), (congrArg State.ring h.state :)⟩
  · rw [hsp]; exact (congrArg Split.status h.split :)
  · rw [hsp]; exact (congrArg Split.mask h.split :)

/-- An instruction that succeeds runs to its end. -/
theorem runs_of_succeeds (hl : s.live = true) {i : Instr} (h : ∃ F, exec i = isa F ∧ Succeeds s (F s)) :
    Runs i s fun t => EndsAt s t (s.sp.pc + 8) ∧ t.sp.s.length = s.sp.s.length ∧ t.w.accs = s.w.accs := by
  obtain ⟨F, hi, u, hu, hframe, hlen⟩ := h
  refine ⟨u.advance, by rw [hi, isa_ok hl hu], endsAt_advance hframe, ?_, ?_⟩
  · rw [sp_advance hframe.live]; exact hlen
  · rw [w_advance hframe.live]; exact (congrArg Wave.accs hframe.wave :)

/-! ### shfl, rdlane, redux and scan (R130, R131, R136) -/

theorem scalar_of_isUni {o : Opnd} (h : (s.src o).isUni = true) : s.scalar o = .ok ((s.src o).at 0) := by
  rw [State.scalar, if_pos h]

theorem succeeds_shfl (hq : s.quiet) {g : Guard} {d a b : Opnd} (hd : Room s d) (ha : d.isScalarReg = true → (s.src a).isUni = true)
    (mode : ShflMode) (lg : Fin 6) : ∃ F, exec (.shfl ⟨g, d, a, b⟩ mode lg) = isa F ∧ Succeeds s (F s) := by
  refine ⟨_, (rfl : execShfl _ mode lg = _), ?_⟩
  rcases hd with ⟨n, rfl, hr⟩ | hs
  · exact succeeds_writeV hq hr _ _
  · have hx := scalar_of_isUni (ha hs)
    cases d with
    | s n | wg n => simp only [hx]; exact succeeds_writeD hq hs _ fullMask
    | _ => cases hs

theorem succeeds_rdlane (hq : s.quiet) {g : Guard} {d a : Opnd} {b : SrcB} (hd : Room s d) (hb : (s.srcB b false).isUni = true) :
    ∃ F, exec (.rdlane ⟨g, d, a, b⟩) = isa F ∧ Succeeds s (F s) := by
  refine ⟨_, (rfl : execRdlane _ = _), ?_⟩
  cases b with
  | reg b =>
    have hx : s.scalar b = _ := scalar_of_isUni hb
    simp only [hx]
    exact succeeds_write hq hd _ _ _
  | imm v => exact succeeds_write hq hd _ _ _

theorem succeeds_redux (hq : s.quiet) {g : Guard} {d a : Opnd} (hd : Room s d) (op : RedOp) :
    ∃ F, exec (.redux ⟨g, d, a⟩ op) = isa F ∧ Succeeds s (F s) :=
  ⟨_, (rfl : execRedux _ op = _), succeeds_of_seed hq hd (redTree op (Mods.of s.pm .rne) 5 (s.redParts g a op) s.w.seed).2
    fun hu hroom => succeeds_write hu hroom _ _ _⟩

theorem succeeds_scan (hq : s.quiet) {g : Guard} {d a : Opnd} (hd : Room s d) (op : RedOp) (excl : Bool) :
    ∃ F, exec (.scan ⟨g, d, a⟩ op excl) = isa F ∧ Succeeds s (F s) :=
  ⟨_, (rfl : execScan _ op excl = _), succeeds_of_seed hq hd (scanAll op (Mods.of s.pm .rne) (s.redParts g a op) s.w.seed).2
    fun hu hroom => succeeds_write hu hroom _ _ _⟩

end

end Sys2Proof.Proofs
end

section
/-! call, ret and callx run to their end: with no window open the checks of R138 and R149 hold in the state whose windows are closed, and
what follows touches the executing split and the paths added beside it (R147 to R150). -/

namespace Sys2Proof.Proofs
open Sys2Proof Sys2Proof.Machine

/-! ### Ends -/

section
variable {s t u : State}

theorem endsAt_trans {pc pc' : DWord} (h : EndsAt s t pc) (k : EndsAt t u pc') : EndsAt s u pc' := by
  obtain ⟨-, hstatus, hmask, hhandler, htrap, hgrids, hmem, hring⟩ := h
  obtain ⟨kpc, kstatus, kmask, khandler, ktrap, kgrids, kmem, kring⟩ := k
  exact ⟨kpc, kstatus.trans hstatus, kmask.trans hmask, khandler.trans hhandler, ktrap.trans htrap, kgrids.trans hgrids,
    kmem.trans hmem, kring.trans hring⟩

theorem w_modSp (hl : s.live = true) (f : Split → Split) : (s.modSp f).w = s.w.modSplit s.cur.split f := s.w_modW _ hl

/-- An update of the executing split that keeps its threads and its status. -/
theorem endsAt_modSp (hl : s.live = true) {f : Split → Split} (hid : ∀ p : Split, (f p).id = p.id)
    (hstatus : ∀ p : Split, (f p).status = p.status) (hmask : ∀ p : Split, (f p).mask = p.mask) : EndsAt s (s.modSp f) (f s.sp).pc := by
  have hsp := sp_modSp hl hid
  have hw := w_modSp hl f
  exact ⟨by rw [hsp], by rw [hsp, hstatus], by rw [hsp, hmask], by rw [hw]; rfl, by rw [hw]; rfl, rfl, rfl, rfl⟩

/-! ### The state whose windows are closed (R35) -/

theorem sp_closed (hq : s.quiet) : s.closed.sp = s.sp := by
  have hsp : s.closed.sp = { s.sp with windows := [] } := sp_modSp hq.1 fun _ => rfl
  rw [hsp, ← hq.2]

theorem w_closed (hl : s.live = true) : s.closed.w = s.w.modSplit s.cur.split fun p => { p with windows := [] } := w_modSp hl _

theorem quiet_closed (hq : s.quiet) : s.closed.quiet :=
  ⟨live_modSp hq.1 fun _ => rfl, by rw [sp_closed hq, hq.2]⟩

theorem endsAt_closed (hl : s.live = true) : EndsAt s s.closed s.sp.pc :=
  endsAt_modSp hl (f := fun p => { p with windows := [] }) (fun _ => rfl) (fun _ => rfl) fun _ => rfl

theorem settled_quiet (hq : s.quiet) (f : State → Except TrapReq State) : s.settled f = f s.closed := by
  simp only [State.settled, Split.undelivered, hq.2, List.any_nil, Bool.false_eq_true, ↓reduceIte]
  rfl

/-- A fetch looks at no wave. -/
theorem fetch_modW (f : Wave → Wave) (k grid : Nat) (pc : DWord) : (s.modW f).fetch k grid pc = s.fetch k grid pc := by
  have hcore := cores_modWave s s.cur.core s.cur.ctx f k
  have htlb : ((s.modW f).core k).tlb = (s.core k).tlb := (congrArg Core.tlb hcore :)
  have hil : ((s.modW f).core k).il = (s.core k).il := (congrArg Core.il hcore :)
  have hic : ((s.modW f).core k).ic = (s.core k).ic := (congrArg Core.ic hcore :)
  have hpage : (s.modW f).xlate k grid pc false true = s.xlate k grid pc false true := by
    simp only [State.xlate, State.xlateIn, htlb]
    rfl
  simp only [State.fetch, hpage, hil, hic]
  rfl

theorem lands_closed (hl : s.live = true) {a x : DWord} (h : Lands s a x) : Lands s.closed a x := by
  obtain ⟨halign, hfetch, hentry⟩ := h
  refine ⟨halign, ?_, hentry⟩
  rw [w_closed hl]
  exact (fetch_modW _ _ _ _).trans hfetch

theorem budgetOk_closed (hl : s.live = true) {x : DWord} (h : BudgetOk s x) : BudgetOk s.closed x := by
  rw [BudgetOk, w_closed hl]
  exact h

theorem targetOf_closed (hq : s.quiet) (t : Target) : s.closed.targetOf t = s.targetOf t := by
  cases t <;> simp only [State.targetOf, State.dispTo, State.imm, sp_closed hq]

theorem src_v_closed (hq : s.quiet) (n : Fin 128) : s.closed.src (.v n) = s.src (.v n) := by
  simp only [State.src, readV_quiet hq, readV_quiet (quiet_closed hq), State.vreg, w_closed hq.1]
  rfl

theorem at64_v_closed (hq : s.quiet) (a : Fin 128) (t : Nat) : s.closed.at64 (.v a) t = s.at64 (.v a) t := by
  have hhi : s.closed.srcHi (.v a) = s.srcHi (.v a) := by
    simp only [State.srcHi, Opnd.plus]
    split
    · exact src_v_closed hq _
    · rfl
  simp only [State.at64, hhi, src_v_closed hq]

/-! ### The checks of a target (R138, R148, R149) -/

theorem ok_bind {ε α β : Type} (a : α) (f : α → Except ε β) : (Except.ok a >>= f) = f a := rfl

theorem check_true (t : TrapReq) : check true t = .ok () := rfl

theorem target_of_lands {a x : DWord} (h : Lands s a x) : s.target a = .ok x := by
  obtain ⟨halign, hfetch, hentry⟩ := h
  simp only [State.target, halign, hfetch, ok_bind, hentry, bne_self_eq_false, Bool.false_eq_true, ↓reduceIte]

theorem budget_ok {x : DWord} (h : BudgetOk s x) {n g : Nat} (hx : fhdrOf x = some (n, g)) : s.budget n g = .ok () := by
  obtain ⟨h1, h128, hg, hn, hrows⟩ := h n g hx
  simp only [State.budget, h1, h128, hg, hn, hrows, decide_true, Bool.and_self, check_true, ok_bind]

theorem callTargets_ok {ts : List (DWord × Mask)}
    (h : ∀ e ∈ ts, ∃ x n g, Lands s e.1 x ∧ fhdrOf x = some (n, g) ∧ BudgetOk s x) : s.callTargets ts = .ok () := by
  induction ts with
  | nil => rfl
  | cons e es ih =>
    obtain ⟨x, n, g, hland, hx, hbudget⟩ := h e List.mem_cons_self
    have hrest := ih fun e' he => h e' (List.mem_cons_of_mem _ he)
    simp only [State.callTargets, target_of_lands hland, ok_bind, hx, budget_ok hbudget hx, hrest]

/-! ### call and ret (R147, R150) -/

/-- A split with the return address of a call in its link pair, one call deeper (R147). -/
def linked (d : Nat) (back : DWord) (p : Split) : Split := { p.setPair d back with depth := p.depth + 1 }

theorem pair_linked {p : Split} {d : Nat} (h : d + 1 < p.s.length) (back : DWord) : (linked d back p).pair d = back := by
  have hd : d < p.s.length := by omega
  have hne : d + 1 ≠ d := by omega
  simp only [linked, Split.pair, Split.setPair, List.getD_eq_getElem?_getD, List.getElem?_set_self, List.getElem?_set_ne hne,
    List.length_set, h, hd, Option.getD_some]
  rw [BitVec.extractLsb'_append_extractLsb'_eq_extractLsb' (by rfl), BitVec.extractLsb'_eq_self]

theorem sp_goto (hl : s.live = true) (a : DWord) : (s.goto a).sp = { s.sp with pc := a, low := false, pfx := none } :=
  sp_modSp hl fun _ => rfl

theorem endsAt_goto (hl : s.live = true) (a : DWord) : EndsAt s (s.goto a) a :=
  endsAt_modSp hl (f := fun p => { p with pc := a, low := false, pfx := none }) (fun _ => rfl) (fun _ => rfl) fun _ => rfl

theorem exec_call (hq : s.quiet) {d : Fin 64} {t : Target} {x : DWord} (hland : Lands s (s.targetOf t) x) (hbudget : BudgetOk s x)
    (hdepth : s.sp.depth < 64) :
    exec (.call d t) s = .next ((s.closed.modSp (linked d.val (s.sp.pc + 8))).goto (s.targetOf t)) := by
  change execCall d t s = _
  refine isaCtl_ok hq.1 ?_
  rw [settled_quiet hq]
  simp only [targetOf_closed hq, target_of_lands (lands_closed hq.1 hland), ok_bind, sp_closed hq, hdepth, decide_true, check_true]
  cases hx : fhdrOf x with
  | none => rfl
  | some b => simp only [budget_ok (budgetOk_closed hq.1 hbudget) hx]; rfl

theorem runs_call (hq : s.quiet) (hlen : s.sp.s.length = 64) {d : Fin 64} (hd : d.val < 63) {t : Target} {x : DWord}
    (hland : Lands s (s.targetOf t) x) (hbudget : BudgetOk s x) (hdepth : s.sp.depth < 64) : Runs (.call d t) s fun u =>
      EndsAt s u (s.targetOf t) ∧ u.sp.pair d.val = s.sp.pc + 8 ∧ u.sp.depth = s.sp.depth + 1 := by
  have hlive := (quiet_closed hq).1
  have hid (p : Split) : (linked d.val (s.sp.pc + 8) p).id = p.id := rfl
  have hsp := sp_modSp hlive hid
  have hlinked := live_modSp hlive hid
  have hends := endsAt_modSp hlive hid (fun _ => rfl) fun _ => rfl
  refine ⟨_, exec_call hq hland hbudget hdepth, endsAt_trans (endsAt_closed hq.1) (endsAt_trans hends (endsAt_goto hlinked _)), ?_, ?_⟩
  · rw [sp_goto hlinked, hsp, sp_closed hq]
    exact pair_linked (by omega) _
  · rw [sp_goto hlinked, hsp, sp_closed hq]
    rfl

theorem exec_ret (hq : s.quiet) {a : Fin 64} {x : DWord} (hland : Lands s (s.sp.pair a.val) x) (hdepth : s.sp.depth ≠ 0) :
    exec (.ret a) s = .next ((s.closed.modSp fun p => { p with depth := p.depth - 1 }).goto (s.sp.pair a.val)) := by
  change execRet a s = _
  refine isaCtl_ok hq.1 ?_
  rw [settled_quiet hq]
  simp only [sp_closed hq, target_of_lands (lands_closed hq.1 hland), ok_bind, hdepth, ne_eq, not_false_eq_true, decide_true, check_true]

theorem runs_ret (hq : s.quiet) {a : Fin 64} {x : DWord} (hland : Lands s (s.sp.pair a.val) x) (hdepth : s.sp.depth ≠ 0) :
    Runs (.ret a) s fun u => EndsAt s u (s.sp.pair a.val) ∧ u.sp.s = s.sp.s ∧ u.sp.depth + 1 = s.sp.depth := by
  have hlive := (quiet_closed hq).1
  have hid (p : Split) : ({ p with depth := p.depth - 1 } : Split).id = p.id := rfl
  have hsp := sp_modSp hlive hid
  have hshallow := live_modSp hlive hid
  have hends := endsAt_modSp hlive hid (fun _ => rfl) fun _ => rfl
  refine ⟨_, exec_ret hq hland hdepth, endsAt_trans (endsAt_closed hq.1) (endsAt_trans hends (endsAt_goto hshallow _)), ?_, ?_⟩
  · rw [sp_goto hshallow, hsp, sp_closed hq]
  · rw [sp_goto hshallow, hsp, sp_closed hq]
    exact Nat.sub_one_add_one hdepth

/-! ### The distinct targets of callx (R149) -/

/-- One more thread's target among the distinct ones. -/
def addTarget (acc : List (DWord × Mask)) (e : Nat × DWord) : List (DWord × Mask) :=
  if acc.any (·.1 == e.2) then acc.map fun x => if x.1 = e.2 then (x.1, x.2 ||| 1#32 <<< e.1) else x
  else acc ++ [(e.2, 1#32 <<< e.1)]

theorem distinct_eq_foldl (ts : List (Nat × DWord)) : distinct ts = ts.foldl addTarget [] := rfl

theorem length_addTarget_le (acc : List (DWord × Mask)) (e : Nat × DWord) : (addTarget acc e).length ≤ acc.length + 1 := by
  unfold addTarget
  split <;> simp

theorem target_of_mem_addTarget {acc : List (DWord × Mask)} {e : Nat × DWord} {x : DWord × Mask} (h : x ∈ addTarget acc e) :
    x.1 = e.2 ∨ ∃ y ∈ acc, x.1 = y.1 := by
  unfold addTarget at h
  split at h
  · obtain ⟨y, hy, rfl⟩ := List.mem_map.1 h
    refine .inr ⟨y, hy, ?_⟩
    split <;> rfl
  · rcases List.mem_append.1 h with h | h
    · exact .inr ⟨x, h, rfl⟩
    · exact .inl (by rw [List.mem_singleton.1 h])

/-- The first target stays first, and gains the threads that name it. -/
theorem addTarget_cons (a : DWord) (m : Mask) (l : List (DWord × Mask)) (e : Nat × DWord) :
    ∃ l', addTarget ((a, m) :: l) e = (a, if a = e.2 then m ||| 1#32 <<< e.1 else m) :: l' := by
  unfold addTarget
  split
  · simp only [List.map_cons, List.cons.injEq, ↓existsAndEq, and_true]
    split <;> rfl
  next hnone =>
    have ha : a ≠ e.2 := fun ha => hnone (by simp [ha])
    rw [if_neg ha]
    exact ⟨_, rfl⟩

theorem length_distinct_le (ts : List (Nat × DWord)) : (distinct ts).length ≤ ts.length := by
  have hfold (acc : List (DWord × Mask)) : (ts.foldl addTarget acc).length ≤ acc.length + ts.length := by
    induction ts generalizing acc with
    | nil => exact Nat.le_refl _
    | cons e ts ih =>
      have hstep := length_addTarget_le acc e
      have hrest := ih (addTarget acc e)
      simp only [List.foldl_cons, List.length_cons]
      omega
  simpa [distinct_eq_foldl] using hfold []

theorem target_of_mem_distinct {ts : List (Nat × DWord)} {x : DWord × Mask} (h : x ∈ distinct ts) : ∃ e ∈ ts, x.1 = e.2 := by
  have hall : ∀ y ∈ distinct ts, ∃ e ∈ ts, y.1 = e.2 := by
    rw [distinct_eq_foldl]
    refine List.foldlRecOn (motive := fun acc => ∀ y ∈ acc, ∃ e ∈ ts, y.1 = e.2) ts addTarget ?_ fun acc ih e he y hy => ?_
    · exact fun y hy => absurd hy List.not_mem_nil
    · rcases target_of_mem_addTarget hy with hy | ⟨z, hz, hyz⟩
      · exact ⟨e, he, hy⟩
      · exact hyz ▸ ih z hz
  exact hall x h

/-- Thread j's bit of the mask of one thread. -/
theorem getLsbD_one_shiftLeft {i j : Nat} (hj : j < 32) : (1#32 <<< i).getLsbD j = true ↔ j = i := by
  simp only [BitVec.getLsbD_shiftLeft, BitVec.getLsbD_one, hj, decide_true, Bool.true_and, Bool.and_eq_true, Bool.not_eq_true',
    decide_eq_false_iff_not, decide_eq_true_eq]
  omega

theorem foldl_addTarget_cons (ts : List (Nat × DWord)) (a : DWord) (m : Mask) (l : List (DWord × Mask)) :
    ∃ m' l', ts.foldl addTarget ((a, m) :: l) = (a, m') :: l' ∧
      ∀ j < 32, m'.getLsbD j = true ↔ m.getLsbD j = true ∨ (j, a) ∈ ts := by
  induction ts generalizing m l with
  | nil => exact ⟨m, l, rfl, by simp⟩
  | cons e ts ih =>
    obtain ⟨l₁, hstep⟩ := addTarget_cons a m l e
    obtain ⟨m', l', hfold, hbits⟩ := ih (if a = e.2 then m ||| 1#32 <<< e.1 else m) l₁
    refine ⟨m', l', by rw [List.foldl_cons, hstep, hfold], fun j hj => (hbits j hj).trans ?_⟩
    have hmem : (j, a) = e ↔ a = e.2 ∧ j = e.1 := by rw [Prod.ext_iff]; exact and_comm
    rw [List.mem_cons, hmem, ← or_assoc]
    refine or_congr_left ?_
    split
    next ha => rw [BitVec.getLsbD_or, Bool.or_eq_true, getLsbD_one_shiftLeft hj, and_iff_right ha]
    next ha => simp only [ha, false_and, or_false]

/-- The first distinct target is the first thread's, with every thread that names it. -/
theorem distinct_cons (k : Nat) (a : DWord) (ts : List (Nat × DWord)) :
    ∃ m l, distinct ((k, a) :: ts) = (a, m) :: l ∧ ∀ j < 32, m.getLsbD j = true ↔ (j, a) ∈ (k, a) :: ts := by
  obtain ⟨m, l, hfold, hbits⟩ := foldl_addTarget_cons ts a (1#32 <<< k) []
  refine ⟨m, l, hfold, fun j hj => (hbits j hj).trans ?_⟩
  rw [getLsbD_one_shiftLeft hj, List.mem_cons, Prod.mk.injEq, and_iff_left rfl]

/-- The threads of a mask begin with its lowest. -/
theorem threads_eq_cons {m : Mask} {k : Nat} (hk : k < 32) (hbit : m.getLsbD k = true) (hlow : ∀ j < k, m.getLsbD j = false) :
    ∃ ts, threads m = k :: ts := by
  refine List.head?_eq_some_iff.1 ?_
  rw [threads, List.head?_filter, List.find?_range_eq_some]
  exact ⟨hbit, List.mem_range.2 hk, fun j hj => by rw [hlow j hj]; rfl⟩

theorem mem_threads {m : Mask} {j : Nat} : j ∈ threads m ↔ j < 32 ∧ m.getLsbD j = true := by
  rw [threads, List.mem_filter, List.mem_range]

/-! ### callx (R149, R150) -/

/-- The paths of the other targets come after the splits there are, and no handler is entered. -/
theorem addCalls_keeps {w : Wave} (p : Split) (after : Nat) (es : List (DWord × Mask)) {id : Nat} {q : Split} (h : w.split? id = some q) :
    (w.addCalls p after es).split? id = some q ∧ (w.addCalls p after es).handler = w.handler := by
  refine List.foldlRecOn (motive := fun v : Wave => v.split? id = some q ∧ v.handler = w.handler) _ _ ⟨h, rfl⟩ ?_
  rintro v ⟨hsplit, hhandler⟩ e -
  dsimp only
  split
  · refine ⟨?_, hhandler⟩
    rw [Wave.split?, List.find?_append]
    exact Option.or_eq_some_iff.2 (.inl hsplit)
  · exact ⟨hsplit, hhandler⟩

/-- The targets of the active threads, each once. -/
def calledBy (s : State) (a : Fin 128) : List (DWord × Mask) := distinct ((threads s.sp.mask).map fun t => (t, s.at64 (.v a) t))

/-- What callx makes of a state with its targets in hand: the executing split goes on at the first one. -/
def callInto (s : State) (d : Nat) (e : DWord × Mask) (es : List (DWord × Mask)) : State :=
  let s := s.modSp fun p => linked d (p.pc + 8) p
  (s.modW fun w => w.addCalls s.sp s.sp.uid es).modSp fun p => { p with pc := e.1, mask := e.2, low := false, pfx := none }

theorem callInto_keeps (hl : s.live = true) (d : Nat) (e : DWord × Mask) (es : List (DWord × Mask)) :
    (callInto s d e es).sp = { linked d (s.sp.pc + 8) s.sp with pc := e.1, mask := e.2, low := false, pfx := none } ∧
      (callInto s d e es).w.handler = s.w.handler := by
  have hid (p : Split) : (linked d (p.pc + 8) p).id = p.id := rfl
  have hsp := sp_modSp hl hid
  have hw := w_modSp hl fun p => linked d (p.pc + 8) p
  have hlinked := live_modSp hl hid
  unfold callInto
  generalize s.modSp (fun p => linked d (p.pc + 8) p) = t at hsp hw hlinked
  obtain ⟨hsplit, hhandler⟩ := addCalls_keeps t.sp t.sp.uid es (split?_of_live hlinked)
  have hadded : (t.modW fun w => w.addCalls t.sp t.sp.uid es).w = t.w.addCalls t.sp t.sp.uid es := t.w_modW _ hlinked
  have hlive : (t.modW fun w => w.addCalls t.sp t.sp.uid es).live = true :=
    (State.live_iff _).2 ⟨_, by rw [State.modW, State.modWave_cur, State.wave?_modWave, wave?_of_live hlinked]; rfl, _, hsplit⟩
  have hfirst : (t.modW fun w => w.addCalls t.sp t.sp.uid es).sp = t.sp := by
    rw [State.sp, hadded, State.modW_cur, hsplit]; rfl
  dsimp only
  constructor
  · rw [sp_modSp hlive, hfirst, hsp]
    exact fun _ => rfl
  · rw [w_modSp hlive, hadded]
    exact hhandler.trans (by rw [hw]; rfl)

theorem exec_callx (hq : s.quiet) (hhandler : s.w.handler = none) {d : Fin 64} {a : Fin 128} {e : DWord × Mask} {es : List (DWord × Mask)}
    (hcalls : calledBy s a = e :: es) (hlands : ∀ e' ∈ e :: es, ∃ x n g, Lands s e'.1 x ∧ fhdrOf x = some (n, g) ∧ BudgetOk s x)
    (hdepth : s.sp.depth < 64) (hroom : es.length ≤ (4 - s.w.splits.length) + (8 - s.w.deferred.length)) :
    exec (.callx d a) s = .next (callInto s.closed d.val e es) := by
  change execCallx d a s = _
  refine isaCtl_ok hq.1 ?_
  have hcheck : s.closed.callTargets (e :: es) = .ok () := callTargets_ok fun e' he => by
    obtain ⟨x, n, g, hland, hx, hbudget⟩ := hlands e' he
    exact ⟨x, n, g, lands_closed hq.1 hland, hx, budgetOk_closed hq.1 hbudget⟩
  have hclosed : distinct ((threads s.sp.mask).map fun t => (t, s.closed.at64 (.v a) t)) = e :: es := by
    simp only [at64_v_closed hq]
    exact hcalls
  have hplaces : s.closed.w.splits.length = s.w.splits.length ∧ s.closed.w.deferred = s.w.deferred := by
    rw [w_closed hq.1]
    exact ⟨List.length_map _, rfl⟩
  simp only [hhandler, Option.isSome_none, Bool.false_eq_true, ↓reduceIte, settled_quiet hq, sp_closed hq, hclosed, hcheck, ok_bind, hdepth,
    decide_true, check_true, hplaces, List.length_cons, Nat.add_sub_cancel, hroom]
  rfl

/-- The targets of a call that begins at thread k: its own first, with the threads that name it. -/
theorem calledBy_of_lowest {a : Fin 128} {k : Nat} (hk : k < 32) (hbit : s.sp.mask.getLsbD k = true)
    (hlow : ∀ j < k, s.sp.mask.getLsbD j = false) : ∃ m es, calledBy s a = (s.at64 (.v a) k, m) :: es ∧
      ∀ j < 32, m.getLsbD j = true ↔ (s.sp.mask.getLsbD j = true ∧ s.at64 (.v a) j = s.at64 (.v a) k) := by
  obtain ⟨rest, hthreads⟩ := threads_eq_cons hk hbit hlow
  obtain ⟨m, es, hdistinct, hbits⟩ := distinct_cons k (s.at64 (.v a) k) (rest.map fun t => (t, s.at64 (.v a) t))
  refine ⟨m, es, by rw [calledBy, hthreads]; exact hdistinct, fun j hj => (hbits j hj).trans ?_⟩
  rw [← List.map_cons (f := fun t => (t, s.at64 (.v a) t)), ← hthreads, List.mem_map]
  constructor
  · rintro ⟨i, hi, hpair⟩
    obtain ⟨rfl, htarget⟩ := Prod.mk.inj hpair
    exact ⟨(mem_threads.1 hi).2, htarget⟩
  · rintro ⟨hactive, htarget⟩
    exact ⟨j, mem_threads.2 ⟨hj, hactive⟩, by rw [htarget]⟩

theorem target_of_mem_calledBy {a : Fin 128} {e : DWord × Mask} (h : e ∈ calledBy s a) :
    ∃ j < 32, s.sp.mask.getLsbD j = true ∧ e.1 = s.at64 (.v a) j := by
  obtain ⟨x, hx, htarget⟩ := target_of_mem_distinct h
  obtain ⟨j, hj, rfl⟩ := List.mem_map.1 hx
  obtain ⟨hlt, hactive⟩ := mem_threads.1 hj
  exact ⟨j, hlt, hactive, htarget⟩

theorem length_calledBy_le (a : Fin 128) : (calledBy s a).length ≤ (threads s.sp.mask).length :=
  (length_distinct_le _).trans_eq (List.length_map _)

theorem runs_callx (hq : s.quiet) (hlen : s.sp.s.length = 64) {d : Fin 64} (hd : d.val < 63) {a : Fin 128} {k : Nat} (hk : k < 32)
    (hbit : s.sp.mask.getLsbD k = true) (hlow : ∀ j < k, s.sp.mask.getLsbD j = false) (hhandler : s.w.handler = none)
    (hdepth : s.sp.depth < 64) (hplaces : s.w.splits.length + s.w.deferred.length + (threads s.sp.mask).length ≤ 13)
    (hsplits : s.w.splits.length ≤ 4) (hdeferred : s.w.deferred.length ≤ 8)
    (hlands : ∀ j < 32, s.sp.mask.getLsbD j = true →
      ∃ y n m, Lands s (s.at64 (.v a) j) y ∧ fhdrOf y = some (n, m) ∧ BudgetOk s y) :
    Runs (.callx d a) s fun u => u.sp.pc = s.at64 (.v a) k ∧ u.sp.pair d.val = s.sp.pc + 8 ∧ u.sp.depth = s.sp.depth + 1 ∧
      u.sp.status = s.sp.status ∧ u.w.handler = none ∧ u.mem = s.mem ∧
      ∀ j < 32, u.sp.mask.getLsbD j = true ↔ (s.sp.mask.getLsbD j = true ∧ s.at64 (.v a) j = s.at64 (.v a) k) := by
  obtain ⟨m, es, hcalls, hmask⟩ := calledBy_of_lowest hk hbit hlow
  have hroom : es.length ≤ (4 - s.w.splits.length) + (8 - s.w.deferred.length) := by
    have hcount := length_calledBy_le (s := s) a
    rw [hcalls, List.length_cons] at hcount
    omega
  have htargets : ∀ e ∈ (s.at64 (.v a) k, m) :: es, ∃ x n g, Lands s e.1 x ∧ fhdrOf x = some (n, g) ∧ BudgetOk s x := by
    intro e he
    obtain ⟨j, hj, hactive, htarget⟩ := target_of_mem_calledBy (hcalls ▸ he)
    rw [htarget]
    exact hlands j hj hactive
  obtain ⟨hsp, hkept⟩ := callInto_keeps (quiet_closed hq).1 d.val (s.at64 (.v a) k, m) es
  rw [sp_closed hq] at hsp
  refine ⟨_, exec_callx hq hhandler hcalls htargets hdepth hroom, by rw [hsp], ?_, by rw [hsp]; rfl, by rw [hsp]; rfl, ?_, rfl, ?_⟩
  · rw [hsp]
    exact pair_linked (by omega) _
  · rw [hkept, w_closed hq.1]
    exact hhandler
  · rw [hsp]
    exact hmask

end

/-- Settles O59: the lane forms by the writes that succeed, the calls by the checks that their targets pass. -/
theorem laneFormsAndCallsComplete : Obligations.LaneFormsAndCallsComplete := by
  unfold Obligations.LaneFormsAndCallsComplete
  refine ⟨?_, fun s d x hq hlen hd => ⟨fun t => runs_call hq hlen hd, runs_ret hq, fun a k => runs_callx hq hlen hd⟩⟩
  intro s g d a b src lg mode op excl hq ends room hroom ha hsrc
  exact ⟨runs_of_succeeds hq.1 (succeeds_shfl hq hroom ha mode lg), runs_of_succeeds hq.1 (succeeds_rdlane hq hroom hsrc),
    runs_of_succeeds hq.1 (succeeds_redux hq hroom op), runs_of_succeeds hq.1 (succeeds_scan hq hroom op excl)⟩

end Sys2Proof.Proofs
end

section
/-! The branches and their targets (R138 to R140, R151): the checks of a target, when br, jmp and loop are taken, and what loop counts. -/

namespace Sys2Proof.Proofs
open Sys2Proof Sys2Proof.Machine

section
variable {s : State}

/-! ### The checks of a target (R138) -/

theorem error_bind {ε α β : Type} (e : ε) (f : α → Except ε β) : (Except.error e >>= f) = .error e := rfl

theorem check_false (t : TrapReq) : check false t = .error t := rfl

theorem target_misaligned {a : DWord} (h : a.toNat % 8 ≠ 0) : s.target a = .error ⟨tcMisaligned, 0, a.extractLsb' 0 32, a⟩ := by
  simp only [State.target, bne_iff_ne, ne_eq, h, not_false_eq_true, ↓reduceIte]

theorem target_unfetched {a : DWord} {e : TrapReq} (h : a.toNat % 8 = 0) (he : s.fetch s.cur.core s.w.grid a = .error e) :
    s.target a = .error { e with addr := a } := by
  simp only [State.target, h, he, error_bind, bne_self_eq_false, Bool.false_eq_true, ↓reduceIte]

theorem target_unmarked {a x : DWord} (h : a.toNat % 8 = 0) (hx : s.fetch s.cur.core s.w.grid a = .ok x) (he : x.getLsbD 61 = false) :
    s.target a = .error ⟨tcBadTarget, 0, a.extractLsb' 0 32, a⟩ := by
  simp only [State.target, h, hx, ok_bind, he, bne_self_eq_false, Bool.false_eq_true, ↓reduceIte]

/-! ### br (R139, R140) -/

/-- The condition of br: its register, or with null one that is always true. -/
def brCondition (s : State) (a : Opnd) : Word := if a = .null then 1 else (s.src a).at 0

/-- br with its condition read. -/
def brOn (s : State) (g : Guard) (disp : BitVec 19) (x : Word) : Except TrapReq State :=
  if x = 0 || s.guardMask g = 0 then .ok s.advance
  else if s.guardMask g = s.sp.mask then
    s.settled fun s => do
      let _ ← s.target (s.dispTo disp)
      .ok (s.goto (s.dispTo disp))
  else .error (trapI tcShape (0xD0 + g.p.val))

theorem isaCtl_congr {f f' : State → Except TrapReq State} (h : f s = f' s) : isaCtl f s = isaCtl f' s := by
  simp only [isaCtl, h]

theorem exec_br_eq {a : Opnd} (ha : a = .null ∨ (s.src a).isUni = true) (g : Guard) (disp : BitVec 19) :
    exec (.br g a disp) s = isaCtl (fun s => brOn s g disp (brCondition s a)) s := by
  change execBr g a disp s = _
  refine isaCtl_congr ?_
  by_cases hnull : a = .null
  · simp only [hnull, brCondition, ↓reduceIte]
    rfl
  · simp only [hnull, ↓reduceIte, State.scalar, ha.resolve_left hnull, brCondition]
    rfl

theorem exec_br_vector {a : Opnd} (hl : s.live = true) (ha : a ≠ .null) (hv : (s.src a).isUni = false) (g : Guard) (disp : BitVec 19) :
    exec (.br g a disp) s = .next (s.raise (trapI tcShape a.toByte.toNat)) := by
  change execBr g a disp s = _
  refine isaCtl_error hl ?_
  simp only [ha, ↓reduceIte, State.scalar, hv, Bool.false_eq_true, error_bind]

theorem brOn_untaken {g : Guard} {x : Word} (h : x = 0 ∨ s.guardMask g = 0) (disp : BitVec 19) : brOn s g disp x = .ok s.advance := by
  simp only [brOn, Bool.or_eq_true, decide_eq_true_eq, h, ↓reduceIte]

theorem brOn_divided {g : Guard} {x : Word} (hx : x ≠ 0) (hg : s.guardMask g ≠ 0) (hpart : s.guardMask g ≠ s.sp.mask) (disp : BitVec 19) :
    brOn s g disp x = .error (trapI tcShape (0xD0 + g.p.val)) := by
  simp only [brOn, hx, hg, hpart, decide_false, Bool.or_self, Bool.false_eq_true, ↓reduceIte]

theorem brOn_taken (hq : s.quiet) {g : Guard} {x : Word} (hx : x ≠ 0) (hg : s.guardMask g ≠ 0) (hall : s.guardMask g = s.sp.mask)
    (disp : BitVec 19) :
    brOn s g disp x = (s.closed.target (s.closed.dispTo disp)).map fun _ => s.closed.goto (s.closed.dispTo disp) := by
  have hmask : s.sp.mask ≠ 0 := hall ▸ hg
  simp only [brOn, hx, hall, hmask, decide_false, Bool.or_self, Bool.false_eq_true, ↓reduceIte, settled_quiet hq]
  rfl

/-- The condition of br in the words of the statements. -/
theorem brCondition_eq_zero {a : Opnd} : brCondition s a = 0 ↔ a ≠ .null ∧ (s.src a).at 0 = 0 := by
  unfold brCondition
  split <;> simp_all

theorem brCondition_ne_zero {a : Opnd} (h : a = .null ∨ (s.src a).at 0 ≠ 0) : brCondition s a ≠ 0 := fun h0 =>
  h.elim (brCondition_eq_zero.1 h0).1 fun hne => hne (brCondition_eq_zero.1 h0).2

/-! ### loop (R151) -/

theorem readS_closed (hq : s.quiet) (n : Nat) : s.closed.readS n = s.readS n := by
  rw [readS_quiet (quiet_closed hq), readS_quiet hq, sp_closed hq]

theorem count_eq_zero {x : Word} : x - 1 = 0 ↔ x = 1 := by rw [sub_eq_zero]

theorem exec_loop_last (hl : s.live = true) {d : Fin 64} (h : s.readS d.val = 1) (disp : BitVec 19) :
    exec (.loop d disp) s = .next ((s.writeS d.val 0).advance) := by
  change execLoop d disp s = _
  refine isaCtl_ok hl ?_
  simp only [h, sub_self, ↓reduceIte]

/-- loop taken is a check of its target and a branch that writes the count. -/
theorem exec_loop_taken (hq : s.quiet) {d : Fin 64} (h : s.readS d.val ≠ 1) (disp : BitVec 19) :
    exec (.loop d disp) s = isaCtl (fun s => (s.closed.target (s.closed.dispTo disp)).map fun _ =>
      (s.closed.writeS d.val (s.closed.readS d.val - 1)).goto (s.closed.dispTo disp)) s := by
  change execLoop d disp s = _
  refine isaCtl_congr ?_
  have hcount : s.readS d.val - 1 ≠ 0 := fun h0 => h (count_eq_zero.1 h0)
  simp only [hcount, ↓reduceIte, settled_quiet hq, readS_closed hq]
  rfl

/-! ### Transfers (R138) -/

/-- The trap of a target comes before all else that a taken transfer does. -/
theorem exec_of_target_error (hq : s.quiet) {i : Instr} {dest : DWord} {e : TrapReq} (ht : Transfers i s dest)
    (he : s.closed.target dest = .error e) : exec i s = .next (s.raise e) := by
  cases i with
  | br g a disp =>
    obtain ⟨ha, hg, hall, rfl⟩ := ht
    rw [exec_br_eq (ha.imp_right And.left)]
    refine isaCtl_error hq.1 ?_
    rw [brOn_taken hq (brCondition_ne_zero (ha.imp_right And.right)) hg hall, he]
    rfl
  | brD g h disp =>
    obtain ⟨hhandler, hg, rfl⟩ := ht
    change execBrD g h disp s = _
    refine isaCtl_error hq.1 ?_
    simp only [hhandler, Option.isSome_none, Bool.false_eq_true, hg, ↓reduceIte, settled_quiet hq, he, error_bind]
  | jmp t =>
    obtain rfl := ht
    change execJmp t s = _
    refine isaCtl_error hq.1 ?_
    simp only [settled_quiet hq, he, error_bind]
  | call d t =>
    obtain rfl := ht
    change execCall d t s = _
    refine isaCtl_error hq.1 ?_
    simp only [settled_quiet hq, he, error_bind]
  | ret a =>
    obtain rfl := ht
    change execRet a s = _
    refine isaCtl_error hq.1 ?_
    simp only [settled_quiet hq, he, error_bind]
  | loop d disp =>
    obtain ⟨hcount, rfl⟩ := ht
    rw [exec_loop_taken hq hcount]
    refine isaCtl_error hq.1 ?_
    rw [he]
    rfl
  | _ => exact ht.elim

/-- Each check of R138, in its order. -/
theorem exec_bad_target (hq : s.quiet) {i : Instr} {dest : DWord} (ht : Transfers i s dest) :
    (dest.toNat % 8 ≠ 0 → exec i s = .next (s.raise ⟨tcMisaligned, 0, dest.extractLsb' 0 32, dest⟩)) ∧
    (dest.toNat % 8 = 0 → ∀ e, s.closed.fetch s.closed.cur.core s.closed.w.grid dest = .error e →
      exec i s = .next (s.raise { e with addr := dest })) ∧
    (dest.toNat % 8 = 0 → ∀ x, s.closed.fetch s.closed.cur.core s.closed.w.grid dest = .ok x → x.getLsbD 61 = false →
      exec i s = .next (s.raise ⟨tcBadTarget, 0, dest.extractLsb' 0 32, dest⟩)) :=
  ⟨fun h => exec_of_target_error hq ht (target_misaligned h), fun h _ he => exec_of_target_error hq ht (target_unfetched h he),
    fun h _ hx he => exec_of_target_error hq ht (target_unmarked h hx he)⟩

theorem exec_br_taken (hq : s.quiet) {g : Guard} {a : Opnd} {disp : BitVec 19} {dest x : DWord} (ht : Transfers (.br g a disp) s dest)
    (hland : Lands s.closed dest x) : exec (.br g a disp) s = .next (s.closed.goto dest) := by
  obtain ⟨ha, hg, hall, rfl⟩ := ht
  rw [exec_br_eq (ha.imp_right And.left)]
  refine isaCtl_ok hq.1 ?_
  rw [brOn_taken hq (brCondition_ne_zero (ha.imp_right And.right)) hg hall, target_of_lands hland]
  rfl

theorem exec_jmp (hq : s.quiet) {t : Target} {x : DWord} (hland : Lands s.closed (s.closed.targetOf t) x) :
    exec (.jmp t) s = .next (s.closed.goto (s.closed.targetOf t)) := by
  change execJmp t s = _
  refine isaCtl_ok hq.1 ?_
  simp only [settled_quiet hq, target_of_lands hland, ok_bind]

theorem exec_loop_lands (hq : s.quiet) {d : Fin 64} {disp : BitVec 19} {x : DWord} (h : s.readS d.val ≠ 1)
    (hland : Lands s.closed (s.closed.dispTo disp) x) : exec (.loop d disp) s =
      .next ((s.closed.writeS d.val (s.closed.readS d.val - 1)).goto (s.closed.dispTo disp)) := by
  rw [exec_loop_taken hq h]
  refine isaCtl_ok hq.1 ?_
  rw [target_of_lands hland]
  rfl

/-! ### What loop counts (R151) -/

/-- The executing split's Sn holds x, the other splits and memory are as they were. -/
def CountsTo (s t : State) (n : Nat) (x : Word) : Prop :=
  t.sp.s = s.sp.s.set n x ∧ (∀ j, j ≠ s.cur.split → t.w.split? j = s.w.split? j) ∧ t.mem = s.mem

/-- An update of the executing split alone keeps the others. -/
theorem split?_modSp_ne (hl : s.live = true) {f : Split → Split} (hid : ∀ p : Split, (f p).id = p.id) {j : Nat} (hj : j ≠ s.cur.split) :
    (s.modSp f).w.split? j = s.w.split? j := by
  rw [w_modSp hl]
  exact s.w.split?_modSplit_ne f (fun p hp => (hid p).trans hp) hj

theorem countsTo_putS (hl : s.live = true) (n : Nat) (x : Word) {f : Split → Split} (hid : ∀ p : Split, (f p).id = p.id)
    (hs : ∀ p : Split, (f p).s = p.s) : CountsTo s ((s.putS n x).modSp f) n x := by
  have hput (p : Split) : ({ p with s := p.s.set n x, windows := p.windows.map fun w => w.follow (sOpnd n) fullMask } : Split).id = p.id := rfl
  have hlive : (s.putS n x).live = true := live_modSp hl hput
  refine ⟨?_, fun j hj => (split?_modSp_ne hlive hid hj).trans (split?_modSp_ne hl hput hj), rfl⟩
  rw [sp_modSp hlive hid, hs, State.putS, sp_modSp hl hput]

theorem split?_closed (hl : s.live = true) {j : Nat} (hj : j ≠ s.cur.split) : s.closed.w.split? j = s.w.split? j :=
  split?_modSp_ne hl (f := fun p => { p with windows := [] }) (fun _ => rfl) hj

theorem countsTo_of_closed (hq : s.quiet) {t : State} {n : Nat} {x : Word} (h : CountsTo s.closed t n x) : CountsTo s t n x := by
  obtain ⟨hs, hothers, hmem⟩ := h
  rw [sp_closed hq] at hs
  exact ⟨hs, fun j hj => (hothers j hj).trans (split?_closed hq.1 hj), hmem⟩

theorem writeS_of_quiet (hq : s.quiet) (n : Nat) (x : Word) : s.writeS n x = s.putS n x := by
  simp only [State.writeS, heldS_nil hq.2]

theorem sp_putS (hl : s.live = true) (n : Nat) (x : Word) :
    (s.putS n x).sp = { s.sp with s := s.sp.s.set n x, windows := s.sp.windows.map fun w => w.follow (sOpnd n) fullMask } :=
  sp_modSp hl fun _ => rfl

theorem live_putS (hl : s.live = true) (n : Nat) (x : Word) : (s.putS n x).live = true := live_modSp hl fun _ => rfl

theorem runs_loop_last (hq : s.quiet) {d : Fin 64} (h : s.sp.s.getD d.val 0 - 1 = 0) (disp : BitVec 19) :
    Runs (.loop d disp) s fun t => CountsTo s t d.val (s.sp.s.getD d.val 0 - 1) ∧ t.sp.pc = s.sp.pc + 8 := by
  have hread : s.readS d.val = 1 := (readS_quiet hq d.val).trans (count_eq_zero.1 h)
  refine ⟨_, exec_loop_last hq.1 hread disp, ?_⟩
  rw [writeS_of_quiet hq, h]
  refine ⟨countsTo_putS hq.1 _ _ (fun _ => rfl) fun _ => rfl, ?_⟩
  rw [sp_advance (live_putS hq.1 _ _), sp_putS hq.1]

theorem runs_loop_taken (hq : s.quiet) {d : Fin 64} {disp : BitVec 19} {b : DWord} (h : s.sp.s.getD d.val 0 - 1 ≠ 0)
    (hland : Lands s.closed (s.closed.dispTo disp) b) :
    Runs (.loop d disp) s fun t => CountsTo s t d.val (s.sp.s.getD d.val 0 - 1) ∧ t.sp.pc = s.closed.dispTo disp := by
  have hread : s.readS d.val ≠ 1 := fun h1 => h (count_eq_zero.2 ((readS_quiet hq d.val).symm.trans h1))
  have hqc := quiet_closed hq
  refine ⟨_, exec_loop_lands hq hread hland, ?_⟩
  rw [writeS_of_quiet hqc, readS_closed hq, readS_quiet hq]
  refine ⟨countsTo_of_closed hq (countsTo_putS hqc.1 _ _ (fun _ => rfl) fun _ => rfl), ?_⟩
  rw [sp_goto (live_putS hqc.1 _ _)]

end

/-- Settles O15: a bad target is `exec_bad_target` for every transfer; br, jmp and loop by their conditions. -/
theorem branchesAndTargets : Obligations.BranchesAndTargets := by
  unfold Obligations.BranchesAndTargets
  refine ⟨fun i s dest hq ht => exec_bad_target hq ht, fun s hq =>
    ⟨fun g a disp => ⟨fun ha hv => exec_br_vector hq.1 ha hv g disp, fun ha => ?_⟩, fun t x => exec_jmp hq,
      fun d disp => ⟨fun h => exec_loop_last hq.1 h disp, fun x => exec_loop_lands hq⟩⟩⟩
  refine ⟨fun hno => ?_, fun dest x => exec_br_taken hq, fun hcond hg hpart => ?_⟩
  · rw [exec_br_eq ha]
    exact isaCtl_ok hq.1 (brOn_untaken (hno.imp_left brCondition_eq_zero.2) disp)
  · rw [exec_br_eq ha]
    exact isaCtl_error hq.1 (brOn_divided (brCondition_ne_zero hcond) hg hpart disp)

/-- Settles O16: the count is written on both ways on, and a taken loop is a transfer of R138. -/
theorem loopCounts : Obligations.LoopCounts := by
  unfold Obligations.LoopCounts
  intro s d disp hq _
  refine ⟨fun h => by rw [h]; rfl, fun h b => runs_loop_taken hq h, fun h => ?_, fun h => runs_loop_last hq h disp⟩
  have hread : s.readS d.val ≠ 1 := fun h1 => h (count_eq_zero.2 ((readS_quiet hq d.val).symm.trans h1))
  have hw : s.closed.w.grid = s.w.grid := by rw [w_closed hq.1]; rfl
  rw [← hw]
  exact exec_bad_target hq (i := .loop d disp) ⟨hread, rfl⟩

end Sys2Proof.Proofs
end

section
/-! The splits of a wave: the lowest free slot, the deferred entries that take the free ones, the parked split that goes on when none
runs, and the merge of two (R137, R142, R144, R145). -/

namespace Sys2Proof.Proofs
open Sys2Proof Sys2Proof.Machine

section
variable {w : Wave}

/-! ### Free slots (R137) -/

theorem freeId_eq_some {j : Nat} : w.freeId = some j ↔ j < 4 ∧ (∀ p ∈ w.splits, p.id ≠ j) ∧ ∀ k < j, ∃ p ∈ w.splits, p.id = k := by
  have h : w.freeId = some j ↔ _ := List.find?_range_eq_some (n := 4)
  simp only [List.mem_range, Bool.not_eq_true', List.any_eq_false, beq_iff_eq, Bool.not_not, List.any_eq_true] at h
  rw [h]
  tauto

theorem freeId_eq_none : w.freeId = none ↔ ∀ k < 4, ∃ p ∈ w.splits, p.id = k := by
  have h : w.freeId = none ↔ _ := List.find?_range_eq_none (n := 4)
  simpa only [Bool.not_not, List.any_eq_true, beq_iff_eq] using h

/-- Four splits at least hold all four slots. -/
theorem length_splits_of_freeId_none (h : w.freeId = none) : 4 ≤ w.splits.length := by
  have hsub : List.range 4 ⊆ w.splits.map (·.id) := fun k hk => List.mem_map.2 (freeId_eq_none.1 h k (List.mem_range.1 hk))
  simpa using (List.nodup_range.subperm hsub).length_le

/-- Each split has a slot of its own (R137). -/
def OwnSlots (w : Wave) : Prop := (w.splits.map (·.id)).Nodup ∧ ∀ p ∈ w.splits, p.id < 4

theorem length_splits_le (h : OwnSlots w) : w.splits.length ≤ 4 := by
  have hsub : w.splits.map (·.id) ⊆ List.range 4 := fun k hk => by
    obtain ⟨p, hp, rfl⟩ := List.mem_map.1 hk
    exact List.mem_range.2 (h.2 p hp)
  simpa using (h.1.subperm hsub).length_le

/-! ### Deferred entries become live (R142) -/

/-- The running split that a deferred entry becomes in slot i. -/
def liveEntry (d : Deferred) (i : Nat) : Split :=
  { Split.blank with id := i, pc := d.pc, mask := d.mask, s := d.s, depth := d.depth, uid := d.uid, div := d.div }

/-- The top of the stack in slot i, and the rest of the stack. -/
def takeSlot (w : Wave) (i : Nat) (d : Deferred) (ds : List Deferred) : Wave :=
  { w with splits := w.splits ++ [liveEntry d i], deferred := ds }

theorem refill_cons_none (d : Deferred) (ds : List Deferred) (h : w.freeId = none) : Wave.refill (d :: ds) w = w := by
  rw [Wave.refill, h]

theorem refill_cons_some {d : Deferred} {ds : List Deferred} {i : Nat} (h : w.freeId = some i) :
    Wave.refill (d :: ds) w = Wave.refill ds (takeSlot w i d ds) := by
  rw [Wave.refill, h]
  rfl

theorem ownSlots_takeSlot {i : Nat} (hown : OwnSlots w) (hi : w.freeId = some i) (d : Deferred) (ds : List Deferred) :
    OwnSlots (takeSlot w i d ds) := by
  obtain ⟨hlt, hfree, -⟩ := freeId_eq_some.1 hi
  refine ⟨?_, fun p hp => ?_⟩
  · rw [takeSlot, List.map_append]
    refine List.nodup_append.2 ⟨hown.1, List.nodup_singleton _, ?_⟩
    rintro a ha b hb rfl
    obtain ⟨p, hp, hpa⟩ := List.mem_map.1 ha
    exact hfree p hp (hpa.trans (List.mem_singleton.1 hb))
  · rcases List.mem_append.1 hp with hp | hp
    · exact hown.2 p hp
    · rw [List.mem_singleton.1 hp]
      exact hlt

/-- Refilling adds splits after those there are, takes entries off the stack, and touches nothing else. -/
theorem refill_eq (ds : List Deferred) (w : Wave) :
    ∃ ps ds', Wave.refill ds w = { w with splits := w.splits ++ ps, deferred := ds' } := by
  induction ds generalizing w with
  | nil => exact ⟨[], w.deferred, by simp [Wave.refill]⟩
  | cons d ds ih =>
    cases hfree : w.freeId with
    | none => exact ⟨[], w.deferred, by simp [refill_cons_none d ds hfree]⟩
    | some i =>
      obtain ⟨ps, ds', h⟩ := ih (takeSlot w i d ds)
      exact ⟨liveEntry d i :: ps, ds', by rw [refill_cons_some hfree, h]; simp [takeSlot]⟩

theorem mem_splits_refill {p : Split} (hp : p ∈ w.splits) (ds : List Deferred) : p ∈ (Wave.refill ds w).splits := by
  obtain ⟨ps, ds', h⟩ := refill_eq ds w
  rw [h]
  exact List.mem_append_left _ hp

/-- The top of the stack is in the lowest free slot. -/
theorem liveEntry_mem_refill {d : Deferred} {ds : List Deferred} {i : Nat} (h : w.freeId = some i) :
    liveEntry d i ∈ (Wave.refill (d :: ds) w).splits := by
  rw [refill_cons_some h]
  exact mem_splits_refill (List.mem_append_right _ (List.mem_singleton.2 rfl)) ds

/-- With the stack used up or all four slots held, refilling ends. -/
theorem refill_fills {ds : List Deferred} (hds : w.deferred = ds) (hown : OwnSlots w) :
    (Wave.refill ds w).deferred = [] ∨ (Wave.refill ds w).splits.length = 4 := by
  induction ds generalizing w with
  | nil => exact .inl hds
  | cons d ds ih =>
    cases hfree : w.freeId with
    | none =>
      rw [refill_cons_none d ds hfree]
      exact .inr (Nat.le_antisymm (length_splits_le hown) (length_splits_of_freeId_none hfree))
    | some i =>
      rw [refill_cons_some hfree]
      exact ih rfl (ownSlots_takeSlot hown hfree d ds)

/-! ### A parked split goes on (R145) -/

theorem unpark_of_running (h : ∃ q ∈ w.splits, q.parked = false) : w.unpark = w := by
  have hall : w.splits.all Split.parked = false := by
    rw [List.all_eq_false]
    obtain ⟨q, hq, hpark⟩ := h
    exact ⟨q, hq, by simp [hpark]⟩
  simp only [Wave.unpark, hall, Bool.false_eq_true, ↓reduceIte]

/-- Unparking releases one split or does nothing. -/
theorem unpark_cases (w : Wave) : w.unpark = w ∨ ∃ id, w.unpark = w.modSplit id Split.release := by
  simp only [Wave.unpark]
  split
  · split
    · exact .inr ⟨_, rfl⟩
    · exact .inl rfl
  · exact .inl rfl

/-- The splits of a wave in hint order. -/
def byHint (w : Wave) : List Split := w.hint.filterMap fun u => w.splits.find? (·.uid == u)

theorem mem_splits_of_mem_byHint {q : Split} (h : q ∈ byHint w) : q ∈ w.splits := by
  obtain ⟨u, -, hu⟩ := List.mem_filterMap.1 h
  exact List.mem_of_find?_eq_some hu

theorem unpark_join {p : Split} (hall : ∀ q ∈ w.splits, q.parked = true)
    (hjoin : (byHint w).find? (·.status == Status.parkedJoin) = some p) : w.unpark = w.modSplit p.id Split.release := by
  have hpark : w.splits.all Split.parked = true := List.all_eq_true.2 hall
  simp only [Wave.unpark, hpark, ↓reduceIte]
  rw [← byHint, hjoin]

theorem unpark_conv {p : Split} (hall : ∀ q ∈ w.splits, q.parked = true)
    (hjoin : (byHint w).find? (·.status == Status.parkedJoin) = none)
    (hconv : (byHint w).find? (·.status == Status.parkedConv) = some p) : w.unpark = w.modSplit p.id Split.release := by
  have hpark : w.splits.all Split.parked = true := List.all_eq_true.2 hall
  simp only [Wave.unpark, hpark, ↓reduceIte]
  rw [← byHint, hjoin]
  simp only [hconv]

theorem pos_eq_idxOf (w : Wave) (u : Nat) : w.pos u = w.hint.idxOf u := List.findIdx_eq_getD_findIdx?.symm

theorem find?_uid {p : Split} (huid : (w.splits.map (·.uid)).Nodup) (hp : p ∈ w.splits) : w.splits.find? (·.uid == p.uid) = some p := by
  have hsome : (w.splits.find? (·.uid == p.uid)).isSome := List.find?_isSome.2 ⟨p, hp, beq_self_eq_true _⟩
  obtain ⟨q, hq⟩ := Option.isSome_iff_exists.1 hsome
  have hsame : q.uid = p.uid := by simpa using List.find?_some hq
  rw [hq, List.inj_on_of_nodup_map huid (List.mem_of_find?_eq_some hq) hp hsame]

/-- Of the splits with a status the one earliest in hint order is found first. -/
theorem find?_byHint {p : Split} {st : Status} (huid : (w.splits.map (·.uid)).Nodup) (hp : p ∈ w.splits) (hhint : p.uid ∈ w.hint)
    (hst : p.status = st) (hfirst : ∀ q ∈ w.splits, q.status = st → w.pos p.uid ≤ w.pos q.uid) :
    (byHint w).find? (·.status == st) = some p := by
  obtain ⟨pre, post, hsplit, hnot⟩ := List.eq_append_cons_of_mem hhint
  have hpos : w.pos p.uid = pre.length := by
    rw [pos_eq_idxOf, hsplit, List.idxOf_append_of_notMem hnot, List.idxOf_cons_self, Nat.add_zero]
  have hbefore : pre.find? (fun u => (w.splits.find? (·.uid == u)).any (·.status == st)) = none := by
    refine List.find?_eq_none.2 fun u hu hany => ?_
    obtain ⟨q, hq, hqst⟩ := (Option.any_eq_true _ _).1 hany
    have hqu : q.uid = u := by simpa using List.find?_some hq
    have hle := hfirst q (List.mem_of_find?_eq_some hq) (eq_of_beq hqst)
    have hearly : w.pos u < pre.length := by
      rw [pos_eq_idxOf, hsplit, List.idxOf_append_of_mem hu]
      exact List.idxOf_lt_length_iff.2 hu
    rw [hqu, hpos] at hle
    omega
  have hfound := find?_uid huid hp
  rw [byHint, List.find?_filterMap, hsplit, List.find?_append, hbefore, Option.none_or]
  simp [hfound, hst]

/-! ### The merge of two splits (R144) -/

/-- The bits of a number that is a sum of distinct powers of two. -/
theorem testBit_sum_two_pow (c : Nat → Bool) (n : Nat) :
    let x := (List.range n).foldl (fun acc k => if c k then acc + 2 ^ k else acc) 0
    x < 2 ^ n ∧ ∀ k, x.testBit k = (decide (k < n) && c k) := by
  induction n with
  | zero => simp
  | succ n ih =>
    rw [List.range_succ, List.foldl_append, List.foldl_cons, List.foldl_nil]
    obtain ⟨hlt, hbits⟩ := ih
    generalize (List.range n).foldl (fun acc k => if c k then acc + 2 ^ k else acc) 0 = x at hlt hbits
    have hpow : 2 ^ (n + 1) = 2 ^ n + 2 ^ n := by ring
    cases hc : c n with
    | false =>
      refine ⟨by simp; omega, fun k => ?_⟩
      by_cases hk : k = n
      · simp [hk, hc, hbits]
      · simp [hbits, show k < n + 1 ↔ k < n by omega]
    | true =>
      refine ⟨by simp; omega, fun k => ?_⟩
      have hor : x + 2 ^ n = 2 ^ n ||| x := by
        have h := Nat.two_pow_add_eq_or_of_lt hlt 1
        rw [Nat.mul_one] at h
        omega
      by_cases hk : k = n
      · simp [hk, hc, hor, Nat.testBit_or]
      · simp [hor, Nat.testBit_or, Ne.symm hk, hbits, show k < n + 1 ↔ k < n by omega]

theorem getLsbD_maskNe (a b : List Word) {k : Nat} (hk : k < 64) : (Wave.merge.maskNe a b).getLsbD k = (a.getD k 0 != b.getD k 0) := by
  have hbits := (testBit_sum_two_pow (fun k => a.getD k 0 != b.getD k 0) 64).2 k
  rw [Wave.merge.maskNe, BitVec.getLsbD_ofNat, hbits]
  simp only [hk, decide_true, Bool.true_and]

theorem pos_ne {p q : Split} (hp : p.uid ∈ w.hint) (hne : p.uid ≠ q.uid) : w.pos p.uid ≠ w.pos q.uid := by
  rw [pos_eq_idxOf, pos_eq_idxOf]
  exact fun h => hne ((List.idxOf_inj hp).1 h)

/-- The split of two that comes first in hint order, and the other. -/
def earlierOf (w : Wave) (p q : Split) : Split := if w.pos p.uid < w.pos q.uid then p else q
def laterOf (w : Wave) (p q : Split) : Split := if w.pos p.uid < w.pos q.uid then q else p

/-- The split that p and q become. -/
def mergedSplit (w : Wave) (p q : Split) (st : Status) : Split :=
  { laterOf w p q with
    id := min p.id q.id, mask := p.mask ||| q.mask, uid := (earlierOf w p q).uid, status := st, pfx := none, low := false, arrived := false
    windows := (p.windows ++ q.windows).map fun x => { x with left := 0 } }

theorem merge_eq {p q : Split} (hpos : w.pos p.uid ≠ w.pos q.uid) (st : Status) : w.merge p q st =
    { w with
      splits := (w.splits.filter fun x => x.id != p.id && x.id != q.id) ++ [mergedSplit w p q st]
      hint := w.hint.filter (· != (laterOf w p q).uid)
      handler := w.handler.map fun h => if h = p.id || h = q.id then min p.id q.id else h
      uconf := w.uconf ||| Wave.merge.maskNe (earlierOf w p q).s (laterOf w p q).s } := by
  have hle : w.pos p.uid ≤ w.pos q.uid ↔ w.pos p.uid < w.pos q.uid := ⟨fun h => lt_of_le_of_ne h hpos, le_of_lt⟩
  simp only [Wave.merge, hle, mergedSplit, earlierOf, laterOf]

theorem mem_others_iff {p q x : Split} :
    x ∈ w.splits.filter (fun x => x.id != p.id && x.id != q.id) ↔ x ∈ w.splits ∧ x.id ≠ p.id ∧ x.id ≠ q.id := by
  simp only [List.mem_filter, Bool.and_eq_true, bne_iff_ne]

/-- Where the S registers of two splits differ, whichever is the earlier. -/
theorem getLsbD_maskNe_merge (p q : Split) {k : Nat} (hk : k < 64) :
    (Wave.merge.maskNe (earlierOf w p q).s (laterOf w p q).s).getLsbD k = (p.s.getD k 0 != q.s.getD k 0) := by
  rw [getLsbD_maskNe _ _ hk, earlierOf, laterOf]
  split
  · rfl
  · exact bne_comm

end

/-- Settles O20: each clause is a field of `merge_eq`. -/
theorem mergeOfTwoSplits : Obligations.MergeOfTwoSplits := by
  unfold Obligations.MergeOfTwoSplits
  intro w p q st hp hq hid huid hph hqh hnodup
  simp only
  rw [merge_eq (pos_ne hph huid)]
  refine ⟨⟨mergedSplit w p q st, List.mem_append_right _ (List.mem_singleton.2 rfl), rfl, rfl, rfl, rfl, rfl, fun x hx => ?_⟩,
    fun x hx hxp hxq => List.mem_append_left _ (mem_others_iff.2 ⟨hx, hxp, hxq⟩), rfl, fun h hh => ?_, fun k hk => ?_, rfl, rfl⟩
  · exact (List.mem_append.1 hx).elim (fun h => .inr (mem_others_iff.1 h)) fun h => .inl (List.mem_singleton.1 h)
  · simp only [hh, Option.map_some, Bool.or_eq_true, decide_eq_true_eq]
  · rw [BitVec.getLsbD_or, getLsbD_maskNe_merge p q hk]

/-- Settles O21: refilling by induction on the stack, the released split by its place in hint order. -/
theorem deferredAndParkedSplits : Obligations.DeferredAndParkedSplits := by
  unfold Obligations.DeferredAndParkedSplits
  refine ⟨fun w hnodup hlt => ⟨?_, fun d ds j hd hj => ?_⟩, fun w p _ huid hp hhint => ⟨unpark_of_running, fun hall hfirst => ?_⟩⟩
  · have hfill := refill_fills rfl (w := w) ⟨hnodup, hlt⟩
    rcases unpark_cases (Wave.refill w.deferred w) with h | ⟨id, h⟩
    · rwa [Wave.settle, h]
    · rw [Wave.settle, h]
      exact hfill.imp_right (List.length_map _).trans
  · obtain ⟨-, -, hlower⟩ := freeId_eq_some.1 hj
    exact ⟨hlower, liveEntry d j, hd ▸ liveEntry_mem_refill hj, rfl, rfl, rfl, rfl, rfl, rfl⟩
  · rcases hfirst with ⟨hst, hearly⟩ | ⟨hst, hnone, hearly⟩
    · exact unpark_join hall (find?_byHint huid hp hhint hst hearly)
    · refine unpark_conv hall (List.find?_eq_none.2 fun q hq => ?_) (find?_byHint huid hp hhint hst hearly)
      simpa using hnone q (mem_splits_of_mem_byHint hq)

end Sys2Proof.Proofs
end

section
/-! Splits that park, merge or end (R143, R145, R152), and the instructions of this group that only trap or move on (R148, R153, R254). -/

namespace Sys2Proof.Proofs
open Sys2Proof Sys2Proof.Machine

section
variable {s : State}

/-! ### join and conv (R143) -/

/-- join with one status to park in, conv with the other. -/
def Reconverges (i : Instr) (st : Status) : Prop := (i = .join ∧ st = .parkedJoin) ∨ (i = .conv ∧ st = .parkedConv)

theorem exec_reconverge {i : Instr} {st : Status} (h : Reconverges i st) : exec i s = isaCtl (fun s => s.reconverge st) s := by
  rcases h with ⟨rfl, rfl⟩ | ⟨rfl, rfl⟩ <;> rfl

/-- The split parked at the executing split's bundle that it would merge with. -/
def partner (s : State) : Option Split := s.w.splits.find? fun q => q.id != s.sp.id && q.parked && q.pc == s.sp.pc

theorem reconverge_alone (h : s.w.splits.length = 1) (hd : s.w.deferred = []) (st : Status) : s.reconverge st = .ok s.advance := by
  simp only [State.reconverge, h, hd, List.isEmpty_nil, decide_true, Bool.and_self, ↓reduceIte]

theorem reconverge_together (h : ¬(s.w.splits.length = 1 ∧ s.w.deferred = [])) (st : Status) : s.reconverge st =
    match partner s with
    | some q =>
      if s.sp.undelivered then .ok (s.modSp fun p => { p.rewind.closeWindows with status := .waiting .deliver })
      else if q.windows.any (!·.delivered) then .ok s.stall
      else .ok (s.modW fun w => (w.merge s.sp q q.status).settle)
    | none => .ok (s.modW fun w => (w.modSplit s.sp.id fun p => { p with status := st, pfx := none }).settle) := by
  have hnot : (decide (s.w.splits.length = 1) && s.w.deferred.isEmpty) = false := by
    rw [Bool.eq_false_iff, ne_eq, Bool.and_eq_true, decide_eq_true_eq, List.isEmpty_iff]
    exact h
  simp only [State.reconverge, hnot, Bool.false_eq_true, ↓reduceIte]
  rfl

section
variable {q : Split} (hnot : ¬(s.w.splits.length = 1 ∧ s.w.deferred = [])) (st : Status)
include hnot

theorem reconverge_waits (hq : partner s = some q) (hu : s.sp.undelivered = true) :
    s.reconverge st = .ok (s.modSp fun p => { p.rewind.closeWindows with status := .waiting .deliver }) := by
  rw [reconverge_together hnot, hq]
  simp only [hu, ↓reduceIte]

theorem reconverge_stalls (hq : partner s = some q) (hu : s.sp.undelivered = false) (hlate : ∃ x ∈ q.windows, x.delivered = false) :
    s.reconverge st = .ok s.stall := by
  have hany : q.windows.any (!·.delivered) = true := by simpa using hlate
  rw [reconverge_together hnot, hq]
  simp only [hu, hany, Bool.false_eq_true, ↓reduceIte]

theorem reconverge_merges (hq : partner s = some q) (hu : s.sp.undelivered = false) (hall : ∀ x ∈ q.windows, x.delivered = true) :
    s.reconverge st = .ok (s.modW fun w => (w.merge s.sp q q.status).settle) := by
  have hnone : q.windows.any (!·.delivered) = false := by simpa using hall
  rw [reconverge_together hnot, hq]
  simp only [hu, hnone, Bool.false_eq_true, ↓reduceIte]

theorem reconverge_parks (hq : partner s = none) :
    s.reconverge st = .ok (s.modW fun w => (w.modSplit s.sp.id fun p => { p with status := st, pfx := none }).settle) := by
  rw [reconverge_together hnot, hq]

end

/-! ### Ended splits (R142, R152) -/

theorem settle_eq (w : Wave) : ∃ ps ds, w.settle = { w with splits := ps, deferred := ds } := by
  obtain ⟨ps, ds, h⟩ := refill_eq w.deferred w
  rcases unpark_cases (Wave.refill w.deferred w) with hu | ⟨id, hu⟩ <;> rw [Wave.settle, hu, h]
  · exact ⟨_, _, rfl⟩
  · exact ⟨_, _, rfl⟩

theorem length_splits_unpark (w : Wave) : w.unpark.splits.length = w.splits.length := by
  rcases unpark_cases w with h | ⟨id, h⟩ <;> rw [h]
  exact List.length_map _

theorem settle_of_empty {w : Wave} (h : w.splits = []) (hd : w.deferred = []) : w.settle.splits = [] ∧ w.settle.deferred = [] := by
  rw [Wave.settle, hd, Wave.refill]
  rcases unpark_cases w with hu | ⟨id, hu⟩ <;> rw [hu]
  · exact ⟨h, hd⟩
  · exact ⟨by rw [Wave.modSplit, h]; rfl, hd⟩

theorem freeId_of_empty {w : Wave} (h : w.splits = []) : w.freeId = some 0 := by rw [Wave.freeId, h]; rfl

/-- With no split left the top of the stack runs in slot 0. -/
theorem settle_takes_entry {w : Wave} (h : w.splits = []) {d : Deferred} {ds : List Deferred} (hd : w.deferred = d :: ds) :
    liveEntry d 0 ∈ w.settle.splits := by
  have hmem : liveEntry d 0 ∈ (Wave.refill w.deferred w).splits := hd ▸ liveEntry_mem_refill (freeId_of_empty h)
  rwa [Wave.settle, unpark_of_running ⟨_, hmem, rfl⟩]

theorem settle_ne_nil {w : Wave} (h : w.splits ≠ [] ∨ w.deferred ≠ []) : w.settle.splits ≠ [] := by
  by_cases hs : w.splits = []
  · obtain ⟨d, ds, hd⟩ := List.exists_cons_of_ne_nil (h.resolve_left fun hne => hne hs)
    exact List.ne_nil_of_mem (settle_takes_entry hs hd)
  · obtain ⟨p, hp⟩ := List.exists_mem_of_ne_nil _ hs
    have hlen : 0 < (Wave.refill w.deferred w).splits.length := List.length_pos_of_mem (mem_splits_refill hp _)
    exact List.ne_nil_of_length_pos (by rwa [Wave.settle, length_splits_unpark])

/-- A wave that a split has left, before its slot is taken. -/
def leftBy (w : Wave) (p : Split) : Wave :=
  { w with
    gone := (p.windows.filter fun (x : Window) => !x.delivered) ++ w.gone
    splits := w.splits.filter (·.id != p.id)
    hint := w.hint.filter (· != p.uid) }

theorem endSplit_eq {w : Wave} {id : Nat} {p : Split} (h : w.split? id = some p) : w.endSplit id = (leftBy w p).settle := by
  have hid : p.id = id := by simpa using List.find?_some h
  rw [Wave.endSplit, h, leftBy, hid]

theorem splits_leftBy_eq_nil {w : Wave} {p : Split} (h : ∀ q ∈ w.splits, q.id = p.id) : (leftBy w p).splits = [] :=
  List.filter_eq_nil_iff.2 fun q hq => by simp [h q hq]

/-! ### Contexts (R152) -/

theorem reap_frees {core ctx : Nat} {w : Wave} (hw : s.wave? core ctx = some w) (hs : w.splits = []) (hd : w.deferred = []) (ha : w.accs = []) :
    (s.reap core ctx).wave? core ctx = none := by
  have hfreed : ((s.modCore core fun c => { c with waves := erase c.waves ctx }).noteLeft core w.prio).wave? core ctx = none := by
    simp [State.noteLeft, State.modCluster, State.wave?, State.core, State.modCore, State.setCore]
  simp only [State.reap, hw, hs, hd, ha, List.isEmpty_nil, Bool.and_self, ↓reduceIte]
  split
  · exact hfreed
  · exact hfreed

theorem reap_waits {core ctx : Nat} {w : Wave} (hw : s.wave? core ctx = some w) (ha : w.accs ≠ []) : s.reap core ctx = s := by
  have hopen : (w.splits.isEmpty && w.deferred.isEmpty && w.accs.isEmpty) = false := by simp [ha]
  simp only [State.reap, hw, hopen, Bool.false_eq_true, ↓reduceIte]

/-! ### exit (R152) -/

/-- The threads e of the executing wave exit. -/
def exiting (e : Mask) (w : Wave) : Wave := { w with exited := w.exited ||| e }

/-- The executing split ends with the threads e, and a handler that it runs. -/
def endedWave (s : State) (e : Mask) : Wave :=
  { (exiting e s.w).endSplit s.cur.split with handler := if s.w.handler = some s.cur.split then none else s.w.handler }

theorem exec_exit_stays {g : Guard} (hl : s.live = true) (h : s.sp.mask &&& ~~~s.guardMask g ≠ 0) : exec (.exit g) s =
    .next (((s.modW (exiting (s.guardMask g))).modSp fun p => { p with mask := s.sp.mask &&& ~~~s.guardMask g }).advance) := by
  change execExit g s = _
  refine isaCtl_ok hl ?_
  simp only [bne_iff_ne, ne_eq, h, not_false_eq_true, ↓reduceIte]
  rfl

theorem runs_exit_stays {g : Guard} (hl : s.live = true) (h : s.sp.mask &&& ~~~s.guardMask g ≠ 0) : Runs (.exit g) s fun t =>
    t.sp.mask = s.sp.mask &&& ~~~s.guardMask g ∧ t.sp.pc = s.sp.pc + 8 ∧ t.w.exited = s.w.exited ||| s.guardMask g ∧
      t.w.splits.length = s.w.splits.length := by
  refine ⟨_, exec_exit_stays hl h, ?_⟩
  have hw : (s.modW (exiting (s.guardMask g))).w = exiting (s.guardMask g) s.w := s.w_modW _ hl
  have hsp : (s.modW (exiting (s.guardMask g))).sp = s.sp := sp_modW hl rfl
  have hlive : (s.modW (exiting (s.guardMask g))).live = true := (s.live_modW (exiting _) fun _ => rfl).trans hl
  have hid (p : Split) : ({ p with mask := s.sp.mask &&& ~~~s.guardMask g } : Split).id = p.id := rfl
  have hkept := live_modSp hlive hid
  refine ⟨?_, ?_, ?_, ?_⟩
  · rw [sp_advance hkept, sp_modSp hlive hid]
  · rw [sp_advance hkept, sp_modSp hlive hid, hsp]
  · rw [w_advance hkept, w_modSp hlive, hw]
    rfl
  · rw [w_advance hkept, w_modSp hlive, hw]
    exact (List.length_map _).trans (List.length_map _)

/-- The state whose executing split has ended. -/
def afterEnd (s : State) (e : Mask) : State :=
  (s.modW (exiting e)).modW fun w =>
    { w.endSplit s.cur.split with handler := if w.handler = some s.cur.split then none else w.handler }

theorem wave?_afterEnd (hl : s.live = true) (e : Mask) : (afterEnd s e).wave? s.cur.core s.cur.ctx = some (endedWave s e) := by
  rw [afterEnd, State.modW, State.modW_cur, State.wave?_modWave, State.modW, State.wave?_modWave, wave?_of_live hl]
  rfl

theorem w_afterEnd (hl : s.live = true) (e : Mask) : (afterEnd s e).w = endedWave s e := by
  have hw : (afterEnd s e).wave? (afterEnd s e).cur.core (afterEnd s e).cur.ctx = some (endedWave s e) := wave?_afterEnd hl e
  simp only [State.w, State.wave, hw, Option.getD_some]

theorem endedWave_eq (hl : s.live = true) (e : Mask) :
    endedWave s e = { (leftBy (exiting e s.w) s.sp).settle with handler := if s.w.handler = some s.cur.split then none else s.w.handler } := by
  have hsplit : (exiting e s.w).split? s.cur.split = some s.sp := split?_of_live hl
  rw [endedWave, endSplit_eq hsplit]

theorem id_sp (hl : s.live = true) : s.sp.id = s.cur.split := by simpa using List.find?_some (split?_of_live hl)

/-- The end of a split leaves the wave's threads and accesses. -/
theorem endedWave_keeps (hl : s.live = true) (e : Mask) : (endedWave s e).exited = s.w.exited ||| e ∧ (endedWave s e).accs = s.w.accs := by
  obtain ⟨ps, ds, h⟩ := settle_eq (leftBy (exiting e s.w) s.sp)
  rw [endedWave_eq hl, h]
  exact ⟨rfl, rfl⟩

/-- A wave without a split has no streams and no handler. -/
def emptied (w : Wave) : Wave := { w with streams := [], handler := none }

/-- A split left without threads ends; where it was the wave's last, the wave gives up its streams (R197). -/
theorem exec_exit_ends {g : Guard} (hl : s.live = true) (h : s.sp.mask &&& ~~~s.guardMask g = 0) : exec (.exit g) s =
    .next (if (endedWave s (s.guardMask g)).splits.isEmpty then
      ((afterEnd s (s.guardMask g)).modW emptied).reap s.cur.core s.cur.ctx
    else afterEnd s (s.guardMask g)) := by
  change execExit g s = _
  refine isaCtl_ok hl ?_
  rw [← w_afterEnd hl]
  simp only [h, bne_self_eq_false, Bool.false_eq_true, ↓reduceIte]
  exact (apply_ite Except.ok _ _ _).symm

theorem runs_exit_goesOn {g : Guard} (hl : s.live = true) (h : s.sp.mask &&& ~~~s.guardMask g = 0)
    (hrest : (∃ q ∈ s.w.splits, q.id ≠ s.cur.split) ∨ s.w.deferred ≠ []) :
    Runs (.exit g) s fun t => t.w = endedWave s (s.guardMask g) := by
  have hne : (endedWave s (s.guardMask g)).splits ≠ [] := by
    rw [endedWave_eq hl]
    refine settle_ne_nil (hrest.imp_left ?_)
    rintro ⟨q, hq, hqid⟩
    exact List.ne_nil_of_mem (List.mem_filter.2 ⟨hq, by rw [id_sp hl]; exact bne_iff_ne.2 hqid⟩)
  refine ⟨afterEnd s (s.guardMask g), ?_, w_afterEnd hl _⟩
  rw [exec_exit_ends hl h, if_neg (by rwa [List.isEmpty_iff])]

/-- The last split of a wave, the stack empty: the wave keeps its context while it has accesses in flight (log entry 53). -/
theorem exec_exit_last {g : Guard} (hl : s.live = true) (h : s.sp.mask &&& ~~~s.guardMask g = 0)
    (hall : ∀ q ∈ s.w.splits, q.id = s.cur.split) (hd : s.w.deferred = []) :
    ∃ (t : State) (w' : Wave), exec (.exit g) s = .next (t.reap s.cur.core s.cur.ctx) ∧ t.wave? s.cur.core s.cur.ctx = some w' ∧ w'.splits = [] ∧
      w'.deferred = [] ∧ w'.streams = [] ∧ w'.accs = s.w.accs ∧ w'.exited = s.w.exited ||| s.guardMask g := by
  have hleft : (leftBy (exiting (s.guardMask g) s.w) s.sp).splits = [] := splits_leftBy_eq_nil fun q hq => (hall q hq).trans (id_sp hl).symm
  obtain ⟨hs, hds⟩ := settle_of_empty hleft hd
  obtain ⟨hexited, haccs⟩ := endedWave_keeps hl (s.guardMask g)
  have hempty : (endedWave s (s.guardMask g)).splits = [] ∧ (endedWave s (s.guardMask g)).deferred = [] := by
    rw [endedWave_eq hl]
    exact ⟨hs, hds⟩
  have hwave : ((afterEnd s (s.guardMask g)).modW emptied).wave? s.cur.core s.cur.ctx =
      ((afterEnd s (s.guardMask g)).wave? s.cur.core s.cur.ctx).map emptied :=
    State.wave?_modWave _ _ _ _
  rw [wave?_afterEnd hl] at hwave
  exact ⟨_, _, by rw [exec_exit_ends hl h, if_pos (by rw [hempty.1]; rfl)], hwave, hempty.1, hempty.2, rfl, haccs, hexited⟩

/-! ### trap, brk, nop and fhdr (R148, R153, R254) -/

theorem exec_trap (hl : s.live = true) (g : Guard) (code : BitVec 16) : exec (.trap g code) s =
    .next (if s.guardMask g = 0 then s.advance else s.raise (trapI tcSoftware code.toNat)) := by
  change execTrap g code s = _
  split
  next h => exact isa_ok hl (if_pos h)
  next h => exact isa_error hl (if_neg h)

theorem exec_brk (hl : s.live = true) (g : Guard) (code : BitVec 16) : exec (.brk g code) s =
    .next (if s.guardMask g = 0 then s.advance else s.raise (trapI tcBreak code.toNat)) := by
  change execBrk g code s = _
  split
  next h => exact isa_ok hl (if_pos h)
  next h => exact isa_error hl (if_neg h)

end

/-- Settles O19: the cases of `State.reconverge`, alone and together. -/
theorem joinAndConv : Obligations.JoinAndConv := by
  unfold Obligations.JoinAndConv
  intro i st s hi hl
  rw [exec_reconverge hi]
  refine ⟨fun h hd => isaCtl_ok hl (reconverge_alone h hd st),
    fun hnot => ⟨fun q hq => ⟨fun hu => ?_, fun hu hlate => ?_, fun hu hall => ?_⟩, fun hq => ?_⟩⟩
  · exact isaCtl_ok hl (reconverge_waits hnot st hq hu)
  · exact isaCtl_ok hl (reconverge_stalls hnot st hq hu hlate)
  · exact isaCtl_ok hl (reconverge_merges hnot st hq hu hall)
  · exact isaCtl_ok hl (reconverge_parks hnot st hq)

/-- Settles O22: exit by what is left of the split and of the wave; the others by their guard. -/
theorem exitTrapAndHeader : Obligations.ExitTrapAndHeader := by
  unfold Obligations.ExitTrapAndHeader
  refine ⟨fun s g hl => ⟨runs_exit_stays hl, fun h hrest => ?_, fun h hall hd ha => ?_, fun d ds h hall hd => ?_, fun h hall hd ha => ?_⟩,
    fun s g code n b hl => ⟨fun h => ?_, fun h => ?_, isa_ok hl rfl, isa_ok hl rfl⟩⟩
  · obtain ⟨t, ht, hw⟩ := runs_exit_goesOn hl h hrest
    exact ⟨t, ht, by rw [hw]; exact (endedWave_keeps hl _).1, hw⟩
  · obtain ⟨t, w', ht, hwave, hs, hds, -, haccs, -⟩ := exec_exit_last hl h hall hd
    exact ⟨_, ht, reap_frees hwave hs hds (haccs.trans ha)⟩
  · obtain ⟨t, ht, hw⟩ := runs_exit_goesOn hl h (.inr (hd ▸ List.cons_ne_nil d ds))
    have hleft : (leftBy (exiting (s.guardMask g) s.w) s.sp).splits = [] := splits_leftBy_eq_nil fun q hq => (hall q hq).trans (id_sp hl).symm
    refine ⟨t, ht, liveEntry d 0, ?_, rfl, rfl, rfl, rfl, rfl, rfl⟩
    rw [hw, endedWave_eq hl]
    exact settle_takes_entry hleft hd
  · obtain ⟨t, w', ht, hwave, hs, -, hstreams, haccs, hexited⟩ := exec_exit_last hl h hall hd
    exact ⟨_, ht, w', by rw [reap_waits hwave (haccs ▸ ha)]; exact hwave, hs, hstreams, haccs, hexited⟩
  · rw [exec_trap hl, exec_brk hl, if_neg h, if_neg h]
    exact ⟨rfl, rfl⟩
  · rw [exec_trap hl, exec_brk hl, if_pos h, if_pos h]
    exact ⟨rfl, rfl⟩

end Sys2Proof.Proofs
end

section
/-! br.d divides a split (R137, R141): the first path keeps the split, the other goes to the lowest free slot or on top of the stack. -/

namespace Sys2Proof.Proofs
open Sys2Proof Sys2Proof.Machine

section
variable {s : State}

/-! ### New paths beside the executing split (R137) -/

theorem live_modW_of_split {f : Wave → Wave} {q : Split} (hl : s.live = true) (h : (f s.w).split? s.cur.split = some q) :
    (s.modW f).live = true :=
  (State.live_iff _).2 ⟨f s.w, by rw [State.modW, State.modWave_cur, State.wave?_modWave, wave?_of_live hl]; rfl, q, h⟩

theorem sp_modW_of_split {f : Wave → Wave} {q : Split} (hl : s.live = true) (h : (f s.w).split? s.cur.split = some q) : (s.modW f).sp = q := by
  rw [State.sp, s.w_modW f hl, State.modW_cur, h]
  rfl

/-- The bookkeeping of one more path: its uid, its divergence identifier and its place in hint order. -/
def numbered (w : Wave) (after : Nat) : Wave :=
  { w with
    nextUid := w.nextUid + 1
    created := w.created + 1
    hint := w.hint.flatMap fun u => if u = after then [u, w.nextUid] else [u] }

/-- The path as a running split in slot i, and as a deferred entry. -/
def runningPath (w : Wave) (i : Nat) (pc : DWord) (mask : Mask) (p : Split) : Split :=
  { Split.blank with id := i, pc := pc, mask := mask, s := p.s, depth := p.depth, uid := w.nextUid, div := w.created }

theorem addPath_running {w : Wave} {i : Nat} (h : w.freeId = some i) (after : Nat) (pc : DWord) (mask : Mask) (p : Split) :
    w.addPath after pc mask p = { numbered w after with splits := w.splits ++ [runningPath w i pc mask p] } := by
  have hfree : (numbered w after).freeId = some i := h
  rw [numbered] at hfree
  rw [Wave.addPath, hfree]
  rfl

theorem addPath_deferred {w : Wave} (h : w.freeId = none) (after : Nat) (pc : DWord) (mask : Mask) (p : Split) :
    w.addPath after pc mask p = { numbered w after with deferred := ⟨pc, mask, p.s, p.depth, w.nextUid, w.created⟩ :: w.deferred } := by
  have hfree : (numbered w after).freeId = none := h
  rw [numbered] at hfree
  rw [Wave.addPath, hfree]
  rfl

/-- The new path comes after the splits there are. -/
theorem split?_addPath {w : Wave} {id : Nat} {q : Split} (h : w.split? id = some q) (after : Nat) (pc : DWord) (mask : Mask) (p : Split) :
    (w.addPath after pc mask p).split? id = some q := by
  cases hfree : w.freeId with
  | none => rw [addPath_deferred hfree]; exact h
  | some i =>
    rw [addPath_running hfree, Wave.split?, List.find?_append]
    exact Option.or_eq_some_iff.2 (.inl h)

theorem mem_splits_modSplit_of_ne {w : Wave} {id : Nat} {q : Split} (hq : q ∈ w.splits) (hne : q.id ≠ id) (f : Split → Split) :
    q ∈ (w.modSplit id f).splits :=
  List.mem_map.2 ⟨q, hq, if_neg hne⟩

theorem freeId_ne_cur (hl : s.live = true) {i : Nat} (h : s.w.freeId = some i) : i ≠ s.cur.split := by
  obtain ⟨-, hfree, -⟩ := freeId_eq_some.1 h
  exact fun heq => hfree s.sp (List.mem_of_find?_eq_some (split?_of_live hl)) ((id_sp hl).trans heq.symm)

theorem freeId_closed (hl : s.live = true) : s.closed.w.freeId = s.w.freeId := by
  have hany (i : Nat) : s.closed.w.splits.any (·.id == i) = s.w.splits.any (·.id == i) := by
    rw [w_closed hl, Wave.modSplit, List.any_map]
    congr 1
    funext p
    simp only [Function.comp_apply]
    split <;> rfl
  simp only [Wave.freeId, hany]

theorem deferred_closed (hl : s.live = true) : s.closed.w.deferred = s.w.deferred := by rw [w_closed hl]; rfl

theorem length_splits_closed (hl : s.live = true) : s.closed.w.splits.length = s.w.splits.length := by
  rw [w_closed hl]
  exact List.length_map _

/-! ### br.d (R141) -/

/-- The path that keeps the split, and the other, for a branch to dest in the threads tk. -/
def firstPath (s : State) (h : Bool) (dest : DWord) (tk : Mask) : DWord × Mask :=
  if h then (s.sp.pc + 8, s.sp.mask &&& ~~~tk) else (dest, tk)
def otherPath (s : State) (h : Bool) (dest : DWord) (tk : Mask) : DWord × Mask :=
  if h then (dest, tk) else (s.sp.pc + 8, s.sp.mask &&& ~~~tk)

/-- A split that goes on at a path's address with its threads. -/
def onPath (e : DWord × Mask) (p : Split) : Split := { p with pc := e.1, mask := e.2, low := false, pfx := none }

/-- The state with its split divided. -/
def divided (s : State) (first other : DWord × Mask) : State :=
  (s.modW fun w => w.addPath s.sp.uid other.1 other.2 s.sp).modSp (onPath first)

theorem exec_brD_untaken (hl : s.live = true) (hhandler : s.w.handler = none) {g : Guard} (h0 : s.guardMask g = 0) (h : Bool) (disp : BitVec 19) :
    exec (.brD g h disp) s = .next s.advance := by
  change execBrD g h disp s = _
  refine isaCtl_ok hl ?_
  simp only [hhandler, Option.isSome_none, Bool.false_eq_true, h0, ↓reduceIte]

theorem exec_brD_all (hq : s.quiet) (hhandler : s.w.handler = none) {g : Guard} {h : Bool} {disp : BitVec 19} {x : DWord} (htk : s.guardMask g ≠ 0)
    (hnt : s.sp.mask &&& ~~~s.guardMask g = 0) (hland : Lands s.closed (s.closed.dispTo disp) x) :
    exec (.brD g h disp) s = .next (s.closed.goto (s.closed.dispTo disp)) := by
  change execBrD g h disp s = _
  refine isaCtl_ok hq.1 ?_
  simp only [hhandler, Option.isSome_none, Bool.false_eq_true, htk, ↓reduceIte, settled_quiet hq, target_of_lands hland, ok_bind, hnt]

/-- br.d in some of the threads: one check is left, for a place. -/
theorem exec_brD_some (hq : s.quiet) (hhandler : s.w.handler = none) {g : Guard} {h : Bool} {disp : BitVec 19} {x : DWord}
    (htk : s.guardMask g ≠ 0) (hnt : s.sp.mask &&& ~~~s.guardMask g ≠ 0) (hland : Lands s.closed (s.closed.dispTo disp) x) :
    exec (.brD g h disp) s = isaCtl (fun s => do
      check (s.w.freeId.isSome || s.w.deferred.length < 8) (trapI tcSplitOverflow 0)
      .ok (divided s.closed (firstPath s h (s.closed.dispTo disp) (s.guardMask g)) (otherPath s h (s.closed.dispTo disp) (s.guardMask g)))) s := by
  change execBrD g h disp s = _
  refine isaCtl_congr ?_
  simp only [hhandler, Option.isSome_none, Bool.false_eq_true, htk, ↓reduceIte, settled_quiet hq, target_of_lands hland, ok_bind, hnt,
    freeId_closed hq.1, deferred_closed hq.1, sp_closed hq]
  simp only [divided, firstPath, otherPath, sp_closed hq]
  rfl

theorem paths_cover (s : State) (g : Guard) (h : Bool) (dest : DWord) :
    (firstPath s h dest (s.guardMask g)).2 ||| (otherPath s h dest (s.guardMask g)).2 = s.sp.mask ∧
      (firstPath s h dest (s.guardMask g)).2 &&& (otherPath s h dest (s.guardMask g)).2 = 0 := by
  simp only [firstPath, otherPath, State.guardMask]
  generalize (if g.neg then ~~~s.readP g.p.val else s.readP g.p.val) = y
  cases h <;> constructor <;> ext i hi <;> simp <;> cases s.sp.mask[i] <;> simp

theorem sp_divided (hl : s.live = true) (first other : DWord × Mask) :
    (divided s first other).sp = onPath first s.sp := by
  have hsplit := split?_addPath (split?_of_live hl) s.sp.uid other.1 other.2 s.sp
  rw [divided, sp_modSp (f := onPath first) (live_modW_of_split hl hsplit) fun _ => rfl, sp_modW_of_split hl hsplit]

theorem w_divided (hl : s.live = true) (first other : DWord × Mask) : (divided s first other).w =
    (s.w.addPath s.sp.uid other.1 other.2 s.sp).modSplit s.cur.split (onPath first) := by
  have hsplit := split?_addPath (split?_of_live hl) s.sp.uid other.1 other.2 s.sp
  rw [divided, w_modSp (live_modW_of_split hl hsplit), s.w_modW _ hl]
  rfl

/-- A free slot takes the other path as a running split. -/
theorem divided_running (hl : s.live = true) {i : Nat} (hfree : s.w.freeId = some i) (first other : DWord × Mask) :
    (divided s first other).w.deferred = s.w.deferred ∧ runningPath s.w i other.1 other.2 s.sp ∈ (divided s first other).w.splits := by
  rw [w_divided hl, addPath_running hfree]
  refine ⟨rfl, mem_splits_modSplit_of_ne ?_ (freeId_ne_cur hl hfree) _⟩
  exact List.mem_append_right _ (List.mem_singleton.2 rfl)

/-- With no free slot it is the top of the stack. -/
theorem divided_deferred (hl : s.live = true) (hfree : s.w.freeId = none) (first other : DWord × Mask) :
    (divided s first other).w.splits.length = s.w.splits.length ∧
      (divided s first other).w.deferred = ⟨other.1, other.2, s.sp.s, s.sp.depth, s.w.nextUid, s.w.created⟩ :: s.w.deferred := by
  rw [w_divided hl, addPath_deferred hfree]
  exact ⟨List.length_map _, rfl⟩

/-- Where the other path is after br.d, in the words of R141: it has the split's S registers and its call depth. -/
theorem other_of_divided (hq : s.quiet) (first other : DWord × Mask) :
    (∀ j, s.w.freeId = some j → (divided s.closed first other).w.deferred = s.w.deferred ∧ ∃ q ∈ (divided s.closed first other).w.splits,
      q.id = j ∧ q.pc = other.1 ∧ q.mask = other.2 ∧ q.s = s.sp.s ∧ q.depth = s.sp.depth ∧ q.status = .running) ∧
    (s.w.freeId = none → (divided s.closed first other).w.splits.length = s.w.splits.length ∧
      ∃ d, (divided s.closed first other).w.deferred = d :: s.w.deferred ∧
        d.pc = other.1 ∧ d.mask = other.2 ∧ d.s = s.sp.s ∧ d.depth = s.sp.depth) := by
  have hlive := (quiet_closed hq).1
  have hfree := freeId_closed hq.1
  constructor
  · intro j hj
    obtain ⟨hstack, hmem⟩ := divided_running hlive (hfree.trans hj) first other
    rw [sp_closed hq] at hmem
    exact ⟨hstack.trans (deferred_closed hq.1), _, hmem, rfl, rfl, rfl, rfl, rfl, rfl⟩
  · intro hnone
    obtain ⟨hlen, hstack⟩ := divided_deferred hlive (hfree.trans hnone) first other
    rw [sp_closed hq, deferred_closed hq.1] at hstack
    exact ⟨hlen.trans (length_splits_closed hq.1), _, hstack, rfl, rfl, rfl, rfl⟩

theorem exec_brD_divides (hq : s.quiet) (hhandler : s.w.handler = none) {g : Guard} {h : Bool} {disp : BitVec 19} {x : DWord}
    (htk : s.guardMask g ≠ 0) (hnt : s.sp.mask &&& ~~~s.guardMask g ≠ 0) (hland : Lands s.closed (s.closed.dispTo disp) x)
    (hplace : s.w.freeId ≠ none ∨ s.w.deferred.length < 8) : exec (.brD g h disp) s =
      .next (divided s.closed (firstPath s h (s.closed.dispTo disp) (s.guardMask g)) (otherPath s h (s.closed.dispTo disp) (s.guardMask g))) := by
  have hroom : (s.w.freeId.isSome || decide (s.w.deferred.length < 8)) = true := by simpa [Option.isSome_iff_ne_none] using hplace
  rw [exec_brD_some hq hhandler htk hnt hland]
  refine isaCtl_ok hq.1 ?_
  simp only [hroom, check_true, ok_bind]

theorem exec_brD_overflows (hq : s.quiet) (hhandler : s.w.handler = none) {g : Guard} {h : Bool} {disp : BitVec 19} {x : DWord}
    (htk : s.guardMask g ≠ 0) (hnt : s.sp.mask &&& ~~~s.guardMask g ≠ 0) (hland : Lands s.closed (s.closed.dispTo disp) x)
    (hfree : s.w.freeId = none) (hfull : 8 ≤ s.w.deferred.length) :
    exec (.brD g h disp) s = .next (s.raise (trapI tcSplitOverflow 0)) := by
  rw [exec_brD_some hq hhandler htk hnt hland]
  refine isaCtl_error hq.1 ?_
  simp only [hfree, Option.isSome_none, Nat.not_lt.2 hfull, decide_false, Bool.or_self, check_false, error_bind]

end

/-- Settles O17: the guard decides whether the split divides, and `other_of_divided` where the other path goes. -/
theorem divergentBranch : Obligations.DivergentBranch := by
  unfold Obligations.DivergentBranch
  intro s g h disp hq hhandler
  refine ⟨fun h0 => exec_brD_untaken hq.1 hhandler h0 h disp, fun x => exec_brD_all hq hhandler, fun x htk hnt hland hplace => ?_,
    fun x => exec_brD_overflows hq hhandler⟩
  obtain ⟨hcover, hdisjoint⟩ := paths_cover s g h (s.closed.dispTo disp)
  have hsp (first other : DWord × Mask) : (divided s.closed first other).sp = onPath first s.sp := by
    rw [sp_divided (quiet_closed hq).1, sp_closed hq]
  exact ⟨_, exec_brD_divides hq hhandler htk hnt hland hplace, by rw [hsp]; rfl, by rw [hsp]; rfl, by rw [hsp]; rfl, by rw [hsp]; rfl,
    hcover, hdisjoint, other_of_divided hq _ _⟩

end Sys2Proof.Proofs
end

section
/-! The traps of call, ret and callx, and what a callx that divides its split leaves (R147 to R150). -/

namespace Sys2Proof.Proofs
open Sys2Proof Sys2Proof.Machine

section
variable {s : State}

/-! ### The closed state's checks, read back -/

theorem lands_closed_iff (hl : s.live = true) {a x : DWord} : Lands s.closed a x ↔ Lands s a x := by
  have hgrid : s.closed.w.grid = s.w.grid := by rw [w_closed hl]; rfl
  have hfetch : s.closed.fetch s.closed.cur.core s.closed.w.grid a = s.fetch s.cur.core s.w.grid a := by
    rw [hgrid]
    exact fetch_modW _ _ _ _
  rw [Lands, hfetch]

theorem budgets_closed (hl : s.live = true) : s.closed.w.n = s.w.n ∧ s.closed.w.g = s.w.g := by
  rw [w_closed hl]
  exact ⟨rfl, rfl⟩

theorem budgetOk_closed_iff (hl : s.live = true) {x : DWord} : BudgetOk s.closed x ↔ BudgetOk s x := by
  rw [BudgetOk, (budgets_closed hl).1, (budgets_closed hl).2]

theorem budget_short {n g : Nat} (h1 : 1 ≤ n) (h128 : n ≤ 128) (hg : g ≤ n) (h : s.w.n < n ∨ s.w.g < g) :
    s.budget n g = .error (trapI tcReg n) := by
  have hshort : (decide (n ≤ s.w.n) && decide (g ≤ s.w.g)) = false := by
    rw [Bool.and_eq_false_iff, decide_eq_false_iff_not, decide_eq_false_iff_not]
    omega
  simp only [State.budget, h1, h128, hg, hshort, decide_true, Bool.and_self, check_true, check_false, ok_bind]

/-! ### call and ret (R147) -/

theorem exec_call_budget (hq : s.quiet) {d : Fin 64} {t : Target} {x : DWord} {n g : Nat} (hland : Lands s.closed (s.closed.targetOf t) x)
    (hx : fhdrOf x = some (n, g)) (h1 : 1 ≤ n) (h128 : n ≤ 128) (hg : g ≤ n) (h : s.closed.w.n < n ∨ s.closed.w.g < g) :
    exec (.call d t) s = .next (s.raise (trapI tcReg n)) := by
  change execCall d t s = _
  refine isaCtl_error hq.1 ?_
  simp only [settled_quiet hq, target_of_lands hland, ok_bind, hx, budget_short h1 h128 hg h, error_bind]

theorem exec_call_depth (hq : s.quiet) {d : Fin 64} {t : Target} {x : DWord} (hland : Lands s.closed (s.closed.targetOf t) x)
    (hbudget : BudgetOk s.closed x) (h : 64 ≤ s.closed.sp.depth) :
    exec (.call d t) s = .next (s.raise (trapI tcDepth s.closed.sp.depth)) := by
  change execCall d t s = _
  refine isaCtl_error hq.1 ?_
  simp only [settled_quiet hq, target_of_lands hland, ok_bind, Nat.not_lt.2 h, decide_false, check_false]
  cases hx : fhdrOf x with
  | none => rfl
  | some b => simp only [budget_ok hbudget hx]; rfl

theorem exec_ret_depth (hq : s.quiet) {a : Fin 64} {x : DWord} (hland : Lands s.closed (s.closed.sp.pair a.val) x) (h : s.closed.sp.depth = 0) :
    exec (.ret a) s = .next (s.raise (trapI tcDepth 0)) := by
  change execRet a s = _
  refine isaCtl_error hq.1 ?_
  simp only [settled_quiet hq, target_of_lands hland, ok_bind, h, ne_eq, not_true_eq_false, decide_false, check_false, error_bind]

/-! ### The distinct targets (R149) -/

theorem distinct_append_singleton (ts : List (Nat × DWord)) (e : Nat × DWord) : distinct (ts ++ [e]) = addTarget (distinct ts) e := by
  rw [distinct_eq_foldl, List.foldl_append]
  rfl

theorem targets_addTarget {acc : List (DWord × Mask)} {e : Nat × DWord} (h : acc.any (·.1 == e.2) = true) :
    addTarget acc e = acc.map fun x => if x.1 = e.2 then (x.1, x.2 ||| 1#32 <<< e.1) else x := if_pos h

theorem mem_target_iff_any {acc : List (DWord × Mask)} {a : DWord} : acc.any (·.1 == a) = true ↔ a ∈ acc.map (·.1) := by
  simp only [List.any_eq_true, beq_iff_eq, List.mem_map]

/-- One more target is a new one at the end, or one more thread of an old one. -/
theorem map_fst_addTarget (acc : List (DWord × Mask)) (e : Nat × DWord) :
    (addTarget acc e).map (·.1) = if e.2 ∈ acc.map (·.1) then acc.map (·.1) else acc.map (·.1) ++ [e.2] := by
  by_cases h : e.2 ∈ acc.map (·.1)
  · rw [if_pos h, targets_addTarget (mem_target_iff_any.2 h), List.map_map]
    refine List.map_congr_left fun x _ => ?_
    simp only [Function.comp_apply]
    split <;> rfl
  · rw [if_neg h, addTarget, if_neg (mt mem_target_iff_any.1 h), List.map_append]
    rfl

theorem mem_map_fst_distinct (ts : List (Nat × DWord)) (a : DWord) : a ∈ (distinct ts).map (·.1) ↔ a ∈ ts.map (·.2) := by
  induction ts using List.reverseRecOn with
  | nil => rfl
  | append_singleton ts e ih =>
    rw [distinct_append_singleton, map_fst_addTarget, List.map_append, List.mem_append, ← ih, List.map_singleton, List.mem_singleton]
    split
    next hold => exact ⟨.inl, fun h => h.elim id fun h => h ▸ hold⟩
    next => rw [List.mem_append, List.mem_singleton]

theorem nodup_map_fst_distinct (ts : List (Nat × DWord)) : ((distinct ts).map (·.1)).Nodup := by
  induction ts using List.reverseRecOn with
  | nil => exact List.nodup_nil
  | append_singleton ts e ih =>
    rw [distinct_append_singleton, map_fst_addTarget]
    split
    next => exact ih
    next hnew =>
      refine List.nodup_append.2 ⟨ih, List.nodup_singleton _, ?_⟩
      rintro a ha b hb rfl
      exact hnew (List.mem_singleton.1 hb ▸ ha)

/-- A distinct target has the threads that name it. -/
theorem getLsbD_distinct (ts : List (Nat × DWord)) : ∀ x ∈ distinct ts, ∀ j < 32, x.2.getLsbD j = true ↔ (j, x.1) ∈ ts := by
  induction ts using List.reverseRecOn with
  | nil => exact fun x hx => absurd hx List.not_mem_nil
  | append_singleton ts e ih =>
    intro x hx j hj
    have hlast : (j, x.1) = e ↔ x.1 = e.2 ∧ j = e.1 := by rw [Prod.ext_iff]; exact and_comm
    rw [List.mem_append, List.mem_singleton, hlast]
    rw [distinct_append_singleton] at hx
    by_cases hany : (distinct ts).any (·.1 == e.2) = true
    · rw [targets_addTarget hany] at hx
      obtain ⟨y, hy, rfl⟩ := List.mem_map.1 hx
      split
      next heq => rw [BitVec.getLsbD_or, Bool.or_eq_true, getLsbD_one_shiftLeft hj, ih y hy j hj, and_iff_right heq]
      next hne => rw [ih y hy j hj, iff_false_intro (fun h => hne (And.left h)), or_false]
    · rw [addTarget, if_neg hany, List.mem_append, List.mem_singleton] at hx
      have hnew : e.2 ∉ (distinct ts).map (·.1) := mt mem_target_iff_any.2 hany
      rcases hx with hx | rfl
      · have hne : x.1 ≠ e.2 := fun heq => hnew (heq ▸ List.mem_map_of_mem hx)
        rw [ih x hx j hj, iff_false_intro (fun h => hne (And.left h)), or_false]
      · have hnone : (j, e.2) ∉ ts := fun h => hnew ((mem_map_fst_distinct ts e.2).2 (List.mem_map.2 ⟨_, h, rfl⟩))
        rw [getLsbD_one_shiftLeft hj, iff_false_intro hnone, false_or, and_iff_right rfl]

/-- The threads that name each target of callx are its mask. -/
theorem getLsbD_calledBy {a : Fin 128} {e : DWord × Mask} (he : e ∈ calledBy s a) {j : Nat} (hj : j < 32) :
    e.2.getLsbD j = true ↔ s.sp.mask.getLsbD j = true ∧ s.at64 (.v a) j = e.1 := by
  rw [getLsbD_distinct _ e he j hj, List.mem_map]
  constructor
  · rintro ⟨i, hi, hpair⟩
    obtain ⟨rfl, htarget⟩ := Prod.mk.inj hpair
    exact ⟨(mem_threads.1 hi).2, htarget⟩
  · rintro ⟨hactive, htarget⟩
    exact ⟨j, mem_threads.2 ⟨hj, hactive⟩, by rw [htarget]⟩

theorem mask_ne_zero_of_mem_calledBy {a : Fin 128} {e : DWord × Mask} (he : e ∈ calledBy s a) : e.2 ≠ 0 := by
  obtain ⟨j, hj, hactive, htarget⟩ := target_of_mem_calledBy he
  have hbit := (getLsbD_calledBy he hj).2 ⟨hactive, htarget.symm⟩
  rintro h0
  rw [h0] at hbit
  simp at hbit

theorem exists_target_of_active {a : Fin 128} {j : Nat} (hj : j < 32) (h : s.sp.mask.getLsbD j = true) :
    ∃ e ∈ calledBy s a, e.2.getLsbD j = true := by
  have hnamed : s.at64 (.v a) j ∈ (calledBy s a).map (·.1) := by
    rw [calledBy, mem_map_fst_distinct]
    exact List.mem_map.2 ⟨(j, s.at64 (.v a) j), List.mem_map.2 ⟨j, mem_threads.2 ⟨hj, h⟩, rfl⟩, rfl⟩
  obtain ⟨e, he, htarget⟩ := List.mem_map.1 hnamed
  exact ⟨e, he, (getLsbD_calledBy he hj).2 ⟨h, htarget.symm⟩⟩

theorem calledBy_ne_nil (h : s.sp.mask ≠ 0) (a : Fin 128) : calledBy s a ≠ [] := by
  obtain ⟨j, hj, hbit⟩ : ∃ j < 32, s.sp.mask.getLsbD j = true := by
    by_contra hno
    exact h (BitVec.eq_of_getLsbD_eq fun j hj => by simpa using fun hbit => hno ⟨j, hj, hbit⟩)
  obtain ⟨e, he, -⟩ := exists_target_of_active (a := a) hj hbit
  exact List.ne_nil_of_mem he

theorem calledBy_closed (hq : s.quiet) (a : Fin 128) : calledBy s.closed a = calledBy s a := by
  simp only [calledBy, sp_closed hq, at64_v_closed hq]

/-! ### The traps of callx (R149) -/

/-- A target that a call accepts: an fhdr within the wave's budgets. -/
def Callable (s : State) (e : DWord × Mask) : Prop := ∃ x n g, Lands s e.1 x ∧ fhdrOf x = some (n, g) ∧ BudgetOk s x

theorem callTargets_append (pre es : List (DWord × Mask)) (h : ∀ e ∈ pre, Callable s e) : s.callTargets (pre ++ es) = s.callTargets es := by
  induction pre with
  | nil => rfl
  | cons e pre ih =>
    obtain ⟨x, n, g, hland, hx, hbudget⟩ := h e List.mem_cons_self
    have hrest := ih fun e' he => h e' (List.mem_cons_of_mem _ he)
    simp only [List.cons_append, State.callTargets, target_of_lands hland, ok_bind, hx, budget_ok hbudget hx, hrest]

theorem callTargets_no_fhdr {e : DWord × Mask} {x : DWord} (hland : Lands s e.1 x) (hx : fhdrOf x = none) (es : List (DWord × Mask)) :
    s.callTargets (e :: es) = .error ⟨tcBadTarget, 0, e.1.extractLsb' 0 32, e.1⟩ := by
  simp only [State.callTargets, target_of_lands hland, ok_bind, hx, error_bind]

theorem callTargets_budget {e : DWord × Mask} {x : DWord} {n g : Nat} (hland : Lands s e.1 x) (hx : fhdrOf x = some (n, g)) (h1 : 1 ≤ n)
    (h128 : n ≤ 128) (hg : g ≤ n) (h : s.w.n < n ∨ s.w.g < g) (es : List (DWord × Mask)) :
    s.callTargets (e :: es) = .error (trapI tcReg n) := by
  simp only [State.callTargets, target_of_lands hland, ok_bind, hx, budget_short h1 h128 hg h, error_bind]

theorem exec_callx_bad_target (hq : s.quiet) (hhandler : s.w.handler = none) {d : Fin 64} {a : Fin 128} {e : TrapReq}
    (h : s.closed.callTargets (calledBy s.closed a) = .error e) : exec (.callx d a) s = .next (s.raise e) := by
  change execCallx d a s = _
  rw [calledBy] at h
  refine isaCtl_error hq.1 ?_
  simp only [hhandler, Option.isSome_none, Bool.false_eq_true, ↓reduceIte, settled_quiet hq, h, error_bind]

theorem exec_callx_depth (hq : s.quiet) (hhandler : s.w.handler = none) {d : Fin 64} {a : Fin 128}
    (hcalls : ∀ e ∈ calledBy s.closed a, Callable s.closed e) (h : 64 ≤ s.closed.sp.depth) :
    exec (.callx d a) s = .next (s.raise (trapI tcDepth s.closed.sp.depth)) := by
  change execCallx d a s = _
  have hcheck := callTargets_ok hcalls
  rw [calledBy] at hcheck
  refine isaCtl_error hq.1 ?_
  simp only [hhandler, Option.isSome_none, Bool.false_eq_true, ↓reduceIte, settled_quiet hq, hcheck, ok_bind, Nat.not_lt.2 h, decide_false,
    check_false, error_bind]

theorem exec_callx_overflow (hq : s.quiet) (hhandler : s.w.handler = none) {d : Fin 64} {a : Fin 128}
    (hcalls : ∀ e ∈ calledBy s.closed a, Callable s.closed e) (hdepth : s.closed.sp.depth < 64)
    (h : (4 - s.closed.w.splits.length) + (8 - s.closed.w.deferred.length) < (calledBy s.closed a).length - 1) :
    exec (.callx d a) s = .next (s.raise (trapI tcSplitOverflow 0)) := by
  change execCallx d a s = _
  have hcheck := callTargets_ok hcalls
  have hfull := Nat.not_le.2 h
  rw [calledBy] at hcheck hfull
  refine isaCtl_error hq.1 ?_
  simp only [hhandler, Option.isSome_none, Bool.false_eq_true, ↓reduceIte, settled_quiet hq, hcheck, ok_bind, hdepth, hfull, decide_true,
    decide_false, check_true, check_false, error_bind]

/-! ### The paths of the further targets (R150) -/

/-- A further target, with its uid and its divergence identifier, as a running split in slot i and as a deferred entry: both with the S
registers and the call depth of the split p. -/
def runningCall (p : Split) (i : Nat) (e : (DWord × Mask) × (Nat × Nat)) : Split :=
  { Split.blank with id := i, pc := e.1.1, mask := e.1.2, s := p.s, depth := p.depth, uid := e.2.1, div := e.2.2 }
def deferredCall (p : Split) (e : (DWord × Mask) × (Nat × Nat)) : Deferred := ⟨e.1.1, e.1.2, p.s, p.depth, e.2.1, e.2.2⟩

/-- One more target in the lowest free slot. -/
def addCall (p : Split) (w : Wave) (e : (DWord × Mask) × (Nat × Nat)) : Wave :=
  match w.freeId with
  | some i => { w with splits := w.splits ++ [runningCall p i e] }
  | none => w

/-- Targets that all have a slot take free ones in order. -/
theorem foldl_addCall (p : Split) (l : List ((DWord × Mask) × (Nat × Nat))) (w : Wave) (h : l.length ≤ 4 - w.splits.length) :
    ∃ ids : List Nat, ids.length = l.length ∧ ids.Pairwise (· < ·) ∧ (∀ i ∈ ids, ∀ q ∈ w.splits, q.id ≠ i) ∧
      l.foldl (addCall p) w = { w with splits := w.splits ++ List.zipWith (runningCall p) ids l } := by
  induction l generalizing w with
  | nil => exact ⟨[], rfl, List.Pairwise.nil, fun i hi => absurd hi List.not_mem_nil, by simp⟩
  | cons e l ih =>
    rw [List.length_cons] at h
    cases hfree : w.freeId with
    | none =>
      have hfull := length_splits_of_freeId_none hfree
      omega
    | some i =>
      obtain ⟨-, hnew, hlower⟩ := freeId_eq_some.1 hfree
      have hadd : addCall p w e = { w with splits := w.splits ++ [runningCall p i e] } := by rw [addCall, hfree]
      obtain ⟨ids, hlen, hpair, hfresh, hfold⟩ := ih (addCall p w e) (by rw [hadd, List.length_append, List.length_singleton]; omega)
      rw [hadd] at hfresh hfold
      refine ⟨i :: ids, by rw [List.length_cons, hlen, List.length_cons], List.pairwise_cons.2 ⟨fun k hk => ?_, hpair⟩, ?_, ?_⟩
      · have hold (q : Split) (hq : q ∈ w.splits) : q.id ≠ k := hfresh k hk q (List.mem_append_left _ hq)
        have hne : i ≠ k := hfresh k hk (runningCall p i e) (List.mem_append_right _ (List.mem_singleton.2 rfl))
        by_contra hle
        obtain ⟨q, hq, hqk⟩ := hlower k (by omega)
        exact hold q hq hqk
      · intro k hk q hq
        rcases List.mem_cons.1 hk with rfl | hk
        · exact hnew q hq
        · exact hfresh k hk q (List.mem_append_left _ hq)
      · rw [List.foldl_cons, hadd, hfold]
        simp

/-- The further targets of a call with the numbers they get. -/
def numberedCalls (w : Wave) (es : List (DWord × Mask)) : List ((DWord × Mask) × (Nat × Nat)) :=
  es.zip ((List.range es.length).map fun i => (w.nextUid + i, w.created + i))

theorem getElem?_numberedCalls {w : Wave} {es : List (DWord × Mask)} {j : Nat} {x : DWord × Mask} (h : es[j]? = some x) :
    (numberedCalls w es)[j]? = some (x, (w.nextUid + j, w.created + j)) := by
  obtain ⟨hlt, -⟩ := List.getElem?_eq_some_iff.1 h
  rw [numberedCalls, List.getElem?_zip_eq_some]
  exact ⟨h, by rw [List.getElem?_map, List.getElem?_range hlt]; rfl⟩

theorem length_numberedCalls (w : Wave) (es : List (DWord × Mask)) : (numberedCalls w es).length = es.length := by
  rw [numberedCalls, List.length_zip, List.length_map, List.length_range, Nat.min_self]

theorem map_fst_numberedCalls (w : Wave) (es : List (DWord × Mask)) : (numberedCalls w es).map (·.1) = es :=
  List.map_fst_zip (by rw [List.length_map, List.length_range])

/-- What the further targets make of a wave: splits in free slots, then entries on the stack. -/
theorem addCalls_eq (w : Wave) (p : Split) (after : Nat) (es : List (DWord × Mask)) :
    ∃ ids : List Nat, ids.length = min es.length (4 - w.splits.length) ∧ ids.Pairwise (· < ·) ∧ (∀ i ∈ ids, ∀ q ∈ w.splits, q.id ≠ i) ∧
      w.addCalls p after es = { w with
        nextUid := w.nextUid + es.length
        created := w.created + es.length
        hint := w.hint.flatMap fun u => if u = after then u :: (List.range es.length).map (w.nextUid + ·) else [u]
        splits := w.splits ++ List.zipWith (runningCall p) ids ((numberedCalls w es).take (4 - w.splits.length))
        deferred := ((numberedCalls w es).drop (4 - w.splits.length)).map (deferredCall p) ++ w.deferred } := by
  have hhint : ((List.range es.length).map fun i => (w.nextUid + i, w.created + i)).map (·.1) = (List.range es.length).map (w.nextUid + ·) :=
    List.map_map
  have hcount : ((numberedCalls w es).take (4 - w.splits.length)).length = min es.length (4 - w.splits.length) := by
    rw [List.length_take, length_numberedCalls, Nat.min_comm]
  obtain ⟨ids, hlen, hpair, hfresh, hfold⟩ := foldl_addCall p ((numberedCalls w es).take (4 - w.splits.length)) { w with
      nextUid := w.nextUid + es.length
      created := w.created + es.length
      hint := w.hint.flatMap fun u => if u = after then u :: (List.range es.length).map (w.nextUid + ·) else [u] }
    (by rw [hcount]; exact Nat.min_le_right _ _)
  refine ⟨ids, hlen.trans hcount, hpair, hfresh, ?_⟩
  rw [← hhint] at hfold ⊢
  exact congrArg (fun v : Wave => { v with deferred := ((numberedCalls w es).drop (4 - w.splits.length)).map (deferredCall p) ++ v.deferred }) hfold

/-! ### callx divides the split (R149, R150) -/

/-- The executing split's wave once the split is linked. -/
def linkedWave (s : State) (d : Nat) : Wave := s.w.modSplit s.cur.split fun p => linked d (p.pc + 8) p

/-- The executing split once it is linked. -/
def linkedSplit (s : State) (d : Nat) : Split := linked d (s.sp.pc + 8) s.sp

theorem w_callInto (hl : s.live = true) (d : Nat) (e : DWord × Mask) (es : List (DWord × Mask)) : (callInto s d e es).w =
    ((linkedWave s d).addCalls (linkedSplit s d) s.sp.uid es).modSplit s.cur.split (onPath e) := by
  have hid (p : Split) : (linked d (p.pc + 8) p).id = p.id := rfl
  have hsp : (s.modSp fun p => linked d (p.pc + 8) p).sp = linkedSplit s d := sp_modSp hl hid
  have hw : (s.modSp fun p => linked d (p.pc + 8) p).w = linkedWave s d := w_modSp hl _
  have huid : (linkedSplit s d).uid = s.sp.uid := rfl
  have hlinked := live_modSp hl hid
  unfold callInto
  generalize hu : s.modSp (fun p => linked d (p.pc + 8) p) = u at hsp hw hlinked
  have hcur : u.cur = s.cur := hu ▸ rfl
  obtain ⟨hsplit, -⟩ := addCalls_keeps u.sp u.sp.uid es (split?_of_live hlinked)
  dsimp only
  rw [w_modSp (live_modW_of_split hlinked hsplit), u.w_modW _ hlinked, hsp, hw, huid, State.modW_cur, hcur]
  rfl

theorem length_splits_linkedWave (s : State) (d : Nat) : (linkedWave s d).splits.length = s.w.splits.length := List.length_map _

/-- A slot that no split of the linked wave has is free in the wave. -/
theorem fresh_of_linkedWave {d i : Nat} (h : ∀ q ∈ (linkedWave s d).splits, q.id ≠ i) : ∀ q ∈ s.w.splits, q.id ≠ i := by
  intro q hq hqi
  refine h _ (List.mem_map_of_mem hq) ?_
  split
  · exact hqi
  · exact hqi

theorem ne_cur_of_fresh (hl : s.live = true) {i : Nat} (h : ∀ q ∈ s.w.splits, q.id ≠ i) : i ≠ s.cur.split := fun heq =>
  h s.sp (List.mem_of_find?_eq_some (split?_of_live hl)) ((id_sp hl).trans heq.symm)

/-- The further targets that have a slot run there, each with its target's threads, the caller's S registers and the new depth. -/
def RunsCalls (s t : State) (d : Nat) (es : List (DWord × Mask)) (ids : List Nat) : Prop :=
  ∀ j x i, es[j]? = some x → ids[j]? = some i → ∃ q ∈ t.w.splits, q.id = i ∧ q.pc = x.1 ∧ q.mask = x.2 ∧
    q.s = (linkedSplit s d).s ∧ q.depth = s.sp.depth + 1 ∧ q.uid = s.w.nextUid + j ∧ q.status = .running

/-- Where the further targets of a callx go (R150). -/
theorem callInto_paths (hl : s.live = true) (d : Nat) (e : DWord × Mask) (es : List (DWord × Mask)) :
    (callInto s d e es).w.splits.length + (callInto s d e es).w.deferred.length = s.w.splits.length + s.w.deferred.length + es.length ∧
    (callInto s d e es).w.hint = (s.w.hint.flatMap fun u => if u = s.sp.uid then u :: (List.range es.length).map (s.w.nextUid + ·) else [u]) ∧
    (∃ ids : List Nat, ids.Pairwise (· < ·) ∧ (∀ i ∈ ids, ∀ p ∈ s.w.splits, p.id ≠ i) ∧ ids.length = min es.length (4 - s.w.splits.length) ∧
      RunsCalls s (callInto s d e es) d es ids) ∧
    ∃ ds, (callInto s d e es).w.deferred = ds ++ s.w.deferred ∧
      (ds.map fun x => (x.pc, x.mask, x.s, x.depth)) =
        (es.drop (4 - s.w.splits.length)).map fun x => (x.1, x.2, (linkedSplit s d).s, s.sp.depth + 1) := by
  obtain ⟨ids, hlen, hpair, hfresh, hadd⟩ := addCalls_eq (linkedWave s d) (linkedSplit s d) s.sp.uid es
  rw [length_splits_linkedWave] at hlen hadd
  have hw := w_callInto hl d e es
  have hnumbers : numberedCalls (linkedWave s d) es = numberedCalls s.w es := rfl
  rw [hadd, hnumbers] at hw
  have hfree (i : Nat) (hi : i ∈ ids) := fresh_of_linkedWave (hfresh i hi)
  refine ⟨?_, by rw [hw]; rfl, ⟨ids, hpair, hfree, hlen, fun j x i hx hi => ?_⟩, _, by rw [hw]; rfl, ?_⟩
  · rw [hw]
    simp only [Wave.modSplit, List.length_map, List.length_append, List.length_zipWith, List.length_take, List.length_drop,
      length_numberedCalls, length_splits_linkedWave, hlen]
    have hdeferred : (linkedWave s d).deferred = s.w.deferred := rfl
    rw [hdeferred]
    omega
  · obtain ⟨hj, -⟩ := List.getElem?_eq_some_iff.1 hi
    have hcall : ((numberedCalls s.w es).take (4 - s.w.splits.length))[j]? = some (x, (s.w.nextUid + j, s.w.created + j)) := by
      rw [List.getElem?_take_of_lt (by omega), getElem?_numberedCalls hx]
    have hmem : runningCall (linkedSplit s d) i (x, (s.w.nextUid + j, s.w.created + j)) ∈
        List.zipWith (runningCall (linkedSplit s d)) ids ((numberedCalls s.w es).take (4 - s.w.splits.length)) :=
      List.mem_of_getElem? (List.getElem?_zipWith_eq_some.2 ⟨i, _, hi, hcall, rfl⟩)
    have hin : runningCall (linkedSplit s d) i (x, (s.w.nextUid + j, s.w.created + j)) ∈ (callInto s d e es).w.splits := by
      rw [hw]
      exact mem_splits_modSplit_of_ne (List.mem_append_right _ hmem) (ne_cur_of_fresh hl (hfree i (List.mem_of_getElem? hi))) _
    exact ⟨_, hin, rfl, rfl, rfl, rfl, rfl, rfl, rfl⟩
  · rw [List.map_map, ← map_fst_numberedCalls s.w es, ← List.map_drop, List.map_map, map_fst_numberedCalls]
    rfl

theorem callable_closed_iff (hl : s.live = true) {e : DWord × Mask} : Callable s.closed e ↔ Callable s e := by
  simp only [Callable, lands_closed_iff hl, budgetOk_closed_iff hl]

/-- A callx whose checks all pass, in the state whose windows are closed. -/
theorem exec_callx_closed (hq : s.quiet) (hhandler : s.w.handler = none) {d : Fin 64} {a : Fin 128} {e : DWord × Mask} {es : List (DWord × Mask)}
    (hts : calledBy s.closed a = e :: es) (hcalls : ∀ x ∈ calledBy s.closed a, Callable s.closed x) (hdepth : s.closed.sp.depth < 64)
    (hroom : (calledBy s.closed a).length - 1 ≤ (4 - s.closed.w.splits.length) + (8 - s.closed.w.deferred.length)) :
    exec (.callx d a) s = .next (callInto s.closed d.val e es) := by
  rw [hts] at hcalls hroom
  rw [calledBy_closed hq] at hts
  rw [sp_closed hq] at hdepth
  rw [length_splits_closed hq.1, deferred_closed hq.1] at hroom
  exact exec_callx hq hhandler hts (fun x hx => (callable_closed_iff hq.1).1 (hcalls x hx)) hdepth hroom

end

/-- Settles O18: call and ret by their checks in turn, callx by its targets, its checks and `callInto_paths`. -/
theorem callsAndReturns : Obligations.CallsAndReturns := by
  unfold Obligations.CallsAndReturns
  constructor
  · intro s hq
    refine ⟨fun d t x hland => ⟨fun hbudget hdepth => ?_, exec_call_depth hq hland, fun n g => exec_call_budget hq hland⟩,
      fun a x hland => ⟨fun hdepth => ?_, exec_ret_depth hq hland⟩⟩
    · rw [targetOf_closed hq] at hland ⊢
      rw [sp_closed hq] at hdepth ⊢
      exact exec_call hq ((lands_closed_iff hq.1).1 hland) ((budgetOk_closed_iff hq.1).1 hbudget) hdepth
    · rw [sp_closed hq] at hland hdepth ⊢
      exact exec_ret hq ((lands_closed_iff hq.1).1 hland) hdepth
  · intro s d a hq hhandler hmask
    have hlive := (quiet_closed hq).1
    refine ⟨fun e he => ⟨fun j hj => getLsbD_calledBy he hj, mask_ne_zero_of_mem_calledBy he⟩, nodup_map_fst_distinct _,
      fun j => exists_target_of_active, fun hcalls hdepth hroom => ?_, fun pre e post x hts hpre hland => ?_,
      fun hcalls => ⟨exec_callx_depth hq hhandler hcalls, exec_callx_overflow hq hhandler hcalls⟩⟩
    · rw [← sp_closed hq] at hmask
      obtain ⟨e, es, hts⟩ := List.exists_cons_of_ne_nil (calledBy_ne_nil hmask a)
      obtain ⟨hsp, -⟩ := callInto_keeps hlive d.val e es
      have hs : (callInto s.closed d.val e es).sp.s = (linkedSplit s.closed d.val).s := by rw [hsp]; rfl
      refine ⟨_, exec_callx_closed hq hhandler hts hcalls hdepth hroom, e, es, hts, by rw [hsp], by rw [hsp], by rw [hsp]; rfl, hs, ?_⟩
      rw [hs]
      exact callInto_paths hlive d.val e es
    · have htargets (er : TrapReq) (h : s.closed.callTargets (e :: post) = .error er) : exec (.callx d a) s = .next (s.raise er) :=
        exec_callx_bad_target hq hhandler (by rw [calledBy, hts, callTargets_append pre _ hpre, h])
      exact ⟨fun hx => htargets _ (callTargets_no_fhdr hland hx post),
        fun n g hx h1 h128 hg h => htargets _ (callTargets_budget hland hx h1 h128 hg h post)⟩

end Sys2Proof.Proofs
end

section
/-! Three more refutations by one state each: a tagwait that acquires a released write, and two by tags that two accesses share, at a
load from the host window and at a walk's read of a table. -/

namespace Sys2Proof.Proofs
open Sys2Proof Sys2Proof.Machine

/-! ### tagwait acquires (R221) -/

/-- A write of wave 1 that its wave has released by tile 0 of the A-buffer. -/
def releasedTile : Unfenced := ⟨0, .a, 0, 1, [], [], [.tile .a 0], []⟩
def tagged : State :=
  { State.reset with
    cores := [(0, { Core.blank with waves := [(0, Wave.blank)], unf := [releasedTile] })]
    wgs := [(0, { WGrp.blank with ta := [Tag.blank] })] }
/-- A wait for C of tile 0, which is set. -/
def waitC : TagOp := ⟨.s 0, 0, .a, false, true, 0⟩

def unfAfter (r : Res) : List Unfenced :=
  match r with
  | .next t => (t.core 0).unf
  | _ => []

theorem tagged_quiet : tagged.quiet := ⟨rfl, rfl⟩
theorem tagged_sound : tagged.sound :=
  ⟨by decide +kernel, by decide +kernel, by decide +kernel, by decide +kernel, ⟨_, rfl⟩, rfl, rfl, rfl⟩

/-- The wave that goes on has acquired the write. -/
theorem unf_tagwait : unfAfter (exec (.tagwait waitC false) tagged) = [{ releasedTile with known := [0] }] := by decide +kernel

/-- Refutes O30: a tagwait that goes on leaves its core's record of released writes changed. -/
theorem not_tagsAndWaits : ¬ Obligations.TagsAndWaits := by
  unfold Obligations.TagsAndWaits
  intro h
  obtain ⟨htags, -⟩ := h tagged tagged_quiet tagged_sound
  obtain ⟨-, -, hgo, -⟩ := htags waitC false rfl (by decide) (by decide)
  have hready := hgo fun k hrun => by
    obtain rfl : k = 0 := Nat.le_zero.1 (show k ≤ 0 from hrun.2)
    exact ⟨fun hv => absurd hv (by decide), fun _ => rfl⟩
  have hunf := unf_tagwait
  rw [hready] at hunf
  exact absurd (show [releasedTile] = _ from hunf) (by decide)

/-! ### A load from the host window -/

/-- A page of the host window. -/
def hostPage : TlbE := ⟨0, 0, 65536, 2 ^ 47, 0, true, true⟩

/-- A wave whose core maps address 0 to the host window, beside the two accesses that share a tag. -/
def loadsHost : State :=
  { sharedTag with cores := [(0, { Core.blank with waves := [(0, Wave.blank)], tlb := [hostPage] })] }

def hostLoad : Instr := .ldG ⟨.always, 0, .v 1, .s 2, .null, 0, .b32, false⟩ false

theorem globalEa_loadsHost (k : Nat) : loadsHost.globalEa (.s 2) .null 0 4 k = 0 := by
  have hlow : loadsHost.src (.s 2) = .uni 0 := by decide +kernel
  have hhigh : loadsHost.srcHi (.s 2) = .uni 0 := by decide +kernel
  have hindex : loadsHost.src .null = .uni 0 := rfl
  simp only [State.globalEa, State.at64, hlow, hhigh, hindex, VReg.at_uni]
  rfl
theorem lookup_loadsHost : loadsHost.lookup 0 0 0 false = .page hostPage := by decide +kernel
theorem rowsFor_loadsHost : loadsHost.rowsFor 1 1 := by
  right
  decide +kernel

/-- The port's turn at the load counts a byte at the barrier. -/
theorem wgs_hostLoad : wgsAfter (exec hostLoad loadsHost) ≠ loadsHost.wgs := by decide +kernel

/-- Refutes O36: with this load a workgroup changes. -/
theorem not_globalAccessIssue : ¬ Obligations.GlobalAccessIssue := by
  unfold Obligations.GlobalAccessIssue
  rintro ⟨h, -⟩
  obtain ⟨hload, -⟩ := h loadsHost .always 0 (.s 2) .null .null .null 1 0 .b32 false false .add .dv ⟨rfl, rfl⟩ (by decide +kernel)
  obtain ⟨t, ht, -, -, -, hwgs, -⟩ := hload false
    (fun k _ => congrArg (fun va : DWord => va.toNat % 4) (globalEa_loadsHost k))
    (fun k _ => ⟨hostPage, (congrArg (loadsHost.lookup 0 0 · false) (globalEa_loadsHost k)).trans lookup_loadsHost, nofun⟩)
    (by decide +kernel) rowsFor_loadsHost
  have hne := wgs_hostLoad
  rw [hostLoad, ht] at hne
  exact hne hwgs

/-! ### A walk -/

/-- A walk whose root table is in LPDDR 6. -/
def walkOf : Walk := ⟨0, 0, none, 0, 0, 0, []⟩
/-- The walk's next read takes the tag that an access of the launch unit still has. -/
def staleWalk : State := { hostReady with walks := [walkOf], asks := [askOf 0 .launch .none] }

theorem ownWalk_staleWalk : staleWalk.ownWalk walkOf.who walkOf.asid walkOf.root walkOf.va = .error (.read walkOf.who [(0, 8)]) := rfl

/-- The read is asked for and its access lost in the same turn. -/
theorem pageTableWalk_staleTag : asksAfter (exec (.pageTableWalk 0) staleWalk) = [] := by decide +kernel

/-- Refutes O38: the walk's read is not under way after the walker's turn. -/
theorem not_translationAndResponses : ¬ Obligations.TranslationAndResponses := by
  unfold Obligations.TranslationAndResponses
  rintro ⟨h, -⟩
  obtain ⟨hwalk, -⟩ := h staleWalk
  obtain ⟨-, -, hask⟩ := hwalk 0 walkOf rfl
  obtain ⟨t, ht, -, -, a, ha, -⟩ := hask _ ownWalk_staleWalk (0, 8) (by simp) rfl
  have hgone := pageTableWalk_staleTag
  rw [ht] at hgone
  have hnone : t.asks = [] := hgone
  exact List.not_mem_nil (hnone ▸ ha)

end Sys2Proof.Proofs
end

section
/-! Addresses and checks of local accesses (R167, R169): the threads performed, and the trap of the lowest thread that fails. -/

namespace Sys2Proof.Proofs
open Sys2Proof Sys2Proof.Machine

/-! ### The threads of a mask -/

theorem find?_threads_eq_some {m : Mask} {bad : Nat → Bool} {k : Nat} : (threads m).find? bad = some k ↔
    (k < 32 ∧ m.getLsbD k = true) ∧ bad k = true ∧ ∀ j < k, m.getLsbD j = true → bad j = false := by
  rw [threads, List.find?_filter, List.find?_range_eq_some]
  simp only [Bool.decide_and, Bool.decide_eq_true, Bool.and_eq_true, List.mem_range, Bool.not_eq_true', Bool.and_eq_false_imp]
  tauto

theorem threads_zero : threads 0 = [] := by
  simp [threads]

theorem threads_eq_nil {m : Mask} : threads m = [] ↔ m = 0 := by
  refine ⟨fun h => BitVec.eq_of_getLsbD_eq fun j hj => ?_, fun h => h ▸ threads_zero⟩
  have hnot : ¬ (j < 32 ∧ m.getLsbD j = true) := fun hb => by simpa [h] using mem_threads.2 hb
  simpa [hj] using hnot

theorem threads_ne_nil {m : Mask} (h : m ≠ 0) : threads m ≠ [] := fun hnil => h (threads_eq_nil.1 hnil)

/-! ### Checks over threads (R169) -/

theorem failThread_ok {ts : List Nat} {bad : Nat → Bool} (h : ∀ t ∈ ts, bad t = false) (e : Nat → TrapReq) :
    failThread ts bad e = .ok () := by
  rw [failThread, List.find?_eq_none.2 fun t ht => by simp [h t ht]]

theorem failThread_threads {m : Mask} {bad : Nat → Bool} {k : Nat} (hk : k < 32 ∧ m.getLsbD k = true) (hbad : bad k = true)
    (hlow : ∀ j < k, m.getLsbD j = true → bad j = false) (e : Nat → TrapReq) :
    failThread (threads m) bad e = .error { e k with thread := k } := by
  rw [failThread, find?_threads_eq_some.2 ⟨hk, hbad, hlow⟩]

theorem overEach_ok (ts : List Nat) : overEach ts (.ok ()) = .ok () := by
  cases ts <;> rfl

theorem overEach_check {ts : List Nat} {b : Bool} (h : ts ≠ [] → b = true) (e : TrapReq) : overEach ts (check b e) = .ok () := by
  cases ts with
  | nil => rfl
  | cons t ts => rw [h (List.cons_ne_nil _ _), check_true, overEach_ok]

theorem lowest_ok {α : Type} (ts : List Nat) (x : α) : lowest ts (.ok x) = .ok x := rfl

/-! ### Addresses (R167) -/

theorem toNat_localEa (s : State) (o : LocalOp) (t : Nat) :
    (localEa ((s.src o.a).at t) ((s.src o.b).at t) o.off o.size.bytes).toNat = s.localAddr o t := rfl

/-- The addresses of an access: of the threads it performs, and uniform where both slots are UNI. -/
def accessOf (s : State) (g : Guard) (scalarD : Bool) (a b : Opnd) (off : BitVec 8) (bytes : Nat) : Access :=
  ⟨s.performed g scalarD, fun t => localEa ((s.src a).at t) ((s.src b).at t) off bytes, (s.src a).isUni && (s.src b).isUni⟩

theorem access_ok {s : State} {g : Guard} {scalarD : Bool} {a b : Opnd} (h : scalarD = true → (s.src a).isUni = true ∧ (s.src b).isUni = true)
    (off : BitVec 8) (bytes : Nat) : s.access g scalarD a b off bytes = .ok (accessOf s g scalarD a b off bytes) := by
  have ha : (!scalarD || (s.src a).isUni) = true := by cases scalarD <;> simp_all
  have hb : (!scalarD || (s.src b).isUni) = true := by cases scalarD <;> simp_all
  simp only [State.access, ha, hb, check_true, overEach_ok, ok_bind]
  rfl

theorem performed_vec (s : State) (g : Guard) : s.performed g false = threads (s.guardMask g) := rfl
theorem performed_zero {s : State} {g : Guard} (h : s.guardMask g = 0) (scalarD : Bool) : s.performed g scalarD = [] := by
  rw [State.performed, h, threads_zero]
  cases scalarD <;> rfl
theorem performed_scalar {s : State} {g : Guard} (h : s.guardMask g ≠ 0) : s.performed g true = [0] := by
  simp [State.performed, threads_ne_nil h]

/-! ### The checks of a local access (R169) -/

theorem localChecks_ok {s : State} {x : Access} {sp : Space} {bytes limit : Nat} (hrole : x.ts ≠ [] → roleReaches s.w.role sp = true)
    (haddr : ∀ t ∈ x.ts, (x.ea t).toNat % bytes = 0 ∧ (x.ea t).toNat + bytes ≤ limit) (op : Nat) :
    s.localChecks x sp op bytes limit = .ok () := by
  rw [State.localChecks, overEach_check hrole, ok_bind, failThread_ok fun t ht => by simp [(haddr t ht).1], ok_bind,
    failThread_ok fun t ht => by simp [(haddr t ht).2]]

section
variable {s : State} {x : Access} {sp : Space} {op bytes limit : Nat} {m : Mask} {k : Nat}

/-- A role that may not reach the buffer is refused at the lowest thread. -/
theorem localChecks_role (hts : x.ts = threads m) (hrole : roleReaches s.w.role sp = false) (hk : k < 32 ∧ m.getLsbD k = true)
    (hlow : ∀ j < k, m.getLsbD j = false) :
    s.localChecks x sp op bytes limit = .error { trapI tcDenied op with thread := k } := by
  obtain ⟨ts, hcons⟩ := threads_eq_cons hk.1 hk.2 hlow
  rw [State.localChecks, hts, hcons, hrole]
  rfl

theorem localChecks_misaligned (hts : x.ts = threads m) (hrole : roleReaches s.w.role sp = true) (hk : k < 32 ∧ m.getLsbD k = true)
    (hoff : (x.ea k).toNat % bytes ≠ 0) (hlow : ∀ j < k, m.getLsbD j = true → (x.ea j).toNat % bytes = 0) :
    s.localChecks x sp op bytes limit = .error ⟨tcMisaligned, k, x.ea k, 0⟩ := by
  rw [State.localChecks, overEach_check fun _ => hrole, ok_bind, hts,
    failThread_threads hk (by simpa using hoff) fun j hj hb => by simpa using hlow j hj hb]
  rfl

theorem localChecks_outside (hts : x.ts = threads m) (hrole : roleReaches s.w.role sp = true)
    (haligned : ∀ t ∈ x.ts, (x.ea t).toNat % bytes = 0) (hk : k < 32 ∧ m.getLsbD k = true) (hout : limit < (x.ea k).toNat + bytes)
    (hlow : ∀ j < k, m.getLsbD j = true → (x.ea j).toNat + bytes ≤ limit) :
    s.localChecks x sp op bytes limit = .error ⟨tcProtection, k, x.ea k, 0⟩ := by
  rw [State.localChecks, overEach_check fun _ => hrole, ok_bind, failThread_ok fun t ht => by simp [haligned t ht], ok_bind, hts,
    failThread_threads hk (by simpa using hout) fun j hj hb => by simpa using hlow j hj hb]

end

/-! ### The three forms of a local access -/

/-- Loads and stores of the A-buffer and loads of the W-buffer, each with its buffer and its OP. -/
def LocalForm (o : LocalOp) (i : Instr) (op : Nat) (sp : Space) : Prop :=
  (i = .ldA o ∧ sp = .a ∧ op = 0x140) ∨ (i = .stA o ∧ sp = .a ∧ op = 0x141) ∨ (i = .ldW o ∧ sp = .w ∧ op = 0x142)

theorem isa_congr {f g : State → Except TrapReq State} {s : State} (h : f s = g s) : isa f s = isa g s := by
  unfold isa; rw [h]

/-- What a load does once its checks have passed: nothing without a thread, else its registers go to its group. -/
def loadInto (s : State) (g : Guard) (la : BitVec 4) (d : Opnd) (z : Size) (sx : Bool) (x : Access) (bytes : Nat → List Byte) :
    Except TrapReq State :=
  if x.ts.isEmpty then .ok s else do
    let s' ← lowest x.ts (s.writeGroup d (s.guardMask g) 0 (loadRegs z sx x.uniform (x.ts.headD 0) bytes))
    .ok (s'.openDone s la (groupOf d z.regs))

theorem loadInto_nil {s : State} {x : Access} (h : x.ts = []) (g : Guard) (la : BitVec 4) (d : Opnd) (z : Size) (sx : Bool)
    (bytes : Nat → List Byte) : loadInto s g la d z sx x bytes = .ok s := by
  rw [loadInto, h]; rfl

/-- What st.a does once its checks have passed: the elements one by one, and the lines of L1 over them go stale. -/
def storeEach (s : State) (z : Size) (ts : List Nat) (at_ : Nat → Nat) (bytes : Nat → List Byte) : State :=
  ts.foldl (fun s' t => (s'.bufWrite s.cur.core s.w.wg .a (at_ t) (bytes t) (.wave s.w.idx)).staleOwn false (at_ t) z.bytes)
    (s.noteAll s.cur.core s.w.wg s.w.idx .a (ts.map at_) z.bytes)

theorem localLoad_eq {s : State} {o : LocalOp} (h : scalarDst o.d = true → (s.src o.a).isUni = true ∧ (s.src o.b).isUni = true)
    (sp : Space) (op : Nat) :
    s.localLoad o sp op = (do
      let x := accessOf s o.g (scalarDst o.d) o.a o.b o.off o.size.bytes
      s.localChecks x sp op o.size.bytes (s.g.size sp)
      loadInto s o.g o.la o.d o.size o.sx x fun t => s.bufGet s.w.wg sp (x.ea t).toNat o.size.bytes) := by
  rw [State.localLoad, access_ok h]; rfl

theorem localStore_eq (s : State) (o : LocalOp) (op : Nat) :
    s.localStore o .a op = (do
      let x := accessOf s o.g false o.a o.b o.off o.size.bytes
      s.localChecks x .a op o.size.bytes (s.g.size .a)
      .ok (storeEach s o.size x.ts (fun t => (x.ea t).toNat) (s.dataBytes o.d o.size))) := by
  rw [State.localStore, access_ok (scalarD := false) nofun]; rfl

theorem storeEach_nil (s : State) (z : Size) (at_ : Nat → Nat) (bytes : Nat → List Byte) : storeEach s z [] at_ bytes = s := rfl

/-- Each form makes its checks on the threads of its guard, and does nothing where there are none. -/
theorem exec_localForm {s : State} {o : LocalOp} {i : Instr} {op : Nat} {sp : Space} (h : LocalForm o i op sp) (hd : o.d.isScalarReg = false) :
    ∃ rest : Except TrapReq State, (s.guardMask o.g = 0 → rest = .ok s) ∧ exec i s = isa (fun s =>
      s.localChecks (accessOf s o.g false o.a o.b o.off o.size.bytes) sp op o.size.bytes (s.g.size sp) >>= fun _ => rest) s := by
  have hsc : scalarDst o.d = false := hd
  rcases h with ⟨rfl, rfl, rfl⟩ | ⟨rfl, rfl, rfl⟩ | ⟨rfl, rfl, rfl⟩
  · exact ⟨_, fun h0 => loadInto_nil (performed_zero h0 false) .., isa_congr (f := fun s => s.localLoad o .a 0x140) (by
      rw [localLoad_eq (by simp [hsc]), hsc])⟩
  · exact ⟨_, fun h0 => by rw [accessOf, performed_zero h0, storeEach_nil],
      isa_congr (f := fun s => s.localStore o .a 0x141) (localStore_eq ..)⟩
  · exact ⟨_, fun h0 => loadInto_nil (performed_zero h0 false) .., isa_congr (f := fun s => s.localLoad o .w 0x142) (by
      rw [localLoad_eq (by simp [hsc]), hsc])⟩

theorem roleReaches_iff {r : Role} {sp : Space} (hsp : sp = .a ∨ sp = .w) :
    roleReaches r sp = true ↔ sp = .a ∨ r = .general ∨ r = .matrix := by
  rcases hsp with rfl | rfl <;> cases r <;> simp [roleReaches]

/-- Settles O28: the checks in their order, each with the lowest thread that fails it. -/
theorem localAccessTraps : Obligations.LocalAccessTraps := by
  unfold Obligations.LocalAccessTraps
  intro s o i op sp hform hd hl part reach off out
  obtain ⟨rest, hrest, hexec⟩ := exec_localForm (s := s) hform hd
  have hsp : sp = .a ∨ sp = .w := by rcases hform with ⟨-, h, -⟩ | ⟨-, h, -⟩ | ⟨-, h, -⟩ <;> simp [h]
  have hts : (accessOf s o.g false o.a o.b o.off o.size.bytes).ts = threads (s.guardMask o.g) := rfl
  have hreach : reach → roleReaches s.w.role sp = true := (roleReaches_iff hsp).2
  have htrap {e : TrapReq} (h : s.localChecks (accessOf s o.g false o.a o.b o.off o.size.bytes) sp op o.size.bytes (s.g.size sp) = .error e) :
      exec i s = .next (s.raise e) := by
    rw [hexec]
    exact isa_error hl (by rw [h]; rfl)
  refine ⟨fun k hno hk hlow => htrap (localChecks_role hts ?_ hk fun j hj => ?_), fun h0 => ?_,
    fun k hr hk hoff hlow => ?_, fun k hr hall hk hout hlow => ?_⟩
  · exact Bool.eq_false_iff.2 fun h => hno ((roleReaches_iff hsp).1 h)
  · exact Bool.eq_false_iff.2 fun h => hlow j hj ⟨hj.trans hk.1, h⟩
  · rw [hexec]
    refine isa_ok hl ?_
    have hnil := hts.trans (threads_eq_nil.2 h0)
    rw [localChecks_ok (by simp [hnil]) (by simp [hnil]), ok_bind, hrest h0]
  · rw [htrap (localChecks_misaligned hts (hreach hr) hk hoff fun j hj hb => not_not.1 (hlow j hj ⟨hj.trans hk.1, hb⟩))]
    rw [← toNat_localEa, BitVec.ofNat_toNat, BitVec.setWidth_eq]
    rfl
  · rw [htrap (localChecks_outside hts (hreach hr) (fun t ht => not_not.1 (hall t (mem_threads.1 ht))) hk hout
      fun j hj hb => Nat.not_lt.1 (hlow j hj ⟨hj.trans hk.1, hb⟩))]
    rw [← toNat_localEa, BitVec.ofNat_toNat, BitVec.setWidth_eq]
    rfl

end Sys2Proof.Proofs
end

section
/-! The register group of a load: rows taken one by one, and the registers written, to a V, S or WG destination (R24, R26, R168). -/

namespace Sys2Proof.Proofs
open Sys2Proof Sys2Proof.Machine

/-! ### One V register -/

section
variable {s u : State}

theorem vreg_eq_of_v (h : u.w.v = s.w.v) (k : Nat) : u.vreg k = s.vreg k := by rw [State.vreg, State.vreg, h]

/-- Registers of the executing wave change and then books of its split. -/
theorem w_modW_modSp (hl : s.live = true) {f : Wave → Wave} (hf : ∀ w, (f w).splits = w.splits) (q : Split → Split) :
    ((s.modW f).modSp q).w = (f s.w).modSplit s.cur.split q := by
  have hlive : (s.modW f).live = true := by
    rw [s.live_modW, hl]
    exact fun w => by simp only [Wave.split?, hf]
  rw [w_modSp hlive, s.w_modW f hl]
  rfl

theorem sp_modW_modSp (hl : s.live = true) {f : Wave → Wave} (hf : ∀ w, (f w).splits = w.splits) {q : Split → Split}
    (hid : ∀ p : Split, (q p).id = p.id) : ((s.modW f).modSp q).sp = q s.sp := by
  have hlive : (s.modW f).live = true := by
    rw [s.live_modW, hl]
    exact fun w => by simp only [Wave.split?, hf]
  rw [sp_modSp hlive hid, sp_modW hl (hf _)]

/-- The wave once Vn has taken a value, with its operand buffer's books, and the split whose windows follow a write. -/
def withV (n : Nat) (x : VReg) (w : Wave) : Wave :=
  { w with v := w.v.set n x, dirty := if w.fob.contains n && !w.dirty.contains n then n :: w.dirty else w.dirty }
def followed (o : Opnd) (m : Mask) (p : Split) : Split := { p with windows := p.windows.map fun x => x.follow o m }

theorem putV_eq (s : State) (n : Nat) (x : VReg) (m : Mask) :
    s.putV n x m = (s.modW (withV n x)).modSp (followed (vOpnd n) m) := rfl

theorem w_putV (hl : s.live = true) (n : Nat) (x : VReg) (m : Mask) :
    (s.putV n x m).w = (withV n x s.w).modSplit s.cur.split (followed (vOpnd n) m) := by
  rw [putV_eq, w_modW_modSp (f := withV n x) hl fun _ => rfl]

theorem sp_putV (hl : s.live = true) (n : Nat) (x : VReg) (m : Mask) : (s.putV n x m).sp.s = s.sp.s := by
  rw [putV_eq, sp_modW_modSp (f := withV n x) (q := followed (vOpnd n) m) hl (fun _ => rfl) fun _ => rfl]
  rfl

theorem v_putV (hl : s.live = true) (n : Nat) (x : VReg) (m : Mask) : (s.putV n x m).w.v = s.w.v.set n x := by
  rw [w_putV hl]; rfl

theorem vreg_putV (hl : s.live = true) {n : Nat} (hn : n < s.w.v.length) (x : VReg) (m : Mask) : (s.putV n x m).vreg n = x := by
  rw [State.vreg, v_putV hl]
  simp [hn]

theorem vreg_putV_ne (hl : s.live = true) {n k : Nat} (hk : k ≠ n) (x : VReg) (m : Mask) : (s.putV n x m).vreg k = s.vreg k := by
  rw [State.vreg, v_putV hl, getD_set_of_ne _ _ _ hk, State.vreg]

/-! ### Rows (R26) -/

theorem rowed_putV_ne (hl : s.live = true) {n k : Nat} (hk : k ≠ n) (x : VReg) (m : Mask) :
    (s.putV n x m).w.rowed k = s.w.rowed k := by
  have haccs : (s.putV n x m).w.accs = s.w.accs := by rw [w_putV hl]; rfl
  rw [Wave.rowed, haccs]
  exact congrArg (fun v : VReg => v.isGen || _) (vreg_putV_ne hl hk x m)

/-- A wave that differs in one register from another holds at most one row more. -/
theorem rows_le_of_rowed {w w' : Wave} {n : Nat} (h : ∀ k, k ≠ n → w'.rowed k = w.rowed k) : w'.rows ≤ w.rows + 1 := by
  have hsub : (List.range 128).filter w'.rowed ⊆ n :: (List.range 128).filter w.rowed := by
    intro k hk
    by_cases hkn : k = n
    · simp [hkn]
    · simpa [h k hkn] using Or.inr (List.mem_filter.1 hk)
  exact (List.subperm_of_subset (List.nodup_range.filter _) hsub).length_le

theorem rowFree_of_rowsFor {n k : Nat} (h : s.rowsFor n (k + 1)) : s.rowFree n :=
  h.imp (fun hall => hall 0 (Nat.succ_pos k)) fun hroom => by omega

theorem rowsFor_putV (hl : s.live = true) {n k : Nat} (h : s.rowsFor n (k + 1)) (x : VReg) (m : Mask) :
    (s.putV n x m).rowsFor (n + 1) k := by
  have hg : (s.putV n x m).w.g = s.w.g := by rw [w_putV hl]; rfl
  refine h.imp (fun hall j hj => ?_) fun hroom => ?_
  · rw [rowed_putV_ne hl (by omega)]
    simpa only [Nat.add_assoc, Nat.add_comm 1] using hall (j + 1) (by omega)
  · have := rows_le_of_rowed fun j hj => rowed_putV_ne (n := n) hl hj x m
    rw [hg]
    omega

/-! ### A group of V registers -/

/-- From s to u the registers from Vn on took the values `regs` in the threads of m, and nothing else changed but books of the
operand layer. -/
structure GroupWritten (s u : State) (m : Mask) (n : Nat) (regs : List VReg) : Prop where
  frame : ValueFrame (fun _ => True) True s u
  pregs : u.w.p = s.w.p
  sregs : u.sp.s = s.sp.s
  wgs : u.wgs = s.wgs
  length : u.w.v.length = s.w.v.length
  others : ∀ k, (k < n ∨ n + regs.length ≤ k) → u.vreg k = s.vreg k
  vregs : ∀ j < regs.length, n + j < s.w.v.length → u.vreg (n + j) = VReg.written m (regs.getD j .unwritten) (s.vreg (n + j))

theorem GroupWritten.nothing (hl : s.live = true) (m : Mask) (n : Nat) : GroupWritten s s m n [] :=
  ⟨.refl hl, rfl, rfl, rfl, rfl, fun _ _ => rfl, nofun⟩

/-- The first register of a group, and then the others. -/
theorem GroupWritten.cons (hq : s.quiet) {m : Mask} {n : Nat} {x : VReg} {xs : List VReg}
    (h : GroupWritten (s.putV n (VReg.written m x (s.vreg n)) m) u m (n + 1) xs) : GroupWritten s u m n (x :: xs) := by
  obtain ⟨frame, pregs, sregs, wgs, length, others, vregs⟩ := h
  have hp : (s.putV n (VReg.written m x (s.vreg n)) m).w.p = s.w.p := by rw [w_putV hq.1]; rfl
  have hlen : (s.putV n (VReg.written m x (s.vreg n)) m).w.v.length = s.w.v.length := by rw [v_putV hq.1, List.length_set]
  refine ⟨(frame_putV hq (fun _ => trivial) _ m).trans frame, pregs.trans hp, sregs.trans (sp_putV hq.1 ..), wgs,
    length.trans hlen, fun k hk => ?_, fun j hj hjv => ?_⟩
  · rw [List.length_cons] at hk
    rw [others k (by omega), vreg_putV_ne hq.1 (by omega)]
  · rcases j with _ | j
    · exact (others n (by omega)).trans (vreg_putV hq.1 hjv ..)
    · rw [List.length_cons] at hj
      rw [show n + (j + 1) = n + 1 + j by omega] at hjv ⊢
      rw [vregs j (by omega) (hlen ▸ hjv), vreg_putV_ne hq.1 (by omega), List.getD_cons_succ]

theorem writeGroup_null (s : State) (m : Mask) (n : Fin 128) {i : Nat} (hi : 128 ≤ n.val + i) (regs : List VReg) :
    s.writeGroup (.v n) m i regs = .ok s := by
  induction regs generalizing i with
  | nil => rfl
  | cons x xs ih =>
    rw [State.writeGroup, Opnd.plus, dif_neg (by omega)]
    exact ih (by omega)

/-- A group of V registers with rows to be had is written whole; what lies past V127 is discarded. -/
theorem writeGroup_v {m : Mask} (hm : m ≠ 0) (n : Fin 128) (regs : List VReg) : ∀ {s : State} {i : Nat}, s.quiet → s.rowsFor (n.val + i) regs.length →
    ∃ u, s.writeGroup (.v n) m i regs = .ok u ∧ u.quiet ∧ ValueFrame (fun _ => True) True s u ∧
      (n.val + i + regs.length ≤ 128 → GroupWritten s u m (n.val + i) regs) := by
  induction regs with
  | nil => exact fun hq _ => ⟨_, rfl, hq, .refl hq.1, fun _ => .nothing hq.1 _ _⟩
  | cons x xs ih =>
    intro s i hq hrows
    by_cases hi : n.val + i < 128
    · have hput := writeV_quiet hq (rowFree_of_rowsFor hrows) x hm
      have hframe : ValueFrame (fun _ => True) True s _ := frame_putV hq (n := n.val + i) (fun _ => trivial) (VReg.written m x (s.vreg (n.val + i))) m
      obtain ⟨u, hu, huq, hlate, hgroup⟩ := ih (i := i + 1) (hframe.quiet hq) (by simpa only [Nat.add_assoc] using rowsFor_putV hq.1 hrows _ m)
      refine ⟨u, ?_, huq, hframe.trans hlate, fun hroom => .cons hq (hgroup ?_)⟩
      · rw [State.writeGroup, Opnd.plus, dif_pos hi, State.writeD, hput]
        exact hu
      · rw [List.length_cons] at hroom; omega
    · refine ⟨s, writeGroup_null s m n (by omega) _, hq, .refl hq.1, fun hroom => ?_⟩
      rw [List.length_cons] at hroom; omega

end

end Sys2Proof.Proofs
end

section
/-! The register group of a load to a scalar destination: the words in the S or the WG file, in order (R96, R168, R334). -/

namespace Sys2Proof.Proofs
open Sys2Proof Sys2Proof.Machine

section
variable {s u : State}

theorem g_modSp (hl : s.live = true) (f : Split → Split) : (s.modSp f).g = s.g := by
  rw [State.g, w_modSp hl]
  rfl

theorem w_modG (s : State) (f : WGrp → WGrp) : (s.modG f).w = s.w := rfl

theorem g_modG {g : WGrp} (h : look s.wgs s.w.wg = some g) (f : WGrp → WGrp) : (s.modG f).g = f s.g := by
  have hg : s.g = g := by rw [State.g, State.wg, h]; rfl
  rw [hg]
  exact s.wg_modWg f h

theorem getD_set_self {α : Type} {l : List α} {n : Nat} (x : α) (h : n < l.length) (d : α) : (l.set n x).getD n d = x := by
  simp [h]

theorem look_wgs_modG {g : WGrp} (h : look s.wgs s.w.wg = some g) (f : WGrp → WGrp) : look (s.modG f).wgs s.w.wg = some (f g) := by
  rw [State.modG, State.look_modWg, h, Option.map_some]

/-! ### One S register -/

theorem writeS_quiet (hq : s.quiet) (n : Nat) (x : Word) :
    s.writeS n x = s.modSp fun p => { p with s := p.s.set n x, windows := p.windows.map fun w => w.follow (sOpnd n) fullMask } := by
  rw [State.writeS, heldS_nil hq.2]; rfl

theorem v_modSp (hl : s.live = true) (f : Split → Split) : (s.modSp f).w.v = s.w.v := by rw [w_modSp hl]; rfl
theorem p_modSp (hl : s.live = true) (f : Split → Split) : (s.modSp f).w.p = s.w.p := by rw [w_modSp hl]; rfl

theorem v_writeS (hq : s.quiet) (n : Nat) (x : Word) : (s.writeS n x).w.v = s.w.v := by
  rw [writeS_quiet hq, v_modSp hq.1]

theorem p_writeS (hq : s.quiet) (n : Nat) (x : Word) : (s.writeS n x).w.p = s.w.p := by
  rw [writeS_quiet hq, p_modSp hq.1]

theorem wgs_writeS (hq : s.quiet) (n : Nat) (x : Word) : (s.writeS n x).wgs = s.wgs := by
  rw [writeS_quiet hq]; rfl

theorem s_writeS (hq : s.quiet) (n : Nat) (x : Word) : (s.writeS n x).sp.s = s.sp.s.set n x := by
  rw [writeS_quiet hq, sp_modSp hq.1]
  exact fun _ => rfl

/-! ### One WG register (R334) -/

theorem wgAdd_fresh (y : WgWrite) (r : Nat) (v : Word) : wgAdd y [⟨r, v, 0, none⟩] = [⟨r, v, 0, none⟩, y] := by
  rw [wgAdd]
  by_cases hd : (decide (0 < y.done) || (none : Option Nat) == y.idx) = true
  · rw [if_pos hd]; rfl
  · have hzero : y.done = 0 := by simp at hd; omega
    rw [if_neg hd, if_neg (by simp), if_neg (by simp), if_pos hzero.symm]; rfl

/-- The first write of a register since writes were kept takes effect, and is kept beside the others'. -/
theorem wgNote_fresh {g : WGrp} {y : WgWrite} (hnew : ∀ x ∈ g.wgPrev, x.reg ≠ y.reg) (hy : y.idx.isSome = true) (cyc : Nat) :
    (g.wgNote cyc y).wgr = g.wgr.set y.reg y.val ∧ ∀ x ∈ (g.wgNote cyc y).wgPrev, x.reg = y.reg ∨ x ∈ g.wgPrev := by
  have hnil : g.wgPrev.filter (·.reg == y.reg) = [] := List.filter_eq_nil_iff.2 fun x hx => by simpa using hnew x hx
  have hother : ((none : Option Nat) == y.idx) = false := by rcases h : y.idx with _ | _ <;> simp_all
  have hxs : wgAdd { y with done := y.done } [⟨y.reg, g.wgr.getD y.reg 0, 0, none⟩] = _ := wgAdd_fresh _ _ _
  simp only [WGrp.wgNote, hnil, List.isEmpty_nil, ↓reduceIte, List.filter_cons, hother, List.filter_nil, List.foldl_nil, hxs, Bool.false_eq_true]
  refine ⟨rfl, fun x hx => ?_⟩
  simp only [List.mem_append, List.mem_cons, List.not_mem_nil, or_false, List.mem_filter] at hx
  rcases hx with (rfl | rfl) | ⟨hx, -⟩
  · exact .inl rfl
  · exact .inl rfl
  · exact .inr hx

/-- The write of a WG register by the executing wave in this cycle. -/
def wgWrite (s : State) (n : Nat) (x : Word) : WgWrite := ⟨n, x, (s.core s.cur.core).cyc.toNat, some s.w.idx⟩

theorem reg_wgWrite (s : State) (n : Nat) (x : Word) : (wgWrite s n x).reg = n := rfl

theorem writeWg_quiet (hq : s.quiet) (n : Nat) (x : Word) :
    s.writeWg n x = (s.modG fun g => g.wgNote (s.core s.cur.core).cyc.toNat (wgWrite s n x)).modSp (followed (wgOpnd n) fullMask) := by
  rw [State.writeWg, heldWg_nil hq.2]; rfl

theorem w_writeWg (hq : s.quiet) (n : Nat) (x : Word) :
    (s.writeWg n x).w = s.w.modSplit s.cur.split (followed (wgOpnd n) fullMask) := by
  have hlive : (s.modG fun g => g.wgNote (s.core s.cur.core).cyc.toNat (wgWrite s n x)).live = true := hq.1
  rw [writeWg_quiet hq, w_modSp hlive, w_modG]
  rfl

theorem v_writeWg (hq : s.quiet) (n : Nat) (x : Word) : (s.writeWg n x).w.v = s.w.v := by rw [w_writeWg hq]; rfl
theorem p_writeWg (hq : s.quiet) (n : Nat) (x : Word) : (s.writeWg n x).w.p = s.w.p := by rw [w_writeWg hq]; rfl

theorem s_writeWg (hq : s.quiet) (n : Nat) (x : Word) : (s.writeWg n x).sp.s = s.sp.s := by
  have hlive : (s.modG fun g => g.wgNote (s.core s.cur.core).cyc.toNat (wgWrite s n x)).live = true := hq.1
  have hsp : (s.modG fun g => g.wgNote (s.core s.cur.core).cyc.toNat (wgWrite s n x)).sp = s.sp := rfl
  rw [writeWg_quiet hq, sp_modSp (f := followed (wgOpnd n) fullMask) hlive (fun _ => rfl), hsp]
  rfl

theorem g_writeWg (hq : s.quiet) {g : WGrp} (h : look s.wgs s.w.wg = some g) (n : Nat) (x : Word) :
    (s.writeWg n x).g = s.g.wgNote (s.core s.cur.core).cyc.toNat (wgWrite s n x) := by
  have hlive : (s.modG fun g => g.wgNote (s.core s.cur.core).cyc.toNat (wgWrite s n x)).live = true := hq.1
  rw [writeWg_quiet hq, g_modSp hlive, g_modG h]

theorem look_writeWg (hq : s.quiet) {g : WGrp} (h : look s.wgs s.w.wg = some g) (n : Nat) (x : Word) :
    ∃ g', look (s.writeWg n x).wgs (s.writeWg n x).w.wg = some g' := by
  have hlive : (s.modG fun g => g.wgNote (s.core s.cur.core).cyc.toNat (wgWrite s n x)).live = true := hq.1
  refine ⟨g.wgNote (s.core s.cur.core).cyc.toNat (wgWrite s n x), ?_⟩
  rw [writeWg_quiet hq, w_modSp hlive]
  exact look_wgs_modG h fun g => g.wgNote (s.core s.cur.core).cyc.toNat (wgWrite s n x)

end

/-! ### Groups -/

/-- A group of S registers: each word at its place. -/
theorem writeGroup_s (n : Fin 64) (m : Mask) (regs : List VReg) : ∀ {s : State} {i : Nat}, s.quiet → n.val + i + regs.length ≤ 64 →
    s.sp.s.length = 64 → ∃ u, s.writeGroup (.s n) m i regs = .ok u ∧ ValueFrame (fun _ => True) True s u ∧ u.wgs = s.wgs ∧ u.w.v = s.w.v ∧
      (∀ k < n.val + i, u.sp.s.getD k 0 = s.sp.s.getD k 0) ∧
      ∀ j < regs.length, u.sp.s.getD (n.val + i + j) 0 = (regs.getD j .unwritten).at 0 := by
  induction regs with
  | nil => exact fun hq _ _ => ⟨_, rfl, .refl hq.1, rfl, rfl, fun _ _ => rfl, nofun⟩
  | cons x xs ih =>
    intro s i hq hroom hlen
    rw [List.length_cons] at hroom
    have hframe : ValueFrame (fun _ => True) True s _ := frame_writeS hq (n := n.val + i) (fun _ => trivial) (x.at 0)
    have hs := s_writeS hq (n.val + i) (x.at 0)
    obtain ⟨u, hu, hlate, hwgs, hv, hbelow, hregs⟩ := ih (i := i + 1) (hframe.quiet hq) (by omega) (by rw [hs, List.length_set, hlen])
    refine ⟨u, ?_, hframe.trans hlate, hwgs.trans (wgs_writeS hq ..), hv.trans (v_writeS hq ..), fun k hk => ?_, fun j hj => ?_⟩
    · rw [State.writeGroup, Opnd.plus, dif_pos (by omega)]
      exact hu
    · rw [hbelow k (by omega), hs, getD_set_of_ne _ _ _ (by omega)]
    · rcases j with _ | j
      · rw [Nat.add_zero, hbelow _ (by omega), hs, List.getD_cons_zero, getD_set_self _ (by omega) _]
      · rw [List.length_cons] at hj
        rw [List.getD_cons_succ, ← hregs j (by omega)]
        congr 1; omega

/-- A group of WG registers none of which has a write kept: each word at its place. -/
theorem writeGroup_wg (n : Fin 16) (m : Mask) (regs : List VReg) : ∀ {s : State} {i : Nat}, s.quiet → n.val + i + regs.length ≤ 16 →
    s.g.wgr.length = 16 → (∃ g, look s.wgs s.w.wg = some g) → (∀ x ∈ s.g.wgPrev, x.reg < n.val + i ∨ n.val + i + regs.length ≤ x.reg) →
    ∃ u, s.writeGroup (.wg n) m i regs = .ok u ∧ ValueFrame (fun _ => True) True s u ∧ u.w.v = s.w.v ∧ u.sp.s = s.sp.s ∧
      (∀ k < n.val + i, u.g.wgr.getD k 0 = s.g.wgr.getD k 0) ∧
      ∀ j < regs.length, u.g.wgr.getD (n.val + i + j) 0 = (regs.getD j .unwritten).at 0 := by
  induction regs with
  | nil => exact fun hq _ _ _ _ => ⟨_, rfl, .refl hq.1, rfl, rfl, fun _ _ => rfl, nofun⟩
  | cons x xs ih =>
    intro s i hq hroom hlen hex hfresh
    obtain ⟨g, hg⟩ := hex
    rw [List.length_cons] at hroom hfresh
    have hframe : ValueFrame (fun _ => True) True s _ := frame_writeWg hq (n := n.val + i) (fun _ => trivial) (x.at 0)
    obtain ⟨hwgr, hprev⟩ := wgNote_fresh (g := s.g) (y := wgWrite s (n.val + i) (x.at 0))
      (fun y hy he => by have := hfresh y hy; rw [he, reg_wgWrite] at this; omega) rfl (s.core s.cur.core).cyc.toNat
    rw [← g_writeWg hq hg] at hwgr hprev
    obtain ⟨u, hu, hlate, hv, hs, hbelow, hregs⟩ := ih (i := i + 1) (hframe.quiet hq) (by omega) (by rw [hwgr, List.length_set, hlen])
      (look_writeWg hq hg _ _) fun y hy => (hprev y hy).elim (fun he => .inl (by rw [he, reg_wgWrite]; omega))
        fun hy => (hfresh y hy).imp (by omega) (by omega)
    refine ⟨u, ?_, hframe.trans hlate, hv.trans (v_writeWg hq ..), hs.trans (s_writeWg hq ..), fun k hk => ?_, fun j hj => ?_⟩
    · rw [State.writeGroup, Opnd.plus, dif_pos (by omega)]
      exact hu
    · rw [hbelow k (by omega), hwgr, getD_set_of_ne _ _ _ (by rw [reg_wgWrite]; omega)]
    · rcases j with _ | j
      · rw [Nat.add_zero, hbelow _ (by omega), hwgr, List.getD_cons_zero, reg_wgWrite, getD_set_self _ (by omega) _]
        rfl
      · rw [List.length_cons] at hj
        rw [List.getD_cons_succ, ← hregs j (by omega)]
        congr 1; omega

end Sys2Proof.Proofs
end

section
/-! Local loads: the elements read, the registers they become, and the write of the group (R76, R167, R168). -/

namespace Sys2Proof.Proofs
open Sys2Proof Sys2Proof.Machine

/-! ### Loaded elements (R76) -/

theorem intOf_true (w n : Nat) : intOf w true n = (BitVec.ofNat w n).toInt := by
  rw [BitVec.toInt_eq_msb_cond, BitVec.msb_eq_getLsbD_last, ← BitVec.testBit_toNat, BitVec.toNat_ofNat]
  rfl

theorem loadWord_eq (z : Size) (sx : Bool) (bs : List Byte) (j : Nat) : loadWord z sx bs j = loadedWord z sx bs j := by
  have hsx (w : Nat) : wI (intOf w true (leNat bs)) = (BitVec.ofNat w (leNat bs)).signExtend 32 := by rw [intOf_true]; rfl
  cases z <;> simp only [loadWord, loadedWord, hsx] <;> rfl

theorem length_loadRegs (z : Size) (sx uniform : Bool) (first : Nat) (bytes : Nat → List Byte) :
    (loadRegs z sx uniform first bytes).length = z.regs := by
  rw [loadRegs, List.length_map, List.length_range]

/-- A register of a load in a thread that reads what the first thread reads, or any thread where each reads its own. -/
theorem at_loadRegs {z : Size} {sx uniform : Bool} {first j t : Nat} {bytes : Nat → List Byte} (hj : j < z.regs) (ht : t < 32)
    (huni : uniform = true → bytes first = bytes t) :
    ((loadRegs z sx uniform first bytes).getD j .unwritten).at t = loadedWord z sx (bytes t) j := by
  have hget : (loadRegs z sx uniform first bytes).getD j .unwritten =
      if uniform then .uni (loadWord z sx (bytes first) j) else .gen ((List.range 32).map fun t => loadWord z sx (bytes t) j) := by
    simp [loadRegs, hj]
  rw [hget, ← loadWord_eq]
  cases uniform with
  | true => simp [huni rfl]
  | false => exact VReg.at_gen ht

section
variable {s u t : State}

/-! ### The end of a local instruction -/

/-- From u to t the executing split moved past its instruction, and a window of it may have opened. -/
structure MovedOn (u t : State) : Prop where
  state : t = { u with cores := t.cores }
  live : t.live = true
  v : t.w.v = u.w.v
  p : t.w.p = u.w.p
  accs : t.w.accs = u.w.accs
  wg : t.w.wg = u.w.wg
  s : t.sp.s = u.sp.s
  pc : t.sp.pc = u.sp.pc + 8
  g : t.g = u.g
  ends : EndsAt u t (u.sp.pc + 8)

theorem movedOn_advance (hl : u.live = true) : MovedOn u u.advance := by
  have hw := w_advance hl
  have hsp := sp_advance hl
  exact ⟨rfl, live_modSp hl fun _ => rfl, by rw [hw]; rfl, by rw [hw]; rfl, by rw [hw]; rfl, by rw [hw]; rfl, by rw [hsp], by rw [hsp], g_modSp hl _, endsAt_advance (.refl (named := fun _ => True) (seeds := True) hl)⟩

theorem movedOn_modSp (hl : u.live = true) {f : Split → Split} (hf : ∀ p : Split, splitRest (f p) = splitRest { p with windows := (f p).windows })
    (hs : ∀ p : Split, (f p).s = p.s) : MovedOn u (u.modSp f).advance := by
  have hid (p : Split) : (f p).id = p.id := (congrArg Split.id (hf p) :)
  have hpc (p : Split) : (f p).pc = p.pc := (congrArg Split.pc (hf p) :)
  have hsp := sp_modSp hl hid
  have hends : EndsAt u (u.modSp f) (f u.sp).pc :=
    endsAt_modSp hl hid (fun p => (congrArg Split.status (hf p) :)) fun p => (congrArg Split.mask (hf p) :)
  obtain ⟨-, hlive, hv, hp, haccs, hwg, has, hapc, hg, hend⟩ := movedOn_advance (live_modSp hl hid)
  refine ⟨rfl, hlive, hv.trans (v_modSp hl f), hp.trans (p_modSp hl f), haccs.trans (by rw [w_modSp hl]; rfl), hwg.trans (by rw [w_modSp hl]; rfl), has.trans (by rw [hsp, hs]),
    hapc.trans (by rw [hsp, hpc]), hg.trans (g_modSp hl f), ?_⟩
  rw [hsp, hpc] at hend
  exact endsAt_trans hends hend

theorem movedOn_openDone (hl : u.live = true) (la : BitVec 4) (ds : List Opnd) : MovedOn u (u.openDone s la ds).advance :=
  movedOn_modSp hl (fun _ => rfl) fun _ => rfl

/-- Registers changed and then the split moved on: nothing outside cores and workgroups did. -/
theorem sameOutside_of_movedOn {named : Opnd → Prop} {seeds : Prop} (h : ValueFrame named seeds s u) (k : MovedOn u t) : SameOutside s t := by
  rw [k.state, h.state]
  exact ⟨rfl, rfl, rfl, rfl, rfl, rfl, rfl, rfl, rfl, rfl, rfl⟩

theorem vreg_of_movedOn (k : MovedOn u t) (n : Nat) : t.vreg n = u.vreg n := vreg_eq_of_v k.v n

/-! ### The write of a load's group -/

theorem loadInto_ok {g : Guard} {la : BitVec 4} {d : Opnd} {z : Size} {sx : Bool} {x : Access} {bytes : Nat → List Byte} (hts : x.ts ≠ [])
    (h : s.writeGroup d (s.guardMask g) 0 (loadRegs z sx x.uniform (x.ts.headD 0) bytes) = .ok u) :
    loadInto s g la d z sx x bytes = .ok (u.openDone s la (groupOf d z.regs)) := by
  rw [loadInto, if_neg (by simpa using hts), h]; rfl

/-- Where a group's registers come from: the bytes of each thread, which agree where the address is uniform. -/
def UniformBytes (x : Access) (bytes : Nat → List Byte) : Prop := x.uniform = true → ∀ t, bytes t = bytes 0

theorem uniformBytes_access (s : State) (g : Guard) (sc : Bool) (a b : Opnd) (off : BitVec 8) (n : Nat) (read : Word → List Byte) :
    UniformBytes (accessOf s g sc a b off n) fun t => read ((accessOf s g sc a b off n).ea t) := by
  intro h t
  obtain ⟨ha, hb⟩ := Bool.and_eq_true_iff.1 h
  change read (localEa ((s.src a).at t) ((s.src b).at t) off n) = read (localEa ((s.src a).at 0) ((s.src b).at 0) off n)
  rw [VReg.at_isUni ha t, VReg.at_isUni hb t]

section
variable {g : Guard} {la : BitVec 4} {z : Size} {sx : Bool} {x : Access} {bytes : Nat → List Byte}

theorem GroupWritten.none (hl : s.live = true) (n : Nat) (regs : List VReg) : GroupWritten s s 0 n regs :=
  ⟨.refl hl, rfl, rfl, rfl, rfl, fun _ _ => rfl, fun _ _ _ => rfl⟩

/-- A load to V registers with rows to be had, in the threads of a guard. -/
theorem loadInto_v (hq : s.quiet) (n : Fin 128) (hrows : s.rowsFor n.val z.regs) (hts : x.ts = threads (s.guardMask g)) :
    ∃ u v, loadInto s g la (.v n) z sx x bytes = .ok v ∧ MovedOn u v.advance ∧ ValueFrame (fun _ => True) True s u ∧
      (n.val + z.regs ≤ 128 → GroupWritten s u (s.guardMask g) n.val (loadRegs z sx x.uniform (x.ts.headD 0) bytes)) := by
  by_cases hm : s.guardMask g = 0
  · have hnil : x.ts = [] := hts.trans (threads_eq_nil.2 hm)
    refine ⟨s, s, loadInto_nil hnil .., movedOn_advance hq.1, .refl hq.1, fun _ => ?_⟩
    rw [hm]
    exact .none hq.1 _ _
  · have hne : x.ts ≠ [] := by rw [hts]; exact threads_ne_nil hm
    obtain ⟨u, hu, huq, hframe, hgroup⟩ := writeGroup_v hm n (loadRegs z sx x.uniform (x.ts.headD 0) bytes) (i := 0) hq
      (by rw [length_loadRegs]; exact hrows)
    refine ⟨u, _, loadInto_ok hne hu, movedOn_openDone huq.1 _ _, hframe, fun hroom => hgroup ?_⟩
    rw [length_loadRegs]
    exact hroom

theorem loadInto_s (hq : s.quiet) (n : Fin 64) (hroom : n.val + z.regs ≤ 64) (hlen : s.sp.s.length = 64) (hts : x.ts = [0]) :
    ∃ u v, loadInto s g la (.s n) z sx x bytes = .ok v ∧ MovedOn u v.advance ∧ ValueFrame (fun _ => True) True s u ∧
      u.wgs = s.wgs ∧ u.w.v = s.w.v ∧ ∀ j < z.regs, u.sp.s.getD (n.val + j) 0 = loadedWord z sx (bytes 0) j := by
  obtain ⟨u, hu, hframe, hwgs, hv, -, hregs⟩ := writeGroup_s n (s.guardMask g) (loadRegs z sx x.uniform (x.ts.headD 0) bytes) (i := 0) hq
    (by rw [length_loadRegs]; exact hroom) hlen
  refine ⟨u, _, loadInto_ok (by simp [hts]) hu, movedOn_openDone hframe.live _ _, hframe, hwgs, hv, fun j hj => ?_⟩
  rw [← at_loadRegs hj (by decide) (uniform := x.uniform) (first := x.ts.headD 0) (by simp [hts])]
  exact hregs j (by rw [length_loadRegs]; exact hj)

theorem loadInto_wg (hq : s.quiet) (n : Fin 16) (hroom : n.val + z.regs ≤ 16) (hlen : s.g.wgr.length = 16)
    (hex : ∃ g, look s.wgs s.w.wg = some g) (hfresh : s.g.wgPrev = []) (hts : x.ts = [0]) :
    ∃ u v, loadInto s g la (.wg n) z sx x bytes = .ok v ∧ MovedOn u v.advance ∧ ValueFrame (fun _ => True) True s u ∧
      u.w.v = s.w.v ∧ u.sp.s = s.sp.s ∧ ∀ j < z.regs, u.g.wgr.getD (n.val + j) 0 = loadedWord z sx (bytes 0) j := by
  obtain ⟨u, hu, hframe, hv, hs, -, hregs⟩ := writeGroup_wg n (s.guardMask g) (loadRegs z sx x.uniform (x.ts.headD 0) bytes) (i := 0) hq
    (by rw [length_loadRegs]; exact hroom) hlen hex (by simp [hfresh])
  refine ⟨u, _, loadInto_ok (by simp [hts]) hu, movedOn_openDone hframe.live _ _, hframe, hv, hs, fun j hj => ?_⟩
  rw [← at_loadRegs hj (by decide) (uniform := x.uniform) (first := x.ts.headD 0) (by simp [hts])]
  exact hregs j (by rw [length_loadRegs]; exact hj)

/-- The V registers of a load after its group was written: the loaded words in the threads of the guard. -/
theorem written_of_group {n j : Nat} {m : Mask} (h : GroupWritten s u m n (loadRegs z sx x.uniform (x.ts.headD 0) bytes))
    (hbytes : UniformBytes x bytes) (hj : j < z.regs) (hn : n + j < s.w.v.length) :
    Written m (s.vreg (n + j)) (u.vreg (n + j)) fun k r => r = loadedWord z sx (bytes k) j := by
  intro k hk
  rw [h.vregs j (by rw [length_loadRegs]; exact hj) hn]
  by_cases hm : m = 0
  · simp [hm, VReg.written]
  · rw [VReg.written_at hk hm, at_loadRegs hj hk fun hu => (hbytes hu _).trans (hbytes hu k).symm]
    split <;> rfl

end
end

end Sys2Proof.Proofs
end

section
/-! Writes of local memory: what one leaves alone beside its bytes (R170, R200, R221, R223), and what a store of each thread's element
leaves at an address. -/

namespace Sys2Proof.Proofs
open Sys2Proof Sys2Proof.Machine

/-! ### What a write of a buffer leaves alone -/

/-- From s to u only workgroups, the books of cores (R221, R223) and the executing wave's stream queues (R200) changed. -/
structure StoreFrame (s u : State) : Prop where
  state : u = { s with cores := u.cores, wgs := u.wgs }
  live : u.live = true
  wave : u.w = { s.w with streams := u.w.streams }

section
variable {s u t : State}

theorem StoreFrame.refl (hl : s.live = true) : StoreFrame s s := ⟨rfl, hl, rfl⟩

theorem StoreFrame.trans (h : StoreFrame s u) (k : StoreFrame u t) : StoreFrame s t where
  state := by rw [k.state, h.state]
  live := k.live
  wave := k.wave.trans (congrArg (fun w : Wave => { w with streams := t.w.streams }) h.wave)

theorem StoreFrame.cur (h : StoreFrame s u) : u.cur = s.cur := by rw [h.state]
theorem StoreFrame.wgOf (h : StoreFrame s u) : u.w.wg = s.w.wg := (congrArg Wave.wg h.wave :)
theorem StoreFrame.sp (h : StoreFrame s u) : u.sp = s.sp := by
  rw [State.sp, State.sp, h.cur, Wave.split?, (congrArg Wave.splits h.wave :)]
  rfl
theorem StoreFrame.quiet (h : StoreFrame s u) (hq : s.quiet) : u.quiet := ⟨h.live, by rw [h.sp, hq.2]⟩

theorem StoreFrame.endsAt (h : StoreFrame s u) : EndsAt s u s.sp.pc :=
  ⟨by rw [h.sp], by rw [h.sp], by rw [h.sp], (congrArg Wave.handler h.wave :), (congrArg Wave.trapReg h.wave :),
    (congrArg State.grids h.state :), (congrArg State.mem h.state :), (congrArg State.ring h.state :)⟩

/-- The same wave in the same place: live and executing as before. -/
theorem storeFrame_of_wave? (hl : s.live = true) (hstate : u = { s with cores := u.cores, wgs := u.wgs })
    (hw : u.wave? s.cur.core s.cur.ctx = s.wave? s.cur.core s.cur.ctx) : StoreFrame s u ∧ u.w = s.w := by
  have hcur : u.cur = s.cur := by rw [hstate]
  have hwave : u.w = s.w := by rw [State.w, State.wave, hcur, hw]; rfl
  refine ⟨⟨hstate, (State.live_iff _).2 ?_, by rw [hwave]⟩, hwave⟩
  rw [hcur, hw]
  exact (State.live_iff _).1 hl

theorem storeFrame_modCore (hl : s.live = true) (k : Nat) {f : Core → Core} (hf : ∀ c, (f c).waves = c.waves) :
    StoreFrame s (s.modCore k f) ∧ (s.modCore k f).w = s.w :=
  storeFrame_of_wave? hl rfl (wave?_of_waves (waves_modCore_keep s k _ hf) _)

theorem storeFrame_modWg (hl : s.live = true) (k : Nat) (f : WGrp → WGrp) : StoreFrame s (s.modWg k f) := ⟨rfl, hl, rfl⟩

theorem storeFrame_unf (hl : s.live = true) (k : Nat) (f : Core → List Unfenced) : StoreFrame s (s.modCore k fun c => { c with unf := f c }) :=
  (storeFrame_modCore hl k (f := fun c => { c with unf := f c }) fun _ => rfl).1
theorem storeFrame_mq (hl : s.live = true) (k : Nat) (f : Core → List MEntry) : StoreFrame s (s.modCore k fun c => { c with mq := f c }) :=
  (storeFrame_modCore hl k (f := fun c => { c with mq := f c }) fun _ => rfl).1

theorem storeFrame_streams (hl : s.live = true) (f : Wave → List (Nat × Strm)) : StoreFrame s (s.modW fun w => { w with streams := f w }) := by
  have hw : (s.modW fun w => { w with streams := f w }).w = { s.w with streams := f s.w } := s.w_modW _ hl
  have hlive := s.live_modW (fun w => { w with streams := f w }) fun _ => rfl
  exact ⟨rfl, hlive.trans hl, by rw [hw]⟩

theorem storeFrame_staleOwn (hl : s.live = true) (glob : Bool) (lo n : Nat) : StoreFrame s (s.staleOwn glob lo n) :=
  storeFrame_streams hl fun w => w.streams.map fun x : Nat × Strm => (x.1, x.2.stale glob false lo n)

/-! ### The group's buffers -/

/-- A workgroup once bytes have gone into a buffer of it. -/
def stored (sp : Space) (w : Nat × List Byte) (g : WGrp) : WGrp :=
  (g.setBuf sp ((g.buf sp).puts w.1 w.2)).modTags sp (tilesOf w.1 w.2.length) fun t => { t with z := false }

theorem modTag_keep {α : Type} {p : WGrp → α} (hp : ∀ g sp t, p (g.setTags sp t) = p g) (g : WGrp) (sp : Space) (ts : List Nat) (f : Tag → Tag) :
    p (g.modTags sp ts f) = p g := by
  unfold WGrp.modTags
  induction ts generalizing g with
  | nil => rfl
  | cons t ts ih => rw [List.foldl_cons, ih, WGrp.modTag, hp]

/-- What does not speak of buffers and tags stays. -/
theorem stored_keep {α : Type} {p : WGrp → α} (htags : ∀ g sp t, p (g.setTags sp t) = p g) (hbuf : ∀ g sp m, p (g.setBuf sp m) = p g)
    (sp : Space) (w : Nat × List Byte) (g : WGrp) : p (stored sp w g) = p g := by
  rw [stored, modTag_keep htags, hbuf]

theorem buf_stored (sp : Space) (w : Nat × List Byte) (g : WGrp) : (stored sp w g).buf sp = (g.buf sp).puts w.1 w.2 := by
  rw [stored, WGrp.buf_modTags, WGrp.buf_setBuf]

theorem buf_stored_ne {sp sp' : Space} (h : sp' ≠ sp) (w : Nat × List Byte) (g : WGrp) : (stored sp w g).buf sp' = g.buf sp' := by
  rw [stored, WGrp.buf_modTags, WGrp.buf_setBuf_ne _ _ h]

/-- From s to u some bytes went into a buffer of the executing workgroup. -/
structure StoredIn (sp : Space) (ws : List (Nat × List Byte)) (s u : State) : Prop where
  frame : StoreFrame s u
  group : ∀ g, look s.wgs s.w.wg = some g → look u.wgs s.w.wg = some (ws.foldl (fun g w => stored sp w g) g)

theorem StoredIn.refl (hl : s.live = true) (sp : Space) : StoredIn sp [] s s := ⟨.refl hl, fun _ h => h⟩

theorem StoredIn.trans {sp : Space} {ws ws' : List (Nat × List Byte)} (h : StoredIn sp ws s u) (k : StoredIn sp ws' u t) :
    StoredIn sp (ws ++ ws') s t := by
  refine ⟨h.frame.trans k.frame, fun g hg => ?_⟩
  have := k.group _ (h.frame.wgOf ▸ h.group g hg)
  rw [List.foldl_append, ← h.frame.wgOf]
  exact this

/-- A change that leaves every workgroup alone. -/
theorem storedIn_nil {sp : Space} (h : StoreFrame s u) (hwgs : u.wgs = s.wgs) : StoredIn sp [] s u := ⟨h, fun g hg => by rw [hwgs]; exact hg⟩

theorem storedIn_noteOld (hl : s.live = true) (sp : Space) (core wg idx : Nat) (lo n : Nat) : StoredIn sp [] s (s.noteOld core wg idx sp lo n) := by
  unfold State.noteOld
  dsimp only
  split
  · exact .refl hl sp
  · exact storedIn_nil (storeFrame_unf hl _ _) rfl

theorem storedIn_noteAll (hl : s.live = true) (sp : Space) (core wg idx : Nat) (los : List Nat) (n : Nat) :
    StoredIn sp [] s (s.noteAll core wg idx sp los n) := by
  unfold State.noteAll
  induction los generalizing s with
  | nil => exact .refl hl sp
  | cons lo los ih =>
    have h := storedIn_noteOld hl sp core wg idx lo n
    exact h.trans (ih h.frame.live)

theorem storedIn_bufWrite (hl : s.live = true) (sp : Space) (core lo : Nat) (bs : List Byte) (by_ : Writer) :
    StoredIn sp [(lo, bs)] s (s.bufWrite core s.w.wg sp lo bs by_) := by
  have htouch : StoreFrame s (s.touch core s.w.wg sp lo bs.length by_) :=
    storeFrame_mq hl core fun c => c.mq.map fun e : MEntry => e.touched s.w.wg sp lo bs.length by_ fun t => ((s.wg s.w.wg).tag sp t).v
  refine ⟨htouch.trans (storeFrame_modWg htouch.live _ _), fun g hg => ?_⟩
  rw [State.bufWrite, State.look_modWg]
  exact congrArg (Option.map _) hg

theorem storedIn_staleOwn (hl : s.live = true) (sp : Space) (glob : Bool) (lo n : Nat) : StoredIn sp [] s (s.staleOwn glob lo n) :=
  storedIn_nil (storeFrame_staleOwn hl glob lo n) rfl

theorem storedIn_acquireVia (hl : s.live = true) (sp : Space) (core wg idx : Nat) (v : Via) : StoredIn sp [] s (s.acquireVia core wg idx v) :=
  storedIn_nil (storeFrame_unf hl _ _) rfl
theorem storedIn_releaseVia (hl : s.live = true) (sp : Space) (core wg idx : Nat) (v : Via) : StoredIn sp [] s (s.releaseVia core wg idx v) :=
  storedIn_nil (storeFrame_unf hl _ _) rfl

/-! ### A store of each thread's element -/

/-- Elements written one after the other, whatever follows each. -/
theorem storedIn_foldl {sp : Space} {f : State → Nat → State} {at_ : Nat → Nat} {bytes : Nat → List Byte}
    (hf : ∀ v k, StoreFrame s v → StoredIn sp [(at_ k, bytes k)] v (f v k)) (ts : List Nat) (h : StoreFrame s u) :
    StoredIn sp (ts.map fun k => (at_ k, bytes k)) u (ts.foldl f u) := by
  induction ts generalizing u with
  | nil => exact .refl h.live sp
  | cons k ts ih =>
    have hk := hf u k h
    exact hk.trans (ih (h.trans hk.frame))

theorem storedIn_storeEach (hl : s.live = true) (z : Size) (ts : List Nat) (at_ : Nat → Nat) (bytes : Nat → List Byte) :
    StoredIn .a (ts.map fun k => (at_ k, bytes k)) s (storeEach s z ts at_ bytes) := by
  have hnote := storedIn_noteAll hl .a s.cur.core s.w.wg s.w.idx (ts.map at_) z.bytes
  refine hnote.trans (storedIn_foldl (fun v k hv => ?_) ts hnote.frame)
  have hw := storedIn_bufWrite hv.live .a s.cur.core (at_ k) (bytes k) (.wave s.w.idx)
  rw [hv.wgOf] at hw
  exact hw.trans (storedIn_staleOwn hw.frame.live .a false (at_ k) z.bytes)

theorem buf_foldl_stored (sp : Space) (ws : List (Nat × List Byte)) (g : WGrp) :
    (ws.foldl (fun g w => stored sp w g) g).buf sp = ws.foldl (fun m w => m.puts w.1 w.2) (g.buf sp) := by
  induction ws generalizing g with
  | nil => rfl
  | cons w ws ih => rw [List.foldl_cons, ih, buf_stored, List.foldl_cons]

theorem foldl_stored_keep {α : Type} {p : WGrp → α} {sp : Space} (hp : ∀ w g, p (stored sp w g) = p g) (ws : List (Nat × List Byte)) (g : WGrp) :
    p (ws.foldl (fun g w => stored sp w g) g) = p g := by
  induction ws generalizing g with
  | nil => rfl
  | cons w ws ih => rw [List.foldl_cons, ih, hp]

theorem get_foldl_puts {m : Mem} (ws : List (Nat × List Byte)) (h : Mem.wf m = true) (a : Nat) :
    Mem.get (ws.foldl (fun m w => m.puts w.1 w.2) m) a =
      ws.foldl (fun b w => if w.1 ≤ a ∧ a < w.1 + w.2.length then w.2.getD (a - w.1) 0 else b) (Mem.get m a) := by
  induction ws generalizing m with
  | nil => rfl
  | cons w ws ih => rw [List.foldl_cons, ih (Mem.wf_puts _ _ h), Mem.get_puts _ _ _ h, List.foldl_cons]

/-- The bytes of the threads of a mask, in ascending order, make what a store leaves at an address (R170). -/
theorem storedByte_eq (m : Mask) (at_ : Nat → Nat) (bytes : Nat → List Byte) (old : Byte) (a : Nat) :
    ((threads m).map fun k => (at_ k, bytes k)).foldl
      (fun b w => if w.1 ≤ a ∧ a < w.1 + w.2.length then w.2.getD (a - w.1) 0 else b) old = storedByte m at_ bytes old a := by
  rw [List.foldl_map, threads, List.foldl_filter, storedByte]
  refine List.foldl_ext _ _ _ fun b k _ => ?_
  by_cases hk : m.getLsbD k = true <;> simp [hk]

/-- After a store the executing workgroup holds the bytes stored, and what it held elsewhere. -/
theorem StoredIn.g {sp : Space} {ws : List (Nat × List Byte)} (h : StoredIn sp ws s u) (hex : ∃ g, look s.wgs s.w.wg = some g) :
    u.g = ws.foldl (fun g w => stored sp w g) s.g := by
  obtain ⟨g, hg⟩ := hex
  have hs : s.g = g := by rw [State.g, State.wg, hg]; rfl
  rw [State.g, h.frame.wgOf, State.wg, h.group g hg, hs]
  rfl

theorem get_storedIn {sp : Space} {m : Mask} {at_ : Nat → Nat} {bytes : Nat → List Byte}
    (h : StoredIn sp ((threads m).map fun k => (at_ k, bytes k)) s u) (hex : ∃ g, look s.wgs s.w.wg = some g) (hwf : Mem.wf (s.g.buf sp) = true) (a : Nat) :
    Mem.get (u.g.buf sp) a = storedByte m at_ bytes (Mem.get (s.g.buf sp) a) a := by
  rw [h.g hex, buf_foldl_stored, get_foldl_puts _ hwf, storedByte_eq]

theorem buf_storedIn_ne {sp sp' : Space} {ws : List (Nat × List Byte)} (h : StoredIn sp ws s u) (hex : ∃ g, look s.wgs s.w.wg = some g) (hsp : sp' ≠ sp) :
    u.g.buf sp' = s.g.buf sp' := by
  rw [h.g hex, foldl_stored_keep (p := (·.buf sp')) (buf_stored_ne hsp)]

/-- What of the workgroup does not speak of buffers and tags stays. -/
theorem group_storedIn {α : Type} {p : WGrp → α} {sp : Space} {ws : List (Nat × List Byte)} (h : StoredIn sp ws s u)
    (hex : ∃ g, look s.wgs s.w.wg = some g) (htags : ∀ g sp t, p (g.setTags sp t) = p g) (hbuf : ∀ g sp m, p (g.setBuf sp m) = p g) : p u.g = p s.g := by
  rw [h.g hex, foldl_stored_keep (stored_keep htags hbuf sp)]

end

end Sys2Proof.Proofs
end

section
/-! ld.a, ld.w and st.a: each form's checks hold, and its loads and stores are those of the layer above (R167 to R171). -/

namespace Sys2Proof.Proofs
open Sys2Proof Sys2Proof.Machine

section
variable {s u t : State} {o : LocalOp} {i : Instr} {sp : Space}

/-- A load of a buffer that the wave's role reaches. -/
theorem exec_load (h : (i = .ldA o ∧ sp = .a) ∨ (i = .ldW o ∧ sp = .w ∧ (s.w.role = .general ∨ s.w.role = .matrix))) :
    ∃ op, exec i = isa (fun s => s.localLoad o sp op) ∧ roleReaches s.w.role sp = true ∧ (i.wf = true → o.d.fits o.size.regs = true) := by
  have hfits : (o.a.isBase && o.wf true) = true → o.d.fits o.size.regs = true := fun hwf => by simp_all [LocalOp.wf]
  rcases h with ⟨rfl, rfl⟩ | ⟨rfl, rfl, hrole⟩
  · exact ⟨0x140, rfl, rfl, hfits⟩
  · exact ⟨0x142, rfl, (roleReaches_iff (.inr rfl)).2 (.inr hrole), hfits⟩

/-- A load whose checks hold writes its group. -/
theorem localLoad_ok (hrole : roleReaches s.w.role sp = true) (hsc : scalarDst o.d = true → (s.src o.a).isUni = true ∧ (s.src o.b).isUni = true)
    (haddr : ∀ t ∈ s.performed o.g (scalarDst o.d), s.localAddr o t % o.size.bytes = 0 ∧ s.localAddr o t + o.size.bytes ≤ s.g.size sp) (op : Nat) :
    s.localLoad o sp op = loadInto s o.g o.la o.d o.size o.sx (accessOf s o.g (scalarDst o.d) o.a o.b o.off o.size.bytes)
      fun t => s.bufGet s.w.wg sp (s.localAddr o t) o.size.bytes := by
  rw [localLoad_eq hsc]
  dsimp only
  rw [localChecks_ok (fun _ => hrole) haddr, ok_bind]
  rfl

theorem sameOutside_of_stored (h : StoreFrame s u) (k : MovedOn u t) : SameOutside s t := by
  rw [k.state, h.state]
  exact ⟨rfl, rfl, rfl, rfl, rfl, rfl, rfl, rfl, rfl, rfl, rfl⟩

/-- A group after a scalar load: its registers aside, what it was. -/
theorem group_of_movedOn {named : Opnd → Prop} {seeds : Prop} (h : ValueFrame named seeds s u) (k : MovedOn u t) : t.g.untimed = s.g.untimed := by
  rw [k.g, h.group]

theorem runs_load_v (hq : s.quiet) (hsound : s.sound) (hform : exec i = isa fun s => s.localLoad o sp op) (hrole : roleReaches s.w.role sp = true)
    (hfits : o.d.fits o.size.regs = true) (n : Fin 128) (hd : o.d = .v n) (hrows : s.rowsFor n.val o.size.regs)
    (haddr : AddrsOk (s.guardMask o.g) (s.localAddr o) o.size.bytes (s.g.size sp)) :
    Runs i s fun t => SameOutside s t ∧ t.wgs = s.wgs ∧ t.sp.pc = s.sp.pc + 8 ∧ t.w.p = s.w.p ∧ t.sp.s = s.sp.s ∧
      (∀ m, (m < n.val ∨ n.val + o.size.regs ≤ m) → t.vreg m = s.vreg m) ∧
      ∀ j < o.size.regs, Written (s.guardMask o.g) (s.vreg (n.val + j)) (t.vreg (n.val + j)) fun k r =>
        r = loadedWord o.size o.sx (s.bufGet s.w.wg sp (s.localAddr o k) o.size.bytes) j := by
  have hvec : scalarDst o.d = false := by rw [hd]; rfl
  have hroom : n.val + o.size.regs ≤ 128 := by rw [hd] at hfits; exact of_decide_eq_true hfits
  have hload := localLoad_ok hrole (o := o) (sp := sp) (by simp [hvec]) (fun t ht => by
    rw [hvec, performed_vec] at ht
    obtain ⟨h32, hb⟩ := mem_threads.1 ht
    exact haddr t h32 hb) op
  rw [hvec, hd] at hload
  obtain ⟨u, v, hv, hmoved, hframe, hgroup⟩ := loadInto_v (la := o.la) (sx := o.sx) (x := accessOf s o.g false o.a o.b o.off o.size.bytes)
    (bytes := fun t => s.bufGet s.w.wg sp (s.localAddr o t) o.size.bytes) hq n hrows rfl
  have hwritten := hgroup hroom
  refine ⟨v.advance, by rw [hform, isa_ok hq.1 (hload.trans hv)], sameOutside_of_movedOn hframe hmoved, ?_, ?_, hmoved.p.trans hwritten.pregs,
    hmoved.s.trans hwritten.sregs, fun m hm => ?_, fun j hj => ?_⟩
  · rw [hmoved.state]; exact hwritten.wgs
  · rw [hmoved.pc]; exact congrArg (· + 8) (congrArg Split.pc hframe.split :)
  · rw [vreg_of_movedOn hmoved]
    exact hwritten.others m (by rw [length_loadRegs]; exact hm)
  · rw [vreg_of_movedOn hmoved]
    exact written_of_group hwritten (uniformBytes_access s o.g false o.a o.b o.off o.size.bytes fun w => s.bufGet s.w.wg sp w.toNat o.size.bytes) hj
      (by rw [hsound.1]; omega)

theorem loadInto_scalar_ok (hrole : roleReaches s.w.role sp = true) (hd : o.d.isScalarReg = true) (ha : (s.src o.a).isUni = true)
    (hb : (s.src o.b).isUni = true) (hg : s.guardMask o.g ≠ 0) (haddr : s.localAddr o 0 % o.size.bytes = 0)
    (hin : s.localAddr o 0 + o.size.bytes ≤ s.g.size sp) (op : Nat) :
    (accessOf s o.g true o.a o.b o.off o.size.bytes).ts = [0] ∧
    s.localLoad o sp op = loadInto s o.g o.la o.d o.size o.sx (accessOf s o.g true o.a o.b o.off o.size.bytes)
      fun t => s.bufGet s.w.wg sp (s.localAddr o t) o.size.bytes := by
  have hsc : scalarDst o.d = true := hd
  have hload := localLoad_ok hrole (o := o) (sp := sp) (fun _ => ⟨ha, hb⟩) (fun t ht => by
    rw [hsc, performed_scalar hg, List.mem_singleton] at ht
    subst ht
    exact ⟨haddr, hin⟩) op
  rw [hsc] at hload
  exact ⟨performed_scalar hg, hload⟩

/-- A store whose checks hold writes each performed thread's element. -/
theorem localStore_ok (haddr : AddrsOk (s.guardMask o.g) (s.localAddr o) o.size.bytes (s.g.size .a)) (op : Nat) :
    s.localStore o .a op = .ok (storeEach s o.size (threads (s.guardMask o.g)) (s.localAddr o) (s.dataBytes o.d o.size)) := by
  rw [localStore_eq]
  dsimp only
  rw [localChecks_ok (fun _ => rfl) fun t ht => haddr t (mem_threads.1 ht).1 (mem_threads.1 ht).2, ok_bind]
  rfl

end

/-- Settles O26: the loads by the kind of their destination, the store by the bytes of its threads in ascending order. -/
theorem localLoadsAndStores : Obligations.LocalLoadsAndStores := by
  unfold Obligations.LocalLoadsAndStores
  refine ⟨fun s o i sp hform hq hsound hwf => ?_, fun s o hq hsound _ haddr => ?_⟩
  · obtain ⟨op, hexec, hrole, hfits⟩ := exec_load hform
    obtain ⟨hv, hp, hs, hwg, hex, hwfs⟩ := hsound
    have hf := hfits hwf
    refine ⟨fun n hd hrows haddr => runs_load_v hq ⟨hv, hp, hs, hwg, hex, hwfs⟩ hexec hrole hf n hd hrows haddr, fun n hd ha hb hg haddr hin => ?_,
      fun n hd hfresh ha hb hg haddr hin => ?_, fun hzero hsc => ?_⟩
    · obtain ⟨hts, hload⟩ := loadInto_scalar_ok hrole (by rw [hd]; rfl) ha hb hg haddr hin op
      rw [hd] at hf hload
      obtain ⟨u, v, hv, hmoved, hframe, hwgs, hregs, hwords⟩ := loadInto_s hq n (of_decide_eq_true hf) hs hts
      refine ⟨v.advance, by rw [hexec, isa_ok hq.1 (hload.trans hv)], sameOutside_of_movedOn hframe hmoved, ?_, hmoved.v.trans hregs, fun j hj => ?_⟩
      · rw [hmoved.state]; exact hwgs
      · rw [hmoved.s]; exact hwords j hj
    · obtain ⟨hts, hload⟩ := loadInto_scalar_ok hrole (by rw [hd]; rfl) ha hb hg haddr hin op
      rw [hd] at hf hload
      obtain ⟨u, v, hv, hmoved, hframe, hregs, hsregs, hwords⟩ := loadInto_wg hq n (of_decide_eq_true hf) hwg hex hfresh hts
      have hgroup := group_of_movedOn hframe hmoved
      refine ⟨v.advance, by rw [hexec, isa_ok hq.1 (hload.trans hv)], sameOutside_of_movedOn hframe hmoved, hmoved.v.trans hregs, hmoved.s.trans hsregs,
        (congrArg WGrp.a hgroup :), (congrArg WGrp.w hgroup :), (congrArg WGrp.c hgroup :), fun j hj => ?_⟩
      rw [hmoved.g]; exact hwords j hj
    · have hnil := performed_zero hzero (scalarDst o.d)
      rw [hexec]
      refine isa_ok hq.1 ?_
      rw [localLoad_ok hrole hsc (by simp [hnil]), loadInto_nil hnil]
  · obtain ⟨-, -, -, -, hex, hwf, -⟩ := hsound
    have hstored := storedIn_storeEach hq.1 o.size (threads (s.guardMask o.g)) (s.localAddr o) (s.dataBytes o.d o.size)
    have hmoved := movedOn_advance hstored.frame.live
    have hkeep {α : Type} (p : WGrp → α) := group_storedIn (p := p) hstored hex
    refine ⟨_, isa_ok (f := fun s => s.localStore o .a 0x141) hq.1 (localStore_ok haddr 0x141), sameOutside_of_stored hstored.frame hmoved, ?_, ?_, ?_, ?_, ?_, ?_, ?_, ?_, fun a => ?_⟩
    · rw [hmoved.pc, hstored.frame.sp]
    · rw [hmoved.v]; exact (congrArg Wave.v hstored.frame.wave :)
    · rw [hmoved.p]; exact (congrArg Wave.p hstored.frame.wave :)
    · rw [hmoved.s, hstored.frame.sp]
    · rw [hmoved.g]; exact buf_storedIn_ne (sp' := .w) hstored hex nofun
    · rw [hmoved.g]; exact buf_storedIn_ne (sp' := .c) hstored hex nofun
    · rw [hmoved.g]; exact hkeep WGrp.wgr (fun _ sp _ => by cases sp <;> rfl) fun _ sp _ => by cases sp <;> rfl
    · rw [hmoved.g]; exact hkeep WGrp.bars (fun _ sp _ => by cases sp <;> rfl) fun _ sp _ => by cases sp <;> rfl
    · rw [hmoved.g]; exact get_storedIn (sp := .a) hstored hex hwf a

end Sys2Proof.Proofs
end

section
/-! ld.c and st.c: an address inside one accumulator tile, and the same loads and stores there (R156, R171, R223). -/

namespace Sys2Proof.Proofs
open Sys2Proof Sys2Proof.Machine

/-- base + off × size of one thread, a byte offset in a tile (R156, R167). -/
def tileAddr (s : State) (o : TileOp) (k : Nat) : Nat := ((s.src o.a).at k + o.off.signExtend 32 * BitVec.ofNat 32 o.size.bytes).toNat

/-- Where the byte lies in the C-buffer. -/
def tilePlace (s : State) (o : TileOp) (k : Nat) : Nat := o.tile.toNat * 1024 + tileAddr s o k

section
variable {s u : State} {o : TileOp}

theorem src_null (s : State) : s.src .null = .uni 0 := rfl

theorem ea_accessOf_null (s : State) (g : Guard) (sc : Bool) (a : Opnd) (off : BitVec 8) (bytes k : Nat) :
    (accessOf s g sc a .null off bytes).ea k = (s.src a).at k + off.signExtend 32 * BitVec.ofNat 32 bytes := by
  change localEa ((s.src a).at k) ((s.src .null).at k) off bytes = _
  rw [localEa, src_null, VReg.at_uni]
  exact congrArg (· + _) (BitVec.add_zero _)

theorem size_bytes_pos (z : Size) : 0 < z.bytes := by cases z <;> decide

/-- The checks of an access of a tile hold where its role, tile and addresses are admitted. -/
theorem tileAccess_ok (hrole : s.w.role ≠ .copy) (htile : o.tile.toNat < s.g.tc.length)
    (haddr : AddrsOk (s.guardMask o.g) (tileAddr s o) o.size.bytes 1024) (op : Nat) :
    s.tileAccess o false op = .ok (accessOf s o.g false o.a .null o.off o.size.bytes) := by
  have hreach : roleReaches s.w.role .c = true := by cases h : s.w.role <;> simp_all [roleReaches]
  have hea (t : Nat) (ht : t ∈ (accessOf s o.g false o.a .null o.off o.size.bytes).ts) :
      ((accessOf s o.g false o.a .null o.off o.size.bytes).ea t).toNat % o.size.bytes = 0 ∧
      ((accessOf s o.g false o.a .null o.off o.size.bytes).ea t).toNat < 1024 := by
    obtain ⟨h32, hb⟩ := mem_threads.1 ht
    obtain ⟨hmod, hin⟩ := haddr t h32 hb
    rw [ea_accessOf_null]
    exact ⟨hmod, Nat.lt_of_lt_of_le (Nat.lt_add_of_pos_right (size_bytes_pos _)) hin⟩
  rw [State.tileAccess, access_ok (scalarD := false) nofun, ok_bind, overEach_check fun _ => hreach, ok_bind,
    failThread_ok fun t ht => by simp [(hea t ht).1], ok_bind, failThread_ok fun t ht => by simp [htile], ok_bind,
    failThread_ok fun t ht => by simp [(hea t ht).2], ok_bind]

/-- What st.c does once its checks have passed. -/
def storeTile (s : State) (z : Size) (ts : List Nat) (at_ : Nat → Nat) (bytes : Nat → List Byte) : State :=
  ts.foldl (fun s' t => s'.bufWrite s.cur.core s.w.wg .c (at_ t) (bytes t) (.wave s.w.idx))
    (s.noteAll s.cur.core s.w.wg s.w.idx .c (ts.map at_) z.bytes)

theorem storedIn_storeTile (hl : s.live = true) (z : Size) (ts : List Nat) (at_ : Nat → Nat) (bytes : Nat → List Byte) :
    StoredIn .c (ts.map fun k => (at_ k, bytes k)) s (storeTile s z ts at_ bytes) := by
  have hnote := storedIn_noteAll hl .c s.cur.core s.w.wg s.w.idx (ts.map at_) z.bytes
  refine hnote.trans (storedIn_foldl (fun v k hv => ?_) ts hnote.frame)
  rw [← hv.wgOf]
  exact storedIn_bufWrite hv.live .c s.cur.core (at_ k) (bytes k) (.wave s.w.idx)

theorem ea_tile (s : State) (o : TileOp) (k : Nat) :
    o.tile.toNat * 1024 + ((accessOf s o.g false o.a .null o.off o.size.bytes).ea k).toNat = tilePlace s o k := by
  rw [ea_accessOf_null]; rfl

/-- ld.c of a tile that no issued matrix instruction will write. -/
theorem exec_ldC (hl : s.live = true) (hrole : s.w.role ≠ .copy) (htile : o.tile.toNat < s.g.tc.length)
    (haddr : AddrsOk (s.guardMask o.g) (tileAddr s o) o.size.bytes 1024) (hd : scalarDst o.d = false)
    (hbusy : s.busyDst s.cur.core s.w.wg o.tile.toNat = false)
    (hload : loadInto s o.g o.la o.d o.size false (accessOf s o.g false o.a .null o.off o.size.bytes)
      (fun t => s.bufGet s.w.wg .c (tilePlace s o t) o.size.bytes) = .ok u) : exec (.ldC o) s = .next u.advance := by
  change execLdC o s = _
  refine isa_ok hl ?_
  simp only [hd, tileAccess_ok hrole htile haddr, ok_bind, hbusy, Bool.false_eq_true, ↓reduceIte, ea_tile]
  exact hload

/-- st.c, whose bytes are those of its threads. -/
theorem exec_stC (hl : s.live = true) (hrole : s.w.role ≠ .copy) (htile : o.tile.toNat < s.g.tc.length)
    (haddr : AddrsOk (s.guardMask o.g) (tileAddr s o) o.size.bytes 1024) :
    exec (.stC o) s = .next (storeTile s o.size (threads (s.guardMask o.g)) (tilePlace s o) (s.dataBytes o.d o.size)).advance := by
  change execStC o s = _
  refine isa_ok hl ?_
  simp only [tileAccess_ok hrole htile haddr, ok_bind, ea_tile]
  rfl

end

/-- Settles O27. -/
theorem tileAccess : Obligations.TileAccess := by
  unfold Obligations.TileAccess
  intro s o hq hsound hrole htile addr place haddr
  obtain ⟨hv, -, -, -, hex, -, -, hwf⟩ := hsound
  refine ⟨fun hop n hd hrows hbusy => ?_, fun _ => ?_⟩
  · have hroom : n.val + o.size.regs ≤ 128 := by
      have hfits : o.d.fits o.size.regs = true := by
        have hwf : o.wf true = true := hop
        simp_all [TileOp.wf]
      rw [hd] at hfits
      exact of_decide_eq_true hfits
    obtain ⟨u, v, hv', hmoved, hframe, hgroup⟩ := loadInto_v (g := o.g) (la := o.la) (sx := false) (x := accessOf s o.g false o.a .null o.off o.size.bytes)
      (bytes := fun t => s.bufGet s.w.wg .c (tilePlace s o t) o.size.bytes) hq n hrows rfl
    have hbytes : UniformBytes (accessOf s o.g false o.a .null o.off o.size.bytes) fun t => s.bufGet s.w.wg .c (tilePlace s o t) o.size.bytes := by
      simp only [← ea_tile]
      exact uniformBytes_access s o.g false o.a .null o.off o.size.bytes fun w => s.bufGet s.w.wg .c (o.tile.toNat * 1024 + w.toNat) o.size.bytes
    refine ⟨v.advance, exec_ldC hq.1 hrole htile haddr (by rw [hd]; rfl) hbusy (by rw [hd]; exact hv'), sameOutside_of_movedOn hframe hmoved, ?_, fun j hj => ?_⟩
    · rw [hmoved.state]; exact (hgroup hroom).wgs
    · rw [vreg_of_movedOn hmoved]
      exact written_of_group (hgroup hroom) hbytes hj (by omega)
  · have hstored := storedIn_storeTile hq.1 o.size (threads (s.guardMask o.g)) (tilePlace s o) (s.dataBytes o.d o.size)
    have hmoved := movedOn_advance hstored.frame.live
    refine ⟨_, exec_stC hq.1 hrole htile haddr, sameOutside_of_stored hstored.frame hmoved, ?_, ?_, ?_, fun a => ?_⟩
    · rw [hmoved.v]; exact (congrArg Wave.v hstored.frame.wave :)
    · rw [hmoved.g]; exact buf_storedIn_ne (sp' := .a) hstored hex nofun
    · rw [hmoved.g]; exact buf_storedIn_ne (sp' := .w) hstored hex nofun
    · rw [hmoved.g]; exact get_storedIn (sp := .c) hstored hex hwf a

end Sys2Proof.Proofs
end

section
/-! Block-scope atomics as a fold over one memory: the word at an aligned address, the old values by thread, and every other byte
(R172, R173). -/

namespace Sys2Proof.Proofs
open Sys2Proof Sys2Proof.Machine

/-! ### Words of a memory -/

/-- The word at an address. -/
def readWord (m : Mem) (a : Nat) : Word := BitVec.ofNat 32 (leNat (m.gets a 4))

theorem leNat_lt (bs : List Byte) : leNat bs < 256 ^ bs.length := by
  induction bs with
  | nil => simp [leNat]
  | cons b bs ih =>
    have hb : b.toNat < 256 := b.isLt
    rw [leNat, List.length_cons, pow_succ]
    omega

theorem toNat_readWord (m : Mem) (a : Nat) : (readWord m a).toNat = leNat (m.gets a 4) := by
  have h := leNat_lt (m.gets a 4)
  have hlen : (m.gets a 4).length = 4 := by simp [Mem.gets]
  rw [hlen] at h
  rw [readWord, BitVec.toNat_ofNat]
  exact Nat.mod_eq_of_lt (h.trans_eq (by norm_num))

theorem readWord_puts_self {m : Mem} (h : Mem.wf m = true) (a v : Nat) : readWord (m.puts a (leBytes 4 v)) a = BitVec.ofNat 32 v := by
  have hgets := gets_puts h a (leBytes 4 v)
  rw [length_leBytes] at hgets
  rw [readWord, hgets, leNat_leBytes]
  exact BitVec.eq_of_toNat_eq (by simp)

theorem get_puts_outside {m : Mem} (h : Mem.wf m = true) {a v x : Nat} (hx : x < a ∨ a + 4 ≤ x) :
    Mem.get (m.puts a (leBytes 4 v)) x = Mem.get m x := by
  rw [Mem.get_puts _ _ _ h, length_leBytes, if_neg (by omega)]

/-- Two aligned words are one or apart. -/
theorem readWord_puts_ne {m : Mem} (h : Mem.wf m = true) {a b : Nat} (v : Nat) (ha : a % 4 = 0) (hb : b % 4 = 0) (hne : a ≠ b) :
    readWord (m.puts a (leBytes 4 v)) b = readWord m b := by
  have hgets : (m.puts a (leBytes 4 v)).gets b 4 = m.gets b 4 :=
    List.map_congr_left fun i hi => get_puts_outside h (by rw [List.mem_range] at hi; omega)
  rw [readWord, hgets, readWord]

/-! ### Read, modify and write thread by thread -/

/-- One thread's read-modify-write: the new value where there is one, and the old value noted. -/
def rmwStep (ea : Nat → Nat) (f : Nat → Nat → Option Nat) (x : Mem × List (Nat × Nat)) (t : Nat) : Mem × List (Nat × Nat) :=
  let old := leNat (x.1.gets (ea t) 4)
  (match f t old with
    | some v => x.1.puts (ea t) (leBytes 4 v)
    | none => x.1, (t, old) :: x.2)

def rmwMem (m : Mem) (ts : List Nat) (ea : Nat → Nat) (f : Nat → Nat → Option Nat) : Mem × List (Nat × Nat) :=
  ts.foldl (rmwStep ea f) (m, [])

/-- A word after one thread's operation on it. -/
def rmwWord (f : Nat → Nat → Option Nat) (t : Nat) (w : Word) : Word :=
  match f t w.toNat with
  | some v => BitVec.ofNat 32 v
  | none => w

section
variable {m : Mem} {ea : Nat → Nat} {f : Nat → Nat → Option Nat}

theorem rmwMem_snoc (m : Mem) (ts : List Nat) (t : Nat) : rmwMem m (ts ++ [t]) ea f = rmwStep ea f (rmwMem m ts ea f) t := by
  simp [rmwMem, List.foldl_append]

theorem wf_rmwStep {x : Mem × List (Nat × Nat)} (h : Mem.wf x.1 = true) (t : Nat) : Mem.wf (rmwStep ea f x t).1 = true := by
  rw [rmwStep]
  cases f t (leNat (x.1.gets (ea t) 4)) with
  | some v => exact Mem.wf_puts _ _ h
  | none => exact h

theorem readWord_rmwStep {x : Mem × List (Nat × Nat)} (h : Mem.wf x.1 = true) {t a : Nat} (ht : ea t % 4 = 0) (ha : a % 4 = 0) :
    readWord (rmwStep ea f x t).1 a = if ea t = a then rmwWord f t (readWord x.1 a) else readWord x.1 a := by
  rw [rmwStep, rmwWord]
  by_cases hat : ea t = a
  · subst hat
    rw [if_pos rfl, toNat_readWord]
    cases f t (leNat (x.1.gets (ea t) 4)) with
    | some v => exact readWord_puts_self h _ _
    | none => rfl
  · rw [if_neg hat]
    cases f t (leNat (x.1.gets (ea t) 4)) with
    | some v => exact readWord_puts_ne h v ht ha hat
    | none => rfl

theorem get_rmwStep {x : Mem × List (Nat × Nat)} (h : Mem.wf x.1 = true) {t a : Nat} (ha : a < ea t ∨ ea t + 4 ≤ a) :
    Mem.get (rmwStep ea f x t).1 a = Mem.get x.1 a := by
  rw [rmwStep]
  cases f t (leNat (x.1.gets (ea t) 4)) with
  | some v => exact get_puts_outside h ha
  | none => rfl

theorem wf_rmwMem (h : Mem.wf m = true) (ts : List Nat) : Mem.wf (rmwMem m ts ea f).1 = true := by
  induction ts using List.reverseRecOn with
  | nil => exact h
  | append_singleton ts t ih => rw [rmwMem_snoc]; exact wf_rmwStep ih t

/-- A word after all threads: each that addresses it acts on what the ones before it left (R170, R172). -/
theorem readWord_rmwMem (h : Mem.wf m = true) {ts : List Nat} (hts : ∀ t ∈ ts, ea t % 4 = 0) {a : Nat} (ha : a % 4 = 0) :
    readWord (rmwMem m ts ea f).1 a = ts.foldl (fun w t => if ea t = a then rmwWord f t w else w) (readWord m a) := by
  induction ts using List.reverseRecOn with
  | nil => rfl
  | append_singleton ts t ih =>
    rw [rmwMem_snoc, readWord_rmwStep (wf_rmwMem h ts) (hts t (by simp)) ha, ih fun k hk => hts k (by simp [hk]), List.foldl_append]
    rfl

theorem get_rmwMem (h : Mem.wf m = true) {ts : List Nat} {a : Nat} (ha : ∀ t ∈ ts, a < ea t ∨ ea t + 4 ≤ a) :
    Mem.get (rmwMem m ts ea f).1 a = Mem.get m a := by
  induction ts using List.reverseRecOn with
  | nil => rfl
  | append_singleton ts t ih => rw [rmwMem_snoc, get_rmwStep (wf_rmwMem h ts) (ha t (by simp)), ih fun k hk => ha k (by simp [hk])]

/-! ### Old values -/

theorem oldOf_snoc (m : Mem) (ts : List Nat) (t k : Nat) : oldOf (rmwMem m (ts ++ [t]) ea f).2 k =
    if t = k then readWord (rmwMem m ts ea f).1 (ea t) else oldOf (rmwMem m ts ea f).2 k := by
  rw [rmwMem_snoc, rmwStep, oldOf, List.find?_cons]
  by_cases h : t = k
  · rw [if_pos h, h]; simp [readWord, w32]
  · have hne : (t == k) = false := by simpa using h
    rw [if_neg h, hne, oldOf]

/-- The threads of a mask below n. -/
def below (m : Mask) (n : Nat) : List Nat := (List.range n).filter fun t => m.getLsbD t

theorem below_succ (mask : Mask) (n : Nat) : below mask (n + 1) = below mask n ++ (if mask.getLsbD n then [n] else []) := by
  rw [below, below, List.range_succ, List.filter_append]
  by_cases h : mask.getLsbD n = true <;> simp [h]

theorem mem_below {mask : Mask} {n k : Nat} : k ∈ below mask n ↔ k < n ∧ mask.getLsbD k = true := by simp [below]

/-- A thread's old value is the word that the threads before it left. -/
theorem oldOf_below (m : Mem) (mask : Mask) {n k : Nat} (hk : k < n) (hb : mask.getLsbD k = true) :
    oldOf (rmwMem m (below mask n) ea f).2 k = readWord (rmwMem m (below mask k) ea f).1 (ea k) := by
  induction n with
  | zero => exact absurd hk (Nat.not_lt_zero k)
  | succ n ih =>
    rw [below_succ]
    by_cases hn : mask.getLsbD n = true
    · rw [if_pos hn, oldOf_snoc]
      by_cases he : n = k
      · rw [if_pos he, he]
      · rw [if_neg he, ih (by omega)]
    · have hne : n ≠ k := fun he => hn (he ▸ hb)
      rw [if_neg hn, List.append_nil, ih (by omega)]

/-- The word that k threads address, after the threads below n. -/
theorem readWord_below (h : Mem.wf m = true) {mask : Mask} (hts : ∀ t < 32, mask.getLsbD t = true → ea t % 4 = 0) {n a : Nat} (ha : a % 4 = 0) :
    readWord (rmwMem m (below mask n) ea f).1 a =
      (List.range n).foldl (fun w j => if mask.getLsbD j = true ∧ ea j = a then rmwWord f j w else w) (readWord m a) := by
  have halign : ∀ t ∈ below mask n, ea t % 4 = 0 := fun t ht => by
    obtain ⟨-, hb⟩ := mem_below.1 ht
    exact hts t (BitVec.lt_of_getLsbD hb) hb
  rw [readWord_rmwMem h halign ha, below, List.foldl_filter]
  refine List.foldl_ext _ _ _ fun w j _ => ?_
  by_cases hb : mask.getLsbD j = true <;> simp [hb]

end

/-! ### The machine's atomics -/

/-- The states of an atomic's threads follow the fold over the A-buffer. -/
def RmwAt (s : State) (x : State × List (Nat × Nat)) (y : Mem × List (Nat × Nat)) : Prop :=
  ∃ ws, StoredIn .a ws s x.1 ∧ ((∃ g, look s.wgs s.w.wg = some g) → x.1.g.a = y.1 ∧ x.2 = y.2)

/-- What follows a thread's operation: it acquires, releases, and lines over the word go stale (R200, R221). -/
def rmwOrder (s u : State) (lo : Nat) : State :=
  ((u.acquireVia s.cur.core s.w.wg s.w.idx (.word (lo / 4))).releaseVia s.cur.core s.w.wg s.w.idx (.word (lo / 4))).staleOwn false lo 4

theorem storedIn_rmwOrder {s u : State} (hl : u.live = true) (sp : Space) (lo : Nat) : StoredIn sp [] u (rmwOrder s u lo) := by
  have hacq := storedIn_acquireVia hl sp s.cur.core s.w.wg s.w.idx (.word (lo / 4))
  have hrel := storedIn_releaseVia hacq.frame.live sp s.cur.core s.w.wg s.w.idx (.word (lo / 4))
  exact (hacq.trans hrel).trans (storedIn_staleOwn hrel.frame.live sp false lo 4)

/-- One thread's operation as the machine does it. -/
def rmwOne (s : State) (ea : Nat → Nat) (f : Nat → Nat → Option Nat) (x : State × List (Nat × Nat)) (t : Nat) : State × List (Nat × Nat) :=
  let old := leNat (x.1.bufGet s.w.wg .a (ea t) 4)
  let put : State := match f t old with
    | some v => x.1.bufWrite s.cur.core s.w.wg .a (ea t) (leBytes 4 v) (.wave s.w.idx)
    | none => x.1
  (rmwOrder s put (ea t), (t, old) :: x.2)

theorem localRmw_eq (s : State) (ts : List Nat) (ea : Nat → Nat) (f : Nat → Nat → Option Nat) :
    s.localRmw ts ea f = ts.foldl (rmwOne s ea f) (s.noteAll s.cur.core s.w.wg s.w.idx .a (ts.map ea) 4, []) := rfl

theorem a_of_storedIn {s u : State} {ws : List (Nat × List Byte)} (h : StoredIn .a ws s u) (hex : ∃ g, look s.wgs s.w.wg = some g) :
    u.g.a = ws.foldl (fun m w => m.puts w.1 w.2) s.g.a := by
  rw [h.g hex]
  exact buf_foldl_stored .a ws s.g

theorem rmwAt_one {s : State} {ea : Nat → Nat} {f : Nat → Nat → Option Nat} {x : State × List (Nat × Nat)} {y : Mem × List (Nat × Nat)}
    (h : RmwAt s x y) (t : Nat) : RmwAt s (rmwOne s ea f x t) (rmwStep ea f y t) := by
  obtain ⟨ws, hst, heq⟩ := h
  have hread (hex : ∃ g, look s.wgs s.w.wg = some g) : x.1.bufGet s.w.wg .a (ea t) 4 = y.1.gets (ea t) 4 := by
    rw [← (heq hex).1, State.g, hst.frame.wgOf]; rfl
  rw [rmwOne]
  cases hf : f t (leNat (x.1.bufGet s.w.wg .a (ea t) 4)) with
  | none =>
    have hall := hst.trans (storedIn_rmwOrder (s := s) hst.frame.live .a (ea t))
    refine ⟨_, hall, fun hex => ?_⟩
    obtain ⟨ha, hos⟩ := heq hex
    rw [hread hex] at hf ⊢
    refine ⟨?_, by rw [rmwStep, hos]⟩
    rw [rmwStep, hf, ← ha, a_of_storedIn hst hex, a_of_storedIn hall hex, List.append_nil]
  | some v =>
    have hput := storedIn_bufWrite hst.frame.live .a s.cur.core (ea t) (leBytes 4 v) (.wave s.w.idx)
    rw [hst.frame.wgOf] at hput
    have hall := (hst.trans hput).trans (storedIn_rmwOrder (s := s) hput.frame.live .a (ea t))
    refine ⟨_, hall, fun hex => ?_⟩
    obtain ⟨ha, hos⟩ := heq hex
    rw [hread hex] at hf ⊢
    refine ⟨?_, by rw [rmwStep, hos]⟩
    rw [rmwStep, hf, ← ha, a_of_storedIn hst hex, a_of_storedIn hall hex, List.append_nil, List.foldl_append]
    rfl

theorem rmwAt_localRmw {s : State} (hl : s.live = true) (ts : List Nat) (ea : Nat → Nat) (f : Nat → Nat → Option Nat) :
    RmwAt s (s.localRmw ts ea f) (rmwMem s.g.a ts ea f) := by
  have hnote := storedIn_noteAll hl .a s.cur.core s.w.wg s.w.idx (ts.map ea) 4
  rw [localRmw_eq]
  exact List.foldl_rel ⟨_, hnote, fun hex => ⟨a_of_storedIn hnote hex, rfl⟩⟩ fun t _ x y hxy => rmwAt_one hxy t

end Sys2Proof.Proofs
end

section
/-! atom.a and cas.a: the checks, the fold over the threads, and the old values to the destination (R169, R172, R173). -/

namespace Sys2Proof.Proofs
open Sys2Proof Sys2Proof.Machine

/-- base + off × 4 of one thread (R172). -/
def wordAddr (s : State) (a : Opnd) (off : BitVec 8) (k : Nat) : Nat := ((s.src a).at k + off.signExtend 32 * 4).toNat

section
variable {s u : State} {g : Guard} {la : BitVec 4} {d a : Opnd} {off : BitVec 8} {data : List Opnd} {op : Nat} {f : Nat → Nat → Option Nat}

/-! ### The shared body once its checks have passed -/

theorem forIn_overEach {ts : List Nat} {c : Opnd → Bool} {e : Opnd → TrapReq} (h : ∀ o ∈ data, ts ≠ [] → c o = true) :
    (forIn data PUnit.unit fun o _ => do overEach ts (check (c o) (e o)); pure (ForInStep.yield PUnit.unit)) = Except.ok PUnit.unit := by
  induction data with
  | nil => rfl
  | cons o os ih =>
    rw [List.forIn_cons, overEach_check (h o (by simp)), ok_bind, pure_bind]
    exact ih fun o ho => h o (by simp [ho])

/-- What an atomic writes to its destination: each thread's old value, or thread 0's. -/
def oldRow (sc : Bool) (os : List (Nat × Nat)) : VReg := if sc then .uni (oldOf os 0) else .gen ((List.range 32).map (oldOf os))

/-- An atomic of the threads ts. -/
def atomInto (s : State) (g : Guard) (la : BitVec 4) (d : Opnd) (ts : List Nat) (ea : Nat → Nat) (f : Nat → Nat → Option Nat) : Except TrapReq State :=
  if ts.isEmpty then .ok s else do
    let s' ← lowest ts ((s.localRmw ts ea f).1.writeD d (oldRow (scalarDst d) (s.localRmw ts ea f).2) (s.guardMask g))
    .ok (s'.openDone s la (groupOf d 1))

theorem localAtomic_ok (hsc : scalarDst d = true → (s.src a).isUni = true ∧ ∀ o ∈ data, (s.src o).isUni = true)
    (haddr : ∀ t ∈ s.performed g (scalarDst d), wordAddr s a off t % 4 = 0 ∧ wordAddr s a off t + 4 ≤ s.g.size .a) :
    s.localAtomic g la d a .null off data op f = atomInto s g la d (s.performed g (scalarDst d)) (wordAddr s a off) f := by
  have hea (t : Nat) : ((accessOf s g (scalarDst d) a .null off 4).ea t).toNat = wordAddr s a off t := by rw [ea_accessOf_null]; rfl
  have hdata (o : Opnd) (ho : o ∈ data) (_ : (accessOf s g (scalarDst d) a .null off 4).ts ≠ []) : (!scalarDst d || (s.src o).isUni) = true := by
    cases hd : scalarDst d with
    | true => simp [(hsc hd).2 o ho]
    | false => rfl
  have hchecks := localChecks_ok (s := s) (x := accessOf s g (scalarDst d) a .null off 4) (sp := .a) (bytes := 4) (limit := s.g.size .a)
    (fun _ => rfl) (fun t ht => by rw [hea]; exact haddr t ht) op
  rw [State.localAtomic]
  dsimp only
  rw [access_ok fun hd => ⟨(hsc hd).1, rfl⟩, ok_bind, forIn_overEach hdata, ok_bind, hchecks, ok_bind]
  simp only [hea]
  rfl

theorem atomInto_ok {ts : List Nat} {ea : Nat → Nat} (h : ts ≠ [])
    (hw : (s.localRmw ts ea f).1.writeD d (oldRow (scalarDst d) (s.localRmw ts ea f).2) (s.guardMask g) = .ok u) :
    atomInto s g la d ts ea f = .ok (u.openDone s la (groupOf d 1)) := by
  rw [atomInto, if_neg (by simpa using h), hw]
  rfl

/-! ### By kind of destination -/

theorem rowFree_of_stored {t : State} (h : StoreFrame s t) {n : Nat} (hr : s.rowFree n) : t.rowFree n := by
  rw [State.rowFree, h.wave]
  exact hr

theorem vreg_of_stored {t : State} (h : StoreFrame s t) (n : Nat) : t.vreg n = s.vreg n := vreg_eq_of_v (congrArg Wave.v h.wave :) n

theorem atomInto_v (hq : s.quiet) (n : Fin 128) (hr : s.rowFree n.val) (ea : Nat → Nat) (f : Nat → Nat → Option Nat) :
    ∃ u v r, atomInto s g la (.v n) (threads (s.guardMask g)) ea f = .ok v ∧ RmwAt s r (rmwMem s.g.a (threads (s.guardMask g)) ea f) ∧
      ValueFrame (fun _ => True) True r.1 u ∧ MovedOn u v.advance ∧ u.w.p = s.w.p ∧ u.sp.s = s.sp.s ∧
      (n.val < s.w.v.length → u.vreg n.val = VReg.written (s.guardMask g) (oldRow false r.2) (s.vreg n.val)) := by
  by_cases hm : s.guardMask g = 0
  · have hnil : threads (s.guardMask g) = [] := threads_eq_nil.2 hm
    refine ⟨s, s, (s, []), by rw [hnil]; rfl, ⟨[], .refl hq.1 .a, fun _ => by rw [hnil]; exact ⟨rfl, rfl⟩⟩, .refl hq.1, movedOn_advance hq.1, rfl, rfl, fun _ => ?_⟩
    rw [hm]; rfl
  · have hrmw := rmwAt_localRmw hq.1 (threads (s.guardMask g)) ea f
    obtain ⟨ws, hst, -⟩ := id hrmw
    have hput := writeV_quiet (hst.frame.quiet hq) (rowFree_of_stored hst.frame hr) (oldRow false (s.localRmw (threads (s.guardMask g)) ea f).2) hm
    have hframe : ValueFrame (fun _ => True) True _ _ := frame_writeV (hst.frame.quiet hq) (fun _ => trivial) hput
    refine ⟨_, _, _, atomInto_ok (threads_ne_nil hm) hput, hrmw, hframe, movedOn_openDone hframe.live _ _, ?_, ?_, fun hn => ?_⟩
    · rw [w_putV hst.frame.live]; exact (congrArg Wave.p hst.frame.wave :)
    · rw [sp_putV hst.frame.live, hst.frame.sp]
    · rw [vreg_putV hst.frame.live, vreg_of_stored hst.frame]
      rw [hst.frame.wave]; exact hn

theorem atomInto_null (hq : s.quiet) (ea : Nat → Nat) (f : Nat → Nat → Option Nat) :
    ∃ v r, atomInto s g la .null (threads (s.guardMask g)) ea f = .ok v ∧ RmwAt s r (rmwMem s.g.a (threads (s.guardMask g)) ea f) ∧
      MovedOn r.1 v.advance := by
  by_cases hm : s.guardMask g = 0
  · have hnil : threads (s.guardMask g) = [] := threads_eq_nil.2 hm
    exact ⟨s, (s, []), by rw [hnil]; rfl, ⟨[], .refl hq.1 .a, fun _ => by rw [hnil]; exact ⟨rfl, rfl⟩⟩, movedOn_advance hq.1⟩
  · have hrmw := rmwAt_localRmw hq.1 (threads (s.guardMask g)) ea f
    obtain ⟨ws, hst, -⟩ := id hrmw
    exact ⟨_, _, atomInto_ok (u := (s.localRmw (threads (s.guardMask g)) ea f).1) (threads_ne_nil hm) rfl, hrmw, movedOn_openDone hst.frame.live _ _⟩

/-- An atomic of one thread to an S register. -/
theorem atomInto_s (hq : s.quiet) (n : Fin 64) (hlen : s.sp.s.length = 64) (ea : Nat → Nat) (f : Nat → Nat → Option Nat) :
    ∃ u v r, atomInto s g la (.s n) [0] ea f = .ok v ∧ RmwAt s r (rmwMem s.g.a [0] ea f) ∧ ValueFrame (fun _ => True) True r.1 u ∧
      MovedOn u v.advance ∧ u.w.p = s.w.p ∧ u.w.v = s.w.v ∧ u.sp.s.getD n.val 0 = oldOf r.2 0 := by
  have hrmw := rmwAt_localRmw hq.1 [0] ea f
  obtain ⟨ws, hst, -⟩ := id hrmw
  have hq' := hst.frame.quiet hq
  have hframe : ValueFrame (fun _ => True) True _ _ := frame_writeS hq' (n := n.val) (fun _ => trivial) (oldOf (s.localRmw [0] ea f).2 0)
  refine ⟨_, _, _, atomInto_ok (by simp) rfl, hrmw, hframe, movedOn_openDone hframe.live _ _, ?_, ?_, ?_⟩
  · rw [p_writeS hq']; exact (congrArg Wave.p hst.frame.wave :)
  · rw [v_writeS hq']; exact (congrArg Wave.v hst.frame.wave :)
  · rw [s_writeS hq']
    exact getD_set_self _ (by rw [hst.frame.sp, hlen]; exact n.isLt) _

/-- An atomic of one thread to a WG register that has no write kept. -/
theorem atomInto_wg (hq : s.quiet) (n : Fin 16) (hlen : s.g.wgr.length = 16) (hex : ∃ g, look s.wgs s.w.wg = some g)
    (hfresh : ∀ x ∈ s.g.wgPrev, x.reg ≠ n.val) (ea : Nat → Nat) (f : Nat → Nat → Option Nat) :
    ∃ u v r, atomInto s g la (.wg n) [0] ea f = .ok v ∧ RmwAt s r (rmwMem s.g.a [0] ea f) ∧ ValueFrame (fun _ => True) True r.1 u ∧
      MovedOn u v.advance ∧ u.w.p = s.w.p ∧ u.w.v = s.w.v ∧ u.sp.s = s.sp.s ∧ u.g.wgr.getD n.val 0 = oldOf r.2 0 := by
  have hrmw := rmwAt_localRmw hq.1 [0] ea f
  obtain ⟨ws, hst, -⟩ := id hrmw
  have hq' := hst.frame.quiet hq
  have hkeep {α : Type} (p : WGrp → α) := group_storedIn (p := p) hst hex
  have hwgr : (s.localRmw [0] ea f).1.g.wgr = s.g.wgr := hkeep WGrp.wgr (fun _ sp _ => by cases sp <;> rfl) fun _ sp _ => by cases sp <;> rfl
  have hprev : (s.localRmw [0] ea f).1.g.wgPrev = s.g.wgPrev := hkeep WGrp.wgPrev (fun _ sp _ => by cases sp <;> rfl) fun _ sp _ => by cases sp <;> rfl
  obtain ⟨h, hh⟩ := hex
  have hlook := hst.group h hh
  rw [← hst.frame.wgOf] at hlook
  have hframe : ValueFrame (fun _ => True) True _ _ := frame_writeWg hq' (n := n.val) (fun _ => trivial) (oldOf (s.localRmw [0] ea f).2 0)
  refine ⟨_, _, _, atomInto_ok (by simp) rfl, hrmw, hframe, movedOn_openDone hframe.live _ _, ?_, ?_, ?_, ?_⟩
  · rw [p_writeWg hq']; exact (congrArg Wave.p hst.frame.wave :)
  · rw [v_writeWg hq']; exact (congrArg Wave.v hst.frame.wave :)
  · rw [s_writeWg hq', hst.frame.sp]
  · obtain ⟨hset, -⟩ := wgNote_fresh (g := (s.localRmw [0] ea f).1.g) (y := wgWrite (s.localRmw [0] ea f).1 n.val (oldOf (s.localRmw [0] ea f).2 0))
      (by rw [hprev]; exact hfresh) rfl ((s.localRmw [0] ea f).1.core (s.localRmw [0] ea f).1.cur.core).cyc.toNat
    rw [g_writeWg hq' hlook, hset]
    exact getD_set_self _ (by rw [reg_wgWrite, hwgr, hlen]; exact n.isLt) _

end

/-! ### What holds after an atomic -/

section
variable {s u t : State} {r : State × List (Nat × Nat)} {y : Mem × List (Nat × Nat)}

theorem sameOutside_of_rmw (h : RmwAt s r y) (hu : ValueFrame (fun _ => True) True r.1 u) (k : MovedOn u t) : SameOutside s t := by
  obtain ⟨ws, hst, -⟩ := h
  rw [k.state, hu.state, hst.frame.state]
  exact ⟨rfl, rfl, rfl, rfl, rfl, rfl, rfl, rfl, rfl, rfl, rfl⟩

theorem a_of_rmw (h : RmwAt s r y) (hex : ∃ g, look s.wgs s.w.wg = some g) (hu : ValueFrame (fun _ => True) True r.1 u) (k : MovedOn u t) :
    t.g.a = y.1 := by
  obtain ⟨ws, -, heq⟩ := h
  rw [k.g, ← (heq hex).1]
  exact (congrArg WGrp.a hu.group :)

theorem word_of_rmw (h : RmwAt s r y) (hex : ∃ g, look s.wgs s.w.wg = some g) (hu : ValueFrame (fun _ => True) True r.1 u) (k : MovedOn u t)
    (x : Nat) : BitVec.ofNat 32 (leNat (t.bufGet s.w.wg .a x 4)) = readWord y.1 x := by
  have hwg : t.w.wg = s.w.wg := by
    obtain ⟨ws, hst, -⟩ := id h
    rw [k.wg, hu.wgOf, hst.frame.wgOf]
  rw [← a_of_rmw h hex hu k, State.g, hwg]
  rfl

end

/-! ### One thread -/

/-- After an atomic of one thread on the word at A: the new word there, every other byte and every vector as before. -/
def AtomStored (s : State) (A : Nat) (new : Word) (t : State) : Prop :=
  t.w.v = s.w.v ∧ t.w.p = s.w.p ∧ SameOutside s t ∧ BitVec.ofNat 32 (leNat (t.bufGet s.w.wg .a A 4)) = new ∧
    ∀ x, (x < A ∨ A + 4 ≤ x) → Mem.get t.g.a x = Mem.get s.g.a x

theorem atomStored_of_rmw {s u t : State} {r : State × List (Nat × Nat)} {ea : Nat → Nat} {f : Nat → Nat → Option Nat}
    (h : RmwAt s r (rmwMem s.g.a [0] ea f)) (hsound : s.sound) (hu : ValueFrame (fun _ => True) True r.1 u) (k : MovedOn u t)
    (hv : u.w.v = s.w.v) (hp : u.w.p = s.w.p) (h4 : ea 0 % 4 = 0) :
    oldOf r.2 0 = readWord s.g.a (ea 0) ∧ AtomStored s (ea 0) (rmwWord f 0 (readWord s.g.a (ea 0))) t := by
  obtain ⟨-, -, -, -, hex, hwf, -⟩ := hsound
  have hold : oldOf r.2 0 = readWord s.g.a (ea 0) := by
    obtain ⟨ws, -, heq⟩ := id h
    rw [(heq hex).2]; rfl
  refine ⟨hold, k.v.trans hv, k.p.trans hp, sameOutside_of_rmw h hu k, ?_, fun x hx => ?_⟩
  · rw [word_of_rmw h hex hu k, readWord_rmwMem hwf (by simpa using h4) h4]
    simp
  · rw [a_of_rmw h hex hu k, get_rmwMem hwf (by simpa using hx)]

section
variable {s : State} {g : Guard} {la : BitVec 4} {a : Opnd} {off : BitVec 8} {data : List Opnd} {op : Nat} {f : Nat → Nat → Option Nat}
  {i : Opnd → Instr}

theorem runs_atomic_scalar (hi : ∀ d u, s.localAtomic g la d a .null off data op f = .ok u → exec (i d) s = .next u.advance) (hq : s.quiet) (hsound : s.sound)
    (ha : (s.src a).isUni = true) (hdata : ∀ o ∈ data, (s.src o).isUni = true) (hg : s.guardMask g ≠ 0) (h4 : wordAddr s a off 0 % 4 = 0)
    (hin : wordAddr s a off 0 + 4 ≤ s.g.size .a) :
    (∀ n : Fin 64, Runs (i (.s n)) s fun t => t.sp.s.getD n.val 0 = readWord s.g.a (wordAddr s a off 0) ∧
      AtomStored s (wordAddr s a off 0) (rmwWord f 0 (readWord s.g.a (wordAddr s a off 0))) t) ∧
    (∀ n : Fin 16, (∀ x ∈ s.g.wgPrev, x.reg ≠ n.val) → Runs (i (.wg n)) s fun t =>
      t.g.wgr.getD n.val 0 = readWord s.g.a (wordAddr s a off 0) ∧ t.sp.s = s.sp.s ∧
      AtomStored s (wordAddr s a off 0) (rmwWord f 0 (readWord s.g.a (wordAddr s a off 0))) t) := by
  have hts := performed_scalar hg
  have hbody (d : Opnd) (hd : scalarDst d = true) : s.localAtomic g la d a .null off data op f = atomInto s g la d [0] (wordAddr s a off) f := by
    have hok := localAtomic_ok (op := op) (la := la) (f := f) (g := g) (d := d) (s := s) (off := off) (fun _ => ⟨ha, hdata⟩) (fun t ht => by
      rw [hd, hts, List.mem_singleton] at ht
      subst ht
      exact ⟨h4, hin⟩)
    rw [hok, hd, hts]
  obtain ⟨-, -, hs, hwgr, hex, -⟩ := id hsound
  refine ⟨fun n => ?_, fun n hfresh => ?_⟩
  · obtain ⟨u, v, r, hv, hrmw, hframe, hmoved, hp, hvv, hreg⟩ := atomInto_s (g := g) (la := la) hq n hs (wordAddr s a off) f
    obtain ⟨hold, hstored⟩ := atomStored_of_rmw hrmw hsound hframe hmoved hvv hp h4
    exact ⟨v.advance, hi _ _ ((hbody _ rfl).trans hv), by rw [hmoved.s, hreg, hold], hstored⟩
  · obtain ⟨u, v, r, hv, hrmw, hframe, hmoved, hp, hvv, hsp, hreg⟩ := atomInto_wg (g := g) (la := la) hq n hwgr hex hfresh (wordAddr s a off) f
    obtain ⟨hold, hstored⟩ := atomStored_of_rmw hrmw hsound hframe hmoved hvv hp h4
    exact ⟨v.advance, hi _ _ ((hbody _ rfl).trans hv), by rw [hmoved.g, hreg, hold], by rw [hmoved.s, hsp], hstored⟩

/-! ### The threads of a guard -/

/-- After an atomic of a guard's threads: each addressed word holds what they made of it one after the other, every other byte its old
value. -/
def AtomStoredAll (s : State) (m : Mask) (ad : Nat → Nat) (after : Nat → Nat → Word) (t : State) : Prop :=
  SameOutside s t ∧ t.w.p = s.w.p ∧ t.sp.s = s.sp.s ∧
    (∀ k < 32, m.getLsbD k = true → BitVec.ofNat 32 (leNat (t.bufGet s.w.wg .a (ad k) 4)) = after k 32) ∧
    ∀ x, (∀ k < 32, m.getLsbD k = true → x < ad k ∨ ad k + 4 ≤ x) → Mem.get t.g.a x = Mem.get s.g.a x

/-- The word that thread k addresses, once the threads below n have acted on it. -/
def wordAfter (s : State) (m : Mask) (ad : Nat → Nat) (new : Nat → Word → Word) (k n : Nat) : Word :=
  (List.range n).foldl (fun w j => if m.getLsbD j = true ∧ ad j = ad k then new j w else w) (readWord s.g.a (ad k))

theorem atomStoredAll_of_rmw {u t : State} {r : State × List (Nat × Nat)} {m : Mask} {ea : Nat → Nat}
    (h : RmwAt s r (rmwMem s.g.a (threads m) ea f)) (hsound : s.sound) (hu : ValueFrame (fun _ => True) True r.1 u) (k : MovedOn u t)
    (hp : u.w.p = s.w.p) (hs : u.sp.s = s.sp.s) (h4 : ∀ t < 32, m.getLsbD t = true → ea t % 4 = 0) :
    (∀ k < 32, m.getLsbD k = true → oldOf r.2 k = wordAfter s m ea (rmwWord f) k k) ∧ AtomStoredAll s m ea (wordAfter s m ea (rmwWord f)) t := by
  obtain ⟨-, -, -, -, hex, hwf, -⟩ := hsound
  have hthreads : threads m = below m 32 := rfl
  refine ⟨fun j hj hb => ?_, sameOutside_of_rmw h hu k, k.p.trans hp, k.s.trans hs, fun j hj hb => ?_, fun x hx => ?_⟩
  · obtain ⟨ws, -, heq⟩ := id h
    rw [(heq hex).2, hthreads, oldOf_below _ _ hj hb, readWord_below hwf h4 (h4 j hj hb)]
    rfl
  · rw [word_of_rmw h hex hu k, hthreads, readWord_below hwf h4 (h4 j hj hb)]
    rfl
  · rw [a_of_rmw h hex hu k, get_rmwMem hwf fun j hj => hx j (mem_threads.1 hj).1 (mem_threads.1 hj).2]

theorem runs_atomic_vector (hi : ∀ d u, s.localAtomic g la d a .null off data op f = .ok u → exec (i d) s = .next u.advance) (hq : s.quiet) (hsound : s.sound)
    (haddr : AddrsOk (s.guardMask g) (wordAddr s a off) 4 (s.g.size .a)) :
    (∀ n : Fin 128, s.rowFree n.val → Runs (i (.v n)) s fun t =>
      AtomStoredAll s (s.guardMask g) (wordAddr s a off) (wordAfter s (s.guardMask g) (wordAddr s a off) (rmwWord f)) t ∧
      Written (s.guardMask g) (s.vreg n.val) (t.vreg n.val) fun k w => w = wordAfter s (s.guardMask g) (wordAddr s a off) (rmwWord f) k k) ∧
    Runs (i .null) s fun t =>
      AtomStoredAll s (s.guardMask g) (wordAddr s a off) (wordAfter s (s.guardMask g) (wordAddr s a off) (rmwWord f)) t ∧ t.w.v = s.w.v := by
  have hbody (d : Opnd) (hd : scalarDst d = false) :
      s.localAtomic g la d a .null off data op f = atomInto s g la d (threads (s.guardMask g)) (wordAddr s a off) f := by
    have hok := localAtomic_ok (op := op) (la := la) (f := f) (g := g) (d := d) (s := s) (off := off) (data := data) (by simp [hd]) (fun t ht => by
      rw [hd, performed_vec] at ht
      exact haddr t (mem_threads.1 ht).1 (mem_threads.1 ht).2)
    rw [hok, hd, performed_vec]
  have h4 (t : Nat) (ht : t < 32) (hb : (s.guardMask g).getLsbD t = true) : wordAddr s a off t % 4 = 0 := (haddr t ht hb).1
  refine ⟨fun n hr => ?_, ?_⟩
  · obtain ⟨u, v, r, hv, hrmw, hframe, hmoved, hp, hs, hreg⟩ := atomInto_v (g := g) (la := la) hq n hr (wordAddr s a off) f
    obtain ⟨hold, hstored⟩ := atomStoredAll_of_rmw hrmw hsound hframe hmoved hp hs h4
    refine ⟨v.advance, hi _ _ ((hbody _ rfl).trans hv), hstored, fun k hk => ?_⟩
    rw [vreg_of_movedOn hmoved, hreg (by rw [hsound.1]; exact n.isLt)]
    by_cases hb : (s.guardMask g).getLsbD k = true
    · have hm : s.guardMask g ≠ 0 := fun h0 => by simp [h0] at hb
      rw [VReg.written_at hk hm, if_pos hb, if_pos hb]
      exact (VReg.at_gen hk).trans (hold k hk hb)
    · by_cases hm : s.guardMask g = 0
      · rw [if_neg hb, hm]; rfl
      · rw [VReg.written_at hk hm, if_neg hb, if_neg hb]
  · obtain ⟨v, r, hv, hrmw, hmoved⟩ := atomInto_null (g := g) (la := la) hq (wordAddr s a off) f
    obtain ⟨ws, hst, -⟩ := id hrmw
    have hp : r.1.w.p = s.w.p := (congrArg Wave.p hst.frame.wave :)
    obtain ⟨-, hstored⟩ := atomStoredAll_of_rmw hrmw hsound (.refl hst.frame.live) hmoved hp (by rw [hst.frame.sp]) h4
    exact ⟨v.advance, hi _ _ ((hbody _ rfl).trans hv), hstored, hmoved.v.trans (congrArg Wave.v hst.frame.wave :)⟩

end

/-! ### The operations (R172, R173) -/

/-- The new word of each operation. -/
theorem ofNat_atomNew (op : AtomOp) (old x : Word) : BitVec.ofNat 32 (atomNew op 32 old.toNat x.toNat) = match op with
    | .add => old + x
    | .minS => if x.toInt < old.toInt then x else old
    | .maxS => if old.toInt < x.toInt then x else old
    | .minU => if x.toNat < old.toNat then x else old
    | .maxU => if old.toNat < x.toNat then x else old
    | .and => old &&& x | .or => old ||| x | .xor => old ^^^ x | .exch => x
    | .addF => fopAdd Mods.plain 0 old x := by
  have hback (w : Word) : BitVec.ofNat 32 w.toNat = w := by simp
  have hint (w : Word) : intOf 32 true w.toNat = w.toInt := by rw [intOf_true, hback]
  cases op with
  | add => exact BitVec.eq_of_toNat_eq (by simp [atomNew])
  | minS | maxS => simp only [atomNew, hint, decide_eq_true_eq]; split <;> exact hback _
  | minU | maxU => simp only [atomNew]; split <;> exact hback _
  | and | or | xor => exact BitVec.eq_of_toNat_eq (by simp [atomNew]) 
  | exch => exact hback x
  | addF => simp only [atomNew, w32, hback]

theorem rmwWord_atom (op : AtomOp) (x : Nat → Nat) (k : Nat) (w : Word) :
    rmwWord (fun t old => some (atomNew op 32 old (x t))) k w = BitVec.ofNat 32 (atomNew op 32 w.toNat (x k)) := rfl

theorem rmwWord_cas (x y : Nat → Word) (k : Nat) (w : Word) :
    rmwWord (fun t old => if old = (x t).toNat then some (y t).toNat else none) k w = if w = x k then y k else w := by
  by_cases h : w = x k
  · simp [rmwWord, h]
  · have hne : w.toNat ≠ (x k).toNat := fun e => h (BitVec.eq_of_toNat_eq e)
    simp [rmwWord, h, hne]

theorem exec_atomA {s u : State} {g : Guard} {la : BitVec 4} {d a b : Opnd} {off : BitVec 8} {op : AtomOp} (hl : s.live = true)
    (h : s.localAtomic g la d a .null off [b] 0x145 (fun t old => some (atomNew op 32 old ((s.src b).at t).toNat)) = .ok u) :
    exec (.atomA g la d a b off op) s = .next u.advance := by
  change execAtomA g la d a b off op s = _
  exact isa_ok hl h

theorem exec_casA {s u : State} {g : Guard} {la : BitVec 4} {d a b c : Opnd} (hl : s.live = true)
    (h : s.localAtomic g la d a .null 0 [b, c] 0x146 (fun t old => if old = ((s.src b).at t).toNat then some ((s.src c).at t).toNat else none) = .ok u) :
    exec (.casA g la d a b c) s = .next u.advance := by
  change execCasA g la d a b c s = _
  exact isa_ok hl h

/-- Settles O29: one thread's operation on its word, and the fold of the threads' operations in ascending order. -/
theorem localAtomics : Obligations.LocalAtomics := by
  unfold Obligations.LocalAtomics
  refine ⟨fun s g la a b c off op n k hq hsound ha hb hc hg => ⟨fun h4 hin => ?_, fun h4 hin => ?_⟩,
    fun s g la a b c off op n hq hsound => ⟨fun haddr => ?_, fun haddr => ?_⟩⟩
  · obtain ⟨hs, hwg⟩ := runs_atomic_scalar (i := fun d => .atomA g la d a b off op) (fun _ _ h => exec_atomA hq.1 h) hq hsound ha (by simpa using hb) hg h4 hin
    simp only [rmwWord_atom, ofNat_atomNew] at hs hwg
    exact ⟨hs n, hwg k⟩
  · obtain ⟨hs, hwg⟩ := runs_atomic_scalar (i := fun d => .casA g la d a b c) (fun _ _ h => exec_casA hq.1 h) hq hsound ha (by simp [hb, hc]) hg h4 hin
    simp only [rmwWord_cas (fun t => (s.src b).at t) fun t => (s.src c).at t] at hs hwg
    exact ⟨hs n, hwg k⟩
  · obtain ⟨hv, hnull⟩ := runs_atomic_vector (i := fun d => .atomA g la d a b off op) (fun _ _ h => exec_atomA hq.1 h) hq hsound haddr
    exact ⟨hv n, hnull⟩
  · obtain ⟨hv, hnull⟩ := runs_atomic_vector (i := fun d => .casA g la d a b c) (fun _ _ h => exec_casA hq.1 h) hq hsound haddr
    rw [funext₂ (rmwWord_cas (fun t => (s.src b).at t) fun t => (s.src c).at t)] at hv hnull
    exact ⟨hv n, hnull⟩

end Sys2Proof.Proofs
end

section
/-! The local forms run to their end: writes of registers and of buffers leave the wave's accesses, and its split moves on (R169, R171). -/

namespace Sys2Proof.Proofs
open Sys2Proof Sys2Proof.Machine

section
variable {s u t : State} {g : Guard} {la : BitVec 4} {d a b data c : Opnd} {n : Fin 128} {off : BitVec 8} {z : Size} {sx : Bool}

theorem endsAt_frame {named : Opnd → Prop} {seeds : Prop} (h : ValueFrame named seeds s u) : EndsAt s u s.sp.pc :=
  ⟨(congrArg Split.pc h.split :), (congrArg Split.status h.split :), (congrArg Split.mask h.split :), (congrArg Wave.handler h.wave :),
    (congrArg Wave.trapReg h.wave :), (congrArg State.grids h.state :), (congrArg State.mem h.state :), (congrArg State.ring h.state :)⟩

/-- What a local access leaves: its split past it, and no instruction more under way. -/
def LocalEnd (s : State) (i : Instr) : Prop :=
  Runs i s fun t => EndsAt s t (s.sp.pc + 8) ∧ t.w.accs = s.w.accs ∧ ∀ p, t.w.count p = s.w.count p

theorem localEnd_of_moved {i : Instr} (hi : exec i s = .next t) (h : EndsAt s u s.sp.pc) (haccs : u.w.accs = s.w.accs) (k : MovedOn u t) :
    LocalEnd s i := by
  have hends := k.ends
  rw [h.1] at hends
  have hsame := k.accs.trans haccs
  exact ⟨t, hi, endsAt_trans h hends, hsame, fun p => by rw [Wave.count, Wave.count, hsame]⟩

theorem localEnd_of_value {i : Instr} (hi : exec i s = .next t) (h : ValueFrame (fun _ => True) True s u) (k : MovedOn u t) : LocalEnd s i :=
  localEnd_of_moved hi (endsAt_frame h) (congrArg Wave.accs h.wave :) k

theorem localEnd_of_store {i : Instr} (hi : exec i s = .next u.advance) (h : StoreFrame s u) : LocalEnd s i :=
  localEnd_of_moved hi h.endsAt (congrArg Wave.accs h.wave :) (movedOn_advance h.live)

theorem localEnd_load (hq : s.quiet) {i : Instr} {o : LocalOp} {sp : Space} {op : Nat} (hexec : exec i = isa fun s => s.localLoad o sp op)
    (hd : o.d = .v n) (hrole : roleReaches s.w.role sp = true)
    (haddr : AddrsOk (s.guardMask o.g) (s.localAddr o) o.size.bytes (s.g.size sp)) (hrows : s.rowsFor n.val o.size.regs) : LocalEnd s i := by
  have hvec : scalarDst o.d = false := by rw [hd]; rfl
  have hload := localLoad_ok hrole (o := o) (sp := sp) (by simp [hvec]) (fun t ht => by
    rw [hvec, performed_vec] at ht
    exact haddr t (mem_threads.1 ht).1 (mem_threads.1 ht).2) op
  rw [hvec, hd] at hload
  obtain ⟨u, v, hv, hmoved, hframe, -⟩ := loadInto_v (la := o.la) (sx := o.sx) (x := accessOf s o.g false o.a o.b o.off o.size.bytes)
    (bytes := fun t => s.bufGet s.w.wg sp (s.localAddr o t) o.size.bytes) hq n hrows rfl
  exact localEnd_of_value (by rw [hexec, isa_ok hq.1 (hload.trans hv)]) hframe hmoved

theorem localEnd_stA (hq : s.quiet) {o : LocalOp} (haddr : AddrsOk (s.guardMask o.g) (s.localAddr o) o.size.bytes (s.g.size .a)) :
    LocalEnd s (.stA o) := by
  refine localEnd_of_store ?_ (storedIn_storeEach hq.1 o.size (threads (s.guardMask o.g)) (s.localAddr o) (s.dataBytes o.d o.size)).frame
  change execStA o s = _
  exact isa_ok hq.1 (localStore_ok haddr 0x141)

theorem localEnd_stC (hq : s.quiet) {tile : BitVec 5} (hrole : s.w.role ≠ .copy) (htile : tile.toNat < s.g.tc.length)
    (haddr : AddrsOk (s.guardMask g) (tileAddr s ⟨g, 0, data, a, off, z, tile⟩) z.bytes 1024) : LocalEnd s (.stC ⟨g, 0, data, a, off, z, tile⟩) :=
  localEnd_of_store (exec_stC hq.1 hrole htile haddr)
    (storedIn_storeTile hq.1 z (threads (s.guardMask g)) (tilePlace s ⟨g, 0, data, a, off, z, tile⟩) (s.dataBytes data z)).frame

/-- ld.c whatever it reads: of a tile that a matrix instruction will write the words are not those of the tile (R223). -/
theorem localEnd_ldC (hq : s.quiet) {tile : BitVec 5} (hrole : s.w.role ≠ .copy) (htile : tile.toNat < s.g.tc.length)
    (haddr : AddrsOk (s.guardMask g) (tileAddr s ⟨g, la, .v n, a, off, z, tile⟩) z.bytes 1024) (hrows : s.rowsFor n.val z.regs) :
    LocalEnd s (.ldC ⟨g, la, .v n, a, off, z, tile⟩) := by
  have haccess := tileAccess_ok (o := ⟨g, la, .v n, a, off, z, tile⟩) hrole htile haddr 0x143
  let bytes (t : Nat) : List Byte := if s.busyDst s.cur.core s.w.wg tile.toNat
    then (List.range z.regs).flatMap fun j => leBytes 4 (s.word 10 (j * 32 + t)).toNat
    else s.bufGet s.w.wg .c (tile.toNat * 1024 + ((accessOf s g false a .null off z.bytes).ea t).toNat) z.bytes
  obtain ⟨u, v, hv, hmoved, hframe, -⟩ := loadInto_v (g := g) (la := la) (sx := false) (x := accessOf s g false a .null off z.bytes)
    (bytes := bytes) hq n hrows rfl
  refine localEnd_of_value (t := v.advance) ?_ hframe hmoved
  change execLdC _ s = _
  refine isa_ok hq.1 ?_
  have hsc : scalarDst (.v n) = false := rfl
  simp only [hsc, haccess, ok_bind]
  exact hv

theorem localEnd_atomic (hq : s.quiet) {i : Instr} {xs : List Opnd} {op : Nat} {f : Nat → Nat → Option Nat}
    (hi : ∀ u, s.localAtomic g la (.v n) a .null off xs op f = .ok u → exec i s = .next u.advance)
    (haddr : AddrsOk (s.guardMask g) (wordAddr s a off) 4 (s.g.size .a)) (hr : s.rowFree n.val) : LocalEnd s i := by
  have hok := localAtomic_ok (op := op) (la := la) (f := f) (g := g) (d := .v n) (s := s) (off := off) (data := xs) nofun
    (fun t ht => haddr t (mem_threads.1 ht).1 (mem_threads.1 ht).2)
  obtain ⟨u, v, r, hv, ⟨ws, hst, -⟩, hframe, hmoved, -⟩ := atomInto_v (g := g) (la := la) hq n hr (wordAddr s a off) f
  have hends := endsAt_frame hframe
  rw [hst.frame.sp] at hends
  exact localEnd_of_moved (hi v (hok.trans hv)) (endsAt_trans hst.frame.endsAt hends)
    ((congrArg Wave.accs hframe.wave :).trans (congrArg Wave.accs hst.frame.wave :)) hmoved

/-! ### The addresses of the statement -/

theorem addr_null (s : State) (x : Word) (k : Nat) (y : Word) : x + (s.src .null).at k + y = x + y := by
  rw [src_null, VReg.at_uni]
  exact congrArg (· + _) (BitVec.add_zero _)

end

end Sys2Proof.Proofs
end

section
/-! Global accesses on their way: what sending leaves alone, translation where each page is in a TLB, and the launch of an access
(R175, R176, R178, R319). -/

namespace Sys2Proof.Proofs
open Sys2Proof Sys2Proof.Machine

/-! ### What sending leaves alone -/

/-- From s to u the executing wave, the grids and the bytes stayed as they were. -/
structure Kept (s u : State) : Prop where
  cur : u.cur = s.cur
  live : u.live = true
  w : u.w = s.w
  grids : u.grids = s.grids
  mem : u.mem = s.mem
  ring : u.ring = s.ring

/-- The same, but that elements of the wave's accesses were answered. -/
structure SendFrame (s u : State) : Prop where
  cur : u.cur = s.cur
  live : u.live = true
  wave : u.w = { s.w with accs := u.w.accs }
  count : ∀ p, u.w.count p = s.w.count p
  grids : u.grids = s.grids
  mem : u.mem = s.mem
  ring : u.ring = s.ring

section
variable {s u t : State}

theorem Kept.refl (hl : s.live = true) : Kept s s := ⟨rfl, hl, rfl, rfl, rfl, rfl⟩

theorem Kept.trans (h : Kept s u) (k : Kept u t) : Kept s t :=
  ⟨k.cur.trans h.cur, k.live, k.w.trans h.w, k.grids.trans h.grids, k.mem.trans h.mem, k.ring.trans h.ring⟩

theorem Kept.sp (h : Kept s u) : u.sp = s.sp := by rw [State.sp, State.sp, h.cur, h.w]

theorem Kept.endsAt (h : Kept s u) : EndsAt s u s.sp.pc :=
  ⟨by rw [h.sp], by rw [h.sp], by rw [h.sp], by rw [h.w], by rw [h.w], h.grids, h.mem, h.ring⟩

theorem Kept.send (h : Kept s u) : SendFrame s u :=
  ⟨h.cur, h.live, by rw [h.w], fun p => by rw [h.w], h.grids, h.mem, h.ring⟩

theorem SendFrame.refl (hl : s.live = true) : SendFrame s s := (Kept.refl hl).send

theorem SendFrame.trans (h : SendFrame s u) (k : SendFrame u t) : SendFrame s t :=
  ⟨k.cur.trans h.cur, k.live, k.wave.trans (congrArg (fun w : Wave => { w with accs := t.w.accs }) h.wave),
    fun p => (k.count p).trans (h.count p), k.grids.trans h.grids, k.mem.trans h.mem, k.ring.trans h.ring⟩

theorem SendFrame.sp (h : SendFrame s u) : u.sp = s.sp := by
  rw [State.sp, State.sp, h.cur, Wave.split?, (congrArg Wave.splits h.wave :)]
  rfl

theorem SendFrame.endsAt (h : SendFrame s u) : EndsAt s u s.sp.pc :=
  ⟨by rw [h.sp], by rw [h.sp], by rw [h.sp], (congrArg Wave.handler h.wave :), (congrArg Wave.trapReg h.wave :), h.grids, h.mem, h.ring⟩

theorem kept_of_wave? (hl : s.live = true) (hcur : u.cur = s.cur) (hw : u.wave? s.cur.core s.cur.ctx = s.wave? s.cur.core s.cur.ctx)
    (hgrids : u.grids = s.grids) (hmem : u.mem = s.mem) (hring : u.ring = s.ring) : Kept s u := by
  refine ⟨hcur, (State.live_iff _).2 ?_, ?_, hgrids, hmem, hring⟩
  · rw [hcur, hw]
    exact (State.live_iff _).1 hl
  · rw [State.w, State.wave, hcur, hw]; rfl

theorem kept_modCore (hl : s.live = true) (k : Nat) {f : Core → Core} (hf : ∀ c, (f c).waves = c.waves) : Kept s (s.modCore k f) :=
  kept_of_wave? hl rfl (wave?_of_waves (waves_modCore_keep s k _ hf) _) rfl rfl rfl

theorem kept_modCluster (hl : s.live = true) (k : Nat) (f : Cluster → Cluster) : Kept s (s.modCluster k f) :=
  kept_of_wave? hl rfl (wave?_of_waves (waves_modCluster s k _ f) _) rfl rfl rfl

theorem kept_tlbUse (hl : s.live = true) (k : Nat) (e : TlbE) : Kept s (s.tlbUse k e) :=
  kept_modCore hl k (f := fun c => { c with tlb := tlbPut 48 e c.tlb }) fun _ => rfl

theorem kept_tally (hl : s.live = true) (core ctx ev n : Nat) : Kept s (s.tally core ctx ev n) :=
  kept_of_wave? hl rfl (wave?_of_waves (waves_tally s core _ ctx ev n) _) rfl rfl rfl

theorem waves_dropL1 (s : State) (core pa n k : Nat) : ((s.dropL1 core pa n).core k).waves = (s.core k).waves :=
  waves_modCore_keep s core k fun _ => rfl

theorem kept_dropL1 (hl : s.live = true) (core pa n : Nat) : Kept s (s.dropL1 core pa n) :=
  kept_of_wave? hl rfl (wave?_of_waves (waves_dropL1 s core pa n _) _) rfl rfl rfl

theorem kept_sendReq (hl : s.live = true) (r : Req) : Kept s (s.sendReq r) := kept_of_wave? hl rfl rfl rfl rfl rfl

theorem kept_sendUnit (hl : s.live = true) (r : Req) : Kept s (s.sendUnit r) :=
  kept_of_wave? hl rfl (wave?_of_waves (waves_modCluster { s with nextTag := s.nextTag + 1 } _ _ _) _) rfl rfl rfl

theorem kept_foldl {α : Type} {f : State → α → State} (hf : ∀ v x, v.live = true → Kept v (f v x)) (xs : List α) (hl : s.live = true) :
    Kept s (xs.foldl f s) := by
  induction xs generalizing s with
  | nil => exact .refl hl
  | cons x xs ih => exact (hf s x hl).trans (ih (hf s x hl).live)

/-! ### One element on its way (R166, R309, R319) -/

theorem count_modAcc (w : Wave) (id : Nat) {f : Acc → Acc} (hf : ∀ a, (f a).path = a.path ∧ (f a).op = a.op) (p : Path) :
    (w.modAcc id f).count p = w.count p := by
  have hpred (a : Acc) : ((if a.id = id then f a else a).path == p && !(if a.id = id then f a else a).pathless) = (a.path == p && !a.pathless) := by
    split
    · rw [Acc.pathless, (hf a).1, (hf a).2]; rfl
    · rfl
  rw [Wave.count, Wave.modAcc, List.filter_map, List.length_map, Wave.count]
  exact congrArg List.length (List.filter_congr fun a _ => hpred a)

theorem path_op_setElem (i : Nat) (f : Elem → Elem) (a : Acc) : (a.setElem i f).path = a.path ∧ (a.setElem i f).op = a.op := by
  unfold Acc.setElem
  split <;> exact ⟨rfl, rfl⟩

theorem sendFrame_modElem (hl : s.live = true) {r : Req} (hcore : r.core = s.cur.core) (hctx : r.ctx = s.cur.ctx) (f : Elem → Elem) :
    SendFrame s (s.modElem r f) := by
  have hmod : s.modElem r f = s.modW fun w => w.modAcc r.acc fun a => a.setElem r.elem f := by rw [State.modElem, hcore, hctx]; rfl
  have hlive := s.live_modW (fun w => w.modAcc r.acc fun a => a.setElem r.elem f) fun _ => rfl
  have hw := s.w_modW (fun w => w.modAcc r.acc fun a => a.setElem r.elem f) hl
  rw [hmod]
  exact ⟨rfl, hlive.trans hl, by rw [hw]; rfl, fun p => by rw [hw]; exact count_modAcc _ _ (path_op_setElem r.elem f) p, rfl, rfl, rfl⟩

theorem sendFrame_sendElem (hl : s.live = true) (a : Acc) (i : Nat) {e : Elem} (he : isHostPa e.pa = false) :
    SendFrame s (s.sendElem s.cur.core s.cur.ctx a i e) := by
  have hsend (v : State) (r : Req) (h : Kept s v) : SendFrame s (v.sendReq r) := (h.trans (kept_sendReq h.live r)).send
  unfold State.sendElem
  dsimp only
  rw [he, if_neg Bool.false_ne_true]
  split
  next => exact hsend _ _ (.refl hl)
  next cg _ =>
    split
    · exact hsend _ _ (kept_dropL1 hl _ _ _)
    · split
      next x _ =>
        have htally := kept_tally hl s.cur.core s.cur.ctx 0x08 1
        have huse := htally.trans (kept_modCore htally.live s.cur.core
          (f := fun c => { c with l1 := { x with used := (s.tally s.cur.core s.cur.ctx 0x08 1).tu } :: c.l1.filter (· != x) }) fun _ => rfl)
        refine huse.send.trans (sendFrame_modElem huse.live ?_ ?_ _)
        · split <;> exact congrArg Cursor.core huse.cur.symm
        · split <;> exact congrArg Cursor.ctx huse.cur.symm
      next =>
        have htally := kept_tally hl s.cur.core s.cur.ctx 0x09 1
        exact hsend _ _ (htally.trans (kept_dropL1 htally.live _ _ _))
  next =>
    have hdrop := kept_dropL1 hl s.cur.core e.pa (e.touches a.op)
    split
    · exact (hdrop.trans (kept_sendUnit hdrop.live _)).send
    · exact hsend _ _ hdrop

theorem sendFrame_sendAll (hl : s.live = true) (a : Acc) (he : ∀ e ∈ a.elems, isHostPa e.pa = false) :
    SendFrame s (s.sendAll s.cur.core s.cur.ctx a) := by
  have hmem : ∀ ie ∈ (List.range a.elems.length).zip a.elems, isHostPa ie.2.pa = false := fun ie hie => he _ (List.of_mem_zip hie).2
  unfold State.sendAll
  generalize (List.range a.elems.length).zip a.elems = xs at hmem
  suffices h : ∀ v, SendFrame s v → SendFrame s (xs.foldl (fun s' ie => s'.sendElem s.cur.core s.cur.ctx a ie.1 ie.2) v) from h s (.refl hl)
  induction xs with
  | nil => exact fun v hv => hv
  | cons x xs ih =>
    intro v hv
    have hx := sendFrame_sendElem hv.live a x.1 (hmem x (by simp))
    rw [hv.cur] at hx
    exact ih (fun ie hie => hmem ie (by simp [hie])) _ (hv.trans hx)

end

end Sys2Proof.Proofs
end

section
/-! The launch of an access whose pages are all in a TLB: counted on its path, sent, and its split past it (R169, R175, R178). -/

namespace Sys2Proof.Proofs
open Sys2Proof Sys2Proof.Machine

section
variable {s u t : State} {a : Acc} {la : BitVec 4} {es : List Elem}

/-! ### Translation where each page is at hand (R175, R317) -/

/-- An address whose page a TLB holds, outside the host window. -/
def Paged (s : State) (asid : Nat) (write : Bool) (va : DWord) : Prop :=
  ∃ p, s.lookup s.cur.core asid va write = .page p ∧ isHostPa (p.pa? va.toNat) = false

/-- The elements with their pages. -/
def inPages (s : State) (asid : Nat) (write : Bool) (es : List Elem) : List Elem :=
  es.map fun e => e.inPage (s.lookup s.cur.core asid e.va write)

/-- The elements with what their addresses give. -/
def lookedUp (s : State) (asid : Nat) (write : Bool) (es : List Elem) : List (Elem × Lookup) :=
  es.map fun e => (e, s.lookup s.cur.core asid e.va write)

theorem xlateAll_paged {asid : Nat} {write : Bool} (h : ∀ e ∈ es, Paged s asid write e.va) :
    s.xlateAll s.cur.core asid write es = .all (inPages s asid write es) := by
  have hpage : ∀ r ∈ lookedUp s asid write es, ∃ p, r.2 = .page p := fun r hr => by
    obtain ⟨e, he, rfl⟩ := List.mem_map.1 hr
    obtain ⟨p, hp, -⟩ := h e he
    exact ⟨p, hp⟩
  have hnomiss : ((lookedUp s asid write es).filterMap fun r => if r.2 = .miss then some r.1.va.toNat else none) = [] :=
    List.filterMap_eq_nil_iff.2 fun r hr => by
      obtain ⟨p, hp⟩ := hpage r hr
      simp [hp]
  have hpages : ((lookedUp s asid write es).map fun r => r.1.inPage r.2) = inPages s asid write es := List.map_map
  unfold State.xlateAll
  rw [← lookedUp]
  dsimp only
  split
  next e k hfind =>
    obtain ⟨p, hp⟩ := hpage _ (List.mem_of_find?_eq_some hfind)
    cases hp
  next => exact (if_pos (by rw [hnomiss]; rfl)).trans (congrArg Xlated.all hpages)

theorem notHost_inPages {asid : Nat} {write : Bool} (h : ∀ e ∈ es, Paged s asid write e.va) : ∀ e ∈ inPages s asid write es, isHostPa e.pa = false := by
  intro e he
  obtain ⟨x, hx, rfl⟩ := List.mem_map.1 he
  obtain ⟨p, hp, hhost⟩ := h x hx
  rw [hp]
  exact hhost

/-! ### The launch -/

/-- The instructions whose split does not wait for their answers (R323, R348). -/
def MovesOn (a : Acc) : Prop :=
  match a.op with
  | .push _ _ _ => a.path ≠ .g
  | .task => a.pred = .null
  | _ => True

/-- The registers that an access will write. -/
def accDests (a : Acc) : List Opnd := groupOf a.dst a.regs ++ (match a.pred with | .p n => [.p n] | _ => [])

/-- What a split does once its access is counted: it moves on, with a window for results (R34, R175). -/
def afterCount (s : State) (a : Acc) (la : BitVec 4) (dests : List Opnd) : State :=
  match a.op with
  | .push _ _ _ => if a.path = Path.g then s.wait (.access a.id) else s.advance
  | .bridle => s.advance
  | .task => if a.pred = Opnd.null then s.advance else s.wait (.access a.id)
  | _ => if a.path = Path.g then (s.openWait a.id la dests).advance else s.advance

theorem movedOn_openWait (hl : s.live = true) (acc : Nat) (la : BitVec 4) (ds : List Opnd) : MovedOn s (s.openWait acc la ds).advance :=
  movedOn_modSp hl (fun _ => rfl) fun _ => rfl

theorem movedOn_afterCount (hl : s.live = true) (h : MovesOn a) (la : BitVec 4) (dests : List Opnd) : MovedOn s (afterCount s a la dests) := by
  have hwindow : MovedOn s (if a.path = Path.g then (s.openWait a.id la dests).advance else s.advance) := by
    split
    · exact movedOn_openWait hl _ _ _
    · exact movedOn_advance hl
  unfold MovesOn at h
  unfold afterCount
  cases hop : a.op with
  | push z pop null => rw [hop] at h; simp only [if_neg h]; exact movedOn_advance hl
  | task => rw [hop] at h; simp only [if_pos h]; exact movedOn_advance hl
  | bridle => exact movedOn_advance hl
  | _ => exact hwindow

/-- The core's TLB takes what its cluster's held. -/
def tlbUsed (s : State) (a : Acc) (es : List Elem) : State :=
  es.foldl (fun v e => match v.lookup s.cur.core (v.accSpace s.cur.core s.cur.ctx a).1 e.va false with
    | .page p => v.tlbUse s.cur.core p
    | _ => v) s

theorem kept_tlbUsed (hl : s.live = true) (a : Acc) (es : List Elem) : Kept s (tlbUsed s a es) := by
  refine kept_foldl (fun v e hv => ?_) es hl
  split
  · exact kept_tlbUse hv _ _
  · exact .refl hv

theorem live_addAcc (hl : s.live = true) (a : Acc) : (s.modW fun w => w.addAcc a).live = true :=
  (s.live_modW (fun w => w.addAcc a) fun _ => rfl).trans hl

theorem foldl_id {α β : Type} {f : α → β → α} {xs : List β} (h : ∀ x ∈ xs, ∀ v, f v x = v) (v : α) : xs.foldl f v = v := by
  induction xs generalizing v with
  | nil => rfl
  | cons x xs ih => rw [List.foldl_cons, h x (by simp), ih fun y hy => h y (by simp [hy])]

theorem launchAcc_eq (a : Acc) (la : BitVec 4) (hhost : ∀ e ∈ es, isHostPa e.pa = false) : s.launchAcc a la es =
    (afterCount ((tlbUsed s { a with elems := es } es).modW fun w => w.addAcc { a with elems := es }) { a with elems := es } la
      (accDests a)).sendAll s.cur.core s.cur.ctx { a with elems := es } := by
  have hstale (v : State) : es.foldl (fun s e => if a.op.writes && isHostPa e.pa then s.staleHost e.va.toNat e.len else s) v = v :=
    foldl_id (fun e he v => by rw [hhost e he, Bool.and_false]; rfl) v
  unfold State.launchAcc
  dsimp only
  rw [hstale]
  rfl

/-- An access on its path: its split is past it, one more instruction is counted there, and no register changed. -/
def OnPath (s : State) (p : Path) (t : State) : Prop :=
  EndsAt s t (s.sp.pc + 8) ∧ t.w.count p = s.w.count p + 1 ∧ (∀ o, o ≠ p → t.w.count o = s.w.count o) ∧ t.w.v = s.w.v ∧ t.w.p = s.w.p ∧ t.sp.s = s.sp.s

theorem count_addAcc (w : Wave) {a : Acc} (h : a.pathless = false) (p : Path) : (w.addAcc a).count p = w.count p + if a.path = p then 1 else 0 := by
  rw [Wave.count, Wave.addAcc, List.filter_append, List.length_append, Wave.count]
  by_cases hp : a.path = p <;> simp [hp, h]

theorem onPath_launchAcc (hl : s.live = true) (hmoves : MovesOn { a with elems := es }) (hpath : a.pathless = false)
    (hhost : ∀ e ∈ es, isHostPa e.pa = false) : OnPath s a.path (s.launchAcc a la es) := by
  have hused := kept_tlbUsed hl { a with elems := es } es
  let u := (tlbUsed s { a with elems := es } es).modW fun w => w.addAcc { a with elems := es }
  have hlive : u.live = true := live_addAcc hused.live { a with elems := es }
  have hw : u.w = s.w.addAcc { a with elems := es } := by
    rw [← hused.w]
    exact (tlbUsed s { a with elems := es } es).w_modW _ hused.live
  have hsp : u.sp = s.sp := (sp_modW hused.live rfl).trans hused.sp
  have hadd : EndsAt s u s.sp.pc :=
    ⟨by rw [hsp], by rw [hsp], by rw [hsp], by rw [hw]; rfl, by rw [hw]; rfl, hused.grids, hused.mem, hused.ring⟩
  have hmoved := movedOn_afterCount hlive hmoves la (accDests a)
  have hends := hmoved.ends
  rw [hsp] at hends
  have hcur : (afterCount u { a with elems := es } la (accDests a)).cur = s.cur := by
    rw [hmoved.state]
    exact hused.cur
  have hsent := sendFrame_sendAll (a := { a with elems := es }) hmoved.live hhost
  rw [hcur] at hsent
  have hcount (p : Path) : (s.launchAcc a la es).w.count p = s.w.count p + if a.path = p then 1 else 0 := by
    rw [launchAcc_eq a la hhost]
    refine (hsent.count p).trans ?_
    rw [Wave.count, hmoved.accs, hw]
    exact count_addAcc (a := { a with elems := es }) s.w hpath p
  refine ⟨?_, by rw [hcount, if_pos rfl], fun o ho => by rw [hcount, if_neg ho.symm, Nat.add_zero], ?_, ?_, ?_⟩ <;> rw [launchAcc_eq a la hhost]
  · have hfinal := hsent.endsAt
    rw [hmoved.pc, hsp] at hfinal
    exact endsAt_trans (endsAt_trans hadd hends) hfinal
  · refine (congrArg Wave.v hsent.wave :).trans (hmoved.v.trans ?_)
    rw [hw]; rfl
  · refine (congrArg Wave.p hsent.wave :).trans (hmoved.p.trans ?_)
    rw [hw]; rfl
  · rw [hsent.sp, hmoved.s, hsp]

/-! ### An access goes on (R169, R178) -/

theorem hostScopeBad_none (a : Acc) (h : ∀ e ∈ es, isHostPa e.pa = false) : hostScopeBad a es = none := by
  rw [hostScopeBad, List.find?_eq_none.2 fun e he => by simp [h e he]]
  exact ite_self none

/-- The address space of an instruction that no rendering unit's area concerns. -/
theorem accSpace_grid (hring : ∀ z, a.op ≠ .ring z) (hemit : a.op ≠ .emit) : (s.accSpace s.cur.core s.cur.ctx a).1 = s.gr.d.asid := by
  unfold State.accSpace
  split
  next z h => exact absurd h (hring z)
  next h => exact absurd h hemit
  next => rfl

theorem onPath_goAccess (hl : s.live = true) (hmoves : MovesOn a) (hpath : a.pathless = false)
    (hring : ∀ z, a.op ≠ .ring z) (hemit : a.op ≠ .emit) (hcount : s.w.count a.path < 255)
    (hpaged : ∀ e ∈ a.elems, Paged s s.gr.d.asid a.op.writes e.va) (hrows : s.w.firstShort a.genRegs = none) :
    ∃ t, s.goAccess a la = .ok t ∧ OnPath s a.path t := by
  have hfull : s.counterFull a.path = false := by simpa [State.counterFull] using hcount
  have hhost := notHost_inPages hpaged
  refine ⟨_, ?_, onPath_launchAcc (la := la) hl (es := inPages s s.gr.d.asid a.op.writes a.elems) hmoves hpath hhost⟩
  rw [State.goAccess, accSpace_grid hring hemit, xlateAll_paged hpaged]
  dsimp only
  rw [hostScopeBad_none a hhost]
  simp only [State.accRows, hrows, State.counted, hfull, ok_bind, Bool.false_eq_true, ↓reduceIte]

/-! ### Rows for the results (R26) -/

theorem firstShort_of_rowsFor {n k : Nat} (h : s.rowsFor n k) : s.w.firstShort ((List.range k).map (· + n)) = none := by
  rw [Wave.firstShort, List.getElem?_eq_none_iff]
  rcases h with hall | hroom
  · have hnil : ((List.range k).map (· + n)).filter (fun m => !s.w.rowed m) = [] := List.filter_eq_nil_iff.2 fun m hm => by
      obtain ⟨j, hj, rfl⟩ := List.mem_map.1 hm
      simp [Nat.add_comm j n, hall j (List.mem_range.1 hj)]
    rw [hnil]
    exact Nat.zero_le _
  · have hlen := List.length_filter_le (fun m => !s.w.rowed m) ((List.range k).map (· + n))
    rw [List.length_map, List.length_range] at hlen
    omega

theorem firstShort_nil (w : Wave) : w.firstShort [] = none := rfl

/-- A group of V registers with rows to be had, UNI or GEN. -/
theorem firstShort_genRegs {n : Fin 128} (hd : a.dst = .v n) (hop : a.op ≠ .grid) (h : s.rowsFor n.val a.regs) : s.w.firstShort a.genRegs = none := by
  rw [Acc.genRegs, hd]
  dsimp only
  rw [if_neg hop]
  split
  · exact firstShort_nil _
  · exact firstShort_of_rowsFor h

end

end Sys2Proof.Proofs
end

section
/-! The global, queue and task forms: their checks hold, their elements have pages, and each is launched (R169, R175, R176, R319, R323, R348). -/

namespace Sys2Proof.Proofs
open Sys2Proof Sys2Proof.Machine

section
variable {s : State} {g : Guard} {la : BitVec 4} {d a b c x : Opnd} {n : Fin 128} {off : BitVec 8} {z : Size} {sx cg wide l2 : Bool}

/-! ### Checks -/

/-- An address whose page a TLB holds for reads and for writes, outside the host window. -/
def PagedBoth (s : State) (va : DWord) : Prop :=
  ∃ p, s.lookup s.cur.core s.gr.d.asid va true = .page p ∧ s.lookup s.cur.core s.gr.d.asid va false = .page p ∧ isHostPa (p.pa? va.toNat) = false

theorem paged_of_both {va : DWord} (h : PagedBoth s va) (write : Bool) : Paged s s.gr.d.asid write va := by
  obtain ⟨p, ht, hf, hhost⟩ := h
  cases write with
  | true => exact ⟨p, ht, hhost⟩
  | false => exact ⟨p, hf, hhost⟩

/-- Threads, addresses and uniformity of a global access with a vector destination or none. -/
def gaccessOf (s : State) (g : Guard) (base index : Opnd) (off : BitVec 8) (bytes : Nat) : GAccess :=
  ⟨threads (s.guardMask g), s.globalEa base index off bytes, (s.src base).isUni && (s.srcHi base).isUni && (s.src index).isUni⟩

theorem ts_gaccessOf (s : State) (g : Guard) (base index : Opnd) (off : BitVec 8) (bytes : Nat) :
    (gaccessOf s g base index off bytes).ts = threads (s.guardMask g) := rfl

theorem gaccess_ok {bytes : Nat} {data : Except TrapReq Unit} (hdata : data = .ok ())
    (haddr : ∀ k ∈ threads (s.guardMask g), (s.globalEa a x off bytes k).toNat % bytes = 0) :
    s.gaccess g false a x off bytes data = .ok (gaccessOf s g a x off bytes) := by
  rw [State.gaccess]
  simp only [Bool.not_false, Bool.true_or, check_true, overEach_ok, ok_bind, hdata, performed_vec]
  rw [failThread_ok fun k hk => by simp [haddr k hk]]
  rfl

theorem scalarData_vec (os : List Opnd) : s.scalarData false os wide = .ok () := by
  have hnone : os.find? (fun o => false && !((s.src o).isUni && (!wide || (s.srcHi o).isUni))) = none := List.find?_eq_none.2 fun o _ => by simp
  rw [State.scalarData, hnone]

theorem noElems_some {ts : List Nat} (h : ts ≠ []) (f : Except TrapReq State) : s.noElems ts f = f := by
  rw [State.noElems, if_neg (by simpa using h)]

theorem counted_room {p : Path} (h : s.w.count p < 255) (f : Except TrapReq State) : s.counted p f = f := by
  have hfull : s.counterFull p = false := by simpa [State.counterFull] using h
  rw [State.counted, hfull]; rfl

theorem scalar64_ok (hlo : (s.src a).isUni = true) (hhi : (s.srcHi a).isUni = true) : s.scalar64 a = .ok (s.at64 a 0) := by
  simp only [State.scalar64, scalar_of_isUni hlo, ok_bind, hhi, check_true]
  rfl

theorem queueAddr_ok {ts : List Nat} (hlo : (s.src a).isUni = true) (hhi : (s.srcHi a).isUni = true) (hq : (s.at64 a 0).toNat % 128 = 0) :
    s.queueAddr a ts = .ok (s.at64 a 0) := by
  have hfail (e : Nat → TrapReq) : failThread ts (fun _ => (s.at64 a 0).toNat % 128 != 0) e = .ok () := failThread_ok (fun t _ => by simp [hq]) e
  simp only [State.queueAddr, scalar64_ok hlo hhi, lowest_ok, ok_bind, hfail, ite_self]

/-! ### The instructions -/

theorem runs_isaCtl {i : Instr} {F : State → Except TrapReq State} {P : State → Prop} (hl : s.live = true) (hi : exec i = isaCtl F)
    (h : ∃ t, F s = .ok t ∧ P t) : Runs i s P := by
  obtain ⟨t, ht, hp⟩ := h
  exact ⟨t, by rw [hi, isaCtl_ok hl ht], hp⟩

/-- Every element of a list made of some threads lies in a page. -/
theorem paged_map {ts us : List Nat} {f : Nat → Elem} {ea : Nat → DWord} {write : Bool} (hva : ∀ k, (f k).va = ea k)
    (hsub : ∀ k ∈ us, k ∈ ts) (h : ∀ k ∈ ts, PagedBoth s (ea k)) : ∀ e ∈ us.map f, Paged s s.gr.d.asid write e.va := by
  intro e he
  obtain ⟨k, hk, rfl⟩ := List.mem_map.1 he
  rw [hva]
  exact paged_of_both (h k (hsub k hk)) write

section
variable (hl : s.live = true) (hne : threads (s.guardMask g) ≠ [])
include hl hne

theorem onPath_stG {o : LocalOp} (hg : o.g = g)
    (hreach : ∀ k ∈ threads (s.guardMask o.g), (s.globalEa o.a o.b o.off o.size.bytes k).toNat % o.size.bytes = 0 ∧ PagedBoth s (s.globalEa o.a o.b o.off o.size.bytes k))
    (hcount : s.w.count .s < 255) : Runs (.stG o) s (OnPath s .s) := by
  subst hg
  refine runs_isaCtl hl (rfl : execStG o = _) ?_
  simp only [gaccess_ok rfl fun k hk => (hreach k hk).1, ok_bind, ts_gaccessOf]
  rw [noElems_some hne, counted_room hcount]
  exact onPath_goAccess hl trivial rfl nofun nofun hcount (paged_map (fun _ => rfl) (fun _ hk => hk) fun k hk => (hreach k hk).2) rfl

theorem onPath_ldG {o : LocalOp} (hg : o.g = g) (hd : o.d = .v n)
    (hreach : ∀ k ∈ threads (s.guardMask o.g), (s.globalEa o.a o.b o.off o.size.bytes k).toNat % o.size.bytes = 0 ∧ PagedBoth s (s.globalEa o.a o.b o.off o.size.bytes k))
    (hrows : s.rowsFor n.val o.size.regs) (hcount : s.w.count .g < 255) : Runs (.ldG o cg) s (OnPath s .g) := by
  subst hg
  have hsc : scalarDst o.d = false := by rw [hd]; rfl
  refine runs_isaCtl hl (rfl : execLdG o cg = _) ?_
  simp only [hsc, gaccess_ok rfl fun k hk => (hreach k hk).1, ok_bind, ts_gaccessOf]
  rw [noElems_some hne, counted_room hcount]
  refine onPath_goAccess hl trivial rfl nofun nofun hcount (paged_map (fun _ => rfl) (fun k hk => ?_) fun k hk => (hreach k hk).2)
    (firstShort_genRegs hd nofun hrows)
  split at hk
  · exact List.mem_of_mem_take hk
  · exact hk

/-- Atomics with a vector destination or none, whatever their operation. -/
theorem onPath_issueAtomic {op : ElemOp} {xs : List Opnd} {sc : Scope} {new cmp : Opnd} (hd : scalarDst d = false)
    (hmoves : ∀ acc : Acc, acc.op = op → MovesOn acc ∧ acc.pathless = false) (hring : ∀ z, op ≠ .ring z) (hemit : op ≠ .emit)
    (hreach : ∀ k ∈ threads (s.guardMask g), (s.globalEa a .null off (if wide then 8 else 4) k).toNat % (if wide then 8 else 4) = 0 ∧
      PagedBoth s (s.globalEa a .null off (if wide then 8 else 4) k))
    (hrows : ∀ acc : Acc, acc.op = op → acc.dst = d → acc.regs = (if wide then 2 else 1) → s.w.firstShort acc.genRegs = none)
    (hcount : s.w.count (if d = .null then .s else .g) < 255) :
    ∃ t, s.issueAtomic g la d a off xs op wide sc new cmp = .ok t ∧ OnPath s (if d = .null then .s else .g) t := by
  simp only [State.issueAtomic, hd, gaccess_ok (scalarData_vec xs) fun k hk => (hreach k hk).1, ok_bind, ts_gaccessOf]
  rw [noElems_some hne, counted_room hcount]
  exact onPath_goAccess hl (hmoves _ rfl).1 (hmoves _ rfl).2 hring hemit hcount (paged_map (fun _ => rfl) (fun _ hk => hk) fun k hk => (hreach k hk).2)
    (hrows _ rfl rfl rfl)

theorem onPath_atomG_null {op : AtomOp} {sc : Scope}
    (hreach : ∀ k ∈ threads (s.guardMask g), (s.globalEa a .null off (if wide then 8 else 4) k).toNat % (if wide then 8 else 4) = 0 ∧
      PagedBoth s (s.globalEa a .null off (if wide then 8 else 4) k))
    (hcount : s.w.count .s < 255) : Runs (.atomG g la .null a b off op wide sc) s (OnPath s .s) :=
  runs_isaCtl hl (rfl : execAtomG g la .null a b off op wide sc = _) (onPath_issueAtomic hl hne rfl
    (fun acc h => by simp [MovesOn, Acc.pathless, h]) nofun nofun hreach (fun acc _ hdst _ => by rw [Acc.genRegs, hdst]; rfl) hcount)

theorem onPath_casG_null {sc : Scope}
    (hreach : ∀ k ∈ threads (s.guardMask g), (s.globalEa a .null 0 (if wide then 8 else 4) k).toNat % (if wide then 8 else 4) = 0 ∧
      PagedBoth s (s.globalEa a .null 0 (if wide then 8 else 4) k))
    (hcount : s.w.count .s < 255) : Runs (.casG g la .null a b c wide sc) s (OnPath s .s) :=
  runs_isaCtl hl (rfl : execCasG g la .null a b c wide sc = _) (onPath_issueAtomic hl hne rfl
    (fun acc h => by simp [MovesOn, Acc.pathless, h]) nofun nofun hreach (fun acc _ hdst _ => by rw [Acc.genRegs, hdst]; rfl) hcount)

theorem onPath_atomG_v {op : AtomOp} {sc : Scope}
    (hreach : ∀ k ∈ threads (s.guardMask g), (s.globalEa a .null off (if wide then 8 else 4) k).toNat % (if wide then 8 else 4) = 0 ∧
      PagedBoth s (s.globalEa a .null off (if wide then 8 else 4) k))
    (hrows : s.rowsFor n.val (if wide then 2 else 1)) (hcount : s.w.count .g < 255) : Runs (.atomG g la (.v n) a b off op wide sc) s (OnPath s .g) :=
  runs_isaCtl hl (rfl : execAtomG g la (.v n) a b off op wide sc = _) (onPath_issueAtomic hl hne rfl
    (fun acc h => by simp [MovesOn, Acc.pathless, h]) nofun nofun hreach
    (fun acc hop hdst hregs => firstShort_genRegs hdst (by rw [hop]; nofun) (by rw [hregs]; exact hrows)) hcount)

theorem onPath_casG_v {sc : Scope}
    (hreach : ∀ k ∈ threads (s.guardMask g), (s.globalEa a .null 0 (if wide then 8 else 4) k).toNat % (if wide then 8 else 4) = 0 ∧
      PagedBoth s (s.globalEa a .null 0 (if wide then 8 else 4) k))
    (hrows : s.rowsFor n.val (if wide then 2 else 1)) (hcount : s.w.count .g < 255) : Runs (.casG g la (.v n) a b c wide sc) s (OnPath s .g) :=
  runs_isaCtl hl (rfl : execCasG g la (.v n) a b c wide sc = _) (onPath_issueAtomic hl hne rfl
    (fun acc h => by simp [MovesOn, Acc.pathless, h]) nofun nofun hreach
    (fun acc hop hdst hregs => firstShort_genRegs hdst (by rw [hop]; nofun) (by rw [hregs]; exact hrows)) hcount)

/-! ### Queues and tasks (R322, R323, R348) -/

section
variable (hlo : (s.src a).isUni = true) (hhi : (s.srcHi a).isUni = true) (hq : (s.at64 a 0).toNat % 128 = 0) (hpage : PagedBoth s (s.at64 a 0))
include hlo hhi hq hpage

theorem onPath_qpush (hcount : s.w.count .s < 255) : Runs (.qpush g .null a b z) s (OnPath s .s) := by
  refine runs_isaCtl hl (rfl : execQpush g .null a b z = _) ?_
  simp only [queueAddr_ok hlo hhi hq, ok_bind, ↓reduceIte]
  rw [noElems_some hne, counted_room hcount]
  exact onPath_goAccess hl nofun rfl nofun nofun hcount (paged_map (ea := fun _ => s.at64 a 0) (fun _ => rfl) (fun _ hk => hk) fun _ _ => hpage) rfl

theorem onPath_qpop (hrows : s.rowsFor n.val z.regs) (hcount : s.w.count .g < 255) : Runs (.qpop g la (.v n) a c z) s (OnPath s .g) := by
  refine runs_isaCtl hl (rfl : execQpop g la (.v n) a c z = _) ?_
  simp only [queueAddr_ok hlo hhi hq, ok_bind]
  rw [noElems_some hne, counted_room hcount]
  exact onPath_goAccess hl trivial rfl nofun nofun hcount (paged_map (ea := fun _ => s.at64 a 0) (fun _ => rfl) (fun _ hk => hk) fun _ _ => hpage)
    (firstShort_genRegs rfl nofun hrows)

theorem onPath_task (hblo : (s.src b).isUni = true) (hbhi : (s.srcHi b).isUni = true) (h8 : (s.at64 b 0).toNat % 8 = 0) (hcount : s.w.count .s < 255) :
    Runs (.task g .null a b c) s (OnPath s .s) := by
  have hfail (e : Nat → TrapReq) : failThread (threads (s.guardMask g)) (fun _ => (s.at64 b 0).toNat % 8 != 0) e = .ok () :=
    failThread_ok (fun t _ => by simp [h8]) e
  refine runs_isaCtl hl (rfl : execTask g .null a b c = _) ?_
  simp only [scalar64_ok hlo hhi, scalar64_ok hblo hbhi, queueAddr_ok hlo hhi hq, ok_bind, hfail, ↓reduceIte]
  rw [noElems_some hne, counted_room hcount]
  exact onPath_goAccess hl rfl rfl nofun nofun hcount (paged_map (ea := fun _ => s.at64 a 0) (fun _ => rfl) (fun _ hk => hk) fun _ _ => hpage) rfl

end

end

/-! ### pref.g (R176) -/

theorem kept_prefElem (hl : s.live = true) (l2 : Bool) (va : DWord) : Kept s (s.prefElem l2 va) := by
  unfold State.prefElem
  split
  · exact .refl hl
  · next e _ =>
    have huse := kept_tlbUse hl s.cur.core e
    have hask (lease : Option Nat) (pa p : Nat) := huse.trans (kept_sendReq huse.live
      ((s.tlbUse s.cur.core e).waveReq s.cur.core s.cur.ctx 0 0 pa p (.pref lease)))
    dsimp only
    split
    · exact huse
    · split
      · exact hask ..
      · split
        · exact huse
        · exact hask ..

/-- An address that some TLB answers is not one that is still to be walked for. -/
theorem xlate_of_lookup {va : DWord} (h : s.lookup s.cur.core s.gr.d.asid va false ≠ .miss) {k : Nat}
    (hk : s.xlate s.cur.core s.w.grid va false false = .error k) : (k == kindLater) = false := by
  have hgrid : (s.grid s.w.grid).d.asid = s.gr.d.asid := rfl
  rw [State.xlate, State.xlateIn, hgrid] at hk
  rw [State.lookup] at h
  split at hk
  · cases hk; rfl
  · rename_i hva
    rw [if_neg hva] at h
    split at hk
    · simp at hk
    · rename_i hnone
      rw [hnone] at h
      exact absurd rfl h

theorem runs_prefG (hl : s.live = true) (h : ∀ k ∈ threads (s.guardMask g), s.lookup s.cur.core s.gr.d.asid (s.globalEa a x off 1 k) false ≠ .miss) :
    Runs (.prefG g a x off l2) s fun t => EndsAt s t (s.sp.pc + 8) ∧ t.w.v = s.w.v ∧ t.w.accs = s.w.accs := by
  have hsent := kept_foldl (f := fun v k => v.prefElem l2 (s.globalEa a x off 1 k)) (fun v k hv => kept_prefElem hv l2 _) (threads (s.guardMask g)) hl
  have hgone : Kept s ((threads (s.guardMask g)).foldl (fun v k => v.prefElem l2 (s.globalEa a x off 1 k)) s).faultsGone :=
    hsent.trans (kept_of_wave? hsent.live rfl rfl rfl rfl rfl)
  have hmoved := movedOn_advance hgone.live
  have hends := hmoved.ends
  rw [hgone.sp] at hends
  refine ⟨_, ?_, endsAt_trans hgone.endsAt hends, hmoved.v.trans (by rw [hgone.w]), hmoved.accs.trans (by rw [hgone.w])⟩
  change execPrefG g a x off l2 s = _
  refine isa_ok hl ?_
  dsimp only
  rw [failThread_ok fun k hk => ?_, ok_bind]
  split
  next hx => exact xlate_of_lookup (h k hk) hx
  next => rfl

end

/-- Settles O60: the local forms, and then the forms that send. -/
theorem memoryFormsComplete : Obligations.MemoryFormsComplete := by
  unfold Obligations.MemoryFormsComplete
  refine ⟨fun s g la d a b data c n off z sx op hq => ⟨fun haddr => ⟨localEnd_stA hq haddr, fun hd hrows => ?_⟩, fun haddr hrole hd hrows => ?_,
    fun haddr hrole tile htile _ => ?_, fun haddr hd hr => ?_⟩, fun s g la d a b c x n off z sx cg wide l2 op sc hq hm => ?_⟩
  · exact localEnd_load hq rfl hd rfl haddr hrows
  · exact localEnd_load hq rfl hd ((roleReaches_iff (.inr rfl)).2 (.inr hrole)) haddr hrows
  · simp only [addr_null] at haddr
    exact ⟨localEnd_stC hq hrole htile haddr, fun hd hrows => by subst hd; exact localEnd_ldC hq hrole htile haddr hrows⟩
  · simp only [addr_null] at haddr
    subst hd
    refine ⟨localEnd_atomic hq (fun u h => exec_atomA hq.1 h) haddr hr, fun hoff => ?_⟩
    subst hoff
    exact localEnd_atomic hq (fun u h => exec_casA hq.1 h) haddr hr
  · have hne := threads_ne_nil hm
    refine ⟨fun hreach => ⟨onPath_stG hq.1 hne rfl hreach, fun hrows => onPath_ldG hq.1 hne rfl rfl hreach hrows⟩, runs_prefG hq.1,
      fun hreach => ⟨onPath_atomG_null hq.1 hne hreach, onPath_atomG_v hq.1 hne hreach, fun hoff => ?_⟩, fun hlo hhi h128 hpage => ?_⟩
    · subst hoff
      exact ⟨onPath_casG_null hq.1 hne hreach, onPath_casG_v hq.1 hne hreach⟩
    · exact ⟨onPath_qpush hq.1 hne hlo hhi h128 hpage, onPath_qpop hq.1 hne hlo hhi h128 hpage, fun hblo hbhi h8 =>
        onPath_task hq.1 hne hlo hhi h128 hpage hblo hbhi h8⟩

end Sys2Proof.Proofs
end

section
/-! What barriers, traps and the end of a wave leave alone: the A-buffers and their tags, the exchanges of clusters, and the shadow banks
(R160, R182, R183, R247, R248). -/

namespace Sys2Proof.Proofs
open Sys2Proof Sys2Proof.Machine

/-- From s to t no A-buffer or tag of one changed, nor the exchange of a cluster, nor a shadow bank. -/
structure Untouched (s t : State) : Prop where
  a : ∀ g, (t.wg g).a = (s.wg g).a
  ta : ∀ g, (t.wg g).ta = (s.wg g).ta
  group : ∀ k, t.group k = s.group k
  shadow : ∀ k, (t.core k).shadow = (s.core k).shadow

section
variable {s t u : State}

theorem Untouched.refl (s : State) : Untouched s s := ⟨fun _ => rfl, fun _ => rfl, fun _ => rfl, fun _ => rfl⟩

theorem Untouched.trans (h : Untouched s t) (k : Untouched t u) : Untouched s u :=
  ⟨fun g => (k.a g).trans (h.a g), fun g => (k.ta g).trans (h.ta g), fun j => (k.group j).trans (h.group j),
    fun j => (k.shadow j).trans (h.shadow j)⟩

/-! ### The primitive updates -/

theorem untouched_of_eq (hwgs : t.wgs = s.wgs) (hcores : t.cores = s.cores) (hclusters : t.clusters = s.clusters) (htu : t.tu = s.tu) :
    Untouched s t :=
  ⟨fun g => by rw [wg_of_wgs hwgs], fun g => by rw [wg_of_wgs hwgs], fun k => by rw [State.group, State.cluster, hclusters]; rfl,
    fun k => by rw [core_congr hcores hclusters htu]⟩

theorem untouched_modCore (s : State) (k : Nat) {f : Core → Core} (hf : ∀ c, (f c).shadow = c.shadow) : Untouched s (s.modCore k f) := by
  refine ⟨fun _ => rfl, fun _ => rfl, fun _ => rfl, fun j => ?_⟩
  by_cases hj : j = k
  · subst hj; rw [State.core_modCore, hf]
  · rw [State.core_modCore_ne _ _ hj]

theorem untouched_modWave (s : State) (core ctx : Nat) (f : Wave → Wave) : Untouched s (s.modWave core ctx f) :=
  untouched_modCore s core fun _ => rfl

theorem shadow_modCluster (s : State) (k j : Nat) (f : Cluster → Cluster) : ((s.modCluster k f).core j).shadow = (s.core j).shadow := by
  simp only [State.core, State.modCluster_cores]
  cases look s.cores j <;> rfl

theorem untouched_modCluster (s : State) (k : Nat) {f : Cluster → Cluster} (hf : ∀ c, (f c).group = c.group) : Untouched s (s.modCluster k f) := by
  refine ⟨fun _ => rfl, fun _ => rfl, fun j => ?_, fun j => shadow_modCluster s k j f⟩
  by_cases hj : j = k
  · subst hj; rw [State.group, State.cluster_modCluster, hf]; rfl
  · rw [State.group, State.cluster_modCluster_ne _ _ hj]; rfl

theorem untouched_modWg (s : State) (k : Nat) {f : WGrp → WGrp} (ha : ∀ g, (f g).a = g.a) (hta : ∀ g, (f g).ta = g.ta) :
    Untouched s (s.modWg k f) := by
  have hkeep {α : Type} (p : WGrp → α) (hp : ∀ g, p (f g) = p g) (j : Nat) : p ((s.modWg k f).wg j) = p (s.wg j) := by
    by_cases hj : j = k
    · subst hj
      simp only [State.wg, State.look_modWg]
      cases look s.wgs j with
      | none => rfl
      | some g => exact hp g
    · rw [State.wg_modWg_ne _ _ hj]
  exact ⟨hkeep _ ha, hkeep _ hta, fun _ => rfl, fun _ => rfl⟩

theorem untouched_modGrid (s : State) (k : Nat) (f : Grid → Grid) : Untouched s (s.modGrid k f) :=
  ⟨fun _ => rfl, fun _ => rfl, fun _ => rfl, fun _ => rfl⟩

theorem look_map {α : Type} (m : AMap α) (f : α → α) (j : Nat) : look (m.map fun e => (e.1, f e.2)) j = (look m j).map f := by
  induction m with
  | nil => rfl
  | cons e m ih =>
    obtain ⟨k, v⟩ := e
    by_cases h : k = j <;> simp [look, h, ih]

/-- A change of every core there is. -/
theorem untouched_cores (s : State) {f : Core → Core} (hf : ∀ c, (f c).shadow = c.shadow) :
    Untouched s { s with cores := s.cores.map fun e => (e.1, f e.2) } := by
  refine ⟨fun _ => rfl, fun _ => rfl, fun _ => rfl, fun j => ?_⟩
  have hcore : ({ s with cores := s.cores.map fun e => (e.1, f e.2) } : State).core j =
      ((look s.cores j).map f).getD ((s.cluster (j / 16)).idleCore s.tu) := by rw [State.core, look_map]; rfl
  rw [hcore, State.core]
  cases look s.cores j with
  | none => rfl
  | some c => exact hf c

theorem untouched_modWaves (s : State) (wg : Nat) (f : Wave → Wave) : Untouched s (s.modWaves wg f) :=
  untouched_cores s (f := fun c => { c with waves := c.waves.map fun w => if w.2.wg = wg then (w.1, f w.2) else w }) fun _ => rfl

theorem untouched_foldl {α : Type} {f : State → α → State} (hf : ∀ v x, Untouched v (f v x)) (xs : List α) (s : State) : Untouched s (xs.foldl f s) := by
  induction xs generalizing s with
  | nil => exact .refl s
  | cons x xs ih => exact (hf s x).trans (ih _)

/-! ### Records (R409) -/

theorem untouched_physPuts (s : State) (pa : Nat) (bs : List Byte) : Untouched s (s.physPuts pa bs) := by
  induction bs generalizing s pa with
  | nil => exact .refl s
  | cons b bs ih =>
    refine Untouched.trans ?_ (ih (s.physPut pa b) (pa + 1))
    unfold State.physPut
    split <;> exact ⟨fun _ => rfl, fun _ => rfl, fun _ => rfl, fun _ => rfl⟩

theorem untouched_ringPut (s : State) (pa : Nat) (r : List Byte) : Untouched s (s.ringPut pa r) := by
  unfold State.ringPut
  simp only
  split
  · exact (untouched_physPuts ..).trans (untouched_physPuts ..)
  · exact untouched_physPuts ..

theorem untouched_record (s : State) (cls : Nat) (r : RecInfo) : Untouched s (s.record cls r) := by
  have hlog : Untouched s (logged s (recordBytes s.dtc cls r)) := by
    unfold logged
    split
    · exact untouched_ringPut ..
    · exact .refl s
  rw [record_eq]
  exact hlog.trans (untouched_of_eq rfl rfl rfl rfl)

/-! ### The end of a wave, a workgroup and a grid (R152, R248) -/

theorem untouched_noteLeft (s : State) (core prio : Nat) : Untouched s (s.noteLeft core prio) := untouched_modCluster s _ fun _ => rfl

/-- A workgroup whose last wave has gone ends. -/
theorem untouched_ended (s : State) (k j : Nat) :
    Untouched s ((s.modWg k fun g => { g with ended := true, core := none }).modGrid j fun r => { r with done := r.done + 1 }) :=
  (untouched_modWg s k (f := fun g => { g with ended := true, core := none }) (fun _ => rfl) fun _ => rfl).trans (untouched_modGrid ..)

theorem untouched_reap (s : State) (core ctx : Nat) : Untouched s (s.reap core ctx) := by
  unfold State.reap
  split
  · exact .refl s
  · rename_i w _
    split
    · have hleft := ((untouched_modCore s core (f := fun c => { c with waves := erase c.waves ctx }) fun _ => rfl).trans
        (untouched_noteLeft _ core w.prio)).trans (untouched_modWg _ w.wg (f := fun g => { g with live := g.live - 1 }) (fun _ => rfl) fun _ => rfl)
      simp only
      split
      · exact hleft.trans (untouched_ended ..)
      · exact hleft
    · exact .refl s

theorem untouched_dropSaved (s : State) (f : Saved → Bool) : Untouched s (s.dropSaved f) := by
  refine untouched_foldl (fun v x => ?_) _ s
  have hdrop : Untouched v ({ v with saved := v.saved.filter fun y => y != x } : State) := untouched_of_eq rfl rfl rfl rfl
  have hsaved := hdrop.trans (untouched_modWg _ x.wg (f := fun g => { g with saved := g.saved - 1 }) (fun _ => rfl) fun _ => rfl)
  simp only
  split
  · exact hsaved.trans (untouched_ended ..)
  · exact hsaved

theorem untouched_endGrid (s : State) (gid : Nat) : Untouched s (s.endGrid gid) :=
  ((untouched_modGrid s gid _).trans (untouched_dropSaved ..)).trans
    (untouched_foldl (fun v _ => (untouched_modWave v _ _ _).trans (untouched_reap ..)) _ _)

/-! ### Barriers (R182, R183) -/

theorem untouched_forgetSplit (s : State) (core ctx id : Nat) : Untouched s (s.forgetSplit core ctx id) := by
  have hasked (wf : List WalkFault) (as : List Ask) : Untouched s { s with walkFaults := wf, asks := as } := untouched_of_eq rfl rfl rfl rfl
  unfold State.forgetSplit
  dsimp only
  exact (hasked ..).trans (untouched_modCore _ core
    (f := fun c => { c with il := c.il.filter (·.2), wants := c.wants.filter fun w => !(w.ctx == ctx && w.split == id) }) fun _ => rfl)

/-- A trap that neither asks for a page nor is a breakpoint. -/
theorem untouched_raiseAt (s : State) (core ctx id : Nat) (t : TrapReq) (at_ : TrapAt) (hlater : t.code ≠ tcLater) (hbrk : t.code % 256 ≠ tcBreak) :
    Untouched s (s.raiseAt core ctx id t at_) := by
  have hforget := untouched_forgetSplit s core ctx id
  have hrec (v : State) (b : Bool) (cls : Nat) (addr : DWord) (virt unc : Bool) (detail : Nat) :
      Untouched v (if b then v.recordWave core ctx cls addr virt unc detail else v) := by
    split
    · exact untouched_record ..
    · exact .refl v
  unfold State.raiseAt
  rw [if_neg hlater]
  simp only
  split
  · exact hforget.trans (untouched_modWave ..)
  · split
    · exact (hforget.trans (hrec ..)).trans (untouched_modWave ..)
    · split
      next h => exact absurd h (by simp [hbrk])
      next => exact (hforget.trans (hrec ..)).trans (untouched_endGrid ..)

theorem untouched_overrun (s : State) (k : Nat) (b : Bar) (c : Cursor) (par : Bool) : Untouched s (s.overrun k b c par) := by
  unfold State.overrun
  simp only
  split
  · exact .refl s
  · split
    · exact untouched_modWave ..
    · exact untouched_raiseAt _ _ _ _ _ _ (show tcOverrun ≠ tcLater by decide) (show tcOverrun % 256 ≠ tcBreak by decide)

theorem untouched_modBar (s : State) (wg k : Nat) (f : Bar → Bar) : Untouched s (s.modBar wg k f) :=
  untouched_modWg s wg (f := fun g => { g with bars := g.bars.set k (f (g.bar k)) }) (fun _ => rfl) fun _ => rfl

theorem untouched_barError (s : State) (wg k cause : Nat) (addr : DWord) (virt unc : Bool) : Untouched s (s.barError wg k cause addr virt unc) :=
  ((untouched_modBar ..).trans (untouched_record ..)).trans (untouched_foldl (fun v _ => untouched_overrun v ..) _ _)

theorem untouched_acquireVia (s : State) (core wg idx : Nat) (v : Via) : Untouched s (s.acquireVia core wg idx v) :=
  untouched_modCore s core (f := fun c => { c with unf := c.unf.map fun u => u.acquired wg idx v }) fun _ => rfl

theorem untouched_releaseBar (s : State) (wg k : Nat) (par : Bool) (t : DWord) : Untouched s (s.releaseBar wg k par t) := by
  unfold State.releaseBar
  refine Untouched.trans ?_ (untouched_modWaves _ wg _)
  exact untouched_foldl (fun v _ => untouched_acquireVia v ..) _ s

theorem untouched_barCheck (wg k n : Nat) (s : State) : Untouched s (State.barCheck wg k n s) := by
  induction n generalizing s with
  | zero => exact .refl s
  | succ n ih =>
    rw [State.barCheck]
    simp only
    split
    · exact .refl s
    · split
      · exact ((untouched_releaseBar ..).trans (untouched_modBar ..)).trans (ih _)
      · split
        · exact untouched_barError ..
        · exact .refl s

theorem untouched_barCount (s : State) (wg k : Nat) (q : Bool) (d : Int) (f : Bar → Bar) : Untouched s (s.barCount wg k q d f) := by
  have hset := untouched_modBar s wg k fun b => f (b.setCnt q (clampCnt ((s.bar wg k).cnt q + d)).1)
  unfold State.barCount
  simp only
  split
  · exact (hset.trans (untouched_barError ..)).trans (untouched_barCheck ..)
  · exact hset.trans (untouched_barCheck ..)

theorem untouched_barBytes (s : State) (wg k : Nat) (q : Bool) (n : Nat) (t : Option DWord) : Untouched s (s.barBytes wg k q n t) :=
  untouched_barCount ..

theorem untouched_completeAcc (s : State) (core ctx id : Nat) (p : Path) : Untouched s (s.completeAcc core ctx id p) :=
  (untouched_modWave ..).trans (untouched_reap ..)

end

end Sys2Proof.Proofs
end

section
/-! Ring rotation: arrivals, the generation that reads each neighbour's tile, and the tile written whole (R266 to R270). -/

namespace Sys2Proof.Proofs
open Sys2Proof Sys2Proof.Machine

section
variable {s t : State}

/-! ### The exchange of a cluster -/

theorem group_modGroup (s : State) (k : Nat) (f : Group → Group) : (s.modGroup k f).group k = f (s.group k) := by
  rw [State.group, State.modGroup, State.cluster_modCluster]; rfl

theorem member_modMember {g : Group} {m : Nat} (h : m < g.members.length) (f : Member → Member) :
    (g.modMember m f).member m = f (g.member m) := by
  rw [Group.modMember, Group.member, getD_set_self _ h]

theorem kept_modGroup (hl : s.live = true) (k : Nat) (f : Group → Group) : Kept s (s.modGroup k f) := kept_modCluster hl k _

/-! ### rrot (R269) -/

theorem barK_ok {k : BitVec 6} (h : k.toNat < s.g.bars.length) : s.barK k = .ok k.toNat := by
  rw [State.barK, decide_eq_true h]; rfl

/-- The arrival that an rrot registers. -/
theorem runs_rrot {a b : Opnd} {k : BitVec 6} (hq : s.quiet) (hx : s.g.xbind = true) (hk : k.toNat < s.g.bars.length) (ha : (s.src a).isUni = true)
    (hb : (s.src b).isUni = true) (had : ((s.src a).at 0).toNat % 1024 = 0) (hbd : ((s.src b).at 0).toNat % 1024 = 0)
    (hain : ((s.src a).at 0).toNat + 1024 ≤ s.g.size .a) (hbin : ((s.src b).at 0).toNat + 1024 ≤ s.g.size .a) :
    exec (.rrot a b k) s = .next (if 4 ≤ ((s.group s.k).member s.m).rrot.length then s.stall
      else s.advance.modGroup s.k fun g => g.modMember s.m fun y =>
        { y with rrot := y.rrot ++ [⟨((s.src a).at 0).toNat, ((s.src b).at 0).toNat, k.toNat⟩] }) := by
  change execRrot a b k s = _
  refine isaCtl_ok hq.1 ?_
  simp only [barK_ok hk, ok_bind, hx, check_true, scalar_of_isUni ha, scalar_of_isUni hb, had, hbd, decide_eq_true hain, decide_eq_true hbin,
    beq_self_eq_true]
  split <;> rfl

theorem sp_stall (hl : s.live = true) : s.stall.sp = s.sp.stalled := sp_modSp hl fun p => by
  unfold Split.stalled Split.rewind
  split <;> rfl

theorem pc_stalled {p : Split} (h : p.pfx = none) : p.stalled.pc = p.pc := by
  rw [Split.stalled, Split.rewind, h]

/-! ### A generation starts (R269, R270) -/

theorem mem_liveMembers {cl m : Nat} : m ∈ s.liveMembers cl ↔ m < 16 ∧ (s.liveMember cl m).isSome = true := by
  simp [State.liveMembers]

/-- A generation takes the first arrival of every member, and what each receives. -/
def rotated (s : State) (cl : Nat) (g : Group) : Group :=
  { g with xfers := (List.range 16).filterMap (s.rrotXfer cl), rrotGen := g.rrotGen + 1, members := g.members.map fun y => { y with rrot := y.rrot.drop 1 } }

theorem exec_rrotGenerationStart {cl : Nat} (hx : (s.group cl).xfers = []) (hne : s.liveMembers cl ≠ [])
    (harr : ∀ m ∈ s.liveMembers cl, ((s.group cl).member m).rrot ≠ []) :
    exec (.rrotGenerationStart cl) s = .next (s.modGroup cl (rotated s cl)) := by
  change execRrotGenerationStart cl s = _
  refine event_some ?_
  have hany : (s.liveMembers cl).any (fun m => ((s.group cl).member m).rrot.isEmpty) = false := by
    simpa [List.any_eq_false] using harr
  have hempty : (s.liveMembers cl).isEmpty = false := by simpa using hne
  simp only [hx, hany, hempty, List.isEmpty_nil, Bool.not_true, Bool.or_self, Bool.false_eq_true, ↓reduceIte]
  rfl

theorem rrot_rotated (s : State) (cl m : Nat) : ((rotated s cl (s.group cl)).member m).rrot = ((s.group cl).member m).rrot.drop 1 := by
  rw [rotated, Group.member, Group.member, List.getD_eq_getElem?_getD, List.getD_eq_getElem?_getD, List.getElem?_map]
  cases (s.group cl).members[m]? <;> rfl

/-- What a live member with an arrival receives: whole from a live neighbour's tile. -/
theorem rrotXfer_of_live {cl m wg : Nat} {own : RrotArr} (hm : s.liveMember cl m = some wg) (hown : ((s.group cl).member m).rrot.head? = some own) :
    ∃ x, s.rrotXfer cl m = some x ∧ x.member = m ∧ x.wg = wg ∧ x.dst = own.dst ∧
      ∀ p arr, s.liveMember cl ((m + 15) % 16) = some p → ((s.group cl).member ((m + 15) % 16)).rrot.head? = some arr →
        x.data = s.bufGet p .a arr.src 1024 := by
  unfold State.rrotXfer
  rw [hm, hown]
  dsimp only
  split
  next src arr hsrc harr => exact ⟨_, rfl, rfl, rfl, rfl, fun p y hp hy => by simp_all⟩
  next hnone => exact ⟨_, rfl, rfl, rfl, rfl, fun p y hp hy => absurd hy (hnone p y hp)⟩

theorem runs_rrotGenerationStart {cl : Nat} (hx : (s.group cl).xfers = []) (hne : s.liveMembers cl ≠ [])
    (harr : ∀ m ∈ s.liveMembers cl, ((s.group cl).member m).rrot ≠ []) :
    Runs (.rrotGenerationStart cl) s fun t => (t.group cl).rrotGen = (s.group cl).rrotGen + 1 ∧ t.wgs = s.wgs ∧
      (∀ m, ((t.group cl).member m).rrot = ((s.group cl).member m).rrot.drop 1) ∧
      ∀ m wg own, s.liveMember cl m = some wg → m < 16 → ((s.group cl).member m).rrot.head? = some own →
        ∃ x ∈ (t.group cl).xfers, x.member = m ∧ x.wg = wg ∧ x.dst = own.dst ∧
          ∀ p arr, s.liveMember cl ((m + 15) % 16) = some p → ((s.group cl).member ((m + 15) % 16)).rrot.head? = some arr →
            x.data = s.bufGet p .a arr.src 1024 := by
  refine ⟨_, exec_rrotGenerationStart hx hne harr, by rw [group_modGroup]; rfl, rfl, fun m => by rw [group_modGroup]; exact rrot_rotated s cl m,
    fun m wg own hm h16 hown => ?_⟩
  obtain ⟨x, hxfer, hmem, hwg, hdst, hdata⟩ := rrotXfer_of_live hm hown
  refine ⟨x, ?_, hmem, hwg, hdst, hdata⟩
  rw [group_modGroup]
  exact List.mem_filterMap.2 ⟨m, List.mem_range.2 h16, hxfer⟩

/-! ### A tile arrives (R270) -/

theorem length_modTags (g : WGrp) (sp : Space) (ts : List Nat) (f : Tag → Tag) : ((g.modTags sp ts f).tags sp).length = (g.tags sp).length := by
  unfold WGrp.modTags
  induction ts generalizing g with
  | nil => rfl
  | cons t ts ih => rw [List.foldl_cons, ih, tags_modTag, List.length_set]

theorem tags_setBuf (g : WGrp) (sp sp' : Space) (m : Mem) : (g.setBuf sp m).tags sp' = g.tags sp' := by cases sp <;> cases sp' <;> rfl

/-- A workgroup once a rotated tile is in its A-buffer, its tag valid with the zero flag that came along. -/
def tileCame (x : RrotXfer) (g : WGrp) : WGrp := (stored .a (x.dst, x.data) g).modTag .a (x.dst / 1024) fun _ => ⟨true, false, x.z⟩

theorem a_tileCame (x : RrotXfer) (g : WGrp) : (tileCame x g).a = g.a.puts x.dst x.data := by
  have hbuf : (tileCame x g).buf .a = (stored .a (x.dst, x.data) g).buf .a := WGrp.buf_modTag ..
  rw [buf_stored] at hbuf
  exact hbuf

theorem tag_tileCame {x : RrotXfer} {g : WGrp} (h : x.dst / 1024 < (g.tags .a).length) : (tileCame x g).tag .a (x.dst / 1024) = ⟨true, false, x.z⟩ := by
  rw [tileCame, WGrp.tag, tags_modTag]
  refine getD_set_self _ ?_ _
  rw [stored, length_modTags, tags_setBuf]
  exact h

/-- The state once a transfer has left the ring and its tile is written. -/
def transferred (s : State) (cl m : Nat) (x : RrotXfer) : State :=
  ((s.modGroup cl fun g => { g with xfers := g.xfers.filter fun y => y.member != m }).bufPut (16 * cl + m) x.wg .a x.dst x.data .ring).modWg x.wg
    fun g => g.modTag .a (x.dst / 1024) fun _ => ⟨true, false, x.z⟩

theorem liveMember_dropXfer (s : State) (cl m : Nat) : (s.modGroup cl fun g => { g with xfers := g.xfers.filter fun y => y.member != m }).liveMember cl m =
    s.liveMember cl m := by
  rw [State.liveMember, group_modGroup]; rfl

theorem exec_rrotTransferDone {cl m : Nat} {x : RrotXfer} (hx : (s.group cl).xfers.find? (·.member == m) = some x) (hlive : s.liveMember cl m = some x.wg)
    (herr : x.err = false) : exec (.rrotTransferDone cl m) s =
      .next ((transferred s cl m x).barBytes x.wg x.bar (((transferred s cl m x).bar x.wg x.bar).ph) 1024 none) := by
  change execRrotTransferDone cl m s = _
  refine event_some ?_
  rw [hx]
  dsimp only
  rw [liveMember_dropXfer, hlive, herr]
  simp only [bne_self_eq_false, Bool.false_eq_true, ↓reduceIte]
  rfl

theorem wg_transferred {cl m : Nat} {x : RrotXfer} {g : WGrp} (hg : look s.wgs x.wg = some g) : (transferred s cl m x).wg x.wg = tileCame x g := by
  obtain ⟨s', hwgs, hput⟩ := (s.modGroup cl fun g => { g with xfers := g.xfers.filter fun y => y.member != m }).bufPut_eq (16 * cl + m) x.wg .a x.dst x.data .ring
  have hlook : look (s'.modWg x.wg (stored .a (x.dst, x.data))).wgs x.wg = some (stored .a (x.dst, x.data) g) := by
    rw [State.look_modWg, hwgs]
    exact congrArg (Option.map _) hg
  rw [transferred, hput]
  exact State.wg_modWg _ _ hlook

theorem group_bufPut_ring (s : State) (core wg k : Nat) (sp : Space) (lo : Nat) (bs : List Byte) :
    (s.bufPut core wg sp lo bs .ring).group k = s.group k := by
  have hclusters : (s.bufPut core wg sp lo bs .ring).clusters = s.clusters := by
    simp only [State.bufPut, State.bufWrite, State.modWg_clusters, State.touch, State.dropOld, State.modCore_clusters]
  rw [State.group, State.cluster, hclusters]; rfl

theorem group_modWg (s : State) (wg k : Nat) (f : WGrp → WGrp) : (s.modWg wg f).group k = s.group k := rfl

theorem xfers_transferred (s : State) (cl m : Nat) (x : RrotXfer) : ((transferred s cl m x).group cl).xfers = (s.group cl).xfers.filter fun y => y.member != m := by
  rw [transferred, group_modWg, group_bufPut_ring, group_modGroup]

theorem runs_rrotTransferDone {cl m : Nat} {x : RrotXfer} {g : WGrp} (hx : (s.group cl).xfers.find? (·.member == m) = some x)
    (hlive : s.liveMember cl m = some x.wg) (hg : look s.wgs x.wg = some g) (hwf : Mem.wf g.a = true) (herr : x.err = false) (hlen : x.data.length = 1024)
    (hin : x.dst + 1024 ≤ g.size .a) :
    Runs (.rrotTransferDone cl m) s fun t => t.bufGet x.wg .a x.dst 1024 = x.data ∧ (t.wg x.wg).tag .a (x.dst / 1024) = ⟨true, false, x.z⟩ ∧
      (∀ y, y < x.dst ∨ x.dst + 1024 ≤ y → t.byteAt x.wg .a y = s.byteAt x.wg .a y) ∧ ∀ y ∈ (t.group cl).xfers, y.member ≠ m := by
  have hkeep := untouched_barBytes (transferred s cl m x) x.wg x.bar (((transferred s cl m x).bar x.wg x.bar).ph) 1024 none
  have hold : s.wg x.wg = g := by rw [State.wg, hg]; rfl
  have ha := hkeep.a x.wg
  have hta := hkeep.ta x.wg
  rw [wg_transferred hg] at ha hta
  rw [a_tileCame] at ha
  refine ⟨_, exec_rrotTransferDone hx hlive herr, ?_, ?_, fun y hy => ?_, fun y hy => ?_⟩
  · have hget := gets_puts hwf x.dst x.data
    rw [hlen] at hget
    exact (congrArg (fun b : Mem => b.gets x.dst 1024) ha).trans hget
  · rw [← tag_tileCame (x := x) (g := g) (by rw [WGrp.size] at hin; omega)]
    exact congrArg (fun ts : List Tag => ts.getD (x.dst / 1024) Tag.blank) hta
  · rw [byteAt_eq, byteAt_eq, hold]
    refine (congrArg (fun b : Mem => b.get y) ha).trans ?_
    rw [Mem.get_puts _ _ _ hwf, if_neg (by omega)]
    rfl
  · rw [hkeep.group, xfers_transferred] at hy
    simpa using (List.mem_filter.1 hy).2

end

end Sys2Proof.Proofs
end

section
/-! Remote stores, and the meetings of a cluster's members: xst, xswap and cbar (R271 to R274). -/

namespace Sys2Proof.Proofs
open Sys2Proof Sys2Proof.Machine

section
variable {s t : State}

/-! ### xst leaves its wave (R271) -/

/-- The elements of an xst in ascending thread order. -/
def xstElems (s : State) (g : Guard) (d : Opnd) (z : Size) (tgt : Nat) (ea : Nat → Nat) : List XstElem :=
  (threads (s.guardMask g)).map fun i => XstElem.mk s.m s.cur.ctx s.w.nextAcc tgt (ea i) (s.dataBytes d z i)
    ((s.group s.k).xGen + (if s.outstanding s.k s.m .swap then 1 else 0)) ((threads (s.guardMask g)).getLast? == some i)

/-- base + off × size of one thread (R271). -/
def xstAddr (s : State) (a : Opnd) (off : BitVec 8) (z : Size) (k : Nat) : Nat := ((s.src a).at k + off.signExtend 32 * BitVec.ofNat 32 z.bytes).toNat

theorem toNat_xstEa (s : State) (a : Opnd) (off : BitVec 8) (z : Size) (k : Nat) :
    (localEa ((s.src a).at k) 0 off z.bytes).toNat = xstAddr s a off z k :=
  congrArg (fun y : Word => (y + off.signExtend 32 * BitVec.ofNat 32 z.bytes).toNat) (BitVec.add_zero _)

section
variable {g : Guard} {d a b : Opnd} {off : BitVec 8} {z : Size}

theorem exec_xst (hq : s.quiet) (hx : s.g.xbind = true) (hb : (s.src b).isUni = true) (hm : s.guardMask g ≠ 0)
    (hlive : (s.liveMember s.k (((s.src b).at 0).toNat % 16)).isSome = true) (hself : ((s.src b).at 0).toNat % 16 ≠ s.m)
    (haddr : AddrsOk (s.guardMask g) (xstAddr s a off z) z.bytes 0x8000) (hcount : s.w.count .x < 255) :
    exec (.xst g d a b off z) s = .next ((s.modW fun w => w.addAcc (w.newAcc .x s.sp.pc .store)).advance.modGroup s.k fun y =>
      { y with xst := y.xst ++ xstElems s g d z (((s.src b).at 0).toNat % 16) (xstAddr s a off z) }) := by
  have hea (i : Nat) (hi : i ∈ threads (s.guardMask g)) : xstAddr s a off z i % z.bytes = 0 ∧ xstAddr s a off z i < 0x8000 := by
    obtain ⟨h32, hbit⟩ := mem_threads.1 hi
    obtain ⟨hmod, hin⟩ := haddr i h32 hbit
    exact ⟨hmod, Nat.lt_of_lt_of_le (Nat.lt_add_of_pos_right (size_bytes_pos z)) hin⟩
  change execXst g d a b off z s = _
  refine isaCtl_ok hq.1 ?_
  have hne : (((s.src b).at 0).toNat % 16 != s.m) = true := by simpa using hself
  simp only [scalar_of_isUni hb, ok_bind, hx, hlive, hne, Bool.and_self, check_true, toNat_xstEa]
  rw [failThread_ok fun i hi => bne_eq_false_iff_eq.2 (hea i hi).1, ok_bind, failThread_ok fun i hi => decide_eq_false (Nat.not_le.2 (hea i hi).2), ok_bind,
    noElems_some (threads_ne_nil hm), counted_room hcount]
  rfl

theorem runs_xst (hq : s.quiet) (hx : s.g.xbind = true) (hb : (s.src b).isUni = true) (hm : s.guardMask g ≠ 0)
    (hlive : (s.liveMember s.k (((s.src b).at 0).toNat % 16)).isSome = true) (hself : ((s.src b).at 0).toNat % 16 ≠ s.m)
    (haddr : AddrsOk (s.guardMask g) (xstAddr s a off z) z.bytes 0x8000) (hcount : s.w.count .x < 255) :
    Runs (.xst g d a b off z) s fun t => t.w.count .x = s.w.count .x + 1 ∧ t.sp.pc = s.sp.pc + 8 ∧ t.wgs = s.wgs ∧ t.w.v = s.w.v ∧
      ∃ es, (t.group s.k).xst = (s.group s.k).xst ++ es ∧
        es.map (fun e => (e.src, e.target, e.addr, e.data)) =
          (threads (s.guardMask g)).map fun k => (s.m, ((s.src b).at 0).toNat % 16, xstAddr s a off z k, s.dataBytes d z k) := by
  have hadd := s.w_modW (fun w => w.addAcc (w.newAcc .x s.sp.pc .store)) hq.1
  have hlv : (s.modW fun w => w.addAcc (w.newAcc .x s.sp.pc .store)).live = true :=
    (s.live_modW (fun w => w.addAcc (w.newAcc .x s.sp.pc .store)) fun _ => rfl).trans hq.1
  have hsp := sp_modW (f := fun w => w.addAcc (w.newAcc .x s.sp.pc .store)) hq.1 rfl
  have hmoved := movedOn_advance hlv
  have hkept := kept_modGroup hmoved.live s.k fun y => { y with xst := y.xst ++ xstElems s g d z (((s.src b).at 0).toNat % 16) (xstAddr s a off z) }
  refine ⟨_, exec_xst hq hx hb hm hlive hself haddr hcount, ?_, ?_, rfl, ?_, xstElems s g d z (((s.src b).at 0).toNat % 16) (xstAddr s a off z), ?_, ?_⟩
  · rw [hkept.w, Wave.count, hmoved.accs, hadd]
    exact count_addAcc s.w (a := s.w.newAcc .x s.sp.pc .store) rfl .x
  · rw [hkept.sp, hmoved.pc, hsp]
  · rw [hkept.w, hmoved.v, hadd]; rfl
  · rw [group_modGroup]; rfl
  · rw [xstElems, List.map_map]; rfl

end

/-! ### An element reaches its target (R271) -/

/-- The state once an element is in the shadow bank of its target and off the ring. -/
def xstWritten (s : State) (cl idx : Nat) (e : XstElem) : State :=
  (s.modCore (16 * cl + e.target) fun c => { c with shadow := c.shadow.puts e.addr e.data }).modGroup cl fun g => { g with xst := g.xst.eraseIdx idx }

theorem exec_xstElementWrite {cl idx : Nat} {e : XstElem} (he : (s.group cl).xst[idx]? = some e) (hx : (s.group cl).xfers = [])
    (hgen : e.gen ≤ (s.group cl).xGen) (hfirst : ∀ y ∈ (s.group cl).xst.take idx, ¬(y.src = e.src ∧ y.ctx = e.ctx ∧ y.acc = e.acc)) :
    ∃ t, exec (.xstElementWrite cl idx) s = .next t ∧ Untouched (xstWritten s cl idx e) t := by
  have hany : ((s.group cl).xst.take idx).any (fun x => x.src == e.src && x.ctx == e.ctx && x.acc == e.acc) = false :=
    List.any_eq_false.2 fun y hy => by simpa [and_assoc] using hfirst y hy
  have hnot : decide ((s.group cl).xGen < e.gen) = false := by simpa using hgen
  have hexec : exec (.xstElementWrite cl idx) s =
      .next ((s.modCore (16 * cl + e.target) fun c => { c with shadow := c.shadow.puts e.addr e.data }).xstGone cl idx e) := by
    change execXstElementWrite cl idx s = _
    refine event_some ?_
    simp only [he, hx, hany, hnot, List.isEmpty_nil, Bool.not_true, Bool.or_self, Bool.false_eq_true, ↓reduceIte]
  refine ⟨_, hexec, ?_⟩
  unfold State.xstGone
  dsimp only
  split
  · exact .refl _
  · exact untouched_completeAcc ..

theorem runs_xstElementWrite {cl idx : Nat} {e : XstElem} (he : (s.group cl).xst[idx]? = some e) (hx : (s.group cl).xfers = [])
    (hgen : e.gen ≤ (s.group cl).xGen) (hwf : Mem.wf (s.core (16 * cl + e.target)).shadow = true)
    (hfirst : ∀ y ∈ (s.group cl).xst.take idx, ¬(y.src = e.src ∧ y.ctx = e.ctx ∧ y.acc = e.acc)) :
    Runs (.xstElementWrite cl idx) s fun t => (t.group cl).xst = (s.group cl).xst.eraseIdx idx ∧ (∀ g, (t.wg g).a = (s.wg g).a) ∧
      ∀ x, Mem.get (t.core (16 * cl + e.target)).shadow x =
        if e.addr ≤ x ∧ x < e.addr + e.data.length then e.data.getD (x - e.addr) 0 else Mem.get (s.core (16 * cl + e.target)).shadow x := by
  obtain ⟨t, hexec, hkeep⟩ := exec_xstElementWrite he hx hgen hfirst
  refine ⟨t, hexec, ?_, fun g => (hkeep.a g).trans rfl, fun x => ?_⟩
  · rw [hkeep.group, xstWritten, group_modGroup]; rfl
  · have hshadow : ((xstWritten s cl idx e).core (16 * cl + e.target)).shadow = (s.core (16 * cl + e.target)).shadow.puts e.addr e.data := by
      rw [xstWritten, State.modGroup, shadow_modCluster, State.core_modCore]
    rw [hkeep.shadow, hshadow, Mem.get_puts _ _ _ hwf]

end

end Sys2Proof.Proofs
end

section
/-! The meetings of a cluster's members: a split waits once, a generation completes for all, and xswap exchanges the sides of each member
(R160, R272 to R274). -/

namespace Sys2Proof.Proofs
open Sys2Proof Sys2Proof.Machine

section
variable {s t u : State}

/-! ### A split waits (R272) -/

/-- The waiters of a wave, of which one that is not of the workgroup has none. -/
def waitersOf (wg : Nat) (x : Meet) (e : Nat × Wave) : List Waiter :=
  if e.2.wg = wg then e.2.splits.filterMap fun p => (p.status.meeting x).map fun y => ⟨e.1, p.id, y.1, y.2, p.arrived⟩ else []

theorem waiters_eq (s : State) (core wg : Nat) (x : Meet) : s.waiters core wg x = (s.core core).waves.flatMap (waitersOf wg x) := rfl

/-- An update of a wave's splits that keeps their status and arrival keeps the waiters. -/
theorem waitersOf_modSplit {f : Split → Split} (hf : ∀ p, (f p).status = p.status ∧ (f p).id = p.id ∧ (f p).arrived = p.arrived)
    (wg : Nat) (x : Meet) (ctx id : Nat) (w : Wave) : waitersOf wg x (ctx, w.modSplit id f) = waitersOf wg x (ctx, w) := by
  simp only [waitersOf, Wave.modSplit, List.filterMap_map]
  congr 1
  refine List.filterMap_congr fun p _ => ?_
  obtain ⟨hst, hid, harr⟩ := hf p
  by_cases hp : p.id = id <;> simp [hp, hst, hid, harr]

theorem waiters_modSp {f : Split → Split} (hf : ∀ p, (f p).status = p.status ∧ (f p).id = p.id ∧ (f p).arrived = p.arrived)
    (core wg : Nat) (x : Meet) : (s.modSp f).waiters core wg x = s.waiters core wg x := by
  rw [waiters_eq, waiters_eq, State.modSp, State.modW, State.modWave]
  by_cases hc : core = s.cur.core
  · subst hc
    rw [State.core_modCore, change, List.flatMap_map]
    refine List.flatMap_congr fun e _ => ?_
    by_cases he : e.1 = s.cur.ctx
    · rw [if_pos he, ← he]
      exact waitersOf_modSplit hf wg x e.1 s.cur.split e.2
    · rw [if_neg he]
  · rw [State.core_modCore_ne _ _ hc]

theorem waiters_closed (core wg : Nat) (x : Meet) : s.closed.waiters core wg x = s.waiters core wg x :=
  waiters_modSp (f := fun p => { p with windows := [] }) (fun _ => ⟨rfl, rfl, rfl⟩) core wg x

theorem outstanding_closed (k m : Nat) (x : Meet) : s.closed.outstanding k m x = s.outstanding k m x := by
  simp only [State.outstanding, waiters_closed]
  rfl

theorem flying_modSplit (w : Wave) (id : Nat) {f : Split → Split} (hf : ∀ p, (f p).status = p.status) : (w.modSplit id f).flying = w.flying := by
  simp only [Wave.flying, Wave.modSplit, List.filterMap_map]
  congr 1
  refine List.filterMap_congr fun p _ => ?_
  by_cases hp : p.id = id <;> simp [hp, hf]

/-- The instruction of a meeting. -/
def meetInstr : Meet → Instr
  | .swap => .xswap
  | .bar => .cbar

/-- Its opcode. -/
def meetOp : Meet → Nat
  | .swap => 0x2C2
  | .bar => 0x2C3

theorem exec_meet (x : Meet) (s : State) : exec (meetInstr x) s = isaCtl (fun s => s.meetIssue x (meetOp x)) s := by
  cases x <;> rfl

theorem meeting_wait (x : Meet) (gen : Nat) (ids : List Nat) : (Status.waiting (x.wait gen ids)).meeting x = some (gen, ids) := by
  cases x <;> rfl

/-- A first arrival waits at its instruction for the generation in progress, with the writes it owes. -/
theorem runs_meet (x : Meet) (hq : s.quiet) (hx : s.g.xbind = true) (harr : s.sp.arrived = false) (hout : s.outstanding s.k s.m x = false) :
    Runs (meetInstr x) s fun t => t.sp.pc = s.sp.pc ∧ t.wgs = s.wgs ∧
      t.sp.status.meeting x = some ((s.group s.k).gen x, (s.w.flying.filter Acc.inW).map (·.id)) := by
  have hcl := quiet_closed hq
  have hflying : s.closed.w.flying = s.w.flying := by
    rw [w_closed hq.1]
    exact flying_modSplit s.w _ fun _ => rfl
  have hissue : s.meetIssue x (meetOp x) =
      .ok (s.closed.wait (x.wait ((s.group s.k).gen x) ((s.w.flying.filter Acc.inW).map (·.id)))) := by
    have hgroup : s.closed.group s.closed.k = s.group s.k := rfl
    have hnone : s.closed.outstanding s.closed.k s.closed.m x = false := (outstanding_closed ..).trans hout
    rw [State.meetIssue, hx, check_true, ok_bind, settled_quiet hq]
    simp only [sp_closed hq, harr, hnone, hflying, hgroup, Bool.false_eq_true, ↓reduceIte]
  have hsp := sp_modSp hcl.1 (f := fun p => { p.closeWindows with status := .waiting (x.wait ((s.group s.k).gen x) ((s.w.flying.filter Acc.inW).map (·.id))) }) fun _ => rfl
  refine ⟨_, (exec_meet x s).trans (isaCtl_ok hq.1 hissue), ?_, rfl, ?_⟩
  · exact (congrArg Split.pc hsp).trans (by rw [sp_closed hq]; rfl)
  · exact (congrArg (fun p : Split => p.status.meeting x) hsp).trans (meeting_wait ..)

/-! ### A generation completes (R272, R273) -/

theorem meet_spec (s : State) (k : Nat) (x : Meet) : ((s.meet k x).group k).gen x = (s.group k).gen x + 1 ∧
    (∀ g, ((s.meet k x).wg g).a = (s.wg g).a) ∧ ∀ j, ((s.meet k x).core j).shadow = (s.core j).shadow := by
  have hwaves : ∀ v m, Untouched v (match State.liveMember v k m with
      | some wg => v.modWaves wg fun w => w.acquire x ((s.group k).gen x)
      | none => v) := fun v m => by
    split
    · exact untouched_modWaves ..
    · exact .refl v
  have hfold := untouched_foldl hwaves (s.liveMembers k) s
  refine ⟨?_, fun g => hfold.a g, fun j => ?_⟩
  · unfold State.meet
    dsimp only
    rw [group_modGroup]
    cases x <;> rfl
  · exact (shadow_modCluster ..).trans (hfold.shadow j)

/-! ### The sides of a member change places (R160, R273) -/

theorem get_append_of_notMem {m n : Mem} {a : Nat} (h : ∀ e ∈ m, e.1 ≠ a) : Mem.get (m ++ n) a = Mem.get n a := by
  induction m with
  | nil => rfl
  | cons e m ih =>
    obtain ⟨k, v⟩ := e
    rw [List.cons_append, Mem.get, if_neg (h (k, v) (by simp))]
    exact ih fun e he => h e (by simp [he])

theorem get_eq_zero {m : Mem} {a : Nat} (h : ∀ e ∈ m, e.1 ≠ a) : Mem.get m a = 0 := by
  rw [← List.append_nil m, get_append_of_notMem h]; rfl

theorem get_append_of_zero {m n : Mem} {a : Nat} (h : Mem.get n a = 0) : Mem.get (m ++ n) a = Mem.get m a := by
  induction m with
  | nil => exact h
  | cons e m ih =>
    obtain ⟨k, v⟩ := e
    rw [List.cons_append, Mem.get, Mem.get, ih]

theorem get_filter_key {m : Mem} {p : Nat → Bool} {a : Nat} (h : p a = true) : Mem.get (m.filter fun e => p e.1) a = Mem.get m a := by
  induction m with
  | nil => rfl
  | cons e m ih =>
    obtain ⟨k, v⟩ := e
    by_cases hk : k = a
    · subst hk; simp [h, Mem.get]
    · by_cases hp : p k = true <;> simp [hp, Mem.get, hk, ih]

theorem get_filter_key_out {m : Mem} {p : Nat → Bool} {a : Nat} (h : p a = false) : Mem.get (m.filter fun e => p e.1) a = 0 :=
  get_eq_zero fun e he hea => by simp_all [List.mem_filter]

theorem shadow_swapSides (s : State) (core wg : Nat) : ((s.swapSides core wg).core core).shadow = (s.wg wg).a.filter fun e => decide (e.1 < 0x8000) := by
  have h := State.core_modCore s core fun c => { c with shadow := (s.wg wg).a.filter fun e => decide (e.1 < 0x8000), shadowTags := (s.wg wg).ta.take 32 }
  exact congrArg Core.shadow h

theorem core_swapSides_ne (s : State) {core j : Nat} (wg : Nat) (h : j ≠ core) : (s.swapSides core wg).core j = s.core j :=
  State.core_modCore_ne s (fun c => { c with shadow := (s.wg wg).a.filter fun e => decide (e.1 < 0x8000), shadowTags := (s.wg wg).ta.take 32 }) h

theorem a_swapSides {core wg : Nat} {g : WGrp} (h : look s.wgs wg = some g) :
    ((s.swapSides core wg).wg wg).a = (s.core core).shadow ++ (s.wg wg).a.filter fun e => decide (0x8000 ≤ e.1) := by
  have hg : s.wg wg = g := by rw [State.wg, h]; rfl
  have hmod := State.wg_modWg (s.modCore core fun c => { c with shadow := (s.wg wg).a.filter fun e => decide (e.1 < 0x8000), shadowTags := (s.wg wg).ta.take 32 })
    (fun g => { g with a := (s.core core).shadow ++ g.a.filter fun e => decide (0x8000 ≤ e.1), ta := (s.core core).shadowTags ++ g.ta.drop 32 }) h
  rw [hg]
  exact congrArg WGrp.a hmod

theorem wg_swapSides_ne (s : State) (core : Nat) {wg j : Nat} (h : j ≠ wg) : (s.swapSides core wg).wg j = s.wg j :=
  State.wg_modWg_ne _ _ h

theorem ended_swapSides (s : State) (core wg j : Nat) :
    (look (s.swapSides core wg).wgs j).any (fun x => !x.ended) = (look s.wgs j).any fun x => !x.ended := by
  let f : WGrp → WGrp := fun g => { g with a := (s.core core).shadow ++ g.a.filter fun e => 0x8000 ≤ e.1, ta := (s.core core).shadowTags ++ g.ta.drop 32 }
  have hlook : look (s.swapSides core wg).wgs j = look (change s.wgs wg f) j := rfl
  rw [hlook]
  by_cases hj : j = wg
  · subst hj
    rw [look_change_self]
    cases look s.wgs j <;> rfl
  · rw [look_change_ne _ _ hj]

theorem liveMember_swapSides (s : State) (core wg cl m : Nat) : (s.swapSides core wg).liveMember cl m = s.liveMember cl m := by
  have hgroup : (s.swapSides core wg).group cl = s.group cl := rfl
  rw [State.liveMember, hgroup]
  simp only [ended_swapSides]
  rfl

end

end Sys2Proof.Proofs
end

section
/-! The exchange of every live member's sides, and the cluster's operations as O42 states them (R266 to R274). -/

namespace Sys2Proof.Proofs
open Sys2Proof Sys2Proof.Machine

section
variable {s t u : State}

/-! ### Every live member exchanges its sides (R273) -/

/-- A member's window and shadow bank once they have changed places. -/
structure Swapped (s t : State) (core wg : Nat) : Prop where
  shadow : (t.core core).shadow = (s.wg wg).a.filter fun e => decide (e.1 < 0x8000)
  a : (t.wg wg).a = (s.core core).shadow ++ (s.wg wg).a.filter fun e => decide (0x8000 ≤ e.1)

/-- They stayed as they were. -/
structure SidesKept (s t : State) (core wg : Nat) : Prop where
  shadow : (t.core core).shadow = (s.core core).shadow
  a : (t.wg wg).a = (s.wg wg).a

theorem Swapped.kept {core wg : Nat} (h : Swapped s t core wg) (k : SidesKept t u core wg) : Swapped s u core wg :=
  ⟨k.shadow.trans h.shadow, k.a.trans h.a⟩

theorem SidesKept.swapped {core wg : Nat} (h : SidesKept s t core wg) (k : Swapped t u core wg) : Swapped s u core wg :=
  ⟨by rw [k.shadow, h.a], by rw [k.a, h.a, h.shadow]⟩

theorem SidesKept.trans {core wg : Nat} (h : SidesKept s t core wg) (k : SidesKept t u core wg) : SidesKept s u core wg :=
  ⟨k.shadow.trans h.shadow, k.a.trans h.a⟩

/-- The exchange of one member, if it lives. -/
def swapMember (cl : Nat) (s : State) (m : Nat) : State :=
  match s.liveMember cl m with
  | some wg => s.swapSides (16 * cl + m) wg
  | none => s

theorem swapMember_of_live {cl m wg : Nat} (h : s.liveMember cl m = some wg) : swapMember cl s m = s.swapSides (16 * cl + m) wg := by
  rw [swapMember, h]

theorem liveMember_swapMember (s : State) (cl m j : Nat) : (swapMember cl s m).liveMember cl j = s.liveMember cl j := by
  unfold swapMember
  split
  · exact liveMember_swapSides ..
  · rfl

theorem group_swapMember (s : State) (cl m k : Nat) : (swapMember cl s m).group k = s.group k := by
  unfold swapMember
  split <;> rfl

theorem look_of_liveMember {cl m wg : Nat} (h : s.liveMember cl m = some wg) : ∃ g, look s.wgs wg = some g := by
  unfold State.liveMember at h
  split at h
  · split at h
    next hany =>
      cases h
      cases hlook : look s.wgs wg with
      | none => rw [hlook] at hany; cases hany
      | some g => exact ⟨g, rfl⟩
    next => cases h
  · cases h

theorem swapped_swapMember {cl m wg : Nat} (h : s.liveMember cl m = some wg) : Swapped s (swapMember cl s m) (16 * cl + m) wg := by
  obtain ⟨g, hg⟩ := look_of_liveMember h
  rw [swapMember_of_live h]
  exact ⟨shadow_swapSides .., a_swapSides hg⟩

/-- No two live members of a cluster are one workgroup. -/
def MembersApart (s : State) (cl : Nat) : Prop := ∀ m m' wg, s.liveMember cl m = some wg → s.liveMember cl m' = some wg → m = m'

theorem membersApart_swapMember {cl : Nat} (h : MembersApart s cl) (m : Nat) : MembersApart (swapMember cl s m) cl := by
  intro i j wg hi hj
  rw [liveMember_swapMember] at hi hj
  exact h i j wg hi hj

theorem sidesKept_swapMember {cl m j wg : Nat} (hapart : MembersApart s cl) (hj : s.liveMember cl j = some wg) (hne : j ≠ m) :
    SidesKept s (swapMember cl s m) (16 * cl + j) wg := by
  cases hm : s.liveMember cl m with
  | none => rw [swapMember, hm]; exact ⟨rfl, rfl⟩
  | some wg' =>
    have hwg : wg ≠ wg' := fun h => hne (hapart j m wg hj (h ▸ hm))
    rw [swapMember_of_live hm]
    exact ⟨by rw [core_swapSides_ne _ _ (by omega)], by rw [wg_swapSides_ne _ _ hwg]⟩

theorem sidesKept_foldl {cl j wg : Nat} {ms : List Nat} (hapart : MembersApart s cl) (hj : s.liveMember cl j = some wg) (hnot : j ∉ ms) :
    SidesKept s (ms.foldl (swapMember cl) s) (16 * cl + j) wg := by
  induction ms generalizing s with
  | nil => exact ⟨rfl, rfl⟩
  | cons m ms ih =>
    have hne : j ≠ m := fun h => hnot (h ▸ List.mem_cons_self)
    have hrest : j ∉ ms := fun h => hnot (List.mem_cons_of_mem m h)
    exact (sidesKept_swapMember hapart hj hne).trans
      (ih (membersApart_swapMember hapart m) ((liveMember_swapMember ..).trans hj) hrest)

theorem swapped_foldl {cl j wg : Nat} {ms : List Nat} (hapart : MembersApart s cl) (hj : s.liveMember cl j = some wg) (hmem : j ∈ ms)
    (hnodup : ms.Nodup) : Swapped s (ms.foldl (swapMember cl) s) (16 * cl + j) wg := by
  induction ms generalizing s with
  | nil => cases hmem
  | cons m ms ih =>
    obtain ⟨hnot, hrest⟩ := List.nodup_cons.1 hnodup
    have hj' := (liveMember_swapMember s cl m j).trans hj
    have hapart' := membersApart_swapMember hapart m
    by_cases hjm : j = m
    · subst hjm
      exact (swapped_swapMember hj).kept (sidesKept_foldl hapart' hj' hnot)
    · exact (sidesKept_swapMember hapart hj hjm).swapped (ih hapart' hj' ((List.mem_cons.1 hmem).resolve_left hjm) hrest)

theorem group_foldl_swapMember (s : State) (cl k : Nat) (ms : List Nat) : (ms.foldl (swapMember cl) s).group k = s.group k := by
  induction ms generalizing s with
  | nil => rfl
  | cons m ms ih => rw [List.foldl_cons, ih, group_swapMember]

theorem Swapped.low {core wg a : Nat} (h : Swapped s t core wg) (ha : a < 0x8000) :
    t.byteAt wg .a a = Mem.get (s.core core).shadow a ∧ Mem.get (t.core core).shadow a = s.byteAt wg .a a := by
  have hbank : t.byteAt wg .a a = Mem.get (t.wg wg).a a := rfl
  have hzero : Mem.get ((s.wg wg).a.filter fun e => decide (0x8000 ≤ e.1)) a = 0 :=
    get_filter_key_out (p := fun k => decide (0x8000 ≤ k)) (decide_eq_false (by omega))
  refine ⟨?_, ?_⟩
  · rw [hbank, h.a, get_append_of_zero hzero]
  · rw [h.shadow]
    exact get_filter_key (p := fun k => decide (k < 0x8000)) (decide_eq_true ha)

theorem Swapped.high {core wg a : Nat} (h : Swapped s t core wg) (ha : 0x8000 ≤ a) (hbank : ∀ e ∈ (s.core core).shadow, e.1 < 0x8000) :
    t.byteAt wg .a a = s.byteAt wg .a a := by
  have hbyte : t.byteAt wg .a a = Mem.get (t.wg wg).a a := rfl
  have hnot : ∀ e ∈ (s.core core).shadow, e.1 ≠ a := fun e he => by have := hbank e he; omega
  rw [hbyte, h.a, get_append_of_notMem hnot]
  exact get_filter_key (p := fun k => decide (0x8000 ≤ k)) (decide_eq_true ha)

theorem liveMembers_guard {cl : Nat} {x : Meet} (hne : s.liveMembers cl ≠ []) (hall : ∀ m ∈ s.liveMembers cl, s.memberHere cl m x = true) :
    ((s.liveMembers cl).isEmpty || !(s.liveMembers cl).all (s.memberHere cl · x)) = false := by
  have hempty : (s.liveMembers cl).isEmpty = false := by simpa using hne
  rw [hempty, List.all_eq_true.2 hall]; rfl

theorem exec_xswapExchange {cl : Nat} (hne : s.liveMembers cl ≠ []) (hall : ∀ m ∈ s.liveMembers cl, s.memberHere cl m .swap = true) :
    exec (.xswapExchange cl) s = .next (((s.liveMembers cl).foldl (swapMember cl) s).meet cl .swap) := by
  change execXswapExchange cl s = _
  refine event_some ?_
  simp only [liveMembers_guard hne hall, Bool.false_eq_true, ↓reduceIte]
  rfl

theorem runs_xswapExchange {cl : Nat} (hne : s.liveMembers cl ≠ []) (hall : ∀ m ∈ s.liveMembers cl, s.memberHere cl m .swap = true)
    (hapart : MembersApart s cl) :
    Runs (.xswapExchange cl) s fun t => (t.group cl).xGen = (s.group cl).xGen + 1 ∧ ∀ m wg, s.liveMember cl m = some wg → m < 16 →
      Swapped s t (16 * cl + m) wg := by
  obtain ⟨hgen, ha, hshadow⟩ := meet_spec ((s.liveMembers cl).foldl (swapMember cl) s) cl .swap
  refine ⟨_, exec_xswapExchange hne hall, hgen.trans (by rw [group_foldl_swapMember]; rfl), fun m wg hm h16 => ?_⟩
  have hmem : m ∈ s.liveMembers cl := mem_liveMembers.2 ⟨h16, by rw [hm]; rfl⟩
  exact (swapped_foldl hapart hm hmem (List.nodup_range.filter _)).kept ⟨hshadow _, ha _⟩

theorem runs_cbarComplete {cl : Nat} (hne : s.liveMembers cl ≠ []) (hall : ∀ m ∈ s.liveMembers cl, s.memberHere cl m .bar = true) :
    Runs (.cbarComplete cl) s fun t => (t.group cl).cGen = (s.group cl).cGen + 1 ∧ ∀ g, (t.wg g).a = (s.wg g).a := by
  obtain ⟨hgen, ha, -⟩ := meet_spec s cl .bar
  refine ⟨_, ?_, hgen, ha⟩
  change execCbarComplete cl s = _
  refine event_some ?_
  simp only [liveMembers_guard hne hall, Bool.false_eq_true, ↓reduceIte]

/-! ### A workgroup outside a cluster (R266) -/

theorem exec_rrot_denied {a b : Opnd} {k : BitVec 6} (hl : s.live = true) (hx : s.g.xbind = false) (hk : k.toNat < s.g.bars.length) :
    exec (.rrot a b k) s = .next (s.raise (trapI tcDenied 0x2C0)) := by
  change execRrot a b k s = _
  refine isaCtl_error hl ?_
  rw [barK_ok hk, ok_bind, hx]; rfl

theorem exec_meet_denied (x : Meet) (hl : s.live = true) (hx : s.g.xbind = false) :
    exec (meetInstr x) s = .next (s.raise (trapI tcDenied (meetOp x))) := by
  rw [exec_meet]
  refine isaCtl_error hl ?_
  rw [State.meetIssue, hx]; rfl

/-! ### rrot by the arrivals its member has registered (R269) -/

section
variable {a b : Opnd} {k : BitVec 6} (hq : s.quiet) (hx : s.g.xbind = true) (hk : k.toNat < s.g.bars.length) (ha : (s.src a).isUni = true)
  (hb : (s.src b).isUni = true) (had : ((s.src a).at 0).toNat % 1024 = 0) (hbd : ((s.src b).at 0).toNat % 1024 = 0)
  (hain : ((s.src a).at 0).toNat + 1024 ≤ s.g.size .a) (hbin : ((s.src b).at 0).toNat + 1024 ≤ s.g.size .a)
include hq hx hk ha hb had hbd hain hbin

theorem runs_rrot_registered (hlen : (s.group s.k).members.length = 16) (hroom : ((s.group s.k).member s.m).rrot.length < 4) :
    Runs (.rrot a b k) s fun t => ((t.group s.k).member s.m).rrot =
      ((s.group s.k).member s.m).rrot ++ [⟨((s.src a).at 0).toNat, ((s.src b).at 0).toNat, k.toNat⟩] ∧ t.wgs = s.wgs ∧ t.sp.pc = s.sp.pc + 8 := by
  have hmem : s.m < (s.group s.k).members.length := hlen ▸ Nat.mod_lt _ (by decide)
  have hrun := runs_rrot hq hx hk ha hb had hbd hain hbin
  rw [if_neg (Nat.not_le.2 hroom)] at hrun
  have hmoved := movedOn_advance hq.1
  have hkept := kept_modGroup hmoved.live s.k fun g => g.modMember s.m fun y =>
    { y with rrot := y.rrot ++ [⟨((s.src a).at 0).toNat, ((s.src b).at 0).toNat, k.toNat⟩] }
  refine ⟨_, hrun, ?_, rfl, by rw [hkept.sp, hmoved.pc]⟩
  rw [group_modGroup]
  exact congrArg Member.rrot (member_modMember hmem _)

theorem runs_rrot_full (hfull : 4 ≤ ((s.group s.k).member s.m).rrot.length) :
    Runs (.rrot a b k) s fun t => ((t.group s.k).member s.m).rrot = ((s.group s.k).member s.m).rrot ∧ (s.sp.pfx = none → t.sp.pc = s.sp.pc) := by
  have hrun := runs_rrot hq hx hk ha hb had hbd hain hbin
  rw [if_pos hfull] at hrun
  exact ⟨_, hrun, rfl, fun hpfx => by rw [sp_stall hq.1, pc_stalled hpfx]⟩

end

end

/-- Settles O42: arrivals at a rotation and at a meeting, a generation's start, each tile and each element that arrives, and the exchange, by the
rule of each. -/
theorem clusterExchange : Obligations.ClusterExchange := by
  unfold Obligations.ClusterExchange
  refine fun s => ⟨?_, ?_, ?_, ?_, ?_, ?_, ?_, ?_⟩
  · exact fun a b k hq hx hk ha hb had hbd hain hbin hlen =>
      ⟨runs_rrot_registered hq hx hk ha hb had hbd hain hbin hlen, runs_rrot_full hq hx hk ha hb had hbd hain hbin⟩
  · exact fun hq hx => ⟨fun a b k hk => exec_rrot_denied hq.1 hx hk, exec_meet_denied .swap hq.1 hx, exec_meet_denied .bar hq.1 hx⟩
  · exact fun cl => runs_rrotGenerationStart
  · exact fun cl m x g hx hlive hg hwf herr hlen _ hin => runs_rrotTransferDone hx hlive hg hwf herr hlen hin
  · exact fun g d a b off z hq hx hb hm hlive hself haddr hcount => runs_xst hq hx hb hm hlive hself haddr hcount
  · exact fun cl idx e => runs_xstElementWrite
  · intro x hq hx harr hout
    cases x
    case swap => exact runs_meet .swap hq hx harr hout
    case bar => exact runs_meet .bar hq hx harr hout
  · refine fun cl hne => ⟨fun hall hapart => ?_, runs_cbarComplete hne⟩
    obtain ⟨t, hexec, hgen, hswap⟩ := runs_xswapExchange hne hall hapart
    exact ⟨t, hexec, hgen, fun m wg hm h16 => ⟨fun a => (hswap m wg hm h16).low, fun a => (hswap m wg hm h16).high⟩⟩

end Sys2Proof.Proofs
end

section
/-! What an act at an address's home leaves alone: the waves but for their streams, the order of the slices' queues, and every byte but those
it writes (R309, R312, R319). -/

namespace Sys2Proof.Proofs
open Sys2Proof Sys2Proof.Machine

/-- A wave but for its streams, which a write may make stale. -/
def streamless (w : Wave) : Wave := { w with streams := [] }

/-- From s to t these bytes were written and these messages sent; no instruction in flight changed, and no slice's queue. -/
structure Acts (ws : List (Nat × List Byte)) (os : List Out) (s t : State) : Prop where
  waves : ∀ core ctx, (t.wave? core ctx).map streamless = (s.wave? core ctx).map streamless
  q : ∀ k, (t.slice k).q = (s.slice k).q
  rbase : t.rbase = s.rbase
  badMem : t.badMem = s.badMem
  dtc : t.dtc = s.dtc
  pools : t.pools = s.pools
  mem : t.mem = ws.foldl (fun m w => m.puts w.1 w.2) s.mem
  out : t.out = s.out ++ os

/-- From s to t the request's element was performed: it is done with what it returns, these bytes were written, and these messages sent. -/
structure Served (r : Req) (ok err : Bool) (ret : List Byte) (time : DWord) (ws : List (Nat × List Byte)) (os : List Out) (s t : State) : Prop where
  q : ∀ k, (t.slice k).q = (s.slice k).q
  rbase : t.rbase = s.rbase
  mem : t.mem = ws.foldl (fun m w => m.puts w.1 w.2) s.mem
  out : t.out = s.out ++ os
  elem : ∃ e, t.elem? r = some e ∧ e.done = true ∧ e.ok = ok ∧ e.err = err ∧ e.ret = ret ∧ e.ctime = time

section
variable {s t u : State} {ws ws' : List (Nat × List Byte)} {os os' : List Out}

/-! ### Acts -/

theorem Acts.refl (s : State) : Acts [] [] s s :=
  ⟨fun _ _ => rfl, fun _ => rfl, rfl, rfl, rfl, rfl, rfl, (List.append_nil _).symm⟩

theorem Acts.trans (h : Acts ws os s u) (k : Acts ws' os' u t) : Acts (ws ++ ws') (os ++ os') s t :=
  ⟨fun core ctx => (k.waves core ctx).trans (h.waves core ctx), fun j => (k.q j).trans (h.q j), k.rbase.trans h.rbase, k.badMem.trans h.badMem,
    k.dtc.trans h.dtc, k.pools.trans h.pools, by rw [k.mem, h.mem, List.foldl_append], by rw [k.out, h.out, List.append_assoc]⟩

/-- Updates after which every core has the waves it had. -/
theorem acts_of_waves (hwaves : ∀ k, (t.core k).waves = (s.core k).waves) (hq : ∀ k, (t.slice k).q = (s.slice k).q) (hrbase : t.rbase = s.rbase)
    (hbad : t.badMem = s.badMem) (hdtc : t.dtc = s.dtc) (hpools : t.pools = s.pools) (hmem : t.mem = s.mem) (hout : t.out = s.out) : Acts [] [] s t :=
  ⟨fun core ctx => by rw [wave?_of_waves (hwaves core)], hq, hrbase, hbad, hdtc, hpools, hmem, by rw [hout, List.append_nil]⟩

theorem acts_modCore (s : State) (k : Nat) {f : Core → Core} (hf : ∀ c, (f c).waves = c.waves) : Acts [] [] s (s.modCore k f) :=
  acts_of_waves (fun j => waves_modCore_keep s k j hf) (fun _ => rfl) rfl rfl rfl rfl rfl rfl

theorem acts_modCluster (s : State) (k : Nat) (f : Cluster → Cluster) : Acts [] [] s (s.modCluster k f) :=
  acts_of_waves (fun j => waves_modCluster s k j f) (fun _ => rfl) rfl rfl rfl rfl rfl rfl

theorem acts_modSlice (s : State) (k : Nat) {f : Slice → Slice} (hf : ∀ x, (f x).q = x.q) : Acts [] [] s (s.modSlice k f) := by
  refine acts_of_waves (fun _ => rfl) (fun j => ?_) rfl rfl rfl rfl rfl rfl
  by_cases hj : j = k
  · subst hj; rw [State.slice_modSlice, hf]
  · rw [State.slice_modSlice_ne _ _ hj]

theorem acts_modLine (s : State) (k line : Nat) (f : L2Line → L2Line) : Acts [] [] s (s.modSlice k fun x => x.modLine line f) :=
  acts_modSlice s k fun _ => rfl

theorem acts_dropL1 (s : State) (core pa n : Nat) : Acts [] [] s (s.dropL1 core pa n) :=
  acts_modCore s core (f := fun c => { c with
    l1 := c.l1.filter fun x => !(pa / 128 ≤ x.line && x.line ≤ (pa + n - 1) / 128)
    fills := c.fills.filter fun x => !(pa / 128 ≤ x.line && x.line ≤ (pa + n - 1) / 128) }) fun _ => rfl

theorem acts_dropClaim (s : State) (line : Nat) : Acts [] [] s (s.dropClaim line) := by
  unfold State.dropClaim
  split
  · exact (acts_modCluster ..).trans (acts_modLine ..)
  · exact .refl s

theorem acts_unhold (s : State) (r : Req) : Acts [] [] s (s.unhold r) :=
  acts_of_waves (fun _ => rfl) (fun _ => rfl) rfl rfl rfl rfl rfl rfl

theorem acts_holdAt (s : State) (r : Req) : Acts [] [] s (s.holdAt r) := by
  unfold State.holdAt
  split
  · exact .refl s
  · exact acts_of_waves (fun _ => rfl) (fun _ => rfl) rfl rfl rfl rfl rfl rfl

theorem acts_grantLease (s : State) (r : Req) (lease : Nat) : Acts [] [] s (s.grantLease r lease) := by
  unfold State.grantLease
  split
  · exact .refl s
  · dsimp only
    split
    · exact acts_modLine ..
    · exact (acts_modLine ..).trans (acts_of_waves (fun j => waves_modCore_keep _ r.core j fun _ => rfl) (fun _ => rfl) rfl rfl rfl rfl rfl rfl)

theorem acts_acquireVia (s : State) (core wg idx : Nat) (v : Via) : Acts [] [] s (s.acquireVia core wg idx v) :=
  acts_modCore s core (f := fun c => { c with unf := c.unf.map fun u => u.acquired wg idx v }) fun _ => rfl

theorem acts_releaseVia (s : State) (core wg idx : Nat) (v : Via) : Acts [] [] s (s.releaseVia core wg idx v) :=
  acts_modCore s core (f := fun c => { c with unf := c.unf.map fun u => u.released wg idx v }) fun _ => rfl

theorem acts_staleAt (s : State) (core ctx : Nat) (glob : Bool) (lo n : Nat) : Acts [] [] s (s.staleAt core ctx glob lo n) := by
  refine ⟨fun c x => ?_, fun _ => rfl, rfl, rfl, rfl, rfl, rfl, (List.append_nil _).symm⟩
  by_cases h : (c, x) = (core, ctx)
  · obtain ⟨rfl, rfl⟩ := Prod.mk.inj h
    rw [State.staleAt, State.wave?_modWave]
    cases s.wave? c x <;> rfl
  · rw [State.staleAt, State.wave?_modWave_ne _ _ h]

theorem physPuts_eq (h : s.rbase = none) (pa : Nat) (bs : List Byte) : s.physPuts pa bs = { s with mem := s.mem.puts pa bs } := by
  induction bs generalizing s pa with
  | nil => rfl
  | cons b bs ih =>
    have hput : s.physPut pa b = { s with mem := s.mem.set pa b } := by
      rw [State.physPut, State.inRing, h]; rfl
    rw [State.physPuts, hput]
    exact ih (s := { s with mem := s.mem.set pa b }) h (pa + 1)

/-- A change of every core there is that keeps its waves. -/
theorem waves_of_map {f : Core → Core} (hf : ∀ c, (f c).waves = c.waves) (hcores : t.cores = s.cores.map fun e => (e.1, f e.2)) (k : Nat) :
    (t.core k).waves = (s.core k).waves := by
  rw [State.core, State.core, hcores, look_map]
  cases look s.cores k with
  | none => rfl
  | some c => exact hf c

theorem waves_noted (s : State) (pa n k : Nat) : (((s.noteCode pa n).noteTex pa n).core k).waves = (s.core k).waves :=
  waves_of_map (f := fun c => { c with ic := (((List.range ((pa + n - 1) / 8 + 1 - pa / 8)).map fun i => (pa / 8 + i) * 8).map
    fun u => (u, BitVec.ofNat 64 (s.physNat u 8))).filter (fun x => !c.ic.contains x) ++ c.ic }) (fun _ => rfl) rfl k

/-- A write, where no strip ring is placed. -/
theorem acts_agentWrite (h : s.rbase = none) (chain : Option Nat) (pa : Nat) (bs : List Byte) : Acts [(pa, bs)] [] s (s.agentWrite chain pa bs) := by
  have hring : s.inRing pa = false := by rw [State.inRing, h]
  have hwrite : s.agentWrite chain pa bs = s.store pa bs := by
    rw [State.agentWrite, State.mayWrite, hring]; rfl
  rw [hwrite, State.store]
  split
  next hnil =>
    rw [List.isEmpty_iff.1 hnil]
    exact ⟨fun _ _ => rfl, fun _ => rfl, rfl, rfl, rfl, rfl, rfl, (List.append_nil _).symm⟩
  next =>
    have hnoted : ((s.noteCode pa bs.length).noteTex pa bs.length).rbase = none := h
    rw [physPuts_eq hnoted]
    refine ⟨fun core ctx => ?_, fun _ => rfl, rfl, rfl, rfl, rfl, rfl, (List.append_nil _).symm⟩
    exact congrArg (Option.map streamless) (wave?_of_waves (waves_noted s pa bs.length core) ctx)

/-- The message of a record from a wave. -/
def waveEvent (s : State) (core ctx cls : Nat) (addr : DWord) (virt unc : Bool) (detail : Nat) : Out :=
  .event (recordBytes s.dtc cls ⟨addr, 0, core, (s.wave core ctx).stage, virt, unc, (s.wave core ctx).idx, (s.wave core ctx).grid, detail⟩)

theorem out_recordWave (s : State) (core ctx cls : Nat) (addr : DWord) (virt unc : Bool) (detail : Nat) :
    (s.recordWave core ctx cls addr virt unc detail).out = s.out ++ [waveEvent s core ctx cls addr virt unc detail] :=
  out_record s cls _

theorem acts_recordWave (h : s.pools.logRing = none) (core ctx cls : Nat) (addr : DWord) (virt unc : Bool) (detail : Nat) :
    Acts [] [waveEvent s core ctx cls addr virt unc detail] s (s.recordWave core ctx cls addr virt unc detail) := by
  rw [State.recordWave, record_eq, logged, h]
  exact ⟨fun _ _ => rfl, fun _ => rfl, rfl, rfl, rfl, rfl, rfl, rfl⟩

theorem streamless_wave (h : Acts ws os s t) (core ctx : Nat) : streamless (t.wave core ctx) = streamless (s.wave core ctx) := by
  have hget (u : State) : streamless (u.wave core ctx) = ((u.wave? core ctx).map streamless).getD (streamless Wave.blank) := by
    rw [State.wave]
    cases u.wave? core ctx <;> rfl
  rw [hget, hget, h.waves]

/-- A record does not turn on what a request's act changes. -/
theorem Acts.waveEvent (h : Acts ws os s t) (core ctx cls : Nat) (addr : DWord) (virt unc : Bool) (detail : Nat) :
    waveEvent t core ctx cls addr virt unc detail = waveEvent s core ctx cls addr virt unc detail := by
  have hw := streamless_wave h core ctx
  have hstage : (t.wave core ctx).stage = (s.wave core ctx).stage := (congrArg Wave.stage hw :)
  have hidx : (t.wave core ctx).idx = (s.wave core ctx).idx := (congrArg Wave.idx hw :)
  have hgrid : (t.wave core ctx).grid = (s.wave core ctx).grid := (congrArg Wave.grid hw :)
  rw [Proofs.waveEvent, Proofs.waveEvent, h.dtc, hstage, hidx, hgrid]

/-! ### What an instruction in flight is after an act -/

theorem Acts.acc? (h : Acts ws os s t) (core ctx id : Nat) : t.acc? core ctx id = s.acc? core ctx id := by
  have hacc (u : State) : u.acc? core ctx id = ((u.wave? core ctx).map streamless).bind fun w => w.accs.find? (·.id == id) := by
    rw [State.acc?]
    cases u.wave? core ctx <;> rfl
  rw [hacc, hacc, h.waves]

theorem Acts.elem? (h : Acts ws os s t) (r : Req) : t.elem? r = s.elem? r := by
  rw [State.elem?, State.elem?, h.acc?]

/-! ### An element performed -/

theorem find?_modAcc {w : Wave} {id : Nat} {a : Acc} {f : Acc → Acc} (h : w.accs.find? (·.id == id) = some a) (hf : ∀ a, (f a).id = a.id) :
    (w.modAcc id f).accs.find? (·.id == id) = some (f a) := by
  have hkey : (fun y : Acc => y.id == id) ∘ (fun y => if y.id = id then f y else y) = fun y => y.id == id := by
    funext y
    by_cases hy : y.id = id <;> simp [hy, hf]
  have ha : a.id = id := by simpa using List.find?_some h
  rw [Wave.modAcc, List.find?_map, hkey, h, Option.map_some, if_pos ha]

theorem elem?_modElem {r : Req} {e : Elem} (he : s.elem? r = some e) (f : Elem → Elem) : (s.modElem r f).elem? r = some (f e) := by
  obtain ⟨a, hacc, helem⟩ := Option.bind_eq_some_iff.1 he
  obtain ⟨w, hwave, hfind⟩ := Option.bind_eq_some_iff.1 hacc
  have hset : (s.modElem r f).acc? r.core r.ctx r.acc = some (a.setElem r.elem f) := by
    rw [State.acc?, State.modElem, State.wave?_modWave, hwave]
    exact find?_modAcc hfind fun y => by unfold Acc.setElem; split <;> rfl
  rw [State.elem?, hset]
  change (a.setElem r.elem f).elems[r.elem]? = _
  rw [Acc.setElem, helem]
  exact List.getElem?_set_self (List.getElem?_eq_some_iff.1 helem).1

theorem Acts.served {r : Req} {e : Elem} {f : Elem → Elem} {ok err : Bool} {ret : List Byte} {time : DWord} (h : Acts ws os s u)
    (he : s.elem? r = some e) (hf : ∀ e, (f e).done = true ∧ (f e).ok = ok ∧ (f e).err = err ∧ (f e).ret = ret ∧ (f e).ctime = time) :
    Served r ok err ret time ws os s (u.modElem r f) :=
  ⟨h.q, h.rbase, h.mem, h.out, f e, elem?_modElem ((h.elem? r).trans he) f, hf e⟩

theorem Served.acts {r : Req} {ok err : Bool} {ret : List Byte} {time : DWord} (h : Served r ok err ret time ws os s u) (k : Acts [] [] u t) :
    Served r ok err ret time ws os s t := by
  obtain ⟨e, he, hdone⟩ := h.elem
  exact ⟨fun j => (k.q j).trans (h.q j), k.rbase.trans h.rbase, k.mem.trans h.mem, by rw [k.out, h.out, List.append_nil], e, (k.elem? r).trans he, hdone⟩

theorem Served.modBack {r : Req} {ok err : Bool} {ret : List Byte} {time : DWord} (h : Served r ok err ret time ws os s u) (back : Nat) :
    Served r ok err ret time ws os s (u.modElem r fun e => { e with back := back }) := by
  obtain ⟨e, he, hdone⟩ := h.elem
  exact ⟨h.q, h.rbase, h.mem, h.out, _, elem?_modElem he _, hdone⟩

theorem Acts.transServed {r : Req} {ok err : Bool} {ret : List Byte} {time : DWord} (h : Acts ws os s u) (k : Served r ok err ret time ws' os' u t) :
    Served r ok err ret time (ws ++ ws') (os ++ os') s t :=
  ⟨fun j => (k.q j).trans (h.q j), k.rbase.trans h.rbase, by rw [k.mem, h.mem, List.foldl_append], by rw [k.out, h.out, List.append_assoc], k.elem⟩

end

end Sys2Proof.Proofs
end

section
/-! Queue headers as bytes, and one element performed at its address: loads, stores, atomics, pushes and pops (R172, R309, R319, R322 to R324,
R347). -/

namespace Sys2Proof.Proofs
open Sys2Proof Sys2Proof.Machine

section
variable {s t u : State}

/-! ### Bytes where no strip ring is placed -/

theorem inRing_of_rbase (h : s.rbase = none) (pa : Nat) : s.inRing pa = false := by rw [State.inRing, h]

theorem phys_of_rbase (h : s.rbase = none) (pa : Nat) : s.phys pa = s.mem.get pa := by
  rw [State.phys, inRing_of_rbase h]; rfl

theorem agentRead_of_rbase (h : s.rbase = none) (chain : Option Nat) (pa n : Nat) : s.agentRead chain pa n = s.physs pa n := by
  rw [State.agentRead, State.mayRead, inRing_of_rbase h]; rfl

theorem Acts.phys {os : List Out} (h : Acts [] os s t) (hr : s.rbase = none) : t.phys = s.phys := by
  funext pa
  rw [phys_of_rbase hr, phys_of_rbase (h.rbase.trans hr), h.mem]; rfl

theorem Acts.physs {os : List Out} (h : Acts [] os s t) (hr : s.rbase = none) (pa n : Nat) : t.physs pa n = s.physs pa n := by
  rw [State.physs, State.physs, h.phys hr]

theorem physs_succ (s : State) (pa n : Nat) : s.physs pa (n + 1) = s.phys pa :: s.physs (pa + 1) n := by
  simp only [State.physs, List.range_succ_eq_map, List.map_cons, List.map_map, Nat.add_zero]
  congr 1
  exact List.map_congr_left fun i _ => congrArg s.phys (Nat.add_right_comm pa i 1 ▸ by simp; omega)

theorem length_physs (s : State) (pa n : Nat) : (s.physs pa n).length = n := by simp [State.physs]

theorem physs_drop (s : State) (pa n k : Nat) : (s.physs pa (k + n)).drop k = s.physs (pa + k) n := by
  induction k generalizing pa with
  | zero => simp
  | succ k ih => rw [Nat.add_right_comm, physs_succ, List.drop_succ_cons, ih, Nat.add_right_comm, Nat.add_assoc]

theorem physs_take (s : State) (pa n k : Nat) : (s.physs pa (k + n)).take k = s.physs pa k := by
  rw [State.physs, State.physs, ← List.map_take, List.take_range, Nat.min_eq_left (Nat.le_add_right k n)]

theorem leNat_eq_zero {bs : List Byte} : leNat bs = 0 ↔ ∀ b ∈ bs, b = 0 := by
  induction bs with
  | nil => simp [leNat]
  | cons b bs ih =>
    have hb : b.toNat = 0 ↔ b = 0 := by rw [← BitVec.toNat_inj]; rfl
    simp only [leNat, List.forall_mem_cons, ← ih, ← hb]
    omega

/-! ### A queue's header (R322) -/

/-- Byte 12 of a header, and what stands above it. -/
def sizeByte (s : State) (pa : Nat) : Nat := (s.phys (pa + 12)).toNat
def aboveSize (s : State) (pa : Nat) : Nat := leNat (s.physs (pa + 13) 115)

theorem aboveSize_eq_zero {pa : Nat} : aboveSize s pa = 0 ↔ ∀ i, 13 ≤ i → i < 128 → s.phys (pa + i) = 0 := by
  rw [aboveSize, leNat_eq_zero]
  simp only [State.physs, List.mem_map, List.mem_range, forall_exists_index, and_imp, forall_apply_eq_imp_iff₂]
  constructor
  · intro h i h13 h128
    have := h (i - 13) (by omega)
    rwa [Nat.add_assoc, Nat.add_sub_cancel' h13] at this
  · intro h i hi
    have := h (13 + i) (by omega) (by omega)
    rwa [← Nat.add_assoc] at this

theorem header_fields (s : State) (pa : Nat) : bitsOf (leNat (s.physs pa 128)) 0 32 = leNat (s.physs pa 4) ∧
    bitsOf (leNat (s.physs pa 128)) 32 32 = leNat (s.physs (pa + 4) 4) ∧ bitsOf (leNat (s.physs pa 128)) 64 32 = leNat (s.physs (pa + 8) 4) := by
  have hfield (a n : Nat) : leNat (((s.physs pa (a + (4 + n))).drop a).take 4) = leNat (s.physs (pa + a) 4) := by
    rw [physs_drop, physs_take]
  exact ⟨(bitsOf_leNat _ 0 4).trans (hfield 0 124), (bitsOf_leNat _ 4 4).trans (hfield 4 120), (bitsOf_leNat _ 8 4).trans (hfield 8 116)⟩

theorem header_high (s : State) (pa : Nat) : leNat (s.physs pa 128) / 2 ^ 96 = sizeByte s pa + 256 * aboveSize s pa := by
  have hdrop : leNat (s.physs (pa + 12) 116) = leNat (s.physs pa 128) / 256 ^ 12 := by
    rw [← leNat_drop, ← physs_drop s pa 116 12]
  have hpow : (2 : Nat) ^ 96 = 256 ^ 12 := by norm_num
  rw [hpow, ← hdrop, physs_succ]; rfl

theorem header_bits (s : State) (pa : Nat) : bitsOf (leNat (s.physs pa 128)) 96 4 = sizeByte s pa % 16 ∧
    bitsOf (leNat (s.physs pa 128)) 100 2 = sizeByte s pa / 16 % 4 ∧
    bitsOf (leNat (s.physs pa 128)) 102 922 = sizeByte s pa / 64 + 4 * aboveSize s pa := by
  have hhigh := header_high s pa
  have hbyte : sizeByte s pa < 256 := (s.phys (pa + 12)).isLt
  have habove : aboveSize s pa < 256 ^ 115 := length_physs s (pa + 13) 115 ▸ leNat_lt (s.physs (pa + 13) 115)
  have hsplit (n : Nat) : leNat (s.physs pa 128) / 2 ^ (96 + n) = (sizeByte s pa + 256 * aboveSize s pa) / 2 ^ n := by
    rw [Nat.pow_add, ← Nat.div_div_eq_div_mul, hhigh]
  have h96 := hsplit 0
  have h100 := hsplit 4
  have h102 := hsplit 6
  refine ⟨?_, ?_, ?_⟩
  · rw [bitsOf, h96]; omega
  · rw [bitsOf, h100]; omega
  · have hquot : (sizeByte s pa + 256 * aboveSize s pa) / 2 ^ 6 = sizeByte s pa / 64 + 4 * aboveSize s pa := by omega
    have hpow {m n : Nat} (h : m = 8 * n + 2) : (2 : Nat) ^ m = 4 * 256 ^ n := by rw [h, Nat.pow_add, Nat.pow_mul, Nat.mul_comm]
    rw [bitsOf, h102, hquot, Nat.mod_eq_of_lt]
    rw [hpow (show 922 = 8 * 115 + 2 from rfl)]
    generalize 256 ^ 115 = bound at habove
    omega

/-- The header as an agent reads it, of a queue whose capacity's logarithm is lg. -/
def headerOf (s : State) (pa lg : Nat) : QHdr := ⟨leNat (s.physs pa 4), leNat (s.physs (pa + 4) 4), leNat (s.physs (pa + 8) 4), 2 ^ lg⟩

theorem qhdr_of_queueAt (hr : s.rbase = none) {chain : Option Nat} {pa code size lg room : Nat} (hcode : code < 4) (h : s.queueAt pa code size lg room) :
    s.qhdr chain pa code size room = some (headerOf s pa lg) := by
  obtain ⟨hlg, hbyte, habove, hroom⟩ := h
  obtain ⟨hhead, htail, hdrop⟩ := header_fields s pa
  obtain ⟨h96, h100, h102⟩ := header_bits s pa
  rw [aboveSize_eq_zero.2 habove] at h102
  have hsize : sizeByte s pa = lg + 16 * code := hbyte
  have hlog : bitsOf (leNat (s.physs pa 128)) 96 4 = lg := by omega
  have hsz : bitsOf (leNat (s.physs pa 128)) 100 2 = code := by omega
  have hzero : bitsOf (leNat (s.physs pa 128)) 102 922 = 0 := by omega
  have hlow : ¬20 < lg := by omega
  simp only [State.qhdr, agentRead_of_rbase hr, hlog, hsz, hzero, hhead, htail, hdrop, Nat.add_zero, bne_self_eq_false, hlow, Nat.not_lt.2 hroom,
    decide_false, Bool.or_self, Bool.false_eq_true, ↓reduceIte]
  rfl

theorem qhdr_eq_none (hr : s.rbase = none) {chain : Option Nat} {pa code size room : Nat} (h : ∀ lg, ¬s.queueAt pa code size lg room) :
    s.qhdr chain pa code size room = none := by
  obtain ⟨h96, h100, h102⟩ := header_bits s pa
  simp only [State.qhdr, agentRead_of_rbase hr, Nat.add_zero]
  refine if_pos ?_
  by_contra hok
  simp only [Bool.or_eq_true, bne_iff_ne, decide_eq_true_eq, not_or, not_not, Nat.not_lt] at hok
  obtain ⟨⟨⟨hzero, -⟩, hsz⟩, hroom⟩ := hok
  refine h (sizeByte s pa % 16) ⟨by omega, ?_, aboveSize_eq_zero.1 (by omega), h96 ▸ hroom⟩
  change sizeByte s pa = _
  omega

theorem Acts.qhdr {os : List Out} (h : Acts [] os s t) (hr : s.rbase = none) (chain chain' : Option Nat) (pa code bytes room : Nat) :
    t.qhdr chain pa code bytes room = s.qhdr chain' pa code bytes room := by
  rw [State.qhdr, State.qhdr, agentRead_of_rbase hr, agentRead_of_rbase (h.rbase.trans hr), h.physs hr]

end

end Sys2Proof.Proofs
end

section
/-! One element performed at its address: loads, stores, atomics, pushes and pops (R172, R309, R319, R322 to R324, R347). -/

namespace Sys2Proof.Proofs
open Sys2Proof Sys2Proof.Machine

/-- A request's element is in flight, no strip ring is placed and no unit of memory is bad. -/
structure Performing (r : Req) (a : Acc) (e : Elem) (s : State) : Prop where
  rbase : s.rbase = none
  badMem : s.badMem = []
  acc : s.acc? r.core r.ctx r.acc = some a
  elem : s.elem? r = some e

section
variable {r : Req} {a : Acc} {e : Elem} {s t u : State} {ws : List (Nat × List Byte)} {os : List Out} {time : DWord}

theorem Performing.acts (h : Performing r a e s) (k : Acts ws os s u) : Performing r a e u :=
  ⟨k.rbase.trans h.rbase, k.badMem.trans h.badMem, (k.acc? ..).trans h.acc, (k.elem? r).trans h.elem⟩

theorem bad_of_nil (h : s.badMem = []) (pa n : Nat) : s.bad pa n = false := by rw [State.bad, h]; rfl

theorem badBeside_of_nil (h : s.badMem = []) (pa n : Nat) : s.badBeside pa n = false := by rw [State.badBeside, h]; rfl

theorem any_false (slot : Option Nat) : (slot.any fun _ => false) = false := by cases slot <;> rfl

/-- The state in which an element's operation is looked at: its lines left the L1. -/
abbrev offL1 (s : State) (r : Req) (e : Elem) : State := s.dropL1 r.core e.pa e.len

theorem acts_offL1 (s : State) (r : Req) (e : Elem) : Acts [] [] s (offL1 s r e) := acts_dropL1 ..

theorem Acts.finished (h : Acts ws os s u) (he : s.elem? r = some e) (ok err : Bool) (ret : List Byte) (time : DWord) :
    Served r ok err ret time ws os s (u.modElem r fun e => e.finish ok err ret time) :=
  h.served he fun _ => ⟨rfl, rfl, rfl, rfl, rfl⟩

/-! ### Loads and stores -/

section
variable (h : Performing r a e s)
include h

theorem served_load {cg : Bool} (hop : a.op = .load cg) (time : DWord) :
    Served r true false (s.physs e.pa e.len) 0 [] [] s (s.performElem r time) := by
  have hacts := acts_offL1 s r e
  have hu := h.acts hacts
  have hread : (offL1 s r e).agentRead ((offL1 s r e).chainOf r.core r.ctx) e.pa e.len = s.physs e.pa e.len := by
    rw [agentRead_of_rbase hu.rbase, hacts.physs h.rbase]
  have hdone := hacts.finished h.elem true false (s.physs e.pa e.len) 0
  unfold State.performElem
  simp only [h.acc, h.elem, hop, bad_of_nil hu.badMem, Option.any_none, Bool.or_self, Bool.false_eq_true, ↓reduceIte, hread]
  split
  · exact hdone
  · exact hdone.acts (acts_grantLease ..)

theorem served_store (hop : a.op = .store) (time : DWord) : Served r true false [] time [(e.pa, e.data)] [] s (s.performElem r time) := by
  have hacts := acts_offL1 s r e
  have hu := h.acts hacts
  unfold State.performElem
  simp only [h.acc, h.elem, hop, badBeside_of_nil hu.badMem, Bool.false_eq_true, ↓reduceIte]
  exact ((hacts.trans (acts_agentWrite hu.rbase ..)).trans (acts_staleAt ..)).finished h.elem ..

/-! ### Atomics (R172) -/

theorem served_rmw (f : Nat → Nat) (time : DWord) :
    Served r true false (s.physs e.pa e.len) time [(e.pa, leBytes e.len (f (leNat (s.physs e.pa e.len))))] [] s (s.rmw r e time f) := by
  unfold State.rmw
  rw [bad_of_nil h.badMem, if_neg Bool.false_ne_true]
  simp only [agentRead_of_rbase h.rbase]
  exact ((((acts_agentWrite h.rbase ..).trans (acts_acquireVia ..)).trans (acts_releaseVia ..)).trans (acts_staleAt ..)).finished h.elem ..

theorem served_rmw_offL1 (f : Nat → Nat) (time : DWord) :
    Served r true false (s.physs e.pa e.len) time [(e.pa, leBytes e.len (f (leNat (s.physs e.pa e.len))))] [] s ((offL1 s r e).rmw r e time f) := by
  have hacts := acts_offL1 s r e
  have hrmw := served_rmw (h.acts hacts) f time
  rw [hacts.physs h.rbase] at hrmw
  exact hacts.transServed hrmw

theorem served_atom {op : AtomOp} (hop : a.op = .atom op) (time : DWord) : Served r true false (s.physs e.pa e.len) time
    [(e.pa, leBytes e.len (atomNew op (8 * e.len) (leNat (s.physs e.pa e.len)) (leNat e.data)))] [] s (s.performElem r time) := by
  unfold State.performElem
  simp only [h.acc, h.elem, hop]
  exact served_rmw_offL1 h (fun old => atomNew op (8 * e.len) old (leNat e.data)) time

theorem served_cas (hop : a.op = .cas) (time : DWord) : Served r true false (s.physs e.pa e.len) time
    [(e.pa, leBytes e.len (if leNat (s.physs e.pa e.len) = leNat e.cmp then leNat e.data else leNat (s.physs e.pa e.len)))] [] s
    (s.performElem r time) := by
  unfold State.performElem
  simp only [h.acc, h.elem, hop]
  exact served_rmw_offL1 h (fun old => if old = leNat e.cmp then leNat e.data else old) time

end

/-! ### Queues (R322 to R324, R347) -/

/-- What the outcome of a queue's element says of it. -/
theorem Acts.qFinish {x : QRes} (h : Acts ws os s x.s) (he : s.elem? r = some e) : Served r x.ok false x.ret x.t ws os s (State.qFinish r x) :=
  h.served he fun _ => ⟨rfl, rfl, rfl, rfl, rfl⟩

theorem acts_slotLine (s : State) (r : Req) (pa n : Nat) : Acts [] [] s (s.slotLine r pa n).1 :=
  (acts_dropL1 ..).trans (acts_dropClaim ..)

/-- The slot an index names in a queue of 2^lg slots of a size. -/
def slotPlace (pa i lg size : Nat) : Nat := pa + 128 + i % 2 ^ lg * size

/-- What a push writes where there is room: the slot, and the tail above it. -/
def pushWrites (s : State) (pa lg size : Nat) (data : Nat → List Byte) : List (Nat × List Byte) :=
  let tail := leNat (s.physs (pa + 4) 4)
  [(slotPlace pa tail lg size, data tail), (pa + 4, leBytes 4 ((tail + 1) % 2 ^ 32))]

section
variable {chain : Option Nat} {size lg : Nat}

theorem pushSlot_of_room (hh : s.qhdr chain e.pa (qCode size) size e.room = some (headerOf s e.pa lg)) (hroom : (headerOf s e.pa lg).count < 2 ^ lg) :
    s.pushSlot chain e size = some (slotPlace e.pa (leNat (s.physs (e.pa + 4) 4)) lg size) := by
  rw [State.pushSlot, hh, Option.bind_some]
  exact if_pos hroom

theorem pushSlot_of_full (hh : s.qhdr chain e.pa (qCode size) size e.room = some (headerOf s e.pa lg)) (hfull : 2 ^ lg ≤ (headerOf s e.pa lg).count) :
    s.pushSlot chain e size = none := by
  rw [State.pushSlot, hh, Option.bind_some]
  exact if_neg (Nat.not_lt.2 hfull)

theorem popSlot_of_filled (hh : s.qhdr chain e.pa (qCode size) size e.room = some (headerOf s e.pa lg)) (hne : (headerOf s e.pa lg).count ≠ 0) :
    s.popSlot chain e size = some (slotPlace e.pa (leNat (s.physs e.pa 4)) lg size) := by
  rw [State.popSlot, hh, Option.bind_some]
  exact if_neg hne

theorem popSlot_of_empty (hh : s.qhdr chain e.pa (qCode size) size e.room = some (headerOf s e.pa lg)) (hempty : (headerOf s e.pa lg).count = 0) :
    s.popSlot chain e size = none := by
  rw [State.popSlot, hh, Option.bind_some]
  exact if_pos hempty

theorem acts_qPush_room (h : Performing r a e s) (hh : s.qhdr chain e.pa (qCode size) size e.room = some (headerOf s e.pa lg))
    (hroom : (headerOf s e.pa lg).count < 2 ^ lg) (drop : Bool) (time : DWord) (data : Nat → List Byte) : ∃ x, s.qPush r chain e size drop time data = x ∧
      Acts (pushWrites s e.pa lg size data) [] s x.s ∧ x.ok = true ∧ x.ret = [] := by
  refine ⟨_, rfl, ?_⟩
  have hslot := acts_slotLine s r (slotPlace e.pa (leNat (s.physs (e.pa + 4) 4)) lg size) size
  have hu := h.acts hslot
  rw [State.qPush]
  simp only [hh, pushSlot_of_room hh hroom, badBeside_of_nil hu.badMem, Bool.false_eq_true, ↓reduceIte, and_self, and_true]
  have hwrite := acts_agentWrite hu.rbase chain (slotPlace e.pa (leNat (s.physs (e.pa + 4) 4)) lg size) (data (headerOf s e.pa lg).tail)
  exact (hslot.trans hwrite).trans (acts_agentWrite (hu.acts hwrite).rbase ..)

theorem acts_qPush_full (h : Performing r a e s) (hh : s.qhdr chain e.pa (qCode size) size e.room = some (headerOf s e.pa lg))
    (hfull : 2 ^ lg ≤ (headerOf s e.pa lg).count) (drop : Bool) (time : DWord) (data : Nat → List Byte) :
    ∃ x, s.qPush r chain e size drop time data = x ∧ x.ok = false ∧ x.ret = [] ∧
      Acts (if drop then [(e.pa + 8, leBytes 4 ((leNat (s.physs (e.pa + 8) 4) + 1) % 2 ^ 32))] else []) [] s x.s := by
  refine ⟨_, rfl, ?_⟩
  rw [State.qPush]
  simp only [hh, pushSlot_of_full hh hfull]
  cases drop with
  | true => exact ⟨rfl, rfl, acts_agentWrite h.rbase ..⟩
  | false => exact ⟨rfl, rfl, .refl s⟩

theorem acts_qPop_filled (h : Performing r a e s) (hh : s.qhdr chain e.pa (qCode size) size e.room = some (headerOf s e.pa lg))
    (hne : (headerOf s e.pa lg).count ≠ 0) (time : DWord) : ∃ x, s.qPop r chain e size time = x ∧ x.ok = true ∧
      x.ret = s.physs (slotPlace e.pa (leNat (s.physs e.pa 4)) lg size) size ∧
      Acts [(e.pa, leBytes 4 ((leNat (s.physs e.pa 4) + 1) % 2 ^ 32))] [] s x.s := by
  refine ⟨_, rfl, ?_⟩
  have hslot := acts_slotLine s r (slotPlace e.pa (leNat (s.physs e.pa 4)) lg size) size
  have hu := h.acts hslot
  rw [State.qPop]
  simp only [hh, popSlot_of_filled hh hne]
  refine ⟨trivial, ?_, hslot.trans (acts_agentWrite hu.rbase ..)⟩
  rw [agentRead_of_rbase hu.rbase, hslot.physs h.rbase]

theorem qPop_empty (hh : s.qhdr chain e.pa (qCode size) size e.room = some (headerOf s e.pa lg)) (hempty : (headerOf s e.pa lg).count = 0)
    (time : DWord) : s.qPop r chain e size time = ⟨s, false, List.replicate size 0, time, false⟩ := by
  rw [State.qPop]
  simp only [hh, popSlot_of_empty hh hempty]

/-- The first element of an instruction that finds its header bad leaves the record. -/
theorem acts_qBad (h : Performing r a e s) (hlog : s.pools.logRing = none) (hfirst : ∀ x ∈ a.elems, x.badHdr = false) (n : Nat) (time : DWord) :
    Acts [] [waveEvent s r.core r.ctx tcEncoding e.va true false 0] s (s.qBad r e n time).s := by
  have hnot : a.elems.any (·.badHdr) = false := by simpa [List.any_eq_false] using hfirst
  rw [State.qBad, h.acc]
  simp only [Option.any_some, hnot, Bool.false_eq_true, ↓reduceIte]
  exact acts_recordWave hlog ..

end

/-! ### Each queue instruction's element -/

/-- How a state after some acts without a write reads a header. -/
theorem Acts.header (h : Acts [] os s u) (hr : s.rbase = none) {chain chain' : Option Nat} {pa code size room lg : Nat}
    (hh : s.qhdr chain pa code size room = some (headerOf s pa lg)) : u.qhdr chain' pa code size room = some (headerOf u pa lg) := by
  rw [h.qhdr hr chain' chain, hh, headerOf, headerOf, h.physs hr, h.physs hr, h.physs hr]

theorem Acts.headerOf (h : Acts [] os s u) (hr : s.rbase = none) (pa lg : Nat) : headerOf u pa lg = headerOf s pa lg := by
  rw [Proofs.headerOf, Proofs.headerOf, h.physs hr, h.physs hr, h.physs hr]

theorem Acts.pushWrites (h : Acts [] os s u) (hr : s.rbase = none) (pa lg size : Nat) (data : Nat → List Byte) :
    pushWrites u pa lg size data = pushWrites s pa lg size data := by
  rw [Proofs.pushWrites, Proofs.pushWrites, h.physs hr]

/-- The slot's size, the drop rule and the bytes of a push: qpush's, or task's with the tail as its index (R323, R347). -/
structure PushForm (a : Acc) (e : Elem) (size : Nat) (drop : Bool) (data : Nat → List Byte) : Prop where
  slot : ∀ (s : State) (r : Req), s.acc? r.core r.ctx r.acc = some a → s.elem? r = some e → r.for_ = .elem →
    s.slotAt r = s.pushSlot (s.chainOf r.core r.ctx) e size
  perform : ∀ (s : State) (r : Req) (time : DWord), Performing r a e s →
    s.performElem r time = State.qFinish r ((offL1 s r e).qPush r ((offL1 s r e).chainOf r.core r.ctx) e size drop time data)

theorem pushForm_push {size : Nat} {c drop : Bool} (hop : a.op = .push size c drop) : PushForm a e size drop fun _ => e.data := by
  refine ⟨fun s r ha he hfor => ?_, fun s r time h => ?_⟩
  · rw [State.slotAt, hfor]
    simp only [ha, he, hop]
  · have hbad := (h.acts (acts_offL1 s r e)).badMem
    unfold State.performElem
    simp only [h.acc, h.elem, hop, bad_of_nil hbad, Option.any_none, Bool.or_self, Bool.false_eq_true, ↓reduceIte]

theorem pushForm_task (hop : a.op = .task) : PushForm a e 64 (a.pred == .null)
    fun tail => e.data.take 8 ++ leBytes 4 tail ++ List.replicate 20 0 ++ e.data.drop 8 := by
  refine ⟨fun s r ha he hfor => ?_, fun s r time h => ?_⟩
  · rw [State.slotAt, hfor]
    simp only [ha, he, hop]
  · have hbad := (h.acts (acts_offL1 s r e)).badMem
    unfold State.performElem
    simp only [h.acc, h.elem, hop, bad_of_nil hbad, Option.any_none, Bool.or_self, Bool.false_eq_true, ↓reduceIte]

section
variable {chain : Option Nat} {size lg : Nat} {drop : Bool} {data : Nat → List Byte} (h : Performing r a e s)
include h

theorem served_push_room (hform : PushForm a e size drop data) (hh : s.qhdr chain e.pa (qCode size) size e.room = some (headerOf s e.pa lg))
    (hroom : (headerOf s e.pa lg).count < 2 ^ lg) (time : DWord) :
    ∃ time', Served r true false [] time' (pushWrites s e.pa lg size data) [] s (s.performElem r time) := by
  have hacts := acts_offL1 s r e
  obtain ⟨x, hx, hpush, hok, hret⟩ := acts_qPush_room (chain := (offL1 s r e).chainOf r.core r.ctx) (h.acts hacts) (hacts.header h.rbase hh)
    (hacts.headerOf h.rbase e.pa lg ▸ hroom) drop time data
  rw [hacts.pushWrites h.rbase] at hpush
  have hfin := (hacts.trans hpush).qFinish h.elem
  rw [hok, hret] at hfin
  rw [hform.perform s r time h, hx]
  exact ⟨_, hfin⟩

theorem served_push_full (hform : PushForm a e size drop data) (hh : s.qhdr chain e.pa (qCode size) size e.room = some (headerOf s e.pa lg))
    (hfull : 2 ^ lg ≤ (headerOf s e.pa lg).count) (time : DWord) :
    ∃ time', Served r false false [] time' (if drop then [(e.pa + 8, leBytes 4 ((leNat (s.physs (e.pa + 8) 4) + 1) % 2 ^ 32))] else []) [] s
      (s.performElem r time) := by
  have hacts := acts_offL1 s r e
  obtain ⟨x, hx, hok, hret, hpush⟩ := acts_qPush_full (chain := (offL1 s r e).chainOf r.core r.ctx) (h.acts hacts) (hacts.header h.rbase hh)
    (hacts.headerOf h.rbase e.pa lg ▸ hfull) drop time data
  rw [hacts.physs h.rbase] at hpush
  have hfin := (hacts.trans hpush).qFinish h.elem
  rw [hok, hret] at hfin
  rw [hform.perform s r time h, hx]
  exact ⟨_, hfin⟩

theorem performElem_pop (hop : a.op = .pop size) (time : DWord) :
    s.performElem r time = State.qFinish r ((offL1 s r e).qPop r ((offL1 s r e).chainOf r.core r.ctx) e size time) := by
  have hbad := (h.acts (acts_offL1 s r e)).badMem
  unfold State.performElem
  simp only [h.acc, h.elem, hop, bad_of_nil hbad, any_false, Bool.or_self, Bool.false_eq_true, ↓reduceIte]

theorem served_pop_filled (hop : a.op = .pop size) (hh : s.qhdr chain e.pa (qCode size) size e.room = some (headerOf s e.pa lg))
    (hne : (headerOf s e.pa lg).count ≠ 0) (time : DWord) :
    ∃ time', Served r true false (s.physs (slotPlace e.pa (leNat (s.physs e.pa 4)) lg size) size) time'
      [(e.pa, leBytes 4 ((leNat (s.physs e.pa 4) + 1) % 2 ^ 32))] [] s (s.performElem r time) := by
  have hacts := acts_offL1 s r e
  obtain ⟨x, hx, hok, hret, hpop⟩ := acts_qPop_filled (chain := (offL1 s r e).chainOf r.core r.ctx) (h.acts hacts) (hacts.header h.rbase hh)
    (hacts.headerOf h.rbase e.pa lg ▸ hne) time
  rw [hacts.physs h.rbase] at hpop hret
  rw [hacts.physs h.rbase] at hret
  have hfin := (hacts.trans hpop).qFinish h.elem
  rw [hok, hret] at hfin
  rw [performElem_pop h hop time, hx]
  exact ⟨_, hfin⟩

theorem served_pop_empty (hop : a.op = .pop size) (hh : s.qhdr chain e.pa (qCode size) size e.room = some (headerOf s e.pa lg))
    (hempty : (headerOf s e.pa lg).count = 0) (time : DWord) :
    Served r false false (List.replicate size 0) time [] [] s (s.performElem r time) := by
  have hacts := acts_offL1 s r e
  rw [performElem_pop h hop time, qPop_empty (hacts.header h.rbase hh) (hacts.headerOf h.rbase e.pa lg ▸ hempty) time]
  exact Acts.qFinish (x := ⟨offL1 s r e, false, List.replicate size 0, time, false⟩) hacts h.elem

/-- An element whose header is bad, of a push or a pop, is the first of its instruction to find it so. -/
theorem served_bad (hop : (∃ c drop, a.op = .push size c drop) ∨ a.op = .pop size) (hh : s.qhdr chain e.pa (qCode size) size e.room = none)
    (hlog : s.pools.logRing = none) (hfirst : ∀ x ∈ a.elems, x.badHdr = false) (time : DWord) :
    Served r false false (if a.op = .pop size then List.replicate size 0 else []) time [] [waveEvent s r.core r.ctx tcEncoding e.va true false 0] s
      (s.performElem r time) := by
  have hacts := acts_offL1 s r e
  have hu := h.acts hacts
  have hnone : (offL1 s r e).qhdr ((offL1 s r e).chainOf r.core r.ctx) e.pa (qCode size) size e.room = none := (hacts.qhdr h.rbase ..).trans hh
  have hbad (n : Nat) := hacts.trans (acts_qBad hu (hacts.pools ▸ hlog) hfirst n time)
  rw [hacts.waveEvent] at hbad
  obtain ⟨c, drop, hpush⟩ | hpop := hop
  · rw [(pushForm_push hpush).perform s r time h, State.qPush, hnone, if_neg (by rw [hpush]; exact ElemOp.noConfusion)]
    exact (hbad 0).qFinish h.elem
  · rw [performElem_pop h hpop time, State.qPop, hnone, if_pos hpop]
    exact (hbad size).qFinish h.elem

end

end

end Sys2Proof.Proofs
end

section
/-! A request of a slice's queue served at a present line (R309, R312). -/

namespace Sys2Proof.Proofs
open Sys2Proof Sys2Proof.Machine

/-- After any act that writes nothing, the request's element is performed with this outcome and these writes and messages. -/
def ServesAs (r : Req) (ok err : Bool) (ret : List Byte) (ws : List (Nat × List Byte)) (os : List Out) (s : State) : Prop :=
  ∀ u time, Acts [] [] s u → ∃ time', Served r ok err ret time' ws os u (u.performElem r time)

section
variable {r : Req} {a : Acc} {e : Elem} {s t : State} {ws : List (Nat × List Byte)} {os : List Out} {ok err : Bool} {ret : List Byte}

/-! ### What each operation serves as -/

section
variable (h : Performing r a e s) (hpa : e.pa = r.pa)
include h hpa

theorem servesAs_load {cg : Bool} (hop : a.op = .load cg) : ServesAs r true false (s.physs r.pa e.len) [] [] s := fun u time hacts =>
  ⟨0, by rw [← hpa, ← hacts.physs h.rbase]; exact served_load (h.acts hacts) hop time⟩

theorem servesAs_store (hop : a.op = .store) : ServesAs r true false [] [(r.pa, e.data)] [] s := fun u time hacts =>
  ⟨time, by rw [← hpa]; exact served_store (h.acts hacts) hop time⟩

theorem servesAs_atom {op : AtomOp} (hop : a.op = .atom op) : ServesAs r true false (s.physs r.pa e.len)
    [(r.pa, leBytes e.len (atomNew op (8 * e.len) (leNat (s.physs r.pa e.len)) (leNat e.data)))] [] s := fun u time hacts =>
  ⟨time, by rw [← hpa, ← hacts.physs h.rbase]; exact served_atom (h.acts hacts) hop time⟩

theorem servesAs_cas (hop : a.op = .cas) : ServesAs r true false (s.physs r.pa e.len)
    [(r.pa, leBytes e.len (if leNat (s.physs r.pa e.len) = leNat e.cmp then leNat e.data else leNat (s.physs r.pa e.len)))] [] s := fun u time hacts =>
  ⟨time, by rw [← hpa, ← hacts.physs h.rbase]; exact served_cas (h.acts hacts) hop time⟩

section
variable {size lg : Nat} {drop : Bool} {data : Nat → List Byte} {code : Nat} (hcode : qCode size = code)
  (hq : s.queueAt r.pa code size lg e.room)
include hcode hq

theorem qhdr_of_header (chain : Option Nat) : s.qhdr chain e.pa (qCode size) size e.room = some (headerOf s e.pa lg) := by
  have hlt : qCode size < 4 := by unfold qCode; split_ifs <;> decide
  rw [hcode] at hlt ⊢
  exact qhdr_of_queueAt h.rbase hlt (hpa ▸ hq)

theorem servesAs_push_room (hform : PushForm a e size drop data) (hroom : (headerOf s r.pa lg).count < 2 ^ lg) :
    ServesAs r true false [] (pushWrites s r.pa lg size data) [] s := fun u time hacts => by
  rw [← hpa, ← hacts.pushWrites h.rbase]
  exact served_push_room (chain := none) (h.acts hacts) hform (hacts.header h.rbase (qhdr_of_header h hpa hcode hq none))
    (by rwa [hacts.headerOf h.rbase, hpa]) time

theorem servesAs_push_full (hform : PushForm a e size drop data) (hfull : 2 ^ lg ≤ (headerOf s r.pa lg).count) :
    ServesAs r false false [] (if drop then [(r.pa + 8, leBytes 4 ((leNat (s.physs (r.pa + 8) 4) + 1) % 2 ^ 32))] else []) [] s := fun u time hacts => by
  rw [← hpa, ← hacts.physs h.rbase]
  exact served_push_full (chain := none) (h.acts hacts) hform (hacts.header h.rbase (qhdr_of_header h hpa hcode hq none))
    (by rwa [hacts.headerOf h.rbase, hpa]) time

theorem servesAs_pop_filled (hop : a.op = .pop size) (hne : (headerOf s r.pa lg).count ≠ 0) :
    ServesAs r true false (s.physs (slotPlace r.pa (leNat (s.physs r.pa 4)) lg size) size)
      [(r.pa, leBytes 4 ((leNat (s.physs r.pa 4) + 1) % 2 ^ 32))] [] s := fun u time hacts => by
  rw [← hpa, ← hacts.physs h.rbase, ← hacts.physs h.rbase]
  exact served_pop_filled (chain := none) (h.acts hacts) hop (hacts.header h.rbase (qhdr_of_header h hpa hcode hq none))
    (by rwa [hacts.headerOf h.rbase, hpa]) time

theorem servesAs_pop_empty (hop : a.op = .pop size) (hempty : (headerOf s r.pa lg).count = 0) :
    ServesAs r false false (List.replicate size 0) [] [] s := fun u time hacts =>
  ⟨time, served_pop_empty (chain := none) (h.acts hacts) hop (hacts.header h.rbase (qhdr_of_header h hpa hcode hq none))
    (by rwa [hacts.headerOf h.rbase, hpa]) time⟩

end

theorem qhdr_of_noHeader {size : Nat} (hno : ∀ lg, ¬s.queueAt r.pa (qCode size) size lg e.room) (chain : Option Nat) :
    s.qhdr chain e.pa (qCode size) size e.room = none :=
  qhdr_eq_none h.rbase (hpa ▸ hno)

theorem servesAs_bad {size : Nat} (hop : (∃ c drop, a.op = .push size c drop) ∨ a.op = .pop size)
    (hno : ∀ lg, ¬s.queueAt r.pa (qCode size) size lg e.room) (hlog : s.pools.logRing = none) (hfirst : ∀ x ∈ a.elems, x.badHdr = false) :
    ServesAs r false false (if a.op = .pop size then List.replicate size 0 else []) []
      [waveEvent s r.core r.ctx tcEncoding e.va true false 0] s := fun u time hacts => by
  rw [← hacts.waveEvent]
  have hnone : u.qhdr none e.pa (qCode size) size e.room = none := (hacts.qhdr h.rbase none none ..).trans (qhdr_of_noHeader h hpa hno none)
  exact ⟨time, served_bad (h.acts hacts) hop hnone (hacts.pools ▸ hlog) hfirst time⟩

end

/-! ### Where it finds its slot present -/

theorem slotNeed_of_none (h : s.slotAt r = none) : s.slotNeed r = none := by rw [State.slotNeed, h]; rfl

theorem slotNeed_of_in {p : Nat} (h : s.slotAt r = some p) (hin : s.lineIn (p / 128) = true) : s.slotNeed r = none := by
  rw [State.slotNeed, h]
  simp [hin]

section
variable (h : Performing r a e s) (hfor : r.for_ = .elem)
include h hfor

theorem slotNeed_plain (hop : (∃ cg, a.op = .load cg) ∨ a.op = .store ∨ (∃ op, a.op = .atom op) ∨ a.op = .cas) : s.slotNeed r = none := by
  refine slotNeed_of_none ?_
  rw [State.slotAt, hfor]
  obtain ⟨cg, hop⟩ | hop | ⟨op, hop⟩ | hop := hop
  all_goals simp only [h.acc, h.elem, hop]

theorem slotAt_pop {size : Nat} (hop : a.op = .pop size) : s.slotAt r = s.popSlot (s.chainOf r.core r.ctx) e size := by
  rw [State.slotAt, hfor]
  simp only [h.acc, h.elem, hop]

theorem slotNeed_bad (hpa : e.pa = r.pa) {size : Nat} (hop : (∃ c drop, a.op = .push size c drop) ∨ a.op = .pop size)
    (hno : ∀ lg, ¬s.queueAt r.pa (qCode size) size lg e.room) : s.slotNeed r = none := by
  have hnone := qhdr_of_noHeader h hpa hno (s.chainOf r.core r.ctx)
  refine slotNeed_of_none ?_
  obtain ⟨c, drop, hpush⟩ | hpop := hop
  · rw [(pushForm_push hpush).slot s r h.acc h.elem hfor, State.pushSlot, hnone]; rfl
  · rw [slotAt_pop h hfor hpop, State.popSlot, hnone]; rfl

end

/-! ### The request leaves its queue (R309) -/

/-- The state once a request has left its slice's queue. -/
def dequeued (s : State) (k pos : Nat) (r : Req) : State :=
  s.modSlice k fun x => ({ x with q := x.q.eraseIdx pos } : Slice).nextHead pos s.tu r.src

theorem qLeft_dequeued (s : State) (k pos : Nat) (r : Req) : QLeft (s.slice k).q ((dequeued s k pos r).slice k).q pos := by
  have hsame (q : List Req) : (q.map fun y => if y.src = r.src then { y with head := max y.head s.tu } else y).map (fun y => { y with head := 0 }) =
      q.map fun y => { y with head := 0 } := by
    rw [List.map_map]
    refine List.map_congr_left fun y _ => ?_
    by_cases hy : y.src = r.src <;> simp [hy]
  rw [QLeft, dequeued, State.slice_modSlice, Slice.nextHead]
  dsimp only
  rw [List.map_append, hsame, ← List.map_append, List.take_append_drop]

theorem Performing.dequeued (h : Performing r a e s) (k pos : Nat) : Performing r a e (dequeued s k pos r) := ⟨h.rbase, h.badMem, h.acc, h.elem⟩

/-- The request is the next of its slice's queue, and its line is present and no unit's. -/
structure NextPresent (s : State) (r : Req) (pos : Nat) (l : L2Line) : Prop where
  queued : (s.slice (sliceOf r.pa)).q[pos]? = some r
  inOrder : s.inOrder (sliceOf r.pa) pos r = true
  first : s.outranked (sliceOf r.pa) r = false
  line : (s.slice (sliceOf r.pa)).lines.find? (·.line == r.pa / 128) = some l
  miss : l.miss = none
  claim : l.claim = none

theorem exec_sliceRequest {k pos : Nat} (hqueued : (s.slice k).q[pos]? = some r) (horder : s.inOrder k pos r = true)
    (hfirst : s.outranked k r = false) (hserve : s.serve k pos r = some t) : exec (.sliceRequest k pos) s = .next t := by
  change execSliceRequest k pos s = _
  refine event_some ?_
  simp only [hqueued, horder, hfirst, hserve, Bool.not_true, Bool.or_self, Bool.false_eq_true, ↓reduceIte]

theorem serve_present {pos : Nat} {l : L2Line} (hr : s.rbase = none) (hn : NextPresent s r pos l) (hneed : s.slotNeed r = none) :
    s.serve (sliceOf r.pa) pos r = some (((dequeued s (sliceOf r.pa) pos r).dropClaim l.line).performAt r) := by
  rw [State.serve, inRing_of_rbase hr]
  simp only [hn.line, hn.miss, hn.claim, hneed, Option.any_none, Bool.false_eq_true, ↓reduceIte]
  rfl

/-! ### It is performed -/

/-- From s to t the request was answered so; these bytes were written and these messages sent. -/
structure Answers (r : Req) (ok err : Bool) (ret : List Byte) (ws : List (Nat × List Byte)) (os : List Out) (s t : State) : Prop where
  answered : Answered t r ok err ret
  mem : t.mem = ws.foldl (fun m w => m.puts w.1 w.2) s.mem
  rbase : t.rbase = s.rbase
  out : t.out = s.out ++ os

theorem Served.answers {time : DWord} (h : Served r ok err ret time ws os s t) : Answers r ok err ret ws os s t := by
  obtain ⟨e, he, hdone, hok, herr, hret, -⟩ := h.elem
  exact ⟨⟨e, he, hdone, hok, herr, hret⟩, h.mem, h.rbase, h.out⟩

theorem performAt_served (hfor : r.for_ = .elem) (h : ServesAs r ok err ret ws os s) : ∃ time, Served r ok err ret time ws os s (s.performAt r) := by
  have hused := acts_modLine s (sliceOf r.pa) (r.pa / 128) fun y => { y with used := s.tu }
  obtain ⟨time, hserved⟩ := h _ (s.writeTime r.pa) hused
  refine ⟨time, ?_⟩
  rw [State.performAt, State.performReq, hfor]
  exact hused.transServed ((hserved.modBack _).acts (acts_unhold ..))

theorem ServesAs.acts {u : State} (h : ServesAs r ok err ret ws os s) (k : Acts [] [] s u) : ServesAs r ok err ret ws os u := fun v time hacts =>
  h v time (k.trans hacts)

theorem runs_present {pos : Nat} {l : L2Line} (hr : s.rbase = none) (hfor : r.for_ = .elem) (hn : NextPresent s r pos l)
    (hneed : s.slotNeed r = none) (h : ServesAs r ok err ret ws os (dequeued s (sliceOf r.pa) pos r)) :
    Runs (.sliceRequest (sliceOf r.pa) pos) s fun t => QLeft (s.slice (sliceOf r.pa)).q (t.slice (sliceOf r.pa)).q pos ∧
      Answers r ok err ret ws os s t := by
  have hclaim := acts_dropClaim (dequeued s (sliceOf r.pa) pos r) l.line
  obtain ⟨time, hserved⟩ := performAt_served hfor (h.acts hclaim)
  have htotal := hclaim.transServed hserved
  refine ⟨_, exec_sliceRequest hn.queued hn.inOrder hn.first (serve_present hr hn hneed), ?_, ?_⟩
  · rw [htotal.q]
    exact qLeft_dequeued ..
  · obtain ⟨hanswered, hmem, hrbase, hout⟩ := htotal.answers
    exact ⟨hanswered, hmem, hrbase, hout⟩

/-! ### The bytes that an answer leaves -/

theorem Answers.stored {pa : Nat} {bs : List Byte} (h : Answers r ok err ret [(pa, bs)] os s t) (hm : s.memOk) (hr : s.rbase = none) :
    Stored s t pa bs := fun x => by
  rw [phys_of_rbase (h.rbase.trans hr), phys_of_rbase hr, h.mem]
  exact Mem.get_puts bs pa x hm.1

theorem Answers.pushed {pa lg size : Nat} {data : Nat → List Byte} (h : Answers r ok err ret (pushWrites s pa lg size data) os s t) (hm : s.memOk)
    (hr : s.rbase = none) : Pushed s t pa (slotPlace pa (leNat (s.physs (pa + 4) 4)) lg size) (leNat (s.physs (pa + 4) 4))
      (data (leNat (s.physs (pa + 4) 4))) := fun x => by
  have hlen (v : Nat) : (leBytes 4 v).length = 4 := length_leBytes 4 v
  rw [phys_of_rbase (h.rbase.trans hr), phys_of_rbase hr, h.mem, pushWrites]
  simp only [List.foldl_cons, List.foldl_nil]
  rw [Mem.get_puts _ _ _ (Mem.wf_puts _ _ hm.1), Mem.get_puts _ _ _ hm.1, hlen]
  have happart : slotPlace pa (leNat (s.physs (pa + 4) 4)) lg size ≤ x → ¬(pa + 4 ≤ x ∧ x < pa + 4 + 4) := by
    unfold slotPlace
    intro hslot hx
    have := Nat.zero_le (leNat (s.physs (pa + 4) 4) % 2 ^ lg * size)
    omega
  by_cases htail : pa + 4 ≤ x ∧ x < pa + 4 + 4
  · rw [if_pos htail, if_neg fun hslot => happart hslot.1 htail, if_pos htail]
  · rw [if_neg htail, if_neg (c := pa + 4 ≤ x ∧ x < pa + 8) htail]

end

end Sys2Proof.Proofs
end

section
/-! Misses, fills, the L1, and the cluster atomics unit; what a home slice does with its next request (R166, R275, R309, R312, R313, R319). -/

namespace Sys2Proof.Proofs
open Sys2Proof Sys2Proof.Machine

section
variable {r : Req} {a : Acc} {e : Elem} {s t : State}

/-! ### The home slice of a line -/

theorem bitsOf_line (pa n w : Nat) : bitsOf (pa / 128 * 128) (7 + n) w = bitsOf pa (7 + n) w := by
  have hpow : (2 : Nat) ^ (7 + n) = 128 * 2 ^ n := Nat.pow_add 2 7 n
  rw [bitsOf, bitsOf, hpow, ← Nat.div_div_eq_div_mul, ← Nat.div_div_eq_div_mul, Nat.mul_div_cancel _ (by decide)]

theorem sliceOf_line (pa : Nat) : sliceOf (pa / 128 * 128) = sliceOf pa := by
  rw [sliceOf, sliceOf, bitsOf_line pa 1, bitsOf_line pa 9, bitsOf_line pa 17, bitsOf_line pa 25, bitsOf_line pa 33]

/-! ### A miss (R312) -/

theorem freeWay_of_free {x : Slice} {line : Nat}
    (h : ∃ w < 16, x.lent w = false ∧ ∀ y ∈ x.lines, l2Set y.line = l2Set line → y.way ≠ w) : ∃ w, x.freeWay line = some w := by
  obtain ⟨w, hlt, hlent, hfree⟩ := h
  rw [← Option.isSome_iff_exists, Slice.freeWay, List.find?_isSome]
  refine ⟨w, List.mem_range.2 hlt, ?_⟩
  have hnone : x.lines.any (fun y => y.way == w && l2Set y.line == l2Set line) = false :=
    List.any_eq_false.2 fun y hy => by simpa [imp_not_comm] using hfree y hy
  rw [hlent, hnone]; rfl

theorem slices_holdAt (s : State) (r : Req) : (s.holdAt r).slices = s.slices := by
  unfold State.holdAt
  split <;> rfl

/-- The state once a request waits on the list of the line it has allocated, in a way. -/
def missed (s : State) (pos w : Nat) (r : Req) : State :=
  ((((dequeued s (sliceOf r.pa) pos r).modSlice (sliceOf r.pa) fun x =>
    { x with lines := ⟨r.pa / 128, x.horizon, s.tu, some [r], none, w⟩ :: x.lines }).fetchLine (r.pa / 128)).holdAt r)

theorem serve_absent {pos w : Nat} (hr : s.rbase = none) (habsent : ∀ l ∈ (s.slice (sliceOf r.pa)).lines, l.line ≠ r.pa / 128)
    (hfree : (s.slice (sliceOf r.pa)).freeWay (r.pa / 128) = some w) : s.serve (sliceOf r.pa) pos r = some (missed s pos w r) := by
  have hfind : (s.slice (sliceOf r.pa)).lines.find? (·.line == r.pa / 128) = none := by
    simpa [List.find?_eq_none] using habsent
  have hslice : (dequeued s (sliceOf r.pa) pos r).slice (sliceOf r.pa) =
      ({ s.slice (sliceOf r.pa) with q := (s.slice (sliceOf r.pa)).q.eraseIdx pos } : Slice).nextHead pos s.tu r.src := State.slice_modSlice ..
  have halloc : (dequeued s (sliceOf r.pa) pos r).allocate (r.pa / 128) (some [r]) =
      some ((dequeued s (sliceOf r.pa) pos r).modSlice (sliceOf r.pa) fun x =>
        { x with lines := ⟨r.pa / 128, x.horizon, s.tu, some [r], none, w⟩ :: x.lines }) := by
    have hway : ((dequeued s (sliceOf r.pa) pos r).slice (sliceOf r.pa)).freeWay (r.pa / 128) = some w := by rw [hslice]; exact hfree
    rw [State.allocate]
    simp only [sliceOf_line, hway]
    rfl
  rw [State.serve, inRing_of_rbase hr]
  simp only [hfind, Bool.false_eq_true, ↓reduceIte]
  exact congrArg (Option.map _) halloc

theorem runs_absent {pos : Nat} (hr : s.rbase = none) (hqueued : (s.slice (sliceOf r.pa)).q[pos]? = some r)
    (horder : s.inOrder (sliceOf r.pa) pos r = true) (hfirst : s.outranked (sliceOf r.pa) r = false)
    (habsent : ∀ l ∈ (s.slice (sliceOf r.pa)).lines, l.line ≠ r.pa / 128)
    (hfree : ∃ w < 16, (s.slice (sliceOf r.pa)).lent w = false ∧
      ∀ y ∈ (s.slice (sliceOf r.pa)).lines, l2Set y.line = l2Set (r.pa / 128) → y.way ≠ w) :
    Runs (.sliceRequest (sliceOf r.pa) pos) s fun t => QLeft (s.slice (sliceOf r.pa)).q (t.slice (sliceOf r.pa)).q pos ∧ t.mem = s.mem ∧
      ∃ l ∈ (t.slice (sliceOf r.pa)).lines, l.line = r.pa / 128 ∧ l.miss = some [r] := by
  obtain ⟨w, hw⟩ := freeWay_of_free hfree
  have hslices (k : Nat) : (missed s pos w r).slice k = ((dequeued s (sliceOf r.pa) pos r).modSlice (sliceOf r.pa) fun x =>
      { x with lines := ⟨r.pa / 128, x.horizon, s.tu, some [r], none, w⟩ :: x.lines }).slice k := by
    rw [State.slice, missed, slices_holdAt]; rfl
  refine ⟨_, exec_sliceRequest hqueued horder hfirst (serve_absent hr habsent hw), ?_, (acts_holdAt ..).mem, ?_⟩
  · rw [hslices, State.slice_modSlice]
    exact qLeft_dequeued ..
  · rw [hslices, State.slice_modSlice]
    exact ⟨_, List.mem_cons_self, rfl, rfl⟩

/-! ### A fill serves its list (R313) -/

theorem mem_modLine {x : Slice} {line : Nat} {f : L2Line → L2Line} {y : L2Line} (hy : y ∈ (x.modLine line f).lines)
    (hline : y.line = line) : ∃ z, y = f z := by
  obtain ⟨z, -, rfl⟩ := List.mem_map.1 hy
  by_cases hz : z.line = line
  · exact ⟨z, if_pos hz⟩
  · rw [if_neg hz] at hline
    exact absurd hline hz

theorem serveList_load (h : Performing r a e s) (hpa : e.pa = r.pa) (hfor : r.for_ = .elem) {cg : Bool} (hop : a.op = .load cg) (k line : Nat) :
    Answers r true false (s.physs r.pa e.len) [] [] s (State.serveList k line [r] s) ∧
      ∀ y ∈ ((State.serveList k line [r] s).slice k).lines, y.line = line → y.miss = none := by
  have hlist := acts_modLine s k line fun y => { y with miss := some [] }
  obtain ⟨time, hserved⟩ := performAt_served hfor ((servesAs_load h hpa hop).acts hlist)
  have hneed := slotNeed_plain h hfor (.inl ⟨cg, hop⟩)
  rw [State.serveList, hneed]
  refine ⟨((hlist.transServed hserved).acts (acts_modLine ..)).answers, fun y hy hline => ?_⟩
  rw [State.serveList, State.slice_modSlice] at hy
  obtain ⟨z, rfl⟩ := mem_modLine hy hline
  rfl

theorem runs_l2MissFill (h : Performing r a e s) (hpa : e.pa = r.pa) (hfor : r.for_ = .elem) {cg : Bool} {k line : Nat} {l : L2Line}
    (hline : (s.slice k).lines.find? (·.line == line) = some l) (hmiss : l.miss = some [r]) (hop : a.op = .load cg)
    (hready : s.chanReady (line * 128) = true) (hturn : s.fetchTurn line = true) :
    Runs (.l2MissFill k line) s fun t => Answers r true false (s.physs r.pa e.len) [] [] s t ∧ ∀ y ∈ (t.slice k).lines, y.line = line → y.miss = none := by
  have hexec {v : State} (hv : execL2MissFill k line s = .next (State.serveList k line [r] v)) :
      exec (.l2MissFill k line) s = .next (State.serveList k line [r] v) := hv
  by_cases hin : s.lineIn line = true
  · refine ⟨_, hexec (event_some ?_), serveList_load h hpa hfor hop k line⟩
    simp only [hline, hmiss, hin, Option.bind_some, List.head?_cons, slotNeed_plain h hfor (.inl ⟨cg, hop⟩), ↓reduceIte]
  · have hacts : Acts [] [] s (s.unfetch line) := acts_of_waves (fun _ => rfl) (fun _ => rfl) rfl rfl rfl rfl rfl rfl
    obtain ⟨hans, hlines⟩ := serveList_load (h.acts hacts) hpa hfor hop k line
    refine ⟨_, hexec (event_some ?_), ⟨hans.answered, hans.mem, hans.rbase, hans.out⟩, hlines⟩
    simp only [hline, hmiss, hin, hready, hturn, Option.bind_some, Bool.and_self, Bool.false_eq_true, ↓reduceIte]

/-! ### A line enters the L1 (R166) -/

/-- The lines that a fill leaves in an L1: of its set three at most, none expired, none of its own line. -/
def l1Left (dtc : DWord) (f : L1Line) (ls : List L1Line) : List L1Line :=
  let others := ls.filter fun x => x.line != f.line && !past dtc x.expiry
  let set := others.filter fun x => l1Set x.line == l1Set f.line
  if set.length < 4 then others else
    match set.foldl (fun (b : Option L1Line) y => match b with
        | none => some y
        | some z => if y.used < z.used then some y else b) none with
    | some v => others.filter (· != v)
    | none => others

theorem line_of_mem_l1Left {dtc : DWord} {f x : L1Line} {ls : List L1Line} (hx : x ∈ l1Left dtc f ls) : x.line ≠ f.line := by
  have hother : x ∈ ls.filter fun x => x.line != f.line && !past dtc x.expiry := by
    unfold l1Left at hx
    dsimp only at hx
    split at hx
    · exact hx
    · split at hx
      · exact (List.mem_filter.1 hx).1
      · exact hx
  have hkept := (List.mem_filter.1 hother).2
  simp only [Bool.and_eq_true, bne_iff_ne] at hkept
  exact hkept.1

theorem exec_l1Fill {core idx : Nat} {f : L1Line} (hfill : (s.core core).fills[idx]? = some f) (hdue : f.used ≤ s.tu) :
    exec (.l1Fill core idx) s = .next (s.modCore core fun c =>
      { c with fills := c.fills.eraseIdx idx, l1 := { f with used := s.tu } :: l1Left s.dtc f c.l1 }) := by
  change execL1Fill core idx s = _
  refine event_some ?_
  simp only [hfill]
  exact if_neg (Nat.not_lt.2 hdue)

theorem runs_l1Fill {core idx : Nat} {f : L1Line} (hfill : (s.core core).fills[idx]? = some f) (hdue : f.used ≤ s.tu) :
    Runs (.l1Fill core idx) s fun t => (∃ x ∈ (t.core core).l1, x.line = f.line ∧ x.data = f.data ∧ x.expiry = f.expiry) ∧
      (t.core core).fills = (s.core core).fills.eraseIdx idx ∧ t.mem = s.mem ∧ ∀ x ∈ (t.core core).l1, x.line = f.line → x.data = f.data := by
  refine ⟨_, exec_l1Fill hfill hdue, ?_, ?_, rfl, ?_⟩ <;> rw [State.core_modCore]
  · exact ⟨_, List.mem_cons_self, rfl, rfl, rfl⟩
  · intro x hx hline
    obtain rfl | hx := List.mem_cons.1 hx
    · rfl
    · exact absurd hline (line_of_mem_l1Left hx)

/-! ### The cluster atomics unit (R275, R276) -/

/-- The state in which the unit performs an atomic: it has left the unit's queue, and its line's claim was used now. -/
def unitTook (s : State) (cluster idx line : Nat) : State :=
  s.modCluster cluster fun c => { c with
    atomQ := c.atomQ.eraseIdx idx
    claims := c.claims.map fun x => if x.line = line then { x with used := s.tu } else x }

theorem exec_clusterAtomic {cluster idx : Nat} {cl : Claim} (hr : s.rbase = none) (hfor : r.for_ = .elem)
    (hq : (s.cluster cluster).atomQ[idx]? = some r) (hdue : r.due ≤ s.tu)
    (hunit : ∀ y ∈ (s.cluster cluster).atomQ.take idx, ¬(y.src = r.src ∧ y.pa / 128 = r.pa / 128 ∧ y.seq < r.seq))
    (hslice : ∀ y ∈ (s.slice (sliceOf r.pa)).q, ¬(y.src = r.src ∧ y.pa / 128 = r.pa / 128 ∧ y.seq < r.seq))
    (hlists : ∀ l ∈ (s.slice (sliceOf r.pa)).lines, ∀ y ∈ l.miss.getD [], ¬(y.src = r.src ∧ y.pa / 128 = r.pa / 128 ∧ y.seq < r.seq))
    (hclaim : s.claimed cluster (r.pa / 128) = some cl) (hused : cl.used ≤ s.tu) : ∃ b b', exec (.clusterAtomic cluster idx) s =
      .next ((((unitTook s cluster idx (r.pa / 128)).performElem r (maxD s.dtc cl.lease)).modElem r fun e => { e with back := b }).modElem r
        fun e => { e with back := b' }) := by
  have hbefore (ys : List Req) (h : ∀ y ∈ ys, ¬(y.src = r.src ∧ y.pa / 128 = r.pa / 128 ∧ y.seq < r.seq)) :
      ys.any (fun y => y.src == r.src && y.pa / 128 == r.pa / 128 && decide (y.seq < r.seq)) = false :=
    List.any_eq_false.2 fun y hy => by simpa [and_assoc] using h y hy
  have hearlier : s.earlier r = false := by
    rw [State.earlier]
    rw [hbefore _ hslice, Bool.false_or]
    exact List.any_eq_false.2 fun l hl => by rw [hbefore _ (hlists l hl)]; exact Bool.false_ne_true
  have hdue' : ¬s.tu < r.due := Nat.not_lt.2 hdue
  change ∃ b b', execClusterAtomic cluster idx s = _
  refine ⟨(unitTook s cluster idx (r.pa / 128)).backAt r.src r.pa, s.tu + nocTu, event_some ?_⟩
  simp only [hq, hbefore _ hunit, hearlier, hdue', inRing_of_rbase hr, hclaim, hused, decide_false, Bool.or_self, Bool.false_eq_true, ↓reduceIte,
    State.performReq, hfor]
  rfl

theorem runs_clusterAtomic (h : Performing r a e s) (hpa : e.pa = r.pa) (hfor : r.for_ = .elem) {cluster idx : Nat} {cl : Claim} {op : AtomOp}
    (hq : (s.cluster cluster).atomQ[idx]? = some r) (hdue : r.due ≤ s.tu)
    (hunit : ∀ y ∈ (s.cluster cluster).atomQ.take idx, ¬(y.src = r.src ∧ y.pa / 128 = r.pa / 128 ∧ y.seq < r.seq))
    (hslice : ∀ y ∈ (s.slice (sliceOf r.pa)).q, ¬(y.src = r.src ∧ y.pa / 128 = r.pa / 128 ∧ y.seq < r.seq))
    (hlists : ∀ l ∈ (s.slice (sliceOf r.pa)).lines, ∀ y ∈ l.miss.getD [], ¬(y.src = r.src ∧ y.pa / 128 = r.pa / 128 ∧ y.seq < r.seq))
    (hop : a.op = .atom op) (hclaim : s.claimed cluster (r.pa / 128) = some cl) (hused : cl.used ≤ s.tu) :
    Runs (.clusterAtomic cluster idx) s fun t => Served r true false (s.physs r.pa e.len) (maxD s.dtc cl.lease)
      [(r.pa, leBytes e.len (atomNew op (8 * e.len) (leNat (s.physs r.pa e.len)) (leNat e.data)))] [] s t := by
  obtain ⟨b, b', hexec⟩ := exec_clusterAtomic h.rbase hfor hq hdue hunit hslice hlists hclaim hused
  have htook : Acts [] [] s (unitTook s cluster idx (r.pa / 128)) := acts_modCluster ..
  have hserved := served_atom (h.acts htook) hop (maxD s.dtc cl.lease)
  rw [htook.physs h.rbase, hpa] at hserved
  exact ⟨_, hexec, htook.transServed ((hserved.modBack b).modBack b')⟩

/-- A claim given up: the unit and the home slice have forgotten it. -/
theorem dropClaim_gone {cluster line : Nat} {l : L2Line} (hline : (s.slice (sliceOf (line * 128))).lines.find? (·.line == line) = some l)
    (hclaim : l.claim = some cluster) : (s.dropClaim line).claimed cluster line = none ∧ (s.dropClaim line).mem = s.mem ∧
      ∀ x ∈ ((s.dropClaim line).slice (sliceOf (line * 128))).lines, x.line = line → x.claim = none := by
  have hdrop : s.dropClaim line = (s.modCluster cluster fun c => { c with claims := c.claims.filter (·.line != line) }).modSlice (sliceOf (line * 128))
      fun x => x.modLine line fun y => { y with claim := none } := by
    rw [State.dropClaim, hline, Option.bind_some, hclaim]
  refine ⟨?_, (acts_dropClaim s line).mem, fun x hx hxl => ?_⟩
  · have hclaims : ((s.dropClaim line).cluster cluster).claims = (s.cluster cluster).claims.filter (·.line != line) := by
      rw [hdrop]
      exact congrArg Cluster.claims (State.cluster_modCluster s cluster fun c => { c with claims := c.claims.filter (·.line != line) })
    rw [State.claimed, hclaims, List.find?_eq_none]
    intro y hy
    simpa using (List.mem_filter.1 hy).2
  · rw [hdrop, State.slice_modSlice] at hx
    obtain ⟨z, rfl⟩ := mem_modLine hx hxl
    rfl

theorem exec_clusterLineRecall {cluster line : Nat} {cl : Claim} (hclaim : s.claimed cluster line = some cl) (hused : cl.used ≤ s.tu)
    (hmeets : ∃ y ∈ (s.slice (sliceOf (line * 128))).q, y.pa / 128 = line ∧ y.due ≤ s.tu) :
    exec (.clusterLineRecall cluster line) s = .next (s.dropClaim line) := by
  have hany : (s.slice (sliceOf (line * 128))).q.any (fun r => r.pa / 128 == line && decide (r.due ≤ s.tu)) = true := by
    simpa [List.any_eq_true] using hmeets
  change execClusterLineRecall cluster line s = _
  refine event_some ?_
  simp only [hclaim, hany, hused, Option.any_some, decide_true, Bool.and_self, ↓reduceIte]

theorem exec_clusterClaimTimeout {cluster line : Nat} {cl : Claim} (hclaim : s.claimed cluster line = some cl)
    (hold : cl.used + 1000 * Config.tuPerNs ≤ s.tu) : exec (.clusterClaimTimeout cluster line) s = .next (s.dropClaim line) := by
  change execClusterClaimTimeout cluster line s = _
  refine event_some ?_
  simp only [hclaim]
  exact if_pos hold

/-! ### The statement's clauses about a present line -/

section
variable {pos : Nat} {l : L2Line} (h : Performing r a e s) (hpa : e.pa = r.pa) (hfor : r.for_ = .elem) (hm : s.memOk) (hn : NextPresent s r pos l)
include h hpa hfor hm hn

/-- A push of a form at a valid header: there is room, or there is none. -/
theorem runs_push {size code lg : Nat} {drop : Bool} {data : Nat → List Byte} (hform : PushForm a e size drop data) (hcode : qCode size = code)
    (hq : s.queueAt r.pa code size lg e.room) :
    ((headerOf s r.pa lg).count < 2 ^ lg → s.lineIn (slotPlace r.pa (leNat (s.physs (r.pa + 4) 4)) lg size / 128) = true →
      Runs (.sliceRequest (sliceOf r.pa) pos) s fun t => QLeft (s.slice (sliceOf r.pa)).q (t.slice (sliceOf r.pa)).q pos ∧ Answered t r true false [] ∧
        Pushed s t r.pa (slotPlace r.pa (leNat (s.physs (r.pa + 4) 4)) lg size) (leNat (s.physs (r.pa + 4) 4)) (data (leNat (s.physs (r.pa + 4) 4)))) ∧
    (2 ^ lg ≤ (headerOf s r.pa lg).count →
      Runs (.sliceRequest (sliceOf r.pa) pos) s fun t => QLeft (s.slice (sliceOf r.pa)).q (t.slice (sliceOf r.pa)).q pos ∧ Answered t r false false [] ∧
        (drop = true → Stored s t (r.pa + 8) (leBytes 4 ((leNat (s.physs (r.pa + 8) 4) + 1) % 2 ^ 32))) ∧ (¬drop = true → t.mem = s.mem)) := by
  have hslot := hform.slot s r h.acc h.elem hfor
  have hh := qhdr_of_header h hpa hcode hq (s.chainOf r.core r.ctx)
  refine ⟨fun hroom hin => ?_, fun hfull => ?_⟩
  · have hat := hslot.trans (pushSlot_of_room hh (hpa ▸ hroom))
    rw [hpa] at hat
    obtain ⟨t, hexec, hleft, hans⟩ := runs_present h.rbase hfor hn (slotNeed_of_in hat hin)
      (servesAs_push_room (h.dequeued (sliceOf r.pa) pos) hpa hcode hq hform hroom)
    exact ⟨t, hexec, hleft, hans.answered, Answers.pushed hans hm h.rbase⟩
  · obtain ⟨t, hexec, hleft, hans⟩ := runs_present h.rbase hfor hn (slotNeed_of_none (hslot.trans (pushSlot_of_full hh (hpa ▸ hfull))))
      (servesAs_push_full (h.dequeued (sliceOf r.pa) pos) hpa hcode hq hform hfull)
    refine ⟨t, hexec, hleft, hans.answered, fun hdrop => ?_, fun hkeep => ?_⟩
    · rw [if_pos hdrop] at hans
      exact hans.stored hm h.rbase
    · rw [if_neg hkeep] at hans
      exact hans.mem

theorem runs_pop {size code lg : Nat} (hop : a.op = .pop size) (hcode : qCode size = code) (hq : s.queueAt r.pa code size lg e.room) :
    ((headerOf s r.pa lg).count ≠ 0 → s.lineIn (slotPlace r.pa (leNat (s.physs r.pa 4)) lg size / 128) = true →
      Runs (.sliceRequest (sliceOf r.pa) pos) s fun t => QLeft (s.slice (sliceOf r.pa)).q (t.slice (sliceOf r.pa)).q pos ∧
        Answered t r true false (s.physs (slotPlace r.pa (leNat (s.physs r.pa 4)) lg size) size) ∧
        Stored s t r.pa (leBytes 4 ((leNat (s.physs r.pa 4) + 1) % 2 ^ 32))) ∧
    ((headerOf s r.pa lg).count = 0 →
      Runs (.sliceRequest (sliceOf r.pa) pos) s fun t => QLeft (s.slice (sliceOf r.pa)).q (t.slice (sliceOf r.pa)).q pos ∧
        Answered t r false false (List.replicate size 0) ∧ t.mem = s.mem) := by
  have hslot := slotAt_pop h hfor hop
  have hh := qhdr_of_header h hpa hcode hq (s.chainOf r.core r.ctx)
  refine ⟨fun hne hin => ?_, fun hempty => ?_⟩
  · have hat := hslot.trans (popSlot_of_filled hh (hpa ▸ hne))
    rw [hpa] at hat
    obtain ⟨t, hexec, hleft, hans⟩ := runs_present h.rbase hfor hn (slotNeed_of_in hat hin)
      (servesAs_pop_filled (h.dequeued (sliceOf r.pa) pos) hpa hcode hq hop hne)
    exact ⟨t, hexec, hleft, hans.answered, hans.stored hm h.rbase⟩
  · obtain ⟨t, hexec, hleft, hans⟩ := runs_present h.rbase hfor hn (slotNeed_of_none (hslot.trans (popSlot_of_empty hh (hpa ▸ hempty))))
      (servesAs_pop_empty (h.dequeued (sliceOf r.pa) pos) hpa hcode hq hop hempty)
    exact ⟨t, hexec, hleft, hans.answered, hans.mem⟩

omit hm in
theorem runs_badHeader {size : Nat} (hop : (∃ c drop, a.op = .push size c drop) ∨ a.op = .pop size)
    (hno : ∀ lg, ¬s.queueAt r.pa (qCode size) size lg e.room) (hlog : s.pools.logRing = none) (hfirst : ∀ x ∈ a.elems, x.badHdr = false) :
    Runs (.sliceRequest (sliceOf r.pa) pos) s fun t => QLeft (s.slice (sliceOf r.pa)).q (t.slice (sliceOf r.pa)).q pos ∧
      Answered t r false false (if a.op = .pop size then List.replicate size 0 else []) ∧ t.mem = s.mem ∧
        t.out = (s.recordWave r.core r.ctx tcEncoding e.va true false 0).out := by
  obtain ⟨t, hexec, hleft, hans⟩ := runs_present h.rbase hfor hn (slotNeed_bad h hfor hpa hop hno)
    (servesAs_bad (h.dequeued (sliceOf r.pa) pos) hpa hop hno hlog hfirst)
  exact ⟨t, hexec, hleft, hans.answered, hans.mem, hans.out.trans (out_recordWave ..).symm⟩

end

end

/-- Settles O39: what performing each operation writes and answers, then the request's way through its slice's queue, a miss's list and the
cluster atomics unit. -/
theorem sliceRequests : Obligations.SliceRequests := by
  unfold Obligations.SliceRequests
  intro s r a e hm hbad hacc helem hfor hpa _ hr
  have h : Performing r a e s := ⟨hr, hbad, hacc, helem⟩
  refine ⟨?_, ?_, ?_, ?_, ?_, ?_⟩
  · intro pos l hqueued horder hfirst hline hmiss hclaim
    have hn : NextPresent s r pos l := ⟨hqueued, horder, hfirst, hline, hmiss, hclaim⟩
    have hd := h.dequeued (sliceOf r.pa) pos
    have hplain := slotNeed_plain h hfor
    refine ⟨fun cg hop => ?_, fun hop => ?_, fun op hop => ?_, fun hop => ?_, ?_, ?_, ?_, ?_⟩
    · obtain ⟨t, hexec, hleft, hans⟩ := runs_present hr hfor hn (hplain (.inl ⟨cg, hop⟩)) (servesAs_load hd hpa hop)
      exact ⟨t, hexec, hleft, hans.mem, (agentRead_of_rbase hr ..).symm ▸ hans.answered⟩
    · obtain ⟨t, hexec, hleft, hans⟩ := runs_present hr hfor hn (hplain (.inr (.inl hop))) (servesAs_store hd hpa hop)
      exact ⟨t, hexec, hleft, hans.stored hm hr, hans.answered⟩
    · obtain ⟨t, hexec, hleft, hans⟩ := runs_present hr hfor hn (hplain (.inr (.inr (.inl ⟨op, hop⟩)))) (servesAs_atom hd hpa hop)
      exact ⟨t, hexec, hleft, hans.answered, hans.stored hm hr⟩
    · obtain ⟨t, hexec, hleft, hans⟩ := runs_present hr hfor hn (hplain (.inr (.inr (.inr hop)))) (servesAs_cas hd hpa hop)
      exact ⟨t, hexec, hleft, hans.answered, hans.stored hm hr⟩
    · exact fun size c drop lg hop _ _ hq => runs_push h hpa hfor hm hn (pushForm_push hop) rfl hq
    · intro lg hop _ hq
      have hrun := runs_push h hpa hfor hm hn (pushForm_task hop) rfl hq
      simp only [beq_iff_eq] at hrun
      exact hrun
    · exact fun size lg hop _ hq => runs_pop h hpa hfor hm hn hop rfl hq
    · exact fun size hop _ hno hlog hbadHdr => runs_badHeader h hpa hfor hn hop hno hlog hbadHdr
  · exact fun pos hqueued horder hfirst => runs_absent hr hqueued horder hfirst
  · intro l cg hline hmiss hop hready hturn
    obtain ⟨t, hexec, hans, hlines⟩ := runs_l2MissFill h hpa hfor hline hmiss hop hready hturn
    exact ⟨t, hexec, (agentRead_of_rbase hr ..).symm ▸ hans.answered, hlines⟩
  · exact fun core idx f => runs_l1Fill
  · intro cluster idx cl op _ hq hdue hunit hslice hlists hop hclaim hused
    obtain ⟨t, hexec, hserved⟩ := runs_clusterAtomic h hpa hfor hq hdue hunit hslice hlists hop hclaim hused
    obtain ⟨e', helem', -, -, -, -, htime⟩ := hserved.elem
    exact ⟨t, hexec, hserved.answers.answered, hserved.answers.stored hm hr, e', helem', htime⟩
  · intro cluster cl l hclaim hline hunit
    have hhome := sliceOf_line r.pa
    rw [← hhome] at hline
    have hgone := dropClaim_gone hline hunit
    rw [hhome] at hgone
    exact ⟨fun hused hmeets => ⟨_, exec_clusterLineRecall hclaim hused (hhome.symm ▸ hmeets), hgone⟩,
      fun hold => ⟨_, exec_clusterClaimTimeout hclaim hold, hgone⟩⟩

end Sys2Proof.Proofs
end

section
/-! The run-ahead of a stream in global memory: the fabric port's turn at its request completes a write of a unit to the host window by the
unit's tag, and where two accesses share that tag the answer counts for a barrier (R200, R419). -/

namespace Sys2Proof.Proofs
open Sys2Proof Sys2Proof.Machine

/-- A stream of words in global memory from address 0, with nothing held or asked for. -/
def globalStream : Strm := ⟨0, 0, 4, 8, true, 2, none, false, 0, [], 0, []⟩

/-- A wave with that stream, whose core maps address 0 to LPDDR 6, beside the two accesses that share a tag. -/
def streamBesideTag : State :=
  { sharedTag with cores := [(0, { Core.blank with waves := [(0, { Wave.blank with streams := [(0, globalStream)] })], tlb := [queuePage] })] }

theorem streamBesideTag_quiet : streamBesideTag.quiet := ⟨rfl, rfl⟩
theorem streamBesideTag_sound : streamBesideTag.sound :=
  ⟨by decide +kernel, by decide +kernel, by decide +kernel, by decide +kernel, ⟨_, rfl⟩, rfl, rfl, rfl⟩

theorem lookup_streamBesideTag : streamBesideTag.lookup 0 0 0 false = .page queuePage := by decide +kernel

/-- The port's turn at the request of run-ahead counts a byte at the barrier. -/
theorem wgs_streamFill_global : wgsAfter (exec (.streamFill 0 0 0) streamBesideTag) ≠ streamBesideTag.wgs := by decide +kernel

/-- Refutes O34: with this request of run-ahead a workgroup changes. -/
theorem not_streamInstructions : ¬ Obligations.StreamInstructions := by
  unfold Obligations.StreamInstructions
  intro h
  obtain ⟨-, hfill, -⟩ := h streamBesideTag streamBesideTag_quiet streamBesideTag_sound
  obtain ⟨-, hglobal⟩ := hfill 0 0 0 0 _ globalStream rfl rfl rfl rfl rfl (by decide)
  obtain ⟨t, ht, hwgs, -⟩ := hglobal queuePage rfl rfl rfl lookup_streamBesideTag (by decide)
  have hne := wgs_streamFill_global
  rw [ht] at hne
  exact hne hwgs

end Sys2Proof.Proofs
end

section
/-! What traps, the end of a wave and the acquisition of writes leave alone: the barriers of every workgroup, the requests of every copy
engine, and, where the host has placed no log ring, the bytes of memory (R152, R182, R183, R192, R247, R248, R409). -/

namespace Sys2Proof.Proofs
open Sys2Proof Sys2Proof.Machine

/-- The books of a copy engine: kicks that wait, requests read, requests taken (R192). -/
def copyBooks (c : Core) : List Kick × List CopyReq × List CopyReq := (c.kicks, c.copyIn, c.copyRun)

/-- From s to t no barrier changed and no copy request moved, and without a log ring no byte of memory changed. -/
structure Spares (s t : State) : Prop where
  bars : ∀ g, (t.wg g).bars = (s.wg g).bars
  copies : ∀ k, copyBooks (t.core k) = copyBooks (s.core k)
  pools : t.pools = s.pools
  mem : s.pools.logRing = none → t.mem = s.mem

section
variable {s t u : State}

theorem Spares.refl (s : State) : Spares s s := ⟨fun _ => rfl, fun _ => rfl, rfl, fun _ => rfl⟩

theorem Spares.trans (h : Spares s t) (k : Spares t u) : Spares s u :=
  ⟨fun g => (k.bars g).trans (h.bars g), fun j => (k.copies j).trans (h.copies j), k.pools.trans h.pools,
    fun hlog => (k.mem (h.pools ▸ hlog)).trans (h.mem hlog)⟩

theorem Spares.kicks (h : Spares s t) (k : Nat) : (t.core k).kicks = (s.core k).kicks := (congrArg Prod.fst (h.copies k) :)
theorem Spares.copyIn (h : Spares s t) (k : Nat) : (t.core k).copyIn = (s.core k).copyIn := (congrArg (·.2.1) (h.copies k) :)
theorem Spares.copyRun (h : Spares s t) (k : Nat) : (t.core k).copyRun = (s.core k).copyRun := (congrArg (·.2.2) (h.copies k) :)

/-! ### The primitive updates -/

theorem spares_foldl {α : Type} {f : State → α → State} (hf : ∀ v x, Spares v (f v x)) (xs : List α) (s : State) : Spares s (xs.foldl f s) :=
  List.foldlRecOn xs f (.refl s) fun _ h x _ => h.trans (hf _ x)

theorem spares_modCore (s : State) (k : Nat) {f : Core → Core} (hf : ∀ c, copyBooks (f c) = copyBooks c) : Spares s (s.modCore k f) := by
  refine ⟨fun _ => rfl, fun j => ?_, rfl, fun _ => rfl⟩
  by_cases hj : j = k
  · subst hj; rw [State.core_modCore, hf]
  · rw [State.core_modCore_ne _ _ hj]

theorem spares_modWave (s : State) (core ctx : Nat) (f : Wave → Wave) : Spares s (s.modWave core ctx f) :=
  spares_modCore s core fun _ => rfl

/-- A core that nothing has touched has no requests, whatever its cluster's clock. -/
theorem copyBooks_core (s : State) (k : Nat) : copyBooks (s.core k) = ((look s.cores k).map copyBooks).getD ([], [], []) := by
  rw [State.core]
  cases look s.cores k <;> rfl

theorem spares_modCluster (s : State) (k : Nat) (f : Cluster → Cluster) : Spares s (s.modCluster k f) :=
  ⟨fun _ => rfl, fun _ => by rw [copyBooks_core, copyBooks_core]; rfl, rfl, fun _ => rfl⟩

theorem spares_modWg (s : State) (k : Nat) {f : WGrp → WGrp} (hf : ∀ g, (f g).bars = g.bars) : Spares s (s.modWg k f) := by
  refine ⟨fun j => ?_, fun _ => rfl, rfl, fun _ => rfl⟩
  by_cases hj : j = k
  · subst hj
    simp only [State.wg, State.look_modWg]
    cases look s.wgs j with
    | none => rfl
    | some g => exact hf g
  · rw [State.wg_modWg_ne _ _ hj]

theorem spares_modGrid (s : State) (k : Nat) (f : Grid → Grid) : Spares s (s.modGrid k f) := ⟨fun _ => rfl, fun _ => rfl, rfl, fun _ => rfl⟩

/-- Waves change in every core there is. -/
theorem spares_modWaves (s : State) (wg : Nat) (f : Wave → Wave) : Spares s (s.modWaves wg f) := by
  refine ⟨fun _ => rfl, fun j => ?_, rfl, fun _ => rfl⟩
  rw [copyBooks_core, copyBooks_core, State.modWaves,
    look_map _ fun c : Core => { c with waves := c.waves.map fun w => if w.2.wg = wg then (w.1, f w.2) else w }, Option.map_map]
  rfl

/-! ### Records (R409) -/

theorem physPuts_keeps (s : State) (pa : Nat) (bs : List Byte) : (s.physPuts pa bs).wgs = s.wgs ∧ (s.physPuts pa bs).pools = s.pools ∧
    (s.physPuts pa bs).cur = s.cur := by
  induction bs generalizing s pa with
  | nil => exact ⟨rfl, rfl, rfl⟩
  | cons b bs ih =>
    rw [State.physPuts]
    have hput : (s.physPut pa b).wgs = s.wgs ∧ (s.physPut pa b).pools = s.pools ∧ (s.physPut pa b).cur = s.cur := by
      unfold State.physPut
      split <;> exact ⟨rfl, rfl, rfl⟩
    simpa only [hput] using ih (s.physPut pa b) (pa + 1)

theorem ringPut_keeps (s : State) (pa : Nat) (r : List Byte) : (s.ringPut pa r).wgs = s.wgs ∧ (s.ringPut pa r).pools = s.pools := by
  simp only [State.ringPut]
  split <;> simp only [physPuts_keeps, and_self]

theorem logged_keeps (s : State) (bs : List Byte) : (logged s bs).wgs = s.wgs ∧ (logged s bs).pools = s.pools := by
  unfold logged
  split
  · exact ringPut_keeps ..
  · exact ⟨rfl, rfl⟩

theorem wgs_record (s : State) (cls : Nat) (r : RecInfo) : (s.record cls r).wgs = s.wgs := (logged_keeps ..).1

theorem spares_record (s : State) (cls : Nat) (r : RecInfo) : Spares s (s.record cls r) := by
  refine ⟨fun g => by rw [wg_of_wgs (wgs_record s cls r)], fun k => by rw [core_record], (logged_keeps ..).2, fun hlog => ?_⟩
  rw [record_eq]
  simp only [logged, hlog]

/-! ### The end of a wave, a workgroup and a grid (R152, R248) -/

theorem spares_noteLeft (s : State) (core prio : Nat) : Spares s (s.noteLeft core prio) := spares_modCluster ..

/-- A workgroup whose last wave has gone ends. -/
theorem spares_ended (s : State) (k j : Nat) :
    Spares s ((s.modWg k fun g => { g with ended := true, core := none }).modGrid j fun r => { r with done := r.done + 1 }) :=
  (spares_modWg s k (f := fun g => { g with ended := true, core := none }) fun _ => rfl).trans (spares_modGrid ..)

theorem spares_reap (s : State) (core ctx : Nat) : Spares s (s.reap core ctx) := by
  unfold State.reap
  split
  · exact .refl s
  · rename_i w _
    split
    · have hleft := ((spares_modCore s core (f := fun c => { c with waves := erase c.waves ctx }) fun _ => rfl).trans
        (spares_noteLeft _ core w.prio)).trans (spares_modWg _ w.wg (f := fun g => { g with live := g.live - 1 }) fun _ => rfl)
      simp only
      split
      · exact hleft.trans (spares_ended ..)
      · exact hleft
    · exact .refl s

theorem spares_completeAcc (s : State) (core ctx id : Nat) (p : Path) : Spares s (s.completeAcc core ctx id p) :=
  (spares_modWave ..).trans (spares_reap ..)

theorem spares_dropSaved (s : State) (f : Saved → Bool) : Spares s (s.dropSaved f) := by
  refine spares_foldl (fun v x => ?_) _ s
  have hsaved : Spares v (({ v with saved := v.saved.filter fun y => y != x } : State).modWg x.wg fun g => { g with saved := g.saved - 1 }) :=
    Spares.trans (t := { v with saved := v.saved.filter fun y => y != x }) ⟨fun _ => rfl, fun _ => rfl, rfl, fun _ => rfl⟩
      (spares_modWg _ x.wg fun _ => rfl)
  simp only
  split
  · exact hsaved.trans (spares_ended ..)
  · exact hsaved

theorem spares_endGrid (s : State) (gid : Nat) : Spares s (s.endGrid gid) :=
  ((spares_modGrid ..).trans (spares_dropSaved ..)).trans (spares_foldl (fun v _ => (spares_modWave v ..).trans (spares_reap ..)) _ _)

/-! ### Traps (R246 to R248) -/

theorem spares_forgetSplit (s : State) (core ctx id : Nat) : Spares s (s.forgetSplit core ctx id) := by
  have hasked (wf : List WalkFault) (as : List Ask) : Spares s { s with walkFaults := wf, asks := as } :=
    ⟨fun _ => rfl, fun _ => rfl, rfl, fun _ => rfl⟩
  exact (hasked ..).trans (spares_modCore _ core
    (f := fun c => { c with il := c.il.filter (·.2), wants := c.wants.filter fun w => !(w.ctx == ctx && w.split == id) }) fun _ => rfl)

/-- A trap that neither asks for a page nor is a breakpoint. -/
theorem spares_raiseAt (s : State) (core ctx id : Nat) {t : TrapReq} (at_ : TrapAt) (hlater : t.code ≠ tcLater) (hbrk : t.code % 256 ≠ tcBreak) :
    Spares s (s.raiseAt core ctx id t at_) := by
  have hforget := spares_forgetSplit s core ctx id
  have hrecord (v : State) (b : Bool) (cls : Nat) (addr : DWord) (virt unc : Bool) (detail : Nat) :
      Spares v (if b then v.recordWave core ctx cls addr virt unc detail else v) := by
    cases b
    · exact .refl v
    · exact spares_record ..
  rw [State.raiseAt, if_neg hlater]
  simp only [hbrk, decide_false, Bool.false_and, Bool.false_eq_true, ↓reduceIte]
  split
  · exact hforget.trans (spares_modWave ..)
  · split
    · exact (hforget.trans (hrecord ..)).trans (spares_modWave ..)
    · exact (hforget.trans (hrecord ..)).trans (spares_endGrid ..)

theorem spares_overrun (s : State) (k : Nat) (b : Bar) (c : Cursor) (par : Bool) : Spares s (s.overrun k b c par) := by
  unfold State.overrun
  simp only
  split
  · exact .refl s
  · split
    · exact spares_modWave ..
    · exact spares_raiseAt _ _ _ _ _ (show tcOverrun ≠ tcLater by decide) (show tcOverrun % 256 ≠ tcBreak by decide)

/-! ### Releases (R182, R221) -/

theorem spares_acquireVia (s : State) (core wg idx : Nat) (v : Via) : Spares s (s.acquireVia core wg idx v) :=
  spares_modCore s core (f := fun c => { c with unf := c.unf.map fun u => u.acquired wg idx v }) fun _ => rfl

theorem spares_releaseBar (s : State) (wg k : Nat) (par : Bool) (t : DWord) : Spares s (s.releaseBar wg k par t) := by
  unfold State.releaseBar
  refine Spares.trans ?_ (spares_modWaves _ wg _)
  exact spares_foldl (fun v _ => spares_acquireVia v ..) _ s

end

end Sys2Proof.Proofs
end

section
/-! The named barriers: what an update of one leaves, when a phase completes, and what binit, bexp and barr make of a barrier and of the
wave's record of it (R181, R182, R185). -/

namespace Sys2Proof.Proofs
open Sys2Proof Sys2Proof.Machine

section
variable {s t : State} {wg k : Nat}

/-! ### One barrier (R180) -/

/-- Barrier k is one of a workgroup that exists. -/
def HasBar (s : State) (wg k : Nat) : Prop := ∃ g, look s.wgs wg = some g ∧ k < g.bars.length

theorem hasBar_of_sound (hs : s.sound) {k : Nat} (hk : k < s.g.bars.length) : HasBar s s.w.wg k := by
  obtain ⟨-, -, -, -, ⟨g, hg⟩, -⟩ := hs
  have hsg : s.g = g := by rw [State.g, State.wg, hg]; rfl
  exact ⟨g, hg, hsg ▸ hk⟩

theorem HasBar.of_wgs (h : HasBar s wg k) (ht : t.wgs = s.wgs) : HasBar t wg k := by rw [HasBar, ht]; exact h

theorem HasBar.modBar (h : HasBar s wg k) (j : Nat) (f : Bar → Bar) : HasBar (s.modBar wg j f) wg k := by
  obtain ⟨g, hg, hk⟩ := h
  exact ⟨_, (State.look_modWg ..).trans (congrArg _ hg), by rwa [List.length_set]⟩

theorem bar_of_wgs (h : t.wgs = s.wgs) (wg k : Nat) : t.bar wg k = s.bar wg k := congrArg (WGrp.bar · k) (wg_of_wgs h wg)

theorem Spares.bar (h : Spares s t) (wg k : Nat) : t.bar wg k = s.bar wg k := congrArg (List.getD · k Bar.blank) (h.bars wg)

theorem bar_modBar (h : HasBar s wg k) (f : Bar → Bar) : (s.modBar wg k f).bar wg k = f (s.bar wg k) := by
  obtain ⟨g, hg, hk⟩ := h
  have hsg : s.wg wg = g := by rw [State.wg, hg]; rfl
  rw [State.bar, State.modBar, State.wg_modWg _ _ hg, WGrp.bar, getD_set_self _ hk, State.bar, hsg]

theorem bar_modBar_ne {j : Nat} (hj : j ≠ k) (f : Bar → Bar) : (s.modBar wg k f).bar wg j = s.bar wg j := by
  rw [State.bar, State.bar, State.modBar, State.wg, State.look_modWg, State.wg]
  cases look s.wgs wg with
  | none => rfl
  | some g => exact getD_set_of_ne _ _ _ hj

/-! ### The wave and the split beside its barriers -/

theorem wave?_modWaves (s : State) (wg : Nat) (f : Wave → Wave) (core ctx : Nat) :
    (s.modWaves wg f).wave? core ctx = (s.wave? core ctx).map fun w => if w.wg = wg then f w else w := by
  have hwaves (m : AMap Wave) : look (m.map fun w => if w.2.wg = wg then (w.1, f w.2) else w) ctx =
      (look m ctx).map fun w => if w.wg = wg then f w else w := by
    rw [← look_map]
    congr 1
    refine List.map_congr_left fun w _ => ?_
    split <;> rfl
  have hcore : ((s.modWaves wg f).core core).waves = (s.core core).waves.map fun w => if w.2.wg = wg then (w.1, f w.2) else w := by
    rw [State.core, State.core, State.modWaves,
      look_map _ fun c : Core => { c with waves := c.waves.map fun w => if w.2.wg = wg then (w.1, f w.2) else w }]
    cases look s.cores core <;> rfl
  rw [State.wave?, hcore, hwaves]
  rfl

theorem live_of_wave? {w : Wave} (hw : s.wave? s.cur.core s.cur.ctx = some w) (hsplit : (w.split? s.cur.split).isSome = true) : s.live = true := by
  rw [State.live, hw]; exact hsplit

theorem w_of_wave? {w : Wave} (hw : s.wave? s.cur.core s.cur.ctx = some w) : s.w = w := by rw [State.w, State.wave, hw]; rfl

theorem w_modWaves (hl : s.live = true) (f : Wave → Wave) : (s.modWaves s.w.wg f).w = f s.w := by
  refine w_of_wave? ?_
  rw [wave?_modWaves]
  exact (congrArg (Option.map _) (wave?_of_live hl)).trans (by simp)

/-! ### Releases (R182, R184, R221) -/

theorem kept_acquireVia (hl : s.live = true) (core wg idx : Nat) (v : Via) : Kept s (s.acquireVia core wg idx v) :=
  kept_modCore hl core fun _ => rfl

theorem kept_releaseVia (hl : s.live = true) (core wg idx : Nat) (v : Via) : Kept s (s.releaseVia core wg idx v) :=
  kept_modCore hl core fun _ => rfl

/-- The waves parked at a barrier for a parity take what its arrivals released to them. -/
def acquiredBar (s : State) (wg k : Nat) (par : Bool) : State :=
  ((s.parkedOn wg k).filter (·.2 == par)).foldl (fun v c => v.acquireVia c.1.core wg (v.wave c.1.core c.1.ctx).idx (.bar k par)) s

theorem releaseBar_eq (s : State) (wg k : Nat) (par : Bool) (t : DWord) :
    s.releaseBar wg k par t = (acquiredBar s wg k par).modWaves wg fun w => w.leaveBar k par t := rfl

theorem kept_acquiredBar (hl : s.live = true) (wg k : Nat) (par : Bool) : Kept s (acquiredBar s wg k par) :=
  kept_foldl (fun _ _ hv => kept_acquireVia hv ..) _ hl

theorem wgs_releaseBar (s : State) (wg k : Nat) (par : Bool) (t : DWord) : (s.releaseBar wg k par t).wgs = s.wgs := by
  rw [releaseBar_eq]
  exact List.foldlRecOn (motive := fun v : State => v.wgs = s.wgs) _ _ rfl fun _ h _ _ => h

theorem cur_releaseBar (s : State) (wg k : Nat) (par : Bool) (t : DWord) : (s.releaseBar wg k par t).cur = s.cur := by
  rw [releaseBar_eq]
  exact List.foldlRecOn (motive := fun v : State => v.cur = s.cur) _ _ rfl fun _ h _ _ => h

/-- The waiting splits of the executing wave go on with the others of their workgroup. -/
theorem w_releaseBar (hl : s.live = true) (k : Nat) (par : Bool) (t : DWord) : (s.releaseBar s.w.wg k par t).w = s.w.leaveBar k par t := by
  obtain ⟨-, hlive, hw, -⟩ := kept_acquiredBar hl s.w.wg k par
  have hwaves := w_modWaves hlive fun w => w.leaveBar k par t
  rw [hw] at hwaves
  exact hwaves

theorem leaveBar_fields (w : Wave) (k : Nat) (par : Bool) (t : DWord) : (w.leaveBar k par t).recValid = w.recValid ∧
    (w.leaveBar k par t).recPar = w.recPar ∧ (w.leaveBar k par t).wg = w.wg := by
  unfold Wave.leaveBar
  split <;> exact ⟨rfl, rfl, rfl⟩

/-- Releasing keeps the splits' identifiers. -/
theorem split?_leaveBar (w : Wave) (k : Nat) (par : Bool) (t : DWord) (id : Nat) :
    (w.leaveBar k par t).split? id = (w.split? id).map fun p => if w.splits.any (·.parkedAt k par) then p.leaveBar k par else p := by
  unfold Wave.leaveBar
  split
  · have hid (p : Split) : (p.leaveBar k par).id = p.id := by unfold Split.leaveBar; split <;> rfl
    simp only [Wave.split?, List.find?_map, Function.comp_def, hid]
  · exact Option.map_id'.symm

theorem live_releaseBar (hl : s.live = true) (k : Nat) (par : Bool) (t : DWord) : (s.releaseBar s.w.wg k par t).live = true := by
  obtain ⟨hcur, hlive, hw, -⟩ := kept_acquiredBar hl s.w.wg k par
  have hwave := wave?_modWaves (acquiredBar s s.w.wg k par) s.w.wg (fun w => w.leaveBar k par t)
    (acquiredBar s s.w.wg k par).cur.core (acquiredBar s s.w.wg k par).cur.ctx
  rw [wave?_of_live hlive, hw, Option.map_some, if_pos rfl] at hwave
  refine live_of_wave? hwave ?_
  rw [split?_leaveBar, Option.isSome_map]
  have hsplit := split?_of_live hlive
  rw [hw] at hsplit
  exact Option.isSome_iff_exists.mpr ⟨_, hsplit⟩

/-- The barriers' errors (R183): the first cause stays, and what else it comes to is a record and traps. -/
def Bar.failed (cause : Nat) (b : Bar) : Bar := { b with err := true, cause := if b.err then b.cause else cause }

theorem spares_barError (s : State) (wg k cause : Nat) (addr : DWord) (virt unc : Bool) :
    Spares (s.modBar wg k (Bar.failed cause)) (s.barError wg k cause addr virt unc) :=
  (spares_record ..).trans (spares_foldl (fun v _ => spares_overrun v ..) _ _)

theorem bar_barError (h : HasBar s wg k) (cause : Nat) (addr : DWord) (virt unc : Bool) :
    (s.barError wg k cause addr virt unc).bar wg k = Bar.failed cause (s.bar wg k) :=
  ((spares_barError ..).bar wg k).trans (bar_modBar h _)

/-! ### Check (R182) -/

theorem barCheck_waits (n : Nat) (h : (s.bar wg k).satisfied = false) : State.barCheck wg k (n + 1) s = s := by
  simp only [State.barCheck, h, Bool.not_false, Bool.or_true, ↓reduceIte]

theorem barCheck_owes (n : Nat) (h : 0 < (s.bar wg k).cnt (s.bar wg k).ph) : State.barCheck wg k (n + 1) s = s := by
  have hne : ¬(s.bar wg k).cnt (s.bar wg k).ph = 0 := by omega
  have hnot : ¬(s.bar wg k).cnt (s.bar wg k).ph < 0 := by omega
  simp only [State.barCheck, hne, hnot, ↓reduceIte, ite_self]

theorem barCheck_overrun (n : Nat) (herr : (s.bar wg k).err = false) (hsat : (s.bar wg k).satisfied = true)
    (h : (s.bar wg k).cnt (s.bar wg k).ph < 0) : State.barCheck wg k (n + 1) s = s.barError wg k 1 0 false false := by
  have hne : ¬(s.bar wg k).cnt (s.bar wg k).ph = 0 := by omega
  simp only [State.barCheck, herr, hsat, hne, h, Bool.not_true, Bool.or_self, Bool.false_eq_true, ↓reduceIte]

/-- A complete phase flips, and the new one is looked at in turn. -/
theorem barCheck_flips (n : Nat) (herr : (s.bar wg k).err = false) (hsat : (s.bar wg k).satisfied = true)
    (h : (s.bar wg k).cnt (s.bar wg k).ph = 0) : State.barCheck wg k (n + 1) s =
      State.barCheck wg k n ((s.releaseBar wg k (s.bar wg k).ph ((s.bar wg k).lwt (s.bar wg k).ph)).modBar wg k Bar.flipped) := by
  simp only [State.barCheck, herr, hsat, h, Bool.not_true, Bool.or_self, Bool.false_eq_true, ↓reduceIte]

end

end Sys2Proof.Proofs
end

section
/-! An arrival at a barrier, an expectation of bytes, and the wave's record of its arrivals; binit, bexp and barr (R181, R182, R185, R188). -/

namespace Sys2Proof.Proofs
open Sys2Proof Sys2Proof.Machine

section
variable {s t : State} {wg k : Nat}

/-! ### An arrival (R182) -/

/-- A barrier with one arrival more. -/
def Bar.counted (b : Bar) : Bar := { b with arr := b.arr + 1 }

theorem barArrive_eq (h : (s.bar wg k).exp ≠ 0) (hmore : (s.bar wg k).arr ≠ (s.bar wg k).exp) :
    s.barArrive wg k = State.barCheck wg k 3 (s.modBar wg k Bar.counted) := by
  have hsat : (s.bar wg k).satisfied = false := by simp [Bar.satisfied, h, hmore]
  simp only [State.barArrive, h, hsat, decide_false, Bool.or_self, Bool.false_eq_true, ↓reduceIte]
  rfl

theorem barArrive_excess (h : (s.bar wg k).exp = 0 ∨ (s.bar wg k).arr = (s.bar wg k).exp) :
    s.barArrive wg k = s.barError wg k 2 0 false false := by
  have hrefused : (decide ((s.bar wg k).exp = 0) || (s.bar wg k).satisfied) = true := by
    rcases h with h | h
    · simp [h]
    · by_cases hexp : (s.bar wg k).exp = 0
      · simp [hexp]
      · simp [Bar.satisfied, h, Nat.one_le_iff_ne_zero, hexp]
  simp only [State.barArrive, hrefused, ↓reduceIte]

/-- The last arrival. -/
theorem satisfied_counted {b : Bar} (h : b.arr + 1 = b.exp) : (Bar.counted b).satisfied = true := by
  simp [Bar.satisfied, Bar.counted, ← h]

section
variable {b : Bar} (hbar : HasBar s wg k) (hb : s.bar wg k = b)
include hbar hb

/-- An arrival that does not complete the phase. -/
theorem barArrive_counts (hexp : 1 ≤ b.exp) (h : b.arr + 1 < b.exp ∨
    (b.arr + 1 = b.exp ∧ 0 < b.cnt b.ph)) : s.barArrive wg k = s.modBar wg k Bar.counted := by
  subst hb
  have hone := bar_modBar hbar Bar.counted
  rw [barArrive_eq (by omega) (by omega)]
  rcases h with h | ⟨-, h⟩
  · refine barCheck_waits 2 ?_
    rw [hone]
    have hne : (s.bar wg k).arr + 1 ≠ (s.bar wg k).exp := by omega
    have hpos : (s.bar wg k).exp ≠ 0 := by omega
    simp [Bar.satisfied, Bar.counted, hne, hpos]
  · exact barCheck_owes 2 (by rw [hone]; exact h)

/-- The last arrival, with every byte counted: the phase completes, and the next one is open. -/
theorem barArrive_flips (herr : b.err = false) (h : b.arr + 1 = b.exp)
    (hcnt : b.cnt b.ph = 0) : s.barArrive wg k =
      ((s.modBar wg k Bar.counted).releaseBar wg k b.ph (b.lwt b.ph)).modBar wg k Bar.flipped := by
  subst hb
  have hone := bar_modBar hbar Bar.counted
  have hflip := barCheck_flips (s := s.modBar wg k Bar.counted) (wg := wg) (k := k) 2 (by rw [hone]; exact herr)
    (by rw [hone]; exact satisfied_counted h) (by rw [hone]; exact hcnt)
  rw [barArrive_eq (by omega) (by omega), hflip, hone]
  refine barCheck_waits 1 ?_
  rw [bar_modBar ((hbar.modBar k _).of_wgs (wgs_releaseBar ..)), bar_of_wgs (wgs_releaseBar ..), hone]
  have hexp : (Bar.flipped (Bar.counted (s.bar wg k))).exp = (s.bar wg k).arr + 1 := by
    rw [h]
    unfold Bar.flipped Bar.setSeen Bar.setLwt Bar.counted
    cases (s.bar wg k).ph <;> rfl
  have harr : (Bar.flipped (Bar.counted (s.bar wg k))).arr = 0 := rfl
  simp [Bar.satisfied, hexp, harr]

/-- The last arrival, with more bytes counted than were announced. -/
theorem barArrive_overrun (herr : b.err = false) (h : b.arr + 1 = b.exp)
    (hcnt : b.cnt b.ph < 0) : s.barArrive wg k = (s.modBar wg k Bar.counted).barError wg k 1 0 false false := by
  subst hb
  have hone := bar_modBar hbar Bar.counted
  rw [barArrive_eq (by omega) (by omega)]
  exact barCheck_overrun 2 (by rw [hone]; exact herr) (by rw [hone]; exact satisfied_counted h) (by rw [hone]; exact hcnt)

theorem bar_barArrive_flips (herr : b.err = false) (h : b.arr + 1 = b.exp)
    (hcnt : b.cnt b.ph = 0) : Flips b ((s.barArrive wg k).bar wg k) := by
  subst hb
  rw [barArrive_flips hbar rfl herr h hcnt, bar_modBar ((hbar.modBar k _).of_wgs (wgs_releaseBar ..)), bar_of_wgs (wgs_releaseBar ..),
    bar_modBar hbar]
  generalize s.bar wg k = b
  unfold Flips Bar.flipped Bar.counted Bar.setSeen Bar.setLwt Bar.seen Bar.lwt Bar.lwtc Bar.cnt
  cases b.ph <;> simp

end

/-- The first error of a barrier names its cause (R183). -/
theorem bar_barError_clear {b : Bar} (hbar : HasBar s wg k) (hb : s.bar wg k = b) (herr : b.err = false) (cause : Nat) :
    (s.barError wg k cause 0 false false).bar wg k = { b with err := true, cause := cause } := by
  rw [bar_barError hbar, hb, Bar.failed, if_neg (ne_true_of_eq_false herr)]

/-- An expectation of bytes in a phase that still lacks arrivals. -/
theorem bar_barExpect (hbar : HasBar s wg k) {q : Bool} {n : Nat} (hexp : 1 ≤ (s.bar wg k).exp) (harr : (s.bar wg k).arr < (s.bar wg k).exp)
    (hhi : (s.bar wg k).cnt q + n ≤ 2147483647) (hlo : -2147483648 ≤ (s.bar wg k).cnt q + n) :
    (s.barExpect wg k q n).bar wg k = ((s.bar wg k).setCnt q ((s.bar wg k).cnt q + n)).setSeen q true := by
  have hclamp : clampCnt ((s.bar wg k).cnt q + n) = ((s.bar wg k).cnt q + n, false) := by
    rw [clampCnt, if_neg (by omega), if_neg (by omega)]
  have hb := bar_modBar hbar fun b => (b.setCnt q ((s.bar wg k).cnt q + n)).setSeen q true
  simp only [State.barExpect, State.barCount, hclamp, Bool.false_eq_true, ↓reduceIte]
  rw [barCheck_waits 2, hb]
  rw [hb]
  have hexp' : (((s.bar wg k).setCnt q ((s.bar wg k).cnt q + n)).setSeen q true).exp = (s.bar wg k).exp := by
    unfold Bar.setSeen Bar.setCnt; cases q <;> rfl
  have harr' : (((s.bar wg k).setCnt q ((s.bar wg k).cnt q + n)).setSeen q true).arr = (s.bar wg k).arr := by
    unfold Bar.setSeen Bar.setCnt; cases q <;> rfl
  have hne : (s.bar wg k).arr ≠ (s.bar wg k).exp := by omega
  have hpos : (s.bar wg k).exp ≠ 0 := by omega
  simp [Bar.satisfied, hexp', harr', hne, hpos]

/-! ### The wave's record of its arrivals (R181, R185) -/

theorem w_noteArrival (hl : s.live = true) (k : Nat) : (s.noteArrival k).w = { s.w with
    recValid := s.w.recValid ||| 1#48 <<< k
    recPar := if (s.g.bar k).ph then s.w.recPar ||| 1#48 <<< k else s.w.recPar &&& ~~~(1#48 <<< k) } := by
  obtain ⟨-, hlive, hw, -⟩ := kept_releaseVia hl s.cur.core s.w.wg s.w.idx (.bar k (s.g.bar k).ph)
  rw [State.noteArrival, State.w_modW _ _ hlive, hw]

theorem live_noteArrival (hl : s.live = true) (k : Nat) : (s.noteArrival k).live = true := by
  obtain ⟨-, hlive, -⟩ := kept_releaseVia hl s.cur.core s.w.wg s.w.idx (.bar k (s.g.bar k).ph)
  rw [State.noteArrival, State.live_modW _ _ fun w => ?_]
  · exact hlive
  · rfl

theorem sp_noteArrival (hl : s.live = true) (k : Nat) : (s.noteArrival k).sp = s.sp := by
  rw [State.sp, w_noteArrival hl]; rfl

/-- An arrival is recorded with the phase it was made in. -/
theorem recorded_noteArrival (hl : s.live = true) {k : Nat} (hk : k < 48) : (s.noteArrival k).w.recValid.getLsbD k = true ∧
    (s.noteArrival k).w.recPar.getLsbD k = (s.g.bar k).ph := by
  rw [w_noteArrival hl]
  cases (s.g.bar k).ph <;> simp [hk]

/-- The records that a binit takes away from the waves of a workgroup. -/
def forgotten (k : Nat) (w : Wave) : Wave := { w with recValid := w.recValid &&& ~~~(1#48 <<< k), recPar := w.recPar &&& ~~~(1#48 <<< k) }

/-- The records of waves saved in memory are bytes. -/
theorem clearRecords_frame (s : State) (wg k : Nat) : (s.clearRecords wg k).wgs = s.wgs ∧ (s.clearRecords wg k).cur = s.cur ∧
    (s.clearRecords wg k).cores = (s.modWaves wg (forgotten k)).cores ∧ (s.clearRecords wg k).clusters = s.clusters ∧
    (s.clearRecords wg k).tu = s.tu := by
  refine List.foldlRecOn (motive := fun v : State => v.wgs = s.wgs ∧ v.cur = s.cur ∧ v.cores = (s.modWaves wg (forgotten k)).cores ∧
    v.clusters = s.clusters ∧ v.tu = s.tu) _ _ ⟨rfl, rfl, rfl, rfl, rfl⟩ fun v hv x _ => ?_
  simpa only [physPuts_keeps, physPuts_frame] using hv

theorem wave?_clearRecords (s : State) (wg k core ctx : Nat) :
    (s.clearRecords wg k).wave? core ctx = (s.modWaves wg (forgotten k)).wave? core ctx := by
  obtain ⟨-, -, hcores, hclusters, htu⟩ := clearRecords_frame s wg k
  refine wave?_of_waves ?_ ctx
  rw [core_congr hcores hclusters htu]

theorem w_clearRecords (hl : s.live = true) (k : Nat) : (s.clearRecords s.w.wg k).live = true ∧
    (s.clearRecords s.w.wg k).w = forgotten k s.w := by
  obtain ⟨-, hcur, -⟩ := clearRecords_frame s s.w.wg k
  have hwave : (s.clearRecords s.w.wg k).wave? (s.clearRecords s.w.wg k).cur.core (s.clearRecords s.w.wg k).cur.ctx =
      some (forgotten k s.w) := by
    rw [hcur, wave?_clearRecords, wave?_modWaves, wave?_of_live hl, Option.map_some, if_pos rfl]
  refine ⟨live_of_wave? hwave ?_, w_of_wave? hwave⟩
  rw [hcur]
  exact Option.isSome_iff_exists.mpr ⟨_, split?_of_live hl⟩

/-! ### binit, bexp and barr (R188) -/

/-- A barrier that expects n arrivals, as binit leaves it. -/
def freshBar (n : Nat) : Bar := { Bar.blank with exp := n }

/-- What binit makes of a barrier: fresh, with its expected count, and in no wave's record. -/
theorem initBar_fields (hl : s.live = true) (hbar : HasBar s s.w.wg k) (n : Nat) :
    let t := (((s.modBar s.w.wg k fun _ => freshBar n).clearRecords s.w.wg k).releaseBar s.w.wg k true 0).advance
    t.bar s.w.wg k = freshBar n ∧ t.w.recValid.getLsbD k = false ∧ ∀ j, j ≠ k → t.bar s.w.wg j = s.bar s.w.wg j := by
  obtain ⟨hlive, hw⟩ : ((s.modBar s.w.wg k fun _ => freshBar n).clearRecords s.w.wg k).live = true ∧
      ((s.modBar s.w.wg k fun _ => freshBar n).clearRecords s.w.wg k).w = forgotten k s.w := w_clearRecords (s := s.modBar s.w.wg k _) hl k
  have hwgs : ((s.modBar s.w.wg k fun _ => freshBar n).clearRecords s.w.wg k).wgs = (s.modBar s.w.wg k fun _ => freshBar n).wgs := (clearRecords_frame ..).1
  have hbars (j : Nat) : ((((s.modBar s.w.wg k fun _ => freshBar n).clearRecords s.w.wg k).releaseBar s.w.wg k true 0).advance).bar s.w.wg j =
      (s.modBar s.w.wg k fun _ => freshBar n).bar s.w.wg j := (bar_of_wgs (wgs_releaseBar _ _ _ true 0) ..).trans (bar_of_wgs hwgs ..)
  refine ⟨(hbars k).trans (bar_modBar hbar _), ?_, fun j hj => (hbars j).trans (bar_modBar_ne hj _)⟩
  have hwg : ((s.modBar s.w.wg k fun _ => freshBar n).clearRecords s.w.wg k).w.wg = s.w.wg := (congrArg Wave.wg hw :)
  have hreleased := live_releaseBar hlive k true 0
  have hwave := w_releaseBar hlive k true 0
  rw [hwg] at hreleased hwave
  rw [w_advance hreleased, hwave]
  have hrec : (forgotten k s.w).recValid.getLsbD k = false := by
    simp only [forgotten, BitVec.getLsbD_and, BitVec.getLsbD_not, BitVec.getLsbD_shiftLeft]
    by_cases hk : k < 48 <;> simp [hk]
  change ((State.w _).leaveBar k true 0).recValid.getLsbD k = false
  rw [(leaveBar_fields ..).1, hw]
  exact hrec

section
variable {k : BitVec 6} {a : Opnd}

theorem exec_binit (hl : s.live = true) (hk : k.toNat < s.g.bars.length) (ha : (s.src a).isUni = true) (hn : ((s.src a).at 0).toNat ≤ 64) :
    exec (.binit k a) s = .next (((s.modBar s.w.wg k.toNat fun _ => freshBar ((s.src a).at 0).toNat).clearRecords
      s.w.wg k.toNat).releaseBar s.w.wg k.toNat true 0).advance := by
  change execBinit k a s = _
  refine isa_ok hl ?_
  simp only [barK_ok hk, ok_bind, scalar_of_isUni ha, decide_eq_true hn, check_true]
  rfl

theorem exec_binit_range (hl : s.live = true) (hk : k.toNat < s.g.bars.length) (ha : (s.src a).isUni = true)
    (hn : 64 < ((s.src a).at 0).toNat) : exec (.binit k a) s = .next (s.raise (trapI tcProtection 0)) := by
  change execBinit k a s = _
  refine isa_error hl ?_
  simp only [barK_ok hk, ok_bind, scalar_of_isUni ha, decide_eq_false (Nat.not_le.2 hn), check_false, error_bind]

theorem named_eq (b : Bar) (nx : Bool) : (b.ph != nx) = b.named nx := by
  unfold Bar.named
  cases nx <;> cases b.ph <;> rfl

theorem exec_bexp (hl : s.live = true) (hk : k.toNat < s.g.bars.length) (ha : (s.src a).isUni = true) (nx : Bool) :
    exec (.bexp k a nx) s = .next (s.advance.barExpect s.w.wg k.toNat ((s.g.bar k.toNat).named nx) ((s.src a).at 0).toNat) := by
  change execBexp k a nx s = _
  refine isaCtl_ok hl ?_
  simp only [barK_ok hk, ok_bind, scalar_of_isUni ha, named_eq]

theorem exec_barr (hl : s.live = true) (hk : k.toNat < s.g.bars.length) (hwg : s.owesWg = false) :
    exec (.barr k) s = .next ((s.noteArrival k.toNat).advance.barArrive s.w.wg k.toNat) := by
  change execBarr k s = _
  refine isaCtl_ok hl ?_
  simp only [barK_ok hk, ok_bind, State.wgFirst, hwg, Bool.false_eq_true, ↓reduceIte]

theorem exec_barr_owed (hl : s.live = true) (hk : k.toNat < s.g.bars.length) (hwg : s.owesWg = true) :
    exec (.barr k) s = .next s.stall := by
  change execBarr k s = _
  refine isaCtl_ok hl ?_
  simp only [barK_ok hk, ok_bind, State.wgFirst, hwg, ↓reduceIte]

end

end

/-- Settles O31: binit leaves a fresh barrier, bexp counts bytes in a phase that lacks arrivals, and an arrival counts, completes the phase,
overruns or errs. -/
theorem barrierCounts : Obligations.BarrierCounts := by
  unfold Obligations.BarrierCounts
  refine ⟨fun s k a nx hq hs hk ha => ⟨fun hn => ?_, exec_binit_range hq.1 hk ha, fun _ hexp harr hhi hlo => ?_⟩,
    fun s k hq hs hk hk48 hwg => ?_, fun s k hq hk hwg => exec_barr_owed hq.1 hk hwg⟩
  · exact ⟨_, exec_binit hq.1 hk ha hn, initBar_fields hq.1 (hasBar_of_sound hs hk) _⟩
  · exact ⟨_, exec_bexp hq.1 hk ha nx, bar_barExpect (s := s.advance) (hasBar_of_sound hs hk) hexp harr hhi hlo⟩
  · have hbar : HasBar (s.noteArrival k.toNat).advance s.w.wg k.toNat := hasBar_of_sound hs hk
    have hlive := live_noteArrival hq.1 k.toNat
    obtain ⟨hvalid, hpar⟩ := recorded_noteArrival hq.1 hk48
    have hb : (s.noteArrival k.toNat).advance.bar s.w.wg k.toNat = s.g.bar k.toNat := bar_of_wgs rfl ..
    intro b herr
    refine ⟨fun hexp h => ?_, fun h hcnt => ?_, fun h hcnt => ?_, fun h => ?_⟩
    · refine ⟨_, exec_barr hq.1 hk hwg, ?_⟩
      rw [barArrive_counts hbar hb hexp h]
      refine ⟨(bar_modBar hbar Bar.counted).trans (congrArg Bar.counted hb), ?_⟩
      change (s.noteArrival k.toNat).advance.w.recValid.getLsbD k.toNat = true ∧ (s.noteArrival k.toNat).advance.w.recPar.getLsbD k.toNat = b.ph
      rw [w_advance hlive]
      exact ⟨hvalid, hpar⟩
    · exact ⟨_, exec_barr hq.1 hk hwg, bar_barArrive_flips hbar hb herr h hcnt⟩
    · refine ⟨_, exec_barr hq.1 hk hwg, ?_⟩
      rw [barArrive_overrun hbar hb herr h hcnt]
      have hleft := bar_barError_clear (hbar.modBar _ _) ((bar_modBar hbar Bar.counted).trans (congrArg Bar.counted hb)) herr 1
      exact ⟨congrArg Bar.err hleft, congrArg Bar.cause hleft, (congrArg Bar.ph hleft :)⟩
    · refine ⟨_, exec_barr hq.1 hk hwg, ?_⟩
      rw [barArrive_excess (by rw [hb]; exact h)]
      have hleft := bar_barError_clear hbar hb herr 2
      exact ⟨congrArg Bar.err hleft, congrArg Bar.cause hleft, (congrArg Bar.arr hleft :)⟩

end Sys2Proof.Proofs
end

section
/-! Waiting at a barrier, an arrival with its wait, the state word and the binding: bwait, barrw, btest and bbind (R183, R184, R187, R189). -/

namespace Sys2Proof.Proofs
open Sys2Proof Sys2Proof.Machine

section
variable {s t : State} {k : Nat} {q : Bool}

/-! ### A wait (R184) -/

theorem sp_wait (hl : s.live = true) (x : Wait) : (s.wait x).sp = { s.sp.closeWindows with status := .waiting x } :=
  sp_modSp hl fun _ => rfl

/-- A wait that passes. -/
structure PassesBar (s t : State) (lwtc : DWord) : Prop where
  pc : t.sp.pc = s.sp.pc + 8
  status : t.sp.status = s.sp.status
  arrived : t.sp.arrived = false
  lwt : t.w.lwt = maxD s.w.lwt lwtc
  wgs : t.wgs = s.wgs

theorem barWait_parks (herr : (s.g.bar k).err = false) (hq : (s.g.bar k).ph = q) : s.barWait k q = s.wait (.barrier k q) := by
  simp only [State.barWait, herr, hq, bne_self_eq_false, Bool.false_eq_true, ↓reduceIte]

/-- A split that has made its arrival, or has finished with it. -/
def Split.marked (b : Bool) (p : Split) : Split := { p with arrived := b }

/-- A wave that takes the latest write time of the phase it waited for. -/
def Wave.took (x : DWord) (w : Wave) : Wave := { w with lwt := maxD w.lwt x, lwtSet := w.lwtSet || x != 0 }

theorem barWait_takes (herr : (s.g.bar k).err = false) (hq : (s.g.bar k).ph ≠ q) : s.barWait k q =
    (((s.acquireVia s.cur.core s.w.wg s.w.idx (.bar k q)).modW (Wave.took ((s.g.bar k).lwtc q))).modSp (Split.marked false)).advance := by
  simp only [State.barWait, herr, bne_iff_ne.2 hq, Bool.false_eq_true, ↓reduceIte]
  rfl

theorem barWait_passes (hl : s.live = true) (herr : (s.g.bar k).err = false) (hq : (s.g.bar k).ph ≠ q) :
    PassesBar s (s.barWait k q) ((s.g.bar k).lwtc q) := by
  have hkept := kept_acquireVia hl s.cur.core s.w.wg s.w.idx (.bar k q)
  rw [barWait_takes herr hq]
  generalize hu : s.acquireVia s.cur.core s.w.wg s.w.idx (.bar k q) = u at hkept
  have htook : (u.modW (Wave.took ((s.g.bar k).lwtc q))).live = true := (u.live_modW (Wave.took _) fun _ => rfl).trans hkept.live
  have htooksp : (u.modW (Wave.took ((s.g.bar k).lwtc q))).sp = s.sp := (sp_modW hkept.live rfl).trans hkept.sp
  have hmarked := live_modSp htook (f := Split.marked false) fun _ => rfl
  have hend := sp_advance hmarked
  rw [sp_modSp htook (f := Split.marked false) fun _ => rfl, htooksp] at hend
  refine ⟨congrArg Split.pc hend, (congrArg Split.status hend :), (congrArg Split.arrived hend :), ?_, hu ▸ rfl⟩
  rw [w_advance hmarked, w_modSp htook, State.w_modW _ _ hkept.live, hkept.w]
  rfl

theorem barWait_errs (hh : ∀ h, s.w.handler = some h → h = s.cur.split) (herr : (s.g.bar k).err = true) :
    s.barWait k q = s.raise (trapI tcOverrun (k + (s.g.bar k).cause * 64)) := by
  have hmain : s.w.handler.any (· != s.cur.split) = false := by
    cases hw : s.w.handler with
    | none => rfl
    | some h => simp [hh h hw]
  simp only [State.barWait, herr, State.raiseLate, hmain, Bool.false_eq_true, ↓reduceIte, barInfo]

/-! ### An arrival and its wait -/

/-- The split that has arrived and not yet waited. -/
def arrivedAt (s : State) (k : Nat) : State := (s.noteArrival k).modSp (Split.marked true)

theorem live_arrivedAt (hl : s.live = true) (k : Nat) : (arrivedAt s k).live = true := live_modSp (live_noteArrival hl k) fun _ => rfl

theorem sp_arrivedAt (hl : s.live = true) (k : Nat) : (arrivedAt s k).sp = Split.marked true s.sp := by
  rw [arrivedAt, sp_modSp (live_noteArrival hl k) (f := Split.marked true) fun _ => rfl, sp_noteArrival hl]

theorem w_arrivedAt (hl : s.live = true) (k : Nat) :
    (arrivedAt s k).w = (s.noteArrival k).w.modSplit s.cur.split (Split.marked true) :=
  w_modSp (live_noteArrival hl k) _

theorem wg_arrivedAt (hl : s.live = true) (k : Nat) : (arrivedAt s k).w.wg = s.w.wg := by
  rw [w_arrivedAt hl, w_noteArrival hl]; rfl

/-- The record of the arrival names the parity that the wait takes. -/
theorem recPar?_arrived {u : State} (hvalid : u.w.recValid.getLsbD k = true) : u.recPar? k = u.w.recPar.getLsbD k := if_pos hvalid

theorem recorded_arrivedAt (hl : s.live = true) (hk : k < 48) : (arrivedAt s k).w.recValid.getLsbD k = true ∧
    (arrivedAt s k).w.recPar.getLsbD k = (s.g.bar k).ph := by
  rw [w_arrivedAt hl]
  exact recorded_noteArrival hl hk

theorem bar_eq_g {u : State} (h : u.w.wg = s.w.wg) (k : Nat) : u.g.bar k = u.bar s.w.wg k := by rw [State.g, h, State.bar]

theorem leaveBar_running {p : Split} (h : p.status = .running) (k : Nat) (par : Bool) : p.leaveBar k par = p := by
  rw [Split.leaveBar, Split.parkedAt, h]
  rfl

theorem sp_releaseBar (hl : s.live = true) (h : s.sp.status = .running) (k : Nat) (par : Bool) (t : DWord) :
    (s.releaseBar s.w.wg k par t).sp = s.sp := by
  rw [State.sp, cur_releaseBar, w_releaseBar hl, split?_leaveBar, split?_of_live hl, Option.map_some, Option.getD_some,
    leaveBar_running h, ite_self]

/-- A phase that completes leaves a split that runs, and the records of its wave, as they are. -/
theorem completed_keeps {wg : Nat} (hl : s.live = true) (hwg : s.w.wg = wg) (h : s.sp.status = .running) (k : Nat) (par : Bool) (t : DWord)
    (f : Bar → Bar) : let u := (s.releaseBar wg k par t).modBar wg k f
    u.live = true ∧ u.sp = s.sp ∧ u.w.recValid = s.w.recValid ∧ u.w.recPar = s.w.recPar ∧ u.w.wg = wg := by
  subst hwg
  obtain ⟨hvalid, hpar, hwg⟩ := leaveBar_fields s.w k par t
  have hw : ((s.releaseBar s.w.wg k par t).modBar s.w.wg k f).w = s.w.leaveBar k par t := w_releaseBar hl k par t
  exact ⟨live_releaseBar hl k par t, sp_releaseBar hl h k par t, hw ▸ hvalid, hw ▸ hpar, hw ▸ hwg⟩

/-- What barrw does after its arrival: the last one frees its own wave's splits too. -/
def barrwEnd (u : State) (k : Nat) : State := if u.live then u.barWait k (u.recPar? k) else u

/-- An arrival that leaves the phase open parks its split. -/
theorem barrwEnd_parks {u : State} (hl : u.live = true) (hvalid : u.w.recValid.getLsbD k = true)
    (hpar : u.w.recPar.getLsbD k = (u.g.bar k).ph) (herr : (u.g.bar k).err = false) :
    barrwEnd u k = u.wait (.barrier k (u.g.bar k).ph) := by
  rw [barrwEnd, if_pos hl, recPar?_arrived hvalid, hpar]
  exact barWait_parks herr rfl

/-- Where the phase has completed the split goes on. -/
theorem barrwEnd_passes {u : State} (hl : u.live = true) (hvalid : u.w.recValid.getLsbD k = true)
    (hpar : (u.g.bar k).ph = !u.w.recPar.getLsbD k) (herr : (u.g.bar k).err = false) :
    PassesBar u (barrwEnd u k) ((u.g.bar k).lwtc (u.w.recPar.getLsbD k)) := by
  rw [barrwEnd, if_pos hl, recPar?_arrived hvalid]
  exact barWait_passes hl herr (by rw [hpar]; exact Bool.not_ne_self _)

section
variable {k : BitVec 6}

theorem owesWg_closed (hl : s.live = true) : s.closed.owesWg = s.owesWg := by
  have hflying : s.closed.w.flying = s.w.flying := by
    rw [w_closed hl]
    exact flying_modSplit s.w _ fun _ => rfl
  rw [State.owesWg, State.owesWg, hflying]

theorem g_closed (hl : s.live = true) : s.closed.g = s.g := g_modSp hl _

theorem wg_closed (hl : s.live = true) : s.closed.w.wg = s.w.wg := by rw [w_closed hl]; rfl

/-- The parity that a bwait waits for. -/
def waitPar (s : State) (k : Nat) (p : Option Opnd) : Bool :=
  match p with
  | some a => ((s.src a).at 0).getLsbD 0
  | none => s.recPar? k

theorem exec_bwait (hq : s.quiet) (hk : k.toNat < s.g.bars.length) {p : Option Opnd} (hp : ∀ a, p = some a → (s.src a).isUni = true) :
    exec (.bwait k p) s = .next (s.closed.barWait k.toNat (waitPar s k.toNat p)) := by
  change execBwait k p s = _
  refine isaCtl_ok hq.1 ?_
  cases p with
  | none => simp only [barK_ok hk, ok_bind, settled_quiet hq, waitPar]
  | some a => simp only [barK_ok hk, ok_bind, scalar_of_isUni (hp a rfl), settled_quiet hq, waitPar]

theorem exec_barrw (hq : s.quiet) (hk : k.toNat < s.g.bars.length) (hwg : s.owesWg = false) (harr : s.sp.arrived = false)
    (herr : (s.g.bar k.toNat).err = false) :
    exec (.barrw k) s = .next (barrwEnd ((arrivedAt s.closed k.toNat).barArrive s.w.wg k.toNat) k.toNat) := by
  change execBarrw k s = _
  refine isaCtl_ok hq.1 ?_
  simp only [barK_ok hk, ok_bind, settled_quiet hq, State.wgFirst, owesWg_closed hq.1, hwg, sp_closed hq, harr, g_closed hq.1, herr,
    wg_closed hq.1, Bool.false_eq_true, ↓reduceIte]
  rfl

/-- barrw in a phase that lacks more arrivals than this one. -/
theorem barrw_parks (hq : s.quiet) (hbar : HasBar s s.w.wg k.toNat) (hk : k.toNat < 48) (herr : (s.g.bar k.toNat).err = false)
    (hexp : 1 ≤ (s.g.bar k.toNat).exp) (hmore : (s.g.bar k.toNat).arr + 1 < (s.g.bar k.toNat).exp) :
    let t := barrwEnd ((arrivedAt s.closed k.toNat).barArrive s.w.wg k.toNat) k.toNat
    t.sp.pc = s.sp.pc ∧ t.sp.status = .waiting (.barrier k.toNat (s.g.bar k.toNat).ph) ∧ t.sp.arrived = true ∧
      t.bar s.w.wg k.toNat = Bar.counted (s.g.bar k.toNat) := by
  have hclosed := (quiet_closed hq).1
  have hat : HasBar (arrivedAt s.closed k.toNat) s.w.wg k.toNat := hbar
  have hb : (arrivedAt s.closed k.toNat).bar s.w.wg k.toNat = s.g.bar k.toNat := bar_of_wgs rfl ..
  have hbar' := (bar_modBar hat Bar.counted).trans (congrArg Bar.counted hb)
  obtain ⟨hvalid, hpar⟩ : ((arrivedAt s.closed k.toNat).modBar s.w.wg k.toNat Bar.counted).w.recValid.getLsbD k.toNat = true ∧
      ((arrivedAt s.closed k.toNat).modBar s.w.wg k.toNat Bar.counted).w.recPar.getLsbD k.toNat = (s.closed.g.bar k.toNat).ph :=
    recorded_arrivedAt hclosed hk
  have hsp : ((arrivedAt s.closed k.toNat).modBar s.w.wg k.toNat Bar.counted).sp = Split.marked true s.sp :=
    (sp_arrivedAt hclosed _).trans (congrArg _ (sp_closed hq))
  have hwg : ((arrivedAt s.closed k.toNat).modBar s.w.wg k.toNat Bar.counted).w.wg = s.w.wg :=
    (wg_arrivedAt hclosed _).trans (wg_closed hq.1)
  have hlive : ((arrivedAt s.closed k.toNat).modBar s.w.wg k.toNat Bar.counted).live = true := live_arrivedAt hclosed k.toNat
  rw [barArrive_counts hat hb hexp (.inl hmore)]
  generalize (arrivedAt s.closed k.toNat).modBar s.w.wg k.toNat Bar.counted = u at *
  have hg : u.g.bar k.toNat = Bar.counted (s.g.bar k.toNat) := (bar_eq_g hwg _).trans hbar'
  rw [g_closed hq.1] at hpar
  rw [barrwEnd_parks hlive hvalid (hpar.trans (congrArg Bar.ph hg).symm) ((congrArg Bar.err hg).trans herr), hg]
  have hend := sp_wait hlive (.barrier k.toNat (Bar.counted (s.g.bar k.toNat)).ph)
  rw [hsp] at hend
  exact ⟨(congrArg Split.pc hend :), (congrArg Split.status hend :), (congrArg Split.arrived hend :), hbar'⟩

/-- barrw that completes its phase. -/
theorem barrw_passes (hq : s.quiet) (hbar : HasBar s s.w.wg k.toNat) (hk : k.toNat < 48) (herr : (s.g.bar k.toNat).err = false)
    (hrun : s.sp.status = .running) (hlast : (s.g.bar k.toNat).arr + 1 = (s.g.bar k.toNat).exp)
    (hcnt : (s.g.bar k.toNat).cnt (s.g.bar k.toNat).ph = 0) :
    let t := barrwEnd ((arrivedAt s.closed k.toNat).barArrive s.w.wg k.toNat) k.toNat
    t.sp.pc = s.sp.pc + 8 ∧ t.sp.arrived = false ∧ Flips (s.g.bar k.toNat) (t.bar s.w.wg k.toNat) := by
  have hclosed := (quiet_closed hq).1
  have hat : HasBar (arrivedAt s.closed k.toNat) s.w.wg k.toNat := hbar
  have hb : (arrivedAt s.closed k.toNat).bar s.w.wg k.toNat = s.g.bar k.toNat := bar_of_wgs rfl ..
  obtain ⟨hvalid, hpar⟩ := recorded_arrivedAt hclosed hk
  rw [g_closed hq.1] at hpar
  have hsp : ((arrivedAt s.closed k.toNat).modBar s.w.wg k.toNat Bar.counted).sp = Split.marked true s.sp :=
    (sp_arrivedAt hclosed _).trans (congrArg _ (sp_closed hq))
  have hflips := bar_barArrive_flips hat hb herr hlast hcnt
  obtain ⟨hlive', hsp', hvalid', hpar', hwg'⟩ := completed_keeps (s := (arrivedAt s.closed k.toNat).modBar s.w.wg k.toNat Bar.counted)
    (live_arrivedAt hclosed _) ((wg_arrivedAt hclosed _).trans (wg_closed hq.1)) ((congrArg Split.status hsp).trans hrun) k.toNat
    (s.g.bar k.toNat).ph ((s.g.bar k.toNat).lwt (s.g.bar k.toNat).ph) Bar.flipped
  rw [← barArrive_flips hat hb herr hlast hcnt] at hlive' hsp' hvalid' hpar' hwg'
  generalize (arrivedAt s.closed k.toNat).barArrive s.w.wg k.toNat = u at *
  have hg : u.g.bar k.toNat = u.bar s.w.wg k.toNat := bar_eq_g hwg' _
  have hph : u.w.recPar.getLsbD k.toNat = (s.g.bar k.toNat).ph := hpar' ▸ hpar
  obtain ⟨hnext, -, -, -, -, -, -, -, -, -, -, hclear, -⟩ := id hflips
  obtain ⟨hpc, -, harrived, -, hwgs⟩ := barrwEnd_passes hlive' (hvalid' ▸ hvalid) (by rw [hg, hph, hnext]) (by rw [hg, hclear, herr])
  rw [hsp', hsp] at hpc
  exact ⟨hpc, harrived, bar_of_wgs hwgs _ _ ▸ hflips⟩

end

end

end Sys2Proof.Proofs
end

section
/-! The state word of a barrier, its binding to an address, and the statement about waits and tests (R183, R184, R187, R188, R189). -/

namespace Sys2Proof.Proofs
open Sys2Proof Sys2Proof.Machine

section
variable {s : State} {k : BitVec 6}

/-! ### The state word (R187) -/

/-- The digits of a number that is put together from fields of these places. -/
theorem wordFields {ph err cause bound arr exp seen valid par : Nat} (hph : ph ≤ 1) (herr : err ≤ 1) (hcause : cause < 16) (hbound : bound ≤ 1)
    (harr : arr < 128) (hexp : exp < 128) (hseen : seen ≤ 1) (hvalid : valid ≤ 1) (hpar : par ≤ 1) :
    let n := ph + err * 2 + cause * 4 + bound * 64 + arr * 128 + exp * 16384 + seen * 2 ^ 21 + valid * 2 ^ 22 + par * 2 ^ 23
    n < 2 ^ 24 ∧ n / 2 ^ 0 % 2 = ph ∧ n / 2 ^ 1 % 2 = err ∧ n / 2 ^ 2 % 16 = cause ∧ n / 2 ^ 6 % 2 = bound ∧ n / 2 ^ 7 % 128 = arr ∧
      n / 2 ^ 14 % 128 = exp ∧ n / 2 ^ 21 % 2 = seen ∧ n / 2 ^ 22 % 2 = valid ∧ n / 2 ^ 23 % 2 = par := by
  intro n
  refine ⟨?_, ?_, ?_, ?_, ?_, ?_, ?_, ?_, ?_, ?_⟩ <;> omega

theorem getLsbD_w32 {n i : Nat} {b : Bool} (hn : n < 2 ^ 24) (h : n / 2 ^ i % 2 = b.toNat) : (w32 n).getLsbD i = b := by
  rw [BitVec.getLsbD, w32, BitVec.toNat_ofNat, Nat.mod_eq_of_lt (by omega), Nat.testBit_eq_decide_div_mod_eq, h]
  cases b <;> rfl

theorem extract_w32 {n i w x : Nat} (hn : n < 2 ^ 24) (h : n / 2 ^ i % 2 ^ w = x) : ((w32 n).extractLsb' i w).toNat = x := by
  rw [BitVec.extractLsb'_toNat, w32, BitVec.toNat_ofNat, Nat.mod_eq_of_lt (a := n) (by omega), Nat.shiftRight_eq_div_pow, h]

/-- Each field of the state word. -/
theorem word_fields (b : Bar) (valid par : Bool) : let x := b.word valid par
    x.getLsbD 0 = b.ph ∧ x.getLsbD 1 = b.err ∧ (x.extractLsb' 2 4).toNat = b.cause % 16 ∧ x.getLsbD 6 = b.bind.isSome ∧
      (x.extractLsb' 7 7).toNat = b.arr % 128 ∧ (x.extractLsb' 14 7).toNat = b.exp % 128 ∧ x.getLsbD 21 = b.seen b.ph ∧
      x.getLsbD 22 = valid ∧ x.getLsbD 23 = par ∧ (x.extractLsb' 24 8).toNat = 0 := by
  obtain ⟨hn, hph, herr, hcause, hbound, harr, hexp, hseen, hvalid, hpar⟩ := wordFields (Bool.toNat_le b.ph) (Bool.toNat_le b.err)
    (Nat.mod_lt b.cause (by decide : 16 > 0)) (Bool.toNat_le b.bind.isSome) (Nat.mod_lt b.arr (by decide : 128 > 0))
    (Nat.mod_lt b.exp (by decide : 128 > 0)) (Bool.toNat_le (b.seen b.ph)) (Bool.toNat_le valid) (Bool.toNat_le par)
  exact ⟨getLsbD_w32 hn hph, getLsbD_w32 hn herr, extract_w32 hn hcause, getLsbD_w32 hn hbound, extract_w32 hn harr, extract_w32 hn hexp,
    getLsbD_w32 hn hseen, getLsbD_w32 hn hvalid, getLsbD_w32 hn hpar, extract_w32 hn (by rw [Nat.div_eq_of_lt hn]; rfl)⟩

theorem exec_btest_word (hl : s.live = true) (hk : k.toNat < s.g.bars.length) (n : Fin 64) : exec (.btest k (.s n) false false) s =
    .next (s.writeS n.val ((s.g.bar k.toNat).word (s.w.recValid.getLsbD k.toNat) (s.w.recPar.getLsbD k.toNat))).advance := by
  change execBtest k (.s n) false false s = _
  refine isa_ok hl ?_
  simp only [barK_ok hk, ok_bind, Bool.false_eq_true, ↓reduceIte]
  rfl

theorem exec_btest_count (hl : s.live = true) (hk : k.toNat < s.g.bars.length) (n : Fin 64) (nx : Bool) : exec (.btest k (.s n) true nx) s =
    .next (s.writeS n.val (BitVec.ofInt 32 ((s.g.bar k.toNat).cnt ((s.g.bar k.toNat).named nx)))).advance := by
  change execBtest k (.s n) true nx s = _
  refine isa_ok hl ?_
  simp only [barK_ok hk, ok_bind, ↓reduceIte, named_eq]
  rfl

/-! ### The binding (R189) -/

/-- A barrier bound to an address, or to none. -/
def Bar.boundTo (x : Option Nat) (b : Bar) : Bar := { b with bind := x }

section
variable {a : Opnd} (hl : s.live = true) (hk : k.toNat < s.g.bars.length) (ha : (s.src a).isUni = true)
include hl hk ha

theorem exec_bbind_none (h : (s.src a).at 0 = 0xFFFFFFFF#32) :
    exec (.bbind k a) s = .next (s.modBar s.w.wg k.toNat (Bar.boundTo none)).advance := by
  change execBbind k a s = _
  refine isa_ok hl ?_
  simp only [barK_ok hk, ok_bind, scalar_of_isUni ha, h, ↓reduceIte]
  rfl

variable (hsome : (s.src a).at 0 ≠ 0xFFFFFFFF#32)
include hsome

theorem exec_bbind_misaligned (h : ((s.src a).at 0).toNat % 1024 ≠ 0) :
    exec (.bbind k a) s = .next (s.raise ⟨tcMisaligned, 0, (s.src a).at 0, 0⟩) := by
  change execBbind k a s = _
  refine isa_error hl ?_
  simp only [barK_ok hk, ok_bind, scalar_of_isUni ha, if_neg hsome, beq_eq_false_iff_ne.2 h, check_false, error_bind]

variable (halign : ((s.src a).at 0).toNat % 1024 = 0)
include halign

theorem exec_bbind_outside (h : s.g.size .a < ((s.src a).at 0).toNat + 1024) :
    exec (.bbind k a) s = .next (s.raise ⟨tcProtection, 0, (s.src a).at 0, 0⟩) := by
  change execBbind k a s = _
  refine isa_error hl ?_
  simp only [barK_ok hk, ok_bind, scalar_of_isUni ha, if_neg hsome, halign, beq_self_eq_true, check_true, decide_eq_false (Nat.not_le.2 h),
    check_false, error_bind]

theorem exec_bbind_some (hin : ((s.src a).at 0).toNat + 1024 ≤ s.g.size .a)
    (hfree : ∀ j < s.g.bars.length, j ≠ k.toNat → (s.g.bar j).bind ≠ some ((s.src a).at 0).toNat) :
    exec (.bbind k a) s = .next (s.modBar s.w.wg k.toNat (Bar.boundTo (some ((s.src a).at 0).toNat))).advance := by
  have hnone : ((List.range s.g.bars.length).any fun i => i != k.toNat && (s.g.bar i).bind == some ((s.src a).at 0).toNat) = false := by
    simpa using hfree
  change execBbind k a s = _
  refine isa_ok hl ?_
  simp only [barK_ok hk, ok_bind, scalar_of_isUni ha, if_neg hsome, halign, beq_self_eq_true, check_true, decide_eq_true hin, hnone,
    Bool.not_false]
  rfl

end

end

/-- Settles O32: a wait passes, parks or traps, barrw arrives first, btest reads the state word or a count, and bbind binds and unbinds. -/
theorem barrierWaitsAndTests : Obligations.BarrierWaitsAndTests := by
  unfold Obligations.BarrierWaitsAndTests
  refine ⟨fun s k p hq hs hk hk48 hp hh hwg => ?_, fun s k hq hs hk => ⟨fun n nx => ⟨⟨_, exec_btest_word hq.1 hk n, word_fields ..⟩,
    exec_btest_count hq.1 hk n nx⟩, fun a ha => ?_⟩⟩
  · have hclosed := (quiet_closed hq).1
    have hbar := hasBar_of_sound hs hk
    intro b q
    have hgb : s.closed.g.bar k.toNat = b := congrArg (WGrp.bar · k.toNat) (g_closed hq.1)
    have hexec : exec (.bwait k p) s = .next (s.closed.barWait k.toNat q) := exec_bwait hq hk hp
    refine ⟨fun herr hph => ?_, fun herr hph => ?_, fun herr => ?_, fun harr herr hexp hmore => ?_, fun harr herr hrun hlast hcnt => ?_⟩
    · obtain ⟨hpc, hstatus, -, hlwt, hwgs⟩ := barWait_passes (k := k.toNat) (q := q) hclosed (hgb ▸ herr) (hgb ▸ hph)
      rw [sp_closed hq] at hpc hstatus
      rw [hgb, w_closed hq.1] at hlwt
      exact ⟨_, hexec, hpc, hstatus, hlwt, hwgs⟩
    · have hend := sp_wait hclosed (.barrier k.toNat q)
      rw [sp_closed hq] at hend
      refine ⟨_, hexec, ?_⟩
      rw [barWait_parks (hgb ▸ herr) (hgb ▸ hph)]
      exact ⟨(congrArg Split.pc hend :), (congrArg Split.status hend :), rfl⟩
    · have hmain : ∀ h, s.closed.w.handler = some h → h = s.closed.cur.split := by
        rw [w_closed hq.1]
        exact hh
      rw [hexec, barWait_errs hmain (hgb ▸ herr), hgb]
    · exact ⟨_, exec_barrw hq hk hwg harr herr, barrw_parks hq hbar hk48 herr hexp hmore⟩
    · exact ⟨_, exec_barrw hq hk hwg harr herr, barrw_passes hq hbar hk48 herr hrun hlast hcnt⟩
  · have hbar := hasBar_of_sound hs hk
    exact ⟨fun h => ⟨_, exec_bbind_none hq.1 hk ha h, bar_modBar hbar _⟩, exec_bbind_misaligned hq.1 hk ha,
      exec_bbind_outside hq.1 hk ha, fun hsome halign hin hfree => ⟨_, exec_bbind_some hq.1 hk ha hsome halign hin hfree, bar_modBar hbar _⟩⟩

end Sys2Proof.Proofs
end

section
/-! The instructions of group 0xA at issue: what enters the array's queue, and the checks before it (R204, R205, R225 to R232). -/

namespace Sys2Proof.Proofs
open Sys2Proof Sys2Proof.Machine

section
variable {s t : State} {g : Guard} {a b c : Opnd} {n : BitVec 5}

/-! ### The array's queue (R205) -/

/-- What an instruction's entry holds of its place: its split, its counter's slot and the old bytes its wave may read. -/
def entered (s : State) (e : MEntry) : MEntry :=
  let e : MEntry := { e with
    qid := (s.core s.cur.core).nextQ, ctx := s.cur.ctx, wg := s.w.wg, acc := s.w.nextAcc, prio := s.w.prio, pc := s.sp.pc, uid := s.sp.uid }
  { e with olds := s.oldParts e s.w.idx }

/-- The entry joins its core's queue. -/
def joined (s : State) (e : MEntry) : State :=
  s.modCore s.cur.core fun k => { k with mq := k.mq ++ [entered s e], nextQ := k.nextQ + 1 }

/-- The slot that a counted entry takes on its wave's matrix counter. -/
def arraySlot (s : State) (dst : Opnd) (regs : Nat) (w : Wave) : Acc :=
  { w.newAcc .m s.sp.pc .store with dst := dst, regs := regs, mask := fullMask, size := 2 }

theorem enqueue_joins {e : MEntry} {dst : Opnd} {regs : Nat} {la : BitVec 4}
    (hqueue : ((s.core s.cur.core).mq.filter fun x => !x.started).length < 32) (hshare : e.quiet = true ∨ s.w.count .m < 8) :
    s.enqueue e dst regs la =
      (let u := if e.quiet then joined s e else (joined s e).modW fun w => w.addAcc (arraySlot s dst regs w)
       (if regs = 0 then u else u.openWait s.w.nextAcc la (groupOf dst regs)).advance) := by
  have hroom : (decide (32 ≤ ((s.core s.cur.core).mq.filter fun x => !x.started).length) || (!e.quiet && decide (8 ≤ s.w.count .m))) = false := by
    rw [decide_eq_false (Nat.not_le.2 hqueue)]
    rcases hshare with h | h
    · rw [h]; rfl
    · rw [decide_eq_false (Nat.not_le.2 h), Bool.and_false, Bool.or_false]
  simp only [State.enqueue, hroom, Bool.false_eq_true, ↓reduceIte]
  rfl

theorem kept_joined (hl : s.live = true) (e : MEntry) : Kept s (joined s e) := kept_modCore hl _ fun _ => rfl

/-- From s to u the counter's slot was taken and nothing else of the wave changed. -/
theorem counted_joined (hl : s.live = true) (e : MEntry) (dst : Opnd) (regs : Nat) :
    let u := if e.quiet then joined s e else (joined s e).modW fun w => w.addAcc (arraySlot s dst regs w)
    u.live = true ∧ u.cur = s.cur ∧ u.sp = s.sp ∧ u.w.v = s.w.v ∧ u.w.p = s.w.p ∧ u.w.wg = s.w.wg ∧
      u.w.count .m = s.w.count .m + (!e.quiet).toNat ∧ u.mem = s.mem ∧ u.wgs = s.wgs ∧
      (u.core s.cur.core).mq = (s.core s.cur.core).mq ++ [entered s e] := by
  have hk := kept_joined hl e
  have hmq : ((joined s e).core s.cur.core).mq = (s.core s.cur.core).mq ++ [entered s e] := by
    rw [joined, State.core_modCore]
  cases hquiet : e.quiet with
  | true => exact ⟨hk.live, hk.cur, hk.sp, by rw [if_pos rfl, hk.w], by rw [if_pos rfl, hk.w], by rw [if_pos rfl, hk.w], by rw [if_pos rfl, hk.w]; rfl, rfl, rfl, hmq⟩
  | false =>
    simp only [Bool.false_eq_true, ↓reduceIte]
    have hw : ((joined s e).modW fun w => w.addAcc (arraySlot s dst regs w)).w = s.w.addAcc (arraySlot s dst regs s.w) := by
      rw [State.w_modW _ _ hk.live, hk.w]
    refine ⟨(State.live_modW _ (fun w => w.addAcc (arraySlot s dst regs w)) fun _ => rfl).trans hk.live, rfl,
      (sp_modW (f := fun w => w.addAcc (arraySlot s dst regs w)) hk.live rfl).trans hk.sp, ?_, ?_, ?_, ?_, rfl, rfl, (mq_modWave ..).trans hmq⟩
    · rw [hw]; rfl
    · rw [hw]; rfl
    · rw [hw]; rfl
    · rw [hw]; exact count_addAcc s.w rfl .m

/-- What joins the queue is at its end, counted unless it raises no counter; no workgroup changed. -/
theorem enqueue_queues (hl : s.live = true) {e : MEntry} {dst : Opnd} {regs : Nat} {la : BitVec 4} {p : MEntry → Prop}
    (hqueue : ((s.core s.cur.core).mq.filter fun x => !x.started).length < 32) (hshare : e.quiet = true ∨ s.w.count .m < 8)
    (hstart : e.started = false) (hp : p (entered s e)) : Queued s (s.enqueue e dst regs la) (!e.quiet) p ∧
      (s.enqueue e dst regs la).w.wg = s.w.wg ∧ (s.enqueue e dst regs la).wgs = s.wgs := by
  rw [enqueue_joins hqueue hshare]
  obtain ⟨hlive, hcur, hsp, hv, hpr, hwg, hcount, hmem, hwgs, hmq⟩ := counted_joined hl e dst regs
  generalize (if e.quiet then joined s e else (joined s e).modW fun w => w.addAcc (arraySlot s dst regs w)) = u at *
  have hmoved : MovedOn u (if regs = 0 then u else u.openWait s.w.nextAcc la (groupOf dst regs)).advance := by
    split
    · exact movedOn_advance hlive
    · exact movedOn_openWait hlive _ _ _
  have hmqt : (((if regs = 0 then u else u.openWait s.w.nextAcc la (groupOf dst regs)).advance).core s.cur.core).mq =
      (u.core s.cur.core).mq := by
    split
    · exact mq_modWave ..
    · exact (mq_modWave ..).trans (mq_modWave ..)
  simp only
  generalize (if regs = 0 then u else u.openWait s.w.nextAcc la (groupOf dst regs)).advance = t at *
  obtain ⟨hstate, -, htv, htp, htaccs, htwg, hts, htpc, htg, -⟩ := hmoved
  have htmem : t.mem = u.mem := by rw [hstate]
  have htwgs : t.wgs = u.wgs := by rw [hstate]
  refine ⟨⟨entered s e, hmqt.trans hmq, rfl, rfl, rfl, hstart, hp, ?_, by rw [htpc, hsp], htv.trans hv, htp.trans hpr, by rw [hts, hsp],
    htmem.trans hmem, fun sp => ?_⟩, htwg.trans hwg, htwgs.trans hwgs⟩
  · rw [Wave.count, htaccs]
    exact hcount
  · rw [htg, State.g, hwg, wg_of_wgs hwgs]
    rfl

theorem queued_enqueue (hl : s.live = true) {e : MEntry} {dst : Opnd} {regs : Nat} {la : BitVec 4} {p : MEntry → Prop}
    (hqueue : ((s.core s.cur.core).mq.filter fun x => !x.started).length < 32) (hshare : e.quiet = true ∨ s.w.count .m < 8)
    (hstart : e.started = false) (hp : p (entered s e)) : Queued s (s.enqueue e dst regs la) (!e.quiet) p :=
  (enqueue_queues hl hqueue hshare hstart hp).1

/-! ### Checks (R204, R215, R226) -/

theorem roleCheck_ok {bad : List Role} (h : bad.contains s.w.role = false) (op : Nat) : s.roleCheck bad op = .ok () := by
  rw [State.roleCheck, h]; rfl

theorem roleCheck_bad {bad : List Role} (h : bad.contains s.w.role = true) (op : Nat) : s.roleCheck bad op = .error (trapI tcRole op) := by
  rw [State.roleCheck, h]; rfl

theorem mBad_of_ne (h : s.w.role ≠ .copy) : mBad.contains s.w.role = false := by
  revert h
  cases s.w.role <;> decide

theorem mmaBad_of_compute (h : s.w.role = .general ∨ s.w.role = .matrix) : mmaBad.contains s.w.role = false := by
  rcases h with h | h <;> rw [h] <;> rfl

theorem mmaBad_of_other (h : s.w.role = .copy ∨ s.w.role = .epilogue) : mmaBad.contains s.w.role = true := by
  rcases h with h | h <;> rw [h] <;> rfl

theorem needConverged_ok (h : s.converged g = true) : s.needConverged g = .ok () := by
  rw [State.needConverged, h]; rfl

theorem inBuf_ok {sp : Space} {lo : Word} {n : Nat} (h : lo.toNat + n ≤ s.g.size sp) : s.inBuf sp lo n = .ok () := by
  rw [State.inBuf, decide_eq_true h]; rfl

theorem inTiles_ok {t n : Nat} (h : t + n ≤ s.g.tc.length) : s.inTiles t n = .ok () := by
  rw [State.inTiles, decide_eq_true h]; rfl

/-- The binding that an operand's identifier names, if it names one. -/
def bindingOf (s : State) (id : Nat) : Option (Nat × SclBind) :=
  if id = 255 then none else (look s.g.scl id).map fun x => (id, x)

theorem bindingOf_none (s : State) : bindingOf s 255 = none := rfl

theorem binding_ok {id : Nat} {i4g : Bool} (hid : id ≠ 255) (h : ∃ x, look s.g.scl id = some x ∧ x.desc.getLsbD 18 = i4g) :
    s.binding id i4g = .ok (bindingOf s id) := by
  obtain ⟨x, hx, hkind⟩ := h
  simp only [hid, ↓reduceIte, bindingOf, State.binding, hx, hkind, Option.map_some]

theorem bindings_ok {fb : DWord} (h : s.scaleOk fb) : s.bindings fb = .ok (bindingOf s (fbSidA fb), bindingOf s (fbSidB fb)) := by
  obtain ⟨ha, hb⟩ := h
  by_cases hna : fbSidA fb = 255
  · by_cases hnb : fbSidB fb = 255
    · simp only [State.bindings, bindingOf_none, hna, hnb, ↓reduceIte, ok_bind]
    · simp only [State.bindings, bindingOf_none, hna, hnb, binding_ok hnb (hb hnb), ↓reduceIte, ok_bind]
  · by_cases hnb : fbSidB fb = 255
    · simp only [State.bindings, bindingOf_none, hna, hnb, binding_ok hna (ha hna), ↓reduceIte, ok_bind]
    · simp only [State.bindings, hna, hnb, binding_ok hna (ha hna), binding_ok hnb (hb hnb), ↓reduceIte, ok_bind]

/-! ### mma and mma.sp (R226, R227) -/

/-- The entry of an mma whose operands pass their checks. -/
def mmaEntry (s : State) (o : MmaOp) (sp : Bool) : MEntry :=
  { MEntry.blank (.mma sp) with
    fb := s.sp.pair o.fb.val, sa := ((s.src o.a).at 0).toNat, sb := ((s.src o.b).at 0).toNat, offs := (s.src o.c).at 0, tile := o.tile.toNat,
    k := 16 * (o.kk.toNat + 1), bindA := bindingOf s (fbSidA (s.sp.pair o.fb.val)), bindB := bindingOf s (fbSidB (s.sp.pair o.fb.val)) }

theorem mma_ok {o : MmaOp} {sp : Bool} {op : Nat} (hrole : s.w.role = .general ∨ s.w.role = .matrix) (hconv : s.converged o.g = true)
    (ha : (s.src o.a).isUni = true) (hb : (s.src o.b).isUni = true) (hc : (s.src o.c).isUni = true)
    (hfb : fbValid (s.sp.pair o.fb.val) (16 * (o.kk.toNat + 1)) sp false = true) (haa : ((s.src o.a).at 0).toNat % 16 = 0)
    (hba : ((s.src o.b).at 0).toNat % 32 = 0)
    (hain : ((s.src o.a).at 0).toNat + bytesA (s.sp.pair o.fb.val) (16 * (o.kk.toNat + 1)) ≤ s.g.size .a)
    (hbin : ((s.src o.b).at 0).toNat + bytesB (s.sp.pair o.fb.val) (16 * (o.kk.toNat + 1)) sp ≤ s.g.size .w)
    (hn : o.tile.toNat < s.g.tc.length) (hscale : s.scaleOk (s.sp.pair o.fb.val)) :
    s.mma o sp op = .ok (s.enqueue (mmaEntry s o sp) .null 0 0) := by
  simp only [State.mma, roleCheck_ok (mmaBad_of_compute hrole), needConverged_ok hconv, scalar_of_isUni ha, scalar_of_isUni hb, hfb,
    haa, hba, inBuf_ok hain, inBuf_ok hbin, inTiles_ok (n := 1) hn, bindings_ok hscale, beq_self_eq_true, check_true, ok_bind]
  by_cases hnull : o.c = .null
  · have hzero : (s.src o.c).at 0 = 0#32 := by rw [hnull]; rfl
    rw [if_pos hnull, mmaEntry, hzero]
  · rw [if_neg hnull, scalar_of_isUni hc]
    rfl

theorem mma_role {o : MmaOp} {sp : Bool} {op : Nat} (h : s.w.role = .copy ∨ s.w.role = .epilogue) :
    s.mma o sp op = .error (trapI tcRole op) := by
  rw [State.mma, roleCheck_bad (mmaBad_of_other h), error_bind]

/-- mma and mma.sp are one operation. -/
theorem exec_mma (o : MmaOp) (sp : Bool) :
    exec (if sp then .mmaSp o else .mma o) s = isaCtl (fun s => s.mma o sp (if sp then 0x281 else 0x280)) s := by
  cases sp <;> rfl

/-! ### vmx (R228) -/

theorem firstOf_nodup (l : List Word) : (firstOf l).Nodup ∧ ∀ x ∈ firstOf l, x ∈ l := by
  refine List.foldlRecOn (motive := fun r : List Word => r.Nodup ∧ ∀ x ∈ r, x ∈ l) l _ ⟨List.nodup_nil, fun x hx => absurd hx List.not_mem_nil⟩
    fun r ⟨hr, hsub⟩ y hy => ?_
  split
  · exact ⟨hr, hsub⟩
  · rename_i hnot
    have hnew : y ∉ r := by simpa using hnot
    refine ⟨List.nodup_append.2 ⟨hr, List.nodup_singleton y, fun x hx z hz h => hnew ?_⟩, fun x hx => ?_⟩
    · rw [← List.mem_singleton.1 hz, ← h]; exact hx
    · rcases List.mem_append.1 hx with h | h
      · exact hsub x h
      · exact List.mem_singleton.1 h ▸ hy

/-- The different words of a list whose words all lie in another. -/
theorem firstOf_length_le {l m : List Word} (h : ∀ x ∈ l, x ∈ m) : (firstOf l).length ≤ m.length :=
  List.Subperm.length_le ((firstOf_nodup l).1.subperm fun x hx => h x ((firstOf_nodup l).2 x hx))

theorem getD_row (v : VReg) {t : Nat} (ht : t < 32) : v.row.getD t 0 = v.at t := by
  rw [VReg.row, List.getD_eq_getElem?_getD, List.getElem?_map, List.getElem?_range ht]
  rfl

/-- The rows of A that a vmx reads. -/
def vmxRows (s : State) (a : Fin 128) (k : Nat) : List (List Word) := (List.range (k / 2)).map fun i => (s.readV (a.val + i)).row

def vmxEntry (s : State) (a b : Fin 128) (fb : Fin 64) (kk : BitVec 2) : MEntry :=
  { MEntry.blank (.vmx (vmxRows s a (16 * (kk.toNat + 1))) (s.readV b.val).row) with fb := s.sp.pair fb.val, k := 16 * (kk.toNat + 1) }

theorem exec_vmx (hq : s.quiet) {la : BitVec 4} {d va vb : Fin 128} {fbr : Fin 64} {kk : BitVec 2} {l : List Word}
    (hrole : s.w.role = .general ∨ s.w.role = .matrix) (hconv : s.converged g = true)
    (hfb : fbValid (s.sp.pair fbr.val) (16 * (kk.toNat + 1)) false true = true) (hrows : s.rowsFor d.val 16) (hl : l.length ≤ 4)
    (had : ∀ t < 32, (s.vreg vb.val).at t ≠ 0xFFFFFFFF#32 → ((s.vreg vb.val).at t).toNat % 1024 = 0 ∧
      ((s.vreg vb.val).at t).toNat + bytesB (s.sp.pair fbr.val) (16 * (kk.toNat + 1)) false ≤ s.g.size .w ∧ (s.vreg vb.val).at t ∈ l) :
    exec (.vmx g la d va vb fbr kk) s = .next (s.enqueue (vmxEntry s va vb fbr kk) (.v d) 16 la) := by
  have hrow (t : Nat) (ht : t ∈ (List.range 32).filter fun t => (s.vreg vb.val).row.getD t 0 != 0xFFFFFFFF#32) :
      (s.vreg vb.val).row.getD t 0 = (s.vreg vb.val).at t ∧ ((s.vreg vb.val).at t).toNat % 1024 = 0 ∧
        ((s.vreg vb.val).at t).toNat + bytesB (s.sp.pair fbr.val) (16 * (kk.toNat + 1)) false ≤ s.g.size .w ∧ (s.vreg vb.val).at t ∈ l := by
    obtain ⟨hrange, hne⟩ := List.mem_filter.1 ht
    have hlt := List.mem_range.1 hrange
    rw [getD_row _ hlt] at hne ⊢
    exact ⟨rfl, had t hlt (bne_iff_ne.1 hne)⟩
  change execVmx g la d va vb fbr kk s = _
  refine isaCtl_ok hq.1 ?_
  simp only [roleCheck_ok (mmaBad_of_compute hrole), needConverged_ok hconv, hfb, check_true, ok_bind, readV_quiet hq]
  rw [failThread_ok, failThread_ok, failThread_ok]
  · simp only [ok_bind, firstShort_of_rowsFor hrows, vmxEntry, vmxRows, readV_quiet hq]
  · intro t ht
    refine decide_eq_false (Nat.not_lt.2 (le_trans (firstOf_length_le (m := l) fun x hx => ?_) hl))
    obtain ⟨u, hu, rfl⟩ := List.mem_map.1 hx
    obtain ⟨hat, -, -, hmem⟩ := hrow u (List.mem_filter.1 hu).1
    rw [hat]
    exact hmem
  · intro t ht
    obtain ⟨hat, -, hin, -⟩ := hrow t ht
    rw [hat, decide_eq_true hin]
    rfl
  · intro t ht
    obtain ⟨hat, halign, -, -⟩ := hrow t ht
    rw [hat, halign]
    rfl

end

end Sys2Proof.Proofs
end

section
/-! The array's other instructions: the accumulators, the scale bindings, and the fences of the array (R221, R226, R229 to R232). -/

namespace Sys2Proof.Proofs
open Sys2Proof Sys2Proof.Machine

section
variable {s t : State} {g : Guard} {a b c : Opnd} {n : BitVec 5}

/-! ### azero, aepi and amax (R229 to R231) -/

def azeroEntry (n m : BitVec 5) : MEntry := { MEntry.blank .azero with tile := n.toNat, cnt := m.toNat + 1 }

theorem exec_azero (hl : s.live = true) (hrole : s.w.role ≠ .copy) {m : BitVec 5} (h : n.toNat + m.toNat + 1 ≤ s.g.tc.length) :
    exec (.azero n m) s = .next (s.enqueue (azeroEntry n m) .null 0 0) := by
  change execAzero n m s = _
  refine isaCtl_ok hl ?_
  simp only [roleCheck_ok (mBad_of_ne hrole), inTiles_ok (t := n.toNat) (n := m.toNat + 1) h, ok_bind]
  rfl

def aepiEntry (s : State) (n : BitVec 5) (a b : Opnd) (act : Act) (zc : Bool) (f : EpiFmt) : MEntry :=
  { MEntry.blank (.aepi act zc f) with
    dst := ((s.src a).at 0).toNat, sb := ((s.src b).at 0).toNat, tile := n.toNat, cnt := epiTiles zc f }

theorem exec_aepi (hl : s.live = true) (hrole : s.w.role ≠ .copy) {act : Act} {zc : Bool} {f : EpiFmt} (hconv : s.converged g = true)
    (ha : (s.src a).isUni = true) (hb : (s.src b).isUni = true) (hzc : zc = true → n.toNat % epiTiles zc f = 0)
    (haa : ((s.src a).at 0).toNat % 16 = 0) (hba : ((s.src b).at 0).toNat % 32 = 0)
    (hain : ((s.src a).at 0).toNat + epiBytes zc f ≤ s.g.size .a) (hbin : ((s.src b).at 0).toNat + 160 ≤ s.g.size .a)
    (hn : n.toNat + epiTiles zc f ≤ s.g.tc.length) :
    exec (.aepi g n a b act zc f) s = .next (s.enqueue (aepiEntry s n a b act zc f) .null 0 0) := by
  have htiles : (!zc || n.toNat % epiTiles zc f == 0) = true := by
    cases zc with
    | false => rfl
    | true => rw [hzc rfl]; rfl
  change execAepi g n a b act zc f s = _
  refine isaCtl_ok hl ?_
  simp only [roleCheck_ok (mBad_of_ne hrole), needConverged_ok hconv, scalar_of_isUni ha, scalar_of_isUni hb, htiles, haa, hba,
    inBuf_ok hain, inBuf_ok hbin, inTiles_ok hn, beq_self_eq_true, check_true, ok_bind]
  rfl

def amaxEntry (s : State) (d : Fin 128) (a : Opnd) (n : BitVec 5) (i32 : Bool) : MEntry :=
  { MEntry.blank (.amax i32 ((s.src a).at 0) ((List.range 32).map fun t => ((s.vreg d.val).at t, (s.vreg (d.val + 1)).at t))) with tile := n.toNat }

theorem exec_amax (hq : s.quiet) (hrole : s.w.role ≠ .copy) {la : BitVec 4} {d : Fin 128} {i32 : Bool} (hconv : s.converged g = true)
    (ha : (s.src a).isUni = true) (hn : n.toNat < s.g.tc.length) (hrows : s.rowsFor d.val 2) :
    exec (.amax g la d a n i32) s = .next (s.enqueue (amaxEntry s d a n i32) (.v d) 2 la) := by
  have hshort : s.w.firstShort [d.val, d.val + 1] = none := by
    have hrange : (List.range 2).map (· + d.val) = [d.val, d.val + 1] := by simp [List.range_succ, Nat.add_comm]
    exact hrange ▸ firstShort_of_rowsFor hrows
  change execAmax g la d a n i32 s = _
  refine isaCtl_ok hq.1 ?_
  simp only [roleCheck_ok (mBad_of_ne hrole), needConverged_ok hconv, scalar_of_isUni ha, inTiles_ok (n := 1) hn, hshort, ok_bind,
    readV_quiet hq]
  rfl

/-! ### Scale bindings (R215, R232) -/

theorem exec_sclinv (hl : s.live = true) (hrole : s.w.role ≠ .copy) (id : Option (BitVec 8)) :
    exec (.sclinv id) s = .next (s.enqueue (MEntry.blank (.sclinv (id.map (·.toNat)))) .null 0 0) := by
  change execSclinv id s = _
  refine isaCtl_ok hl ?_
  simp only [roleCheck_ok (mBad_of_ne hrole), ok_bind]

/-- A workgroup with one scale binding more. -/
def bindScale (id : Nat) (x : SclBind) (g : WGrp) : WGrp := { g with scl := put g.scl id x }

/-- An entry that raises no counter. -/
theorem queued_uncounted (hl : s.live = true) (hqueue : ((s.core s.cur.core).mq.filter fun x => !x.started).length < 32) {kind : MKind}
    (hquiet : (MEntry.blank kind).quiet = true) : Queued s (s.enqueue (MEntry.blank kind) .null 0 0) false fun e => e.kind = kind := by
  have h := queued_enqueue hl (e := MEntry.blank kind) (dst := .null) (regs := 0) (la := 0) (p := fun e => e.kind = kind) hqueue (.inl hquiet) rfl rfl
  rw [hquiet] at h
  exact h

section
variable {id : BitVec 8} {r : Fin 64} (hl : s.live = true) (hrole : s.w.role ≠ .copy)
  (hqueue : ((s.core s.cur.core).mq.filter fun x => !x.started).length < 32)
include hl hrole hqueue

theorem queued_sclinv (id : Option (BitVec 8)) :
    Runs (.sclinv id) s fun t => Queued s t false fun e => e.kind = .sclinv (id.map (·.toNat)) :=
  ⟨_, exec_sclinv hl hrole id, queued_uncounted hl hqueue rfl⟩

theorem exec_scldef (hb : (s.src b).isUni = true) (hkind : (((s.src b).at 0).extractLsb' 16 2).toNat < 2)
    (hzero : (((s.src b).at 0).extractLsb' 19 13).toNat = 0) (halign : (s.sp.pair r.val).toNat % sclSize ((s.src b).at 0) = 0)
    (hin : sclLocal ((s.src b).at 0) = true → (s.sp.pair r.val).toNat < s.g.size .w) :
    exec (.scldef id r b) s = .next ((s.enqueue (MEntry.blank (.scldef id.toNat)) .null 0 0).modG
      (bindScale id.toNat ⟨s.sp.pair r.val, (s.src b).at 0⟩)) := by
  have hmoved : (s.enqueue (MEntry.blank (.scldef id.toNat)) .null 0 0).sp.pc ≠ s.sp.pc := by
    obtain ⟨-, -, -, -, -, -, -, -, hpc, -⟩ := queued_uncounted hl hqueue (kind := .scldef id.toNat) rfl
    rw [hpc]
    bv_omega
  have hrange : (!sclLocal ((s.src b).at 0) || decide ((s.sp.pair r.val).toNat < s.g.size .w)) = true := by
    cases hloc : sclLocal ((s.src b).at 0) with
    | false => rfl
    | true => rw [decide_eq_true (hin hloc)]; rfl
  change execScldef id r b s = _
  refine isaCtl_ok hl ?_
  simp only [roleCheck_ok (mBad_of_ne hrole), scalar_of_isUni hb, decide_eq_true hkind, hzero, halign, hrange, beq_self_eq_true, Bool.and_self,
    check_true, ok_bind, if_neg hmoved]
  rfl

omit hrole in
/-- The binding is made as the instruction enters the queue. -/
theorem queued_scldef (hs : s.sound) (x : SclBind) :
    let t := (s.enqueue (MEntry.blank (.scldef id.toNat)) .null 0 0).modG (bindScale id.toNat x)
    Queued s t false (fun e => e.kind = .scldef id.toNat) ∧ look t.g.scl id.toNat = some x := by
  obtain ⟨-, -, -, -, ⟨g, hg⟩, -⟩ := hs
  obtain ⟨hwg, hwgs⟩ : (s.enqueue (MEntry.blank (.scldef id.toNat)) .null 0 0).w.wg = s.w.wg ∧
      (s.enqueue (MEntry.blank (.scldef id.toNat)) .null 0 0).wgs = s.wgs :=
    (enqueue_queues hl (p := fun _ => True) hqueue (.inl rfl) rfl trivial).2
  obtain ⟨e, hmq, hctx, hewg, hpc, hstart, hkind, hcount, hmoved, hv, hp, hss, hmem, hbuf⟩ :=
    queued_uncounted hl hqueue (kind := .scldef id.toNat) rfl
  generalize s.enqueue (MEntry.blank (.scldef id.toNat)) .null 0 0 = u at *
  have htg : (u.modG (bindScale id.toNat x)).g = bindScale id.toNat x u.g := g_modG (g := g) (by rw [hwg, hwgs]; exact hg) _
  refine ⟨⟨e, hmq, hctx, hewg, hpc, hstart, hkind, hcount, hmoved, hv, hp, hss, hmem, fun sp => ?_⟩, ?_⟩
  · rw [htg, ← hbuf sp]
    cases sp <;> rfl
  · rw [htg]
    exact look_put_self ..

end

/-! ### mfence and mwait (R221, R224) -/

/-- A mark of an unfenced write that a wave's fence passes. -/
def fencedBy (wg idx : Nat) (u : Unfenced) : Unfenced :=
  if u.wg = wg && (u.by_ == idx || u.known.contains idx) then { u with seen := idx :: u.seen } else u

theorem exec_mfence (hl : s.live = true) (hrole : s.w.role ≠ .copy) : exec .mfence s =
    .next (s.modCore s.cur.core fun c => { c with unf := c.unf.map (fencedBy s.w.wg s.w.idx) }).advance := by
  change execMfence s = _
  refine isa_ok hl ?_
  simp only [roleCheck_ok (mBad_of_ne hrole), ok_bind]
  rfl

/-- A wave's fence leaves the array's writes behind that its wave made or knows of. -/
theorem mfence_fences (hl : s.live = true) :
    let t := (s.modCore s.cur.core fun c => { c with unf := c.unf.map (fencedBy s.w.wg s.w.idx) }).advance
    SameOutside s t ∧ t.wgs = s.wgs ∧ t.w.v = s.w.v ∧ t.w.p = s.w.p ∧ t.sp.s = s.sp.s ∧ t.sp.pc = s.sp.pc + 8 ∧
      (∀ u ∈ (t.core s.cur.core).unf, u.wg = s.w.wg → u.by_ = s.w.idx ∨ s.w.idx ∈ u.known → s.w.idx ∈ u.seen) ∧
      (∀ u ∈ (s.core s.cur.core).unf, u.by_ ≠ s.w.idx → s.w.idx ∉ u.known → u ∈ (t.core s.cur.core).unf) := by
  have hkept : Kept s (s.modCore s.cur.core fun c => { c with unf := c.unf.map (fencedBy s.w.wg s.w.idx) }) := kept_modCore hl _ fun _ => rfl
  obtain ⟨-, -, hv, hp, -, -, hss, hpc, -⟩ := movedOn_advance hkept.live
  have hunf : (((s.modCore s.cur.core fun c => { c with unf := c.unf.map (fencedBy s.w.wg s.w.idx) }).advance).core s.cur.core).unf =
      (s.core s.cur.core).unf.map (fencedBy s.w.wg s.w.idx) := by
    rw [State.advance, State.modSp, State.modW, State.modWave]
    exact (congrArg Core.unf (State.core_modCore ..)).trans (congrArg Core.unf (State.core_modCore ..))
  rw [hkept.w] at hv hp
  rw [hkept.sp] at hss hpc
  refine ⟨⟨rfl, rfl, rfl, rfl, rfl, rfl, rfl, rfl, rfl, rfl, rfl⟩, rfl, hv, hp, hss, hpc, fun u hu hwg hmine => ?_, fun u hu hby hknown => ?_⟩
  · rw [hunf] at hu
    obtain ⟨x, -, rfl⟩ := List.mem_map.1 hu
    unfold fencedBy at hwg hmine ⊢
    split
    · exact List.mem_cons_self
    · rename_i hnot
      rw [if_neg hnot] at hwg hmine
      exact absurd (by simpa [hwg] using hmine) hnot
  · rw [hunf]
    refine List.mem_map.2 ⟨u, hu, if_neg ?_⟩
    simp [hby, hknown]

theorem exec_mwait (hq : s.quiet) (hrole : s.w.role ≠ .copy) (ha : (s.src a).isUni = true) (hfault : s.w.mfault = none) : exec (.mwait a) s =
    .next (if s.w.count .m ≤ ((s.src a).at 0).toNat then s.closed.advance else s.closed.wait (.mwait ((s.src a).at 0).toNat)) := by
  have hcount : s.closed.w.count .m = s.w.count .m := by rw [w_closed hq.1]; rfl
  have hnone : s.closed.w.mfault = none := by rw [w_closed hq.1]; exact hfault
  change execMwait a s = _
  refine isaCtl_ok hq.1 ?_
  simp only [roleCheck_ok (mBad_of_ne hrole), scalar_of_isUni ha, ok_bind, settled_quiet hq, hcount, State.reportFault, hnone]
  split <;> rfl

end

end Sys2Proof.Proofs
end

section
/-! What each instruction of group 0xA enters in the array's queue, put together (R204, R205, R225 to R232). -/

namespace Sys2Proof.Proofs
open Sys2Proof Sys2Proof.Machine

section
variable {s : State} {g : Guard} {a b : Opnd}

/-- A counted instruction whose checks pass, where the array has room. -/
theorem runs_counted {i : Instr} {e : MEntry} {dst : Opnd} {regs : Nat} {la : BitVec 4} {p : MEntry → Prop} (hl : s.live = true)
    (hroom : s.arrayRoom) (hexec : exec i s = .next (s.enqueue e dst regs la)) (hquiet : e.quiet = false) (hstart : e.started = false)
    (hp : p (entered s e)) : Runs i s fun t => Queued s t true p := by
  obtain ⟨hqueue, hshare⟩ := hroom
  have h := queued_enqueue hl (dst := dst) (regs := regs) (la := la) hqueue (.inr hshare) hstart hp
  rw [hquiet] at h
  exact ⟨_, hexec, h⟩

theorem exec_mma_role {o : MmaOp} {sp : Bool} (hl : s.live = true) (h : s.w.role = .copy ∨ s.w.role = .epilogue) :
    exec (if sp then .mmaSp o else .mma o) s = .next (s.raise (trapI tcRole (if sp then 0x281 else 0x280))) := by
  rw [exec_mma]
  exact isaCtl_error hl (mma_role h)

theorem exec_array_role (hl : s.live = true) (h : s.w.role = .copy) : exec .mfence s = .next (s.raise (trapI tcRole 0x283)) ∧
    exec (.mwait a) s = .next (s.raise (trapI tcRole 0x284)) := by
  have hbad : mBad.contains s.w.role = true := by rw [h]; rfl
  constructor
  · change execMfence s = _
    exact isa_error hl (by simp only [roleCheck_bad hbad, error_bind])
  · change execMwait a s = _
    exact isaCtl_error hl (by simp only [roleCheck_bad hbad, error_bind])

end

/-- Settles O40: each instruction of group 0xA that passes its checks enters the array's queue with what it read. -/
theorem matrixIssue : Obligations.MatrixIssue := by
  unfold Obligations.MatrixIssue
  intro s g a b c n hq hs
  have hl := hq.1
  refine ⟨fun sp fbr kk => ⟨exec_mma_role hl, fun hrole ⟨hconv, hroom⟩ ha hb hc hfb haa hba hain hbin hn hscale => ?_⟩, ?_,
    exec_array_role hl, fun hrole => ⟨⟨_, exec_mfence hl hrole, mfence_fences hl⟩, fun ha hfault => ?_, fun m hroom h => ?_, ?_, ?_, ?_⟩⟩
  · have hexec := (exec_mma ⟨g, fbr, a, b, c, n, kk⟩ sp).trans
      (isaCtl_ok hl (mma_ok (o := ⟨g, fbr, a, b, c, n, kk⟩) hrole hconv ha hb hc hfb haa hba hain hbin hn hscale))
    exact runs_counted hl hroom hexec rfl rfl ⟨rfl, rfl, rfl, rfl, rfl, rfl, rfl, rfl, rfl⟩
  · intro la d va vb fbr kk l k ad hrole ⟨hconv, hroom⟩ hfb hrows hlen had
    refine runs_counted hl hroom (exec_vmx hq hrole hconv hfb hrows hlen had) rfl rfl
      ⟨vmxRows s va k, (s.readV vb.val).row, rfl, rfl, fun t ht => ?_, fun i hi t ht => ?_⟩
    · rw [readV_quiet hq, getD_row _ ht]
    · have hrow : (vmxRows s va k).getD i [] = (s.readV (va.val + i)).row := by
        rw [vmxRows, List.getD_eq_getElem?_getD, List.getElem?_map, List.getElem?_range hi]
        rfl
      rw [hrow, readV_quiet hq, getD_row _ ht]
  · rw [exec_mwait hq hrole ha hfault]
    exact ⟨fun h => by rw [if_pos h], fun h => by rw [if_neg (Nat.not_le.2 h)]⟩
  · exact runs_counted hl hroom (exec_azero hl hrole h) rfl rfl ⟨rfl, rfl, rfl⟩
  · intro act zc f ⟨hconv, hroom⟩ ha hb hzc haa hba hain hbin hn
    exact runs_counted hl hroom (exec_aepi hl hrole hconv ha hb hzc haa hba hain hbin hn) rfl rfl ⟨rfl, rfl, rfl, rfl⟩
  · intro la d i32 ⟨hconv, hroom⟩ ha hn hrows
    refine runs_counted hl hroom (exec_amax hq hrole hconv ha hn hrows) rfl rfl ⟨rfl, _, rfl, fun t ht => ?_⟩
    rw [List.getD_eq_getElem?_getD, List.getElem?_map, List.getElem?_range ht]
    rfl
  · intro id r hqueue desc addr
    exact ⟨queued_sclinv hl hrole hqueue (some id), queued_sclinv hl hrole hqueue none, fun hb hkind hzero halign hin =>
      ⟨_, exec_scldef hl hrole hqueue hb hkind hzero halign hin, queued_scldef hl hqueue hs _⟩⟩

end Sys2Proof.Proofs
end

section
/-! Kicks: the requests that one has the copy engine read, in address order, and the slots they hold on their wave's C counter
(R178, R192). -/

namespace Sys2Proof.Proofs
open Sys2Proof Sys2Proof.Machine

section
variable {s v : State} {core ctx : Nat}

/-! ### One request read (R192) -/

/-- The four words of the request at a kick's address. -/
def kickWords (s : State) (k : Kick) : List DWord :=
  (List.range 4).map fun i => BitVec.ofNat 64 (fieldAt (s.bufGet k.wg .a k.addr 32) (8 * i) 8)

/-- The request as the engine reads it. -/
def kickReq (s : State) (core : Nat) (k : Kick) (id : Nat) : CopyReq :=
  ⟨id, k.ctx, k.idx, k.wg, k.grid, (s.wave core k.ctx).prio, kickWords s k, [], 0, 0, [], 0, 0, 0, [], 0, none⟩

/-- What is left of the kicks once their first request is read. -/
def kicksLeft (k : Kick) (ks : List Kick) : List Kick :=
  if k.left ≤ 1 then ks else { k with addr := k.addr + 32, left := k.left - 1, acc := k.acc + 1 } :: ks

/-- The first request of the kicks enters the input queue. -/
def requestRead (s : State) (core : Nat) (k : Kick) (ks : List Kick) : State :=
  s.modCore core fun c => { c with copyIn := c.copyIn ++ [kickReq s core k c.nextReq], nextReq := c.nextReq + 1, kicks := kicksLeft k ks }

theorem readKick_reads {k : Kick} {ks : List Kick} (n : Nat) (hk : (s.core core).kicks = k :: ks) (hroom : (s.core core).copyIn.length < 64) :
    State.readKick core (n + 1) s = State.readKick core n ((requestRead s core k ks).completeAcc core k.ctx k.acc .c) := by
  rw [State.readKick]
  simp only [hk, hroom, ↓reduceIte]
  rfl

theorem readKick_full (n : Nat) (h : (s.core core).copyIn.length = 64) : State.readKick core n s = s := by
  cases n with
  | zero => rfl
  | succ n =>
    rw [State.readKick]
    cases (s.core core).kicks with
    | nil => rfl
    | cons k ks => simp only [h, lt_self_iff_false, ↓reduceIte]

theorem copies_requestRead (k : Kick) (ks : List Kick) : ((requestRead s core k ks).core core).kicks = kicksLeft k ks ∧
    ((requestRead s core k ks).core core).copyIn = (s.core core).copyIn ++ [kickReq s core k (s.core core).nextReq] := by
  rw [requestRead, State.core_modCore]
  exact ⟨rfl, rfl⟩

theorem length_kickWords (s : State) (k : Kick) : (kickWords s k).length = 4 := by
  rw [kickWords, List.length_map, List.length_range]

theorem getD_kickWords (s : State) (k : Kick) {j : Nat} (hj : j < 4) :
    (kickWords s k).getD j 0 = BitVec.ofNat 64 (leNat (s.bufGet k.wg .a (k.addr + 8 * j) 8)) := by
  have hword : fieldAt (s.bufGet k.wg .a k.addr 32) (8 * j) 8 = leNat (s.bufGet k.wg .a (k.addr + 8 * j) 8) := by
    rw [fieldAt, drop_take_bufGet (by omega), State.bufGet, Mem.gets]
    simp only [byteAt_eq]
  rw [kickWords, List.getD_eq_getElem?_getD, List.getElem?_map, List.getElem?_range hj, Option.map_some, Option.getD_some, hword]

/-- A core's cycle at which its input queue has room for the first request of its kicks. -/
theorem runs_kickQueueRefill {k : Kick} {ks : List Kick} (hk : (s.core core).kicks = k :: ks) (hroom : (s.core core).copyIn.length < 64) :
    Runs (.kickQueueRefill core) s fun t =>
      ∃ r, (t.core core).copyIn = (s.core core).copyIn ++ [r] ∧ r.wg = k.wg ∧ r.grid = k.grid ∧ r.words.length = 4 ∧
        (∀ j < 4, r.words.getD j 0 = BitVec.ofNat 64 (leNat (s.bufGet k.wg .a (k.addr + 8 * j) 8))) ∧
        (t.core core).kicks = kicksLeft k ks := by
  have hexec : exec (.kickQueueRefill core) s = .next ((requestRead s core k ks).completeAcc core k.ctx k.acc .c) := by
    change execKickQueueRefill core s = _
    refine event_some ?_
    simp only [hk, hroom, List.isEmpty_cons, Bool.not_false, decide_true, Bool.and_self, ↓reduceIte, readKick_reads 0 hk hroom]
    rfl
  obtain ⟨hkicks, hcopyIn⟩ := copies_requestRead (s := s) (core := core) k ks
  have hspared := spares_completeAcc (requestRead s core k ks) core k.ctx k.acc .c
  exact ⟨_, hexec, kickReq s core k (s.core core).nextReq, (hspared.copyIn core).trans hcopyIn, rfl, rfl, length_kickWords s k,
    fun j hj => getD_kickWords s k hj, (hspared.kicks core).trans hkicks⟩

/-! ### The slots of a kick on the C counter (R178) -/

/-- Entries of the C counter under way, one by one from an identifier. -/
def SlotsFrom : Nat → List Acc → Prop
  | _, [] => True
  | id, a :: as => a.id = id ∧ a.path = .c ∧ a.done = false ∧ a.pathless = false ∧ SlotsFrom (id + 1) as

theorem SlotsFrom.counted {id : Nat} {as : List Acc} (h : SlotsFrom id as) : as.filter (fun a => a.path == .c && !a.pathless) = as := by
  induction as generalizing id with
  | nil => rfl
  | cons a as ih =>
    obtain ⟨-, hpath, -, hless, hrest⟩ := h
    rw [List.filter_cons_of_pos (by simp [hpath, hless]), ih hrest]

theorem SlotsFrom.later {id : Nat} {as : List Acc} (h : SlotsFrom id as) : ∀ a ∈ as, id ≤ a.id := by
  induction as generalizing id with
  | nil => exact fun a ha => absurd ha List.not_mem_nil
  | cons b as ih =>
    obtain ⟨hid, -, -, -, hrest⟩ := h
    intro a ha
    rcases List.mem_cons.1 ha with rfl | ha
    · exact hid.ge
    · exact (Nat.le_succ id).trans (ih hrest a ha)

/-- No entry of the C counter leaves before the one that is done. -/
theorem retireList_others {as : List Acc} (h : ∀ a ∈ as, a.path ≠ .c) (bs : List Acc) : retireList .c (as ++ bs) = as ++ retireList .c bs := by
  induction as with
  | nil => rfl
  | cons a as ih =>
    have hnot : (decide (a.path = .c) && (a.done || !a.pathless)) = false := by
      rw [decide_eq_false (h a List.mem_cons_self), Bool.false_and]
    rw [List.cons_append, retireList, hnot, ih fun b hb => h b (List.mem_cons_of_mem _ hb)]
    rfl

theorem SlotsFrom.retire {id : Nat} {as : List Acc} (h : SlotsFrom id as) : retireList .c as = as := by
  cases as with
  | nil => rfl
  | cons a as =>
    obtain ⟨-, hpath, hdone, hless, -⟩ := h
    simp only [retireList, hpath, hdone, hless, decide_true, Bool.not_false, Bool.or_true, Bool.and_true, Bool.false_eq_true, ↓reduceIte]

/-- The oldest slot's completion lets it leave, and no other. -/
theorem retire_slot {w : Wave} {pre as : List Acc} {a : Acc} {id : Nat} (hw : w.accs = pre ++ a :: as)
    (hpre : ∀ b ∈ pre, b.path ≠ .c ∧ b.id < id) (h : SlotsFrom id (a :: as)) :
    ((w.modAcc id fun a => { a with done := true }).retire .c) = { w with accs := pre ++ as } := by
  obtain ⟨hid, hpath, hdone, hless, hrest⟩ := h
  have hmap (bs : List Acc) (hbs : ∀ b ∈ bs, b.id ≠ id) : (bs.map fun b => if b.id = id then { b with done := true } else b) = bs :=
    (List.map_congr_left fun b hb => if_neg (hbs b hb)).trans (List.map_id' bs)
  have haccs : (w.modAcc id fun a => { a with done := true }).accs = pre ++ { a with done := true } :: as := by
    rw [Wave.modAcc, hw, List.map_append, List.map_cons, if_pos hid, hmap pre fun b hb => (hpre b hb).2.ne,
      hmap as fun b hb => Nat.ne_of_gt (hrest.later b hb)]
  have hdoneHead : retireList .c ({ a with done := true } :: as) = as := by
    rw [retireList, hrest.retire]
    simp [hpath]
  rw [Wave.retire, haccs, retireList_others fun b hb => (hpre b hb).1, hdoneHead]
  rfl

/-- The slots that a kick of n requests takes. -/
theorem addAcc_slots (pc : DWord) (l : List Nat) (w : Wave) : ∃ as next, SlotsFrom w.nextAcc as ∧ as.length = l.length ∧
    l.foldl (fun w _ => w.addAcc (w.newAcc .c pc .store)) w = { w with accs := w.accs ++ as, nextAcc := next } := by
  induction l generalizing w with
  | nil => exact ⟨[], w.nextAcc, trivial, rfl, by rw [List.append_nil]; rfl⟩
  | cons x l ih =>
    obtain ⟨as, next, hslots, hlen, hfold⟩ := ih (w.addAcc (w.newAcc .c pc .store))
    have hnext : (w.addAcc (w.newAcc .c pc .store)).nextAcc = w.nextAcc + 1 := Nat.max_eq_right (Nat.le_succ _)
    rw [hnext] at hslots
    refine ⟨w.newAcc .c pc .store :: as, next, ⟨rfl, rfl, rfl, rfl, hslots⟩, congrArg Nat.succ hlen, ?_⟩
    rw [List.foldl_cons, hfold, Wave.addAcc, List.append_assoc]
    rfl

/-! ### All requests of a kick, read at once -/

/-- A request is the i-th of a kick. -/
def FromKick (s : State) (k : Kick) (i : Nat) (r : CopyReq) : Prop :=
  r.wg = k.wg ∧ r.grid = k.grid ∧ r.ctx = k.ctx ∧ r.words.length = 4 ∧
    ∀ j < 4, r.words.getD j 0 = BitVec.ofNat 64 (leNat (s.bufGet k.wg .a (k.addr + 32 * i + 8 * j) 8))

/-- From v to t a kick's requests entered the input queue and its slots left their wave. -/
structure AllRead (core ctx : Nat) (k : Kick) (n : Nat) (w : Wave) (v t : State) : Prop where
  wave : t.wave? core ctx = some w
  wgs : t.wgs = v.wgs
  cur : t.cur = v.cur
  kicks : (t.core core).kicks = []
  copyIn : ∃ rs, (t.core core).copyIn = (v.core core).copyIn ++ rs ∧ rs.length = n ∧ ∀ i r, rs[i]? = some r → FromKick v k i r

theorem bufGet_of_wgs {t : State} (h : t.wgs = s.wgs) (wg : Nat) (sp : Space) (lo n : Nat) : t.bufGet wg sp lo n = s.bufGet wg sp lo n := by
  rw [State.bufGet, wg_of_wgs h, State.bufGet]

/-- One request read, where its wave stays: the slot leaves, the request is in. -/
theorem read_one {k : Kick} {w : Wave} {pre as : List Acc} {a : Acc} (hw : v.wave? core k.ctx = some w) (hsplits : w.splits ≠ [])
    (haccs : w.accs = pre ++ a :: as) (hpre : ∀ b ∈ pre, b.path ≠ .c ∧ b.id < k.acc) (hslots : SlotsFrom k.acc (a :: as)) :
    let t := (requestRead v core k []).completeAcc core k.ctx k.acc .c
    t.wave? core k.ctx = some { w with accs := pre ++ as } ∧ t.wgs = v.wgs ∧ t.cur = v.cur ∧ (t.core core).kicks = kicksLeft k [] ∧
      (t.core core).copyIn = (v.core core).copyIn ++ [kickReq v core k (v.core core).nextReq] := by
  have hwaves : ((requestRead v core k []).core core).waves = (v.core core).waves := by
    rw [requestRead, waves_modCore_keep]
    exact fun _ => rfl
  have hread : (requestRead v core k []).wave? core k.ctx = some w := (wave?_of_waves hwaves _).trans hw
  obtain ⟨hkicks, hcopyIn⟩ := copies_requestRead (s := v) (core := core) k []
  have hspared := spares_completeAcc (requestRead v core k []) core k.ctx k.acc .c
  obtain ⟨hwave, hwgs⟩ := completeAcc_of_splits hread hsplits k.acc .c
  have hdone : ((requestRead v core k []).modWave core k.ctx fun w => (w.modAcc k.acc fun a => { a with done := true }).retire .c).wave?
      core k.ctx = some ((w.modAcc k.acc fun a => { a with done := true }).retire .c) := by
    rw [State.wave?_modWave, hread]; rfl
  have hcur : ((requestRead v core k []).completeAcc core k.ctx k.acc .c).cur = v.cur := by
    rw [State.completeAcc, reap_of_splits hdone hsplits]
    rfl
  rw [retire_slot haccs hpre hslots] at hwave
  exact ⟨hwave, hwgs, hcur, (hspared.kicks core).trans hkicks, (hspared.copyIn core).trans hcopyIn⟩

theorem readKick_all {pre as : List Acc} {k : Kick} {w : Wave} (hw : v.wave? core k.ctx = some w) (hsplits : w.splits ≠ [])
    (haccs : w.accs = pre ++ as) (hpre : ∀ b ∈ pre, b.path ≠ .c ∧ b.id < k.acc) (hslots : SlotsFrom k.acc as)
    (hkicks : (v.core core).kicks = if as.length = 0 then [] else [k]) (hleft : k.left = as.length)
    (hroom : (v.core core).copyIn.length + as.length ≤ 64) :
    AllRead core k.ctx k as.length { w with accs := pre } v (State.readKick core as.length v) := by
  induction as generalizing v k w with
  | nil =>
    rw [List.append_nil] at haccs
    exact ⟨by rw [← haccs]; exact hw, rfl, rfl, hkicks, [], (List.append_nil _).symm, rfl, fun i r h => by simp at h⟩
  | cons a as ih =>
    rw [List.length_cons] at hkicks hleft hroom
    rw [if_neg (Nat.succ_ne_zero _)] at hkicks
    obtain ⟨hwave, hwgs, hcur, hkicks', hcopyIn⟩ := read_one hw hsplits haccs hpre hslots
    rw [List.length_cons, readKick_reads as.length hkicks (by omega)]
    generalize (requestRead v core k []).completeAcc core k.ctx k.acc .c = u at *
    have hnext : kicksLeft k [] = if as.length = 0 then [] else [{ k with addr := k.addr + 32, left := k.left - 1, acc := k.acc + 1 }] := by
      rw [kicksLeft, hleft]
      exact if_congr (by omega) rfl rfl
    obtain ⟨-, -, -, -, hrest⟩ := hslots
    obtain ⟨hwave', hwgs', hcur', hdone, rs, hrs, hlen, hfrom⟩ := ih (v := u)
      (k := { k with addr := k.addr + 32, left := k.left - 1, acc := k.acc + 1 }) (w := { w with accs := pre ++ as }) hwave hsplits rfl
      (fun b hb => ⟨(hpre b hb).1, Nat.lt_succ_of_lt (hpre b hb).2⟩) hrest (hkicks'.trans hnext) (by simp only [hleft]; rfl)
      (by rw [hcopyIn, List.length_append, List.length_singleton]; omega)
    refine ⟨hwave', hwgs'.trans hwgs, hcur'.trans hcur, hdone, kickReq v core k (v.core core).nextReq :: rs, ?_, congrArg Nat.succ hlen, fun i r hr => ?_⟩
    · rw [hrs, hcopyIn, List.append_assoc]; rfl
    · cases i with
      | zero =>
        obtain rfl : kickReq v core k (v.core core).nextReq = r := by simpa using hr
        exact ⟨rfl, rfl, rfl, length_kickWords v k, fun j hj => getD_kickWords v k hj⟩
      | succ i =>
        obtain ⟨hwg, hgrid, hctx, hwords, hbytes⟩ := hfrom i r (by simpa using hr)
        refine ⟨hwg, hgrid, hctx, hwords, fun j hj => ?_⟩
        rw [hbytes j hj, bufGet_of_wgs hwgs]
        simp only [Nat.mul_add, Nat.add_assoc, Nat.add_comm (32 * i), Nat.mul_one]

end

end Sys2Proof.Proofs
end

section
/-! kick: its checks in order, and what the wave and the copy engine hold after it (R178, R192). -/

namespace Sys2Proof.Proofs
open Sys2Proof Sys2Proof.Machine

section
variable {s : State} {a b : Opnd} {off : BitVec 8}

/-! ### What waits after a kick -/

/-- The wave with a slot on its C counter for each request. -/
def withSlots (pc : DWord) (n : Nat) (w : Wave) : Wave := (List.range n).foldl (fun w _ => w.addAcc (w.newAcc .c pc .store)) w

/-- The kick of the executing wave. -/
def kickOf (s : State) (addr n : Nat) : Kick := ⟨s.cur.ctx, s.w.idx, s.w.wg, s.w.grid, addr, n, s.w.nextAcc⟩

/-- The wave has moved on and its kick waits. -/
def kicked (s : State) (addr n : Nat) : State :=
  ((s.modW (withSlots s.sp.pc n)).modCore s.cur.core fun k => { k with kicks := k.kicks ++ [kickOf s addr n] }).advance

theorem splits_withSlots (pc : DWord) (n : Nat) (w : Wave) : (withSlots pc n w).splits = w.splits := by
  obtain ⟨as, next, -, -, hfold⟩ := addAcc_slots pc (List.range n) w
  rw [withSlots, hfold]

/-- The kick waits behind the others, and its slots are the wave's youngest. -/
structure Kicked (s t : State) (addr n : Nat) (as : List Acc) : Prop where
  live : t.live = true
  cur : t.cur = s.cur
  pc : t.sp.pc = s.sp.pc + 8
  accs : t.w.accs = s.w.accs ++ as
  slots : SlotsFrom s.w.nextAcc as
  length : as.length = n
  wgs : t.wgs = s.wgs
  copyIn : (t.core s.cur.core).copyIn = (s.core s.cur.core).copyIn
  kicks : (t.core s.cur.core).kicks = (s.core s.cur.core).kicks ++ [kickOf s addr n]

theorem kicked_kicks (hl : s.live = true) (addr n : Nat) : ∃ as, Kicked s (kicked s addr n) addr n as := by
  obtain ⟨as, next, hslots, hlen, hfold⟩ := addAcc_slots s.sp.pc (List.range n) s.w
  have hlive : (s.modW (withSlots s.sp.pc n)).live = true := by
    rw [State.live_modW _ _ fun w => ?_]
    · exact hl
    · rw [Wave.split?, splits_withSlots, Wave.split?]
  have hsp : (s.modW (withSlots s.sp.pc n)).sp = s.sp := sp_modW hl (splits_withSlots ..)
  have haccs : (s.modW (withSlots s.sp.pc n)).w.accs = s.w.accs ++ as := by
    rw [State.w_modW _ _ hl, withSlots, hfold]
  have hspared : Spares s (s.modW (withSlots s.sp.pc n)) := spares_modWave ..
  have hwgs : (s.modW (withSlots s.sp.pc n)).wgs = s.wgs := rfl
  have hcur : (s.modW (withSlots s.sp.pc n)).cur = s.cur := rfl
  rw [kicked]
  generalize s.modW (withSlots s.sp.pc n) = u at *
  have hkept : Kept u (u.modCore s.cur.core fun k => { k with kicks := k.kicks ++ [kickOf s addr n] }) := kept_modCore hlive _ fun _ => rfl
  have hcore : (u.modCore s.cur.core fun k => { k with kicks := k.kicks ++ [kickOf s addr n] }).core s.cur.core =
      { u.core s.cur.core with kicks := (u.core s.cur.core).kicks ++ [kickOf s addr n] } := State.core_modCore ..
  have hpast : Spares _ (u.modCore s.cur.core fun k => { k with kicks := k.kicks ++ [kickOf s addr n] }).advance := spares_modWave ..
  obtain ⟨-, hmoved, -, -, hmaccs, -, -, hpc, -⟩ := movedOn_advance hkept.live
  refine ⟨as, hmoved, hcur, ?_, ?_, hslots, hlen.trans (List.length_range ..), hwgs, ?_, ?_⟩
  · rw [hpc, hkept.sp, hsp]
  · rw [hmaccs, hkept.w, haccs]
  · rw [hpast.copyIn, hcore, ← hspared.copyIn]
  · rw [hpast.kicks, hcore, ← hspared.kicks]

/-- A kick counts each of its requests on its wave's C counter. -/
theorem Kicked.count {t : State} {addr n : Nat} {as : List Acc} (h : Kicked s t addr n as) : t.w.count .c = s.w.count .c + n := by
  rw [Wave.count, h.accs, List.filter_append, List.length_append, h.slots.counted, h.length, Wave.count]

/-! ### The checks (R192) -/

/-- Where a kick's requests begin. -/
def kickAddr (s : State) (a : Opnd) (off : BitVec 8) : Word := (s.src a).at 0 + off.signExtend 32 * 32#32

section
variable (hl : s.live = true) (ha : (s.src a).isUni = true) (hb : (s.src b).isUni = true)
include hl ha hb

theorem exec_kick_none (hn : ((s.src b).at 0).toNat = 0) : exec (.kick a b off) s = .next s.advance := by
  have hzero : (s.src b).at 0 = 0 := BitVec.eq_of_toNat_eq hn
  change execKick a b off s = _
  refine isaCtl_ok hl ?_
  simp only [scalar_of_isUni ha, scalar_of_isUni hb, ok_bind, hzero, ↓reduceIte]

variable (hn : ((s.src b).at 0).toNat ≠ 0)
include hn

theorem exec_kick_misaligned (h : (kickAddr s a off).toNat % 32 ≠ 0) :
    exec (.kick a b off) s = .next (s.raise ⟨tcMisaligned, 0, kickAddr s a off, 0⟩) := by
  have hne : (s.src b).at 0 ≠ 0 := fun h => hn (by rw [h]; rfl)
  change execKick a b off s = _
  refine isaCtl_error hl ?_
  rw [kickAddr] at h
  simp only [scalar_of_isUni ha, scalar_of_isUni hb, ok_bind, if_neg hne, beq_eq_false_iff_ne.2 h, check_false, error_bind]
  rfl

variable (halign : (kickAddr s a off).toNat % 32 = 0)
include halign

theorem exec_kick_many (h : 64 < ((s.src b).at 0).toNat) : exec (.kick a b off) s = .next (s.raise ⟨tcProtection, 0, kickAddr s a off, 0⟩) := by
  have hne : (s.src b).at 0 ≠ 0 := fun h => hn (by rw [h]; rfl)
  change execKick a b off s = _
  refine isaCtl_error hl ?_
  rw [kickAddr] at halign
  simp only [scalar_of_isUni ha, scalar_of_isUni hb, ok_bind, if_neg hne, halign, beq_self_eq_true, check_true, decide_eq_false (Nat.not_le.2 h),
    check_false, error_bind]
  rfl

variable (hmany : ((s.src b).at 0).toNat ≤ 64)
include hmany

theorem exec_kick_outside (h : s.g.size .a < (kickAddr s a off).toNat + ((s.src b).at 0).toNat * 32) :
    exec (.kick a b off) s = .next (s.raise ⟨tcProtection, 0, kickAddr s a off, 0⟩) := by
  have hne : (s.src b).at 0 ≠ 0 := fun h => hn (by rw [h]; rfl)
  change execKick a b off s = _
  refine isaCtl_error hl ?_
  rw [kickAddr] at halign h
  simp only [scalar_of_isUni ha, scalar_of_isUni hb, ok_bind, if_neg hne, halign, beq_self_eq_true, check_true, decide_eq_true hmany,
    decide_eq_false (Nat.not_le.2 h), check_false, error_bind]
  rfl

theorem exec_kick (hin : (kickAddr s a off).toNat + ((s.src b).at 0).toNat * 32 ≤ s.g.size .a)
    (hcount : s.w.count .c + ((s.src b).at 0).toNat ≤ 255) : exec (.kick a b off) s =
      .next (State.readKick s.cur.core ((s.src b).at 0).toNat (kicked s (kickAddr s a off).toNat ((s.src b).at 0).toNat)) := by
  have hne : (s.src b).at 0 ≠ 0 := fun h => hn (by rw [h]; rfl)
  change execKick a b off s = _
  refine isaCtl_ok hl ?_
  rw [kickAddr] at halign hin
  simp only [scalar_of_isUni ha, scalar_of_isUni hb, ok_bind, if_neg hne, halign, beq_self_eq_true, check_true, decide_eq_true hmany,
    decide_eq_true hin, if_neg (Nat.not_lt.2 hcount)]
  rfl

end

/-! ### The engine's books after a kick -/

/-- With the input queue full the kick waits. -/
theorem kick_waits (hl : s.live = true) (addr n : Nat) (hfull : (s.core s.cur.core).copyIn.length = 64) :
    let t := State.readKick s.cur.core n (kicked s addr n)
    t.w.count .c = s.w.count .c + n ∧ t.sp.pc = s.sp.pc + 8 ∧ t.wgs = s.wgs ∧
      (t.core s.cur.core).copyIn = (s.core s.cur.core).copyIn ∧
      (t.core s.cur.core).kicks = (s.core s.cur.core).kicks ++ [kickOf s addr n] := by
  obtain ⟨as, h⟩ := kicked_kicks hl addr n
  rw [readKick_full n (by rw [h.copyIn, hfull])]
  exact ⟨h.count, h.pc, h.wgs, h.copyIn, h.kicks⟩

theorem splits_of_live (hl : s.live = true) : s.w.splits ≠ [] := fun h => by
  have hsplit := split?_of_live hl
  rw [Wave.split?, h] at hsplit
  simp at hsplit

/-- With room for all of them the requests enter the queue in address order, and the slots leave. -/
theorem kick_enters (hl : s.live = true) {addr n : Nat} (hn : 0 < n) (haccs : ∀ a ∈ s.w.accs, a.path ≠ .c ∧ a.id < s.w.nextAcc)
    (hkicks : (s.core s.cur.core).kicks = []) (hroom : (s.core s.cur.core).copyIn.length + n ≤ 64) :
    let t := State.readKick s.cur.core n (kicked s addr n)
    t.w.count .c = 0 ∧ t.sp.pc = s.sp.pc + 8 ∧ t.wgs = s.wgs ∧ (t.core s.cur.core).kicks = [] ∧
      ∃ rs, (t.core s.cur.core).copyIn = (s.core s.cur.core).copyIn ++ rs ∧ rs.length = n ∧
        ∀ i r, rs[i]? = some r → FromKick s (kickOf s addr n) i r := by
  obtain ⟨as, h⟩ := kicked_kicks hl addr n
  obtain ⟨hlive, hcur, hpc, htaccs, hslots, hlen, hwgs, hcopyIn, hall⟩ := h
  generalize kicked s addr n = u at *
  have hwave := wave?_of_live hlive
  rw [hcur] at hwave
  obtain ⟨hwave', hwgs', hcur', hdone, rs, hrs, hrslen, hfrom⟩ := readKick_all (v := u) (core := s.cur.core) (k := kickOf s addr n) (pre := s.w.accs)
    (as := as) hwave (splits_of_live hlive) htaccs haccs hslots (by rw [hall, hkicks, hlen, if_neg hn.ne']; rfl) hlen.symm (by rw [hcopyIn, hlen]; exact hroom)
  rw [hlen] at hwave' hwgs' hcur' hdone hrs hrslen
  generalize State.readKick s.cur.core n u = t at *
  have hw : t.w = { u.w with accs := s.w.accs } := w_of_wave? (by rw [hcur', hcur]; exact hwave')
  have hnone : (s.w.accs.filter fun a => a.path == .c && !a.pathless) = [] :=
    List.filter_eq_nil_iff.2 fun a ha => by simp [(haccs a ha).1]
  refine ⟨by rw [Wave.count, hw, hnone]; rfl, ?_, hwgs'.trans hwgs, hdone, rs, by rw [hrs, hcopyIn], hrslen, fun i r hr => ?_⟩
  · have hsp : t.sp = u.sp := by rw [State.sp, State.sp, hcur', Wave.split?, (congrArg Wave.splits hw :)]; rfl
    rw [hsp, hpc]
  · obtain ⟨hwg, hgrid, hctx, hwords, hbytes⟩ := hfrom i r hr
    exact ⟨hwg, hgrid, hctx, hwords, fun j hj => by rw [hbytes j hj, bufGet_of_wgs hwgs]⟩

end

end Sys2Proof.Proofs
end

section
/-! The copy engine: a request taken and checked, and one part of a linear copy between two places of an A-buffer (R163, R164, R191 to R193). -/

namespace Sys2Proof.Proofs
open Sys2Proof Sys2Proof.Machine

section
variable {s t : State} {core : Nat} {r : CopyReq} {rest : List CopyReq} {g : WGrp}

theorem wg_of_look {wg : Nat} (hg : look s.wgs wg = some g) : s.wg wg = g := by rw [State.wg, hg]; rfl

/-! ### A request taken (R191, R192) -/

/-- The first request of the input queue leaves it. -/
def reqTaken (s : State) (core : Nat) (rest : List CopyReq) : State := s.modCore core fun c => { c with copyIn := rest }

theorem copies_reqTaken (s : State) (core : Nat) (rest : List CopyReq) : ((reqTaken s core rest).core core).copyIn = rest ∧
    ((reqTaken s core rest).core core).copyRun = (s.core core).copyRun := by
  rw [reqTaken, State.core_modCore]
  exact ⟨rfl, rfl⟩

section
variable (hc : (s.core core).copyIn = r :: rest) (hg : look s.wgs r.wg = some g)
include hc hg

/-- A request that names no barrier of its workgroup is recorded and dropped. -/
theorem take_unknown (hnb : g.bars.length ≤ r.nb) : Runs (.copyRequestTake core) s fun t =>
    (t.core core).copyIn = rest ∧ (t.core core).copyRun = (s.core core).copyRun ∧ t.wgs = s.wgs ∧ ∃ bs, t.out = s.out ++ [.event bs] := by
  have hwg : (reqTaken s core rest).wg r.wg = g := wg_of_look hg
  obtain ⟨hin, hrun⟩ := copies_reqTaken s core rest
  refine ⟨(reqTaken s core rest).record tcDenied
    ⟨0, 0, core, ((reqTaken s core rest).grid r.grid).d.stage, false, false, 255, r.grid, r.nb⟩, ?_, ?_, ?_, wgs_record .., _, out_record ..⟩
  · change execCopyRequestTake core s = _
    refine event_some ?_
    simp only [hc]
    exact if_pos (by rw [← reqTaken, hwg, decide_eq_false (Nat.not_lt.2 hnb)]; rfl)
  · rw [core_record, hin]
  · rw [core_record, hrun]

variable (hnb : r.nb < g.bars.length)
include hnb

omit hc in
/-- What an error of its barrier leaves of a request. -/
theorem take_errs {cause : Nat} (hexec : exec (.copyRequestTake core) s = .next ((reqTaken s core rest).barError r.wg r.nb cause 0 false false)) :
    Runs (.copyRequestTake core) s fun t => (t.core core).copyIn = rest ∧ (t.core core).copyRun = (s.core core).copyRun ∧
      (t.bar r.wg r.nb).err = true ∧ (t.bar r.wg r.nb).cause = if (g.bar r.nb).err then (g.bar r.nb).cause else cause := by
  have hbar : HasBar (reqTaken s core rest) r.wg r.nb := ⟨g, hg, hnb⟩
  have hb : (reqTaken s core rest).bar r.wg r.nb = g.bar r.nb := congrArg (WGrp.bar · r.nb) (wg_of_look hg)
  have hleft := bar_barError hbar cause 0 false false
  rw [hb] at hleft
  obtain ⟨hin, hrun⟩ := copies_reqTaken s core rest
  have hspared := spares_barError (reqTaken s core rest) r.wg r.nb cause 0 false false
  exact ⟨_, hexec, (hspared.copyIn core).trans hin, (hspared.copyRun core).trans hrun, congrArg Bar.err hleft, congrArg Bar.cause hleft⟩

theorem take_malformed (hform : r.formed = false) :
    exec (.copyRequestTake core) s = .next ((reqTaken s core rest).barError r.wg r.nb 7 0 false false) := by
  have hwg : (reqTaken s core rest).wg r.wg = g := wg_of_look hg
  change execCopyRequestTake core s = _
  refine event_some ?_
  simp only [hc]
  rw [← reqTaken, hwg, decide_eq_true hnb, hform]
  rfl

theorem take_outside (hform : r.formed = true) (hin : r.inside g = false) :
    exec (.copyRequestTake core) s = .next ((reqTaken s core rest).barError r.wg r.nb 5 0 false false) := by
  have hwg : (reqTaken s core rest).wg r.wg = g := wg_of_look hg
  change execCopyRequestTake core s = _
  refine event_some ?_
  simp only [hc]
  rw [← reqTaken, hwg, decide_eq_true hnb, hform, hin]
  rfl

/-- A request that passes its checks runs. -/
theorem take_runs (hform : r.formed = true) (hin : r.inside g = true) (hmode : r.mode ≠ 2) : Runs (.copyRequestTake core) s fun t =>
    (t.core core).copyIn = rest ∧ (t.core core).copyRun = (s.core core).copyRun ++ [{ r with total := r.count }] ∧ t.wgs = s.wgs := by
  have hwg : (reqTaken s core rest).wg r.wg = g := wg_of_look hg
  obtain ⟨hleft, hrun⟩ := copies_reqTaken s core rest
  refine ⟨(reqTaken s core rest).modCore core fun c => { c with copyRun := c.copyRun ++ [{ r with total := r.count }] }, ?_, ?_, ?_, rfl⟩
  · change execCopyRequestTake core s = _
    refine event_some ?_
    simp only [hc]
    rw [← reqTaken, hwg, decide_eq_true hnb, hform, hin]
    simp only [hmode, decide_false, Bool.false_and, Bool.not_true, Bool.false_eq_true, ↓reduceIte]
  · rw [State.core_modCore]; exact hleft
  · rw [State.core_modCore]; exact congrArg (· ++ _) hrun

end

/-! ### The memory under a barrier (R183, R409) -/

/-- From s to t the pools stayed, and without a log ring no byte of memory changed. -/
def MemKept (s t : State) : Prop := t.pools = s.pools ∧ (s.pools.logRing = none → t.mem = s.mem)

theorem MemKept.trans {u : State} (h : MemKept s t) (k : MemKept t u) : MemKept s u :=
  ⟨k.1.trans h.1, fun hlog => (k.2 (h.1 ▸ hlog)).trans (h.2 hlog)⟩

theorem Spares.memKept (h : Spares s t) : MemKept s t := ⟨h.pools, h.mem⟩

theorem memKept_modBar (s : State) (wg k : Nat) (f : Bar → Bar) : MemKept s (s.modBar wg k f) := ⟨rfl, fun _ => rfl⟩

theorem memKept_barError (s : State) (wg k cause : Nat) (addr : DWord) (virt unc : Bool) : MemKept s (s.barError wg k cause addr virt unc) :=
  (memKept_modBar ..).trans (spares_barError ..).memKept

theorem memKept_barCheck (wg k n : Nat) (s : State) : MemKept s (State.barCheck wg k n s) := by
  induction n generalizing s with
  | zero => exact (Spares.refl s).memKept
  | succ n ih =>
    rw [State.barCheck]
    simp only
    split
    · exact (Spares.refl s).memKept
    · split
      · exact ((spares_releaseBar ..).memKept.trans (memKept_modBar ..)).trans (ih _)
      · split
        · exact memKept_barError ..
        · exact (Spares.refl s).memKept

theorem memKept_barBytes (s : State) (wg k : Nat) (q : Bool) (n : Nat) (x : Option DWord) : MemKept s (s.barBytes wg k q n x) := by
  unfold State.barBytes State.barCount
  simp only
  split
  · exact ((memKept_modBar ..).trans (memKept_barError ..)).trans (memKept_barCheck ..)
  · exact (memKept_modBar ..).trans (memKept_barCheck ..)

/-! ### One part (R163, R164, R193) -/

theorem a_modWg (s : State) (k : Nat) {f : WGrp → WGrp} (hf : ∀ g, (f g).a = g.a) (j : Nat) : ((s.modWg k f).wg j).a = (s.wg j).a := by
  by_cases hj : j = k
  · subst hj
    simp only [State.wg, State.look_modWg]
    cases look s.wgs j with
    | none => rfl
    | some g => exact hf g
  · rw [State.wg_modWg_ne _ _ hj]

theorem a_modTags (g : WGrp) (sp : Space) (ts : List Nat) (f : Tag → Tag) : (g.modTags sp ts f).a = g.a := WGrp.buf_modTags g sp .a ts f

/-- 16 bytes in an A-buffer, with the tags of the tiles that they begin and end. -/
def partStored (s : State) (core : Nat) (r : CopyReq) (lo : Nat) (bs : List Byte) (fresh ended : List Nat) : State :=
  ended.foldl (fun s t => s.tileDone r.wg .a t false)
    ((s.bufPut core r.wg .a lo bs .engine).modWg r.wg fun g => g.modTags .a fresh fun t => { t with v := false })

theorem partStored_stores (core lo : Nat) (bs : List Byte) (fresh ended : List Nat) (hg : look s.wgs r.wg = some g) :
    ((partStored s core r lo bs fresh ended).wg r.wg).a = g.a.puts lo bs ∧ MemKept s (partStored s core r lo bs fresh ended) := by
  refine List.foldlRecOn (motive := fun v : State => (v.wg r.wg).a = g.a.puts lo bs ∧ MemKept s v) _ _ ⟨?_, rfl, fun _ => rfl⟩
    fun v ⟨ha, hmem⟩ x _ => ⟨?_, hmem.trans ⟨rfl, fun _ => rfl⟩⟩
  · rw [a_modWg _ _ fun g => a_modTags g ..]
    exact State.buf_bufPut (by_ := .engine) hg .a
  · rw [State.tileDone, a_modWg _ _ fun g => WGrp.buf_modTag g .a .a ..]
    exact ha

/-- The count of a part moves no byte. -/
theorem copyNext_keeps (core next : Nat) (u : State) (r : CopyReq) (x : Option DWord) :
    ((u.copyNext core r next 0 16 0 x).wg r.wg).a = (u.wg r.wg).a ∧ MemKept u (u.copyNext core r next 0 16 0 x) := by
  have hend (v : State) (hwgs : v.wgs = u.wgs) (hmem : v.mem = u.mem) (hpools : v.pools = u.pools) :
      ((v.barBytes r.wg r.nb r.par 16 x).wg r.wg).a = (u.wg r.wg).a ∧ MemKept u (v.barBytes r.wg r.nb r.par 16 x) :=
    ⟨((untouched_barBytes v ..).a r.wg).trans (by rw [wg_of_wgs hwgs]), MemKept.trans ⟨hpools, fun _ => hmem⟩ (memKept_barBytes v ..)⟩
  rw [State.copyNext]
  simp only [OfNat.ofNat_ne_zero, ↓reduceIte]
  exact hend _ (by split <;> rfl) (by split <;> rfl) (by split <;> rfl)

section
variable (hmode : r.mode = 0) (hssp : r.ssp = 1) (hdsp : r.dsp = 1)
include hmode

theorem places_linear (i : Nat) : r.places i = (((r.src + 16 * i : Nat) : Int), ((r.dst + 16 * i : Nat) : Int)) := by
  rw [CopyReq.places, hmode]
  rfl

include hssp in
theorem copyPlain_linear (hwait : r.swait = false) (i : Nat) :
    s.copyPlain core r i = .bytes (s.bufGet r.wg .a (r.src + 16 * i) 16) := by
  have hmode2 : r.mode ≠ 2 := by omega
  rw [State.copyPlain, if_neg hmode2, places_linear hmode, State.copySrc, hssp, if_neg (by decide), hwait]
  rfl

include hdsp in
/-- A part whose destination may take it. -/
theorem copyDst_linear {i : Nat} {bs : List Byte} (hlen : bs.length = 16) (last : Nat → Bool) (hg : look s.wgs r.wg = some g)
    (hbegin : g.mayBegin .a r.begun (tilesOf (r.dst + 16 * i) 16) = true) :
    s.copyDst core r (r.places i).2 bs last false =
      let fresh := (tilesOf (r.dst + 16 * i) 16).filter fun t => !r.begun.contains t
      .ok (partStored s core r (r.dst + 16 * i) bs fresh ((tilesOf (r.dst + 16 * i) 16).filter last), { r with begun := fresh ++ r.begun }, none) := by
  rw [places_linear hmode, State.copyDst, hdsp, if_neg (by decide)]
  have hspace : spaceOf 1 false = .a := rfl
  simp only [Int.toNat_natCast, hspace, hlen, wg_of_look hg, hbegin, ↓reduceIte]
  rfl

include hssp hdsp in
theorem copyStep_linear (hwait : r.swait = false) (hg : look s.wgs r.wg = some g)
    (hbegin : g.mayBegin .a r.begun (tilesOf (r.dst + 16 * r.next) 16) = true) : ∃ fresh ended,
    s.copyStep core r = some ((partStored s core r (r.dst + 16 * r.next) (s.bufGet r.wg .a (r.src + 16 * r.next) 16) fresh ended).copyNext
      core { r with begun := fresh ++ r.begun } (r.next + 1) 0 16 0 none) := by
  have hlen : (s.bufGet r.wg .a (r.src + 16 * r.next) 16).length = 16 := by simp [State.bufGet, Mem.gets]
  have hz : (r.mode == 2 && r.gatherZ) = false := by rw [hmode]; rfl
  refine ⟨(tilesOf (r.dst + 16 * r.next) 16).filter fun t => !r.begun.contains t,
    (tilesOf (r.dst + 16 * r.next) 16).filter fun t => !r.laterIn r.next t, ?_⟩
  simp only [State.copyStep, copyPlain_linear hmode hssp hwait, hz, copyDst_linear hmode hdsp hlen _ hg hbegin]

end

/-- One part of a linear copy inside an A-buffer. -/
theorem runs_copyPartWrite (hfind : (s.core core).copyRun.find? (·.id == r.id) = some r) (hg : look s.wgs r.wg = some g)
    (hwf : Mem.wf g.a = true) (hgrant : r.granted ≠ 0) (hmode : r.mode = 0) (hzc : r.zc = 0) (hssp : r.ssp = 1) (hdsp : r.dsp = 1)
    (hwait : r.swait = false) (hbegin : g.mayBegin .a r.begun (tilesOf (r.dst + 16 * r.next) 16) = true) :
    Runs (.copyPartWrite core r.id) s fun t => (s.pools.logRing = none → t.mem = s.mem) ∧ ∀ a, Mem.get (t.wg r.wg).a a =
      if r.dst + 16 * r.next ≤ a ∧ a < r.dst + 16 * r.next + 16 then Mem.get g.a (r.src + 16 * r.next + (a - (r.dst + 16 * r.next)))
      else Mem.get g.a a := by
  obtain ⟨fresh, ended, hstep⟩ := copyStep_linear (core := core) hmode hssp hdsp hwait hg hbegin
  have hlen : (s.bufGet r.wg .a (r.src + 16 * r.next) 16).length = 16 := by simp [State.bufGet, Mem.gets]
  obtain ⟨ha, hmem⟩ := partStored_stores core (r.dst + 16 * r.next) (s.bufGet r.wg .a (r.src + 16 * r.next) 16) fresh ended hg
  obtain ⟨hkeep, hmem'⟩ := copyNext_keeps core (r.next + 1)
    (partStored s core r (r.dst + 16 * r.next) (s.bufGet r.wg .a (r.src + 16 * r.next) 16) fresh ended) { r with begun := fresh ++ r.begun } none
  refine ⟨_, ?_, (hmem.trans hmem').2, fun a => ?_⟩
  · change execCopyPartWrite core r.id s = _
    refine event_some ?_
    simp only [hfind, hgrant, hzc, ↓reduceIte, OfNat.zero_ne_ofNat, zero_ne_one]
    exact hstep
  · rw [hkeep, ha, Mem.get_puts _ _ _ hwf, hlen]
    split
    · rw [getD_bufGet (by omega), byteAt_eq, wg_of_look hg]
      rfl
    · rfl

end

/-- Settles O33: the checks and the books of kick, the refill of the input queue, a request taken, and one part of a linear copy. -/
theorem copyEngine : Obligations.CopyEngine := by
  unfold Obligations.CopyEngine
  refine ⟨fun s a b off hq hs ha hb => ?_, fun s core => ⟨fun k ks hk hroom => runs_kickQueueRefill hk hroom, fun r rest g hc hg => ?_,
    fun r g hfind hg hwf hgrant hmode hzc hssp hdsp hwait hbegin => runs_copyPartWrite hfind hg hwf hgrant hmode hzc hssp hdsp hwait hbegin⟩⟩
  · refine ⟨exec_kick_none hq.1 ha hb, exec_kick_misaligned hq.1 ha hb,
      fun halign hmany => exec_kick_many hq.1 ha hb (by omega) halign hmany, exec_kick_outside hq.1 ha hb,
      fun halign hmany hin => ⟨fun hn hcount hfull => ?_, fun hn hcount haccs hkicks hroom => ?_⟩⟩
    · exact ⟨_, exec_kick hq.1 ha hb hn.ne' halign hmany hin hcount, kick_waits hq.1 _ _ hfull⟩
    · exact ⟨_, exec_kick hq.1 ha hb hn.ne' halign hmany hin hcount, kick_enters hq.1 hn haccs hkicks hroom⟩
  · exact ⟨take_unknown hc hg, fun hnb hform => take_errs hg hnb (take_malformed hc hg hnb hform),
      fun hnb hform hin => take_errs hg hnb (take_outside hc hg hnb hform hin), take_runs hc hg⟩

end Sys2Proof.Proofs
end
